-- ==== Sys2Proof/Word.lean ====
section
/-! DEFINITION. The bit-vector types of the manual: bytes, half-words, words and job memory addresses
(12, opening: words are 32 bits, job memory addresses are 28 bits wide). -/

namespace Sys2Proof

/-- One byte: a coverage sample, a link byte. -/
abbrev Byte := BitVec 8

/-- Sixteen bits: a word of the configuration memory, a link position, a runs-left field. -/
abbrev Half := BitVec 16

/-- One word of job memory. -/
abbrev Word := BitVec 32

/-- A job memory byte address. -/
abbrev Addr := BitVec 28

/-- A tower index, 0 to 11. -/
abbrev Tower := Fin 12

/-- A key slot of a tower: 0 to 47 the keys, 48 the fountain. -/
abbrev Slot := Fin 49

/-- A control word index, 0 to 31. -/
abbrev CtlWord := Fin 32

end Sys2Proof
end

