-- ==== Sys2Proof/Syntax.lean ====
section
/-! DEFINITION. The commands of the IK612, one constructor per row of spec/opcode_table.json, with the
operands the event carries. A full-word write of a control word is given by its class, its address, the
fields of the written value and the bits R179 ignores (`rest`), so that every written word can be said. -/

namespace Sys2Proof

/-- The class of the master that makes an access (R1); codes in 12.1. -/
inductive MasterClass where
  | console | prepress | scanbar | service
  deriving DecidableEq, Repr

/-- The direction of an access (R1). -/
inductive Dir where
  | read | write
  deriving DecidableEq, Repr

/-- One of the two coverage banks. -/
inductive BankId where
  | a | b
  deriving DecidableEq, Repr

/-- A press-bus access as it is presented (R1). -/
structure Access where
  cls : MasterClass
  addr : Addr
  dir : Dir
  enables : BitVec 4
  data : Word
  deriving DecidableEq, Repr

/-- Memory's answer to one word (R2, R9). `landed` says whether a word answered ERROR was written all the
same, which R28 and R123 leave open; it has no meaning for a read (log 4). -/
inductive MemAnswer where
  | ok
  | error (landed : Bool)
  deriving DecidableEq, Repr

/-- What the receiver sees on the return line: a rest of at least 120 µs, or the ten levels of a byte, a start bit
at 0, the bits of the value from the least significant up, and the stop bit at the level given (R82, R93). -/
inductive LineEvent where
  | rest
  | byte (value : Byte) (stopBit : Bool)
  deriving DecidableEq, Repr

/-- The two ways a key's last unsuccessful move ends (R75). -/
inductive KeyFaultCause where
  | stall (address key tag : Byte) (position : Half)
  | timeout (tower : Tower) (slot : Slot)
  deriving DecidableEq, Repr

/-- The commands. The names follow the table's mnemonics. -/
inductive Instr where
  -- reset
  | pinReset (landed : BitVec 2)
  -- press-bus accesses
  | plainAccess (a : Access)
  | refusedWrite (cls : MasterClass) (addr : Addr) (enables : BitVec 4) (data : Word)
  | misfitWrite (cls : MasterClass) (addr : Addr) (enables : BitVec 4) (data : Word)
  | passThroughResponse (ans : MemAnswer)
  | mpGrant
  | liveRead (cls : MasterClass) (addr : Addr) (enables : BitVec 4)
  | trimWrite (cls : MasterClass) (addr : Addr) (trim rest : Half)
  | coverageWrite (cls : MasterClass) (addr : Addr) (data : Word)
  | foldTake (cls : MasterClass) (addr : Addr) (data : Word)
  | foldReadResponse (ans : MemAnswer)
  | foldWriteResponse (ans : MemAnswer)
  | measureWrite (cls : MasterClass) (addr : Addr) (data : Word)
  | commit (cls : MasterClass) (addr : Addr) (data : Word)
  | commitResponse (ans : MemAnswer)
  -- internal requests
  | slotReadComplete (errors : BitVec 31)
  | clearFirstOffer
  | clearWriteComplete (ans : MemAnswer)
  | orderWriteComplete (ans6 ans7 : MemAnswer)
  | orderFetchError
  | orderCancelled
  -- fetched orders
  | preset
  | trimSet
  | trimAdd
  | corrClear
  | hold
  | release
  | clearBank
  | lockBank
  | unlockBank
  | swapBanks
  | orderLoopOn
  | orderLoopOff
  | nop
  -- the control unit's requests
  | mirrorWriteComplete (ans : MemAnswer)
  | noticeWriteComplete (ans : MemAnswer)
  | preloadWriteComplete (ans : MemAnswer)
  | answerWriteResponse (ans : MemAnswer)
  -- commands in control words
  | badCode (cls : MasterClass) (addr : Addr) (data : Word)
  | start (cls : MasterClass) (addr : Addr) (index : Byte) (rest : BitVec 16)
  | stop (cls : MasterClass) (addr : Addr) (index : Byte) (rest : BitVec 16)
  | stopAll (cls : MasterClass) (addr : Addr) (rest : BitVec 24)
  | arm (cls : MasterClass) (addr : Addr) (index divisor rest : Byte)
  | disarm (cls : MasterClass) (addr : Addr) (rest : BitVec 24)
  | event (cls : MasterClass) (addr : Addr) (flags : BitVec 14) (rest : BitVec 18)
  | eventEnable (cls : MasterClass) (addr : Addr) (enables : BitVec 14) (rest : BitVec 18)
  | partStatus (cls : MasterClass) (addr : Addr) (data : Word)
  | engine (cls : MasterClass) (addr : Addr) (data : Word)
  | refusal (cls : MasterClass) (addr : Addr) (data : Word)
  | measureStatus (cls : MasterClass) (addr : Addr) (data : Word)
  | clear (cls : MasterClass) (addr : Addr) (bank : BankId) (rest : BitVec 23)
  | lock (cls : MasterClass) (addr : Addr) (bank : BankId) (rest : BitVec 23)
  | unlock (cls : MasterClass) (addr : Addr) (bank : BankId) (rest : BitVec 23)
  | swap (cls : MasterClass) (addr : Addr) (rest : BitVec 24)
  | reload (cls : MasterClass) (addr : Addr) (rest : BitVec 24)
  | wake (cls : MasterClass) (addr : Addr) (rest : BitVec 24)
  | park (cls : MasterClass) (addr : Addr) (rest : BitVec 24)
  | reset (cls : MasterClass) (addr : Addr) (rest : BitVec 24)
  | loopOn (cls : MasterClass) (addr : Addr) (rest : BitVec 24)
  | loopOff (cls : MasterClass) (addr : Addr) (rest : BitVec 24)
  | clearFaults (cls : MasterClass) (addr : Addr) (rest : BitVec 24)
  -- press signals
  | sheet
  | rampComplete
  | settleEnd
  | sheetFiring
  | imprRise
  | imprFall
  | jobchg
  -- key drive link
  | sendingEnd
  | gapEnd
  | done (address key tag : Byte) (position : Half)
  | stall (address key tag : Byte) (position : Half)
  | keyFault (cause : KeyFaultCause)
  | report (address key tag : Byte) (position : Half)
  | hello (address key tag : Byte) (position : Half)
  | frameDiscarded (line : List LineEvent)
  -- timers
  | moveTimeout (tower : Tower) (slot : Slot)
  | towerDown (tower : Tower) (slot : Slot)
  -- configuration loader
  | headerRead (image : List Byte)
  | sectionRead (image : List Byte)
  | sectionReloadComplete (image : List Byte)
  -- a fetched order with no verb
  | verbFault
  deriving DecidableEq, Repr

end Sys2Proof
end

