-- ==== Sys2Proof/WellFormed.lean ====
section
/-! DEFINITION. Which commands the manual admits: the checks an operand must pass for the event it names to
exist. Execution does not ask for them; a statement that needs one assumes it. -/

namespace Sys2Proof

/-- Byte enables name one or more of the four bytes (R1). -/
def enablesOk (en : BitVec 4) : Bool := en != 0

/-- A configuration memory holds at most 8 KB (R169). -/
def imageOk (image : List Byte) : Bool := image.length ≤ 8192

/-- The well-formed commands.
Every other operand may hold any value of its type. -/
def Instr.wf : Instr → Bool
  | .plainAccess a => enablesOk a.enables
  | .refusedWrite _ _ en _ => enablesOk en
  | .misfitWrite _ _ en _ => enablesOk en
  | .liveRead _ _ en => enablesOk en
  | .headerRead image => imageOk image
  | .sectionRead image => imageOk image
  | .sectionReloadComplete image => imageOk image
  | _ => true

end Sys2Proof
end

