-- ==== Sys2Proof/Decode.lean ====
section
/-! DEFINITION. The commands that a word spells: spec/opcode_table.json gives no row any bits, so no word spells
one. -/

namespace Sys2Proof

/-- The command a word of `nbits` bits spells by the table's bits: none, since no row has bits. -/
def decodeTableWord (_nbits _w : Nat) : Option Instr := none

end Sys2Proof
end

