-- ==== Sys2Proof/Config.lean ====
section
/-! DEFINITION. What an implementation fixes and the manual leaves free, and the numbers the manual
gives once for the whole part. -/

namespace Sys2Proof

/-- FREE VALUE (log 5). The level a missing configuration memory leaves on CFG_MISO: R169 gives only
that every word then reads as FFFFh or as 0000h, so that every byte reads as FFh or as 00h. -/
opaque Config.pullHigh : Bool

/-- A byte of the configuration memory that no memory supplies (R169). -/
def Config.missingByte : Byte := if Config.pullHigh then 0xFF#8 else 0x00#8

/-- The read command of the configuration memory (R169). -/
def Config.readCommand : Byte := 0x03#8

/-- The most moves a tower has in flight (R62). -/
def Config.maxInFlight : Nat := 4

/-- Unsuccessful moves in a row that put a key in FAULT (R70, R71). -/
def Config.maxTries : Nat := 3

/-- Consecutive timeouts that take a tower to FAULTED (R74). -/
def Config.maxTimeouts : Nat := 3

/-- The starvation limit while LOADING (R16). -/
def Config.loadingLimit : Nat := 16

/-- The move timeout after a pin reset and during a load, in seconds (R62). -/
def Config.loadingTimeout : Nat := 20

/-- The visited count at which an order faults CHAIN_LOOP (R117, R127). -/
def Config.chainLimit : Nat := 65

/-- The value that stands for "not measured", "not available" and UNKNOWN (00, Quantities; R13). -/
def Config.noValue : Nat := 65535

/-- The first byte of every link frame (12.5). -/
def Config.startMark : Byte := 0xA5#8

/-- The signature word of the configuration memory (12.6). -/
def Config.signature : Half := 0x5A3C#16

end Sys2Proof
end

