-- ==== Sys2Proof/Machine/State.lean ====
section
/-! DEFINITION. The state of the IK612 as plain data, block by block (00, "The blocks and how they work
together"), and its value after a pin reset. INVENTORY.md lists each field with its rule. -/

namespace Sys2Proof.Machine

/-! ### One value per class, bank, trigger source -/

/-- One value for each master class. -/
structure PerClass (α : Type) where
  console : α
  prepress : α
  scanbar : α
  service : α
  deriving DecidableEq, Repr

/-- One value for each coverage bank. -/
structure PerBank (α : Type) where
  a : α
  b : α
  deriving DecidableEq, Repr

/-- The trigger sources of the five bindings (08, introduction). -/
inductive Source where
  | sheet | jobchg | imprOn | imprOff | measure
  deriving DecidableEq, Repr

/-- One value for each trigger source. -/
structure PerSource (α : Type) where
  sheet : α
  jobchg : α
  imprOn : α
  imprOff : α
  measure : α
  deriving DecidableEq, Repr

/-! ### Codes -/

/-- Result codes of commands (12.1). -/
inductive Result where
  | accepted | queued | refusedBusy | refusedRange | refusedState | notRunning | badCode
  deriving DecidableEq, Repr

/-- The fourteen event flags, in the order of their bit positions (12.1). -/
inductive EventFlag where
  | orderDone | orderFault | keyFault | towerDown | towerUp | bankReady | bankRefused
  | measureApplied | measureDropped | triggerMerged | protectHit | windowMisfit | memoryFault | configFault
  deriving DecidableEq, Repr

/-- The response the press-bus port gives (R1). A read carries its enables and the enabled bytes. -/
inductive Response where
  | ok
  | okRead (enables : BitVec 4) (data : Word)
  | busError
  deriving DecidableEq, Repr

/-! ### Windows and the memory port -/

/-- Kinds of window (R3). -/
inductive WindowKind where
  | coverage | measure | control | live | orders | guard
  deriving DecidableEq, Repr

/-- A valid window entry in effect (R3). Bit n of a mask stands for class n. -/
structure Window where
  kind : WindowKind
  base : Nat
  size : Nat
  matchMask : BitVec 4
  refuseMask : BitVec 4
  deriving DecidableEq, Repr

/-- The eight entries in ascending index; an invalid entry is none (R3, R4). -/
abbrev WindowTable := List (Option Window)

/-- What a pass-through access is made for (R9, R10, R11, R27, R28, R144, R145). -/
inductive Purpose where
  | plain
  | foldRead
  | foldWrite
  | measure
  | commit (slot : Fin 16)
  | answer (word : CtlWord) (result : Result) (index : Byte)
  deriving DecidableEq, Repr

/-- What a press-bus access in progress waits for (R8, R15, R25). A coverage write that still waits for the latch when
a RELOAD starts is overtaken by it, and is refused when it is taken (R39). -/
inductive BusStage where
  | waitLatch
  | overtaken
  | claim (p : Purpose)
  | granted (p : Purpose)
  deriving DecidableEq, Repr

/-- A press-bus access in progress (R1). -/
structure BusAccess where
  access : Access
  stage : BusStage
  deriving DecidableEq, Repr

/-- One word as it stands on the memory port, with the byte address that the port carries (R1, R2). -/
structure PortWord where
  addr : Nat
  dir : Dir
  enables : BitVec 4
  data : Word
  deriving DecidableEq, Repr

/-- An internal request (R2), with what its unit fixes when it offers it. -/
inductive IReq where
  | clearWrite (addr : Nat)
  | orderRead (addr : Nat)
  | orderWrite (addr : Nat) (runsLeft : Half) (status : Word)
  | slotRead (slot : Fin 16) (addr : Nat)
  | mirrorWrite (word : CtlWord) (addr : Nat)
  | noticeWrite (addr : Nat) (datum : Word)
  | preloadWrite (addr : Nat) (value : Word)
  deriving DecidableEq, Repr

/-- What holds the memory port (R2). An orphan is a granted pass-through access whose press-bus access a
pin reset has answered (R20); a discarded request completes without delivery (R19). -/
inductive PortHolder where
  | passThrough (cls : MasterClass) (w : PortWord)
  | orphan (w : PortWord)
  | internal (r : IReq) (ws : List PortWord) (discarded : Bool)
  deriving DecidableEq, Repr

/-- The memory port, its arbiter and the internal request queue (R15 to R20). -/
structure MemPort where
  holder : Option PortHolder
  pointer : MasterClass
  queue : List IReq
  passOver : Nat
  limit : Nat
  deriving DecidableEq, Repr

/-! ### Coverage unit -/

/-- Bank states (12.1). -/
inductive BankState where
  | stale | clearing | opened | locked
  deriving DecidableEq, Repr

/-- A tower's geometry record (R22). -/
structure Geometry where
  w : Nat
  k : Nat
  bounds : List Nat
  deriving DecidableEq, Repr

/-- One tower's frame of a bank: its fit flag and a sum for each key slot (R24, R36). -/
structure Frame where
  fit : Bool
  sums : Vector Int 48
  deriving DecidableEq, Repr

/-- One bank (R30). -/
structure Bank where
  state : BankState
  frames : Vector Frame 12
  deriving DecidableEq, Repr

/-- The coverage range: base and size of the installed COVERAGE window (R21). -/
structure CoverRange where
  base : Nat
  size : Nat
  deriving DecidableEq, Repr

/-- A run of bytes of the clear plan: a frame's first address and its image length (R35). -/
structure Span where
  addr : Nat
  len : Nat
  deriving DecidableEq, Repr

/-- The clear cursor with its plan: the word it stands at, counted from the plan's start, and whether its
first offer has been made (R35). -/
structure Cursor where
  bank : BankId
  plan : List Span
  word : Nat
  started : Bool
  deriving DecidableEq, Repr

/-- The fold in the latch (R25): all it fixed at its take, the old word once read, the void mark, and
whether a CLEAR of its bank was taken meanwhile (R28, R29). -/
structure Fold where
  cls : MasterClass
  bank : BankId
  tower : Tower
  addr : Nat
  offset : Nat
  row : Nat
  column : Nat
  owners : List (Option (Fin 48))
  new : Word
  old : Option Word
  void : Bool
  cleared : Bool
  deriving DecidableEq, Repr

/-- The coverage unit (02, introduction). -/
structure Coverage where
  range : Option CoverRange
  geometry : Vector (Option Geometry) 12
  banks : PerBank Bank
  active : BankId
  cursor : Option Cursor
  latch : Option Fold
  waiting : List MasterClass
  deriving DecidableEq, Repr

/-! ### Towers: key table, tower controller, loop and link state of each -/

/-- Move states (12.1). -/
inductive MoveState where
  | idle | queued | inFlight | retarget | fault
  deriving DecidableEq, Repr

/-- Key faults (12.1). -/
inductive KeyFault where
  | stall | timeout
  deriving DecidableEq, Repr

/-- A ramp (03, introduction). -/
structure Ramp where
  from_ : Nat
  dest : Nat
  done : Nat
  total : Nat
  deriving DecidableEq, Repr

/-- One key or fountain record: value fields (03, introduction) and movement fields (R59). `none` in
commanded or reported is UNKNOWN; `timer` holds the timeout a running move timer was started with (log 6). -/
structure KeyRec where
  base : Nat
  trim : Int
  correction : Int
  hold : Bool
  ramp : Option Ramp
  target : Nat
  commanded : Option Nat
  reported : Option Nat
  move : MoveState
  tag : BitVec 4
  tries : Nat
  fault : Option KeyFault
  timer : Option Nat
  deriving DecidableEq, Repr

/-- What the key table takes from a tower's section (R42, R53). -/
structure KeyCfg where
  k : Nat
  omax : Nat
  defaultCurve : Fin 16
  fountain : Bool
  fountainCurve : Fin 16
  deriving DecidableEq, Repr

/-- Service states (12.1). -/
inductive Service where
  | unconfigured | parked | parking | ready | printing | faulted
  deriving DecidableEq, Repr

/-- Loop states (12.1). -/
inductive LoopState where
  | off | settling | armed
  deriving DecidableEq, Repr

/-- Loop settings of a tower (R142). -/
structure LoopSettings where
  target : Nat
  gain : Nat
  deadband : Nat
  step : Nat
  limit : Nat
  sheets : Nat
  minCoverage : Nat
  deriving DecidableEq, Repr

/-- All that the key table, the tower controller, the loop unit and the link unit hold for one tower. -/
structure TowerState where
  service : Service
  parkHold : Bool
  cfg : Option KeyCfg
  recs : Vector KeyRec 49
  queue : List Slot
  flight : List Slot
  tagCounter : BitVec 4
  timeouts : Nat
  loop : LoopState
  settle : Nat
  settings : Option LoopSettings
  address : Option Byte
  haltPending : Bool
  queryPending : Bool
  deriving DecidableEq, Repr

/-! ### Key drive link -/

/-- Transmitter states (R88); SENDING holds the frame that goes out. -/
inductive TxState where
  | idle
  | sending (frame : List Byte)
  | gap
  deriving DecidableEq, Repr

/-- Receiver states (R93): waiting for a rest, or assembling the bytes that follow one. -/
inductive RxState where
  | awaitRest
  | assembling (bytes : List Byte)
  deriving DecidableEq, Repr

/-- The part of the link unit that belongs to no tower. -/
structure Link where
  tx : TxState
  pointer : Tower
  rx : RxState
  deriving DecidableEq, Repr

/-! ### Order engine -/

/-- Engine states (12.1). -/
inductive EngineState where
  | idle | fetching | writingBack
  deriving DecidableEq, Repr

/-- Order fault codes (12.3). -/
inductive FaultCode where
  | verb | range | tower | bankState | frameUnfit | exhausted | link | chainLoop | memory
  deriving DecidableEq, Repr

/-- Outcomes of an order (R122). -/
inductive OrderOutcome where
  | done
  | exhausted
  | fault (code : FaultCode)
  | cancelled
  deriving DecidableEq, Repr

/-- The running order: the fetched words and the outcome its write-back carries (R115). -/
structure RunningOrder where
  words : List Word
  outcome : OrderOutcome
  deriving DecidableEq, Repr

/-- The order table (R114). -/
structure OrderTable where
  base : Nat
  length : Nat
  deriving DecidableEq, Repr

/-- One binding (R133). -/
structure Binding where
  armed : Bool
  pending : Bool
  index : Nat
  deriving DecidableEq, Repr

/-- The order engine and its order-start side (07 R115, 08 introduction). -/
structure Engine where
  state : EngineState
  head : Nat
  current : Nat
  visited : Nat
  running : Option RunningOrder
  stop : Bool
  table : Option OrderTable
  slot : Option Nat
  bindings : PerSource Binding
  divisor : Nat
  counter : Nat
  tie : Option Source
  startIndex : Byte
  stopIndex : Byte
  deriving DecidableEq, Repr

/-! ### Loop unit -/

/-- Measurement slot states (R143). -/
inductive SlotState where
  | free | busy
  deriving DecidableEq, Repr

/-- Drop reasons (12.1). -/
inductive DropReason where
  | none | busy | memory | badRecord | towerState | loopState | noCoverage
  deriving DecidableEq, Repr

/-- The measure status (R153); no tower is none. -/
structure MeasureStatus where
  reason : DropReason
  slot : Fin 16
  dropTower : Option Byte
  applied : Option Tower
  sheetTag : Half
  deriving DecidableEq, Repr

/-- The part of the loop unit that belongs to no tower (09, introduction). Bit t of `overReset` at slot i says that the
record of slot i was in the read list, or being read, when a good reset of tower t completed (R156; log 33). -/
structure LoopUnit where
  slots : Vector SlotState 16
  readList : List (Fin 16)
  reading : Bool
  overReset : Vector (BitVec 12) 16
  status : MeasureStatus
  deriving DecidableEq, Repr

/-! ### Control unit and configuration loader -/

/-- Part states (12.1). -/
inductive PartState where
  | loading | passOnly | running
  deriving DecidableEq, Repr

/-- Event clear modes (R164). -/
inductive ClearMode where
  | clearOnes | replace
  deriving DecidableEq, Repr

/-- The refusal capture (R167). -/
structure Capture where
  valid : Bool
  addr : Addr
  cls : MasterClass
  deriving DecidableEq, Repr

/-- The request in the control unit's channel (R161). -/
inductive ChannelReq where
  | notice
  | mirror (word : CtlWord)
  | preload
  deriving DecidableEq, Repr

/-- The control unit (10, introduction). -/
structure Control where
  part : PartState
  flags : BitVec 14
  enables : BitVec 14
  mode : ClearMode
  line : Bool
  noticeAddr : Nat
  noticeDatum : Word
  noticePending : Bool
  capture : Capture
  mirror : BitVec 32
  pointer : CtlWord
  last : Vector Result 32
  channel : Option ChannelReq
  deriving DecidableEq, Repr

/-- The GLOBAL section as checked (R172). -/
structure GlobalCfg where
  tableBase : Nat
  tableLength : Nat
  noticeAddr : Nat
  noticeDatum : Word
  mode : ClearMode
  enables : BitVec 14
  timeout : Nat
  limit : Nat
  deriving DecidableEq, Repr

/-- A tower section as checked (R174). -/
structure TowerCfg where
  address : Byte
  geometry : Geometry
  key : KeyCfg
  loop : LoopSettings
  deriving DecidableEq, Repr

/-- A curve: its eleven points (R40). -/
abbrev Curve := List Nat

/-- The staged configuration (11, introduction). -/
structure Staged where
  globals : Option GlobalCfg
  windows : WindowTable
  curves : List Curve
  towers : Vector (Option TowerCfg) 12
  preload : List (Nat × Word)
  deriving DecidableEq, Repr

/-- The header as judged good (R169): the section count and the pointer words. -/
structure Header where
  count : Nat
  pointers : List Half
  deriving DecidableEq, Repr

/-- Loader states (11, introduction). READING stands at the header or at the next section, numbered 0 GLOBAL,
1 WINDOWS, 2 CURVES, 3 + t TOWER t, 15 PRELOAD (R171). -/
inductive LoaderState where
  | idle
  | readingHeader
  | reading (next : Fin 16)
  | preloading (cursor : Nat)
  | section_ (t : Tower)
  deriving DecidableEq, Repr

/-- What the loader does on the SPI port of the configuration memory (R169): CFG_CS_N low or high, a byte sent on
CFG_MOSI, a number of 16-bit words clocked in on CFG_MISO, two bytes each, the most significant first. -/
inductive SpiStep where
  | csLow
  | csHigh
  | send (b : Byte)
  | receive (words : Nat)
  deriving DecidableEq, Repr

/-- The SPI port of the configuration memory (R169): the level of CFG_CS_N, the bytes sent since it went low for the
read under way, and the steps of the last event that moved the port (log 31). -/
structure SpiPort where
  csN : Bool
  sent : List Byte
  steps : List SpiStep
  deriving DecidableEq, Repr

/-- The configuration loader. -/
structure Loader where
  state : LoaderState
  header : Option Header
  staged : Staged
  spi : SpiPort
  deriving DecidableEq, Repr

/-- The taken levels of the press inputs (R110). -/
structure Levels where
  sheet : Bool
  impr : Bool
  jobchg : Bool
  deriving DecidableEq, Repr

end Sys2Proof.Machine

namespace Sys2Proof.Machine

/-- The whole state. `pending` is the queue of commands not yet taken, `mem` is job memory (log 3),
`timeout` is the move timeout T. -/
structure State where
  pending : List Instr
  mem : List Host.Cell
  lastResponse : PerClass (Option Response)
  bus : PerClass (Option BusAccess)
  windows : WindowTable
  port : MemPort
  coverage : Coverage
  curves : List Curve
  towers : Vector TowerState 12
  timeout : Nat
  link : Link
  levels : Levels
  engine : Engine
  loop : LoopUnit
  control : Control
  loader : Loader
  deriving DecidableEq, Repr

/-- The block never stops (INVENTORY, Faults): no step raises a fault, so there is no fault reason. -/
inductive Fault where
  deriving DecidableEq, Repr

/-- Reasons to refuse a command. -/
inductive Refusal where
  /-- Raised by an arm of exec for a command that has no meaning yet; safe. No arm of this model raises it. -/
  | notModelled (mnemonic : String)
  deriving DecidableEq, Repr

/-! ### Values after a pin reset -/

/-- An invalid window table (R4, R20). -/
def noWindows : WindowTable := [none, none, none, none, none, none, none, none]

/-- The linear curve, P(i) = 100 i (R40). -/
def linearCurve : Curve := [0, 100, 200, 300, 400, 500, 600, 700, 800, 900, 1000]

/-- The curve table after a pin reset and from the start of a RELOAD (R40). -/
def linearCurves : List Curve := List.replicate 16 linearCurve

/-- A record's reset values (R57, R80). -/
def KeyRec.reset : KeyRec where
  base := 0
  trim := 0
  correction := 0
  hold := false
  ramp := none
  target := 0
  commanded := none
  reported := none
  move := .idle
  tag := 0
  tries := 0
  fault := none
  timer := none

/-- A tower's reset values (R57, R80, R97, R113, R155). -/
def TowerState.reset : TowerState where
  service := .unconfigured
  parkHold := true
  cfg := none
  recs := Vector.replicate 49 KeyRec.reset
  queue := []
  flight := []
  tagCounter := 0
  timeouts := 0
  loop := .off
  settle := 0
  settings := none
  address := none
  haltPending := false
  queryPending := false

/-- A fit frame with every sum 0 (R30, R38). -/
def Frame.fresh : Frame where
  fit := true
  sums := Vector.replicate 48 0

/-- A STALE bank with every frame fresh (R38). -/
def Bank.stale : Bank where
  state := .stale
  frames := Vector.replicate 12 Frame.fresh

/-- The coverage unit after a pin reset (R38). -/
def Coverage.reset : Coverage where
  range := none
  geometry := Vector.replicate 12 none
  banks := ⟨Bank.stale, Bank.stale⟩
  active := .a
  cursor := none
  latch := none
  waiting := []

/-- A binding after a reset (R141). -/
def Binding.reset : Binding where
  armed := false
  pending := false
  index := 0

/-- The order engine after a reset (R130, R141). -/
def Engine.reset : Engine where
  state := .idle
  head := 0
  current := 0
  visited := 0
  running := none
  stop := false
  table := none
  slot := none
  bindings := ⟨Binding.reset, Binding.reset, Binding.reset, Binding.reset, Binding.reset⟩
  divisor := 1
  counter := 0
  tie := none
  startIndex := 0
  stopIndex := 0

/-- The measure status after a clear or a reset (R153, R155). -/
def MeasureStatus.cleared : MeasureStatus where
  reason := .none
  slot := 0
  dropTower := none
  applied := none
  sheetTag := 0

/-- The loop unit after a reset (R155). -/
def LoopUnit.reset : LoopUnit where
  slots := Vector.replicate 16 .free
  readList := []
  reading := false
  overReset := Vector.replicate 16 0
  status := MeasureStatus.cleared

/-- The refusal capture when not valid (R167, R168). -/
def Capture.empty : Capture where
  valid := false
  addr := 0
  cls := .console

/-- The control unit after a pin reset and when a RELOAD starts (R168). -/
def Control.reset : Control where
  part := .loading
  flags := 0
  enables := 0
  mode := .clearOnes
  line := false
  noticeAddr := 0
  noticeDatum := 0
  noticePending := false
  capture := Capture.empty
  mirror := 0
  pointer := 31
  last := Vector.replicate 32 .accepted
  channel := none

/-- The empty staged configuration (R171). -/
def Staged.empty : Staged where
  globals := none
  windows := noWindows
  curves := linearCurves
  towers := Vector.replicate 12 none
  preload := []

/-- The port when a load begins: a read under way has ended, and that of the header has been sent (R169, R171, R177,
R178; log 31). -/
def SpiPort.atHeader : SpiPort where
  csN := false
  sent := [0x03#8, 0x00#8, 0x00#8]
  steps := [.csHigh, .csLow, .send 0x03#8, .send 0x00#8, .send 0x00#8]

/-- The loader when a load begins (R171, R178). -/
def Loader.reset : Loader where
  state := .readingHeader
  header := none
  staged := Staged.empty
  spi := SpiPort.atHeader

/-- The link unit after a pin reset (R97). -/
def Link.reset : Link where
  tx := .idle
  pointer := 11
  rx := .awaitRest

/-- The memory port after a pin reset (R20). -/
def MemPort.reset : MemPort where
  holder := none
  pointer := .service
  queue := []
  passOver := 0
  limit := Config.loadingLimit

/-- The machine right after a pin reset, with an empty queue of commands, job memory with nothing listed
(log 3) and no response given yet (log 16). -/
def State.reset : State where
  pending := []
  mem := []
  lastResponse := ⟨none, none, none, none⟩
  bus := ⟨none, none, none, none⟩
  windows := noWindows
  port := MemPort.reset
  coverage := Coverage.reset
  curves := linearCurves
  towers := Vector.replicate 12 TowerState.reset
  timeout := Config.loadingTimeout
  link := Link.reset
  levels := ⟨false, false, false⟩
  engine := Engine.reset
  loop := LoopUnit.reset
  control := Control.reset
  loader := Loader.reset

end Sys2Proof.Machine
end

