-- ==== Sys2Proof/Machine/Bits.lean ====
section
/-! DEFINITION. Bit fields, byte order and the clamp (00 "Arithmetic" and "Memory"; 12, opening). -/

namespace Sys2Proof.Machine

/-- A value clamped to a range takes the nearer end when it lies outside (00, Arithmetic). -/
def clampInt (lo hi x : Int) : Int := if x < lo then lo else if hi < x then hi else x

/-- The value of a field of `len` bits of `v` placed at bit `pos` of a word (12, opening). -/
def field (pos len v : Nat) : Nat := (v % 2 ^ len) * 2 ^ pos

/-- The field of `len` bits at bit `pos` of a word, as a number. -/
def fieldOf (w : Word) (pos len : Nat) : Nat := (w.toNat / 2 ^ pos) % 2 ^ len

/-- Byte b of a word holds bits 8b to 8b + 7 (12, opening). -/
def byteOf (w : Word) (b : Nat) : Byte := BitVec.ofNat 8 (w.toNat / 2 ^ (8 * b))

/-- A word from its four bytes, the byte at the word's address first (00, Memory: little-endian). -/
def wordOfBytes (b0 b1 b2 b3 : Byte) : Word := b3 ++ b2 ++ b1 ++ b0

/-- The half-word at bytes 2h and 2h + 1 of a word. -/
def halfOf (w : Word) (h : Nat) : Half := BitVec.ofNat 16 (w.toNat / 2 ^ (16 * h))

/-- A signed field of sixteen bits as a two's-complement number (12, opening; R180). -/
def signedField (i : Int) : Nat := (BitVec.ofInt 16 i).toNat

/-- A flag as a field of one bit. -/
def bit (b : Bool) : Nat := if b then 1 else 0

/-- The word at an address: the two lowest address bits forced to zero (00, Word). -/
def wordAddr (a : Nat) : Nat := a / 4 * 4

/-- Addresses are 28 bits wide (12, opening); an address past the end wraps (log 14). -/
def wrapAddr (a : Nat) : Nat := a % 2 ^ 28

/-- The bits of a word inside the bytes that the enables name (R1). -/
def enableMask (be : BitVec 4) : Word :=
  (if be.getLsbD 3 then 0xFF#8 else 0x00#8) ++ (if be.getLsbD 2 then 0xFF#8 else 0x00#8) ++
    (if be.getLsbD 1 then 0xFF#8 else 0x00#8) ++ (if be.getLsbD 0 then 0xFF#8 else 0x00#8)

/-- All indexes of a type of bounded numbers, ascending. -/
def allFin (n : Nat) : List (Fin n) := List.finRange n

/-- Apply a function to each element of a vector, with its index. -/
def vecMap {α β : Type} {n : Nat} (f : α → β) (v : Vector α n) : Vector β n :=
  ⟨⟨v.toList.map f⟩, by simp⟩

/-- A vector from a function of the index. -/
def vecOf {α : Type} {n : Nat} (f : Fin n → α) : Vector α n :=
  ⟨⟨(allFin n).map f⟩, by simp [allFin]⟩

/-- Codes of the master classes (12.1). -/
def classCode : MasterClass → Nat
  | .console => 0
  | .prepress => 1
  | .scanbar => 2
  | .service => 3

/-- Whether a mask over the master classes names a class (12.1). -/
def inMask (m : BitVec 4) (c : MasterClass) : Bool := m.getLsbD (classCode c)

/-- The class after another, in the order of R15. -/
def nextClass : MasterClass → MasterClass
  | .console => .prepress
  | .prepress => .scanbar
  | .scanbar => .service
  | .service => .console

/-- Codes of 12.1. -/
def resultCode : Result → Nat
  | .accepted => 0
  | .queued => 1
  | .refusedBusy => 2
  | .refusedRange => 3
  | .refusedState => 4
  | .notRunning => 5
  | .badCode => 6

/-- Codes of 12.1. -/
def partCode : PartState → Nat
  | .loading => 0
  | .passOnly => 1
  | .running => 2

/-- Codes of 12.1. -/
def engineCode : EngineState → Nat
  | .idle => 0
  | .fetching => 1
  | .writingBack => 2

/-- Codes of 12.1. -/
def bankCode : BankState → Nat
  | .stale => 0
  | .clearing => 1
  | .opened => 2
  | .locked => 3

/-- Codes of 12.1. -/
def serviceCode : Service → Nat
  | .unconfigured => 0
  | .parked => 1
  | .parking => 2
  | .ready => 3
  | .printing => 4
  | .faulted => 5

/-- Codes of 12.1. -/
def loopCode : LoopState → Nat
  | .off => 0
  | .settling => 1
  | .armed => 2

/-- Codes of 12.1. -/
def moveCode : MoveState → Nat
  | .idle => 0
  | .queued => 1
  | .inFlight => 2
  | .retarget => 3
  | .fault => 4

/-- Codes of 12.1. -/
def keyFaultCode : Option KeyFault → Nat
  | none => 0
  | some .stall => 1
  | some .timeout => 2

/-- Codes of 12.1. -/
def dropCode : DropReason → Nat
  | .none => 0
  | .busy => 1
  | .memory => 2
  | .badRecord => 3
  | .towerState => 4
  | .loopState => 5
  | .noCoverage => 6

/-- Codes of 12.3. -/
def faultCode : FaultCode → Nat
  | .verb => 1
  | .range => 2
  | .tower => 3
  | .bankState => 4
  | .frameUnfit => 5
  | .exhausted => 6
  | .link => 7
  | .chainLoop => 8
  | .memory => 9

/-- The bank selector of 12.2. -/
def bankSelector : BankId → Nat
  | .a => 0
  | .b => 1

/-- Bit positions of the event flags (12.1). -/
def flagBit : EventFlag → Nat
  | .orderDone => 0
  | .orderFault => 1
  | .keyFault => 2
  | .towerDown => 3
  | .towerUp => 4
  | .bankReady => 5
  | .bankRefused => 6
  | .measureApplied => 7
  | .measureDropped => 8
  | .triggerMerged => 9
  | .protectHit => 10
  | .windowMisfit => 11
  | .memoryFault => 12
  | .configFault => 13

end Sys2Proof.Machine
end

