-- ==== Sys2Proof/Machine/Flags.lean ====
section
/-! DEFINITION. Event flags, the interrupt line, the notice-pending flag, the refusal capture and the mirror
set, as functions of the control unit alone (10, R160 to R168). -/

namespace Sys2Proof.Machine

/-- The control words of the part. -/
def wordStart : CtlWord := 0
/-- Word 1. -/
def wordStop : CtlWord := 1
/-- Word 2. -/
def wordEvent : CtlWord := 2
/-- Word 4. -/
def wordBank : CtlWord := 4
/-- Word 5. -/
def wordPartStatus : CtlWord := 5
/-- Word 6. -/
def wordRefusal : CtlWord := 6
/-- Word 7. -/
def wordMeasure : CtlWord := 7
/-- Word 13. -/
def wordEngine : CtlWord := 13
/-- Word 14. -/
def wordReload : CtlWord := 14

/-- BIND words 8 to 12 (08, introduction). -/
def wordBind : Source → CtlWord
  | .sheet => 8
  | .jobchg => 9
  | .imprOn => 10
  | .imprOff => 11
  | .measure => 12

/-- TOWER t is control word 16 + t (06, 6.2). -/
def wordTower (t : Tower) : CtlWord := ⟨16 + t.val, by omega⟩

/-- The words the part owns: 0 to 14 and 16 to 27 (R157). -/
def ownedWord (w : CtlWord) : Bool := w.val < 15 || (16 ≤ w.val && w.val < 28)

/-- A report puts a word into the mirror set while the part is RUNNING (R160). -/
def Control.report (w : CtlWord) (c : Control) : Control :=
  if c.part = .running then { c with mirror := c.mirror ||| BitVec.twoPow 32 w.val } else c

/-- Take a word out of the mirror set (R160, R162). -/
def Control.unmirror (w : CtlWord) (c : Control) : Control :=
  { c with mirror := c.mirror &&& ~~~(BitVec.twoPow 32 w.val) }

/-- The line is asserted exactly when a flag and its enable are both set; a rising with a nonzero notice
address sets the notice-pending flag (R165, R166). -/
def Control.relevel (c : Control) : Control :=
  let asserted := c.flags &&& c.enables != 0
  { c with
    line := asserted
    noticePending := c.noticePending || (asserted && !c.line && c.noticeAddr != 0) }

/-- A raise sets a flag that is clear, reports the EVENT word and recomputes the line; a flag already set
stays set and nothing changes (R160, R163, R165). -/
def Control.raise (f : EventFlag) (c : Control) : Control :=
  if c.flags.getLsbD (flagBit f) then c
  else ({ c with flags := c.flags ||| BitVec.twoPow 14 (flagBit f) }.relevel).report wordEvent

/-- The flags after a write to the EVENT word under the clear mode (R164). -/
def eventWrite (mode : ClearMode) (flags written : BitVec 14) : BitVec 14 :=
  match mode with
  | .clearOnes => flags &&& ~~~written
  | .replace => written

/-- A write to the EVENT word (R164, R165). -/
def Control.writeEvent (v : BitVec 14) (c : Control) : Control :=
  { c with flags := eventWrite c.mode c.flags v }.relevel

/-- A write to the EVENT_ENABLE word (R165). -/
def Control.writeEnable (v : BitVec 14) (c : Control) : Control :=
  { c with enables := v }.relevel

/-- A refusal reported to the capture fills it when it is not valid, and reports the REFUSAL word (R167). -/
def Control.capture_ (a : Addr) (cls : MasterClass) (c : Control) : Control :=
  if c.capture.valid then c
  else { c with capture := ⟨true, a, cls⟩ }.report wordRefusal

/-- The result of a command replaces its word's last result (R157). -/
def Control.setLast (w : CtlWord) (r : Result) (c : Control) : Control :=
  { c with last := c.last.set w r }

/-- The first word of a mirror set after the pointer, in ascending index, wrapping from 31 to 0 (R161). -/
def nextMirror (mirror : BitVec 32) (pointer : CtlWord) : Option CtlWord :=
  (((allFin 32).filter (fun w => pointer < w)) ++ ((allFin 32).filter (fun w => w ≤ pointer))).find?
    (fun w => mirror.getLsbD w.val)

end Sys2Proof.Machine
end

