-- ==== Sys2Proof/Machine/Ops.lean ====
section
/-! DEFINITION. The operations every chapter uses: job memory in its canonical form, one value per class,
bank and source, raising events and reporting words, answering a master, offering an internal request, and
changing one tower. -/

namespace Sys2Proof.Machine

/-! ### One value per class, bank, source -/

/-- The value of a class. -/
def PerClass.get {α : Type} (p : PerClass α) : MasterClass → α
  | .console => p.console
  | .prepress => p.prepress
  | .scanbar => p.scanbar
  | .service => p.service

/-- Replace the value of a class. -/
def PerClass.put {α : Type} (p : PerClass α) (c : MasterClass) (x : α) : PerClass α where
  console := if c = .console then x else p.console
  prepress := if c = .prepress then x else p.prepress
  scanbar := if c = .scanbar then x else p.scanbar
  service := if c = .service then x else p.service

/-- Change every value. -/
def PerClass.map {α : Type} (f : α → α) (p : PerClass α) : PerClass α :=
  ⟨f p.console, f p.prepress, f p.scanbar, f p.service⟩

/-- The value of a bank. -/
def PerBank.get {α : Type} (p : PerBank α) : BankId → α
  | .a => p.a
  | .b => p.b

/-- Replace the value of a bank. -/
def PerBank.put {α : Type} (p : PerBank α) (k : BankId) (x : α) : PerBank α where
  a := if k = .a then x else p.a
  b := if k = .b then x else p.b

/-- Change both values. -/
def PerBank.map {α : Type} (f : α → α) (p : PerBank α) : PerBank α := ⟨f p.a, f p.b⟩

/-- The other bank. -/
def otherBank : BankId → BankId
  | .a => .b
  | .b => .a

/-- The value of a source. -/
def PerSource.get {α : Type} (p : PerSource α) : Source → α
  | .sheet => p.sheet
  | .jobchg => p.jobchg
  | .imprOn => p.imprOn
  | .imprOff => p.imprOff
  | .measure => p.measure

/-- Replace the value of a source. -/
def PerSource.put {α : Type} (p : PerSource α) (k : Source) (x : α) : PerSource α where
  sheet := if k = .sheet then x else p.sheet
  jobchg := if k = .jobchg then x else p.jobchg
  imprOn := if k = .imprOn then x else p.imprOn
  imprOff := if k = .imprOff then x else p.imprOff
  measure := if k = .measure then x else p.measure

/-- The five sources. -/
def allSources : List Source := [.sheet, .jobchg, .imprOn, .imprOff, .measure]

/-- The towers in ascending index. -/
def allTowers : List Tower := allFin 12

/-- The slots in ascending order: the keys, then the fountain. -/
def allSlots : List Slot := allFin 49

/-- The fountain's slot. -/
def fountainSlot : Slot := 48

/-! ### Job memory -/

/-- What an address that no cell lists reads as (log 3). -/
def unlistedByte : Byte := 0

/-- The byte at an address. -/
def Memory.byte : List Host.Cell → Nat → Byte
  | [], _ => unlistedByte
  | c :: m, a => if c.1 = a then c.2 else Memory.byte m a

/-- A cell in front of a list, left out when it says what an unlisted address reads as. -/
def Memory.cons (a : Nat) (v : Byte) (m : List Host.Cell) : List Host.Cell :=
  if v = unlistedByte then m else (a, v) :: m

/-- Write one byte, keeping the canonical form. -/
def Memory.put : List Host.Cell → Nat → Byte → List Host.Cell
  | [], a, v => Memory.cons a v []
  | c :: m, a, v =>
    if a < c.1 then Memory.cons a v (c :: m)
    else if a = c.1 then Memory.cons a v m
    else c :: Memory.put m a v

/-- Addresses above a bound, strictly rising, no cell that says what an unlisted address reads as. -/
def Memory.wfAbove : Option Nat → List Host.Cell → Bool
  | _, [] => true
  | lo, c :: m =>
    (match lo with | none => true | some b => decide (b < c.1)) && c.2 != unlistedByte
      && Memory.wfAbove (some c.1) m

/-- The canonical form of job memory. -/
def Memory.wf (m : List Host.Cell) : Bool := Memory.wfAbove none m

/-- The word at a word address, little-endian (00, Memory). -/
def Memory.word (m : List Host.Cell) (a : Nat) : Word :=
  wordOfBytes (Memory.byte m a) (Memory.byte m (a + 1)) (Memory.byte m (a + 2)) (Memory.byte m (a + 3))

/-- Write one byte of a word when its enable is set (R1). -/
def Memory.lane (m : List Host.Cell) (a : Nat) (be : BitVec 4) (d : Word) (b : Nat) : List Host.Cell :=
  if be.getLsbD b then Memory.put m (a + b) (byteOf d b) else m

/-- Write the enabled bytes of a word. -/
def Memory.write (m : List Host.Cell) (a : Nat) (be : BitVec 4) (d : Word) : List Host.Cell :=
  Memory.lane (Memory.lane (Memory.lane (Memory.lane m a be d 0) a be d 1) a be d 2) a be d 3

/-- Whether a word answered so has been written (R2, R28, R123; log 4). -/
def landed : MemAnswer → Bool
  | .ok => true
  | .error l => l

/-- The address of the word that contains the address on the memory port (R1). -/
def PortWord.word (w : PortWord) : Nat := wordAddr w.addr

/-- Job memory after one word of a granted access has been answered. -/
def Memory.answer (m : List Host.Cell) (w : PortWord) (ans : MemAnswer) : List Host.Cell :=
  if w.dir = .write ∧ landed ans = true then Memory.write m w.word w.enables w.data else m

/-- Job memory after the words of a granted request have been answered, in ascending address (R2). -/
def Memory.answers : List Host.Cell → List PortWord → List MemAnswer → List Host.Cell
  | m, w :: ws, a :: as => Memory.answers (Memory.answer m w a) ws as
  | m, _, _ => m

/-! ### Events, reports, responses, requests -/

/-- Raise an event flag (R163). -/
def State.raise (f : EventFlag) (s : State) : State := { s with control := s.control.raise f }

/-- Raise an event flag when a condition holds. -/
def State.raiseIf (b : Bool) (f : EventFlag) (s : State) : State :=
  { s with control := if b then s.control.raise f else s.control }

/-- Report a control word (R160). -/
def State.report (w : CtlWord) (s : State) : State := { s with control := s.control.report w }

/-- Report a control word when a condition holds. -/
def State.reportIf (b : Bool) (w : CtlWord) (s : State) : State :=
  { s with control := if b then s.control.report w else s.control }

/-- Give a master its response: its access is no longer in progress (R1). -/
def State.respond (c : MasterClass) (r : Response) (s : State) : State :=
  { s with lastResponse := s.lastResponse.put c (some r), bus := s.bus.put c none }

/-- Report a refused write to the refusal capture (R6, R167). -/
def State.capture (a : Addr) (c : MasterClass) (s : State) : State :=
  { s with control := s.control.capture_ a c }

/-- Every refused press-bus write: reported to the capture, answered with a bus error, memory untouched (R6). -/
def State.refuse (a : Access) (s : State) : State := (s.capture a.addr a.cls).respond a.cls .busError

/-- Set what a press-bus access in progress waits for. -/
def State.setStage (a : Access) (st : BusStage) (s : State) : State :=
  { s with bus := s.bus.put a.cls (some ⟨a, st⟩) }

/-- Claim the memory port for a press-bus access (R15). -/
def State.claim (a : Access) (p : Purpose) (s : State) : State := s.setStage a (.claim p)

/-- Offer an internal request, which enters the queue at once (R17). -/
def State.offer (r : IReq) (s : State) : State :=
  { s with port := { s.port with queue := s.port.queue ++ [r] } }

/-- The memory port becomes free (R2). -/
def State.freePort (s : State) : State := { s with port := { s.port with holder := none } }

/-! ### Towers -/

/-- The states that admit moves (R99). -/
def admitsMoves : Service → Bool
  | .ready => true
  | .printing => true
  | .parking => true
  | _ => false

/-- A key slot is present when the tower is configured and it is below K, or the fountain is present (R12). -/
def TowerState.present (tw : TowerState) (sl : Slot) : Bool :=
  match tw.cfg with
  | none => false
  | some c => sl.val < c.k || (sl = fountainSlot && c.fountain)

/-- The present slots in ascending order. -/
def TowerState.slots (tw : TowerState) : List Slot := allSlots.filter tw.present

/-- Change one record. -/
def TowerState.mod (sl : Slot) (f : KeyRec → KeyRec) (tw : TowerState) : TowerState :=
  { tw with recs := tw.recs.set sl (f tw.recs[sl]) }

/-- The number of records whose commanded is UNKNOWN (R79). DESIGN CHOICE (log 34): it is taken over the present slots
(R12), so that the word of an UNCONFIGURED tower, whose records hold their reset values, shows 0. -/
def TowerState.unknownCount (tw : TowerState) : Nat :=
  (tw.slots.filter (fun sl => tw.recs[sl].commanded.isNone)).length

/-- The number of keys in FAULT (R79). -/
def TowerState.faultCount (tw : TowerState) : Nat :=
  (tw.slots.filter (fun sl => tw.recs[sl].move = .fault)).length

/-- The state fields of the TOWER t word (12.2). -/
def TowerState.wordFields (tw : TowerState) : Nat :=
  field 3 3 (serviceCode tw.service) + field 6 2 (loopCode tw.loop) + field 8 3 tw.flight.length
    + field 11 6 tw.queue.length + field 17 6 tw.unknownCount + field 23 6 tw.faultCount

/-- Both empty: the tower's moves are at rest (R78). -/
def TowerState.atRest (tw : TowerState) : Bool := tw.queue.isEmpty && tw.flight.isEmpty

/-- A tower is configured unless it is UNCONFIGURED (R158). -/
def TowerState.configured (tw : TowerState) : Bool := tw.service != .unconfigured

/-- What the tower controller reports when one tower has become another: the TOWER t word when what it shows has
changed (R79, R99, R154), and the PART_STATUS word when the tower has joined or left the configured set (R108, R109,
R158). DESIGN CHOICE (log 30): what a word shows is compared before and after the whole of what an event does to the
tower, not key by key, so that a count or a state that changes and changes back inside it is no change and makes no
report. -/
def Control.towerChanged (t : Tower) (old new : TowerState) (c : Control) : Control :=
  if old.wordFields = new.wordFields then c
  else if old.configured = new.configured then c.report (wordTower t)
  else (c.report (wordTower t)).report wordPartStatus

/-- Replace one tower, with what it reports. -/
def State.putTower (t : Tower) (tw : TowerState) (s : State) : State :=
  { s with
    towers := s.towers.set t tw
    control := s.control.towerChanged t s.towers[t] tw }

/-- Change one tower. -/
def State.modTower (t : Tower) (f : TowerState → TowerState) (s : State) : State :=
  s.putTower t (f s.towers[t])

/-- Change each of some towers, in the order of the list. -/
def State.modTowers (f : TowerState → TowerState) (ts : List Tower) (s : State) : State :=
  ts.foldl (fun s t => s.modTower t f) s

end Sys2Proof.Machine
end

