-- ==== Sys2Proof/Machine/Operands.lean ====
section
/-! DEFINITION. The records, frames and words the part reads and composes, field by field (12, R179, R180). -/

namespace Sys2Proof.Machine

/-! ### Press-bus accesses -/

/-- All four bytes enabled (R1). -/
def fullEnables : BitVec 4 := 15

/-- A full-word write (R1). -/
def fullWrite (cls : MasterClass) (addr : Addr) (data : Word) : Access :=
  ⟨cls, addr, .write, fullEnables, data⟩

/-- An access is full-word when its enables name all four bytes (R1). -/
def Access.full (a : Access) : Bool := a.enables = fullEnables

/-- The word address of an access. -/
def Access.word (a : Access) : Nat := wordAddr a.addr.toNat

/-- A written control word with its code in byte 0 (12.2). -/
def codeWord (rest : BitVec 24) (code : Byte) : Word := rest ++ code

/-- The response to a read: the enabled bytes (R1, log 16). -/
def readResponse (be : BitVec 4) (d : Word) : Response := .okRead be (d &&& enableMask be)

/-! ### Order records (12.3) -/

/-- A fetched record's word i. -/
def recWord (ws : List Word) (i : Nat) : Word := ws.getD i 0

/-- A fetched record's byte i. -/
def recByte (ws : List Word) (i : Nat) : Nat := (byteOf (recWord ws (i / 4)) (i % 4)).toNat

/-- The fields of a fetched order record that the engine reads (7.2, 12.3). -/
structure OrderRec where
  verb : Nat
  tower : Nat
  first : Nat
  last : Nat
  fountain : Bool
  standby : Bool
  ramp : Bool
  linked : Bool
  curve : Nat
  steps : Nat
  notify : Nat
  value : Int
  next : Nat
  runsLeft : Nat
  state : Nat
  code : Nat
  runs : Nat
  deriving DecidableEq, Repr

/-- The record read from its eight words (12.3). -/
def orderRec (ws : List Word) : OrderRec where
  verb := recByte ws 0
  tower := recByte ws 1
  first := recByte ws 2
  last := recByte ws 3
  fountain := (recWord ws 1).getLsbD 0
  standby := (recWord ws 1).getLsbD 1
  ramp := (recWord ws 1).getLsbD 2
  linked := (recWord ws 1).getLsbD 3
  curve := recByte ws 5
  steps := recByte ws 6
  notify := recByte ws 7
  value := (halfOf (recWord ws 2) 0).toInt
  next := recByte ws 10
  runsLeft := (halfOf (recWord ws 6) 1).toNat
  state := recByte ws 28
  code := recByte ws 29
  runs := (halfOf (recWord ws 7) 1).toNat

/-- Verb codes (12.3). -/
def verbPreset : Nat := 1
/-- TRIM_SET. -/
def verbTrimSet : Nat := 2
/-- TRIM_ADD. -/
def verbTrimAdd : Nat := 3
/-- CORR_CLEAR. -/
def verbCorrClear : Nat := 4
/-- HOLD. -/
def verbHold : Nat := 5
/-- RELEASE. -/
def verbRelease : Nat := 6
/-- CLEAR_BANK. -/
def verbClearBank : Nat := 7
/-- LOCK_BANK. -/
def verbLockBank : Nat := 8
/-- UNLOCK_BANK. -/
def verbUnlockBank : Nat := 9
/-- SWAP_BANKS. -/
def verbSwapBanks : Nat := 10
/-- LOOP_ON. -/
def verbLoopOn : Nat := 11
/-- LOOP_OFF. -/
def verbLoopOff : Nat := 12
/-- NOP. -/
def verbNop : Nat := 0
/-- Codes from here on are no verb (12.3). -/
def firstBadVerb : Nat := 13

/-- The state code and the fault code an outcome writes (R122, 12.3). -/
def outcomeCodes : OrderOutcome → Nat × Nat
  | .done => (1, 0)
  | .exhausted => (2, 0)
  | .fault c => (3, faultCode c)
  | .cancelled => (4, 0)

/-- Whether an outcome is a success (R122). -/
def OrderOutcome.success : OrderOutcome → Bool
  | .done => true
  | .exhausted => true
  | _ => false

/-- Runs completed as the write-back carries it (R122). -/
def runsWritten (r : OrderRec) (o : OrderOutcome) : Nat := if o.success then (r.runs + 1) % 65536 else r.runs

/-- Runs-left as the write-back carries it (R122). -/
def runsLeftWritten (r : OrderRec) (o : OrderOutcome) : Nat := if o.success then r.runsLeft - 1 else r.runsLeft

/-- The status word of the write-back (R122, 12.3). -/
def statusWord (r : OrderRec) (o : OrderOutcome) : Word :=
  BitVec.ofNat 32 (field 0 8 (outcomeCodes o).1 + field 8 8 (outcomeCodes o).2 + field 16 16 (runsWritten r o))

/-! ### Measurement records (12.4) -/

/-- The fields of a measurement record (9.2, 12.4). -/
structure MeasureRec where
  tower : Byte
  keyCount : Nat
  sheetTag : Half
  densities : List Nat
  deriving DecidableEq, Repr

/-- The density of key k: the 16-bit value at bytes 4 + 2k and 5 + 2k (12.4). -/
def densityAt (ws : List Word) (k : Nat) : Nat := (halfOf (recWord ws (1 + k / 2)) (k % 2)).toNat

/-- The record read from words 0 to 30 of a slot. -/
def measureRec (ws : List Word) : MeasureRec where
  tower := byteOf (recWord ws 0) 0
  keyCount := (byteOf (recWord ws 0) 1).toNat
  sheetTag := halfOf (recWord ws 0) 1
  densities := (List.range 48).map (densityAt ws)

/-! ### Link frames (12.5) -/

/-- Frame kinds (12.5). -/
def kindMove : Byte := 0x01#8
/-- HALT. -/
def kindHalt : Byte := 0x02#8
/-- QUERY. -/
def kindQuery : Byte := 0x03#8
/-- DONE. -/
def kindDone : Byte := 0x11#8
/-- STALL. -/
def kindStall : Byte := 0x12#8
/-- REPORT. -/
def kindReport : Byte := 0x13#8
/-- HELLO. -/
def kindHello : Byte := 0x14#8

/-- One bit of the CRC: shift left and take the generator x⁸ + x⁴ + x³ + x² + 1 when a one leaves (R84). -/
def crcBit (r : Byte) : Byte := if r.msb then (r <<< 1) ^^^ 0x1D#8 else r <<< 1

/-- One byte of the CRC, its most significant bit first (R84). -/
def crcByte (r b : Byte) : Byte := crcBit (crcBit (crcBit (crcBit (crcBit (crcBit (crcBit (crcBit (r ^^^ b))))))))

/-- The check of a run of bytes: the remainder starts at FFh and is not inverted (R84). -/
def crc8 (bs : List Byte) : Byte := bs.foldl crcByte 0xFF#8

/-- The six bytes from the address to the last position byte (R83, 12.5). -/
def frameBody (address kind key tag : Byte) (position : Half) : List Byte :=
  [address, kind, key, tag, BitVec.ofNat 8 (position.toNat / 256), BitVec.ofNat 8 position.toNat]

/-- The eight bytes of a frame (12.5). -/
def frameBytes (address kind key tag : Byte) (position : Half) : List Byte :=
  Config.startMark :: frameBody address kind key tag position ++ [crc8 (frameBody address kind key tag position)]

/-- A byte on either line, a level for each bit time: a start bit at 0, eight data bits with the least significant
first, a stop bit at 1 (R82). -/
def serialByte (b : Byte) : List Bool :=
  [false, b.getLsbD 0, b.getLsbD 1, b.getLsbD 2, b.getLsbD 3, b.getLsbD 4, b.getLsbD 5, b.getLsbD 6, b.getLsbD 7, true]

/-- A run of bytes sent back to back (R82). -/
def serialFrame (bs : List Byte) : List Bool := bs.flatMap serialByte

/-- What ten levels that begin with a start bit carry: eight data bits, the least significant first, and the level
of the stop bit (R82, R93). -/
def readByte : List Bool → Option LineEvent
  | [false, d0, d1, d2, d3, d4, d5, d6, d7, stop] =>
    some (.byte (BitVec.ofBool d7 ++ BitVec.ofBool d6 ++ BitVec.ofBool d5 ++ BitVec.ofBool d4 ++ BitVec.ofBool d3
      ++ BitVec.ofBool d2 ++ BitVec.ofBool d1 ++ BitVec.ofBool d0) stop)
  | _ => none

/-- The bytes of a run of levels, ten levels a byte (R82). -/
def readLevels : List Bool → List LineEvent
  | a :: b :: c :: d :: e :: f :: g :: h :: i :: j :: l =>
    (readByte [a, b, c, d, e, f, g, h, i, j]).toList ++ readLevels l
  | _ => []

/-- A frame as received: a rest, then the levels of eight bytes sent back to back (R82, R93). -/
def frameLine (address kind key tag : Byte) (position : Half) : List LineEvent :=
  .rest :: readLevels (serialFrame (frameBytes address kind key tag position))

/-- What the outgoing line carries: the levels of the frame that goes out; otherwise it rests at 1 (R82, R88; log 32). -/
def TxState.levels : TxState → List Bool
  | .sending frame => serialFrame frame
  | .idle => []
  | .gap => []

/-- The fields of a complete frame with a right check (R83, R94). -/
structure LinkFrame where
  address : Byte
  kind : Byte
  key : Byte
  tag : Byte
  position : Nat
  deriving DecidableEq, Repr

/-- A complete frame whose check byte is right (R94); the start mark has been seen by the receiver (R93). -/
def frameOf : List Byte → Option LinkFrame
  | [_, a, k, key, t, ph, pl, c] =>
    if crc8 [a, k, key, t, ph, pl] = c then some ⟨a, k, key, t, ph.toNat * 256 + pl.toNat⟩ else none
  | _ => none

/-! ### The configuration memory (11.1, 12.6) -/

/-- The byte at a byte address; a byte that no memory supplies reads as R169 gives (log 5). -/
def imageByte (image : List Byte) (a : Nat) : Byte := image.getD a Config.missingByte

/-- The 16-bit word at a word address: the two bytes from twice that address, the most significant first (R169). -/
def imageWord (image : List Byte) (a : Nat) : Half := imageByte image (2 * a) ++ imageByte image (2 * a + 1)

/-- The steps that begin the read of a run of words: CFG_CS_N low, the read command, and twice the word address as
two bytes, the most significant first (R169). -/
def spiOpen (a : Nat) : List SpiStep :=
  [.csLow, .send Config.readCommand, .send (BitVec.ofNat 8 (2 * a / 256)), .send (BitVec.ofNat 8 (2 * a))]

/-- The steps that end the read of a run: its words are clocked in, and CFG_CS_N goes high (R169). -/
def spiClose (words : Nat) : List SpiStep := [.receive words, .csHigh]

/-- One step on the port: CFG_CS_N takes its level, and the bytes sent since it went low are those of the read under
way (R169). -/
def SpiPort.apply (p : SpiPort) (x : SpiStep) : SpiPort :=
  match x with
  | .csLow => { p with csN := false, sent := [] }
  | .csHigh => { p with csN := true, sent := [] }
  | .send b => { p with sent := p.sent ++ [b] }
  | .receive _ => p

/-- The port after the steps of one event of the loader (R169). -/
def SpiPort.drive (xs : List SpiStep) (p : SpiPort) : SpiPort := { xs.foldl SpiPort.apply p with steps := xs }

/-- A 32-bit value held in two words, the low half first (12.6). -/
def pairValue (lo hi : Half) : Word := hi ++ lo

/-- The job memory address in two words: its lowest 28 bits (12, opening; R179). -/
def pairAddr (lo hi : Half) : Nat := (pairValue lo hi).toNat % 2 ^ 28

end Sys2Proof.Machine
end

