-- ==== Sys2Proof/Machine/Compose.lean ====
section
/-! DEFINITION. Curves, ramps, the composed target and the hand-off (03, R40 to R58; the move queue of R61). -/

namespace Sys2Proof.Machine

/-- Point i of a curve (R40). -/
def curvePoint (c : Curve) (i : Nat) : Nat := c.getD i 0

/-- A curve evaluated at a key coverage, 0 to 1000 (R41). -/
def evalCurve (c : Curve) (x : Nat) : Nat :=
  if x = 1000 then curvePoint c 10
  else curvePoint c (x / 100) + (curvePoint c (x / 100 + 1) - curvePoint c (x / 100)) * (x % 100) / 100

/-- A curve is valid when every point is at most 1000 and none is below the point before it (R40). -/
def curveValid : Curve → Bool
  | [] => true
  | [p] => p ≤ 1000
  | p :: q :: r => p ≤ q && p ≤ 1000 && curveValid (q :: r)

/-- The ramp value: from + (to − from) × done div total, rounding toward zero (R46). -/
def Ramp.value (r : Ramp) : Int :=
  (r.from_ : Int) + (((r.dest : Int) - r.from_) * r.done).tdiv r.total

/-- rb: the ramp value when a ramp is present and the base otherwise (R46, R53). -/
def KeyRec.rb (r : KeyRec) : Int :=
  match r.ramp with
  | none => r.base
  | some p => p.value

/-- The opening of rb, as a base takes it when a ramp is frozen (R47). -/
def KeyRec.rbOpening (r : KeyRec) : Nat := r.rb.toNat

/-- The greatest target of a slot: Omax, or 1000 for the fountain (R53). -/
def KeyCfg.bound (c : KeyCfg) (sl : Slot) : Nat := if sl = fountainSlot then 1000 else c.omax

/-- The correction a slot is composed with: 0 for the fountain (R53). -/
def KeyRec.offset (sl : Slot) (r : KeyRec) : Int := if sl = fountainSlot then 0 else r.correction

/-- The composed target (R53); a slot of an UNCONFIGURED tower has target 0 (R56). -/
def composed (cfg : Option KeyCfg) (parkHold : Bool) (sl : Slot) (r : KeyRec) : Nat :=
  match cfg with
  | none => 0
  | some c =>
    if r.hold || parkHold then 0
    else (clampInt 0 (c.bound sl) (r.rb + r.trim + r.offset sl)).toNat

/-- Append a key at the tail of the move queue; it becomes QUEUED (R61). -/
def TowerState.enqueue (sl : Slot) (tw : TowerState) : TowerState :=
  { tw.mod sl (fun r => { r with move := .queued }) with queue := tw.queue ++ [sl] }

/-- Take a key out of the move queue from wherever it stands; it becomes IDLE (R61). -/
def TowerState.leaveQueue (sl : Slot) (tw : TowerState) : TowerState :=
  { tw.mod sl (fun r => { r with move := .idle }) with queue := tw.queue.filter (fun x => x != sl) }

/-- Commanded is known and the target differs from it (R55, R63). -/
def KeyRec.wantsMove (r : KeyRec) : Bool :=
  match r.commanded with
  | none => false
  | some c => r.target != c

/-- What the scheduler does when a record's target has changed (R55, R64). -/
def TowerState.handOn (sl : Slot) (tw : TowerState) : TowerState :=
  match tw.recs[sl].move with
  | .idle => if tw.recs[sl].wantsMove && admitsMoves tw.service then tw.enqueue sl else tw
  | .queued => if tw.recs[sl].commanded = some tw.recs[sl].target then tw.leaveQueue sl else tw
  | .inFlight => tw.mod sl (fun r => { r with move := .retarget })
  | .retarget => tw
  | .fault => tw

/-- Recompose one record and hand it on when its target changed (R54, R55). -/
def TowerState.recompose (sl : Slot) (tw : TowerState) : TowerState :=
  if composed tw.cfg tw.parkHold sl tw.recs[sl] = tw.recs[sl].target then tw
  else (tw.mod sl (fun r => { r with target := composed tw.cfg tw.parkHold sl r })).handOn sl

/-- Change one record's value fields, recompose it and hand it on (R54, R55). -/
def TowerState.revalue (f : Slot → KeyRec → KeyRec) (tw : TowerState) (sl : Slot) : TowerState :=
  (tw.mod sl (f sl)).recompose sl

/-- Change the value fields of some slots, in the order of the list (R55). -/
def TowerState.revalueAll (f : Slot → KeyRec → KeyRec) (sls : List Slot) (tw : TowerState) : TowerState :=
  sls.foldl (TowerState.revalue f) tw

/-- The park-hold flag changes: every record is recomposed, keys first in ascending order (R52). -/
def TowerState.setParkHold (b : Bool) (tw : TowerState) : TowerState :=
  if tw.parkHold = b then tw else TowerState.revalueAll (fun _ r => r) tw.slots { tw with parkHold := b }

/-- A PARKING tower whose moves have come to rest becomes PARKED (R103). -/
def TowerState.parkIfRest (tw : TowerState) : TowerState :=
  if tw.service = .parking ∧ tw.atRest = true then { tw with service := .parked } else tw

/-- The notice of R78 after a change: given when the moves were not at rest before and are now. -/
def TowerState.notice (old : TowerState) (new : TowerState) : TowerState :=
  if old.atRest then new else new.parkIfRest

/-- Change some slots of a tower as one event (R55, R78). -/
def TowerState.revalueEvent (f : Slot → KeyRec → KeyRec) (sls : TowerState → List Slot) (tw : TowerState) :
    TowerState :=
  TowerState.notice tw (TowerState.revalueAll f (sls tw) tw)

/-! ### Value changes -/

/-- PRESET with pace AT_ONCE (R44). -/
def presetAtOnce (new : Nat) (r : KeyRec) : KeyRec := { r with base := new, ramp := none }

/-- PRESET with pace RAMP (R45). -/
def presetRamp (new steps : Nat) (r : KeyRec) : KeyRec :=
  { r with
    base := new
    ramp := if r.rbOpening = new then none else some ⟨r.rbOpening, new, 0, steps⟩ }

/-- One SHEET pulse on a ramping record (R46). -/
def stepRamp (r : KeyRec) : KeyRec :=
  match r.ramp with
  | none => r
  | some p =>
    if p.done + 1 = p.total then { r with ramp := none }
    else { r with ramp := some { p with done := p.done + 1 } }

/-- A ramp is frozen: the base takes the ramp value and the ramp is removed (R47). -/
def freezeRamp (r : KeyRec) : KeyRec := { r with base := r.rbOpening, ramp := none }

/-- A trim, clamped (R48, R49). -/
def setTrim (v : Int) (r : KeyRec) : KeyRec := { r with trim := clampInt (-300) 300 v }

/-- A trim plus a value, clamped (R49). -/
def addTrim (v : Int) (r : KeyRec) : KeyRec := { r with trim := clampInt (-300) 300 (r.trim + v) }

/-- A correction (R50). -/
def setCorrection (v : Int) (r : KeyRec) : KeyRec := { r with correction := v }

/-- The hold flag (R51). -/
def setHold (b : Bool) (r : KeyRec) : KeyRec := { r with hold := b }

end Sys2Proof.Machine
end

