-- ==== Sys2Proof/Machine/Moves.lean ====
section
/-! DEFINITION. The move account of one tower: sweep, dispatch, answers, timeouts, key faults, withdrawal
(04, R59 to R81). -/

namespace Sys2Proof.Machine

/-- A sweep queues each IDLE key whose commanded is known and differs from its target, in slot order, in a
tower that admits moves (R63). -/
def TowerState.sweepSlot (tw : TowerState) (sl : Slot) : TowerState :=
  if tw.recs[sl].move = .idle ∧ tw.recs[sl].wantsMove = true ∧ admitsMoves tw.service = true then tw.enqueue sl
  else tw

/-- The sweep of a tower (R63). -/
def TowerState.sweep (tw : TowerState) : TowerState := tw.slots.foldl TowerState.sweepSlot tw

/-! ### Dispatch -/

/-- The head of the move queue when the tower has a dispatchable move (R65). -/
def TowerState.dispatchable (tw : TowerState) : Option Slot :=
  match tw.queue with
  | [] => none
  | sl :: _ =>
    if admitsMoves tw.service && decide (tw.flight.length < Config.maxInFlight) && tw.recs[sl].commanded.isSome
    then some sl else none

/-- A record at its dispatch (R67). -/
def dispatchRec (tag : BitVec 4) (timeout : Nat) (r : KeyRec) : KeyRec :=
  { r with commanded := some r.target, tag := tag, move := .inFlight, timer := some timeout }

/-- The dispatch of the queue's head: it leaves the queue, joins the in-flight set and takes the tower's tag
(R67). -/
def TowerState.dispatch (timeout : Nat) (sl : Slot) (tw : TowerState) : TowerState :=
  { tw.mod sl (dispatchRec tw.tagCounter timeout) with
    queue := tw.queue.drop 1
    flight := tw.flight ++ [sl]
    tagCounter := tw.tagCounter + 1 }

/-- The link number of a slot (R67). -/
def linkNumber (sl : Slot) : Byte := if sl = fountainSlot then 63#8 else BitVec.ofNat 8 sl.val

/-- The present slot that a link number names, if any (R73, R83). -/
def TowerState.slotOf (tw : TowerState) (key : Byte) : Option Slot :=
  tw.slots.find? (fun sl => linkNumber sl = key)

/-! ### Answers -/

/-- In flight: IN_FLIGHT or RETARGET (R62). -/
def KeyRec.flying (r : KeyRec) : Bool := r.move = .inFlight || r.move = .retarget

/-- A DONE or STALL matches the key's move (R68). A tag of 16 or more matches none (05, 5.2). -/
def KeyRec.matchesTag (r : KeyRec) (tag : Byte) : Bool := r.flying && decide (tag.toNat = r.tag.toNat)

/-- A key leaves the in-flight set and its timer stops (R62). -/
def TowerState.leaveFlight (sl : Slot) (tw : TowerState) : TowerState :=
  { tw.mod sl (fun r => { r with timer := none }) with flight := tw.flight.filter (fun x => x != sl) }

/-- Reported takes a position (R60, R73). -/
def TowerState.setReported (sl : Slot) (p : Nat) (tw : TowerState) : TowerState :=
  tw.mod sl (fun r => { r with reported := some p })

/-- Commanded and reported take a position (R70, R72). -/
def TowerState.setPosition (sl : Slot) (p : Nat) (tw : TowerState) : TowerState :=
  tw.mod sl (fun r => { r with commanded := some p, reported := some p })

/-- The key's state after a matching DONE (R69): queued again when it was RETARGET and its target differs from
commanded, IDLE otherwise. -/
def TowerState.afterDone (sl : Slot) (old : MoveState) (tw : TowerState) : TowerState :=
  if old = .retarget ∧ tw.recs[sl].wantsMove = true then tw.enqueue sl
  else tw.mod sl (fun r => { r with move := .idle })

/-- A DONE for a present key (R69, R73). -/
def TowerState.takeDone (sl : Slot) (tag : Byte) (p : Nat) (tw : TowerState) : TowerState :=
  if tw.recs[sl].matchesTag tag then
    TowerState.afterDone sl tw.recs[sl].move
      (((tw.setReported sl p).mod sl (fun r => { r with tries := 0 })).leaveFlight sl)
  else tw.setReported sl p

/-- One more unsuccessful move of a key that has left the in-flight set: queued at the tail below three, FAULT
at three (R70, R71, R75). -/
def TowerState.unsuccessful (sl : Slot) (why : KeyFault) (tw : TowerState) : TowerState :=
  if tw.recs[sl].tries + 1 < Config.maxTries then
    (tw.mod sl (fun r => { r with tries := r.tries + 1 })).enqueue sl
  else
    tw.mod sl (fun r => { r with tries := r.tries + 1, move := .fault, fault := some why })

/-- A STALL for a present key (R70, R73). -/
def TowerState.takeStall (sl : Slot) (tag : Byte) (p : Nat) (tw : TowerState) : TowerState :=
  if tw.recs[sl].matchesTag tag then ((tw.setPosition sl p).leaveFlight sl).unsuccessful sl .stall
  else tw.setReported sl p

/-- A REPORT for a present key (R72). -/
def TowerState.takeReport (sl : Slot) (p : Nat) (tw : TowerState) : TowerState :=
  match tw.recs[sl].move with
  | .idle => (tw.setPosition sl p).sweepSlot sl
  | .queued => if tw.recs[sl].target = p then (tw.setPosition sl p).leaveQueue sl else tw.setPosition sl p
  | .inFlight => tw.setReported sl p
  | .retarget => tw.setReported sl p
  | .fault => tw.setPosition sl p

/-- The answers the key table takes (R95). -/
inductive AnswerKind where
  | done | stall | report
  deriving DecidableEq, Repr

/-- One answer taken for a present key. -/
def TowerState.takeKind (k : AnswerKind) (sl : Slot) (tag : Byte) (p : Nat) (tw : TowerState) : TowerState :=
  match k with
  | .done => tw.takeDone sl tag p
  | .stall => tw.takeStall sl tag p
  | .report => tw.takeReport sl p

/-- An answer delivered to the key table: it sets the consecutive-timeout count to 0, and changes a record when
its key is present and its position is at most 1000 (R73, R74). -/
def TowerState.takeAnswer (k : AnswerKind) (key tag : Byte) (p : Nat) (tw : TowerState) : TowerState :=
  match tw.slotOf key with
  | none => { tw with timeouts := 0 }
  | some sl =>
    if p ≤ 1000 then TowerState.notice tw (({ tw with timeouts := 0 } : TowerState).takeKind k sl tag p)
    else { tw with timeouts := 0 }

/-- Whether a change took a key into FAULT (R75). -/
def enteredFault (sl : Slot) (old new : TowerState) : Bool :=
  new.recs[sl].move = .fault && old.recs[sl].move != .fault

/-! ### Timeouts -/

/-- The key's part of a timeout: it leaves the in-flight set, and the move counts as unsuccessful (R71). -/
def TowerState.takeTimeout (sl : Slot) (tw : TowerState) : TowerState :=
  ((tw.leaveFlight sl).unsuccessful sl .timeout)

/-! ### Withdrawal and CLEAR_FAULTS -/

/-- A record at a withdrawal (R77). `clearFaults` is set at a tower reset. -/
def withdrawRec (clearFaults : Bool) (r : KeyRec) : KeyRec :=
  match r.move with
  | .idle => { r with commanded := none, reported := none, tries := if clearFaults then 0 else r.tries }
  | .fault =>
    if clearFaults then
      { r with commanded := none, reported := none, move := .idle, tries := 0, fault := none, timer := none }
    else { r with commanded := none, reported := none }
  | _ => { r with commanded := none, reported := none, move := .idle, tries := 0, timer := none }

/-- The withdrawal of a tower's moves (R77), without its notice. -/
def TowerState.withdraw (clearFaults : Bool) (tw : TowerState) : TowerState :=
  { tw with recs := vecMap (withdrawRec clearFaults) tw.recs, queue := [], flight := [], timeouts := 0 }

/-- CLEAR_FAULTS for one slot (R76). -/
def TowerState.clearFaultSlot (tw : TowerState) (sl : Slot) : TowerState :=
  if tw.recs[sl].move = .fault then
    if admitsMoves tw.service && tw.recs[sl].commanded.isSome then
      (tw.mod sl (fun r => { r with tries := 0, fault := none })).enqueue sl
    else tw.mod sl (fun r => { r with move := .idle, tries := 0, fault := none })
  else tw

/-- CLEAR_FAULTS (R76). -/
def TowerState.clearFaults (tw : TowerState) : TowerState := tw.slots.foldl TowerState.clearFaultSlot tw

end Sys2Proof.Machine
end

