-- ==== Sys2Proof/Machine/Banks.lean ====
section
/-! DEFINITION. Geometry, key coverage, bank commands, the fold's arithmetic, the clear plan and frame fitness
(02, R21 to R39). -/

namespace Sys2Proof.Machine

/-! ### Geometry -/

/-- The frame size: the window size divided by 32 (R21). -/
def CoverRange.frameSize (r : CoverRange) : Nat := r.size / 32

/-- The row count H (R22). -/
def Geometry.rows (g : Geometry) (frameSize : Nat) : Nat := frameSize / g.w

/-- The image length H × W in bytes (R22). -/
def Geometry.imageLen (g : Geometry) (frameSize : Nat) : Nat := g.rows frameSize * g.w

/-- Boundary B(i) (R22). -/
def Geometry.bound (g : Geometry) (i : Nat) : Nat := g.bounds.getD i 0

/-- The key that owns a column; none is margin (R22). -/
def Geometry.owner (g : Geometry) (col : Nat) : Option (Fin 48) :=
  (allFin 48).find? (fun k => k.val < g.k && g.bound k.val ≤ col && decide (col < g.bound (k.val + 1)))

/-- The area of key k in samples (R22). -/
def Geometry.area (g : Geometry) (frameSize k : Nat) : Nat := (g.bound (k + 1) - g.bound k) * g.rows frameSize

/-- The coverage area of the tower (R22). -/
def Geometry.totalArea (g : Geometry) (frameSize : Nat) : Nat := (g.bound g.k - g.bound 0) * g.rows frameSize

/-- Where a word of the coverage range lies: its bank, its frame 0 to 15 and its offset (R21). -/
structure CoverPlace where
  bank : BankId
  frame : Nat
  offset : Nat
  deriving DecidableEq, Repr

/-- An address lies in the coverage range (R21). -/
def CoverRange.covers (r : CoverRange) (a : Nat) : Bool := r.base ≤ a && decide (a < r.base + r.size)

/-- The place of an address of the range (R21). -/
def CoverRange.place (r : CoverRange) (a : Nat) : CoverPlace where
  bank := if a - r.base < r.size / 2 then .a else .b
  frame := (a - r.base) % (r.size / 2) / r.frameSize
  offset := (a - r.base) % (r.size / 2) % r.frameSize

/-- The first address of a frame (R21). -/
def CoverRange.frameBase (r : CoverRange) (bk : BankId) (t : Nat) : Nat :=
  r.base + bankSelector bk * (r.size / 2) + t * r.frameSize

/-- The tower of a frame index; frames 12 to 15 belong to none (R21). -/
def frameTower (f : Nat) : Option Tower := if h : f < 12 then some ⟨f, h⟩ else none

/-! ### Frames -/

/-- A tower's frame of a bank. -/
def Coverage.frame (c : Coverage) (bk : BankId) (t : Tower) : Frame := (c.banks.get bk).frames[t]

/-- Change a bank. -/
def Coverage.modBank (bk : BankId) (f : Bank → Bank) (c : Coverage) : Coverage :=
  { c with banks := c.banks.put bk (f (c.banks.get bk)) }

/-- Change a tower's frame of a bank. -/
def Coverage.modFrame (bk : BankId) (t : Tower) (f : Frame → Frame) (c : Coverage) : Coverage :=
  c.modBank bk (fun k => { k with frames := k.frames.set t (f k.frames[t]) })

/-- The fold in the latch becomes void when it lies in the bank and frame (R29). -/
def Coverage.voidFold (p : Fold → Bool) (cleared : Bool) (c : Coverage) : Coverage :=
  match c.latch with
  | none => c
  | some f => if p f then { c with latch := some { f with void := true, cleared := f.cleared || cleared } } else c

/-- A frame becomes UNFIT: it keeps its sums, and a fold in flight into it becomes void (R36). -/
def Coverage.unfit (bk : BankId) (t : Tower) (c : Coverage) : Coverage :=
  (c.modFrame bk t (fun f => { f with fit := false })).voidFold (fun f => f.bank = bk && f.tower = t) false

/-- Both frames of a tower become UNFIT (R36). -/
def Coverage.unfitTower (t : Tower) (c : Coverage) : Coverage := (c.unfit .a t).unfit .b t

/-! ### Key coverage -/

/-- The coverage of a frame is available (R24). -/
def Coverage.available (c : Coverage) (bk : BankId) (t : Tower) : Bool :=
  c.geometry[t].isSome && (c.frame bk t).fit
    && ((c.banks.get bk).state = .opened || (c.banks.get bk).state = .locked)

/-- The frame size of the range in place; 0 without a range. -/
def Coverage.frameSize (c : Coverage) : Nat :=
  match c.range with
  | none => 0
  | some r => r.frameSize

/-- A share in per-mille: sum × 1000 div (area × 255), 0 for an empty area (R24). -/
def perMille (sum : Int) (area : Nat) : Nat :=
  if area = 0 then 0 else ((sum * 1000).tdiv (area * 255 : Nat)).toNat

/-- The sum of key k of a frame. -/
def Frame.sum (f : Frame) (k : Nat) : Int := if h : k < 48 then f.sums[k] else 0

/-- The sum of the sums of keys 0 to n − 1 (R24). -/
def Frame.total (f : Frame) : Nat → Int
  | 0 => 0
  | n + 1 => Frame.total f n + f.sum n

/-- Key coverage of a slot computed from the sums as they stand; slot 48 is the fountain (R24). -/
def slotCoverage (g : Geometry) (frameSize : Nat) (f : Frame) (sl : Slot) : Nat :=
  if sl = fountainSlot then perMille (f.total g.k) (g.totalArea frameSize)
  else perMille (f.sum sl.val) (g.area frameSize sl.val)

/-- What a reader of the coverage of a slot is answered; 65535 when not available (R24). -/
def Coverage.read (c : Coverage) (bk : BankId) (t : Tower) (sl : Slot) : Nat :=
  match c.geometry[t] with
  | none => Config.noValue
  | some g => if c.available bk t then slotCoverage g c.frameSize (c.frame bk t) sl else Config.noValue

/-- The bank of a role (R32, R33). -/
def Coverage.role (c : Coverage) (standby : Bool) : BankId := if standby then otherBank c.active else c.active

/-! ### The fold's arithmetic -/

/-- Sample c of a word (12, opening). -/
def sample (w : Word) (i : Nat) : Int := (byteOf w i).toNat

/-- Add one sample's difference to its owner's sum; margin changes none (R28). -/
def addSample (old new : Word) (f : Frame) (p : Option (Fin 48) × Nat) : Frame :=
  match p.1 with
  | none => f
  | some k => { f with sums := f.sums.set k (f.sums[k] + (sample new p.2 - sample old p.2)) }

/-- The sums after a fold: the difference of each of the four samples (R28). -/
def foldSums (owners : List (Option (Fin 48))) (old new : Word) (f : Frame) : Frame :=
  (owners.zip [0, 1, 2, 3]).foldl (addSample old new) f

/-! ### The clear plan -/

/-- A tower's part of the clear plan: its frame's first address and its image length, when it has an image of
at least one word (R35). -/
def planSpan (c : Coverage) (r : CoverRange) (bk : BankId) (t : Tower) : Option Span :=
  match c.geometry[t] with
  | none => none
  | some g =>
    if g.imageLen r.frameSize = 0 then none
    else some ⟨r.frameBase bk t.val, g.imageLen r.frameSize⟩

/-- The clear plan of a bank (R35). -/
def clearPlan (c : Coverage) (r : CoverRange) (bk : BankId) : List Span := allTowers.filterMap (planSpan c r bk)

/-- The number of words of a plan. -/
def planWords (p : List Span) : Nat := (p.map (fun x => x.len / 4)).sum

/-- The address of word n of a plan, in ascending address within each frame and frame after frame (R35). -/
def planAddr : List Span → Nat → Option Nat
  | [], _ => none
  | x :: xs, n => if n < x.len / 4 then some (x.addr + 4 * n) else planAddr xs (n - x.len / 4)

/-! ### Bank commands -/

/-- The bank commands (R34). -/
inductive BankCmd where
  | clear (bk : BankId)
  | lock (bk : BankId)
  | unlock (bk : BankId)
  | swap
  deriving DecidableEq, Repr

/-- A bank is CLEARING. -/
def Coverage.clearing (c : Coverage) (bk : BankId) : Bool := (c.banks.get bk).state = .clearing

/-- The effect of an ACCEPTED CLEAR (R30): sums 0, frames fit, folds into the bank void, the plan laid down; a
plan with no words makes the bank OPEN at once (R35). -/
def Coverage.startClear (c : Coverage) (r : CoverRange) (bk : BankId) : Coverage :=
  let plan := clearPlan c r bk
  let open_ := planWords plan = 0
  let c1 := c.modBank bk (fun _ =>
    ⟨if open_ then .opened else .clearing, Vector.replicate 12 Frame.fresh⟩)
  { c1.voidFold (fun f => f.bank = bk) true with
    cursor := if open_ then c.cursor else some ⟨bk, plan, 0, false⟩ }

/-- Set a bank's state. -/
def Coverage.setState (bk : BankId) (st : BankState) (c : Coverage) : Coverage :=
  c.modBank bk (fun k => { k with state := st })

/-- A bank command: its result and the unit after it (R30, R31, R33). -/
def Coverage.command (c : Coverage) : BankCmd → Result × Coverage
  | .clear bk =>
    if c.clearing .a || c.clearing .b then (.refusedBusy, c)
    else match c.range with
      | none => (.refusedState, c)
      | some r => (.accepted, c.startClear r bk)
  | .lock bk =>
    match (c.banks.get bk).state with
    | .opened => (.accepted, c.setState bk .locked)
    | .locked => (.accepted, c)
    | .stale => (.refusedState, c)
    | .clearing => (.refusedState, c)
  | .unlock bk =>
    match (c.banks.get bk).state with
    | .locked => (.accepted, c.setState bk .opened)
    | .stale => (.refusedState, c)
    | .clearing => (.refusedState, c)
    | .opened => (.refusedState, c)
  | .swap =>
    if (c.banks.get (otherBank c.active)).state = .locked then (.accepted, { c with active := otherBank c.active })
    else (.refusedState, c)

/-- A bank command taken by the coverage unit; a CLEAR whose plan has no words raises BANK_READY (R35). The
report of the BANK word for an order is made by the order (R34, R120). -/
def State.bankCommand (cmd : BankCmd) (s : State) : Result × State :=
  let r := s.coverage.command cmd
  let ready : Bool := match cmd with
    | .clear bk => r.1 = .accepted && (r.2.banks.get bk).state = .opened
    | _ => false
  (r.1, ({ s with coverage := r.2 } : State).raiseIf ready .bankReady)

/-- What the BANK word shows (R34). -/
def Coverage.wordFields (c : Coverage) : Nat :=
  field 8 2 (bankCode c.banks.a.state) + field 10 2 (bankCode c.banks.b.state) + field 12 1 (bankSelector c.active)

/-! ### The outside-write watch -/

/-- The frame whose image a word of the range lies in, for a tower with a geometry record (R37). -/
def Coverage.imageFrame (c : Coverage) (a : Nat) : Option (BankId × Tower) :=
  match c.range with
  | none => none
  | some r =>
    if r.covers a then
      match frameTower (r.place a).frame with
      | none => none
      | some t =>
        match c.geometry[t] with
        | none => none
        | some g => if (r.place a).offset < g.imageLen r.frameSize then some ((r.place a).bank, t) else none
    else none

/-- A granted outside write to a word: the frame whose image it lies in becomes UNFIT, and the BANK word is
reported when it was fit (R34, R37). -/
def State.watch (s : State) (w : PortWord) : State :=
  match s.coverage.imageFrame w.word with
  | none => s
  | some (bk, t) =>
    if w.dir = .write then
      ({ s with coverage := s.coverage.unfit bk t } : State).reportIf (s.coverage.frame bk t).fit wordBank
    else s

end Sys2Proof.Machine
end

