-- ==== Sys2Proof/Machine/Words.lean ====
section
/-! DEFINITION. What each control word shows (12.2, R157, R158), and what the LIVE window shows (12.4, R12,
R13). -/

namespace Sys2Proof.Machine

/-! ### Control words -/

/-- Whether a control word carries a result code (R157). -/
def carriesResult (w : CtlWord) : Bool :=
  w = wordStart || w = wordStop || w = wordBank || w = wordMeasure || w = wordReload
    || (8 ≤ w.val && decide (w.val ≤ 12)) || (16 ≤ w.val && decide (w.val < 28))

/-- The binding a BIND word belongs to. -/
def bindSource (w : CtlWord) : Option Source := allSources.find? (fun k => wordBind k = w)

/-- The tower a TOWER t word belongs to. -/
def wordTowerOf (w : CtlWord) : Option Tower := if h : 16 ≤ w.val ∧ w.val < 28 then some ⟨w.val - 16, by omega⟩ else none

/-- The content of a BIND word beside its result (12.2). -/
def Engine.bindFields (e : Engine) (k : Source) : Nat :=
  field 3 1 (bit (e.bindings.get k).armed) + field 4 1 (bit (e.bindings.get k).pending)
    + field 8 6 (e.bindings.get k).index + (if k = .sheet then field 16 8 e.divisor else 0)

/-- The content of the ENGINE word (12.2). -/
def Engine.wordFields (e : Engine) : Nat :=
  field 0 6 e.head + field 6 6 e.current + field 12 7 e.visited
    + field 19 1 (bit e.bindings.sheet.pending) + field 20 1 (bit e.bindings.jobchg.pending)
    + field 21 1 (bit e.bindings.imprOn.pending) + field 22 1 (bit e.bindings.imprOff.pending)
    + field 23 1 (bit e.bindings.measure.pending) + field 24 1 (bit e.slot.isSome)
    + field 25 6 (e.slot.getD 0)

/-- The drop tower as the word shows it: as held below 12, 12 from 12 on, 15 for no tower (R153). -/
def dropTowerField : Option Byte → Nat
  | none => 15
  | some t => if t.toNat < 12 then t.toNat else 12

/-- The applied tower as the word shows it: 15 for no tower (R153). -/
def appliedTowerField : Option Tower → Nat
  | none => 15
  | some t => t.val

/-- The content of the MEASURE_STATUS word beside its result (12.2). -/
def MeasureStatus.wordFields (m : MeasureStatus) : Nat :=
  field 1 3 (dropCode m.reason) + field 4 4 m.slot.val + field 8 4 (dropTowerField m.dropTower)
    + field 12 4 (appliedTowerField m.applied) + field 16 16 m.sheetTag.toNat

/-- The content of the REFUSAL word (12.2). -/
def Capture.wordFields (c : Capture) : Nat :=
  field 0 28 c.addr.toNat + field 28 2 (classCode c.cls) + field 31 1 (bit c.valid)

/-- The configured-tower set as the PART_STATUS word places it (R158, 12.2). -/
def State.configuredFields (s : State) : Nat :=
  (allTowers.map (fun t => field (16 + t.val) 1 (bit s.towers[t].configured))).sum

/-- The fields of a control word beside its result code and, for START, the index (12.2). -/
def State.wordFields (s : State) (w : CtlWord) : Nat :=
  match wordTowerOf w, bindSource w with
  | some t, _ => s.towers[t].wordFields
  | none, some k => s.engine.bindFields k
  | none, none =>
    if w = wordStart then field 16 2 (engineCode s.engine.state)
    else if w = wordEvent then s.control.flags.toNat
    else if w = 3 then s.control.enables.toNat
    else if w = wordBank then s.coverage.wordFields
    else if w = wordPartStatus then
      field 0 2 (partCode s.control.part) + field 2 2 (engineCode s.engine.state) + s.configuredFields
    else if w = wordRefusal then s.control.capture.wordFields
    else if w = wordMeasure then s.loop.status.wordFields
    else if w = wordEngine then s.engine.wordFields
    else if w = wordReload then field 8 2 (partCode s.control.part)
    else 0

/-- The datum of a control word with a result and an index: the answer and the mirror differ in these two only
(R11, R157, R161, R180). -/
def State.wordDatum (s : State) (w : CtlWord) (r : Result) (index : Byte) : Word :=
  BitVec.ofNat 32
    ((if carriesResult w then field 0 3 (resultCode r) else 0)
      + (if w = wordStart then field 8 8 index.toNat else 0) + s.wordFields w)

/-- The datum of a mirror write, composed at its grant (R161). -/
def State.mirrorDatum (s : State) (w : CtlWord) : Word :=
  s.wordDatum w s.control.last[w] s.engine.startIndex

/-! ### The LIVE window -/

/-- An opening as shown: 65535 when UNKNOWN (R13). -/
def shown : Option Nat → Nat
  | none => Config.noValue
  | some p => p

/-- Key view of a record, words 1 to 3 (12.4). -/
def KeyRec.viewWord (r : KeyRec) : Nat → Nat
  | 0 => field 0 16 r.target + field 16 16 (shown r.commanded)
  | 1 => field 0 16 (shown r.reported) + field 16 16 r.base
  | _ => field 0 16 (signedField r.correction) + field 16 3 (moveCode r.move)
      + field 19 2 (keyFaultCode r.fault) + field 21 1 (bit r.hold) + field 22 1 (bit r.ramp.isSome)

/-- The tower summary, word 1 (12.4). -/
def TowerState.summary1 (tw : TowerState) : Nat :=
  field 0 3 (serviceCode tw.service) + field 3 1 (bit tw.parkHold) + field 4 2 (loopCode tw.loop)
    + field 8 6 tw.queue.length

/-- The tower summary, word 2 (12.4). -/
def TowerState.summary2 (tw : TowerState) : Nat :=
  field 0 6 tw.flight.length + field 8 6 tw.unknownCount + field 16 6 tw.faultCount

/-- A slot number, if it is one. -/
def slotOfNat (n : Nat) : Option Slot := if h : n < 49 then some ⟨n, h⟩ else none

/-- The slot whose trim word stands at an offset of a tower area (12.4). -/
def trimSlot (o : Nat) : Option Slot := if 800 ≤ o then slotOfNat ((o - 800) / 4) else none

/-- What a present slot's words of a tower area show (R13, 12.4). -/
def State.slotWord (s : State) (t : Tower) (o : Nat) : Nat :=
  let tw := s.towers[t]
  if o < 588 then
    match slotOfNat (o / 12) with
    | none => 0
    | some sl => if tw.present sl then tw.recs[sl].viewWord (o % 12 / 4) else 0
  else if 600 ≤ o ∧ o < 796 then
    match slotOfNat ((o - 600) / 4) with
    | none => 0
    | some sl =>
      if tw.present sl then
        field 0 16 (s.coverage.read (s.coverage.role false) t sl)
          + field 16 16 (s.coverage.read (s.coverage.role true) t sl)
      else 0
  else
    match trimSlot o with
    | none => 0
    | some sl => if tw.present sl then field 0 16 (signedField tw.recs[sl].trim) else 0

/-- One word of a tower area; an UNCONFIGURED tower shows its service state alone (R13). -/
def State.areaWord (s : State) (t : Tower) (o : Nat) : Nat :=
  let tw := s.towers[t]
  if tw.configured then
    if o = 1000 then tw.summary1 else if o = 1004 then tw.summary2 else s.slotWord t o
  else if o = 1000 then field 0 3 (serviceCode tw.service) else 0

/-- The tower of an area of the LIVE window (R12). -/
def areaTower (offset : Nat) : Option Tower := if h : offset / 1024 < 12 then some ⟨offset / 1024, h⟩ else none

/-- The word at a word offset of the LIVE window (R12, R13). -/
def State.liveWord (s : State) (offset : Nat) : Word :=
  match areaTower offset with
  | none => 0
  | some t => BitVec.ofNat 32 (s.areaWord t (offset % 1024))

end Sys2Proof.Machine
end

