-- ==== Sys2Proof/Machine/Link.lean ====
section
/-! DEFINITION. The transmitter and the control unit's request channel, which look at the state left by each
event: the search of R88 and the offer of R161. -/

namespace Sys2Proof.Machine

/-! ### The transmitter -/

/-- A tower has work (R89). -/
def TowerState.hasWork (tw : TowerState) : Bool :=
  tw.configured && (tw.haltPending || tw.queryPending || tw.dispatchable.isSome)

/-- The towers in the order a search looks at them: after the pointer, wrapping, the pointer's own last (R89). -/
def searchOrder (p : Tower) : List Tower :=
  allTowers.filter (fun t => p < t) ++ allTowers.filter (fun t => t ≤ p)

/-- The tower a search finds (R89). -/
def State.found (s : State) : Option Tower :=
  (searchOrder s.link.pointer).find? (fun t => s.towers[t].hasWork)

/-- Begin sending a frame for a tower (R91): the transmitter is SENDING and the pointer names the tower. -/
def State.transmit (t : Tower) (frame : List Byte) (s : State) : State :=
  { s with link := { s.link with tx := .sending frame, pointer := t } }

/-- The service of a tower: one frame, HALT before QUERY ALL before a move (R90, R91). -/
def State.serve (t : Tower) (s : State) : State :=
  let tw := s.towers[t]
  let a := tw.address.getD 0
  if tw.haltPending then
    (s.putTower t { tw with haltPending := false }).transmit t (frameBytes a kindHalt 255#8 0 0)
  else if tw.queryPending then
    (s.putTower t { tw with queryPending := false }).transmit t (frameBytes a kindQuery 255#8 0 0)
  else
    match tw.dispatchable with
    | none => s
    | some sl =>
      (s.putTower t (tw.dispatch s.timeout sl)).transmit t
        (frameBytes a kindMove (linkNumber sl) (tw.tagCounter.setWidth 8) (BitVec.ofNat 16 tw.recs[sl].target))

/-- A search and its service (R88, R89). -/
def State.search (s : State) : State :=
  match s.found with
  | none => s
  | some t => s.serve t

/-- What an IDLE transmitter looks at in a tower: a change of any of these makes it search (R88). -/
def TowerState.linkView (tw : TowerState) : Bool × Bool × List Slot × List Slot × Service :=
  (tw.haltPending, tw.queryPending, tw.queue, tw.flight, tw.service)

/-- What an IDLE transmitter looks at in every tower. -/
def State.linkView (s : State) : List (Bool × Bool × List Slot × List Slot × Service) :=
  s.towers.toList.map TowerState.linkView

/-- The search made while IDLE when an event has changed what the transmitter looks at (R88, log 21). -/
def State.searchIfChanged (s0 s : State) : State :=
  if s.link.tx = .idle ∧ s.linkView ≠ s0.linkView then s.search else s

/-! ### The request channel -/

/-- The base of the installed window of a kind, if there is one (R3: at most one of MEASURE, CONTROL, ...). -/
def windowBase (k : WindowKind) : WindowTable → Option Nat
  | [] => none
  | none :: ws => windowBase k ws
  | some w :: ws => if w.kind = k then some w.base else windowBase k ws

/-- Put a request into the channel and offer it (R161). -/
def State.offerOn (c : ChannelReq) (r : IReq) (s : State) : State :=
  ({ s with control := { s.control with channel := some c } } : State).offer r

/-- Offer the mirror write of the word after the pointer (R161). -/
def State.offerMirror (s : State) : State :=
  match nextMirror s.control.mirror s.control.pointer, windowBase .control s.windows with
  | some w, some base =>
    ({ s with control := { s.control with pointer := w } } : State).offerOn (.mirror w)
      (.mirrorWrite w (base + 4 * w.val))
  | _, _ => s

/-- The next PRELOAD pair while PRELOADING (R175). -/
def State.nextPreload (s : State) : Option (Nat × Word) :=
  match s.loader.state with
  | .preloading n => s.loader.staged.preload[n]?
  | _ => none

/-- What the control unit offers when its channel is free (R161). -/
def State.offerChannel (s : State) : State :=
  if s.control.channel.isSome then s
  else
    match s.nextPreload with
    | some p => s.offerOn .preload (.preloadWrite p.1 p.2)
    | none =>
      if s.control.noticePending then
        s.offerOn .notice (.noticeWrite s.control.noticeAddr s.control.noticeDatum)
      else s.offerMirror

/-- What follows every event: the transmitter's search on a change, then the control unit's offer (R17, R88,
R161; log 21, log 22). -/
def State.settle (s0 s : State) : State := (State.searchIfChanged s0 s).offerChannel

end Sys2Proof.Machine
end

