-- ==== Sys2Proof/Machine/Engine.lean ====
section
/-! DEFINITION. The order engine and its order-start side: reports, chains, starts, triggers, stops, the checks
of a fetched order, its outcome and its write-back (07, 08). -/

namespace Sys2Proof.Machine

/-! ### Reports -/

/-- What the ENGINE word is reported for (R129, R140). -/
def Engine.view (e : Engine) : EngineState × Nat × Nat × Nat × Option Nat × List Bool :=
  (e.state, e.head, e.current, e.visited, e.slot, allSources.map (fun k => (e.bindings.get k).pending))

/-- Report the BIND word of a source when its binding has changed (R140). -/
def Engine.reportBind (old new : Engine) (c : Control) (k : Source) : Control :=
  if old.bindings.get k = new.bindings.get k ∧ (k ≠ .sheet ∨ old.divisor = new.divisor) then c
  else c.report (wordBind k)

/-- The reports a change of the engine makes (R129, R140). -/
def Engine.reports (old new : Engine) (c : Control) : Control :=
  allSources.foldl (Engine.reportBind old new)
    (let c1 := if old.view = new.view then c else c.report wordEngine
     if old.state = new.state then c1 else (c1.report wordStart).report wordPartStatus)

/-- Replace the engine, making the reports of R129 and R140, by what it showed before and shows after (log 30). -/
def State.putEngine (e : Engine) (s : State) : State :=
  { s with engine := e, control := Engine.reports s.engine e s.control }

/-! ### Chains -/

/-- The order table's length; 0 without a table, so that every index names no order (R114). -/
def Engine.length (e : Engine) : Nat :=
  match e.table with
  | none => 0
  | some t => t.length

/-- The address of the current record (R114; log 14). -/
def Engine.recordAddr (e : Engine) : Nat :=
  match e.table with
  | none => wrapAddr (32 * e.current)
  | some t => wrapAddr (t.base + 32 * e.current)

/-- Begin the fetch of the current order (R116). -/
def State.fetch (e : Engine) (s : State) : State :=
  (s.putEngine { e with state := .fetching, running := none }).offer (.orderRead e.recordAddr)

/-- A chain starts at an index (R116, R135). -/
def State.startChain (i : Nat) (tie : Option Source) (s : State) : State :=
  s.fetch { s.engine with head := i, current := i, visited := 1, tie := tie }

/-- A waiting request: a binding's or the start slot's. -/
inductive StartRequest where
  | binding (k : Source)
  | slot
  deriving DecidableEq, Repr

/-- The fixed order of the arbiter over the order engine (R135). -/
def startOrder : List StartRequest :=
  [.binding .jobchg, .binding .imprOff, .slot, .binding .measure, .binding .imprOn, .binding .sheet]

/-- A request waits (R135). -/
def Engine.waits (e : Engine) : StartRequest → Bool
  | .binding k => (e.bindings.get k).pending
  | .slot => e.slot.isSome

/-- Change one binding. -/
def Engine.modBinding (k : Source) (f : Binding → Binding) (e : Engine) : Engine :=
  { e with bindings := e.bindings.put k (f (e.bindings.get k)) }

/-- Clear a binding's pending flag. -/
def Binding.unpend (x : Binding) : Binding := { x with pending := false }

/-- Clear a binding's armed and pending flags (R133, R136). -/
def Binding.disarm (x : Binding) : Binding := { x with armed := false, pending := false }

/-- Serve the first waiting request of an IDLE engine, if any (R135). -/
def State.serveStarts (s : State) : State :=
  match startOrder.find? s.engine.waits with
  | none => s
  | some (.binding k) =>
    (s.putEngine (s.engine.modBinding k Binding.unpend)).startChain (s.engine.bindings.get k).index (some k)
  | some .slot => (s.putEngine { s.engine with slot := none }).startChain (s.engine.slot.getD 0) none

/-- A chain ends: IDLE, the running order dropped, the stop request and the tie cleared, and the waiting
requests served (R126, R135; log 18). -/
def State.endChain (s : State) : State :=
  (s.putEngine { s.engine with state := .idle, running := none, stop := false, tie := none }).serveStarts

/-! ### Triggers -/

/-- A firing reaches its binding (R134). -/
def State.fire (k : Source) (s : State) : State :=
  let b := s.engine.bindings.get k
  if b.armed then
    if b.pending then s.raise .triggerMerged
    else
      let s1 := s.putEngine (s.engine.modBinding k (fun x => { x with pending := true }))
      if s.engine.state = .idle then s1.serveStarts else s1
  else s

/-- One SHEET pulse counted by an armed SHEET binding; at D the counter returns to 0 and the binding fires
(R134). -/
def State.countSheet (s : State) : State :=
  if s.engine.bindings.sheet.armed then
    if s.engine.divisor ≤ s.engine.counter + 1 then
      ({ s with engine := { s.engine with counter := 0 } } : State).fire .sheet
    else { s with engine := { s.engine with counter := s.engine.counter + 1 } }
  else s

/-! ### Commands of the START, STOP and BIND words -/

/-- START (R131). -/
def State.start (index : Byte) (s : State) : Result × State :=
  if s.engine.length ≤ index.toNat then (.refusedRange, s)
  else if s.engine.slot.isSome then (.refusedBusy, s)
  else if s.engine.state = .idle then (.accepted, s.startChain index.toNat none)
  else (.queued, s.putEngine { s.engine with slot := some index.toNat })

/-- A binding's request waits with an index (R137). -/
def Engine.pendingAt (e : Engine) (i : Nat) (k : Source) : Bool :=
  (e.bindings.get k).pending && decide ((e.bindings.get k).index = i)

/-- Remove the waiting requests of an index (R137). -/
def Engine.removeWaiting (i : Nat) (e : Engine) : Engine :=
  allSources.foldl (fun e k => if e.pendingAt i k then e.modBinding k Binding.unpend else e)
    { e with slot := if e.slot = some i then none else e.slot }

/-- STOP with an index (R137). -/
def State.stop (index : Byte) (s : State) : Result × State :=
  if s.engine.state ≠ .idle ∧ s.engine.head = index.toNat then
    (.accepted, s.putEngine { s.engine with stop := true })
  else if s.engine.slot = some index.toNat ∨ allSources.any (s.engine.pendingAt index.toNat) = true then
    (.accepted, s.putEngine (s.engine.removeWaiting index.toNat))
  else (.notRunning, s)

/-- Freeze every ramp of a tower (R47). -/
def TowerState.freeze (tw : TowerState) : TowerState :=
  tw.revalueEvent (fun _ => freezeRamp) (fun tw => tw.slots.filter (fun sl => tw.recs[sl].ramp.isSome))

/-- STOP ALL (R138). -/
def State.stopAll (s : State) : Result × State :=
  (.accepted,
    (s.putEngine
      (allSources.foldl (fun e k => e.modBinding k Binding.unpend)
        { s.engine with slot := none, stop := s.engine.stop || s.engine.state != .idle })).modTowers
      TowerState.freeze allTowers)

/-- The tie is cleared when it names a binding (R133, R136). -/
def Engine.untie (k : Source) (e : Engine) : Engine := { e with tie := if e.tie = some k then none else e.tie }

/-- ARM (R133). -/
def State.armBinding (k : Source) (index divisor : Byte) (s : State) : Result × State :=
  if s.engine.length ≤ index.toNat ∨ (k = .sheet ∧ divisor = 0) then (.refusedRange, s)
  else
    (.accepted,
      s.putEngine
        ({ s.engine.modBinding k (fun _ => ⟨true, false, index.toNat⟩) with
            divisor := if k = Source.sheet then divisor.toNat else s.engine.divisor
            counter := if k = Source.sheet then 0 else s.engine.counter }.untie k))

/-- DISARM (R133). -/
def State.disarmBinding (k : Source) (s : State) : Result × State :=
  (.accepted, s.putEngine ((s.engine.modBinding k Binding.disarm).untie k))

/-! ### The checks of a fetched order -/

/-- The checks that apply to every order, in their order (R117). -/
def Engine.commonFault (e : Engine) (r : OrderRec) : Option FaultCode :=
  if Config.chainLimit ≤ e.visited then some .chainLoop
  else if r.state = 2 ∨ (r.state = 3 ∧ r.code = 6) then some .exhausted
  else if firstBadVerb ≤ r.verb ∨ 3 ≤ r.notify then some .verb
  else if r.linked = true ∧ e.length ≤ r.next then some .link
  else none

/-- A tower that ALL takes and that a named tower must be: neither UNCONFIGURED nor FAULTED (R118). -/
def TowerState.orderable (tw : TowerState) : Bool := tw.service != .unconfigured && tw.service != .faulted

/-- The key count of a tower; 0 when it has none. -/
def TowerState.keyCount (tw : TowerState) : Nat :=
  match tw.cfg with
  | none => 0
  | some c => c.k

/-- The tower set of an order, or its fault (R118). `keyed` is set for PRESET and the five key-range verbs. -/
def State.towerSet (keyed : Bool) (r : OrderRec) (s : State) : Except FaultCode (List Tower) :=
  if r.tower = 15 then
    if keyed = true ∧ (r.last < r.first ∨ 47 < r.last) then .error .range
    else .ok (allTowers.filter (fun t => s.towers[t].orderable))
  else if h : r.tower < 12 then
    let tw := s.towers[(⟨r.tower, h⟩ : Tower)]
    if tw.orderable then
      if keyed = true ∧ (r.last < r.first ∨ tw.keyCount ≤ r.last) then .error .range
      else .ok [⟨r.tower, h⟩]
    else .error .tower
  else .error .tower

/-- The records of a tower an order touches: its clipped key range, and the fountain when the flag is set and
the tower has one (R118, R119, R49). -/
def orderSlots (r : OrderRec) (tw : TowerState) : List Slot :=
  tw.slots.filter (fun sl =>
    if sl = fountainSlot then r.fountain else r.first ≤ sl.val && decide (sl.val ≤ r.last))

/-- A key-range verb over a tower set (R49, R119). -/
def State.keyRange (r : OrderRec) (f : KeyRec → KeyRec) (s : State) : Except FaultCode State :=
  match s.towerSet true r with
  | .error c => .error c
  | .ok ts => .ok (s.modTowers (TowerState.revalueEvent (fun _ => f) (orderSlots r)) ts)

/-! ### Verbs -/

/-- PRESET's own checks over a tower set (R43). -/
def State.presetFault (r : OrderRec) (ts : List Tower) (s : State) : Option FaultCode :=
  let bk := s.coverage.role r.standby
  if ¬(r.curve ≤ 15 ∨ r.curve = 31) then some .range
  else if r.ramp = true ∧ ¬(1 ≤ r.steps ∧ r.steps ≤ 64) then some .range
  else if (s.coverage.banks.get bk).state ≠ .locked then some .bankState
  else if ts.all (fun t => (s.coverage.frame bk t).fit) then none
  else some .frameUnfit

/-- The curve a PRESET uses for a slot (R42). -/
def presetCurve (curves : List Curve) (r : OrderRec) (cfg : Option KeyCfg) (sl : Slot) : Curve :=
  match cfg with
  | none => linearCurve
  | some c =>
    curves.getD
      (if sl = fountainSlot then c.fountainCurve.val else if r.curve = 31 then c.defaultCurve.val else r.curve)
      linearCurve

/-- The new base of a slot (R43). -/
def State.presetBase (s : State) (r : OrderRec) (t : Tower) (sl : Slot) : Nat :=
  evalCurve (presetCurve s.curves r s.towers[t].cfg sl)
    (s.coverage.read (s.coverage.role r.standby) t sl)

/-- PRESET's change of one record (R44, R45). -/
def presetRec (r : OrderRec) (base : Nat) (x : KeyRec) : KeyRec :=
  if r.ramp then presetRamp base r.steps x else presetAtOnce base x

/-- PRESET over one tower. The bases are those of the state before the order (R43). -/
def State.presetTower (r : OrderRec) (s0 s : State) (t : Tower) : State :=
  s.modTower t (TowerState.revalueEvent (fun sl => presetRec r (s0.presetBase r t sl)) (orderSlots r))

/-- PRESET (R43). -/
def State.runPreset (r : OrderRec) (s : State) : Except FaultCode State :=
  match s.towerSet true r with
  | .error c => .error c
  | .ok ts =>
    match s.presetFault r ts with
    | some c => .error c
    | none => .ok (ts.foldl (State.presetTower r s) s)

/-- The bank a bank verb's value names (R120). -/
def selectedBank (v : Int) : Option BankId := if v = 0 then some .a else if v = 1 then some .b else none

/-- A bank command of an order: ACCEPTED or BANK_STATE, the BANK word reported on a change of what it shows, and for a
CLEAR (R34, R120; log 30). -/
def State.orderBank (cmd : BankCmd) (s : State) : Except FaultCode State :=
  let p := s.bankCommand cmd
  if p.1 = .accepted then
    .ok (p.2.reportIf (match cmd with
      | .clear _ => true
      | _ => p.2.coverage.wordFields != s.coverage.wordFields) wordBank)
  else .error .bankState

/-- A bank verb that names its bank by value (R120). -/
def State.orderNamedBank (cmd : BankId → BankCmd) (r : OrderRec) (s : State) : Except FaultCode State :=
  match selectedBank r.value with
  | none => .error .range
  | some k => s.orderBank (cmd k)

/-- LOOP_ON for a tower (R147). -/
def TowerState.loopOn (tw : TowerState) : Result × TowerState :=
  if tw.service = .faulted then (.refusedState, tw)
  else if tw.loop = .off then
    (.accepted, { tw with loop := .settling, settle := (tw.settings.map LoopSettings.sheets).getD 0 })
  else (.accepted, tw)

/-- LOOP_OFF for a tower (R147). -/
def TowerState.loopOff (tw : TowerState) : Result × TowerState := (.accepted, { tw with loop := .off, settle := 0 })

/-- A loop verb: the loop unit's result does not fault the order (R121). -/
def State.orderLoop (f : TowerState → Result × TowerState) (r : OrderRec) (s : State) : Except FaultCode State :=
  match s.towerSet false r with
  | .error c => .error c
  | .ok ts => .ok (s.modTowers (fun tw => (f tw).2) ts)

/-! ### Outcome and write-back -/

/-- The outcome of an order that passed its checks: EXHAUSTED when its last run is used (R122). -/
def successOutcome (r : OrderRec) : OrderOutcome := if r.runsLeft = 1 then .exhausted else .done

/-- An EXHAUSTED or faulted outcome disarms the binding a chain's head is tied to (R136). -/
def OrderOutcome.disarms : OrderOutcome → Bool
  | .exhausted => true
  | .fault _ => true
  | _ => false

/-- The order-start side is told the head's outcome at the chain's first visit (R122, R136). -/
def Engine.headOutcome (o : OrderOutcome) (e : Engine) : Engine :=
  if e.visited = 1 ∧ o.disarms = true then
    match e.tie with
    | none => e
    | some k => { e.modBinding k Binding.disarm with tie := none }
  else e

/-- Begin the write-back of a fetched order with its outcome (R122, R123). -/
def State.writeBack (ws : List Word) (o : OrderOutcome) (s : State) : State :=
  (s.putEngine
    { s.engine.headOutcome o with state := .writingBack, running := some ⟨ws, o⟩ }).offer
    (.orderWrite s.engine.recordAddr (BitVec.ofNat 16 (runsLeftWritten (orderRec ws) o)) (statusWord (orderRec ws) o))

/-- Execute a fetched order whose verb is `run`, and begin its write-back (R116, R117, R119). -/
def State.execute (run : OrderRec → State → Except FaultCode State) (ws : List Word) (s : State) : State :=
  match s.engine.commonFault (orderRec ws) with
  | some c => s.writeBack ws (.fault c)
  | none =>
    match run (orderRec ws) s with
    | .error c => s.writeBack ws (.fault c)
    | .ok s1 => s1.writeBack ws (successOutcome (orderRec ws))

/-- The event an outcome calls for (R124). -/
def outcomeEvent (r : OrderRec) : OrderOutcome → Option EventFlag
  | .done => if r.notify = 1 then some .orderDone else none
  | .exhausted => if r.notify = 1 ∨ r.notify = 2 then some .orderDone else none
  | .fault _ => some .orderFault
  | .cancelled => none

/-- Raise an event if there is one. -/
def State.raiseSome (f : Option EventFlag) (s : State) : State :=
  match f with
  | none => s
  | some f => s.raise f

/-- The completion of the write-back is taken: its event, then the link or the end of the chain (R123 to
R126). -/
def State.orderWritten (failed : Bool) (s : State) : State :=
  match s.engine.running with
  | none => s.endChain
  | some o =>
    let r := orderRec o.words
    let s1 := s.raiseSome (outcomeEvent r o.outcome)
    if failed = false ∧ o.outcome.success = true ∧ r.linked = true ∧ s.engine.stop = false then
      s1.fetch { s1.engine with current := r.next, visited := s1.engine.visited + 1 }
    else s1.endChain

/-- The fetch completes ERROR: fault MEMORY, nothing written back, the chain ends (R116, R126, R136). -/
def State.fetchFailed (s : State) : State :=
  ((s.putEngine (s.engine.headOutcome (.fault .memory))).raise .orderFault).endChain

end Sys2Proof.Machine
end

