-- ==== Sys2Proof/Machine/Density.lean ====
section
/-! DEFINITION. The loop unit: measurement slots, the read list, the gate and the correction (09). -/

namespace Sys2Proof.Machine

/-! ### Slots and reads -/

/-- Set a measurement slot's state (R143). -/
def State.setSlot (i : Fin 16) (x : SlotState) (s : State) : State :=
  { s with loop := { s.loop with slots := s.loop.slots.set i x } }

/-- Offer the SLOT_READ of the slot at the head of the read list when no read is in flight (R146). -/
def State.offerSlotRead (s : State) : State :=
  if s.loop.reading then s
  else
    match s.loop.readList, windowBase .measure s.windows with
    | i :: _, some base =>
      ({ s with loop := { s.loop with reading := true } } : State).offer (.slotRead i (base + 128 * i.val))
    | _, _ => s

/-- The records in the read list, the one being read among them, have waited over a good reset of a tower (R156). -/
def LoopUnit.markReset (t : Tower) (l : LoopUnit) : LoopUnit :=
  { l with
    overReset := vecOf (fun i => if i ∈ l.readList then l.overReset[i] ||| BitVec.twoPow 12 t.val else l.overReset[i]) }

/-- The record of a slot has been judged, and the resets it has waited over are forgotten with it (R156). -/
def State.forgetResets (i : Fin 16) (s : State) : State :=
  { s with loop := { s.loop with overReset := s.loop.overReset.set i 0 } }

/-- A committed slot enters the read list at the tail (R145). -/
def State.enlist (i : Fin 16) (s : State) : State :=
  ({ s with loop := { s.loop with readList := s.loop.readList ++ [i] } } : State).offerSlotRead

/-! ### Drops -/

/-- A drop: MEASURE_DROPPED, the drop fields, the report (R150). -/
def State.dropRecord (why : DropReason) (i : Fin 16) (tower : Option Byte) (s : State) : State :=
  (({ s with
      loop := { s.loop with status := { s.loop.status with reason := why, slot := i, dropTower := tower } } } :
    State).raise .measureDropped).report wordMeasure

/-! ### The gate -/

/-- A density is valid: at most 4000, or 65535 (9.2, R149). -/
def densityValid (d : Nat) : Bool := d ≤ 4000 || d = Config.noValue

/-- The densities of keys 0 to K − 1 (9.2). -/
def MeasureRec.keys (m : MeasureRec) (k : Nat) : List Nat := m.densities.take k

/-- BAD_RECORD: the tower field names no configured tower, the key count differs, or a density is out of range
(R149). -/
def State.badRecord (m : MeasureRec) (s : State) : Bool :=
  match frameTower m.tower.toNat with
  | none => true
  | some t =>
    !s.towers[t].configured || m.keyCount != s.towers[t].keyCount
      || !(m.keys s.towers[t].keyCount).all densityValid

/-- The record of a slot has waited over a good reset of a tower (R156). -/
def LoopUnit.waitedOver (l : LoopUnit) (i : Fin 16) (t : Tower) : Bool := l.overReset[i].getLsbD t.val

/-- The first condition of the gate that fails for a record that was read, after BAD_RECORD (R149). A record that has
waited over a good reset of its tower is dropped with LOOP_STATE, as the reset has left the loop OFF, unless the loop has
become ARMED again by then (R156; log 33). -/
def State.gateFault (i : Fin 16) (t : Tower) (s : State) : Option DropReason :=
  if s.loop.waitedOver i t = true ∧ s.towers[t].loop ≠ .armed then some .loopState
  else if s.towers[t].service ≠ .printing then some .towerState
  else if s.towers[t].loop ≠ .armed then some .loopState
  else if (s.coverage.banks.get s.coverage.active).state ≠ .locked ∨ (s.coverage.frame s.coverage.active t).fit = false
  then some .noCoverage
  else none

/-! ### The correction -/

/-- The step from an error: error × G div 1000 toward zero, clamped to the step limit (R151). -/
def loopStep (ls : LoopSettings) (err : Int) : Int := clampInt (-ls.step) ls.step ((err * ls.gain).tdiv 1000)

/-- The new correction of a key with coverage c and density d (R151). -/
def corrected (ls : LoopSettings) (c d : Nat) (old : Int) : Int :=
  if d = Config.noValue ∨ c < ls.minCoverage then old
  else if ((ls.target : Int) - d).natAbs ≤ ls.deadband then old
  else clampInt (-ls.limit) ls.limit (old + loopStep ls (ls.target - d))

/-- The new correction of a slot of a tower; the fountain is never corrected (R50, R151). -/
def State.correctionOf (m : MeasureRec) (s : State) (t : Tower) (sl : Slot) : Int :=
  match s.towers[t].settings with
  | none => s.towers[t].recs[sl].correction
  | some ls =>
    if sl = fountainSlot then s.towers[t].recs[sl].correction
    else
      corrected ls (s.coverage.read s.coverage.active t sl) (m.densities.getD sl.val Config.noValue)
        s.towers[t].recs[sl].correction

/-- The corrections of a record over its tower, in ascending key order (R151). -/
def State.correct (m : MeasureRec) (t : Tower) (s : State) : State :=
  s.modTower t (TowerState.revalueEvent (fun sl => setCorrection (s.correctionOf m t sl)) TowerState.slots)

/-- The loop of a tower settles (R147, R152). -/
def TowerState.settleAgain (tw : TowerState) : TowerState :=
  { tw with loop := .settling, settle := (tw.settings.map LoopSettings.sheets).getD 0 }

/-- The applied fields of the measure status (R152, R153). -/
def State.setApplied (t : Tower) (tag : Half) (s : State) : State :=
  { s with loop := { s.loop with status := { s.loop.status with applied := some t, sheetTag := tag } } }

/-- A record is applied (R151, R152). -/
def State.applyRecord (m : MeasureRec) (t : Tower) (s : State) : State :=
  (((((((s.correct m t).modTower t TowerState.settleAgain).setApplied t m.sheetTag).raise
    .measureApplied).fire .measure).report wordMeasure).report (wordTower t))

/-- A record at the gate (R149); none when its SLOT_READ completed ERROR. -/
def State.gate (i : Fin 16) (m : Option MeasureRec) (s : State) : State :=
  match m with
  | none => s.dropRecord .memory i none
  | some m =>
    match frameTower m.tower.toNat with
    | none => s.dropRecord .badRecord i (some m.tower)
    | some t =>
      if s.badRecord m then s.dropRecord .badRecord i (some m.tower)
      else
        match s.gateFault i t with
        | some why => s.dropRecord why i (some m.tower)
        | none => s.applyRecord m t

/-- The completion of a SLOT_READ is delivered (R146). -/
def State.slotRead (i : Fin 16) (m : Option MeasureRec) (s : State) : State :=
  (((({ s with loop := { s.loop with readList := s.loop.readList.drop 1, reading := false } } : State).setSlot i
    .free).gate i m).forgetResets i).offerSlotRead

/-! ### Settling -/

/-- A SHEET pulse for a tower's loop (R148). -/
def TowerState.settleSheet (eligible : Bool) (tw : TowerState) : TowerState :=
  if eligible = true ∧ tw.loop = .settling then
    if tw.settle ≤ 1 then { tw with loop := .armed, settle := 0 } else { tw with settle := tw.settle - 1 }
  else tw

/-- A clear of the measure status (R153). -/
def State.clearMeasure (s : State) : State := { s with loop := { s.loop with status := MeasureStatus.cleared } }

end Sys2Proof.Machine
end

