-- ==== Sys2Proof/Machine/Towers.lean ====
section
/-! DEFINITION. The tower controller: WAKE, PARK, controller restarts, the end of a tower's link, the press
signals; and the receiver with the delivery of frames (06, R93 to R95, R104 to R106). -/

namespace Sys2Proof.Machine

/-! ### WAKE and PARK -/

/-- The state a woken tower takes (R101). -/
def wokenState (impr : Bool) : Service := if impr then .printing else .ready

/-- WAKE of a tower (R101): the steps depend on the state it leaves. -/
def TowerState.wake (impr : Bool) (tw : TowerState) : TowerState :=
  match tw.service with
  | .parked => ({ tw.setParkHold false with service := wokenState impr } : TowerState).sweep
  | .parking => (({ tw with service := wokenState impr } : TowerState).setParkHold false).sweep
  | _ => tw

/-- PARK of a tower (R102); its moves are looked at once every record is recomposed (log 9). -/
def TowerState.park (tw : TowerState) : TowerState :=
  if tw.service = .ready ∨ tw.service = .printing then
    (({ tw with service := .parking } : TowerState).setParkHold true).parkIfRest
  else tw

/-- WAKE as taken from the word (R100, R101). -/
def TowerState.takeWake (impr : Bool) (tw : TowerState) : Result × TowerState :=
  if tw.service = .unconfigured ∨ tw.service = .faulted then (.refusedState, tw) else (.accepted, tw.wake impr)

/-- PARK as taken from the word (R100, R102). -/
def TowerState.takePark (tw : TowerState) : Result × TowerState :=
  if tw.service = .unconfigured ∨ tw.service = .faulted then (.refusedState, tw) else (.accepted, tw.park)

/-- A routed command in a configured tower (R100). -/
def TowerState.routed (f : TowerState → Result × TowerState) (tw : TowerState) : Result × TowerState :=
  if tw.service = .unconfigured then (.refusedState, tw) else f tw

/-- CLEAR_FAULTS (R76). -/
def TowerState.takeClearFaults (tw : TowerState) : Result × TowerState := (.accepted, tw.clearFaults)

/-! ### Link failure and restarts -/

/-- Entry to FAULTED (R104). -/
def TowerState.enterFaulted (tw : TowerState) : TowerState := ({ tw with service := .faulted } : TowerState).withdraw false

/-- A HELLO taken for a configured tower (R105, R106). -/
def TowerState.hello (tw : TowerState) : TowerState :=
  match tw.service with
  | .faulted =>
    { (({ tw with service := .parked } : TowerState).setParkHold true).withdraw false with
      haltPending := true
      queryPending := true }
  | .unconfigured => tw
  | _ => { (tw.withdraw false).parkIfRest with queryPending := true }

/-- A HELLO is delivered (R95, R105, R106). -/
def State.takeHello (t : Tower) (s : State) : State := (s.modTower t TowerState.hello).raise .towerUp

/-- An answer is delivered to the key table (R68 to R75, R95). -/
def State.takeAnswer (t : Tower) (k : AnswerKind) (key tag : Byte) (p : Nat) (s : State) : State :=
  let tw := s.towers[t].takeAnswer k key tag p
  (s.putTower t tw).raiseIf
    (match s.towers[t].slotOf key with
      | none => false
      | some sl => enteredFault sl s.towers[t] tw) .keyFault

/-- One more timeout in a row (R74). -/
def TowerState.countTimeout (tw : TowerState) : TowerState := { tw with timeouts := tw.timeouts + 1 }

/-- A move timer expires (R71, R74, R104): the key is dealt with, the count rises, and at three the tower enters
FAULTED; otherwise the notice of R78 is given (log 26). -/
def TowerState.timeout (sl : Slot) (tw : TowerState) : TowerState :=
  let tw1 := (tw.takeTimeout sl).countTimeout
  if Config.maxTimeouts ≤ tw1.timeouts then tw1.enterFaulted else TowerState.notice tw tw1

/-- Whether a timeout took the tower to FAULTED (R104). -/
def TowerState.goesDown (tw : TowerState) : Bool := decide (Config.maxTimeouts ≤ tw.timeouts + 1)

/-- A move timer expires (R71, R74, R75, R104). -/
def State.takeTimeout (t : Tower) (sl : Slot) (s : State) : State :=
  if s.towers[t].recs[sl].timer.isSome then
    ((s.modTower t (TowerState.timeout sl)).raiseIf (enteredFault sl s.towers[t] (s.towers[t].takeTimeout sl))
      .keyFault).raiseIf s.towers[t].goesDown .towerDown
  else s

/-! ### The press signals -/

/-- A tower on an IMPR rise (R111). -/
def TowerState.rise (tw : TowerState) : TowerState := if tw.service = .ready then { tw with service := .printing } else tw

/-- A tower on an IMPR fall (R111). -/
def TowerState.fall (tw : TowerState) : TowerState := if tw.service = .printing then { tw with service := .ready } else tw

/-- The taken IMPR level. -/
def State.setImpr (b : Bool) (s : State) : State := { s with levels := { s.levels with impr := b } }

/-- An IMPR rise, when the taken level is low (R110, R111). -/
def State.imprRise (s : State) : State :=
  if s.levels.impr then s else ((s.setImpr true).modTowers TowerState.rise allTowers).fire .imprOn

/-- An IMPR fall, when the taken level is high (R110, R111). -/
def State.imprFall (s : State) : State :=
  if s.levels.impr then ((s.setImpr false).modTowers TowerState.fall allTowers).fire .imprOff else s

/-- A SHEET pulse steps the ramps of a PRINTING tower (R46). -/
def TowerState.rampSheet (tw : TowerState) : TowerState :=
  if tw.service = .printing then
    tw.revalueEvent (fun _ => stepRamp) (fun tw => tw.slots.filter (fun sl => tw.recs[sl].ramp.isSome))
  else tw

/-- A SHEET pulse is eligible for settling: PRINTING and at rest as it is taken (R112). -/
def TowerState.eligible (tw : TowerState) : Bool := tw.service = .printing && tw.atRest

/-- A SHEET pulse for a tower: eligibility is read before the ramp step (R112, R148). -/
def TowerState.sheet (tw : TowerState) : TowerState := tw.rampSheet.settleSheet tw.eligible

/-- A SHEET pulse (R112). -/
def State.sheet (s : State) : State := (s.modTowers TowerState.sheet allTowers).countSheet

/-! ### The receiver -/

/-- The tower that holds an address (R86). -/
def State.towerAt (a : Byte) (s : State) : Option Tower :=
  allTowers.find? (fun t => s.towers[t].configured && s.towers[t].address = some a)

/-- A complete frame with a right check is judged and delivered (R94, R95). -/
def State.deliver (f : LinkFrame) (s : State) : State :=
  match s.towerAt f.address with
  | none => s
  | some t =>
    if f.kind = kindDone then s.takeAnswer t .done f.key f.tag f.position
    else if f.kind = kindStall then s.takeAnswer t .stall f.key f.tag f.position
    else if f.kind = kindReport then s.takeAnswer t .report f.key f.tag f.position
    else if f.kind = kindHello then s.takeHello t
    else s

/-- Set the receiver. -/
def State.setRx (r : RxState) (s : State) : State := { s with link := { s.link with rx := r } }

/-- A byte joins a frame that has begun (R93). -/
def State.assemble (bs : List Byte) (s : State) : State :=
  if bs.length < 8 then s.setRx (.assembling bs)
  else
    match frameOf bs with
    | none => s.setRx .awaitRest
    | some f => (s.setRx .awaitRest).deliver f

/-- One event of the return line (R93). -/
def State.lineEvent (s : State) (e : LineEvent) : State :=
  match e with
  | .rest => s.setRx (.assembling [])
  | .byte v good =>
    match s.link.rx with
    | .awaitRest => s
    | .assembling bs =>
      if good = false then s.setRx .awaitRest
      else if bs = [] ∧ v ≠ Config.startMark then s.setRx .awaitRest
      else s.assemble (bs ++ [v])

/-- A run of the return line. -/
def State.receive (line : List LineEvent) (s : State) : State := line.foldl State.lineEvent s

/-! ### The transmitter's timing -/

/-- The last byte of a frame has gone out (R88). -/
def State.endSending (s : State) : State :=
  match s.link.tx with
  | .sending _ => { s with link := { s.link with tx := .gap } }
  | _ => s

/-- The gap ends: IDLE, then a search (R88, R89). -/
def State.endGap (s : State) : State :=
  match s.link.tx with
  | .gap => ({ s with link := { s.link with tx := .idle } } : State).search
  | _ => s

end Sys2Proof.Machine
end

