-- ==== Sys2Proof/Machine/Loader.lean ====
section
/-! DEFINITION. The configuration loader: the header, the sections and their checks, the checks of the window
entries, the end of a load, RELOAD, the tower reset and the pin reset (11, R3, R23, R38, R39, R58, R81, R107 to
R109, and the chapters' tables of reset values). -/

namespace Sys2Proof.Machine

/-! ### Header and sections -/

/-- The header when it is good (R169). -/
def readHeader (image : List Byte) : Option Header :=
  let n := (imageWord image 1).toNat
  if imageWord image 0 = Config.signature ∧ 1 ≤ n ∧ n ≤ 16 then
    some ⟨n, (List.range n).map (fun i => imageWord image (i + 2))⟩
  else none

/-- A section as judged (R170). -/
inductive Judged where
  | absent
  | bad
  | good (content : List Half)
  deriving DecidableEq, Repr

/-- Content word i of a section. -/
def contentWord (ws : List Half) (i : Nat) : Half := ws.getD i 0

/-- Content word i as a number. -/
def contentNat (ws : List Half) (i : Nat) : Nat := (contentWord ws i).toNat

/-- The sum of the content words mod 65536 (R170). -/
def checkSum (ws : List Half) : Half := ws.foldl (fun a w => a + w) 0

/-- The lengths the section kinds allow (R172 to R175, 12.6); kinds are numbered in the order of R169. -/
def lengthAllowed (kind : Nat) (len : Nat) (ws : List Half) : Bool :=
  if kind = 0 then len = 11
  else if kind = 1 then len ≤ 48 && decide (len % 6 = 0)
  else if kind = 2 then len = 176
  else if kind = 15 then len ≤ 1024 && decide (len % 4 = 0)
  else 8 ≤ contentNat ws 1 && contentNat ws 1 ≤ 48 && len = contentNat ws 1 + 15

/-- The pointer of a section kind; 0 when it lies beyond the section count (R169). -/
def Header.pointer (h : Header) (kind : Nat) : Nat := (h.pointers.getD kind 0).toNat

/-- A section read and judged by its framing, its length and its check word (R170); the content checks of its
kind follow. -/
def readSection (h : Header) (image : List Byte) (kind : Nat) : Judged :=
  let p := h.pointer kind
  let len := (imageWord image p).toNat
  let ws := (List.range len).map (fun i => imageWord image (p + 1 + i))
  if p = 0 then .absent
  else if p < h.count + 2 then .bad
  else if 4095 < p + len + 1 then .bad
  else if lengthAllowed kind len ws = false then .bad
  else if imageWord image (p + len + 1) ≠ checkSum ws then .bad
  else .good ws

/-! ### Content of the sections -/

/-- The GLOBAL section (R172, 12.6). -/
def globalOf (ws : List Half) : Option GlobalCfg :=
  if 1 ≤ contentNat ws 2 ∧ contentNat ws 2 ≤ 64 ∧ contentNat ws 7 ≤ 1 ∧ 2 ≤ contentNat ws 9 ∧ contentNat ws 9 ≤ 60
      ∧ 4 ≤ contentNat ws 10 ∧ contentNat ws 10 ≤ 64 then
    some
      { tableBase := pairAddr (contentWord ws 0) (contentWord ws 1) / 32 * 32
        tableLength := contentNat ws 2
        noticeAddr := wordAddr (pairAddr (contentWord ws 3) (contentWord ws 4))
        noticeDatum := pairValue (contentWord ws 5) (contentWord ws 6)
        mode := if contentNat ws 7 = 0 then .clearOnes else .replace
        enables := (contentWord ws 8).setWidth 14
        timeout := contentNat ws 9
        limit := contentNat ws 10 }
  else none

/-- The kind of a window entry; 6 and 7 are no kinds (12.6). -/
def windowKindOf (n : Nat) : Option WindowKind :=
  match n with
  | 0 => some .coverage
  | 1 => some .measure
  | 2 => some .control
  | 3 => some .live
  | 4 => some .orders
  | 5 => some .guard
  | _ => none

/-- The size a kind forces (R3). -/
def forcedSize : WindowKind → Option Nat
  | .control => some 128
  | .measure => some 2048
  | .live => some 16384
  | _ => none

/-- A power of two from 64 B to 64 MB (R3). -/
def sizeAllowed (n : Nat) : Bool := (List.range 21).any (fun i => n = 2 ^ (i + 6))

/-- The kinds of which the table takes one (R3). -/
def oneOfAKind (k : WindowKind) : Bool := k != .guard

/-- The masks as adjusted: COVERAGE and LIVE refuse every class they do not match (R3). -/
def adjustedRefuse (k : WindowKind) (matched refused : BitVec 4) : BitVec 4 :=
  if k = .coverage ∨ k = .live then ~~~matched else refused

/-- One entry of six words as configured and adjusted, the entries before it as loaded: the entry, and whether it
failed (R3). -/
def checkEntry (before : WindowTable) (ws : List Half) : Option Window × Bool :=
  if (contentWord ws 0).getLsbD 0 = false then (none, false)
  else
    match windowKindOf (contentNat ws 0 / 256 % 8) with
    | none => (none, true)
    | some k =>
      let size := (forcedSize k).getD (pairValue (contentWord ws 3) (contentWord ws 4)).toNat
      if ((forcedSize k).isNone && !sizeAllowed size)
          || (oneOfAKind k && before.any (fun e => e.any (fun w => w.kind = k))) then (none, true)
      else
        let base := pairAddr (contentWord ws 1) (contentWord ws 2)
        let m := (contentWord ws 5).setWidth 4
        (some ⟨k, base / size * size, size, m, adjustedRefuse k m (BitVec.ofNat 4 (contentNat ws 5 / 256))⟩, false)

/-- The entries of a WINDOWS section in ascending index, with whether any failed (R3). -/
def checkEntries : Nat → List Half → WindowTable → Bool → WindowTable × Bool
  | 0, _, t, bad => (t, bad)
  | n + 1, ws, t, bad =>
    checkEntries n (ws.drop 6) (t ++ [(checkEntry t (ws.take 6)).1]) (bad || (checkEntry t (ws.take 6)).2)

/-- Two windows share an address (R23). -/
def Window.overlaps (x y : Window) : Bool := decide (x.base < y.base + y.size) && decide (y.base < x.base + x.size)

/-- A COVERAGE entry whose range another valid entry shares (R23). -/
def clashes (t : WindowTable) (e : Option Window) : Bool :=
  match e with
  | none => false
  | some w =>
    w.kind = .coverage && t.any (fun x => x.any (fun y => y.kind != .coverage && w.overlaps y))

/-- The table after the check of R23, with whether the COVERAGE entry was rejected. -/
def checkCoverage (t : WindowTable) : WindowTable × Bool :=
  (t.map (fun e => if clashes t e then none else e), t.any (clashes t))

/-- The eight entries of a table; those the section does not supply are invalid (R3). -/
def padTable (t : WindowTable) : WindowTable := (t ++ noWindows).take 8

/-- The WINDOWS section as the decoder checks it (R3, R23): the table and whether any entry was rejected. -/
def windowsOf (ws : List Half) : WindowTable × Bool :=
  let a := checkEntries (ws.length / 6) ws [] false
  let b := checkCoverage (padTable a.1)
  (b.1, a.2 || b.2)

/-- Curve c of a CURVES section (12.6). -/
def curveOf (ws : List Half) (c : Nat) : Curve := (List.range 11).map (fun i => contentNat ws (11 * c + i))

/-- The CURVES section: each valid curve as given, each other linear, and whether any was not valid (R40, R173). -/
def curvesOf (ws : List Half) : List Curve × Bool :=
  ((List.range 16).map (fun c => if curveValid (curveOf ws c) then curveOf ws c else linearCurve),
    (List.range 16).any (fun c => !curveValid (curveOf ws c)))

/-- Strictly ascending (R174). -/
def ascending : List Nat → Bool
  | x :: y :: l => decide (x < y) && ascending (y :: l)
  | _ => true

/-- A configuration value in its range. -/
def inRange (lo hi x : Nat) : Bool := lo ≤ x && decide (x ≤ hi)

/-- The TOWER section (R142, R174, 12.6); `taken` says which addresses other towers hold. -/
def towerOf (taken : Byte → Bool) (ws : List Half) : Option TowerCfg :=
  let k := contentNat ws 1
  let w := contentNat ws 2
  let bounds := (List.range (k + 1)).map (fun i => contentNat ws (3 + i))
  let f := fun i => contentNat ws (k + i)
  if inRange 1 15 (contentNat ws 0) && !taken (BitVec.ofNat 8 (contentNat ws 0))
      && inRange 8 48 k && inRange 64 8192 w && decide (w % 4 = 0)
      && ascending bounds && decide (contentNat ws (3 + k) < w) && inRange 100 1000 (f 4)
      && decide (f 5 ≤ 15) && decide (f 6 ≤ 1) && decide (f 7 ≤ 15)
      && decide (f 8 ≤ 4000) && inRange 1 2000 (f 9) && decide (f 10 ≤ 1000) && inRange 1 50 (f 11)
      && inRange 1 200 (f 12) && inRange 10 500 (f 13) && decide (f 14 ≤ 1000) then
    some
      { address := BitVec.ofNat 8 (contentNat ws 0)
        geometry := ⟨w, k, bounds⟩
        key := ⟨k, f 4, Fin.ofNat 16 (f 5), decide (f 6 = 1), Fin.ofNat 16 (f 7)⟩
        loop := ⟨f 8, f 9, f 10, f 11, f 12, f 13, f 14⟩ }
  else none

/-- The PRELOAD section's pairs (R175, 12.6). -/
def preloadOf (ws : List Half) : List (Nat × Word) :=
  (List.range (ws.length / 4)).map (fun i =>
    (wordAddr (pairAddr (contentWord ws (4 * i)) (contentWord ws (4 * i + 1))),
      pairValue (contentWord ws (4 * i + 2)) (contentWord ws (4 * i + 3))))

/-! ### The end of a load -/

/-- The coverage range of a window table (R21). -/
def rangeOf : WindowTable → Option CoverRange
  | [] => none
  | none :: ws => rangeOf ws
  | some w :: ws => if w.kind = .coverage then some ⟨w.base, w.size⟩ else rangeOf ws

/-- Every fold in flight becomes void: its bank becomes STALE (R29, R39). -/
def Coverage.dropBanks (c : Coverage) : Coverage :=
  { c.voidFold (fun _ => true) false with banks := ⟨Bank.stale, Bank.stale⟩, active := .a, cursor := none }

/-- Install a tower's geometry record; both frames become UNFIT when it has changed (R36). -/
def Coverage.setGeometry (t : Tower) (g : Option Geometry) (c : Coverage) : Coverage :=
  { (if c.geometry[t] = g then c else c.unfitTower t) with geometry := c.geometry.set t g }

/-- The geometry records of staged towers. -/
def stagedGeometry (ts : Vector (Option TowerCfg) 12) (t : Tower) : Option Geometry := ts[t].map TowerCfg.geometry

/-- The coverage unit at the end of a load with a range, if any, and geometry records (R21, R22, R39): the banks
are kept when the kept range is the same. -/
def Coverage.endLoad (r : Option CoverRange) (g : Tower → Option Geometry) (c : Coverage) : Coverage :=
  if r.isSome = true ∧ c.range = r then allTowers.foldl (fun c t => c.setGeometry t (g t)) c
  else { c.dropBanks with range := r, geometry := vecOf g }

/-- A tower at the end of a load that ends RUNNING (R113, R176). -/
def TowerState.install (c : Option TowerCfg) (tw : TowerState) : TowerState :=
  match c with
  | none => tw
  | some x =>
    { tw with
      service := .parked
      parkHold := true
      cfg := some x.key
      settings := some x.loop
      address := some x.address
      haltPending := true
      queryPending := true }

/-- The words the part owns, 0 to 14 and 16 to 27, as a mirror set (R168). -/
def ownedWords : BitVec 32 := 0x0FFF7FFF#32

/-- The control unit's settings from GLOBAL (R168, R176). -/
def Control.takeGlobal (g : GlobalCfg) (c : Control) : Control :=
  { c with enables := g.enables, mode := g.mode, noticeAddr := g.noticeAddr, noticeDatum := g.noticeDatum }.relevel

/-- The load ends: the loader is IDLE and its staged configuration gone. -/
def State.dropStaged (s : State) : State := { s with loader := ⟨.idle, none, Staged.empty, s.loader.spi⟩ }

/-- The load ends PASS_ONLY: CONFIG_FAULT, the mirror set empty, and of the staged configuration GLOBAL's control
settings and L alone (R39, R168, R171, R176). -/
def State.failLoad (s : State) : State :=
  let s1 := s.raise .configFault
  let c : Control := { s1.control with part := .passOnly, mirror := 0, pointer := 31 }
  ({ s1 with
      windows := noWindows
      coverage := s1.coverage.endLoad none (fun _ => none)
      port := { s1.port with limit := (s1.loader.staged.globals.map GlobalCfg.limit).getD Config.loadingLimit }
      control :=
        match s1.loader.staged.globals with
        | none => c
        | some g => c.takeGlobal g } : State).dropStaged

/-- The load ends RUNNING: the staged configuration takes effect in every block (R176). -/
def State.runLoad (g : GlobalCfg) (s : State) : State :=
  let st := s.loader.staged
  ({ s with
      windows := st.windows
      coverage := s.coverage.endLoad (rangeOf st.windows) (stagedGeometry st.towers)
      curves := st.curves
      towers := vecOf (fun t => s.towers[t].install st.towers[t])
      timeout := g.timeout
      port := { s.port with limit := g.limit }
      engine := { s.engine with table := some ⟨g.tableBase, g.tableLength⟩ }
      control := { s.control.takeGlobal g with part := .running, mirror := ownedWords, pointer := 31 } } :
    State).dropStaged

/-- A load that has passed every section ends RUNNING (R176); GLOBAL stands staged from its own judgement on
(R171). -/
def State.endLoad (s : State) : State :=
  match s.loader.staged.globals with
  | none => s.failLoad
  | some g => s.runLoad g

/-! ### The steps of a load -/

/-- Set the loader's state. -/
def State.setLoader (x : LoaderState) (s : State) : State := { s with loader := { s.loader with state := x } }

/-- Change what is staged. -/
def State.stage (f : Staged → Staged) (s : State) : State :=
  { s with loader := { s.loader with staged := f s.loader.staged } }

/-- The loader drives the port of the configuration memory (R169). -/
def State.drive (xs : List SpiStep) (s : State) : State :=
  { s with loader := { s.loader with spi := s.loader.spi.drive xs } }

/-- The end of the header's read: the signature, the count and the pointers of a good header have been clocked in,
the signature and the count of any other (R169; log 31). -/
def headerSteps (image : List Byte) : List SpiStep :=
  spiClose (match readHeader image with
    | none => 2
    | some h => h.count + 2)

/-- The end of a section's read, one run from its length word to its check word; an absent section is not read
(R170; log 31). -/
def sectionSteps (h : Header) (image : List Byte) (kind : Nat) : List SpiStep :=
  if h.pointer kind = 0 then [] else spiClose ((imageWord image (h.pointer kind)).toNat + 2)

/-- The read of the section the loader stands at begins (R169, R171). -/
def Loader.openSteps (l : Loader) : List SpiStep :=
  match l.state, l.header with
  | .reading n, some h => if h.pointer n.val = 0 then [] else spiOpen (h.pointer n.val)
  | _, _ => []

/-- A read ends, and that of the next section begins (R169, R171). -/
def State.readOn (xs : List SpiStep) (s : State) : State := s.drive (xs ++ s.loader.openSteps)

/-- The header is judged (R169, R171). -/
def State.judgeHeader (image : List Byte) (s : State) : State :=
  match readHeader image with
  | none => s.failLoad
  | some h => { s with loader := { s.loader with state := .reading 0, header := some h } }

/-- GLOBAL is judged (R171, R172). -/
def State.judgeGlobal (j : Judged) (s : State) : State :=
  match j with
  | .good ws =>
    match globalOf ws with
    | none => s.failLoad
    | some g => (s.stage (fun x => { x with globals := some g })).setLoader (.reading 1)
  | _ => s.failLoad

/-- WINDOWS is judged (R3, R23, R171, R173). -/
def State.judgeWindows (j : Judged) (s : State) : State :=
  match j with
  | .good ws =>
    let s1 := (s.stage (fun x => { x with windows := (windowsOf ws).1 })).raiseIf (windowsOf ws).2 .configFault
    if (windowBase .control (windowsOf ws).1).isSome then s1.setLoader (.reading 2) else s1.failLoad
  | _ => s.failLoad

/-- CURVES is judged (R40, R173). -/
def State.judgeCurves (j : Judged) (s : State) : State :=
  (match j with
    | .good ws =>
      (s.stage (fun x => { x with curves := (curvesOf ws).1 })).raiseIf (curvesOf ws).2 .configFault
    | .bad => s.raise .configFault
    | .absent => s).setLoader (.reading 3)

/-- An address held by a tower staged in this load (R86, R174). -/
def Staged.holds (x : Staged) (a : Byte) : Bool := allTowers.any (fun t => x.towers[t].any (fun c => c.address = a))

/-- TOWER t is judged (R174). -/
def State.judgeTower (t : Tower) (next : Fin 16) (j : Judged) (s : State) : State :=
  (match j with
    | .good ws =>
      match towerOf s.loader.staged.holds ws with
      | none => s.raise .configFault
      | some c => s.stage (fun x => { x with towers := x.towers.set t (some c) })
    | .bad => s.raise .configFault
    | .absent => s).setLoader (.reading next)

/-- PRELOAD is judged: its pairs are written, or the load ends (R175, R176). -/
def State.judgePreload (j : Judged) (s : State) : State :=
  match j with
  | .good ws =>
    if preloadOf ws = [] then s.endLoad
    else (s.stage (fun x => { x with preload := preloadOf ws })).setLoader (.preloading 0)
  | .bad => (s.raise .configFault).endLoad
  | .absent => s.endLoad

/-- The section of a number is judged (R171). -/
def State.judgeKind (n : Fin 16) (j : Judged) (s : State) : State :=
  if n = 0 then s.judgeGlobal j
  else if n = 1 then s.judgeWindows j
  else if n = 2 then s.judgeCurves j
  else
    match frameTower (n.val - 3) with
    | none => s.judgePreload j
    | some t => s.judgeTower t (n + 1) j

/-- The section the loader stands at is judged, and the next is begun (R170, R171). -/
def State.judgeSection (image : List Byte) (s : State) : State :=
  match s.loader.state, s.loader.header with
  | .reading n, some h => (s.judgeKind n (readSection h image n.val)).readOn (sectionSteps h image n.val)
  | _, _ => s

/-- A PRELOAD write is delivered: the cursor moves on, and after the last pair the load ends (R175). -/
def State.preloadWritten (s : State) : State :=
  match s.loader.state with
  | .preloading n =>
    if n + 1 < s.loader.staged.preload.length then s.setLoader (.preloading (n + 1)) else s.endLoad
  | _ => s

/-! ### The tower reset -/

/-- A record at a tower reset whose section is good (R58, R81): a slot present before and after keeps base, trim
and hold, its ramp frozen; any other takes the reset values. -/
def resetRec (kept : Bool) (r : KeyRec) : KeyRec :=
  if kept then { withdrawRec true (freezeRamp r) with correction := 0, target := 0, fault := none, timer := none }
  else KeyRec.reset

/-- A tower at a tower reset whose section is good (R108). -/
def TowerState.resetGood (c : TowerCfg) (tw : TowerState) : TowerState :=
  ({ TowerState.reset with
      tagCounter := tw.tagCounter
      recs := vecOf (fun sl =>
        resetRec (tw.present sl && (TowerState.reset.install (some c)).present sl) tw.recs[sl]) } :
    TowerState).install (some c)

/-- A tower at a tower reset whose section failed (R109): every reset value but the tag counter. -/
def TowerState.resetBad (tw : TowerState) : TowerState := { TowerState.reset with tagCounter := tw.tagCounter }

/-- An address held by another configured tower (R86, R178). -/
def State.holdsAddress (except : Tower) (s : State) (a : Byte) : Bool :=
  allTowers.any (fun t => t != except && s.towers[t].configured && s.towers[t].address = some a)

/-- The section of tower t read again (R178): its configuration when header and section are good. -/
def State.reread (t : Tower) (image : List Byte) (s : State) : Option TowerCfg :=
  match readHeader image with
  | none => none
  | some h =>
    match readSection h image (3 + t.val) with
    | .good ws => towerOf (s.holdsAddress t) ws
    | _ => none

/-- The tower reset takes effect in every block (R108, R109, R156). -/
def State.resetTower (t : Tower) (c : Option TowerCfg) (s : State) : State :=
  let tw := s.towers[t]
  let new := match c with
    | none => tw.resetBad
    | some x => tw.resetGood x
  (({ s.putTower t new with
      coverage := s.coverage.setGeometry t (c.map TowerCfg.geometry)
      loop := if c.isSome then s.loop.markReset t else s.loop } : State).raiseIf
    c.isNone .configFault).report (wordTower t)

/-- The reads of a section reload: the header, then the section when the header is good and points to it (R178). -/
def reloadSteps (image : List Byte) (t : Tower) : List SpiStep :=
  headerSteps image ++
    match readHeader image with
    | none => []
    | some h =>
      if h.pointer (3 + t.val) = 0 then []
      else spiOpen (h.pointer (3 + t.val)) ++ sectionSteps h image (3 + t.val)

/-- The section reload completes (R178). -/
def State.sectionReloaded (image : List Byte) (s : State) : State :=
  match s.loader.state with
  | .section_ t => (((s.setLoader .idle).drive (reloadSteps image t)).resetTower t (s.reread t image))
  | _ => s

/-! ### RELOAD and pin reset -/

/-- A commit in progress is no commit any more: its slot is FREE by the RELOAD (R145, R155). -/
def Purpose.forgetCommit : Purpose → Purpose
  | .commit _ => .measure
  | p => p

/-- A press-bus access in progress over a RELOAD: a coverage write that waits for the latch is overtaken (R39). -/
def BusAccess.overReload (x : BusAccess) : BusAccess :=
  match x.stage with
  | .waitLatch => ⟨x.access, .overtaken⟩
  | .overtaken => x
  | .claim p => ⟨x.access, .claim p.forgetCommit⟩
  | .granted p => ⟨x.access, .granted p.forgetCommit⟩

/-- A request that holds the port is discarded; a pass-through access stays (R19, R20). -/
def PortHolder.discard : PortHolder → PortHolder
  | .internal r ws _ => .internal r ws true
  | h => h

/-- A CLEARING bank becomes STALE (R35, R39). -/
def Bank.stopClear (x : Bank) : Bank := if x.state = .clearing then { x with state := .stale } else x

/-- The coverage unit when a RELOAD starts (R39). -/
def Coverage.startReload (c : Coverage) : Coverage :=
  { c.voidFold (fun f => c.clearing f.bank) false with banks := c.banks.map Bank.stopClear, cursor := none }

/-- A RELOAD starts (R159, R177): every block takes its RELOAD values. Job memory, responses, the taken levels,
the frame on the line, the receiver, the pass-through pointer and the granted access stay. -/
def State.startReload (s : State) : State :=
  { s with
    bus := s.bus.map (Option.map BusAccess.overReload)
    windows := noWindows
    port := ⟨s.port.holder.map PortHolder.discard, s.port.pointer, [], 0, Config.loadingLimit⟩
    coverage := s.coverage.startReload
    curves := linearCurves
    towers := Vector.replicate 12 TowerState.reset
    timeout := Config.loadingTimeout
    link := { s.link with pointer := 11 }
    engine := Engine.reset
    loop := LoopUnit.reset
    control := Control.reset
    loader := Loader.reset }

/-- Write a word that a request held the port for, if it landed (log 13). -/
def landWord (m : List Host.Cell) (p : PortWord × Bool) : List Host.Cell :=
  Memory.answer m p.1 (.error p.2)

/-- Job memory over a pin reset: the words of an internal request that holds the port may have been written, as
the operand says (log 13). -/
def memOverReset (m : List Host.Cell) (h : Option PortHolder) (l : BitVec 2) : List Host.Cell :=
  match h with
  | some (.internal _ ws _) => (ws.zip [l.getLsbD 0, l.getLsbD 1]).foldl landWord m
  | _ => m

/-- What holds the port over a pin reset: a granted pass-through access completes at memory (R20). -/
def holderOverReset : Option PortHolder → Option PortHolder
  | some (.passThrough _ w) => some (.orphan w)
  | some (.orphan w) => some (.orphan w)
  | _ => none

/-- The last response of a class over a pin reset: a bus error when an access was in progress (R20). -/
def responseOverReset (b : Option BusAccess) (r : Option Response) : Option Response :=
  match b with
  | none => r
  | some _ => some .busError

/-- A pin reset (R20, R38, R57, R80, R97, R113, R130, R141, R155, R168, R178). -/
def State.pinReset (l : BitVec 2) (s : State) : State :=
  { State.reset with
    pending := s.pending
    mem := memOverReset s.mem s.port.holder l
    lastResponse :=
      ⟨responseOverReset s.bus.console s.lastResponse.console,
        responseOverReset s.bus.prepress s.lastResponse.prepress,
        responseOverReset s.bus.scanbar s.lastResponse.scanbar,
        responseOverReset s.bus.service s.lastResponse.service⟩
    port := { MemPort.reset with holder := holderOverReset s.port.holder } }

end Sys2Proof.Machine
end

