-- ==== Sys2Proof/Machine/Commands.lean ====
section
/-! DEFINITION. Commands written to control words: routing to the owner, the effect and the result code (R11,
R34, R100, R131, R133, R137, R138, R153, R157 to R159, R164, R165, R167; codes in 12.2). -/

namespace Sys2Proof.Machine

/-- The code of a written command (12.2). -/
def codeOf (d : Word) : Nat := fieldOf d 0 8

/-- Byte 1 of a written command: an order index (12.2). -/
def indexOf (d : Word) : Byte := byteOf d 1

/-- The bank selector of a written command (12.2). -/
def bankOf (d : Word) : BankId := if d.getLsbD 8 then .b else .a

/-- START word (R131). -/
def State.startWord (d : Word) (s : State) : Result × State :=
  if codeOf d = 1 then s.start (indexOf d) else (.badCode, s)

/-- STOP word (R137, R138). -/
def State.stopWord (d : Word) (s : State) : Result × State :=
  if codeOf d = 1 then s.stop (indexOf d) else if codeOf d = 2 then s.stopAll else (.badCode, s)

/-- BANK word (R34). -/
def State.bankWord (d : Word) (s : State) : Result × State :=
  if codeOf d = 1 then s.bankCommand (.clear (bankOf d))
  else if codeOf d = 2 then s.bankCommand (.lock (bankOf d))
  else if codeOf d = 3 then s.bankCommand (.unlock (bankOf d))
  else if codeOf d = 4 then s.bankCommand .swap
  else (.badCode, s)

/-- A BIND word (R133). -/
def State.bindWord (k : Source) (d : Word) (s : State) : Result × State :=
  if codeOf d = 1 then s.armBinding k (indexOf d) (byteOf d 2)
  else if codeOf d = 2 then s.disarmBinding k
  else (.badCode, s)

/-- RELOAD word (R159). -/
def State.reloadWord (d : Word) (s : State) : Result × State :=
  if codeOf d = 1 then (.accepted, s.startReload) else (.badCode, s)

/-- RESET of a tower: the loader begins the read of the header (R107, R178). -/
def State.resetCommand (t : Tower) (s : State) : Result × State :=
  match s.loader.state with
  | .section_ _ => (.refusedBusy, s)
  | _ => (.accepted, (s.setLoader (.section_ t)).drive (spiOpen 0))

/-- A command that a tower takes by itself. -/
def State.towerCommand (t : Tower) (f : TowerState → Result × TowerState) (s : State) : Result × State :=
  ((f s.towers[t]).1, s.modTower t (fun tw => (f tw).2))

/-- TOWER t word (R100). -/
def State.towerWord (t : Tower) (d : Word) (s : State) : Result × State :=
  if codeOf d = 1 then s.towerCommand t (TowerState.takeWake s.levels.impr)
  else if codeOf d = 2 then s.towerCommand t TowerState.takePark
  else if codeOf d = 3 then s.resetCommand t
  else if codeOf d = 4 then s.towerCommand t (TowerState.routed TowerState.loopOn)
  else if codeOf d = 5 then s.towerCommand t (TowerState.routed TowerState.loopOff)
  else if codeOf d = 6 then s.towerCommand t (TowerState.routed TowerState.takeClearFaults)
  else (.badCode, s)

/-- REFUSAL word: any value clears the capture (R167). -/
def State.clearCapture (s : State) : State := { s with control := { s.control with capture := Capture.empty } }

/-- The command a full-word write to an owned control word carries: its result and its effect (R157). -/
def State.command (w : CtlWord) (d : Word) (s : State) : Result × State :=
  match wordTowerOf w, bindSource w with
  | some t, _ => s.towerWord t d
  | none, some k => s.bindWord k d
  | none, none =>
    if w = wordStart then s.startWord d
    else if w = wordStop then s.stopWord d
    else if w = wordEvent then (.accepted, { s with control := s.control.writeEvent (d.setWidth 14) })
    else if w = 3 then (.accepted, { s with control := s.control.writeEnable (d.setWidth 14) })
    else if w = wordBank then s.bankWord d
    else if w = wordRefusal then (.accepted, s.clearCapture)
    else if w = wordMeasure then (.accepted, s.clearMeasure)
    else if w = wordReload then s.reloadWord d
    else (.accepted, s)

/-- The command's own word keeps its place in or out of the mirror set: the answer is about to show the change
(R160; log 10). A RELOAD has emptied the set. -/
def Control.keepOwn (w : CtlWord) (old new : Control) : Control :=
  if new.part = .running ∧ old.mirror.getLsbD w.val = false then new.unmirror w else new

/-- The last result of a word, and for START and STOP the written index (R140, R157). DESIGN CHOICE (log 35): a STOP ALL
carries no index, and the index kept for the STOP word is then byte 1 of the written word; no word shows it. -/
def State.setResult (w : CtlWord) (r : Result) (d : Word) (s : State) : State :=
  { s with
    control := if carriesResult w then s.control.setLast w r else s.control
    engine :=
      if w = wordStart then { s.engine with startIndex := indexOf d }
      else if w = wordStop then { s.engine with stopIndex := indexOf d }
      else s.engine }

/-- A command is taken on arrival, and its answer write claims the port (R11). -/
def State.takeCommand (a : Access) (w : CtlWord) (s : State) : State :=
  let p := s.command w a.data
  (({ p.2 with control := Control.keepOwn w s.control p.2.control } : State).setResult w p.1 a.data).claim a
    (.answer w p.1 (indexOf a.data))

end Sys2Proof.Machine
end

