-- ==== Sys2Proof/Machine/Decoder.lean ====
section
/-! DEFINITION. The window decoder and the handling of an access on its arrival: refusals, misfits, LIVE reads
and trims, the take of a coverage write, MEASURE writes, commands (R5 to R14, R25, R26, R144, R145). -/

namespace Sys2Proof.Machine

/-- An entry contains an address (R5). -/
def Window.covers (w : Window) (a : Nat) : Bool := w.base ≤ a && decide (a < w.base + w.size)

/-- The lowest-index valid entry that contains an address (R5). -/
def findWindow (a : Nat) : WindowTable → Option Window
  | [] => none
  | none :: ws => findWindow a ws
  | some w :: ws => if w.covers a then some w else findWindow a ws

/-- The window of an access: none while the part is not RUNNING (R4, R5). -/
def State.windowOf (s : State) (a : Access) : Option Window :=
  if s.control.part = .running then findWindow a.addr.toNat s.windows else none

/-! ### Folds: the take -/

/-- The coverage write is folded as this, when no check of R26 refuses it: what the unit fixes at the take
(R25). DESIGN CHOICE (log 29): a write whose word lies outside the coverage range, or that meets no range, is refused,
which R26 does not list. -/
def State.foldOf (s : State) (a : Access) : Option Fold :=
  match s.coverage.range with
  | none => none
  | some r =>
    let p := r.place (Access.word a)
    match frameTower p.frame with
    | none => none
    | some t =>
      match s.coverage.geometry[t] with
      | none => none
      | some g =>
        if s.control.part = .running ∧ r.covers (Access.word a) = true
            ∧ (s.coverage.banks.get p.bank).state = .opened ∧ (s.coverage.frame p.bank t).fit = true
            ∧ p.offset < g.imageLen r.frameSize then
          some
            { cls := a.cls
              bank := p.bank
              tower := t
              addr := Access.word a
              offset := p.offset
              row := p.offset / g.w
              column := p.offset % g.w
              owners := (List.range 4).map (fun c => g.owner (p.offset % g.w + c))
              new := a.data
              old := none
              void := false
              cleared := false }
        else none

/-- Set the fold latch. -/
def State.setLatch (f : Option Fold) (s : State) : State := { s with coverage := { s.coverage with latch := f } }

/-- A coverage write is refused when it is taken (R26). -/
def State.refuseFold (a : Access) (s : State) : State := (s.raise .bankRefused).refuse a

/-- A coverage write is taken: refused with BANK_REFUSED, or put into the latch with its old-word read claimed
(R25, R26, R27). -/
def State.takeFold (a : Access) (s : State) : State :=
  match s.foldOf a with
  | none => s.refuseFold a
  | some f => (s.setLatch (some f)).claim a .foldRead

/-- A coverage write that has waited is taken; one that a RELOAD has overtaken is refused, whatever the part state is by
then (R26, R39). -/
def State.takeWaiter (x : BusAccess) (s : State) : State :=
  if x.stage = .overtaken then s.refuseFold x.access else s.takeFold x.access

/-- Set the list of waiting coverage writes. -/
def State.setWaiting (ws : List MasterClass) (s : State) : State :=
  { s with coverage := { s.coverage with waiting := ws } }

/-- The waiting writes are taken, first come first, until one stays in the latch (R25, R26, R39). -/
def State.takeWaiting : List MasterClass → State → State
  | [], s => s.setWaiting []
  | c :: cs, s =>
    match s.bus.get c with
    | none => State.takeWaiting cs s
    | some x =>
      if (s.takeWaiter x).coverage.latch.isSome then (s.takeWaiter x).setWaiting cs
      else State.takeWaiting cs (s.takeWaiter x)

/-- The latch empties, and the write that has waited longest is taken (R25; log 8). -/
def State.emptyLatch (s : State) : State :=
  let s1 := s.setLatch none
  State.takeWaiting s1.coverage.waiting s1

/-- A matched full-word coverage write arrives: taken when the latch is empty, waiting otherwise (R25). -/
def State.coverageWrite (a : Access) (s : State) : State :=
  if s.coverage.latch.isSome then (s.setStage a .waitLatch).setWaiting (s.coverage.waiting ++ [a.cls])
  else s.takeFold a

/-! ### MEASURE writes -/

/-- The slot a MEASURE address lies in (9.1). -/
def measureSlot (base a : Nat) : Fin 16 := Fin.ofNat 16 ((a - base) / 128)

/-- The write lies on the slot's commit word (9.1). -/
def onCommitWord (base a : Nat) : Bool := (a - base) % 128 / 4 = 31

/-- A matched full-word MEASURE write (R144, R145). -/
def State.measureWrite (base : Nat) (a : Access) (s : State) : State :=
  let i := measureSlot base a.addr.toNat
  if s.loop.slots[i] = .busy then (s.dropRecord .busy i none).refuse a
  else if onCommitWord base a.addr.toNat = true ∧ a.data ≠ 0 then (s.setSlot i .busy).claim a (.commit i)
  else s.claim a .measure

/-! ### LIVE accesses -/

/-- A LIVE read (R13). -/
def State.readLive (w : Window) (a : Access) (s : State) : State :=
  s.respond a.cls
    (readResponse a.enables (if inMask w.matchMask a.cls then s.liveWord (Access.word a - w.base) else 0))

/-- The tower and slot whose trim word stands at a LIVE offset, when the slot is present (R14). -/
def State.trimTarget (s : State) (offset : Nat) : Option (Tower × Slot) :=
  match areaTower offset, trimSlot (offset % 1024) with
  | some t, some sl => if s.towers[t].present sl then some (t, sl) else none
  | _, _ => none

/-- A misfit (R7, R14). -/
def State.misfit (a : Access) (s : State) : State := (s.raise .windowMisfit).refuse a

/-- A matched full-word LIVE write: a trim write, or a misfit (R14, R48). -/
def State.writeLive (w : Window) (a : Access) (s : State) : State :=
  match s.trimTarget (Access.word a - w.base) with
  | none => s.misfit a
  | some (t, sl) =>
    (s.modTower t (TowerState.revalueEvent (fun _ => setTrim (halfOf a.data 0).toInt) (fun _ => [sl]))).respond
      a.cls .ok

/-! ### The decision -/

/-- A matched full-word write (R8). -/
def State.handOver (w : Window) (a : Access) (s : State) : State :=
  match w.kind with
  | .coverage => s.coverageWrite a
  | .measure => s.measureWrite w.base a
  | .control =>
    let i : CtlWord := Fin.ofNat 32 ((a.addr.toNat - w.base) / 4)
    if ownedWord i then s.takeCommand a i else s.claim a .plain
  | .live => s.writeLive w a
  | .orders => s.claim a .plain
  | .guard => s.claim a .plain

/-- The kinds whose matched writes are checked for shape (R7). -/
def checksShape : WindowKind → Bool
  | .coverage => true
  | .measure => true
  | .control => true
  | .live => true
  | _ => false

/-- An access in a window is decided (R6, R7, R8, R13). A LIVE write of a class in neither mask cannot occur
with the masks of R3; no LIVE access reaches memory, so it is refused (log 25). -/
def State.decideAccess (w : Window) (a : Access) (s : State) : State :=
  match a.dir with
  | .read => if w.kind = .live then s.readLive w a else s.claim a .plain
  | .write =>
    if inMask w.refuseMask a.cls then (s.raise .protectHit).refuse a
    else if inMask w.matchMask a.cls = true ∧ checksShape w.kind = true then
      if Access.full a then s.handOver w a else s.misfit a
    else if w.kind = .live then s.refuse a
    else s.claim a .plain

/-- An access arrives at the press-bus port (R1, R5, R9). A class presents nothing while its last access is in
progress (R1; log 1). -/
def State.arrive (a : Access) (s : State) : State :=
  if (s.bus.get a.cls).isSome then s
  else
    match s.windowOf a with
    | none => s.claim a .plain
    | some w => s.decideAccess w a

end Sys2Proof.Machine
end

