-- ==== Sys2Proof/Machine/Port.lean ====
section
/-! DEFINITION. The memory port: the arbiter's grants, memory's answers to pass-through accesses, and the
completions of internal requests (R2, R9 to R11, R15 to R19, R27, R28, R35, R37, R145, R161, R162, R166). -/

namespace Sys2Proof.Machine

/-! ### Grants -/

/-- The pass-through access a class has waiting (R15). -/
def State.waitingAccess (s : State) (c : MasterClass) : Option (Access × Purpose) :=
  match s.bus.get c with
  | some ⟨a, .claim p⟩ => some (a, p)
  | _ => none

/-- The classes in the order the arbiter looks at them: after the class last granted, that class last (R15). -/
def grantOrder (c : MasterClass) : List MasterClass :=
  [nextClass c, nextClass (nextClass c), nextClass (nextClass (nextClass c)), c]

/-- The class the pass-through side would be granted for (R15). -/
def State.nextPass (s : State) : Option MasterClass :=
  (grantOrder s.port.pointer).find? (fun c => (s.waitingAccess c).isSome)

/-- What a pass-through access puts on the memory port: the address of its press-bus access, as presented, with the
direction, the enables and the data its purpose gives it (R2, R9, R11, R27, R28). -/
def State.passWord (s : State) (a : Access) (p : Purpose) : PortWord :=
  match p with
  | .plain => ⟨a.addr.toNat, a.dir, a.enables, match a.dir with
      | .read => 0
      | .write => a.data⟩
  | .foldRead => ⟨a.addr.toNat, .read, fullEnables, 0⟩
  | .foldWrite => ⟨a.addr.toNat, .write, fullEnables, a.data⟩
  | .measure => ⟨a.addr.toNat, .write, fullEnables, a.data⟩
  | .commit _ => ⟨a.addr.toNat, .write, fullEnables, a.data⟩
  | .answer w r i => ⟨a.addr.toNat, .write, fullEnables, s.wordDatum w r i⟩

/-- A request is the mirror write of a word. -/
def IReq.isMirror (w : CtlWord) : IReq → Bool
  | .mirrorWrite v _ => v = w
  | _ => false

/-- A mirror write of a word, offered and not yet granted, is withdrawn: it leaves the queue and frees the
channel; when it was the head the pass-over count returns to 0 (R16, R18, R162). -/
def State.withdrawMirror (w : CtlWord) (s : State) : State :=
  if s.port.queue.any (IReq.isMirror w) then
    { s with
      port :=
        { s.port with
          queue := s.port.queue.filter (fun r => !r.isMirror w)
          passOver := if s.port.queue.head?.any (IReq.isMirror w) then 0 else s.port.passOver }
      control := { s.control with channel := none } }
  else s

/-- The grant of an answer write supersedes the word's mirror write (R162). -/
def State.supersede (p : Purpose) (s : State) : State :=
  match p with
  | .answer w _ _ => ({ s with control := s.control.unmirror w } : State).withdrawMirror w
  | _ => s

/-- The grant of a plain write is seen by the outside-write watch (R37; log 11). -/
def State.watchPass (p : Purpose) (w : PortWord) (s : State) : State := if p = .plain then s.watch w else s

/-- A pass-through access is granted (R15, R16). -/
def State.grantPass (c : MasterClass) (a : Access) (p : Purpose) (s : State) : State :=
  let w := s.passWord a p
  ((({ s with
      bus := s.bus.put c (some ⟨a, .granted p⟩)
      port :=
        { s.port with
          holder := some (.passThrough c w)
          pointer := c
          passOver := if s.port.queue = [] then s.port.passOver else s.port.passOver + 1 } } :
    State).supersede p).watchPass p w)

/-- The words of an internal request, in ascending address (R2, 12.3). -/
def State.reqWords (s : State) : IReq → List PortWord
  | .clearWrite a => [⟨a, .write, fullEnables, 0⟩]
  | .orderRead a => (List.range 8).map (fun i => ⟨wrapAddr (a + 4 * i), .read, fullEnables, 0⟩)
  | .orderWrite a runsLeft status =>
    [⟨wrapAddr (a + 24), .write, 0b1100#4, runsLeft ++ (0 : Half)⟩, ⟨wrapAddr (a + 28), .write, fullEnables, status⟩]
  | .slotRead _ a => (List.range 31).map (fun i => ⟨a + 4 * i, .read, fullEnables, 0⟩)
  | .mirrorWrite w a => [⟨a, .write, fullEnables, s.mirrorDatum w⟩]
  | .noticeWrite a d => [⟨a, .write, fullEnables, d⟩]
  | .preloadWrite a v => [⟨a, .write, fullEnables, v⟩]

/-- Whether the outside-write watch sees a request's words (R37). -/
def IReq.watched : IReq → Bool
  | .orderWrite _ _ _ => true
  | .noticeWrite _ _ => true
  | .preloadWrite _ _ => true
  | _ => false

/-- What the grant of a request changes in the control unit (R161, R166). -/
def Control.onGrant (r : IReq) (c : Control) : Control :=
  match r with
  | .mirrorWrite w _ => c.unmirror w
  | .noticeWrite _ _ => { c with noticePending := false }
  | _ => c

/-- The watch over the words of a request. -/
def State.watchAll (r : IReq) (ws : List PortWord) (s : State) : State :=
  if r.watched then ws.foldl State.watch s else s

/-- The head of the internal request queue is granted (R16, R18). -/
def State.grantHead (r : IReq) (rest : List IReq) (s : State) : State :=
  let ws := s.reqWords r
  ({ s with
      port := { s.port with holder := some (.internal r ws false), queue := rest, passOver := 0 }
      control := s.control.onGrant r } : State).watchAll r ws

/-- Grant the pass-through side for a class. -/
def State.grantClass (c : MasterClass) (s : State) : State :=
  match s.waitingAccess c with
  | none => s
  | some (a, p) => s.grantPass c a p

/-- The arbiter grants a free port: the pass-through side, unless the head's pass-over count has reached L
(R16; log 15). -/
def State.grant (s : State) : State :=
  if s.port.holder.isSome then s
  else
    match s.nextPass, s.port.queue with
    | none, [] => s
    | none, r :: rest => s.grantHead r rest
    | some c, [] => s.grantClass c
    | some c, r :: rest => if s.port.limit ≤ s.port.passOver then s.grantHead r rest else s.grantClass c

/-! ### Answers to pass-through accesses -/

/-- The answer is OK. -/
def answeredOk : MemAnswer → Bool
  | .ok => true
  | .error _ => false

/-- The response returned to the master unchanged (R9). -/
def plainResponse (a : Access) (d : Word) (ok : Bool) : Response :=
  if ok then
    match a.dir with
    | .read => readResponse a.enables d
    | .write => .ok
  else .busError

/-- The response to a write. -/
def writeResponse (ok : Bool) : Response := if ok then .ok else .busError

/-- The old-word read is answered (R27). -/
def State.foldReadDone (a : Access) (ok : Bool) (d : Word) (s : State) : State :=
  if ok then
    (s.setLatch (s.coverage.latch.map (fun f => { f with old := some d }))).claim a .foldWrite
  else ((s.raise .memoryFault).respond a.cls .busError).emptyLatch

/-- The sums after a fold that is not void (R28). -/
def Coverage.applyFold (f : Fold) (c : Coverage) : Coverage :=
  match f.old with
  | none => c
  | some old => if f.void then c else c.modFrame f.bank f.tower (foldSums f.owners old f.new)

/-- The forwarded write is answered (R28, R29). -/
def State.foldWriteDone (a : Access) (ok : Bool) (s : State) : State :=
  match s.coverage.latch with
  | none => s.respond a.cls (writeResponse ok)
  | some f =>
    if ok then (({ s with coverage := s.coverage.applyFold f } : State).respond a.cls .ok).emptyLatch
    else
      ((({ s with coverage := if f.cleared then s.coverage else s.coverage.unfit f.bank f.tower } : State).raise
        .memoryFault).respond a.cls .busError).emptyLatch

/-- The commit write is answered (R145). -/
def State.commitDone (a : Access) (i : Fin 16) (ok : Bool) (s : State) : State :=
  if ok then (s.respond a.cls .ok).enlist i else (s.respond a.cls .busError).setSlot i .free

/-- The answer write is answered (R11, R160). -/
def State.answerDone (a : Access) (w : CtlWord) (ok : Bool) (s : State) : State :=
  (s.respond a.cls (writeResponse ok)).reportIf (!ok) w

/-- What follows memory's answer for the access it was made for (R9 to R11, R27, R28, R145). -/
def State.passDone (a : Access) (p : Purpose) (ok : Bool) (d : Word) (s : State) : State :=
  match p with
  | .plain => s.respond a.cls (plainResponse a d ok)
  | .foldRead => s.foldReadDone a ok d
  | .foldWrite => s.foldWriteDone a ok
  | .measure => s.respond a.cls (writeResponse ok)
  | .commit i => s.commitDone a i ok
  | .answer w _ _ => s.answerDone a w ok

/-- Memory answers one word: job memory changes, and the port is free (R2). -/
def State.memAnswered (w : PortWord) (ans : MemAnswer) (s : State) : State :=
  ({ s with mem := Memory.answer s.mem w ans } : State).freePort

/-- Memory answers the pass-through access that holds the port (R9, R20). -/
def State.answerPass (ans : MemAnswer) (s : State) : State :=
  match s.port.holder with
  | some (.passThrough c w) =>
    match s.bus.get c with
    | some ⟨a, .granted p⟩ => (s.memAnswered w ans).passDone a p (answeredOk ans) (Memory.word s.mem w.word)
    | _ => s.memAnswered w ans
  | some (.orphan w) => s.memAnswered w ans
  | _ => s

/-! ### Completions of internal requests -/

/-- The words of a request have been answered: job memory changes, the port is free, and an ERROR raises
MEMORY_FAULT (R2, R19). A discarded completion raises nothing and is delivered to no unit. -/
def State.completed (ws : List PortWord) (anss : List MemAnswer) (discarded : Bool) (s : State) : State :=
  (({ s with mem := Memory.answers s.mem ws anss } : State).freePort).raiseIf
    (!discarded && anss.any (fun x => !answeredOk x)) .memoryFault

/-- A request that holds the port completes: `due` says whether the event is this request's, `k` what its unit
does with the completion (R19). -/
def State.complete (due : IReq → Bool) (anss : List MemAnswer) (k : IReq → List PortWord → State → State)
    (s : State) : State :=
  match s.port.holder with
  | some (.internal r ws discarded) =>
    if due r then
      if discarded then s.completed ws anss true else k r ws (s.completed ws anss false)
    else s
  | _ => s

/-- Offer the cursor's CLEAR_WRITE of its word (R35). -/
def State.offerClear (c : Cursor) (s : State) : State :=
  match planAddr c.plan c.word with
  | none => s
  | some a => ({ s with coverage := { s.coverage with cursor := some { c with started := true } } } : State).offer
      (.clearWrite a)

/-- The cursor makes its first offer once the latch holds no fold into its bank (R35; log 7). -/
def State.firstClear (s : State) : State :=
  match s.coverage.cursor with
  | none => s
  | some c => if c.started || s.coverage.latch.any (fun f => f.bank = c.bank) then s else s.offerClear c

/-- A clear is over: the bank takes its state, the cursor is idle (R35). -/
def Coverage.endClear (bk : BankId) (st : BankState) (c : Coverage) : Coverage :=
  { c.setState bk st with cursor := none }

/-- A CLEAR_WRITE completes (R19, R34, R35). -/
def State.clearWritten (ok : Bool) (s : State) : State :=
  match s.coverage.cursor with
  | none => s
  | some c =>
    if ok then
      if c.word + 1 < planWords c.plan then s.offerClear { c with word := c.word + 1 }
      else
        (({ s with coverage := s.coverage.endClear c.bank .opened } : State).raise .bankReady).report wordBank
    else
      ({ s with
          coverage := (s.coverage.endClear c.bank .stale).voidFold (fun f => f.bank = c.bank) false } :
        State).report wordBank

/-- The channel is free again (R161). -/
def State.freeChannel (s : State) : State := { s with control := { s.control with channel := none } }

/-- The data a granted read delivers (R2). -/
def readData (m : List Host.Cell) (ws : List PortWord) : List Word := ws.map (fun w => Memory.word m w.word)

/-- The completion of an ORDER_READ answered OK, for the row of one verb: executed with no stop noted (R116). -/
def State.orderRow (row : Nat → Bool) (run : OrderRec → State → Except FaultCode State) (s : State) : State :=
  match s.port.holder with
  | some (.internal (.orderRead _) ws discarded) =>
    let data := readData s.mem ws
    if discarded then s.completed ws [] true
    else if s.engine.stop = false ∧ row (orderRec data).verb = true then
      (s.completed ws [] false).execute run data
    else s
  | _ => s

/-- The completion of an ORDER_READ answered OK with a stop noted (R116, R139). -/
def State.orderCancelled (s : State) : State :=
  match s.port.holder with
  | some (.internal (.orderRead _) ws discarded) =>
    if discarded then s.completed ws [] true
    else if s.engine.stop then (s.completed ws [] false).writeBack (readData s.mem ws) .cancelled
    else s
  | _ => s

/-- Which request a completion is of. -/
def IReq.isOrderRead : IReq → Bool
  | .orderRead _ => true
  | _ => false

/-- An ORDER_WRITE. -/
def IReq.isOrderWrite : IReq → Bool
  | .orderWrite _ _ _ => true
  | _ => false

/-- A CLEAR_WRITE. -/
def IReq.isClearWrite : IReq → Bool
  | .clearWrite _ => true
  | _ => false

/-- A SLOT_READ. -/
def IReq.isSlotRead : IReq → Bool
  | .slotRead _ _ => true
  | _ => false

/-- A MIRROR_WRITE. -/
def IReq.isMirrorWrite : IReq → Bool
  | .mirrorWrite _ _ => true
  | _ => false

/-- A NOTICE_WRITE. -/
def IReq.isNoticeWrite : IReq → Bool
  | .noticeWrite _ _ => true
  | _ => false

/-- A PRELOAD write. -/
def IReq.isPreloadWrite : IReq → Bool
  | .preloadWrite _ _ => true
  | _ => false

/-- The answers of a read of several words, one error bit a word. -/
def readAnswers (errors : BitVec 31) : List MemAnswer :=
  (List.range 31).map (fun i => if errors.getLsbD i then .error false else .ok)

/-- A SLOT_READ is delivered to the loop unit (R146). -/
def State.slotDelivered (errors : BitVec 31) (m : List Host.Cell) (r : IReq) (ws : List PortWord) (s : State) :
    State :=
  match r with
  | .slotRead i _ => s.slotRead i (if errors = 0 then some (measureRec (readData m ws)) else none)
  | _ => s

/-- A MIRROR_WRITE is delivered: its word returns to the set on ERROR, and the channel is free (R160, R161). -/
def State.mirrorWritten (ok : Bool) (r : IReq) (s : State) : State :=
  match r with
  | .mirrorWrite w _ => s.freeChannel.reportIf (!ok) w
  | _ => s

end Sys2Proof.Machine
end

