-- ==== Sys2Proof/Machine/Accesses.lean ====
section
/-! DEFINITION. The meanings of the press-bus accesses, of the pin reset, of the arbiter's grant and of memory's
answers to pass-through accesses. What an access or an answer comes to is decided by the state it meets (log 2). -/

namespace Sys2Proof.Machine

/-- The next state after one event: its effect, then what the transmitter and the request channel make of it. -/
def afterEvent (f : State → State) (s : State) : Host.Outcome State Fault Refusal := .next (State.settle s (f s))

/-- PIN_RESET (R20; log 13). -/
def execPinReset (l : BitVec 2) (s : State) : Host.Outcome State Fault Refusal := .next (s.pinReset l)

/-- PLAIN_ACCESS (R9). -/
def execPlainAccess (a : Access) (s : State) : Host.Outcome State Fault Refusal := afterEvent (State.arrive a) s

/-- REFUSED_WRITE (R6). -/
def execRefusedWrite (cls : MasterClass) (addr : Addr) (en : BitVec 4) (d : Word) (s : State) :
    Host.Outcome State Fault Refusal := afterEvent (State.arrive ⟨cls, addr, .write, en, d⟩) s

/-- MISFIT_WRITE (R7, R14). -/
def execMisfitWrite (cls : MasterClass) (addr : Addr) (en : BitVec 4) (d : Word) (s : State) :
    Host.Outcome State Fault Refusal := afterEvent (State.arrive ⟨cls, addr, .write, en, d⟩) s

/-- LIVE_READ (R13). -/
def execLiveRead (cls : MasterClass) (addr : Addr) (en : BitVec 4) (s : State) : Host.Outcome State Fault Refusal :=
  afterEvent (State.arrive ⟨cls, addr, .read, en, 0⟩) s

/-- TRIM_WRITE (R14, R48): the trim in the lower half of the word, the bits outside it as R179 ignores them. -/
def execTrimWrite (cls : MasterClass) (addr : Addr) (trim rest : Half) (s : State) :
    Host.Outcome State Fault Refusal := afterEvent (State.arrive (fullWrite cls addr (rest ++ trim))) s

/-- COVERAGE_WRITE (R25). -/
def execCoverageWrite (cls : MasterClass) (addr : Addr) (d : Word) (s : State) : Host.Outcome State Fault Refusal :=
  afterEvent (State.arrive (fullWrite cls addr d)) s

/-- FOLD_TAKE (R26; log 8). -/
def execFoldTake (cls : MasterClass) (addr : Addr) (d : Word) (s : State) : Host.Outcome State Fault Refusal :=
  afterEvent (State.arrive (fullWrite cls addr d)) s

/-- MEASURE_WRITE (R144). -/
def execMeasureWrite (cls : MasterClass) (addr : Addr) (d : Word) (s : State) : Host.Outcome State Fault Refusal :=
  afterEvent (State.arrive (fullWrite cls addr d)) s

/-- COMMIT (R145). -/
def execCommit (cls : MasterClass) (addr : Addr) (d : Word) (s : State) : Host.Outcome State Fault Refusal :=
  afterEvent (State.arrive (fullWrite cls addr d)) s

/-- MP_GRANT (R15, R16). -/
def execMpGrant (s : State) : Host.Outcome State Fault Refusal := afterEvent State.grant s

/-- PASS_THROUGH_RESPONSE (R9). -/
def execPassThroughResponse (ans : MemAnswer) (s : State) : Host.Outcome State Fault Refusal :=
  afterEvent (State.answerPass ans) s

/-- FOLD_READ_RESPONSE (R27). -/
def execFoldReadResponse (ans : MemAnswer) (s : State) : Host.Outcome State Fault Refusal :=
  afterEvent (State.answerPass ans) s

/-- FOLD_WRITE_RESPONSE (R28). -/
def execFoldWriteResponse (ans : MemAnswer) (s : State) : Host.Outcome State Fault Refusal :=
  afterEvent (State.answerPass ans) s

/-- COMMIT_RESPONSE (R145). -/
def execCommitResponse (ans : MemAnswer) (s : State) : Host.Outcome State Fault Refusal :=
  afterEvent (State.answerPass ans) s

/-- ANSWER_WRITE_RESPONSE (R11). -/
def execAnswerWriteResponse (ans : MemAnswer) (s : State) : Host.Outcome State Fault Refusal :=
  afterEvent (State.answerPass ans) s

end Sys2Proof.Machine
end

