-- ==== Sys2Proof/Machine/Requests.lean ====
section
/-! DEFINITION. The meanings of the internal requests' completions and of the clear cursor's first offer. -/

namespace Sys2Proof.Machine

/-- SLOT_READ_COMPLETE (R146): one error bit a word. -/
def execSlotReadComplete (errors : BitVec 31) (s : State) : Host.Outcome State Fault Refusal :=
  afterEvent (State.complete IReq.isSlotRead (readAnswers errors) (State.slotDelivered errors s.mem)) s

/-- CLEAR_FIRST_OFFER (R35; log 7). -/
def execClearFirstOffer (s : State) : Host.Outcome State Fault Refusal := afterEvent State.firstClear s

/-- CLEAR_WRITE_COMPLETE (R35). -/
def execClearWriteComplete (ans : MemAnswer) (s : State) : Host.Outcome State Fault Refusal :=
  afterEvent (State.complete IReq.isClearWrite [ans] (fun _ _ => State.clearWritten (answeredOk ans))) s

/-- ORDER_WRITE_COMPLETE (R123): memory's answers to words 6 and 7 of the record. -/
def execOrderWriteComplete (ans6 ans7 : MemAnswer) (s : State) : Host.Outcome State Fault Refusal :=
  afterEvent
    (State.complete IReq.isOrderWrite [ans6, ans7]
      (fun _ _ => State.orderWritten (!(answeredOk ans6 && answeredOk ans7)))) s

/-- ORDER_FETCH_ERROR (R116). -/
def execOrderFetchError (s : State) : Host.Outcome State Fault Refusal :=
  afterEvent (State.complete IReq.isOrderRead [.error false] (fun _ _ => State.fetchFailed)) s

/-- MIRROR_WRITE_COMPLETE (R160, R161). -/
def execMirrorWriteComplete (ans : MemAnswer) (s : State) : Host.Outcome State Fault Refusal :=
  afterEvent (State.complete IReq.isMirrorWrite [ans] (fun r _ => State.mirrorWritten (answeredOk ans) r)) s

/-- NOTICE_WRITE_COMPLETE (R166). -/
def execNoticeWriteComplete (ans : MemAnswer) (s : State) : Host.Outcome State Fault Refusal :=
  afterEvent (State.complete IReq.isNoticeWrite [ans] (fun _ _ => State.freeChannel)) s

/-- PRELOAD_WRITE_COMPLETE (R175). -/
def execPreloadWriteComplete (ans : MemAnswer) (s : State) : Host.Outcome State Fault Refusal :=
  afterEvent (State.complete IReq.isPreloadWrite [ans] (fun _ _ s => s.freeChannel.preloadWritten)) s

end Sys2Proof.Machine
end

