-- ==== Sys2Proof/Machine/Orders.lean ====
section
/-! DEFINITION. The meanings of the fetched orders: the completion of an ORDER_READ, one row for each verb, for a
verb byte with no verb, and for a stop noted (R116 to R121, R139). -/

namespace Sys2Proof.Machine

/-- ORDER_CANCELLED (R139). -/
def execOrderCancelled (s : State) : Host.Outcome State Fault Refusal := afterEvent State.orderCancelled s

/-- PRESET (R43). -/
def execPreset (s : State) : Host.Outcome State Fault Refusal :=
  afterEvent (State.orderRow (· == verbPreset) State.runPreset) s

/-- TRIM_SET (R49). -/
def execTrimSet (s : State) : Host.Outcome State Fault Refusal :=
  afterEvent (State.orderRow (· == verbTrimSet) (fun r => State.keyRange r (setTrim r.value))) s

/-- TRIM_ADD (R49). -/
def execTrimAdd (s : State) : Host.Outcome State Fault Refusal :=
  afterEvent (State.orderRow (· == verbTrimAdd) (fun r => State.keyRange r (addTrim r.value))) s

/-- CORR_CLEAR (R50). -/
def execCorrClear (s : State) : Host.Outcome State Fault Refusal :=
  afterEvent (State.orderRow (· == verbCorrClear) (fun r => State.keyRange r (setCorrection 0))) s

/-- HOLD (R51). -/
def execHold (s : State) : Host.Outcome State Fault Refusal :=
  afterEvent (State.orderRow (· == verbHold) (fun r => State.keyRange r (setHold true))) s

/-- RELEASE (R51). -/
def execRelease (s : State) : Host.Outcome State Fault Refusal :=
  afterEvent (State.orderRow (· == verbRelease) (fun r => State.keyRange r (setHold false))) s

/-- CLEAR_BANK (R120). -/
def execClearBank (s : State) : Host.Outcome State Fault Refusal :=
  afterEvent (State.orderRow (· == verbClearBank) (State.orderNamedBank .clear)) s

/-- LOCK_BANK (R120). -/
def execLockBank (s : State) : Host.Outcome State Fault Refusal :=
  afterEvent (State.orderRow (· == verbLockBank) (State.orderNamedBank .lock)) s

/-- UNLOCK_BANK (R120). -/
def execUnlockBank (s : State) : Host.Outcome State Fault Refusal :=
  afterEvent (State.orderRow (· == verbUnlockBank) (State.orderNamedBank .unlock)) s

/-- SWAP_BANKS (R120). -/
def execSwapBanks (s : State) : Host.Outcome State Fault Refusal :=
  afterEvent (State.orderRow (· == verbSwapBanks) (fun _ => State.orderBank .swap)) s

/-- ORDER_LOOP_ON: the verb LOOP_ON (R121). -/
def execOrderLoopOn (s : State) : Host.Outcome State Fault Refusal :=
  afterEvent (State.orderRow (· == verbLoopOn) (State.orderLoop TowerState.loopOn)) s

/-- ORDER_LOOP_OFF: the verb LOOP_OFF (R121). -/
def execOrderLoopOff (s : State) : Host.Outcome State Fault Refusal :=
  afterEvent (State.orderRow (· == verbLoopOff) (State.orderLoop TowerState.loopOff)) s

/-- NOP (R121). -/
def execNop (s : State) : Host.Outcome State Fault Refusal :=
  afterEvent (State.orderRow (· == verbNop) (fun _ => .ok)) s

/-- VERB_FAULT (R117). -/
def execVerbFault (s : State) : Host.Outcome State Fault Refusal :=
  afterEvent (State.orderRow (fun v => decide (firstBadVerb ≤ v)) (fun _ _ => .error .verb)) s

end Sys2Proof.Machine
end

