-- ==== Sys2Proof/Machine/ControlWords.lean ====
section
/-! DEFINITION. The meanings of the commands written to control words: each is the arrival of a full-word write
with the command's fields at their places (12.2) and any value in the bits R179 ignores. -/

namespace Sys2Proof.Machine

/-- BAD_CODE (R11). -/
def execBadCode (cls : MasterClass) (addr : Addr) (d : Word) (s : State) : Host.Outcome State Fault Refusal :=
  afterEvent (State.arrive (fullWrite cls addr d)) s

/-- START (R131). -/
def execStart (cls : MasterClass) (addr : Addr) (index : Byte) (rest : BitVec 16) (s : State) :
    Host.Outcome State Fault Refusal := afterEvent (State.arrive (fullWrite cls addr (codeWord (rest ++ index) 1))) s

/-- STOP (R137). -/
def execStop (cls : MasterClass) (addr : Addr) (index : Byte) (rest : BitVec 16) (s : State) :
    Host.Outcome State Fault Refusal := afterEvent (State.arrive (fullWrite cls addr (codeWord (rest ++ index) 1))) s

/-- STOP_ALL (R138). -/
def execStopAll (cls : MasterClass) (addr : Addr) (rest : BitVec 24) (s : State) :
    Host.Outcome State Fault Refusal := afterEvent (State.arrive (fullWrite cls addr (codeWord rest 2))) s

/-- ARM (R133). -/
def execArm (cls : MasterClass) (addr : Addr) (index divisor rest : Byte) (s : State) :
    Host.Outcome State Fault Refusal :=
  afterEvent (State.arrive (fullWrite cls addr (codeWord (rest ++ (divisor ++ index : BitVec 16)) 1))) s

/-- DISARM (R133). -/
def execDisarm (cls : MasterClass) (addr : Addr) (rest : BitVec 24) (s : State) : Host.Outcome State Fault Refusal :=
  afterEvent (State.arrive (fullWrite cls addr (codeWord rest 2))) s

/-- EVENT (R164). -/
def execEvent (cls : MasterClass) (addr : Addr) (flags : BitVec 14) (rest : BitVec 18) (s : State) :
    Host.Outcome State Fault Refusal := afterEvent (State.arrive (fullWrite cls addr (rest ++ flags))) s

/-- EVENT_ENABLE (R165). -/
def execEventEnable (cls : MasterClass) (addr : Addr) (en : BitVec 14) (rest : BitVec 18) (s : State) :
    Host.Outcome State Fault Refusal := afterEvent (State.arrive (fullWrite cls addr (rest ++ en))) s

/-- PART_STATUS (R158). -/
def execPartStatus (cls : MasterClass) (addr : Addr) (d : Word) (s : State) : Host.Outcome State Fault Refusal :=
  afterEvent (State.arrive (fullWrite cls addr d)) s

/-- ENGINE (R158). -/
def execEngine (cls : MasterClass) (addr : Addr) (d : Word) (s : State) : Host.Outcome State Fault Refusal :=
  afterEvent (State.arrive (fullWrite cls addr d)) s

/-- REFUSAL (R167). -/
def execRefusal (cls : MasterClass) (addr : Addr) (d : Word) (s : State) : Host.Outcome State Fault Refusal :=
  afterEvent (State.arrive (fullWrite cls addr d)) s

/-- MEASURE_STATUS (R153). -/
def execMeasureStatus (cls : MasterClass) (addr : Addr) (d : Word) (s : State) : Host.Outcome State Fault Refusal :=
  afterEvent (State.arrive (fullWrite cls addr d)) s

/-- A bank command's word: the code, and the bank in bit 0 of byte 1 (12.2). -/
def bankCommandWord (bank : BankId) (rest : BitVec 23) (code : Byte) : Word :=
  codeWord (rest ++ BitVec.ofNat 1 (bankSelector bank)) code

/-- CLEAR (R30). -/
def execClear (cls : MasterClass) (addr : Addr) (bank : BankId) (rest : BitVec 23) (s : State) :
    Host.Outcome State Fault Refusal := afterEvent (State.arrive (fullWrite cls addr (bankCommandWord bank rest 1))) s

/-- LOCK (R31). -/
def execLock (cls : MasterClass) (addr : Addr) (bank : BankId) (rest : BitVec 23) (s : State) :
    Host.Outcome State Fault Refusal := afterEvent (State.arrive (fullWrite cls addr (bankCommandWord bank rest 2))) s

/-- UNLOCK (R31). -/
def execUnlock (cls : MasterClass) (addr : Addr) (bank : BankId) (rest : BitVec 23) (s : State) :
    Host.Outcome State Fault Refusal := afterEvent (State.arrive (fullWrite cls addr (bankCommandWord bank rest 3))) s

/-- SWAP (R33). -/
def execSwap (cls : MasterClass) (addr : Addr) (rest : BitVec 24) (s : State) : Host.Outcome State Fault Refusal :=
  afterEvent (State.arrive (fullWrite cls addr (codeWord rest 4))) s

/-- RELOAD (R159). -/
def execReload (cls : MasterClass) (addr : Addr) (rest : BitVec 24) (s : State) : Host.Outcome State Fault Refusal :=
  afterEvent (State.arrive (fullWrite cls addr (codeWord rest 1))) s

/-- WAKE (R101). -/
def execWake (cls : MasterClass) (addr : Addr) (rest : BitVec 24) (s : State) : Host.Outcome State Fault Refusal :=
  afterEvent (State.arrive (fullWrite cls addr (codeWord rest 1))) s

/-- PARK (R102). -/
def execPark (cls : MasterClass) (addr : Addr) (rest : BitVec 24) (s : State) : Host.Outcome State Fault Refusal :=
  afterEvent (State.arrive (fullWrite cls addr (codeWord rest 2))) s

/-- RESET (R107). -/
def execReset (cls : MasterClass) (addr : Addr) (rest : BitVec 24) (s : State) : Host.Outcome State Fault Refusal :=
  afterEvent (State.arrive (fullWrite cls addr (codeWord rest 3))) s

/-- LOOP_ON (R147). -/
def execLoopOn (cls : MasterClass) (addr : Addr) (rest : BitVec 24) (s : State) : Host.Outcome State Fault Refusal :=
  afterEvent (State.arrive (fullWrite cls addr (codeWord rest 4))) s

/-- LOOP_OFF (R147). -/
def execLoopOff (cls : MasterClass) (addr : Addr) (rest : BitVec 24) (s : State) : Host.Outcome State Fault Refusal :=
  afterEvent (State.arrive (fullWrite cls addr (codeWord rest 5))) s

/-- CLEAR_FAULTS (R76). -/
def execClearFaults (cls : MasterClass) (addr : Addr) (rest : BitVec 24) (s : State) :
    Host.Outcome State Fault Refusal := afterEvent (State.arrive (fullWrite cls addr (codeWord rest 6))) s

end Sys2Proof.Machine
end

