-- ==== Sys2Proof/Machine/Signals.lean ====
section
/-! DEFINITION. The meanings of the press signals, of the key drive link's events and of the move timers. -/

namespace Sys2Proof.Machine

/-- SHEET (R112). -/
def execSheet (s : State) : Host.Outcome State Fault Refusal := afterEvent State.sheet s

/-- RAMP_COMPLETE: the SHEET pulse that ends a ramp (R46; log 2). -/
def execRampComplete (s : State) : Host.Outcome State Fault Refusal := afterEvent State.sheet s

/-- SETTLE_END: the SHEET pulse that ends settling (R148; log 2). -/
def execSettleEnd (s : State) : Host.Outcome State Fault Refusal := afterEvent State.sheet s

/-- SHEET_FIRING: the SHEET pulse that brings the counter to D (R134; log 2). -/
def execSheetFiring (s : State) : Host.Outcome State Fault Refusal := afterEvent State.sheet s

/-- IMPR_RISE (R111). -/
def execImprRise (s : State) : Host.Outcome State Fault Refusal := afterEvent State.imprRise s

/-- IMPR_FALL (R111). -/
def execImprFall (s : State) : Host.Outcome State Fault Refusal := afterEvent State.imprFall s

/-- JOBCHG (R112). -/
def execJobchg (s : State) : Host.Outcome State Fault Refusal := afterEvent (State.fire .jobchg) s

/-- SENDING_END (R88). -/
def execSendingEnd (s : State) : Host.Outcome State Fault Refusal := afterEvent State.endSending s

/-- GAP_END (R88, R89). -/
def execGapEnd (s : State) : Host.Outcome State Fault Refusal := afterEvent State.endGap s

/-- DONE (R69). -/
def execDone (address key tag : Byte) (position : Half) (s : State) : Host.Outcome State Fault Refusal :=
  afterEvent (State.receive (frameLine address kindDone key tag position)) s

/-- STALL (R70). -/
def execStall (address key tag : Byte) (position : Half) (s : State) : Host.Outcome State Fault Refusal :=
  afterEvent (State.receive (frameLine address kindStall key tag position)) s

/-- REPORT (R72). -/
def execReport (address key tag : Byte) (position : Half) (s : State) : Host.Outcome State Fault Refusal :=
  afterEvent (State.receive (frameLine address kindReport key tag position)) s

/-- HELLO (R106). -/
def execHello (address key tag : Byte) (position : Half) (s : State) : Host.Outcome State Fault Refusal :=
  afterEvent (State.receive (frameLine address kindHello key tag position)) s

/-- FRAME_DISCARDED (R93, R94): any run of the return line. -/
def execFrameDiscarded (line : List LineEvent) (s : State) : Host.Outcome State Fault Refusal :=
  afterEvent (State.receive line) s

/-- What ends a key's last unsuccessful move (R75). -/
def State.keyFaultEvent (c : KeyFaultCause) (s : State) : State :=
  match c with
  | .stall address key tag position => s.receive (frameLine address kindStall key tag position)
  | .timeout t sl => s.takeTimeout t sl

/-- KEY_FAULT (R75; log 2). -/
def execKeyFault (c : KeyFaultCause) (s : State) : Host.Outcome State Fault Refusal :=
  afterEvent (State.keyFaultEvent c) s

/-- MOVE_TIMEOUT (R71). -/
def execMoveTimeout (t : Tower) (sl : Slot) (s : State) : Host.Outcome State Fault Refusal :=
  afterEvent (State.takeTimeout t sl) s

/-- TOWER_DOWN: the timeout that is the third in a row (R104; log 2). -/
def execTowerDown (t : Tower) (sl : Slot) (s : State) : Host.Outcome State Fault Refusal :=
  afterEvent (State.takeTimeout t sl) s

end Sys2Proof.Machine
end

