-- ==== Sys2Proof/Machine/Loading.lean ====
section
/-! DEFINITION. The meanings of the configuration loader's events. The image operand is what the configuration
memory holds as the words are read (R169; log 5). -/

namespace Sys2Proof.Machine

/-- The header is judged while the loader stands at it, and the first section is begun (R169, R171). -/
def State.headerEvent (image : List Byte) (s : State) : State :=
  if s.loader.state = .readingHeader then (s.judgeHeader image).readOn (headerSteps image) else s

/-- HEADER_READ (R169). -/
def execHeaderRead (image : List Byte) (s : State) : Host.Outcome State Fault Refusal :=
  afterEvent (State.headerEvent image) s

/-- SECTION_READ (R170). -/
def execSectionRead (image : List Byte) (s : State) : Host.Outcome State Fault Refusal :=
  afterEvent (State.judgeSection image) s

/-- SECTION_RELOAD_COMPLETE (R178). -/
def execSectionReloadComplete (image : List Byte) (s : State) : Host.Outcome State Fault Refusal :=
  afterEvent (State.sectionReloaded image) s

end Sys2Proof.Machine
end

