-- ==== Sys2Proof/Machine/Dispatch.lean ====
section
/-! DEFINITION. One arm for each command. -/

namespace Sys2Proof.Machine

/-- The effect of a command on everything but the queue. -/
def exec (i : Instr) (s : State) : Host.Outcome State Fault Refusal :=
  match i with
  | .pinReset landed => Sys2Proof.Machine.execPinReset landed s
  | .plainAccess a => Sys2Proof.Machine.execPlainAccess a s
  | .refusedWrite cls addr enables data => Sys2Proof.Machine.execRefusedWrite cls addr enables data s
  | .misfitWrite cls addr enables data => Sys2Proof.Machine.execMisfitWrite cls addr enables data s
  | .passThroughResponse ans => Sys2Proof.Machine.execPassThroughResponse ans s
  | .mpGrant => Sys2Proof.Machine.execMpGrant s
  | .liveRead cls addr enables => Sys2Proof.Machine.execLiveRead cls addr enables s
  | .trimWrite cls addr trim rest => Sys2Proof.Machine.execTrimWrite cls addr trim rest s
  | .coverageWrite cls addr data => Sys2Proof.Machine.execCoverageWrite cls addr data s
  | .foldTake cls addr data => Sys2Proof.Machine.execFoldTake cls addr data s
  | .foldReadResponse ans => Sys2Proof.Machine.execFoldReadResponse ans s
  | .foldWriteResponse ans => Sys2Proof.Machine.execFoldWriteResponse ans s
  | .measureWrite cls addr data => Sys2Proof.Machine.execMeasureWrite cls addr data s
  | .commit cls addr data => Sys2Proof.Machine.execCommit cls addr data s
  | .commitResponse ans => Sys2Proof.Machine.execCommitResponse ans s
  | .slotReadComplete errors => Sys2Proof.Machine.execSlotReadComplete errors s
  | .clearFirstOffer => Sys2Proof.Machine.execClearFirstOffer s
  | .clearWriteComplete ans => Sys2Proof.Machine.execClearWriteComplete ans s
  | .orderWriteComplete ans6 ans7 => Sys2Proof.Machine.execOrderWriteComplete ans6 ans7 s
  | .orderFetchError => Sys2Proof.Machine.execOrderFetchError s
  | .orderCancelled => Sys2Proof.Machine.execOrderCancelled s
  | .preset => Sys2Proof.Machine.execPreset s
  | .trimSet => Sys2Proof.Machine.execTrimSet s
  | .trimAdd => Sys2Proof.Machine.execTrimAdd s
  | .corrClear => Sys2Proof.Machine.execCorrClear s
  | .hold => Sys2Proof.Machine.execHold s
  | .release => Sys2Proof.Machine.execRelease s
  | .clearBank => Sys2Proof.Machine.execClearBank s
  | .lockBank => Sys2Proof.Machine.execLockBank s
  | .unlockBank => Sys2Proof.Machine.execUnlockBank s
  | .swapBanks => Sys2Proof.Machine.execSwapBanks s
  | .orderLoopOn => Sys2Proof.Machine.execOrderLoopOn s
  | .orderLoopOff => Sys2Proof.Machine.execOrderLoopOff s
  | .nop => Sys2Proof.Machine.execNop s
  | .mirrorWriteComplete ans => Sys2Proof.Machine.execMirrorWriteComplete ans s
  | .noticeWriteComplete ans => Sys2Proof.Machine.execNoticeWriteComplete ans s
  | .preloadWriteComplete ans => Sys2Proof.Machine.execPreloadWriteComplete ans s
  | .answerWriteResponse ans => Sys2Proof.Machine.execAnswerWriteResponse ans s
  | .badCode cls addr data => Sys2Proof.Machine.execBadCode cls addr data s
  | .start cls addr index rest => Sys2Proof.Machine.execStart cls addr index rest s
  | .stop cls addr index rest => Sys2Proof.Machine.execStop cls addr index rest s
  | .stopAll cls addr rest => Sys2Proof.Machine.execStopAll cls addr rest s
  | .arm cls addr index divisor rest => Sys2Proof.Machine.execArm cls addr index divisor rest s
  | .disarm cls addr rest => Sys2Proof.Machine.execDisarm cls addr rest s
  | .event cls addr flags rest => Sys2Proof.Machine.execEvent cls addr flags rest s
  | .eventEnable cls addr enables rest => Sys2Proof.Machine.execEventEnable cls addr enables rest s
  | .partStatus cls addr data => Sys2Proof.Machine.execPartStatus cls addr data s
  | .engine cls addr data => Sys2Proof.Machine.execEngine cls addr data s
  | .refusal cls addr data => Sys2Proof.Machine.execRefusal cls addr data s
  | .measureStatus cls addr data => Sys2Proof.Machine.execMeasureStatus cls addr data s
  | .clear cls addr bank rest => Sys2Proof.Machine.execClear cls addr bank rest s
  | .lock cls addr bank rest => Sys2Proof.Machine.execLock cls addr bank rest s
  | .unlock cls addr bank rest => Sys2Proof.Machine.execUnlock cls addr bank rest s
  | .swap cls addr rest => Sys2Proof.Machine.execSwap cls addr rest s
  | .reload cls addr rest => Sys2Proof.Machine.execReload cls addr rest s
  | .wake cls addr rest => Sys2Proof.Machine.execWake cls addr rest s
  | .park cls addr rest => Sys2Proof.Machine.execPark cls addr rest s
  | .reset cls addr rest => Sys2Proof.Machine.execReset cls addr rest s
  | .loopOn cls addr rest => Sys2Proof.Machine.execLoopOn cls addr rest s
  | .loopOff cls addr rest => Sys2Proof.Machine.execLoopOff cls addr rest s
  | .clearFaults cls addr rest => Sys2Proof.Machine.execClearFaults cls addr rest s
  | .sheet => Sys2Proof.Machine.execSheet s
  | .rampComplete => Sys2Proof.Machine.execRampComplete s
  | .settleEnd => Sys2Proof.Machine.execSettleEnd s
  | .sheetFiring => Sys2Proof.Machine.execSheetFiring s
  | .imprRise => Sys2Proof.Machine.execImprRise s
  | .imprFall => Sys2Proof.Machine.execImprFall s
  | .jobchg => Sys2Proof.Machine.execJobchg s
  | .sendingEnd => Sys2Proof.Machine.execSendingEnd s
  | .gapEnd => Sys2Proof.Machine.execGapEnd s
  | .done address key tag position => Sys2Proof.Machine.execDone address key tag position s
  | .stall address key tag position => Sys2Proof.Machine.execStall address key tag position s
  | .keyFault cause => Sys2Proof.Machine.execKeyFault cause s
  | .report address key tag position => Sys2Proof.Machine.execReport address key tag position s
  | .hello address key tag position => Sys2Proof.Machine.execHello address key tag position s
  | .frameDiscarded line => Sys2Proof.Machine.execFrameDiscarded line s
  | .moveTimeout tower slot => Sys2Proof.Machine.execMoveTimeout tower slot s
  | .towerDown tower slot => Sys2Proof.Machine.execTowerDown tower slot s
  | .headerRead image => Sys2Proof.Machine.execHeaderRead image s
  | .sectionRead image => Sys2Proof.Machine.execSectionRead image s
  | .sectionReloadComplete image => Sys2Proof.Machine.execSectionReloadComplete image s
  | .verbFault => Sys2Proof.Machine.execVerbFault s

end Sys2Proof.Machine
end

