-- ==== Sys2Proof/Safety.lean ====
section
/-! DEFINITION. The vocabulary of the statements: invariants of the machine, the frames of its events, and the
conditions under which the manual gives an event its effect. -/

namespace Sys2Proof.Machine

/-! ### Invariants -/

/-- Job memory is in its canonical form. -/
def State.memCanonical (s : State) : Prop := Memory.wf s.mem = true

/-- The line is asserted exactly when a flag and its enable are both set (R165). -/
def State.lineExact (s : State) : Prop := s.control.line = (s.control.flags &&& s.control.enables != 0)

/-- A ramp that a record holds has pulses left to come (R45, R46). -/
def KeyRec.rampOk (r : KeyRec) : Prop := ∀ p, r.ramp = some p → p.done < p.total

/-- The ranges of one record (R46, R53, R56). -/
def KeyRec.inRange (cfg : Option KeyCfg) (sl : Slot) (r : KeyRec) : Prop :=
  -300 ≤ r.trim ∧ r.trim ≤ 300 ∧ -200 ≤ r.correction ∧ r.correction ≤ 200
    ∧ r.target ≤ (match cfg with
      | none => 0
      | some c => c.bound sl)
    ∧ r.rampOk

/-- A correction limit in its range (R142). -/
def limitOk (ls : LoopSettings) : Prop := ls.limit ≤ 200

/-- A load is under way, from the header to the last PRELOAD write (R171, R175). -/
def LoaderState.loading : LoaderState → Bool
  | .readingHeader => true
  | .reading _ => true
  | .preloading _ => true
  | .idle => false
  | .section_ _ => false

/-- Every target lies between 0 and its tower's Omax (1000 for a fountain), every trim and every correction in its
range (R53); every ramp has pulses left to come (R46); the correction limits that bound them, installed or staged, lie in theirs (R142); and no section is
installed while a load is under way, so that the load installs over targets of 0 (R57). -/
def State.inRanges (s : State) : Prop :=
  (∀ (t : Tower) (sl : Slot), (s.towers[t].recs[sl]).inRange s.towers[t].cfg sl)
    ∧ (∀ (t : Tower) (ls : LoopSettings), s.towers[t].settings = some ls → limitOk ls)
    ∧ (∀ (t : Tower) (c : TowerCfg), s.loader.staged.towers[t] = some c → limitOk c.loop)
    ∧ (s.loader.state.loading = true → ∀ t : Tower, s.towers[t].cfg = none)

/-- The move account of a tower: the queue holds exactly the QUEUED keys, the in-flight set exactly the keys in
IN_FLIGHT or RETARGET, each once, at most four are in flight, and a move timer runs for these and no others (R61,
R62). -/
def TowerState.accountOk (tw : TowerState) : Prop :=
  (∀ sl : Slot, sl ∈ tw.queue ↔ tw.recs[sl].move = .queued)
    ∧ (∀ sl : Slot, sl ∈ tw.flight ↔ tw.recs[sl].flying = true)
    ∧ (∀ sl : Slot, (tw.recs[sl]).timer.isSome = tw.recs[sl].flying)
    ∧ tw.queue.Nodup ∧ tw.flight.Nodup ∧ tw.flight.length ≤ 4

/-- The move account of every tower. -/
def State.accountOk (s : State) : Prop := ∀ t : Tower, s.towers[t].accountOk

/-- The press-bus accesses are in order: the access a class has in progress is that class's own (R1), and each class on
the list of waiting coverage writes, on it once, has one that waits for the fold latch, overtaken by a RELOAD or not
(R25, R39). -/
def State.accessesOk (s : State) : Prop :=
  (∀ c x, s.bus.get c = some x → x.access.cls = c)
    ∧ (∀ c ∈ s.coverage.waiting, ∃ x, s.bus.get c = some x ∧ (x.stage = .waitLatch ∨ x.stage = .overtaken))
    ∧ s.coverage.waiting.Nodup

/-! ### Frames -/

/-- Every byte of job memory reads as before. -/
def State.sameMemory (s t : State) : Prop := ∀ a : Nat, Memory.byte t.mem a = Memory.byte s.mem a

/-- The memory port stands as before, but for requests that have joined the queue. -/
def State.samePort (s t : State) : Prop :=
  t.port.holder = s.port.holder ∧ t.port.pointer = s.port.pointer ∧ t.port.passOver = s.port.passOver
    ∧ t.port.limit = s.port.limit ∧ s.port.queue <+: t.port.queue

/-- What no event but a load, a RELOAD, a reset or a press signal changes: windows, curves, T, levels. -/
def State.sameSetup (s t : State) : Prop :=
  t.windows = s.windows ∧ t.curves = s.curves ∧ t.timeout = s.timeout ∧ t.levels = s.levels
    ∧ t.pending = s.pending

/-- The control unit's settings are as before. -/
def State.sameSettings (s t : State) : Prop :=
  t.control.part = s.control.part ∧ t.control.enables = s.control.enables ∧ t.control.mode = s.control.mode
    ∧ t.control.noticeAddr = s.control.noticeAddr ∧ t.control.noticeDatum = s.control.noticeDatum

/-- Event flags, refusal capture, interrupt line and notice-pending flag are as before. -/
def State.sameEvents (s t : State) : Prop :=
  t.control.flags = s.control.flags ∧ t.control.capture = s.control.capture ∧ t.control.line = s.control.line
    ∧ t.control.noticePending = s.control.noticePending

/-- The whole of the control unit and of the memory port is as before, but for the request that the control unit offers
on a free channel at the end of every event (R161). -/
def State.sameControl (s t : State) : Prop :=
  t.control = s.offerChannel.control ∧ t.port = s.offerChannel.port

/-- The press-bus accesses and responses of every class but one are as before. -/
def State.sameOthers (c : MasterClass) (s t : State) : Prop :=
  ∀ d : MasterClass, d ≠ c → t.bus.get d = s.bus.get d ∧ t.lastResponse.get d = s.lastResponse.get d

/-- The towers and the link are as before. -/
def State.sameTowers (s t : State) : Prop := t.towers = s.towers ∧ t.link = s.link

/-- What one event does not touch when its effect is on the press bus and the control unit alone. -/
def State.sameBlocks (s t : State) : Prop :=
  t.coverage = s.coverage ∧ s.sameTowers t ∧ t.engine = s.engine ∧ t.loop = s.loop ∧ t.loader = s.loader

/-- The value fields and the target of a record. -/
def KeyRec.values (r : KeyRec) : Nat × Int × Int × Bool × Option Ramp × Nat :=
  (r.base, r.trim, r.correction, r.hold, r.ramp, r.target)

/-- The move state a key takes when its target becomes `target`: handed off from IDLE when it has a known commanded
that differs and its tower admits moves, out of the queue when the target is the commanded again, RETARGET in flight
(R55). -/
def KeyRec.movedTo (admits : Bool) (r : KeyRec) (target : Nat) : MoveState :=
  if target = r.target then r.move
  else
    match r.move with
    | .idle => if r.commanded.isSome = true ∧ r.commanded ≠ some target ∧ admits = true then .queued else .idle
    | .queued => if r.commanded = some target then .idle else .queued
    | .inFlight => .retarget
    | .retarget => .retarget
    | .fault => .fault

/-- A tower's keys have been handed on by what has become of their targets: each takes its move state, those handed off
join the tail of the queue in ascending slot order, those that leave it go, and nothing else of the move account
changes (R55). -/
def TowerState.handedOn (old new : TowerState) : Prop :=
  (∀ sl : Slot, (new.recs[sl]).move
        = (old.recs[sl]).movedTo (admitsMoves old.service) (new.recs[sl]).target
      ∧ (new.recs[sl]).commanded = (old.recs[sl]).commanded ∧ (new.recs[sl]).reported = (old.recs[sl]).reported
      ∧ (new.recs[sl]).tag = (old.recs[sl]).tag ∧ (new.recs[sl]).tries = (old.recs[sl]).tries
      ∧ (new.recs[sl]).fault = (old.recs[sl]).fault ∧ (new.recs[sl]).timer = (old.recs[sl]).timer)
    ∧ new.queue
      = old.queue.filter (fun sl => !decide ((old.recs[sl]).move = .queued ∧ (new.recs[sl]).move = .idle))
        ++ (List.finRange 49).filter (fun sl =>
          decide ((old.recs[sl]).move = .idle ∧ (new.recs[sl]).move = .queued))
    ∧ new.flight = old.flight ∧ new.tagCounter = old.tagCounter ∧ new.timeouts = old.timeouts

/-- Every tower's keys have been handed on by what has become of their targets (R55). -/
def State.handedOn (s t : State) : Prop := ∀ u : Tower, (s.towers[u]).handedOn t.towers[u]

/-- Nothing of a tower has changed in its move account but what concerns one key: the other records stand, and nothing
outside records, queue, in-flight set and timeout count has changed but PARKING, which has become PARKED where the moves
came to rest (R78, R103). -/
def TowerState.onlyKey (sl : Slot) (old new : TowerState) : Prop :=
  new = { old with
      recs := new.recs
      queue := new.queue
      flight := new.flight
      timeouts := new.timeouts
      service := if old.service = .parking ∧ ¬(old.queue = [] ∧ old.flight = []) ∧ new.queue = [] ∧ new.flight = []
        then .parked else old.service }
    ∧ ∀ x : Slot, x ≠ sl → new.recs[x] = old.recs[x]

/-- A record after the withdrawal of its tower's moves at a HELLO or an entry to FAULTED, its target aside: commanded
and reported are UNKNOWN, a key that was QUEUED or in flight is IDLE with tries 0 and its timer stopped, any other stays
IDLE or in FAULT (R77). -/
def KeyRec.withdrawn (old new : KeyRec) : Prop :=
  (old.move = .idle ∨ old.move = .fault →
      new = { old with commanded := none, reported := none, target := new.target })
    ∧ (old.move = .queued ∨ old.move = .inFlight ∨ old.move = .retarget →
      new = { old with
        commanded := none, reported := none, move := .idle, tries := 0, timer := none, target := new.target })

/-- An event flag set beside those that were set (R163). -/
def State.raised (f : EventFlag) (s t : State) : Prop :=
  t.control.flags = s.control.flags ||| BitVec.twoPow 14 (flagBit f)

/-- The refusal capture after a report of a refused write (R167). -/
def State.captured (a : Access) (s t : State) : Prop :=
  t.control.capture = if s.control.capture.valid then s.control.capture else ⟨true, a.addr, a.cls⟩

/-! ### Conditions -/

/-- The control word an access of a CONTROL window lies on. -/
def controlWordOf (w : Window) (a : Nat) : CtlWord := Fin.ofNat 32 ((a - w.base) / 4)

/-- The plain cells of the table of 1.3: no window; a read outside LIVE; a write not refused, outside LIVE, of a
class that is not matched, or in ORDERS or GUARD, or to an unowned control word (R5, R8). -/
def State.isPlain (s : State) (a : Access) : Prop :=
  s.windowOf a = none ∨ ∃ w, s.windowOf a = some w ∧ w.kind ≠ .live
    ∧ (a.dir = .read ∨ (a.dir = .write ∧ inMask w.refuseMask a.cls = false
        ∧ (inMask w.matchMask a.cls = false ∨ w.kind = .orders ∨ w.kind = .guard
          ∨ (w.kind = .control ∧ Access.full a = true ∧ ownedWord (controlWordOf w a.addr.toNat) = false))))

/-- A write matched in a window of a kind and not refused there, its class with no access in progress. -/
def State.matched (s : State) (k : WindowKind) (w : Window) (a : Access) : Prop :=
  s.bus.get a.cls = none ∧ s.windowOf a = some w ∧ w.kind = k ∧ a.dir = .write
    ∧ inMask w.refuseMask a.cls = false ∧ inMask w.matchMask a.cls = true

/-- A full-word write of a datum reaches an owned control word as a command (R8, R11). -/
def State.admitsCommand (s : State) (cls : MasterClass) (addr : Addr) (d : Word) (w : CtlWord) : Prop :=
  ownedWord w = true
    ∧ ∃ win, s.matched .control win (fullWrite cls addr d) ∧ controlWordOf win addr.toNat = w

/-- A command has been taken: its answer write claims the port with its result, which is the word's last result
from now on (R11, R157). -/
def State.tookCommand (s t : State) (cls : MasterClass) (addr : Addr) (d : Word) (w : CtlWord) (r : Result) : Prop :=
  t.bus.get cls = some ⟨fullWrite cls addr d, .claim (.answer w r (indexOf d))⟩
    ∧ (carriesResult w = true → t.control.last[w] = r)
    ∧ (∀ v : CtlWord, v ≠ w → t.control.last[v] = s.control.last[v])
    ∧ s.sameOthers cls t ∧ t.lastResponse = s.lastResponse ∧ s.sameMemory t

/-- Codes a control word does not know; EVENT, EVENT_ENABLE, PART_STATUS, REFUSAL, MEASURE_STATUS and ENGINE have
no codes (12.2, R157). -/
def unknownCode (w : CtlWord) (code : Nat) : Bool :=
  if w = wordStart ∨ w = wordReload then code != 1
  else if w = wordStop ∨ (8 ≤ w.val ∧ w.val ≤ 12) then code != 1 && code != 2
  else if w = wordBank then decide (code < 1 ∨ 4 < code)
  else if 16 ≤ w.val then decide (code < 1 ∨ 6 < code)
  else false

/-- A pass-through access of a class holds the port for a purpose (R2, R9). -/
def State.holdsPass (s : State) (a : Access) (p : Purpose) (w : PortWord) : Prop :=
  s.port.holder = some (.passThrough a.cls w) ∧ s.bus.get a.cls = some ⟨a, .granted p⟩

/-- An internal request holds the port and has not been discarded (R2, R19). -/
def State.holdsRequest (s : State) (r : IReq) (ws : List PortWord) : Prop :=
  s.port.holder = some (.internal r ws false)

/-- An order's eight words are being read, no stop is noted, and its verb is as given (R116). -/
def State.fetched (s : State) (ws : List PortWord) (r : OrderRec) : Prop :=
  (∃ a, s.holdsRequest (.orderRead a) ws) ∧ s.engine.stop = false ∧ orderRec (readData s.mem ws) = r

/-- The write-back of an outcome has begun: its ORDER_WRITE is offered; nothing else of the engine changes, but that a
head which is EXHAUSTED or faults at the chain's first visit disarms the binding the chain is tied to (R122, R123,
R136). -/
def State.writesBack (s t : State) (ws : List PortWord) (o : OrderOutcome) : Prop :=
  t.engine = { s.engine with
      state := .writingBack
      running := some ⟨readData s.mem ws, o⟩
      bindings := t.engine.bindings
      tie := t.engine.tie }
    ∧ (∀ k, t.engine.bindings.get k
      = if s.engine.visited = 1 ∧ s.engine.tie = some k ∧ o ≠ .done ∧ o ≠ .cancelled
        then ⟨false, false, (s.engine.bindings.get k).index⟩ else s.engine.bindings.get k)
    ∧ t.engine.tie = (if s.engine.visited = 1 ∧ o ≠ .done ∧ o ≠ .cancelled then none else s.engine.tie)
    ∧ s.port.queue ++ [.orderWrite s.engine.recordAddr
        (BitVec.ofNat 16 (runsLeftWritten (orderRec (readData s.mem ws)) o))
        (statusWord (orderRec (readData s.mem ws)) o)] <+: t.port.queue
    ∧ t.port.holder = none ∧ s.sameMemory t

/-! ### Folds, waiting writes, firings and order rows -/

/-- A word lies in the image of a frame of the coverage range (R21, R22). -/
def Coverage.holdsWord (c : Coverage) (a : Nat) (bk : BankId) (u : Tower) : Prop :=
  ∃ r g, c.range = some r ∧ r.base ≤ a ∧ a < r.base + r.size
    ∧ bk = (if a - r.base < r.size / 2 then .a else .b)
    ∧ (a - r.base) % (r.size / 2) / (r.size / 32) = u.val ∧ c.geometry[u] = some g
    ∧ (a - r.base) % (r.size / 2) % (r.size / 32) < r.size / 32 / g.w * g.w

/-- Frames have become UNFIT: each that is hit keeps its sums and is fit no longer, a fold in the latch into one of them
has become void, and every other frame, any other fold, the banks' states and roles, the range and the clear cursor stand
as they stood (R29, R36). Of the geometry records it says nothing. -/
def Coverage.madeUnfit (c d : Coverage) (hit : BankId → Tower → Prop) : Prop :=
  (∀ bk u, (hit bk u → d.frame bk u = { c.frame bk u with fit := false })
      ∧ (¬hit bk u → d.frame bk u = c.frame bk u))
    ∧ (c.latch = none → d.latch = none)
    ∧ (∀ f, c.latch = some f → (hit f.bank f.tower → d.latch = some { f with void := true })
        ∧ (¬hit f.bank f.tower → d.latch = some f))
    ∧ (∀ bk, (d.banks.get bk).state = (c.banks.get bk).state) ∧ d.active = c.active ∧ d.range = c.range
    ∧ d.cursor = c.cursor ∧ d.waiting = c.waiting

/-- A coverage write passes the checks made at its take, over a coverage unit as it stands then (R26). -/
def State.foldable (s : State) (c : Coverage) (a : Access) : Prop :=
  s.control.part = .running
    ∧ ∃ bk u, c.holdsWord (wordAddr a.addr.toNat) bk u ∧ (c.banks.get bk).state = .opened
      ∧ (c.frame bk u).fit = true

/-- A class waits for the fold latch with a write. -/
def State.waitsWith (s : State) (d : MasterClass) (b : Access) : Prop :=
  s.bus.get d = some ⟨b, .waitLatch⟩ ∧ b.cls = d

/-- A class waits for the fold latch with a write that a RELOAD has overtaken (R39). -/
def State.overtakenWith (s : State) (d : MasterClass) (b : Access) : Prop :=
  s.bus.get d = some ⟨b, .overtaken⟩ ∧ b.cls = d

/-- A class's write has been refused with a bus error. -/
def State.turnedAway (t : State) (d : MasterClass) : Prop :=
  t.bus.get d = none ∧ t.lastResponse.get d = some .busError

/-- What becomes of the writes that wait when the latch empties over a coverage unit `c`: in the order in which they
arrived, each that fails a check, or that a RELOAD has overtaken, is refused with BANK_REFUSED, the first that passes is
latched and claims its old-word read, and those behind it keep waiting; the latch stays empty when none passes (R25,
R26, R39). -/
def State.waitersTaken (s : State) (c : Coverage) (t : State) : Prop :=
  ∀ pre : List MasterClass, s.coverage.waiting.Nodup →
    (∀ d ∈ pre, ∃ b, s.overtakenWith d b ∨ (s.waitsWith d b ∧ ¬s.foldable c b)) →
    (s.coverage.waiting = pre →
        t.coverage.latch = none ∧ t.coverage.waiting = [] ∧ (∀ d ∈ pre, t.turnedAway d)
          ∧ (pre ≠ [] → t.control.flags.getLsbD (flagBit .bankRefused) = true))
      ∧ ∀ x cs b, s.coverage.waiting = pre ++ x :: cs → s.waitsWith x b → s.foldable c b →
          (∃ f, t.coverage.latch = some f ∧ f.cls = x ∧ f.addr = wordAddr b.addr.toNat ∧ f.new = b.data ∧ f.old = none
              ∧ f.void = false ∧ c.holdsWord f.addr f.bank f.tower)
            ∧ t.bus.get x = some ⟨b, .claim .foldRead⟩ ∧ t.coverage.waiting = cs ∧ (∀ d ∈ pre, t.turnedAway d)
            ∧ (∀ d ∈ cs, t.bus.get d = s.bus.get d)
            ∧ (pre ≠ [] → t.control.flags.getLsbD (flagBit .bankRefused) = true)

/-- The transmitter is IDLE with no tower at work, and every queued key's commanded is known (R65, R88). -/
def State.atRest (s : State) : Prop :=
  s.link.tx = .idle
    ∧ ∀ u : Tower, s.towers[u].hasWork = false
      ∧ ∀ sl ∈ s.towers[u].queue, (s.towers[u].recs[sl]).commanded.isSome = true

/-- A command taken with the transmitter IDLE leaves the towers and the link as it leaves them with the transmitter
busy, but for the search that follows it (R88, R89). -/
def State.searchesAfter (s : State) (c : Instr) : Prop :=
  ∃ t b, exec c s = .next t ∧ exec c { s with link := { s.link with tx := .gap } } = .next b
    ∧ t.towers = ({ b with link := { b.link with tx := .idle } } : State).search.towers
    ∧ t.link = ({ b with link := { b.link with tx := .idle } } : State).search.link

/-- No start and no firing waits for the order engine (R135). -/
def Engine.noneWaits (e : Engine) : Prop := (∀ k, (e.bindings.get k).pending = false) ∧ e.slot = none

/-- A chain has started at an index, tied to a binding or to none (R116, R135). -/
def State.chainStarted (s t : State) (i : Nat) (tie : Option Source) : Prop :=
  t.engine.state = .fetching ∧ t.engine.head = i ∧ t.engine.current = i ∧ t.engine.visited = 1 ∧ t.engine.tie = tie
    ∧ s.port.queue ++ [.orderRead t.engine.recordAddr] <+: t.port.queue

/-- What a firing of a source does: nothing to a disarmed binding, TRIGGER_MERGED when one waits already, else it waits
while a chain runs, and starts its chain when the engine is IDLE with nothing else waiting (R134, R135). -/
def State.fired (s t : State) (k : Source) : Prop :=
  ((s.engine.bindings.get k).armed = false → t.engine = s.engine)
    ∧ ((s.engine.bindings.get k).armed = true → (s.engine.bindings.get k).pending = true →
        t.engine = s.engine ∧ t.control.flags.getLsbD (flagBit .triggerMerged) = true)
    ∧ ((s.engine.bindings.get k).armed = true → (s.engine.bindings.get k).pending = false → s.engine.state ≠ .idle →
        t.engine = { s.engine with
          bindings := s.engine.bindings.put k { s.engine.bindings.get k with pending := true } })
    ∧ ((s.engine.bindings.get k).armed = true → s.engine.state = .idle → s.engine.noneWaits →
        s.chainStarted t (s.engine.bindings.get k).index (some k)
          ∧ t.engine.bindings.get k = s.engine.bindings.get k)

/-- A command on a control word is taken by the event: its answer write claims the port (R11). -/
def State.commanded (s t : State) (v : CtlWord) : Prop :=
  ∃ cls a r i, s.bus.get cls = none ∧ t.bus.get cls = some ⟨a, .claim (.answer v r i)⟩

/-- A request put into the free channel, at the queue's tail, with the mirror pointer it leaves (R17, R161). -/
def State.offering (s : State) (c : ChannelReq) (r : IReq) (p : CtlWord) : State :=
  { s with
    control := { s.control with channel := some c, pointer := p }
    port := { s.port with queue := s.port.queue ++ [r] } }

/-- The row of a fetched order is that of a verb code (12.3). -/
def verbRow (c : Instr) (verb : Nat) : Prop :=
  (c = .nop ∧ verb = 0) ∨ (c = .preset ∧ verb = 1) ∨ (c = .trimSet ∧ verb = 2) ∨ (c = .trimAdd ∧ verb = 3)
    ∨ (c = .corrClear ∧ verb = 4) ∨ (c = .hold ∧ verb = 5) ∨ (c = .release ∧ verb = 6)
    ∨ (c = .clearBank ∧ verb = 7) ∨ (c = .lockBank ∧ verb = 8) ∨ (c = .unlockBank ∧ verb = 9)
    ∨ (c = .swapBanks ∧ verb = 10) ∨ (c = .orderLoopOn ∧ verb = 11) ∨ (c = .orderLoopOff ∧ verb = 12)
    ∨ (c = .verbFault ∧ 13 ≤ verb)

/-- The rows by which memory's answers to the words of a request reach the part, each with the answers it carries: one
for each word of a write, one error bit for each word of a SLOT_READ; of an ORDER_READ, which changes no word of memory,
the row of its verb, ORDER_CANCELLED, or ORDER_FETCH_ERROR (R2, R19, R116). -/
def completes (c : Instr) (r : IReq) (anss : List MemAnswer) : Prop :=
  (∃ a ans, r = .clearWrite a ∧ c = .clearWriteComplete ans ∧ anss = [ans])
    ∨ (∃ a h d a6 a7, r = .orderWrite a h d ∧ c = .orderWriteComplete a6 a7 ∧ anss = [a6, a7])
    ∨ (∃ i a errors, r = .slotRead i a ∧ c = .slotReadComplete errors
        ∧ anss = (List.range 31).map (fun n => if errors.getLsbD n then .error false else .ok))
    ∨ (∃ v a ans, r = .mirrorWrite v a ∧ c = .mirrorWriteComplete ans ∧ anss = [ans])
    ∨ (∃ a d ans, r = .noticeWrite a d ∧ c = .noticeWriteComplete ans ∧ anss = [ans])
    ∨ (∃ a d ans, r = .preloadWrite a d ∧ c = .preloadWriteComplete ans ∧ anss = [ans])
    ∨ (∃ a, r = .orderRead a ∧ c = .orderFetchError ∧ anss = [.error false])
    ∨ (∃ a, r = .orderRead a ∧ (c = .orderCancelled ∨ ∃ verb, verbRow c verb) ∧ anss = [])

/-- A fetched order has faulted with a code: its write-back has begun, with all that goes with it in the engine, and
nothing has changed in any other block (R117, R122, R136). -/
def State.onlyFaulted (s t : State) (ws : List PortWord) (code : FaultCode) : Prop :=
  s.writesBack t ws (.fault code) ∧ t.bus = s.bus ∧ s.sameSetup t ∧ t.coverage = s.coverage ∧ s.sameTowers t
    ∧ t.loop = s.loop ∧ t.loader = s.loader ∧ s.sameSettings t ∧ s.sameEvents t

/-- A COVERAGE entry has an address in common with another entry of the table (R23). -/
def sharesAddress (tab : WindowTable) (w : Window) : Prop :=
  w.kind = .coverage
    ∧ ∃ x, some x ∈ tab ∧ x.kind ≠ .coverage ∧ w.base < x.base + x.size ∧ x.base < w.base + w.size

/-- The load has ended PASS_ONLY: CONFIG_FAULT, no window, no coverage range, no geometry, both banks STALE with
every sum 0 and every frame fit, bank A ACTIVE, the mirror set empty; GLOBAL's settings and L take effect when it was
good, and L is 16 otherwise (R39, R168, R171, R176). -/
def State.loadFailed (s t : State) : Prop :=
  t.loader.state = .idle ∧ t.loader.staged = Staged.empty ∧ t.control.part = .passOnly ∧ s.raised .configFault t
    ∧ t.windows = [none, none, none, none, none, none, none, none] ∧ t.coverage.range = none
    ∧ (∀ u : Tower, t.coverage.geometry[u] = none) ∧ t.coverage.active = .a ∧ t.coverage.cursor = none
    ∧ (∀ bk, (t.coverage.banks.get bk).state = .stale)
    ∧ (∀ bk (u : Tower), t.coverage.frame bk u = ⟨true, Vector.replicate 48 0⟩)
    ∧ (∀ f, s.coverage.latch = some f → t.coverage.latch = some { f with void := true })
    ∧ t.control.mirror = 0 ∧ t.control.pointer = 31
    ∧ (∀ g, s.loader.staged.globals = some g → t.control.enables = g.enables ∧ t.control.mode = g.mode
        ∧ t.control.noticeAddr = g.noticeAddr ∧ t.control.noticeDatum = g.noticeDatum ∧ t.port.limit = g.limit)
    ∧ (s.loader.staged.globals = none → t.control.enables = s.control.enables ∧ t.control.mode = s.control.mode
        ∧ t.control.noticeAddr = s.control.noticeAddr ∧ t.control.noticeDatum = s.control.noticeDatum
        ∧ t.port.limit = 16)
    ∧ t.curves = s.curves ∧ t.timeout = s.timeout ∧ s.sameMemory t ∧ t.bus = s.bus ∧ s.sameTowers t
    ∧ t.engine = s.engine ∧ t.loop = s.loop

/-- The coverage unit at the end of a load with new range and geometry records: with a kept range of the same base and
size the banks keep their states, sums and roles and a tower's frames become UNFIT where its geometry has changed; in
every other case the banks are STALE and fresh and bank A is ACTIVE; the new records are installed (R39). -/
def Coverage.loadEnded (c d : Coverage) (r : Option CoverRange) (g : Tower → Option Geometry) : Prop :=
  (∀ u : Tower, d.geometry[u] = g u) ∧ d.range = r
    ∧ (∀ x, c.range = some x → r = some x →
        d.active = c.active ∧ (∀ bk, (d.banks.get bk).state = (c.banks.get bk).state)
          ∧ (∀ bk (u : Tower), d.frame bk u
              = ⟨if c.geometry[u] = g u then (c.frame bk u).fit else false, (c.frame bk u).sums⟩)
          ∧ ∀ f, c.latch = some f → d.latch
              = some { f with void := f.void || decide (c.geometry[f.tower] ≠ g f.tower) })
    ∧ (c.range = none ∨ c.range ≠ r →
        d.active = .a ∧ d.cursor = none ∧ (∀ bk, (d.banks.get bk).state = .stale)
          ∧ (∀ bk (u : Tower), d.frame bk u = ⟨true, Vector.replicate 48 0⟩)
          ∧ ∀ f, c.latch = some f → d.latch = some { f with void := true })

end Sys2Proof.Machine
end

