-- ==== Sys2Proof/Certificates/Slice0/Obligations.lean ====
section
/-! DEFINITION. The statements for the provers. Each says what a command, or the machine, does by the rules its
docstring names; hypotheses are conditions on the state and the operands alone. -/

open Sys2Proof Sys2Proof.Machine

/-! ### The machine -/

/-- A step is exec of the front command on the queue's rest; on an empty queue the block idles, which is the model's
choice (log 6, log 20). -/
def Obligations.StepRunsTheFrontCommand : Prop :=
  (∀ (c : Instr) (rest : List Instr) (s : State), s.pending = c :: rest →
      step s = exec c { s with pending := rest })
    ∧ ∀ s : State, s.pending = [] → step s = .next s

/-- Every command has a next state in every state, and exec leaves the queue of commands alone. Both rest on choices
of the model: an event that cannot occur in the state it meets leaves that state as it is (log 1), and the queue of
commands is filled from outside the machine alone (log 20). -/
def Obligations.EveryCommandHasANextState : Prop :=
  ∀ (i : Instr) (s : State), ∃ t, exec i s = .next t ∧ t.pending = s.pending

/-- The values the chapters' tables give after a pin reset (R4, R20, R38, R40, R57, R80, R97, R113, R130, R141, R155,
R168, R178), with no access in progress and, as a load begins at a pin reset (R171), the read of the header sent to
the configuration memory (R169; log 31); the marks of overReset, a field of the model's own, are clear (log 33). These
are what the names of the reset values stand for, where another statement says that a block takes them. -/
def Obligations.ResetHoldsTheSpecifiedValues : Prop :=
  State.reset.windows = noWindows ∧ State.reset.port = ⟨none, .service, [], 0, 16⟩
    ∧ (∀ c : MasterClass, State.reset.bus.get c = none) ∧ State.reset.coverage.waiting = []
    ∧ State.reset.coverage.range = none ∧ State.reset.coverage.active = .a
    ∧ State.reset.coverage.cursor = none ∧ State.reset.coverage.latch = none
    ∧ (∀ bk : BankId, (State.reset.coverage.banks.get bk).state = .stale)
    ∧ (∀ (bk : BankId) (t : Tower), State.reset.coverage.frame bk t = ⟨true, Vector.replicate 48 0⟩)
    ∧ (∀ t : Tower, State.reset.coverage.geometry[t] = none)
    ∧ State.reset.curves = List.replicate 16 linearCurve
    ∧ (∀ t : Tower, State.reset.towers[t].service = .unconfigured ∧ State.reset.towers[t].parkHold = true
        ∧ State.reset.towers[t].queue = [] ∧ State.reset.towers[t].flight = []
        ∧ State.reset.towers[t].tagCounter = 0 ∧ State.reset.towers[t].timeouts = 0
        ∧ State.reset.towers[t].loop = .off ∧ State.reset.towers[t].settle = 0
        ∧ State.reset.towers[t].settings = none ∧ State.reset.towers[t].address = none
        ∧ State.reset.towers[t].haltPending = false ∧ State.reset.towers[t].queryPending = false
        ∧ ∀ sl : Slot, State.reset.towers[t].recs[sl]
            = ⟨0, 0, 0, false, none, 0, none, none, .idle, 0, 0, none, none⟩)
    ∧ State.reset.timeout = 20 ∧ State.reset.link = ⟨.idle, 11, .awaitRest⟩
    ∧ State.reset.levels = ⟨false, false, false⟩
    ∧ State.reset.engine.state = .idle ∧ State.reset.engine.head = 0 ∧ State.reset.engine.current = 0
    ∧ State.reset.engine.visited = 0 ∧ State.reset.engine.running = none ∧ State.reset.engine.stop = false
    ∧ State.reset.engine.table = none ∧ State.reset.engine.slot = none ∧ State.reset.engine.divisor = 1
    ∧ State.reset.engine.counter = 0 ∧ State.reset.engine.tie = none
    ∧ (∀ k : Source, State.reset.engine.bindings.get k = ⟨false, false, 0⟩)
    ∧ (∀ i : Fin 16, State.reset.loop.slots[i] = .free ∧ State.reset.loop.overReset[i] = 0)
    ∧ State.reset.loop.readList = []
    ∧ State.reset.loop.status = ⟨.none, 0, none, none, 0⟩
    ∧ State.reset.control.part = .loading ∧ State.reset.control.flags = 0 ∧ State.reset.control.enables = 0
    ∧ State.reset.control.mode = .clearOnes ∧ State.reset.control.line = false
    ∧ State.reset.control.noticeAddr = 0 ∧ State.reset.control.noticeDatum = 0
    ∧ State.reset.control.noticePending = false ∧ State.reset.control.capture = ⟨false, 0, .console⟩
    ∧ State.reset.control.mirror = 0 ∧ State.reset.control.pointer = 31
    ∧ (∀ w : CtlWord, State.reset.control.last[w] = .accepted) ∧ State.reset.control.channel = none
    ∧ State.reset.engine.startIndex = 0 ∧ State.reset.engine.stopIndex = 0 ∧ State.reset.loop.reading = false
    ∧ State.reset.loader.state = .readingHeader ∧ State.reset.loader.staged.globals = none
    ∧ State.reset.loader.staged.windows = noWindows ∧ State.reset.loader.staged.preload = []
    ∧ State.reset.loader.staged.curves = List.replicate 16 linearCurve
    ∧ (∀ t : Tower, State.reset.loader.staged.towers[t] = none)
    ∧ State.reset.loader.spi.csN = false ∧ State.reset.loader.spi.sent = [0x03#8, 0, 0]
    ∧ noWindows = List.replicate 8 none ∧ linearCurve = [0, 100, 200, 300, 400, 500, 600, 700, 800, 900, 1000]
    ∧ linearCurves = List.replicate 16 linearCurve ∧ State.reset.coverage = Coverage.reset
    ∧ (∀ t : Tower, State.reset.towers[t] = TowerState.reset) ∧ State.reset.link = Link.reset
    ∧ State.reset.engine = Engine.reset ∧ State.reset.loop = LoopUnit.reset ∧ State.reset.control = Control.reset
    ∧ State.reset.loader = Loader.reset

/-- The state after reset meets the five invariants. -/
def Obligations.ResetMeetsTheInvariants : Prop :=
  State.reset.memCanonical ∧ State.reset.lineExact ∧ State.reset.inRanges ∧ State.reset.accountOk
    ∧ State.reset.accessesOk

/-- Every step keeps job memory in its canonical form. -/
def Obligations.EveryStepKeepsMemoryCanonical : Prop :=
  ∀ s t : State, s.memCanonical → step s = .next t → t.memCanonical

/-- Every step keeps the interrupt line asserted exactly when an event flag and its enable are both set (R165). -/
def Obligations.EveryStepKeepsTheLineExact : Prop :=
  ∀ s t : State, s.lineExact → step s = .next t → t.lineExact

/-- Every step keeps every target within 0 to Omax, every trim within 300 and every correction within 200 of 0 (R53),
every ramp with pulses left to come (R46), with the correction limits within R142's range and no section installed
while a load is under way (R57). -/
def Obligations.EveryStepKeepsTheRanges : Prop :=
  ∀ s t : State, s.inRanges → step s = .next t → t.inRanges

/-- Every step keeps the move account: queue and in-flight set hold exactly the keys in QUEUED and in IN_FLIGHT or
RETARGET, no tower has more than four moves in flight, and a move timer runs exactly for a key in flight (R61, R62).
Every step keeps the press-bus accesses in order, too: the access a class has in progress is that class's own (R1),
and each class on the list of waiting coverage writes, on it once, has an access that waits for the fold latch,
overtaken by a RELOAD or not (R25, R39). -/
def Obligations.EveryStepKeepsTheMoveAccount : Prop :=
  (∀ s t : State, s.accountOk → step s = .next t → t.accountOk)
    ∧ ∀ s t : State, s.accessesOk → step s = .next t → t.accessesOk

/-- Exactly one bank is ACTIVE and the other STANDBY (R32). -/
def Obligations.OneBankIsActive : Prop :=
  ∀ s : State,
    (s.coverage.role false = .a ∧ s.coverage.role true = .b)
      ∨ (s.coverage.role false = .b ∧ s.coverage.role true = .a)

/-- A curve evaluated at a key coverage (R41). -/
def Obligations.CurveEvaluation : Prop :=
  ∀ (c : Curve) (x : Nat), c.length = 11 → curveValid c = true → x ≤ 1000 →
    (x = 1000 → evalCurve c x = c.getD 10 0)
      ∧ (x ≠ 1000 →
          evalCurve c x
              = c.getD (x / 100) 0 + (c.getD (x / 100 + 1) 0 - c.getD (x / 100) 0) * (x % 100) / 100
            ∧ c.getD (x / 100) 0 ≤ c.getD (x / 100 + 1) 0
            ∧ c.getD (x / 100) 0 ≤ evalCurve c x ∧ evalCurve c x ≤ c.getD (x / 100 + 1) 0)
      ∧ evalCurve c x ≤ 1000
      ∧ (x % 100 = 0 → evalCurve c x = c.getD (x / 100) 0)

/-- A served tower sends one frame: a pending HALT, else a pending QUERY ALL, else the head of its queue is dispatched
when it is dispatchable; otherwise nothing is sent and the head stays; a dispatch changes the record of that key, the
queue, the in-flight set and the tag counter, and nothing else of any tower (R65, R66, R67, R90, R91). The frame's
eight bytes in their order, and the levels of each on the line: a start bit at 0, eight data bits with the least
significant first, a stop bit at 1; at rest otherwise; ten such levels are received as that byte; the check byte is
the CRC-8 of the six bytes before it (R82, R83, R84, 12.5). The key number of a frame is the key's index, 63 for the
fountain (R83); READY, PRINTING and PARKING admit moves (R55); a tower has work when it is configured and holds a
pending frame or a dispatchable head (R66, R89). -/
def Obligations.ServiceSendsOneFrame : Prop :=
  (∀ (s : State) (t : Tower),
    (s.towers[t].haltPending = true →
        (s.serve t).link.tx = .sending (frameBytes (s.towers[t].address.getD 0) kindHalt 255#8 0 0)
          ∧ (s.serve t).towers[t] = { s.towers[t] with haltPending := false })
      ∧ (s.towers[t].haltPending = false → s.towers[t].queryPending = true →
        (s.serve t).link.tx = .sending (frameBytes (s.towers[t].address.getD 0) kindQuery 255#8 0 0)
          ∧ (s.serve t).towers[t] = { s.towers[t] with queryPending := false })
      ∧ (s.towers[t].haltPending = false → s.towers[t].queryPending = false →
        ∀ (sl : Slot) (q : List Slot), s.towers[t].queue = sl :: q →
          admitsMoves s.towers[t].service = true → s.towers[t].flight.length < 4 →
          (s.towers[t].recs[sl]).commanded.isSome = true →
            (s.serve t).link.tx
                = .sending (frameBytes (s.towers[t].address.getD 0) kindMove (linkNumber sl)
                    (s.towers[t].tagCounter.setWidth 8) (BitVec.ofNat 16 (s.towers[t].recs[sl]).target))
              ∧ (s.serve t).towers[t] = { s.towers[t] with
                  queue := q
                  flight := s.towers[t].flight ++ [sl]
                  tagCounter := s.towers[t].tagCounter + 1
                  recs := (s.serve t).towers[t].recs }
              ∧ (∀ x : Slot, x ≠ sl → (s.serve t).towers[t].recs[x] = s.towers[t].recs[x])
              ∧ ((s.serve t).towers[t].recs[sl]) = { s.towers[t].recs[sl] with
                  commanded := some (s.towers[t].recs[sl]).target
                  tag := s.towers[t].tagCounter
                  move := .inFlight
                  timer := some s.timeout })
      ∧ (s.towers[t].haltPending = false → s.towers[t].queryPending = false →
        (s.towers[t].queue = [] ∨ admitsMoves s.towers[t].service = false ∨ 4 ≤ s.towers[t].flight.length
          ∨ ∃ sl q, s.towers[t].queue = sl :: q ∧ (s.towers[t].recs[sl]).commanded = none) →
        s.serve t = s)
      ∧ (s.towers[t].hasWork = true → (s.serve t).link.pointer = t)
      ∧ ∀ v : Tower, v ≠ t → (s.serve t).towers[v] = s.towers[v])
  ∧ (kindMove = 0x01#8 ∧ kindHalt = 0x02#8 ∧ kindQuery = 0x03#8
    ∧ ∀ (a k key tag : Byte) (p : Half), frameBytes a k key tag p
        = [0xA5#8, a, k, key, tag, p.extractLsb' 8 8, p.extractLsb' 0 8,
            crc8 [a, k, key, tag, p.extractLsb' 8 8, p.extractLsb' 0 8]])
  ∧ (∀ b : Byte,
      serialByte b = [false, b.getLsbD 0, b.getLsbD 1, b.getLsbD 2, b.getLsbD 3, b.getLsbD 4, b.getLsbD 5,
          b.getLsbD 6, b.getLsbD 7, true]
        ∧ readByte (serialByte b) = some (.byte b true))
  ∧ (∀ frame : List Byte, (TxState.sending frame).levels = frame.flatMap serialByte)
  ∧ TxState.idle.levels = [] ∧ TxState.gap.levels = []
  ∧ crc8 [] = 0xFF#8
  ∧ (∀ (bs : List Byte) (b : Byte), crc8 (bs ++ [b])
      = Nat.repeat (fun r : Byte => if r.getLsbD 7 then r <<< 1 ^^^ 0x1D#8 else r <<< 1) 8 (crc8 bs ^^^ b))
  ∧ (∀ sl : Slot, linkNumber sl = if sl = fountainSlot then 63#8 else BitVec.ofNat 8 sl.val)
  ∧ (∀ x : Service, admitsMoves x = true ↔ x = .ready ∨ x = .printing ∨ x = .parking)
  ∧ ∀ tw : TowerState, tw.hasWork = true
      ↔ tw.service ≠ .unconfigured
        ∧ (tw.haltPending = true ∨ tw.queryPending = true
          ∨ ∃ sl q, tw.queue = sl :: q ∧ admitsMoves tw.service = true ∧ tw.flight.length < 4
            ∧ (tw.recs[sl]).commanded.isSome = true)

/-! ### Press-bus accesses -/

/-- PLAIN_ACCESS: an access the decoder finds plain claims the memory port, and nothing else changes, in the
control unit or elsewhere, but the request that the control unit offers on a free channel (R5, R8, R9, R15, R161). The
window of an access, which this statement and the others over the press bus name: while the part is RUNNING the valid
entry of lowest index whose base to base + size − 1 contains the address, and none when no entry does or the part is not
RUNNING (R4, R5). A class's bit in an entry's masks (R3), the owned control words (12.2), an access of a full word and
the word that an address lies in (R1, R8). -/
def Obligations.PlainAccessClaimsThePort : Prop :=
  (∀ (s : State) (a : Access), s.bus.get a.cls = none → s.isPlain a →
    ∃ t, exec (.plainAccess a) s = .next t ∧ t.bus.get a.cls = some ⟨a, .claim .plain⟩
      ∧ t.lastResponse = s.lastResponse ∧ s.sameOthers a.cls t ∧ s.sameMemory t ∧ s.sameControl t ∧ s.sameSetup t
      ∧ s.sameBlocks t ∧ s.sameSettings t ∧ s.sameEvents t)
  ∧ (∀ (s : State) (a : Access) (w : Window), s.windowOf a = some w ↔ s.control.part = .running
    ∧ ∃ i : Nat, s.windows[i]? = some (some w) ∧ (w.base ≤ a.addr.toNat ∧ a.addr.toNat < w.base + w.size)
      ∧ ∀ (j : Nat) (x : Window), j < i → s.windows[j]? = some (some x) →
        ¬(x.base ≤ a.addr.toNat ∧ a.addr.toNat < x.base + x.size))
  ∧ (∀ (s : State) (a : Access), s.windowOf a = none ↔ s.control.part ≠ .running
    ∨ ∀ w : Window, some w ∈ s.windows → ¬(w.base ≤ a.addr.toNat ∧ a.addr.toNat < w.base + w.size))
  ∧ (∀ m : BitVec 4, inMask m .console = m.getLsbD 0 ∧ inMask m .prepress = m.getLsbD 1
    ∧ inMask m .scanbar = m.getLsbD 2 ∧ inMask m .service = m.getLsbD 3)
  ∧ (∀ v : CtlWord, ownedWord v = true ↔ v.val ≤ 14 ∨ (16 ≤ v.val ∧ v.val ≤ 27))
  ∧ (∀ (cls : MasterClass) (addr : Addr) (d : Word), fullWrite cls addr d = ⟨cls, addr, .write, 15, d⟩)
  ∧ (∀ a : Access, Access.full a = true ↔ a.enables = 15) ∧ ∀ x : Nat, wordAddr x = x / 4 * 4

/-- REFUSED_WRITE: a write whose class is in its window's refuse mask is answered with a bus error, raises PROTECT_HIT
and is reported to the capture; memory stays (R6). -/
def Obligations.RefusedWriteIsAnswered : Prop :=
  ∀ (s : State) (cls : MasterClass) (addr : Addr) (en : BitVec 4) (d : Word) (w : Window),
    s.bus.get cls = none → s.windowOf ⟨cls, addr, .write, en, d⟩ = some w → inMask w.refuseMask cls = true →
    ∃ t, exec (.refusedWrite cls addr en d) s = .next t ∧ t.bus.get cls = none
      ∧ t.lastResponse.get cls = some .busError ∧ s.raised .protectHit t
      ∧ s.captured ⟨cls, addr, .write, en, d⟩ t ∧ s.sameOthers cls t ∧ s.sameMemory t ∧ s.samePort t
      ∧ s.sameSetup t ∧ s.sameBlocks t ∧ s.sameSettings t

/-- MISFIT_WRITE: a matched partial write in COVERAGE, MEASURE, CONTROL or LIVE, and a matched full-word LIVE write to
no present trim word, raise WINDOW_MISFIT and are refused (R6, R7, R14). Which offsets are present trim words
TrimWriteSetsTheTrim states. -/
def Obligations.MisfitWriteIsRefused : Prop :=
  ∀ (s : State) (cls : MasterClass) (addr : Addr) (en : BitVec 4) (d : Word) (w : Window),
    s.matched w.kind w ⟨cls, addr, .write, en, d⟩ →
    ((en ≠ 15 ∧ w.kind ≠ .orders ∧ w.kind ≠ .guard)
      ∨ (en = 15 ∧ w.kind = .live ∧ s.trimTarget (wordAddr addr.toNat - w.base) = none)) →
    ∃ t, exec (.misfitWrite cls addr en d) s = .next t ∧ t.bus.get cls = none
      ∧ t.lastResponse.get cls = some .busError ∧ s.raised .windowMisfit t
      ∧ s.captured ⟨cls, addr, .write, en, d⟩ t ∧ s.sameOthers cls t ∧ s.sameMemory t ∧ s.samePort t
      ∧ s.sameSetup t ∧ s.sameBlocks t ∧ s.sameSettings t

/-- LIVE_READ: a read in the LIVE window is answered on arrival with the enabled bytes of the word shown, zeros for a
class that is not matched; nothing else changes but what the control unit offers (R13). What the LIVE window shows: a
present key's target, commanded, reported, base, correction, move state, fault, hold, ramp, trim and coverage in both
banks at their places, 65535 for UNKNOWN; the tower summary; zero in every word of a slot that is not present, in the
words and bits that hold no field, in every word of an UNCONFIGURED tower (its service state is code 0) and in the
areas of no tower (R12, R13, 12.1, 12.4). The coverage of a slot is 65535 when not available, else its sum × 1000 div
(area × 255), 0 for an empty area, the fountain's over the sums and areas of every key (R24). -/
def Obligations.LiveReadIsAnswered : Prop :=
  (∀ (s : State) (cls : MasterClass) (addr : Addr) (en : BitVec 4) (w : Window),
    s.bus.get cls = none → s.windowOf ⟨cls, addr, .read, en, 0⟩ = some w → w.kind = .live →
    ∃ t, exec (.liveRead cls addr en) s = .next t ∧ t.bus.get cls = none
      ∧ t.lastResponse.get cls = some (.okRead en
          ((if inMask w.matchMask cls then s.liveWord (wordAddr addr.toNat - w.base) else 0) &&& enableMask en))
      ∧ s.sameOthers cls t ∧ s.sameMemory t ∧ s.sameControl t ∧ s.sameSetup t ∧ s.sameBlocks t ∧ s.sameSettings t
      ∧ s.sameEvents t)
  ∧ ((∀ (s : State) (t : Tower) (sl : Slot), s.towers[t].configured = true → s.towers[t].present sl = true →
      (s.towers[t].recs[sl]).target < 65536 →
      (∀ p, (s.towers[t].recs[sl]).commanded = some p → p < 65536) →
      s.liveWord (1024 * t.val + 12 * sl.val)
          = BitVec.ofNat 16 (match (s.towers[t].recs[sl]).commanded with
              | none => 65535
              | some p => p) ++ BitVec.ofNat 16 (s.towers[t].recs[sl]).target
        ∧ s.liveWord (1024 * t.val + 800 + 4 * sl.val)
          = (0 : Half) ++ BitVec.ofInt 16 (s.towers[t].recs[sl]).trim)
    ∧ (∀ (s : State) (t : Tower) (sl : Slot), s.towers[t].present sl = false →
      s.liveWord (1024 * t.val + 12 * sl.val) = 0 ∧ s.liveWord (1024 * t.val + 12 * sl.val + 4) = 0
        ∧ s.liveWord (1024 * t.val + 12 * sl.val + 8) = 0 ∧ s.liveWord (1024 * t.val + 600 + 4 * sl.val) = 0
        ∧ s.liveWord (1024 * t.val + 800 + 4 * sl.val) = 0)
    ∧ (∀ (s : State) (t : Tower) (o : Nat),
      ((588 ≤ o ∧ o < 600) ∨ (796 ≤ o ∧ o < 800) ∨ (996 ≤ o ∧ o < 1000) ∨ (1008 ≤ o ∧ o < 1024)) →
      s.liveWord (1024 * t.val + o) = 0)
    ∧ ∀ (s : State) (o : Nat), 12 * 1024 ≤ o → s.liveWord o = 0)
  ∧ (∀ (s : State) (t : Tower) (sl : Slot), s.towers[t].configured = true → s.towers[t].present sl = true →
      s.liveWord (1024 * t.val + 12 * sl.val + 4)
          = BitVec.ofNat 16 (s.towers[t].recs[sl]).base ++ BitVec.ofNat 16 (match (s.towers[t].recs[sl]).reported with
              | none => 65535
              | some p => p)
        ∧ (∀ w, w = s.liveWord (1024 * t.val + 12 * sl.val + 8) →
            w.extractLsb' 0 16 = BitVec.ofInt 16 (s.towers[t].recs[sl]).correction
              ∧ w.extractLsb' 16 3 = (match (s.towers[t].recs[sl]).move with
                  | .idle => 0
                  | .queued => 1
                  | .inFlight => 2
                  | .retarget => 3
                  | .fault => 4)
              ∧ w.extractLsb' 19 2 = (match (s.towers[t].recs[sl]).fault with
                  | none => 0
                  | some .stall => 1
                  | some .timeout => 2)
              ∧ w.getLsbD 21 = (s.towers[t].recs[sl]).hold ∧ w.getLsbD 22 = (s.towers[t].recs[sl]).ramp.isSome
              ∧ w.extractLsb' 23 9 = 0)
        ∧ s.liveWord (1024 * t.val + 600 + 4 * sl.val)
            = BitVec.ofNat 16 (s.coverage.read (s.coverage.role true) t sl)
              ++ BitVec.ofNat 16 (s.coverage.read (s.coverage.role false) t sl))
  ∧ (∀ (s : State) (t : Tower), s.towers[t].configured = true →
      (∀ w, w = s.liveWord (1024 * t.val + 1000) →
          w.extractLsb' 0 3 = (match s.towers[t].service with
              | .unconfigured => 0
              | .parked => 1
              | .parking => 2
              | .ready => 3
              | .printing => 4
              | .faulted => 5)
            ∧ w.getLsbD 3 = s.towers[t].parkHold
            ∧ w.extractLsb' 4 2 = (match s.towers[t].loop with
              | .off => 0
              | .settling => 1
              | .armed => 2)
            ∧ w.extractLsb' 8 6 = BitVec.ofNat 6 s.towers[t].queue.length
            ∧ w.extractLsb' 6 2 = 0 ∧ w.extractLsb' 14 18 = 0)
        ∧ ∀ w, w = s.liveWord (1024 * t.val + 1004) →
          w.extractLsb' 0 6 = BitVec.ofNat 6 s.towers[t].flight.length
            ∧ w.extractLsb' 8 6 = BitVec.ofNat 6 ((List.finRange 49).filter (fun sl =>
                s.towers[t].present sl && (s.towers[t].recs[sl]).commanded.isNone)).length
            ∧ w.extractLsb' 16 6 = BitVec.ofNat 6 ((List.finRange 49).filter (fun sl =>
                s.towers[t].present sl && decide ((s.towers[t].recs[sl]).move = .fault))).length
            ∧ w.extractLsb' 6 2 = 0 ∧ w.extractLsb' 14 2 = 0 ∧ w.extractLsb' 22 10 = 0)
  ∧ (∀ (s : State) (t : Tower) (o : Nat), s.towers[t].service = .unconfigured → o < 1024 →
      s.liveWord (1024 * t.val + o) = 0)
  ∧ ∀ (c : Coverage) (bk : BankId) (t : Tower) (sl : Slot),
    (c.geometry[t] = none ∨ (c.frame bk t).fit = false
        ∨ ((c.banks.get bk).state ≠ .opened ∧ (c.banks.get bk).state ≠ .locked) → c.read bk t sl = 65535)
    ∧ ∀ g r, c.geometry[t] = some g → c.range = some r → (c.frame bk t).fit = true →
        ((c.banks.get bk).state = .opened ∨ (c.banks.get bk).state = .locked) →
        (∀ (k : Fin 48) (n : Nat), sl.val = k.val → (c.frame bk t).sums[k] = n →
          c.read bk t sl = (if (g.bound (k.val + 1) - g.bound k.val) * (r.size / 32 / g.w) = 0 then 0
            else n * 1000 / ((g.bound (k.val + 1) - g.bound k.val) * (r.size / 32 / g.w) * 255)))
        ∧ (∀ n : Nat, sl.val = 48 →
          (((List.finRange 48).filter (fun k => decide (k.val < g.k))).map (fun k => (c.frame bk t).sums[k])).sum = n →
          c.read bk t sl = (if (g.bound g.k - g.bound 0) * (r.size / 32 / g.w) = 0 then 0
            else n * 1000 / ((g.bound g.k - g.bound 0) * (r.size / 32 / g.w) * 255)))

/-- TRIM_WRITE: a matched full-word LIVE write to a present trim word stores the clamped trim, recomposes the record
and answers OK without touching memory; every other record keeps its values (R14, R48, R53). With the transmitter
busy, so that it dispatches nothing at once, the key is handed on as its target has changed: from IDLE to the queue's
tail, in flight to RETARGET, out of the queue where the target is the commanded again; nothing else of any tower's
move account changes (R55). The composed target: 0 under the record's hold or the tower's park-hold, else the sum of
ramp value or base, trim and correction, clamped to 0 to Omax, for the fountain to 0 to 1000 and with correction 0
(R53); 0 in an UNCONFIGURED tower (R56). The ramp value: from + (to − from) × done div total, rounded toward zero,
from when done is 0, and between from and to (R46). The trim word an offset of the window lies in: that of a slot of
tower t is the word at 1024 t + 800 + 4 × slot, where the slot is present, and no other offset, of a slot that is not
present or in the areas 12 to 15, is one (R12, R14, 12.4). -/
def Obligations.TrimWriteSetsTheTrim : Prop :=
  (∀ (s : State) (cls : MasterClass) (addr : Addr) (trim rest : Half) (w : Window) (u : Tower) (sl : Slot),
    s.matched .live w (fullWrite cls addr (rest ++ trim)) →
    s.trimTarget (wordAddr addr.toNat - w.base) = some (u, sl) →
    ∃ t, exec (.trimWrite cls addr trim rest) s = .next t ∧ t.bus.get cls = none
      ∧ t.lastResponse.get cls = some .ok
      ∧ (t.towers[u].recs[sl]).trim = clampInt (-300) 300 trim.toInt
      ∧ (t.towers[u].recs[sl]).target
          = composed s.towers[u].cfg s.towers[u].parkHold sl
              { s.towers[u].recs[sl] with trim := clampInt (-300) 300 trim.toInt }
      ∧ (t.towers[u].recs[sl]).base = (s.towers[u].recs[sl]).base
      ∧ (t.towers[u].recs[sl]).correction = (s.towers[u].recs[sl]).correction
      ∧ (t.towers[u].recs[sl]).hold = (s.towers[u].recs[sl]).hold
      ∧ (t.towers[u].recs[sl]).ramp = (s.towers[u].recs[sl]).ramp
      ∧ (∀ (v : Tower) (x : Slot), (v, x) ≠ (u, sl) →
          (t.towers[v].recs[x]).values = (s.towers[v].recs[x]).values)
      ∧ (s.link.tx ≠ .idle → s.handedOn t)
      ∧ s.sameOthers cls t ∧ s.sameMemory t ∧ s.samePort t ∧ s.sameSetup t ∧ t.coverage = s.coverage
      ∧ t.engine = s.engine ∧ t.loop = s.loop ∧ t.loader = s.loader ∧ s.sameSettings t ∧ s.sameEvents t)
  ∧ (∀ (park : Bool) (sl : Slot) (r : KeyRec), composed none park sl r = 0
    ∧ ∀ c : KeyCfg,
      (r.hold = true ∨ park = true → composed (some c) park sl r = 0)
        ∧ (r.hold = false → park = false → ∀ omax corr : Int,
          omax = (if sl = fountainSlot then 1000 else (c.omax : Int)) →
          corr = (if sl = fountainSlot then 0 else r.correction) →
          (composed (some c) park sl r : Int) = max 0 (min omax (r.rb + r.trim + corr))))
  ∧ (∀ r : KeyRec, (r.ramp = none → r.rb = r.base)
    ∧ ∀ p, r.ramp = some p →
      r.rb = (p.from_ : Int) + (((p.dest : Int) - p.from_) * p.done).tdiv p.total
        ∧ (p.done = 0 → r.rb = p.from_)
        ∧ (p.done ≤ p.total → min (p.from_ : Int) p.dest ≤ r.rb ∧ r.rb ≤ max (p.from_ : Int) p.dest))
  ∧ (∀ lo hi x : Int, lo ≤ hi → clampInt lo hi x = max lo (min hi x))
  ∧ (∀ r : KeyRec, r.rbOpening = r.rb.toNat)
  ∧ ∀ (s : State) (o : Nat),
    (∀ (u : Tower) (sl : Slot), s.trimTarget o = some (u, sl)
      ↔ o / 4 * 4 = 1024 * u.val + 800 + 4 * sl.val ∧ s.towers[u].present sl = true)
    ∧ (s.trimTarget o = none ↔ ∀ (u : Tower) (sl : Slot),
      ¬(o / 4 * 4 = 1024 * u.val + 800 + 4 * sl.val ∧ s.towers[u].present sl = true))
    ∧ (12 * 1024 ≤ o → s.trimTarget o = none)

/-- COVERAGE_WRITE and FOLD_TAKE: a matched full-word coverage write that finds the latch empty and passes every check
of R26 is latched with all it fixes and claims its old-word read; no sum changes (R25, R26, R27). COVERAGE_WRITE and
FOLD_TAKE where they do not fold: a write that finds the latch full waits unanswered behind those that wait (R25); one
taken into a bank that is not OPEN, a frame of no configured tower, an UNFIT frame or outside the image is refused
with BANK_REFUSED (R26). The place of an address of the range: bank A the lower half, sixteen frames to a bank, and
the image as many whole rows of a frame as it holds (R21, R22). The owner of a column: with the boundaries B(0) to
B(K) of a geometry ascending, as those of a TOWER section do (ConfigurationSectionsAreRead), as those of a TOWER
section do (ConfigurationSectionsAreRead), key k owns the columns B(k) to B(k + 1) − 1, and the columns below B(0) and
from B(K) on are margin, which no key owns; in any geometry the key of lowest index whose columns hold it (R22, R28).
Choices of the model: the refusal of a word outside the coverage range, which R26 does not list (log 29), and that the
row FOLD_TAKE, as COVERAGE_WRITE, is the arrival of a write, which waits when the latch is full (log 2). -/
def Obligations.CoverageWriteIsTakenWaitsOrIsRefused : Prop :=
  (∀ (s : State) (cls : MasterClass) (addr : Addr) (d : Word) (w : Window) (r : CoverRange) (u : Tower)
    (g : Geometry) (c : Instr), c = .coverageWrite cls addr d ∨ c = .foldTake cls addr d →
    s.matched .coverage w (fullWrite cls addr d) → s.coverage.latch = none → s.coverage.range = some r →
    r.covers (wordAddr addr.toNat) = true →
    (r.place (wordAddr addr.toNat)).frame = u.val → s.coverage.geometry[u] = some g →
    (s.coverage.banks.get (r.place (wordAddr addr.toNat)).bank).state = .opened →
    (s.coverage.frame (r.place (wordAddr addr.toNat)).bank u).fit = true →
    (r.place (wordAddr addr.toNat)).offset < g.imageLen r.frameSize →
    ∃ t f, exec c s = .next t ∧ t.bus.get cls = some ⟨fullWrite cls addr d, .claim .foldRead⟩
      ∧ t.coverage = { s.coverage with latch := some f } ∧ f.cls = cls
      ∧ f.bank = (r.place (wordAddr addr.toNat)).bank ∧ f.tower = u ∧ f.addr = wordAddr addr.toNat
      ∧ f.offset = (r.place (wordAddr addr.toNat)).offset ∧ f.new = d ∧ f.old = none ∧ f.void = false
      ∧ f.row = f.offset / g.w ∧ f.column = f.offset % g.w
      ∧ f.owners = [g.owner f.column, g.owner (f.column + 1), g.owner (f.column + 2), g.owner (f.column + 3)]
      ∧ t.lastResponse = s.lastResponse ∧ s.sameOthers cls t ∧ s.sameMemory t ∧ s.samePort t ∧ s.sameSetup t
      ∧ s.sameTowers t ∧ t.engine = s.engine ∧ t.loop = s.loop ∧ t.loader = s.loader ∧ s.sameSettings t
      ∧ s.sameEvents t)
  ∧ (∀ (s : State) (cls : MasterClass) (addr : Addr) (d : Word) (w : Window) (c : Instr),
    c = .coverageWrite cls addr d ∨ c = .foldTake cls addr d →
    s.matched .coverage w (fullWrite cls addr d) →
    (s.coverage.latch.isSome = true →
      ∃ t, exec c s = .next t ∧ t.bus.get cls = some ⟨fullWrite cls addr d, .waitLatch⟩
        ∧ t.coverage = { s.coverage with waiting := s.coverage.waiting ++ [cls] }
        ∧ t.lastResponse = s.lastResponse ∧ s.sameOthers cls t ∧ s.sameMemory t ∧ s.samePort t ∧ s.sameSetup t
        ∧ s.sameTowers t ∧ t.engine = s.engine ∧ t.loop = s.loop ∧ t.loader = s.loader ∧ s.sameSettings t
        ∧ s.sameEvents t)
    ∧ (∀ r : CoverRange, s.coverage.latch = none → s.coverage.range = some r →
      (r.covers (wordAddr addr.toNat) = false
        ∨ (s.coverage.banks.get (r.place (wordAddr addr.toNat)).bank).state ≠ .opened
        ∨ 12 ≤ (r.place (wordAddr addr.toNat)).frame
        ∨ (∃ u : Tower, (r.place (wordAddr addr.toNat)).frame = u.val
            ∧ (s.coverage.geometry[u] = none
              ∨ (s.coverage.frame (r.place (wordAddr addr.toNat)).bank u).fit = false
              ∨ ∃ g, s.coverage.geometry[u] = some g
                  ∧ g.imageLen r.frameSize ≤ (r.place (wordAddr addr.toNat)).offset))) →
      ∃ t, exec c s = .next t ∧ t.bus.get cls = none ∧ t.lastResponse.get cls = some .busError
        ∧ t.coverage = s.coverage ∧ s.raised .bankRefused t ∧ s.captured (fullWrite cls addr d) t
        ∧ s.sameOthers cls t ∧ s.sameMemory t ∧ s.samePort t ∧ s.sameSetup t ∧ s.sameTowers t
        ∧ t.engine = s.engine ∧ t.loop = s.loop ∧ t.loader = s.loader ∧ s.sameSettings t))
  ∧ (∀ (r : CoverRange) (a : Nat), (r.covers a = true ↔ r.base ≤ a ∧ a < r.base + r.size)
    ∧ (r.place a).bank = (if a - r.base < r.size / 2 then .a else .b)
    ∧ (r.place a).frame = (a - r.base) % (r.size / 2) / (r.size / 32)
    ∧ (r.place a).offset = (a - r.base) % (r.size / 2) % (r.size / 32) ∧ r.frameSize = r.size / 32)
  ∧ (∀ (g : Geometry) (n : Nat), g.imageLen n = n / g.w * g.w)
  ∧ (∀ (g : Geometry) (i b : Nat), g.bounds[i]? = some b → g.bound i = b)
  ∧ (∀ (g : Geometry) (col : Nat),
    (∀ k : Fin 48, g.owner col = some k ↔ (k.val < g.k ∧ g.bound k.val ≤ col ∧ col < g.bound (k.val + 1))
      ∧ ∀ j : Fin 48, j < k → ¬(j.val < g.k ∧ g.bound j.val ≤ col ∧ col < g.bound (j.val + 1)))
    ∧ (g.owner col = none ↔ ∀ k : Fin 48, ¬(k.val < g.k ∧ g.bound k.val ≤ col ∧ col < g.bound (k.val + 1))))
  ∧ ∀ (g : Geometry) (col : Nat), (∀ i, i < g.k → g.bound i ≤ g.bound (i + 1)) → g.k ≤ 48 →
    (∀ k : Fin 48, g.owner col = some k ↔ k.val < g.k ∧ g.bound k.val ≤ col ∧ col < g.bound (k.val + 1))
    ∧ (g.owner col = none ↔ col < g.bound 0 ∨ g.bound g.k ≤ col)

/-- MEASURE_WRITE: a matched full-word write into a FREE slot, not a commit, is forwarded and the slot stays FREE;
into a BUSY slot it is refused with MEASURE_DROPPED and the drop BUSY (R144, R150). COMMIT: a nonzero write to the
commit word of a FREE slot makes the slot BUSY and is forwarded; the read list and the other slots stay (R144, R145).
-/
def Obligations.MeasureWritesFollowTheSlotState : Prop :=
  (∀ (s : State) (cls : MasterClass) (addr : Addr) (d : Word) (w : Window) (i : Fin 16),
    s.matched .measure w (fullWrite cls addr d) → i = Fin.ofNat 16 ((addr.toNat - w.base) / 128) →
    (s.loop.slots[i] = .free → ((addr.toNat - w.base) % 128 / 4 ≠ 31 ∨ d = 0) →
      ∃ t, exec (.measureWrite cls addr d) s = .next t
        ∧ t.bus.get cls = some ⟨fullWrite cls addr d, .claim .measure⟩ ∧ t.lastResponse = s.lastResponse
        ∧ s.sameOthers cls t ∧ s.sameMemory t ∧ s.samePort t ∧ s.sameSetup t ∧ s.sameBlocks t
        ∧ s.sameSettings t ∧ s.sameEvents t)
    ∧ (s.loop.slots[i] = .busy →
      ∃ t, exec (.measureWrite cls addr d) s = .next t ∧ t.bus.get cls = none
        ∧ t.lastResponse.get cls = some .busError ∧ s.raised .measureDropped t
        ∧ s.captured (fullWrite cls addr d) t ∧ t.loop.slots = s.loop.slots ∧ t.loop.readList = s.loop.readList
        ∧ t.loop.status = { s.loop.status with reason := .busy, slot := i, dropTower := none }
        ∧ s.sameOthers cls t ∧ s.sameMemory t ∧ s.samePort t ∧ s.sameSetup t ∧ t.coverage = s.coverage
        ∧ s.sameTowers t ∧ t.engine = s.engine ∧ t.loader = s.loader ∧ s.sameSettings t))
  ∧ (∀ (s : State) (cls : MasterClass) (addr : Addr) (d : Word) (w : Window) (i : Fin 16),
    s.matched .measure w (fullWrite cls addr d) → i = Fin.ofNat 16 ((addr.toNat - w.base) / 128) →
    (addr.toNat - w.base) % 128 / 4 = 31 → d ≠ 0 → s.loop.slots[i] = .free →
    ∃ t, exec (.commit cls addr d) s = .next t
      ∧ t.bus.get cls = some ⟨fullWrite cls addr d, .claim (.commit i)⟩
      ∧ t.loop = { s.loop with slots := s.loop.slots.set i .busy } ∧ t.lastResponse = s.lastResponse
      ∧ s.sameOthers cls t ∧ s.sameMemory t ∧ s.samePort t ∧ s.sameSetup t ∧ t.coverage = s.coverage
      ∧ s.sameTowers t ∧ t.engine = s.engine ∧ t.loader = s.loader ∧ s.sameSettings t ∧ s.sameEvents t)

/-! ### Commands in control words -/

/-- BAD_CODE: an unknown code is answered BAD_CODE and has no other effect (R11, R179). What the answer keeps, the
word's last result and, of START and STOP, the index written with it, is replaced (R140, R157; that STOP keeps the
byte also of a code that carries no index is the model's choice, log 35); of the control unit and the port nothing
else changes but the request offered on a free channel (R161). A command is written with its code in byte 0, a BANK
command with its bank in bit 8, an index in byte 1; the words with a result field are START, STOP, BANK,
MEASURE_STATUS, the five BIND words, RELOAD and the TOWER words (12.2). -/
def Obligations.BadCodeHasNoOtherEffect : Prop :=
  (∀ (s : State) (cls : MasterClass) (addr : Addr) (d : Word) (w : CtlWord),
    s.admitsCommand cls addr d w → unknownCode w (d.toNat % 256) = true →
    ∃ t, exec (.badCode cls addr d) s = .next t ∧ s.tookCommand t cls addr d w .badCode
      ∧ t.control = { s.offerChannel.control with last := t.control.last } ∧ t.port = s.offerChannel.port
      ∧ s.sameSetup t ∧ t.coverage = s.coverage ∧ s.sameTowers t ∧ t.loop = s.loop ∧ t.loader = s.loader
      ∧ t.engine = { s.engine with
          startIndex := if w = 0 then d.extractLsb' 8 8 else s.engine.startIndex
          stopIndex := if w = 1 then d.extractLsb' 8 8 else s.engine.stopIndex }
      ∧ s.sameSettings t ∧ s.sameEvents t)
  ∧ (∀ (rest : BitVec 24) (code : Byte), codeWord rest code = rest ++ code)
  ∧ (∀ (bk : BankId) (rest : BitVec 23) (code : Byte),
    bankCommandWord bk rest code = rest ++ (if bk = .a then 0#1 else 1#1) ++ code)
  ∧ (∀ d : Word, indexOf d = d.extractLsb' 8 8)
  ∧ ∀ v : CtlWord, carriesResult v = true ↔ v ∈ ([0, 1, 4, 7, 8, 9, 10, 11, 12, 14, 16, 17, 18, 19, 20, 21, 22, 23, 24,
      25, 26, 27] : List CtlWord)

/-- START by R131: REFUSED_RANGE at or beyond the table's length, REFUSED_BUSY with the slot full, ACCEPTED in IDLE
with the chain started at once (R116), QUEUED otherwise. STOP with an index by R137. -/
def Obligations.StartAndStopFollowTheirTables : Prop :=
  (∀ (s : State) (cls : MasterClass) (addr : Addr) (index : Byte) (rest : BitVec 16),
    s.admitsCommand cls addr (codeWord (rest ++ index) 1) wordStart →
    ∃ t r, exec (.start cls addr index rest) s = .next t
      ∧ s.tookCommand t cls addr (codeWord (rest ++ index) 1) wordStart r ∧ t.engine.startIndex = index
      ∧ r = (if s.engine.length ≤ index.toNat then .refusedRange
          else if s.engine.slot.isSome then .refusedBusy
          else if s.engine.state = .idle then .accepted else .queued)
      ∧ (r = .accepted → t.engine.state = .fetching ∧ t.engine.head = index.toNat
          ∧ t.engine.current = index.toNat ∧ t.engine.visited = 1 ∧ t.engine.tie = none
          ∧ t.engine.slot = none ∧ t.engine.bindings = s.engine.bindings
          ∧ s.port.queue ++ [.orderRead t.engine.recordAddr] <+: t.port.queue)
      ∧ (r = .queued → t.engine = { s.engine with slot := some index.toNat, startIndex := index })
      ∧ (r = .refusedRange ∨ r = .refusedBusy → t.engine = { s.engine with startIndex := index })
      ∧ s.samePort t ∧ s.sameSetup t ∧ t.coverage = s.coverage ∧ s.sameTowers t ∧ t.loop = s.loop
      ∧ t.loader = s.loader ∧ s.sameSettings t ∧ s.sameEvents t)
  ∧ (∀ (s : State) (cls : MasterClass) (addr : Addr) (index : Byte) (rest : BitVec 16),
    s.admitsCommand cls addr (codeWord (rest ++ index) 1) wordStop →
    ∃ t r, exec (.stop cls addr index rest) s = .next t
      ∧ s.tookCommand t cls addr (codeWord (rest ++ index) 1) wordStop r
      ∧ (s.engine.state ≠ .idle → s.engine.head = index.toNat →
          r = .accepted ∧ t.engine = { s.engine with stop := true, stopIndex := index })
      ∧ (¬(s.engine.state ≠ .idle ∧ s.engine.head = index.toNat) →
          (s.engine.slot = some index.toNat
            ∨ ∃ k, (s.engine.bindings.get k).pending = true ∧ (s.engine.bindings.get k).index = index.toNat) →
          r = .accepted
            ∧ t.engine.slot = (if s.engine.slot = some index.toNat then none else s.engine.slot)
            ∧ (∀ k, t.engine.bindings.get k = { s.engine.bindings.get k with
                pending := (s.engine.bindings.get k).pending
                  && decide ((s.engine.bindings.get k).index ≠ index.toNat) })
            ∧ t.engine.stop = s.engine.stop ∧ t.engine.state = s.engine.state)
      ∧ (¬(s.engine.state ≠ .idle ∧ s.engine.head = index.toNat) →
          s.engine.slot ≠ some index.toNat →
          (∀ k, (s.engine.bindings.get k).pending = true → (s.engine.bindings.get k).index ≠ index.toNat) →
          r = .notRunning ∧ t.engine = { s.engine with stopIndex := index })
      ∧ s.samePort t ∧ s.sameSetup t ∧ t.coverage = s.coverage ∧ s.sameTowers t ∧ t.loop = s.loop
      ∧ t.loader = s.loader ∧ s.sameSettings t ∧ s.sameEvents t)

/-- STOP_ALL: the stop is noted unless IDLE, the slot empties, every pending flag clears with the bindings' armed
flags and indexes kept, and every ramp of a present slot is frozen into its base: trims, corrections and holds stay,
and the target is the one composed of the record as it stood with its ramp, so that it stays where it was composed; a
record with no ramp, or of a slot that is not present, keeps its values (R47, R54, R138); asked of a ramp with pulses
left to come, as EveryStepKeepsTheRanges has it. With the transmitter busy no key moves but where its target has
changed (R55). -/
def Obligations.StopAllFreezesEveryRamp : Prop :=
  ∀ (s : State) (cls : MasterClass) (addr : Addr) (rest : BitVec 24),
    s.admitsCommand cls addr (codeWord rest 2) wordStop →
    ∃ t, exec (.stopAll cls addr rest) s = .next t ∧ s.tookCommand t cls addr (codeWord rest 2) wordStop .accepted
      ∧ t.engine.stop = (s.engine.stop || s.engine.state != .idle) ∧ t.engine.state = s.engine.state
      ∧ t.engine.slot = none ∧ t.engine.counter = s.engine.counter
      ∧ (∀ k, t.engine.bindings.get k = { s.engine.bindings.get k with pending := false })
      ∧ (∀ (u : Tower) (sl : Slot), s.towers[u].present sl = true → (s.towers[u].recs[sl]).ramp.isSome = true →
          (t.towers[u].recs[sl]).ramp = none ∧ (t.towers[u].recs[sl]).base = (s.towers[u].recs[sl]).rbOpening)
      ∧ (∀ (u : Tower) (sl : Slot), (s.towers[u].recs[sl]).ramp = none ∨ s.towers[u].present sl = false →
          (t.towers[u].recs[sl]).values = (s.towers[u].recs[sl]).values)
      ∧ (∀ (u : Tower) (sl : Slot), (t.towers[u].recs[sl]).trim = (s.towers[u].recs[sl]).trim
          ∧ (t.towers[u].recs[sl]).correction = (s.towers[u].recs[sl]).correction
          ∧ (t.towers[u].recs[sl]).hold = (s.towers[u].recs[sl]).hold
          ∧ (s.towers[u].present sl = true → (s.towers[u].recs[sl]).ramp.isSome = true → (s.towers[u].recs[sl]).rampOk →
            (t.towers[u].recs[sl]).target
              = composed s.towers[u].cfg s.towers[u].parkHold sl (s.towers[u].recs[sl])))
      ∧ (s.link.tx ≠ .idle → s.handedOn t)
      ∧ s.samePort t ∧ s.sameSetup t ∧ t.coverage = s.coverage ∧ t.loop = s.loop ∧ t.loader = s.loader
      ∧ s.sameSettings t ∧ s.sameEvents t

/-- ARM and DISARM of a binding by R133, with the tie of the running chain cleared when it names the binding. -/
def Obligations.ArmAndDisarmABinding : Prop :=
  (∀ (s : State) (cls : MasterClass) (addr : Addr) (index divisor rest : Byte) (k : Source),
    s.admitsCommand cls addr (codeWord (rest ++ (divisor ++ index : BitVec 16)) 1) (wordBind k) →
    ∃ t r, exec (.arm cls addr index divisor rest) s = .next t
      ∧ s.tookCommand t cls addr (codeWord (rest ++ (divisor ++ index : BitVec 16)) 1) (wordBind k) r
      ∧ (s.engine.length ≤ index.toNat ∨ (k = .sheet ∧ divisor = 0) →
          r = .refusedRange ∧ t.engine = s.engine)
      ∧ (¬(s.engine.length ≤ index.toNat ∨ (k = .sheet ∧ divisor = 0)) →
          r = .accepted ∧ t.engine.bindings.get k = ⟨true, false, index.toNat⟩
            ∧ (∀ j, j ≠ k → t.engine.bindings.get j = s.engine.bindings.get j)
            ∧ t.engine.divisor = (if k = .sheet then divisor.toNat else s.engine.divisor)
            ∧ t.engine.counter = (if k = .sheet then 0 else s.engine.counter)
            ∧ t.engine.tie = (if s.engine.tie = some k then none else s.engine.tie)
            ∧ t.engine.state = s.engine.state ∧ t.engine.slot = s.engine.slot)
      ∧ s.samePort t ∧ s.sameSetup t ∧ t.coverage = s.coverage ∧ s.sameTowers t ∧ t.loop = s.loop
      ∧ t.loader = s.loader ∧ s.sameSettings t ∧ s.sameEvents t)
  ∧ ∀ (s : State) (cls : MasterClass) (addr : Addr) (rest : BitVec 24) (k : Source),
    s.admitsCommand cls addr (codeWord rest 2) (wordBind k) →
    ∃ t, exec (.disarm cls addr rest) s = .next t
      ∧ s.tookCommand t cls addr (codeWord rest 2) (wordBind k) .accepted
      ∧ t.engine.bindings.get k = { s.engine.bindings.get k with armed := false, pending := false }
      ∧ (∀ j, j ≠ k → t.engine.bindings.get j = s.engine.bindings.get j)
      ∧ t.engine.divisor = s.engine.divisor ∧ t.engine.counter = s.engine.counter
      ∧ t.engine.tie = (if s.engine.tie = some k then none else s.engine.tie)
      ∧ t.engine.state = s.engine.state ∧ t.engine.slot = s.engine.slot
      ∧ s.samePort t ∧ s.sameSetup t ∧ t.coverage = s.coverage ∧ s.sameTowers t ∧ t.loop = s.loop
      ∧ t.loader = s.loader ∧ s.sameSettings t ∧ s.sameEvents t

/-- EVENT and EVENT_ENABLE: the flags change under the clear mode, the enables take the written value, the line is
recomputed, and a rising with a nonzero notice address sets the notice-pending flag (R164, R165, R166). PART_STATUS
and ENGINE writes change no state (R158); a REFUSAL write clears the capture (R167); a MEASURE_STATUS write clears the
drop and applied fields (R153). -/
def Obligations.EventAndStatusWordsAreTaken : Prop :=
  ((∀ (s : State) (cls : MasterClass) (addr : Addr) (flags : BitVec 14) (rest : BitVec 18),
    s.admitsCommand cls addr (rest ++ flags) wordEvent →
    ∃ t, exec (.event cls addr flags rest) s = .next t
      ∧ s.tookCommand t cls addr (rest ++ flags) wordEvent .accepted
      ∧ t.control.flags = (match s.control.mode with
          | .clearOnes => s.control.flags &&& ~~~flags
          | .replace => flags)
      ∧ t.control.line = (t.control.flags &&& s.control.enables != 0)
      ∧ t.control.noticePending
          = (s.control.noticePending || (t.control.line && !s.control.line && s.control.noticeAddr != 0))
      ∧ t.control.capture = s.control.capture ∧ s.sameSettings t ∧ s.samePort t ∧ s.sameSetup t ∧ s.sameBlocks t)
  ∧ ∀ (s : State) (cls : MasterClass) (addr : Addr) (en : BitVec 14) (rest : BitVec 18),
    s.admitsCommand cls addr (rest ++ en) 3 →
    ∃ t, exec (.eventEnable cls addr en rest) s = .next t
      ∧ s.tookCommand t cls addr (rest ++ en) 3 .accepted
      ∧ t.control.enables = en ∧ t.control.flags = s.control.flags
      ∧ t.control.line = (s.control.flags &&& en != 0)
      ∧ t.control.noticePending
          = (s.control.noticePending || (t.control.line && !s.control.line && s.control.noticeAddr != 0))
      ∧ t.control.capture = s.control.capture ∧ t.control.part = s.control.part ∧ t.control.mode = s.control.mode
      ∧ s.samePort t ∧ s.sameSetup t ∧ s.sameBlocks t)
  ∧ (∀ (s : State) (cls : MasterClass) (addr : Addr) (d : Word),
    (s.admitsCommand cls addr d wordPartStatus →
      ∃ t, exec (.partStatus cls addr d) s = .next t ∧ s.tookCommand t cls addr d wordPartStatus .accepted
        ∧ s.samePort t ∧ s.sameSetup t ∧ s.sameBlocks t ∧ s.sameSettings t ∧ s.sameEvents t)
    ∧ (s.admitsCommand cls addr d wordEngine →
      ∃ t, exec (.engine cls addr d) s = .next t ∧ s.tookCommand t cls addr d wordEngine .accepted
        ∧ s.samePort t ∧ s.sameSetup t ∧ s.sameBlocks t ∧ s.sameSettings t ∧ s.sameEvents t)
    ∧ (s.admitsCommand cls addr d wordRefusal →
      ∃ t, exec (.refusal cls addr d) s = .next t ∧ s.tookCommand t cls addr d wordRefusal .accepted
        ∧ t.control.capture = ⟨false, 0, .console⟩ ∧ t.control.flags = s.control.flags
        ∧ s.samePort t ∧ s.sameSetup t ∧ s.sameBlocks t ∧ s.sameSettings t)
    ∧ (s.admitsCommand cls addr d wordMeasure →
      ∃ t, exec (.measureStatus cls addr d) s = .next t ∧ s.tookCommand t cls addr d wordMeasure .accepted
        ∧ t.loop = { s.loop with status := ⟨.none, 0, none, none, 0⟩ }
        ∧ s.samePort t ∧ s.sameSetup t ∧ t.coverage = s.coverage ∧ s.sameTowers t ∧ t.engine = s.engine
        ∧ t.loader = s.loader ∧ s.sameSettings t ∧ s.sameEvents t))

/-- CLEAR: REFUSED_BUSY while either bank clears, REFUSED_STATE without a range; else ACCEPTED, with every sum of the
bank 0 and every frame fit, the bank CLEARING over its plan, or OPEN at once with BANK_READY when the plan has no
words; the other bank, the roles and the geometry stay (R30, R35). A fold in flight into the bank stays in the latch
and becomes void, one into the other bank stays as it is (R29), and the void one carries the mark of a CLEAR, f.cleared,
also when it was void by another cause already, which is the model's reading (log 27). -/
def Obligations.ClearCommand : Prop :=
  ∀ (s : State) (cls : MasterClass) (addr : Addr) (bk : BankId) (rest : BitVec 23),
    s.admitsCommand cls addr (bankCommandWord bk rest 1) wordBank →
    ∃ t r, exec (.clear cls addr bk rest) s = .next t
      ∧ s.tookCommand t cls addr (bankCommandWord bk rest 1) wordBank r
      ∧ (s.coverage.clearing .a = true ∨ s.coverage.clearing .b = true →
          r = .refusedBusy ∧ t.coverage = s.coverage ∧ s.sameEvents t)
      ∧ (s.coverage.clearing .a = false → s.coverage.clearing .b = false → s.coverage.range = none →
          r = .refusedState ∧ t.coverage = s.coverage ∧ s.sameEvents t)
      ∧ (∀ g, s.coverage.clearing .a = false → s.coverage.clearing .b = false → s.coverage.range = some g →
          r = .accepted
            ∧ (∀ u : Tower, t.coverage.frame bk u = ⟨true, Vector.replicate 48 0⟩)
            ∧ t.coverage.banks.get (otherBank bk) = s.coverage.banks.get (otherBank bk)
            ∧ t.coverage.active = s.coverage.active ∧ t.coverage.geometry = s.coverage.geometry
            ∧ t.coverage.range = some g ∧ t.coverage.waiting = s.coverage.waiting
            ∧ (s.coverage.latch = none → t.coverage.latch = none)
            ∧ (∀ f, s.coverage.latch = some f → t.coverage.latch
                = some (if f.bank = bk then { f with void := true, cleared := true } else f))
            ∧ (planWords (clearPlan s.coverage g bk) = 0 →
                (t.coverage.banks.get bk).state = .opened ∧ t.coverage.cursor = s.coverage.cursor
                  ∧ s.raised .bankReady t)
            ∧ (planWords (clearPlan s.coverage g bk) ≠ 0 →
                (t.coverage.banks.get bk).state = .clearing
                  ∧ t.coverage.cursor = some ⟨bk, clearPlan s.coverage g bk, 0, false⟩ ∧ s.sameEvents t))
      ∧ s.samePort t ∧ s.sameSetup t ∧ s.sameTowers t ∧ t.engine = s.engine ∧ t.loop = s.loop
      ∧ t.loader = s.loader ∧ s.sameSettings t

/-- LOCK, UNLOCK and SWAP by the table of R31 and by R33: no sum, fitness, geometry or cursor changes. A bank's state
set is that bank's state alone. -/
def Obligations.LockUnlockAndSwap : Prop :=
  (∀ (s : State) (cls : MasterClass) (addr : Addr) (bk : BankId) (rest : BitVec 23),
    s.admitsCommand cls addr (bankCommandWord bk rest 2) wordBank →
    ∃ t r, exec (.lock cls addr bk rest) s = .next t
      ∧ s.tookCommand t cls addr (bankCommandWord bk rest 2) wordBank r
      ∧ ((s.coverage.banks.get bk).state = .opened →
          r = .accepted ∧ t.coverage = s.coverage.setState bk .locked)
      ∧ ((s.coverage.banks.get bk).state = .locked → r = .accepted ∧ t.coverage = s.coverage)
      ∧ ((s.coverage.banks.get bk).state = .stale ∨ (s.coverage.banks.get bk).state = .clearing →
          r = .refusedState ∧ t.coverage = s.coverage)
      ∧ s.samePort t ∧ s.sameSetup t ∧ s.sameTowers t ∧ t.engine = s.engine ∧ t.loop = s.loop
      ∧ t.loader = s.loader ∧ s.sameSettings t ∧ s.sameEvents t)
  ∧ (∀ (s : State) (cls : MasterClass) (addr : Addr) (bk : BankId) (rest : BitVec 23),
    s.admitsCommand cls addr (bankCommandWord bk rest 3) wordBank →
    ∃ t r, exec (.unlock cls addr bk rest) s = .next t
      ∧ s.tookCommand t cls addr (bankCommandWord bk rest 3) wordBank r
      ∧ ((s.coverage.banks.get bk).state = .locked →
          r = .accepted ∧ t.coverage = s.coverage.setState bk .opened)
      ∧ ((s.coverage.banks.get bk).state ≠ .locked → r = .refusedState ∧ t.coverage = s.coverage)
      ∧ s.samePort t ∧ s.sameSetup t ∧ s.sameTowers t ∧ t.engine = s.engine ∧ t.loop = s.loop
      ∧ t.loader = s.loader ∧ s.sameSettings t ∧ s.sameEvents t)
  ∧ (∀ (s : State) (cls : MasterClass) (addr : Addr) (rest : BitVec 24),
    s.admitsCommand cls addr (codeWord rest 4) wordBank →
    ∃ t r, exec (.swap cls addr rest) s = .next t ∧ s.tookCommand t cls addr (codeWord rest 4) wordBank r
      ∧ ((s.coverage.banks.get (s.coverage.role true)).state = .locked →
          r = .accepted ∧ t.coverage = { s.coverage with active := s.coverage.role true })
      ∧ ((s.coverage.banks.get (s.coverage.role true)).state ≠ .locked →
          r = .refusedState ∧ t.coverage = s.coverage)
      ∧ s.samePort t ∧ s.sameSetup t ∧ s.sameTowers t ∧ t.engine = s.engine ∧ t.loop = s.loop
      ∧ t.loader = s.loader ∧ s.sameSettings t ∧ s.sameEvents t)
  ∧ otherBank .a = .b ∧ otherBank .b = .a
  ∧ ∀ (c : Coverage) (bk : BankId) (st : BankState),
    c.setState bk st = { c with banks := (c.setState bk st).banks }
      ∧ ∀ k, (c.setState bk st).banks.get k = if k = bk then { c.banks.get k with state := st } else c.banks.get k

/-- RELOAD: ACCEPTED, and every block takes its RELOAD values: the part is LOADING with the loader at the header, no
window, no chain, no loop, towers reset, flags clear, the queue of requests empty, a granted internal request
discarded, any other access on the port staying there; coverage range, geometry and roles stay, a CLEARING bank
becomes STALE, a fold in flight into it becoming void, while any other fold stays in the latch as it is (R29); memory,
levels, the frame on the line and the receiver stay; the accesses in progress go on, a coverage write that waits for
the latch being overtaken, so that it is refused when it is taken, and a commit in progress being one no more, as its
slot is FREE (R39, R145, R155); CFG_CS_N goes high, which ends a read under way, and the read of the header begins
(log 31; R18, R19, R20, R39, R57, R80, R97, R113, R130, R141, R155, R159, R168, R177). -/
def Obligations.ReloadResetsTheBlocks : Prop :=
  ∀ (s : State) (cls : MasterClass) (addr : Addr) (rest : BitVec 24),
    s.admitsCommand cls addr (codeWord rest 1) wordReload →
    ∃ t, exec (.reload cls addr rest) s = .next t
      ∧ t.bus.get cls = some ⟨fullWrite cls addr (codeWord rest 1),
          .claim (.answer wordReload .accepted (indexOf (codeWord rest 1)))⟩
      ∧ (∀ d, d ≠ cls → t.bus.get d = (match s.bus.get d with
          | some ⟨b, .waitLatch⟩ => some ⟨b, .overtaken⟩
          | some ⟨b, .claim (.commit _)⟩ => some ⟨b, .claim .measure⟩
          | some ⟨b, .granted (.commit _)⟩ => some ⟨b, .granted .measure⟩
          | x => x))
      ∧ t.windows = noWindows ∧ t.port.queue = [] ∧ t.port.passOver = 0 ∧ t.port.limit = 16
      ∧ t.port.pointer = s.port.pointer
      ∧ (∀ r ws x, s.port.holder = some (.internal r ws x) → t.port.holder = some (.internal r ws true))
      ∧ (∀ c w, s.port.holder = some (.passThrough c w) → t.port.holder = s.port.holder)
      ∧ (∀ w, s.port.holder = some (.orphan w) → t.port.holder = s.port.holder)
      ∧ (s.port.holder = none → t.port.holder = none)
      ∧ t.curves = linearCurves ∧ t.timeout = 20 ∧ (∀ u : Tower, t.towers[u] = TowerState.reset)
      ∧ t.engine = Engine.reset ∧ t.loop = LoopUnit.reset ∧ t.loader = Loader.reset
      ∧ t.control.part = .loading ∧ t.control.flags = 0 ∧ t.control.enables = 0 ∧ t.control.line = false
      ∧ t.control.mode = .clearOnes ∧ t.control.noticeAddr = 0 ∧ t.control.noticePending = false
      ∧ t.control.capture = ⟨false, 0, .console⟩ ∧ t.control.mirror = 0 ∧ t.control.channel = none
      ∧ t.control.pointer = 31 ∧ t.control.noticeDatum = 0
      ∧ t.loader.spi.steps = [.csHigh, .csLow, .send 0x03#8, .send 0, .send 0] ∧ t.loader.spi.csN = false
      ∧ t.coverage.waiting = s.coverage.waiting
      ∧ (∀ w : CtlWord, t.control.last[w] = .accepted)
      ∧ t.coverage.range = s.coverage.range ∧ t.coverage.geometry = s.coverage.geometry
      ∧ t.coverage.active = s.coverage.active ∧ t.coverage.cursor = none
      ∧ (s.coverage.latch = none → t.coverage.latch = none)
      ∧ (∀ f, s.coverage.latch = some f → t.coverage.latch
          = some { f with void := f.void || decide ((s.coverage.banks.get f.bank).state = .clearing) })
      ∧ (∀ bk, (t.coverage.banks.get bk).frames = (s.coverage.banks.get bk).frames)
      ∧ (∀ bk, (t.coverage.banks.get bk).state
          = if (s.coverage.banks.get bk).state = .clearing then .stale else (s.coverage.banks.get bk).state)
      ∧ t.levels = s.levels ∧ t.link.tx = s.link.tx ∧ t.link.rx = s.link.rx ∧ t.link.pointer = 11
      ∧ s.sameMemory t ∧ t.lastResponse = s.lastResponse

/-- WAKE by R100 and R101: refused in UNCONFIGURED and FAULTED; ACCEPTED without change in READY and PRINTING; from
PARKED and PARKING the tower takes READY or PRINTING by the IMPR level, park-hold is cleared and every present record
is composed without it; the value fields of every record and the other towers' service states stay. With the
transmitter busy, so that it dispatches nothing at once, the whole is seen: each present key that was IDLE with
commanded known and different from its target is QUEUED, any other that was IDLE stays IDLE (R63); as its target
changes, a QUEUED key leaves the queue where it equals commanded, and a key in flight becomes RETARGET (R55); the keys
that become QUEUED join the queue's tail, from PARKED in slot order by the sweep alone, from PARKING in slot order by
the hand-off of those whose target has changed, then by the sweep of the rest; nothing else of any tower changes (R55,
R63, R101). -/
def Obligations.WakeBringsATowerIntoService : Prop :=
  ∀ (s : State) (cls : MasterClass) (addr : Addr) (rest : BitVec 24) (u : Tower),
    s.admitsCommand cls addr (codeWord rest 1) (wordTower u) →
    ∃ t r, exec (.wake cls addr rest) s = .next t
      ∧ s.tookCommand t cls addr (codeWord rest 1) (wordTower u) r
      ∧ (s.towers[u].service = .unconfigured ∨ s.towers[u].service = .faulted →
          r = .refusedState ∧ s.sameTowers t)
      ∧ (s.towers[u].service = .ready ∨ s.towers[u].service = .printing → r = .accepted ∧ s.sameTowers t)
      ∧ (s.towers[u].service = .parked ∨ s.towers[u].service = .parking →
          r = .accepted ∧ t.towers[u].service = (if s.levels.impr then .printing else .ready)
            ∧ t.towers[u].parkHold = false ∧ t.towers[u].cfg = s.towers[u].cfg
            ∧ (s.towers[u].parkHold = true → ∀ sl : Slot, s.towers[u].present sl = true →
                (t.towers[u].recs[sl]).target = composed s.towers[u].cfg false sl (s.towers[u].recs[sl]))
            ∧ ∀ sl : Slot, (t.towers[u].recs[sl]).base = (s.towers[u].recs[sl]).base
                ∧ (t.towers[u].recs[sl]).trim = (s.towers[u].recs[sl]).trim
                ∧ (t.towers[u].recs[sl]).correction = (s.towers[u].recs[sl]).correction
                ∧ (t.towers[u].recs[sl]).hold = (s.towers[u].recs[sl]).hold
                ∧ (t.towers[u].recs[sl]).ramp = (s.towers[u].recs[sl]).ramp)
      ∧ (s.towers[u].service = .parked ∨ s.towers[u].service = .parking → s.link.tx ≠ .idle →
          (∀ sl : Slot, s.towers[u].present sl = true → (s.towers[u].recs[sl]).move = .idle →
              (t.towers[u].recs[sl]).move
                = (if (s.towers[u].recs[sl]).commanded.isSome = true
                      ∧ (s.towers[u].recs[sl]).commanded ≠ some (t.towers[u].recs[sl]).target
                  then .queued else .idle))
            ∧ (∀ sl : Slot, (s.towers[u].recs[sl]).move ≠ .idle →
              (t.towers[u].recs[sl]).move = (s.towers[u].recs[sl]).movedTo true (t.towers[u].recs[sl]).target)
            ∧ (∀ sl : Slot, s.towers[u].present sl = false → t.towers[u].recs[sl] = s.towers[u].recs[sl])
            ∧ (∀ sl : Slot, (t.towers[u].recs[sl]).commanded = (s.towers[u].recs[sl]).commanded
              ∧ (t.towers[u].recs[sl]).reported = (s.towers[u].recs[sl]).reported
              ∧ (t.towers[u].recs[sl]).tag = (s.towers[u].recs[sl]).tag
              ∧ (t.towers[u].recs[sl]).tries = (s.towers[u].recs[sl]).tries
              ∧ (t.towers[u].recs[sl]).fault = (s.towers[u].recs[sl]).fault
              ∧ (t.towers[u].recs[sl]).timer = (s.towers[u].recs[sl]).timer)
            ∧ (∀ stay join : Slot → Bool,
              (∀ sl, stay sl = !decide ((s.towers[u].recs[sl]).move = .queued ∧ (t.towers[u].recs[sl]).move = .idle)) →
              (∀ sl, join sl = decide ((s.towers[u].recs[sl]).move = .idle ∧ (t.towers[u].recs[sl]).move = .queued)) →
              (s.towers[u].service = .parked →
                t.towers[u].queue = s.towers[u].queue.filter stay ++ (List.finRange 49).filter join)
              ∧ (s.towers[u].service = .parking →
                t.towers[u].queue = s.towers[u].queue.filter stay
                  ++ (List.finRange 49).filter (fun sl =>
                    join sl && decide ((t.towers[u].recs[sl]).target ≠ (s.towers[u].recs[sl]).target))
                  ++ (List.finRange 49).filter (fun sl =>
                    join sl && decide ((t.towers[u].recs[sl]).target = (s.towers[u].recs[sl]).target))))
            ∧ t.towers[u] = { s.towers[u] with
              service := t.towers[u].service, parkHold := false, recs := t.towers[u].recs, queue := t.towers[u].queue }
            ∧ ∀ v : Tower, v ≠ u → t.towers[v] = s.towers[v])
      ∧ (∀ v : Tower, v ≠ u → (s.towers[v]).service = (t.towers[v]).service
          ∧ ∀ sl : Slot, (t.towers[v].recs[sl]).values = (s.towers[v].recs[sl]).values)
      ∧ s.samePort t ∧ s.sameSetup t ∧ t.coverage = s.coverage ∧ t.engine = s.engine ∧ t.loop = s.loop
      ∧ t.loader = s.loader ∧ s.sameSettings t ∧ s.sameEvents t

/-- PARK by R100 and R102: refused in UNCONFIGURED and FAULTED; ACCEPTED without change in PARKED and PARKING; from
READY and PRINTING park-hold is set, every present record composes to 0, and the tower is PARKED when its moves are at
rest and PARKING otherwise, whatever pending move the transmitter then dispatches. With the transmitter busy, so that it
dispatches nothing at once, the hand-off is seen whole: each IDLE key whose commanded is known and not 0 is QUEUED, in
ascending slot order, each key in flight becomes RETARGET, and no other tower changes (R52, R55, R102); that the rest is
looked at once all of them have been handed off is the model's reading of the order of R102's steps (log 9). -/
def Obligations.ParkDrivesTheKeysClosed : Prop :=
  ∀ (s : State) (cls : MasterClass) (addr : Addr) (rest : BitVec 24) (u : Tower),
    s.admitsCommand cls addr (codeWord rest 2) (wordTower u) →
    ∃ t r, exec (.park cls addr rest) s = .next t
      ∧ s.tookCommand t cls addr (codeWord rest 2) (wordTower u) r
      ∧ (s.towers[u].service = .unconfigured ∨ s.towers[u].service = .faulted →
          r = .refusedState ∧ s.sameTowers t)
      ∧ (s.towers[u].service = .parked ∨ s.towers[u].service = .parking → r = .accepted ∧ s.sameTowers t)
      ∧ (s.towers[u].service = .ready ∨ s.towers[u].service = .printing →
          r = .accepted ∧ t.towers[u].parkHold = true
            ∧ (t.towers[u].service = .parking ∨ t.towers[u].service = .parked)
            ∧ (t.towers[u].service = .parked → t.towers[u].queue = [] ∧ t.towers[u].flight = [])
            ∧ (t.towers[u].service = .parking → ¬(t.towers[u].queue = [] ∧ t.towers[u].flight = []))
            ∧ (s.towers[u].parkHold = false → ∀ sl : Slot, s.towers[u].present sl = true →
                (t.towers[u].recs[sl]).target = 0)
            ∧ ∀ sl : Slot, (t.towers[u].recs[sl]).base = (s.towers[u].recs[sl]).base
                ∧ (t.towers[u].recs[sl]).trim = (s.towers[u].recs[sl]).trim
                ∧ (t.towers[u].recs[sl]).correction = (s.towers[u].recs[sl]).correction
                ∧ (t.towers[u].recs[sl]).hold = (s.towers[u].recs[sl]).hold
                ∧ (t.towers[u].recs[sl]).ramp = (s.towers[u].recs[sl]).ramp)
      ∧ (s.towers[u].service = .ready ∨ s.towers[u].service = .printing → s.link.tx ≠ .idle →
          s.towers[u].handedOn t.towers[u]
            ∧ t.towers[u] = { s.towers[u] with
              service := t.towers[u].service, parkHold := true, recs := t.towers[u].recs, queue := t.towers[u].queue }
            ∧ ∀ v : Tower, v ≠ u → t.towers[v] = s.towers[v])
      ∧ (∀ v : Tower, v ≠ u → (s.towers[v]).service = (t.towers[v]).service
          ∧ ∀ sl : Slot, (t.towers[v].recs[sl]).values = (s.towers[v].recs[sl]).values)
      ∧ s.samePort t ∧ s.sameSetup t ∧ t.coverage = s.coverage ∧ t.engine = s.engine ∧ t.loop = s.loop
      ∧ t.loader = s.loader ∧ s.sameSettings t ∧ s.sameEvents t

/-- RESET: ACCEPTED with the loader reading the tower's section again, the read of the header begun (R169, R178; log
31), or REFUSED_BUSY while a section reload is under way; the tower stands as it stood (R107). LOOP_ON and LOOP_OFF by
R100 and the table of R147. -/
def Obligations.TowerResetAndLoopCommandsAreTaken : Prop :=
  (∀ (s : State) (cls : MasterClass) (addr : Addr) (rest : BitVec 24) (u : Tower),
    s.admitsCommand cls addr (codeWord rest 3) (wordTower u) →
    ∃ t r, exec (.reset cls addr rest) s = .next t
      ∧ s.tookCommand t cls addr (codeWord rest 3) (wordTower u) r
      ∧ ((∃ v, s.loader.state = .section_ v) → r = .refusedBusy ∧ t.loader = s.loader)
      ∧ ((∀ v, s.loader.state ≠ .section_ v) →
          r = .accepted
            ∧ t.loader = { s.loader with
                state := .section_ u
                spi := ⟨false, [0x03#8, 0, 0], [.csLow, .send 0x03#8, .send 0, .send 0]⟩ })
      ∧ s.samePort t ∧ s.sameSetup t ∧ t.coverage = s.coverage ∧ s.sameTowers t ∧ t.engine = s.engine
      ∧ t.loop = s.loop ∧ s.sameSettings t ∧ s.sameEvents t)
  ∧ ((∀ (s : State) (cls : MasterClass) (addr : Addr) (rest : BitVec 24) (u : Tower),
    s.admitsCommand cls addr (codeWord rest 4) (wordTower u) →
    ∃ t r, exec (.loopOn cls addr rest) s = .next t
      ∧ s.tookCommand t cls addr (codeWord rest 4) (wordTower u) r
      ∧ (s.towers[u].service = .unconfigured ∨ s.towers[u].service = .faulted →
          r = .refusedState ∧ s.sameTowers t)
      ∧ (s.towers[u].service ≠ .unconfigured → s.towers[u].service ≠ .faulted →
          r = .accepted
            ∧ (s.towers[u].loop ≠ .off → s.sameTowers t)
            ∧ (s.towers[u].loop = .off → ∀ ls, s.towers[u].settings = some ls →
                t.towers[u] = { s.towers[u] with loop := .settling, settle := ls.sheets }))
      ∧ (∀ v : Tower, v ≠ u → t.towers[v] = s.towers[v]) ∧ t.link = s.link
      ∧ s.samePort t ∧ s.sameSetup t ∧ t.coverage = s.coverage ∧ t.engine = s.engine ∧ t.loop = s.loop
      ∧ t.loader = s.loader ∧ s.sameSettings t ∧ s.sameEvents t)
  ∧ ∀ (s : State) (cls : MasterClass) (addr : Addr) (rest : BitVec 24) (u : Tower),
    s.admitsCommand cls addr (codeWord rest 5) (wordTower u) →
    ∃ t r, exec (.loopOff cls addr rest) s = .next t
      ∧ s.tookCommand t cls addr (codeWord rest 5) (wordTower u) r
      ∧ (s.towers[u].service = .unconfigured → r = .refusedState ∧ s.sameTowers t)
      ∧ (s.towers[u].service ≠ .unconfigured →
          r = .accepted ∧ t.towers[u] = { s.towers[u] with loop := .off, settle := 0 })
      ∧ (∀ v : Tower, v ≠ u → t.towers[v] = s.towers[v]) ∧ t.link = s.link
      ∧ s.samePort t ∧ s.sameSetup t ∧ t.coverage = s.coverage ∧ t.engine = s.engine ∧ t.loop = s.loop
      ∧ t.loader = s.loader ∧ s.sameSettings t ∧ s.sameEvents t)

/-- CLEAR_FAULTS: REFUSED_STATE in UNCONFIGURED, else ACCEPTED; no present key stays in FAULT, a key that was in FAULT
has tries 0 and no fault, and one that is neither queued nor dispatched by it stays as it was or IDLE; the value
fields stay (R76, R100). With the transmitter busy, so that it dispatches nothing at once: a key that was in FAULT is
QUEUED when the tower admits moves and its commanded is known, IDLE otherwise; the queued keys join the queue's tail in
slot order; every other record, and the in-flight set, stay as they are (R76). -/
def Obligations.ClearFaultsTakesKeysOutOfFault : Prop :=
  ∀ (s : State) (cls : MasterClass) (addr : Addr) (rest : BitVec 24) (u : Tower),
    s.admitsCommand cls addr (codeWord rest 6) (wordTower u) →
    ∃ t r, exec (.clearFaults cls addr rest) s = .next t
      ∧ s.tookCommand t cls addr (codeWord rest 6) (wordTower u) r
      ∧ (s.towers[u].service = .unconfigured → r = .refusedState ∧ s.sameTowers t)
      ∧ (s.towers[u].service ≠ .unconfigured → r = .accepted
          ∧ (∀ sl : Slot, s.towers[u].present sl = true → (s.towers[u].recs[sl]).move = .fault →
              (t.towers[u].recs[sl]).tries = 0 ∧ (t.towers[u].recs[sl]).fault = none
                ∧ (t.towers[u].recs[sl]).move ≠ .fault
                ∧ ((admitsMoves s.towers[u].service && (s.towers[u].recs[sl]).commanded.isSome) = false →
                    (t.towers[u].recs[sl]).move = .idle ∨ sl ∈ s.towers[u].queue)))
      ∧ (s.towers[u].service ≠ .unconfigured → s.link.tx ≠ .idle →
          (∀ sl : Slot, s.towers[u].present sl = true → (s.towers[u].recs[sl]).move = .fault →
              t.towers[u].recs[sl] = { s.towers[u].recs[sl] with
                tries := 0
                fault := none
                move := if admitsMoves s.towers[u].service && (s.towers[u].recs[sl]).commanded.isSome then .queued
                  else .idle })
            ∧ (∀ sl : Slot, s.towers[u].present sl = false ∨ (s.towers[u].recs[sl]).move ≠ .fault →
              t.towers[u].recs[sl] = s.towers[u].recs[sl])
            ∧ t.towers[u].queue = s.towers[u].queue ++ (List.finRange 49).filter (fun sl =>
                s.towers[u].present sl && decide ((s.towers[u].recs[sl]).move = .fault)
                  && admitsMoves s.towers[u].service && (s.towers[u].recs[sl]).commanded.isSome)
            ∧ t.towers[u].flight = s.towers[u].flight)
      ∧ (∀ (v : Tower) (sl : Slot), (t.towers[v].recs[sl]).values = (s.towers[v].recs[sl]).values)
      ∧ s.samePort t ∧ s.sameSetup t ∧ t.coverage = s.coverage ∧ t.engine = s.engine ∧ t.loop = s.loop
      ∧ t.loader = s.loader ∧ s.sameSettings t ∧ s.sameEvents t

/-! ### The memory port -/

/-- MP_GRANT on a free port: the pass-through side is granted when only it waits or the head's pass-over count is
below L, for the waiting class that comes first after the pointer in the order CONSOLE, PREPRESS, SCANBAR, SERVICE,
CONSOLE and so on, the count rising when a head waits; the head is granted when only it waits or the count has reached
L, the count returning to 0; with nothing waiting nothing changes (R15, R16). A plain access goes to the port as it
was presented, its byte address with it, a fold reads its whole word, a forwarded write carries the master's datum, an
answer write the word's datum as of the grant (R2, R9, R11, R27, R28). A granted plain write, ORDER_WRITE,
NOTICE_WRITE or PRELOAD write makes the frame UNFIT in whose image one of its words lies, which keeps its sums, a fold
in the latch into it becoming void and nothing else of the coverage unit changing, and where it was fit BANK is
reported (R29, R34, R36, R37). An answer write takes its word out of the mirror set and withdraws that word's queued
MIRROR_WRITE, which frees the channel (R18, R162); a MIRROR_WRITE takes its word out of the set (R160), a NOTICE_WRITE
clears the notice-pending flag (R166), and no other word leaves the set. What each request puts on the port: its
words, enables and data (R2, 12.3). Choices of the model: the head is granted at any count of L or more, where R16
says that it equals L (log 15); the watch sees a granted plain write in every part state (log 11); the words of an
ORDER_READ or an ORDER_WRITE that lie past the end of the 28-bit address space wrap to its start (log 14); a grant
with nothing waiting, which cannot occur, changes nothing (log 1). -/
def Obligations.GrantFollowsTheArbiter : Prop :=
  (classCode .console = 0 ∧ classCode .prepress = 1 ∧ classCode .scanbar = 2 ∧ classCode .service = 3)
  ∧ (∀ s : State, s.port.holder = none →
    (∀ (c : MasterClass) (a : Access) (p : Purpose), s.bus.get c = some ⟨a, .claim p⟩ →
      (∀ d b q, s.bus.get d = some ⟨b, .claim q⟩ →
        (classCode c + 3 - classCode s.port.pointer) % 4 ≤ (classCode d + 3 - classCode s.port.pointer) % 4) →
      (s.port.queue = [] ∨ s.port.passOver < s.port.limit) →
      ∃ t w, exec .mpGrant s = .next t ∧ t.port.holder = some (.passThrough c w) ∧ t.port.pointer = c
        ∧ w.addr = a.addr.toNat ∧ t.bus.get c = some ⟨a, .granted p⟩
        ∧ (∀ d, d ≠ c → t.bus.get d = s.bus.get d)
        ∧ (p = .plain → w.dir = a.dir ∧ w.enables = a.enables ∧ (a.dir = .write → w.data = a.data))
        ∧ (p = .foldRead → w.dir = .read ∧ w.enables = 15)
        ∧ (p = .foldWrite ∨ p = .measure ∨ (∃ i, p = .commit i) →
            w.dir = .write ∧ w.enables = 15 ∧ w.data = a.data)
        ∧ ((∀ v r i, p ≠ .answer v r i) →
            t.port.passOver = (if s.port.queue = [] then s.port.passOver else s.port.passOver + 1)
              ∧ s.port.queue <+: t.port.queue
              ∧ ∀ x : CtlWord, x ≠ 4 → t.control.mirror.getLsbD x.val = s.control.mirror.getLsbD x.val)
        ∧ (∀ v r i, p = .answer v r i → w.dir = .write ∧ w.data = s.wordDatum v r i ∧ w.enables = 15
            ∧ t.control.mirror.getLsbD v.val = false
            ∧ (∀ x : CtlWord, x ≠ v → t.control.mirror.getLsbD x.val = s.control.mirror.getLsbD x.val)
            ∧ s.port.queue.filter (fun q => match q with
                | .mirrorWrite x _ => decide (x ≠ v)
                | _ => true) <+: t.port.queue
            ∧ (∀ adr, IReq.mirrorWrite v adr ∉ t.port.queue)
            ∧ (∀ adr, IReq.mirrorWrite v adr ∈ s.port.queue → t.control.channel
                = ({ s with control := { s.control with mirror := t.control.mirror, channel := none } } :
                    State).offerChannel.control.channel)
            ∧ t.port.passOver = (match s.port.queue with
                | [] => s.port.passOver
                | .mirrorWrite x _ :: _ => if x = v then 0 else s.port.passOver + 1
                | _ :: _ => s.port.passOver + 1))
        ∧ (p ≠ .plain ∨ a.dir = .read → t.coverage = s.coverage)
        ∧ ((∀ v r i, p ≠ .answer v r i) → p ≠ .plain ∨ a.dir = .read →
            t.control = s.offerChannel.control ∧ t.port.queue = s.offerChannel.port.queue)
        ∧ (p = .plain → a.dir = .write →
            s.coverage.madeUnfit t.coverage (s.coverage.holdsWord (wordAddr w.addr))
              ∧ t.coverage.geometry = s.coverage.geometry
              ∧ ∀ bk u, s.coverage.holdsWord (wordAddr w.addr) bk u → (s.coverage.frame bk u).fit = true →
                s.control.part = .running → t.control.mirror.getLsbD 4 = true)
        ∧ s.sameMemory t ∧ t.lastResponse = s.lastResponse ∧ s.sameSetup t ∧ s.sameTowers t
        ∧ t.engine = s.engine ∧ t.loop = s.loop ∧ t.loader = s.loader ∧ s.sameSettings t ∧ s.sameEvents t)
    ∧ (∀ (r : IReq) (rest : List IReq), s.port.queue = r :: rest →
      ((∀ d b q, s.bus.get d ≠ some ⟨b, .claim q⟩) ∨ s.port.limit ≤ s.port.passOver) →
      ∃ t, exec .mpGrant s = .next t ∧ t.port.holder = some (.internal r (s.reqWords r) false)
        ∧ rest <+: t.port.queue ∧ t.port.passOver = 0 ∧ t.port.pointer = s.port.pointer ∧ t.bus = s.bus
        ∧ ((∃ a h w, r = .orderWrite a h w) ∨ (∃ a d, r = .noticeWrite a d) ∨ (∃ a d, r = .preloadWrite a d) →
            s.coverage.madeUnfit t.coverage
                (fun bk u => ∃ x ∈ s.reqWords r, s.coverage.holdsWord (wordAddr x.addr) bk u)
              ∧ t.coverage.geometry = s.coverage.geometry
              ∧ ∀ x ∈ s.reqWords r, ∀ bk u, s.coverage.holdsWord (wordAddr x.addr) bk u →
                (s.coverage.frame bk u).fit = true → s.control.part = .running → t.control.mirror.getLsbD 4 = true)
        ∧ ((∃ a, r = .clearWrite a) ∨ (∃ a, r = .orderRead a) ∨ (∃ i a, r = .slotRead i a)
            ∨ (∃ v a, r = .mirrorWrite v a) → t.coverage = s.coverage)
        ∧ (∀ v a, r = .mirrorWrite v a → t.control.mirror.getLsbD v.val = false)
        ∧ (∀ x : CtlWord, x ≠ 4 → (∀ a, r ≠ .mirrorWrite x a) →
            t.control.mirror.getLsbD x.val = s.control.mirror.getLsbD x.val)
        ∧ t.control.noticePending = (match r with
            | .noticeWrite _ _ => false
            | _ => s.control.noticePending)
        ∧ t.control.flags = s.control.flags ∧ t.control.capture = s.control.capture ∧ t.control.line = s.control.line
        ∧ s.sameMemory t ∧ t.lastResponse = s.lastResponse ∧ s.sameSetup t ∧ s.sameTowers t
        ∧ t.engine = s.engine ∧ t.loop = s.loop ∧ t.loader = s.loader ∧ s.sameSettings t)
    ∧ ((∀ d b q, s.bus.get d ≠ some ⟨b, .claim q⟩) → s.port.queue = [] →
      ∃ t, exec .mpGrant s = .next t ∧ t.port.holder = none ∧ t.bus = s.bus ∧ s.sameControl t ∧ s.sameSetup t
        ∧ t.lastResponse = s.lastResponse ∧ s.sameMemory t ∧ s.sameBlocks t))
  ∧ (∀ (s : State) (a : Nat) (h : Half) (d : Word) (i : Fin 16) (v : CtlWord),
    s.reqWords (.clearWrite a) = [⟨a, .write, 15, 0⟩]
      ∧ s.reqWords (.orderRead a) = (List.range 8).map (fun n => ⟨(a + 4 * n) % 2 ^ 28, .read, 15, 0⟩)
      ∧ s.reqWords (.orderWrite a h d)
        = [⟨(a + 24) % 2 ^ 28, .write, 0b1100#4, h ++ (0 : Half)⟩, ⟨(a + 28) % 2 ^ 28, .write, 15, d⟩]
      ∧ s.reqWords (.slotRead i a) = (List.range 31).map (fun n => ⟨a + 4 * n, .read, 15, 0⟩)
      ∧ s.reqWords (.mirrorWrite v a) = [⟨a, .write, 15, s.wordDatum v s.control.last[v] s.engine.startIndex⟩]
      ∧ s.reqWords (.noticeWrite a d) = [⟨a, .write, 15, d⟩]
      ∧ s.reqWords (.preloadWrite a d) = [⟨a, .write, 15, d⟩])
  ∧ ∀ (m : List Host.Cell) (ws : List PortWord),
    readData m ws = ws.map (fun w => wordOfBytes (Memory.byte m (wordAddr w.addr)) (Memory.byte m (wordAddr w.addr + 1))
      (Memory.byte m (wordAddr w.addr + 2)) (Memory.byte m (wordAddr w.addr + 3)))

/-- PASS_THROUGH_RESPONSE for a plain access: OK with the enabled bytes for a read, OK for a write, a bus error on
ERROR; the port is free, memory changes by the written word alone, no event is raised, and of the control unit and
the port nothing else changes but the request offered on a free channel (R1, R2, R9, R161). For a forwarded
MEASURE write: OK or, on ERROR, a bus error, and nothing else (R9, R144). For an access whose master a pin reset has
answered: the word is written or read at memory, and no master is answered (R20). A read changes
nothing in memory; whether a write answered ERROR has landed is what the answer says (R28, R123), which is how the
model leaves it open (log 4). -/
def Obligations.PlainAccessIsAnswered : Prop :=
  (∀ (s : State) (a : Access) (w : PortWord) (ans : MemAnswer), s.holdsPass a .plain w →
    ∃ t, exec (.passThroughResponse ans) s = .next t ∧ t.port.holder = none ∧ t.bus.get a.cls = none
      ∧ t.lastResponse.get a.cls = some (match ans, a.dir with
          | .error _, _ => .busError
          | .ok, .read => .okRead a.enables (Memory.word s.mem (wordAddr w.addr) &&& enableMask a.enables)
          | .ok, .write => .ok)
      ∧ t.mem = Memory.answer s.mem w ans
      ∧ (s.memCanonical → ∀ x : Nat, (w.dir = .read ∨ x < wordAddr w.addr ∨ wordAddr w.addr + 4 ≤ x) →
          Memory.byte t.mem x = Memory.byte s.mem x)
      ∧ (s.memCanonical → w.dir = .write → ans = .ok → ∀ b : Nat, b < 4 →
          Memory.byte t.mem (wordAddr w.addr + b)
            = if w.enables.getLsbD b then byteOf w.data b else Memory.byte s.mem (wordAddr w.addr + b))
      ∧ t.control = s.offerChannel.control ∧ t.port = { s.offerChannel.port with holder := none }
      ∧ s.sameOthers a.cls t ∧ s.sameSetup t ∧ s.sameBlocks t ∧ s.sameSettings t ∧ s.sameEvents t)
  ∧ (∀ (s : State) (a : Access) (w : PortWord) (ans : MemAnswer), s.holdsPass a .measure w →
    ∃ t, exec (.passThroughResponse ans) s = .next t ∧ t.port.holder = none ∧ t.bus.get a.cls = none
      ∧ t.lastResponse.get a.cls = some (if ans = .ok then .ok else .busError)
      ∧ t.mem = Memory.answer s.mem w ans ∧ s.sameOthers a.cls t
      ∧ t.control = s.offerChannel.control ∧ t.port = { s.offerChannel.port with holder := none } ∧ s.sameSetup t
      ∧ s.sameBlocks t ∧ s.sameSettings t ∧ s.sameEvents t)
  ∧ (∀ (s : State) (w : PortWord) (ans : MemAnswer), s.port.holder = some (.orphan w) →
    ∃ t, exec (.passThroughResponse ans) s = .next t ∧ t.port.holder = none ∧ t.bus = s.bus
      ∧ t.lastResponse = s.lastResponse ∧ t.mem = Memory.answer s.mem w ans
      ∧ t.control = s.offerChannel.control ∧ t.port = { s.offerChannel.port with holder := none } ∧ s.sameSetup t
      ∧ s.sameBlocks t ∧ s.sameSettings t ∧ s.sameEvents t)
  ∧ (∀ (m : List Host.Cell) (w : PortWord), Memory.answer m w (.error true) = Memory.answer m w .ok
    ∧ Memory.answer m w (.error false) = m ∧ (w.dir = .read → ∀ x, Memory.answer m w x = m))
  ∧ ∀ (en : BitVec 4) (i : Nat), i < 32 → (enableMask en).getLsbD i = en.getLsbD (i / 8)

/-- FOLD_READ_RESPONSE: OK latches the old samples and claims the forwarded write; ERROR ends the fold with a bus
error and MEMORY_FAULT, no sum and no fitness changed (R27). The latch is then empty, and the write that waits longest
is taken: refused with BANK_REFUSED when it fails a check of R26, and the next one taken, or latched with its old-word
read claimed, those behind it waiting on; none is latched when none waits or none passes (R25, R26); one that a RELOAD
has overtaken is refused in every part state (R39). Choices of the model: the waiting write is taken within this
response (log 8), and one whose word lies outside the coverage range is refused (log 29). An ERROR is stated over
press-bus accesses in order, which every step keeps so (EveryStepKeepsTheMoveAccount). -/
def Obligations.FoldReadIsAnswered : Prop :=
  ∀ (s : State) (a : Access) (w : PortWord) (f : Fold), s.holdsPass a .foldRead w → s.coverage.latch = some f →
    w.dir = .read →
    (∃ t, exec (.foldReadResponse .ok) s = .next t ∧ t.port.holder = none
      ∧ t.bus.get a.cls = some ⟨a, .claim .foldWrite⟩
      ∧ t.coverage = { s.coverage with latch := some { f with old := some (Memory.word s.mem (wordAddr w.addr)) } }
      ∧ t.lastResponse = s.lastResponse ∧ s.sameOthers a.cls t ∧ s.sameMemory t ∧ s.sameSetup t ∧ s.sameTowers t
      ∧ t.engine = s.engine ∧ t.loop = s.loop ∧ t.loader = s.loader ∧ s.sameSettings t ∧ s.sameEvents t)
    ∧ (s.accessesOk → ∀ l : Bool,
      ∃ t, exec (.foldReadResponse (.error l)) s = .next t ∧ t.port.holder = none ∧ t.bus.get a.cls = none
        ∧ t.lastResponse.get a.cls = some .busError ∧ s.waitersTaken s.coverage t
        ∧ t.control.flags.getLsbD (flagBit .memoryFault) = true
        ∧ t.coverage = { s.coverage with latch := t.coverage.latch, waiting := t.coverage.waiting }
        ∧ (s.coverage.waiting = [] → t.coverage.latch = none ∧ s.raised .memoryFault t
            ∧ t.control.capture = s.control.capture ∧ s.sameOthers a.cls t)
        ∧ s.sameMemory t ∧ s.sameSetup t ∧ s.sameTowers t ∧ t.engine = s.engine ∧ t.loop = s.loop
        ∧ t.loader = s.loader ∧ s.sameSettings t)

/-- FOLD_WRITE_RESPONSE with no write waiting: OK adds each sample's difference to its key's sum unless the fold is
void, and answers OK; ERROR makes the frame UNFIT unless a CLEAR made the fold void, raises MEMORY_FAULT and answers a
bus error, with the sums kept (R28, R29). With writes waiting, over press-bus accesses in order, which every step
keeps so (EveryStepKeepsTheMoveAccount), the access is answered so as well, and the write that waits longest is then
taken, over the fitness the fold leaves: refused with BANK_REFUSED and the next one taken, or latched (R25, R26, R39).
Memory holds the word when the answer says that it landed, and no other word changes. Choices of the model: a CLEAR
spares the frame also of a fold that was void by another cause before it (log 27), the waiting write is taken within
this response (log 8), and one whose word lies outside the coverage range is refused (log 29). The sums of a fold:
each sample whose column belongs to a key adds its new value less its old one, margin columns change no sum, and the
fit flag stays; sample c is byte c of a word (R28). A frame made UNFIT keeps its sums, and no other frame changes
(R36). -/
def Obligations.FoldWriteIsAnswered : Prop :=
  (∀ (s : State) (a : Access) (w : PortWord) (f : Fold) (old : Word), s.holdsPass a .foldWrite w →
    s.coverage.latch = some f → f.old = some old → s.coverage.waiting = [] →
    (∃ t, exec (.foldWriteResponse .ok) s = .next t ∧ t.port.holder = none ∧ t.bus.get a.cls = none
      ∧ t.lastResponse.get a.cls = some .ok ∧ t.coverage.latch = none
      ∧ t.mem = Memory.answer s.mem w .ok
      ∧ t.coverage.frame f.bank f.tower
          = (if f.void then s.coverage.frame f.bank f.tower
              else foldSums f.owners old f.new (s.coverage.frame f.bank f.tower))
      ∧ (∀ bk u, (bk, u) ≠ (f.bank, f.tower) → t.coverage.frame bk u = s.coverage.frame bk u)
      ∧ (∀ bk, (t.coverage.banks.get bk).state = (s.coverage.banks.get bk).state)
      ∧ t.coverage.active = s.coverage.active ∧ t.coverage.range = s.coverage.range
      ∧ t.coverage.geometry = s.coverage.geometry ∧ t.coverage.cursor = s.coverage.cursor
      ∧ s.sameOthers a.cls t ∧ s.sameSetup t ∧ s.sameTowers t ∧ t.engine = s.engine ∧ t.loop = s.loop
      ∧ t.loader = s.loader ∧ s.sameSettings t ∧ s.sameEvents t)
    ∧ ∀ l : Bool,
      ∃ t, exec (.foldWriteResponse (.error l)) s = .next t ∧ t.port.holder = none ∧ t.bus.get a.cls = none
        ∧ t.lastResponse.get a.cls = some .busError ∧ t.coverage.latch = none ∧ s.raised .memoryFault t
        ∧ t.control.capture = s.control.capture ∧ t.mem = Memory.answer s.mem w (.error l)
        ∧ t.coverage.frame f.bank f.tower
            = ⟨if f.cleared then (s.coverage.frame f.bank f.tower).fit else false,
                (s.coverage.frame f.bank f.tower).sums⟩
        ∧ (∀ bk u, (bk, u) ≠ (f.bank, f.tower) → t.coverage.frame bk u = s.coverage.frame bk u)
        ∧ (∀ bk, (t.coverage.banks.get bk).state = (s.coverage.banks.get bk).state)
        ∧ t.coverage.active = s.coverage.active ∧ t.coverage.range = s.coverage.range
        ∧ t.coverage.geometry = s.coverage.geometry ∧ t.coverage.cursor = s.coverage.cursor
        ∧ s.sameOthers a.cls t ∧ s.sameSetup t ∧ s.sameTowers t ∧ t.engine = s.engine ∧ t.loop = s.loop
        ∧ t.loader = s.loader)
  ∧ (∀ (s : State) (a : Access) (w : PortWord) (f : Fold) (old : Word), s.holdsPass a .foldWrite w →
    s.coverage.latch = some f → f.old = some old → s.accessesOk →
    (∃ t, exec (.foldWriteResponse .ok) s = .next t ∧ t.port.holder = none ∧ t.bus.get a.cls = none
      ∧ t.lastResponse.get a.cls = some .ok ∧ s.waitersTaken s.coverage t
      ∧ t.mem = Memory.answer s.mem w .ok
      ∧ t.coverage.frame f.bank f.tower
          = (if f.void then s.coverage.frame f.bank f.tower
              else foldSums f.owners old f.new (s.coverage.frame f.bank f.tower))
      ∧ (∀ bk u, (bk, u) ≠ (f.bank, f.tower) → t.coverage.frame bk u = s.coverage.frame bk u)
      ∧ (∀ bk, (t.coverage.banks.get bk).state = (s.coverage.banks.get bk).state)
      ∧ t.coverage.active = s.coverage.active ∧ t.coverage.range = s.coverage.range
      ∧ t.coverage.geometry = s.coverage.geometry ∧ t.coverage.cursor = s.coverage.cursor
      ∧ s.sameSetup t ∧ s.sameTowers t ∧ t.engine = s.engine ∧ t.loop = s.loop ∧ t.loader = s.loader
      ∧ s.sameSettings t)
    ∧ ∀ l : Bool,
      ∃ t, exec (.foldWriteResponse (.error l)) s = .next t ∧ t.port.holder = none ∧ t.bus.get a.cls = none
        ∧ t.lastResponse.get a.cls = some .busError ∧ t.control.flags.getLsbD (flagBit .memoryFault) = true
        ∧ t.mem = Memory.answer s.mem w (.error l)
        ∧ s.waitersTaken (if f.cleared then s.coverage else s.coverage.unfit f.bank f.tower) t
        ∧ t.coverage.frame f.bank f.tower
            = ⟨if f.cleared then (s.coverage.frame f.bank f.tower).fit else false,
                (s.coverage.frame f.bank f.tower).sums⟩
        ∧ (∀ bk u, (bk, u) ≠ (f.bank, f.tower) → t.coverage.frame bk u = s.coverage.frame bk u)
        ∧ (∀ bk, (t.coverage.banks.get bk).state = (s.coverage.banks.get bk).state)
        ∧ t.coverage.active = s.coverage.active ∧ t.coverage.range = s.coverage.range
        ∧ t.coverage.geometry = s.coverage.geometry ∧ t.coverage.cursor = s.coverage.cursor
        ∧ s.sameSetup t ∧ s.sameTowers t ∧ t.engine = s.engine ∧ t.loop = s.loop ∧ t.loader = s.loader
        ∧ s.sameSettings t)
  ∧ (∀ (o0 o1 o2 o3 : Option (Fin 48)) (old new : Word) (f : Frame) (k : Fin 48),
    (foldSums [o0, o1, o2, o3] old new f).sums[k]
        = f.sums[k] + (if o0 = some k then sample new 0 - sample old 0 else 0)
          + (if o1 = some k then sample new 1 - sample old 1 else 0)
          + (if o2 = some k then sample new 2 - sample old 2 else 0)
          + (if o3 = some k then sample new 3 - sample old 3 else 0)
      ∧ (foldSums [o0, o1, o2, o3] old new f).fit = f.fit)
  ∧ (∀ (x : Word) (i : Nat), sample x i = (x.extractLsb' (8 * i) 8).toNat)
  ∧ ∀ (c : Coverage) (bk : BankId) (u : Tower),
    c.madeUnfit (c.unfit bk u) (fun k v => k = bk ∧ v = u) ∧ (c.unfit bk u).geometry = c.geometry

/-- COMMIT_RESPONSE: OK answers OK and puts the slot at the read list's tail; ERROR answers a bus error and frees the
slot, no event raised (R145); the SLOT_READ of the list's head is offered when none is in flight, and not otherwise
(R146). Memory changes
by the commit word alone, written when the answer says that it landed (R2). -/
def Obligations.CommitIsAnswered : Prop :=
  ∀ (s : State) (a : Access) (w : PortWord) (i : Fin 16), s.holdsPass a (.commit i) w →
    (∃ t, exec (.commitResponse .ok) s = .next t ∧ t.port.holder = none ∧ t.bus.get a.cls = none
      ∧ t.lastResponse.get a.cls = some .ok ∧ t.loop.readList = s.loop.readList ++ [i]
      ∧ t.loop = { s.loop with readList := s.loop.readList ++ [i], reading := t.loop.reading }
      ∧ t.mem = Memory.answer s.mem w .ok
      ∧ (s.loop.reading = true ∨ windowBase .measure s.windows = none → t.loop.reading = s.loop.reading
          ∧ ∀ h adr, IReq.slotRead h adr ∈ t.port.queue → IReq.slotRead h adr ∈ s.port.queue)
      ∧ (∀ base h l, s.loop.reading = false → windowBase .measure s.windows = some base →
          s.loop.readList ++ [i] = h :: l →
          t.loop.reading = true ∧ s.port.queue ++ [.slotRead h (base + 128 * h.val)] <+: t.port.queue)
      ∧ s.sameOthers a.cls t ∧ s.sameSetup t ∧ t.coverage = s.coverage ∧ s.sameTowers t ∧ t.engine = s.engine
      ∧ t.loader = s.loader ∧ s.sameSettings t ∧ s.sameEvents t)
    ∧ ∀ l : Bool,
      ∃ t, exec (.commitResponse (.error l)) s = .next t ∧ t.port.holder = none ∧ t.bus.get a.cls = none
        ∧ t.lastResponse.get a.cls = some .busError
        ∧ t.loop = { s.loop with slots := s.loop.slots.set i .free } ∧ t.mem = Memory.answer s.mem w (.error l)
        ∧ s.sameOthers a.cls t ∧ s.sameSetup t ∧ t.coverage = s.coverage ∧ s.sameTowers t ∧ t.engine = s.engine
        ∧ t.loader = s.loader ∧ s.sameSettings t ∧ s.sameEvents t

/-- ANSWER_WRITE_RESPONSE: the master receives OK, or a bus error with the word put into the mirror set while the part
is RUNNING (R11, R160). The datum of a control word, in an answer as in a mirror write: the result code, for START the
index, and the state fields at their places, every other bit 0 (R34, R100, R133, R140, R153, R157, R158, R159, R164,
R165, R167, 12.1, 12.2). The UNKNOWN and FAULT counts are taken over the present slots, so that an UNCONFIGURED tower
shows 0, which is the model's choice (log 34). A word's datum is made of its fields, its result and its index alone, and
the words stand at their numbers (12.2). -/
def Obligations.AnswerWriteIsAnswered : Prop :=
  (∀ (s : State) (a : Access) (w : PortWord) (v : CtlWord) (r : Result) (i : Byte) (ans : MemAnswer),
    s.holdsPass a (.answer v r i) w →
    ∃ t, exec (.answerWriteResponse ans) s = .next t ∧ t.port.holder = none ∧ t.bus.get a.cls = none
      ∧ t.lastResponse.get a.cls = some (if ans = .ok then .ok else .busError)
      ∧ t.mem = Memory.answer s.mem w ans
      ∧ (ans ≠ .ok → s.control.part = .running → t.control.mirror.getLsbD v.val = true)
      ∧ (ans = .ok → t.control.mirror = s.control.mirror)
      ∧ s.sameOthers a.cls t ∧ s.sameSetup t ∧ s.sameBlocks t ∧ s.sameSettings t ∧ s.sameEvents t)
  ∧ (∀ (s : State) (r : Result) (i : Byte) (f : CtlWord → Nat → Nat → Nat),
    (∀ v bit len, f v bit len = ((s.wordDatum v r i).extractLsb' bit len).toNat) →
    (f 0 0 3 = resultCode r ∧ f 0 3 5 = 0 ∧ f 0 8 8 = i.toNat ∧ f 0 16 2 = engineCode s.engine.state ∧ f 0 18 14 = 0)
    ∧ (f 1 0 3 = resultCode r ∧ f 1 3 29 = 0)
    ∧ (f 2 0 14 = s.control.flags.toNat ∧ f 2 14 18 = 0)
    ∧ (f 3 0 14 = s.control.enables.toNat ∧ f 3 14 18 = 0)
    ∧ (f 4 0 3 = resultCode r ∧ f 4 3 5 = 0 ∧ f 4 8 2 = bankCode s.coverage.banks.a.state
      ∧ f 4 10 2 = bankCode s.coverage.banks.b.state ∧ f 4 12 1 = (if s.coverage.active = .a then 0 else 1)
      ∧ f 4 13 19 = 0)
    ∧ (f 5 0 2 = partCode s.control.part ∧ f 5 2 2 = engineCode s.engine.state ∧ f 5 4 12 = 0
      ∧ (∀ u : Tower, f 5 (16 + u.val) 1 = if s.towers[u].service = .unconfigured then 0 else 1) ∧ f 5 28 4 = 0)
    ∧ (f 6 0 28 = s.control.capture.addr.toNat ∧ f 6 28 2 = classCode s.control.capture.cls ∧ f 6 30 1 = 0
      ∧ f 6 31 1 = if s.control.capture.valid then 1 else 0)
    ∧ (r = .accepted → f 7 0 1 = 0 ∧ f 7 1 3 = dropCode s.loop.status.reason ∧ f 7 4 4 = s.loop.status.slot.val
      ∧ f 7 8 4 = (match s.loop.status.dropTower with
          | none => 15
          | some x => min x.toNat 12)
      ∧ f 7 12 4 = (match s.loop.status.applied with
          | none => 15
          | some u => u.val)
      ∧ f 7 16 16 = s.loop.status.sheetTag.toNat)
    ∧ (∀ k : Source, f (wordBind k) 0 3 = resultCode r
      ∧ f (wordBind k) 3 1 = (if (s.engine.bindings.get k).armed then 1 else 0)
      ∧ f (wordBind k) 4 1 = (if (s.engine.bindings.get k).pending then 1 else 0) ∧ f (wordBind k) 5 3 = 0
      ∧ f (wordBind k) 8 6 = (s.engine.bindings.get k).index % 64 ∧ f (wordBind k) 14 2 = 0
      ∧ f (wordBind k) 16 8 = (if k = .sheet then s.engine.divisor % 256 else 0) ∧ f (wordBind k) 24 8 = 0)
    ∧ (f 13 0 6 = s.engine.head % 64 ∧ f 13 6 6 = s.engine.current % 64 ∧ f 13 12 7 = s.engine.visited % 128
      ∧ f 13 19 1 = (if s.engine.bindings.sheet.pending then 1 else 0)
      ∧ f 13 20 1 = (if s.engine.bindings.jobchg.pending then 1 else 0)
      ∧ f 13 21 1 = (if s.engine.bindings.imprOn.pending then 1 else 0)
      ∧ f 13 22 1 = (if s.engine.bindings.imprOff.pending then 1 else 0)
      ∧ f 13 23 1 = (if s.engine.bindings.measure.pending then 1 else 0)
      ∧ f 13 24 1 = (if s.engine.slot = none then 0 else 1) ∧ f 13 25 6 = (s.engine.slot.getD 0) % 64 ∧ f 13 31 1 = 0)
    ∧ (f 14 0 3 = resultCode r ∧ f 14 3 5 = 0 ∧ f 14 8 2 = partCode s.control.part ∧ f 14 10 22 = 0)
    ∧ ∀ u : Tower, f (wordTower u) 0 3 = resultCode r ∧ f (wordTower u) 3 3 = serviceCode s.towers[u].service
      ∧ f (wordTower u) 6 2 = loopCode s.towers[u].loop ∧ f (wordTower u) 8 3 = s.towers[u].flight.length % 8
      ∧ f (wordTower u) 11 6 = s.towers[u].queue.length % 64
      ∧ f (wordTower u) 17 6 = ((List.finRange 49).filter (fun sl =>
          s.towers[u].present sl && (s.towers[u].recs[sl]).commanded.isNone)).length % 64
      ∧ f (wordTower u) 23 6 = ((List.finRange 49).filter (fun sl =>
          s.towers[u].present sl && decide ((s.towers[u].recs[sl]).move = .fault))).length % 64
      ∧ f (wordTower u) 29 3 = 0)
  ∧ ([wordBind .sheet, wordBind .jobchg, wordBind .imprOn, wordBind .imprOff, wordBind .measure] = [8, 9, 10, 11, 12]
    ∧ ∀ u : Tower, (wordTower u).val = 16 + u.val)
  ∧ ([Result.accepted, .queued, .refusedBusy, .refusedRange, .refusedState, .notRunning, .badCode].map resultCode
      = [0, 1, 2, 3, 4, 5, 6]
    ∧ [PartState.loading, .passOnly, .running].map partCode = [0, 1, 2]
    ∧ [EngineState.idle, .fetching, .writingBack].map engineCode = [0, 1, 2]
    ∧ [BankState.stale, .clearing, .opened, .locked].map bankCode = [0, 1, 2, 3]
    ∧ [Service.unconfigured, .parked, .parking, .ready, .printing, .faulted].map serviceCode = [0, 1, 2, 3, 4, 5]
    ∧ [LoopState.off, .settling, .armed].map loopCode = [0, 1, 2]
    ∧ [DropReason.none, .busy, .memory, .badRecord, .towerState, .loopState, .noCoverage].map dropCode
      = [0, 1, 2, 3, 4, 5, 6]
    ∧ [EventFlag.orderDone, .orderFault, .keyFault, .towerDown, .towerUp, .bankReady, .bankRefused, .measureApplied,
        .measureDropped, .triggerMerged, .protectHit, .windowMisfit, .memoryFault, .configFault].map flagBit
      = [0, 1, 2, 3, 4, 5, 6, 7, 8, 9, 10, 11, 12, 13])
  ∧ [wordStart, wordStop, wordEvent, wordBank, wordPartStatus, wordRefusal, wordMeasure, wordEngine, wordReload]
    = [0, 1, 2, 4, 5, 6, 7, 13, 14]
  ∧ ∀ (s t : State) (v : CtlWord) (r : Result) (i : Byte), s.wordFields v = t.wordFields v →
    s.wordDatum v r i = t.wordDatum v r i

/-! ### Internal requests -/

/-- SLOT_READ_COMPLETE: the slot leaves the read list and is FREE; on ERROR MEMORY_FAULT is raised and the record is
dropped with reason MEMORY; on OK a record that fails the gate is dropped with its reason, and one that passes sets
the loop SETTLING at Ns, the applied fields and MEASURE_APPLIED, each key's correction by R151 and its target composed
of it (R50, R53, R54), with trims, bases, holds and ramps kept, and the MEASURE source fires once (R19, R149, R150,
R151, R152). In each case the slot leaves the read list and the SLOT_READ of the list's next head, if it has one, is
offered, behind an ORDER_READ that the firing has offered (R146); with the transmitter busy each key is handed on as
its target has changed (R55). The read changes no byte of memory (R2), and MEASURE_STATUS is reported in each case,
the tower's word with an application (R154). BAD_RECORD: the tower field names no configured tower, the key count is
not the tower's, or a density of one of its keys is above 4000 and not 65535. Then, in this order, TOWER_STATE when
the tower is not PRINTING, LOOP_STATE when its loop is not ARMED, NO_COVERAGE when the ACTIVE bank is not LOCKED or
the tower's frame in it is UNFIT (R149). A record that waited over a good reset of its tower is dropped with
LOOP_STATE (R156), unless the loop has become ARMED again, the model's reading (log 33). A record's fields at their
places (12.4). -/
def Obligations.MeasurementRecordIsJudged : Prop :=
  (∀ (s : State) (errors : BitVec 31) (i : Fin 16) (adr : Nat) (ws : List PortWord) (m : MeasureRec),
    s.holdsRequest (.slotRead i adr) ws → m = measureRec (readData s.mem ws) →
    ∃ t, exec (.slotReadComplete errors) s = .next t ∧ t.port.holder = none ∧ t.loop.slots = s.loop.slots.set i .free
      ∧ t.loop.readList = s.loop.readList.drop 1 ∧ t.loop.overReset = s.loop.overReset.set i 0
      ∧ t.coverage = s.coverage ∧ s.sameSetup t
      ∧ t.lastResponse = s.lastResponse ∧ t.bus = s.bus ∧ t.loader = s.loader
      ∧ (ws = s.reqWords (.slotRead i adr) → s.sameMemory t)
      ∧ (s.control.part = .running → t.control.mirror.getLsbD 7 = true)
      ∧ (∀ (h : Fin 16) (rest : List (Fin 16)) (b : Nat), s.loop.readList.drop 1 = h :: rest →
          windowBase .measure s.windows = some b →
          t.loop.reading = true
            ∧ (s.port.queue ++ [.slotRead h (b + 128 * h.val)] <+: t.port.queue
              ∨ s.engine.state = .idle ∧ t.engine.state = .fetching
                ∧ s.port.queue ++ [.orderRead t.engine.recordAddr, .slotRead h (b + 128 * h.val)] <+: t.port.queue))
      ∧ (s.loop.readList.drop 1 = [] ∨ windowBase .measure s.windows = none →
          t.loop.reading = false ∧ ∀ h a, IReq.slotRead h a ∈ t.port.queue → IReq.slotRead h a ∈ s.port.queue)
      ∧ (errors ≠ 0 →
          t.control.flags.getLsbD (flagBit .memoryFault) = true
            ∧ t.control.flags.getLsbD (flagBit .measureDropped) = true
            ∧ t.loop.status = { s.loop.status with reason := .memory, slot := i, dropTower := none }
            ∧ s.sameTowers t ∧ t.engine = s.engine)
      ∧ (errors = 0 → (frameTower m.tower.toNat = none ∨ s.badRecord m = true) →
          t.control.flags.getLsbD (flagBit .measureDropped) = true
            ∧ t.loop.status = { s.loop.status with reason := .badRecord, slot := i, dropTower := some m.tower }
            ∧ s.sameTowers t ∧ t.engine = s.engine)
      ∧ (∀ u why, errors = 0 → frameTower m.tower.toNat = some u → s.badRecord m = false →
          s.gateFault i u = some why →
          t.control.flags.getLsbD (flagBit .measureDropped) = true
            ∧ t.loop.status = { s.loop.status with reason := why, slot := i, dropTower := some m.tower }
            ∧ s.sameTowers t ∧ t.engine = s.engine)
      ∧ (∀ u ls, errors = 0 → frameTower m.tower.toNat = some u → s.badRecord m = false → s.gateFault i u = none →
          s.towers[u].settings = some ls →
          t.control.flags.getLsbD (flagBit .measureApplied) = true
            ∧ t.loop.status = { s.loop.status with applied := some u, sheetTag := m.sheetTag }
            ∧ t.towers[u].loop = .settling ∧ t.towers[u].settle = ls.sheets
            ∧ (∀ sl : Slot, s.towers[u].present sl = true →
                (t.towers[u].recs[sl]).correction
                  = if sl = fountainSlot then (s.towers[u].recs[sl]).correction
                    else corrected ls (s.coverage.read s.coverage.active u sl)
                      (m.densities.getD sl.val 65535) (s.towers[u].recs[sl]).correction)
            ∧ (∀ sl : Slot, s.towers[u].present sl = true → (t.towers[u].recs[sl]).target
                = composed s.towers[u].cfg s.towers[u].parkHold sl (t.towers[u].recs[sl]))
            ∧ (∀ sl : Slot, (t.towers[u].recs[sl]).trim = (s.towers[u].recs[sl]).trim
                ∧ (t.towers[u].recs[sl]).base = (s.towers[u].recs[sl]).base
                ∧ (t.towers[u].recs[sl]).hold = (s.towers[u].recs[sl]).hold
                ∧ (t.towers[u].recs[sl]).ramp = (s.towers[u].recs[sl]).ramp)
            ∧ (∀ (v : Tower) (sl : Slot), v ≠ u ∨ s.towers[u].present sl = false →
                (t.towers[v].recs[sl]).values = (s.towers[v].recs[sl]).values)
            ∧ (s.control.part = .running → t.control.mirror.getLsbD (16 + u.val) = true)
            ∧ (s.link.tx ≠ .idle → s.handedOn t) ∧ s.fired t .measure))
  ∧ (∀ n u, frameTower n = some u ↔ n = u.val)
  ∧ (∀ (s : State) (m : MeasureRec) (u : Tower) (c : KeyCfg), frameTower m.tower.toNat = some u →
      s.towers[u].cfg = some c →
      (s.badRecord m = true ↔ s.towers[u].service = .unconfigured ∨ m.keyCount ≠ c.k
        ∨ ∃ k d, k < c.k ∧ m.densities[k]? = some d ∧ 4000 < d ∧ d ≠ 65535))
  ∧ (∀ (s : State) (i : Fin 16) (u : Tower), s.gateFault i u
      = if s.loop.overReset[i].getLsbD u.val = true ∧ s.towers[u].loop ≠ .armed then some .loopState
        else if s.towers[u].service ≠ .printing then some .towerState
        else if s.towers[u].loop ≠ .armed then some .loopState
        else if (s.coverage.banks.get s.coverage.active).state ≠ .locked
            ∨ (s.coverage.frame s.coverage.active u).fit = false then some .noCoverage
        else none)
  ∧ ∀ ws : List Word, (measureRec ws).tower = (ws.getD 0 0).extractLsb' 0 8
      ∧ (measureRec ws).keyCount = ((ws.getD 0 0).extractLsb' 8 8).toNat
      ∧ (measureRec ws).sheetTag = (ws.getD 0 0).extractLsb' 16 16
      ∧ (measureRec ws).densities.length = 48
      ∧ ∀ k, k < 48 → (measureRec ws).densities[k]?
          = some ((ws.getD (1 + k / 2) 0).extractLsb' (16 * (k % 2)) 16).toNat

/-- The correction of a key with coverage c and density d (R151): left as it stands when not measured, below the
minimum coverage or within the deadband; else stepped by the error times the gain div 1000, rounded toward zero and
limited by S, and the sum limited by Lc. -/
def Obligations.CorrectionStep : Prop :=
  ∀ (ls : LoopSettings) (c d : Nat) (old : Int),
    (d = 65535 ∨ c < ls.minCoverage → corrected ls c d old = old)
      ∧ (d ≠ 65535 → ls.minCoverage ≤ c → ((ls.target : Int) - d).natAbs ≤ ls.deadband →
          corrected ls c d old = old)
      ∧ (d ≠ 65535 → ls.minCoverage ≤ c → ls.deadband < ((ls.target : Int) - d).natAbs →
          corrected ls c d old
              = max (-(ls.limit : Int)) (min ls.limit
                  (old + max (-(ls.step : Int)) (min ls.step ((((ls.target : Int) - d) * ls.gain).tdiv 1000))))
            ∧ -(ls.limit : Int) ≤ corrected ls c d old ∧ corrected ls c d old ≤ ls.limit)

/-- CLEAR_FIRST_OFFER: once the latch holds no fold into the bank being cleared the cursor offers its first word, and
not before, when nothing changes but the request that the control unit offers on a free channel (R35, R161).
CLEAR_WRITE_COMPLETE: OK offers the next word, or after the last makes the bank OPEN with BANK_READY; ERROR makes the
bank STALE with MEMORY_FAULT, its frames as they were, and a fold in the latch into it void; the cursor is then idle,
the roles, the geometry records and the range stay, and the BANK word is reported (R19, R29, R34, R35). The plan
lists, in ascending tower index, the first address and the image length of each frame of a tower with a geometry
record and an image of at least one word, and its words go in ascending address, frame after frame (R21, R22, R35). -/
def Obligations.ClearCursorWalksItsPlan : Prop :=
  (∀ (s : State) (c : Cursor) (adr : Nat), s.coverage.cursor = some c → c.started = false →
    planAddr c.plan c.word = some adr →
    ((∀ f, s.coverage.latch = some f → f.bank ≠ c.bank) →
      ∃ t, exec .clearFirstOffer s = .next t ∧ s.port.queue ++ [.clearWrite adr] <+: t.port.queue
        ∧ t.coverage = { s.coverage with cursor := some { c with started := true } } ∧ s.sameMemory t ∧ t.bus = s.bus
        ∧ s.sameSetup t ∧ s.sameTowers t ∧ t.engine = s.engine ∧ t.loop = s.loop ∧ t.loader = s.loader
        ∧ s.sameSettings t ∧ s.sameEvents t)
    ∧ ((∃ f, s.coverage.latch = some f ∧ f.bank = c.bank) →
      ∃ t, exec .clearFirstOffer s = .next t ∧ s.sameControl t ∧ s.sameBlocks t ∧ s.sameMemory t ∧ t.bus = s.bus
        ∧ t.lastResponse = s.lastResponse ∧ s.sameSetup t))
  ∧ (∀ (s : State) (c : Cursor) (adr : Nat) (ws : List PortWord), s.holdsRequest (.clearWrite adr) ws →
    s.coverage.cursor = some c →
    (∀ nxt, c.word + 1 < planWords c.plan → planAddr c.plan (c.word + 1) = some nxt →
      ∃ t, exec (.clearWriteComplete .ok) s = .next t ∧ t.port.holder = none
        ∧ t.coverage = { s.coverage with cursor := some { c with word := c.word + 1, started := true } }
        ∧ s.port.queue ++ [.clearWrite nxt] <+: t.port.queue ∧ t.mem = Memory.answers s.mem ws [.ok]
        ∧ t.bus = s.bus ∧ s.sameSetup t ∧ s.sameTowers t ∧ t.engine = s.engine ∧ t.loop = s.loop
        ∧ t.loader = s.loader ∧ s.sameSettings t ∧ s.sameEvents t)
    ∧ (planWords c.plan ≤ c.word + 1 →
      ∃ t, exec (.clearWriteComplete .ok) s = .next t ∧ t.port.holder = none ∧ t.coverage.cursor = none
        ∧ (t.coverage.banks.get c.bank).state = .opened
        ∧ (t.coverage.banks.get c.bank).frames = (s.coverage.banks.get c.bank).frames
        ∧ t.coverage.banks.get (otherBank c.bank) = s.coverage.banks.get (otherBank c.bank)
        ∧ t.coverage.latch = s.coverage.latch
        ∧ t.coverage.active = s.coverage.active ∧ t.coverage.geometry = s.coverage.geometry
        ∧ t.coverage.range = s.coverage.range ∧ t.coverage.waiting = s.coverage.waiting
        ∧ s.raised .bankReady t ∧ t.mem = Memory.answers s.mem ws [.ok] ∧ t.bus = s.bus ∧ s.sameSetup t
        ∧ (s.control.part = .running → t.control.mirror.getLsbD 4 = true)
        ∧ s.sameTowers t ∧ t.engine = s.engine ∧ t.loop = s.loop ∧ t.loader = s.loader)
    ∧ ∀ l : Bool,
      ∃ t, exec (.clearWriteComplete (.error l)) s = .next t ∧ t.port.holder = none ∧ t.coverage.cursor = none
        ∧ (t.coverage.banks.get c.bank).state = .stale
        ∧ (t.coverage.banks.get c.bank).frames = (s.coverage.banks.get c.bank).frames
        ∧ t.coverage.banks.get (otherBank c.bank) = s.coverage.banks.get (otherBank c.bank)
        ∧ t.coverage.latch = s.coverage.latch.map (fun f => if f.bank = c.bank then { f with void := true } else f)
        ∧ t.coverage.active = s.coverage.active ∧ t.coverage.geometry = s.coverage.geometry
        ∧ t.coverage.range = s.coverage.range ∧ t.coverage.waiting = s.coverage.waiting
        ∧ s.raised .memoryFault t ∧ t.mem = Memory.answers s.mem ws [.error l]
        ∧ (s.control.part = .running → t.control.mirror.getLsbD 4 = true)
        ∧ t.bus = s.bus ∧ s.sameSetup t ∧ s.sameTowers t ∧ t.engine = s.engine
        ∧ t.loop = s.loop ∧ t.loader = s.loader)
  ∧ (∀ (c : Coverage) (r : CoverRange) (bk : BankId), clearPlan c r bk
      = (List.finRange 12).filterMap (fun u => match c.geometry[u] with
        | none => none
        | some g => if r.size / 32 / g.w * g.w = 0 then none
          else some ⟨r.base + (if bk = .a then 0 else r.size / 2) + u.val * (r.size / 32), r.size / 32 / g.w * g.w⟩))
  ∧ (∀ plan : List Span, planWords plan = (plan.map (fun x => x.len / 4)).sum)
  ∧ (∀ n : Nat, planAddr [] n = none)
  ∧ ∀ (x : Span) (plan : List Span) (n : Nat), planAddr (x :: plan) n
      = if n < x.len / 4 then some (x.addr + 4 * n) else planAddr plan (n - x.len / 4)

/-- MIRROR_WRITE_COMPLETE and NOTICE_WRITE_COMPLETE: the written word is answered and the port is free; a failed
mirror write puts its word back into the mirror set while RUNNING; ERROR raises MEMORY_FAULT, and the notice is not
retried by its completion (R19, R160, R161, R166). The request channel: when it is free the next PRELOAD write is
offered, or else the pending notice, or else the mirror write of the first word of the set after the pointer, which
the pointer then names, at its place in the CONTROL window; after every event the channel is taken or nothing is left
to offer (R17, R161). The mirror set of a RUNNING part, over every event that leaves it RUNNING and ends no load: a
word whose content has changed is in the set, but for the word of the command the event takes (R34, R79, R99, R111,
R129, R140, R154, R160); no word leaves the set but at a grant; STOP, EVENT_ENABLE, RELOAD and the words with no owner
enter it only by a failed write, over press-bus accesses in order, which every step keeps so
(EveryStepKeepsTheMoveAccount); a word's last result is replaced by a command on it alone (R157); and a rising of the
line with a nonzero notice address leaves the notice-pending flag set (R166). What a word shows is compared before and
after the whole event (log 30), and a command's own report is not taken (log 10). -/
def Obligations.MirrorAndNoticeComplete : Prop :=
  (∀ (s : State) (v : CtlWord) (adr : Nat) (ws : List PortWord) (ans : MemAnswer),
    s.holdsRequest (.mirrorWrite v adr) ws →
    ∃ t, exec (.mirrorWriteComplete ans) s = .next t ∧ t.port.holder = none
      ∧ t.mem = Memory.answers s.mem ws [ans]
      ∧ (ans = .ok → t.control.flags = s.control.flags ∧ t.control.mirror = s.control.mirror)
      ∧ (ans ≠ .ok → s.raised .memoryFault t
          ∧ (s.control.part = .running → t.control.mirror.getLsbD v.val = true))
      ∧ t.bus = s.bus ∧ t.lastResponse = s.lastResponse ∧ s.sameSetup t ∧ s.sameBlocks t ∧ s.sameSettings t)
  ∧ (∀ (s : State) (adr : Nat) (dat : Word) (ws : List PortWord) (ans : MemAnswer),
    s.holdsRequest (.noticeWrite adr dat) ws →
    ∃ t, exec (.noticeWriteComplete ans) s = .next t ∧ t.port.holder = none
      ∧ t.mem = Memory.answers s.mem ws [ans]
      ∧ (ans = .ok → t.control.flags = s.control.flags ∧ t.control.noticePending = s.control.noticePending)
      ∧ (ans ≠ .ok → s.raised .memoryFault t
          ∧ (s.control.line = true → t.control.noticePending = s.control.noticePending))
      ∧ t.bus = s.bus ∧ t.lastResponse = s.lastResponse ∧ s.sameSetup t ∧ s.sameBlocks t ∧ s.sameSettings t)
  ∧ (∀ s : State,
    (s.control.channel ≠ none → s.offerChannel = s)
    ∧ (s.control.channel = none →
      (∀ n a d, s.loader.state = .preloading n → s.loader.staged.preload[n]? = some (a, d) →
        s.offerChannel = s.offering .preload (.preloadWrite a d) s.control.pointer)
      ∧ ((∀ n, s.loader.state = .preloading n → s.loader.staged.preload[n]? = none) →
        (s.control.noticePending = true →
          s.offerChannel
            = s.offering .notice (.noticeWrite s.control.noticeAddr s.control.noticeDatum) s.control.pointer)
        ∧ (s.control.noticePending = false →
          (∀ (v : CtlWord) (b : Nat), s.control.mirror.getLsbD v.val = true →
            (∀ x : CtlWord, s.control.mirror.getLsbD x.val = true →
              (v.val + 31 - s.control.pointer.val) % 32 ≤ (x.val + 31 - s.control.pointer.val) % 32) →
            windowBase .control s.windows = some b →
            s.offerChannel = s.offering (.mirror v) (.mirrorWrite v (b + 4 * v.val)) v)
          ∧ (s.control.mirror = 0 ∨ windowBase .control s.windows = none → s.offerChannel = s)))))
  ∧ (∀ (k : WindowKind) (ws ws' : WindowTable) (w : Window), (∀ x, some x ∈ ws → x.kind ≠ k) →
    windowBase k ws = none ∧ (w.kind = k → windowBase k (ws ++ some w :: ws') = some w.base))
  ∧ (∀ (c : Instr) (s : State), ∃ t, exec c s = .next t
    ∧ (t.control.channel = none → t.control.noticePending = false
      ∧ (t.control.mirror = 0 ∨ windowBase .control t.windows = none)
      ∧ ∀ n, t.loader.state = .preloading n → t.loader.staged.preload[n]? = none))
  ∧ ∀ (c : Instr) (s : State), s.control.part = .running →
    ∃ t, exec c s = .next t ∧ (t.control.part = .running → t.loader.state.loading = s.loader.state.loading →
      (c ≠ .mpGrant → ∀ v : CtlWord, s.control.mirror.getLsbD v.val = true → t.control.mirror.getLsbD v.val = true)
      ∧ (∀ v : CtlWord, ¬s.commanded t v → t.control.last[v] = s.control.last[v]
          ∧ (t.wordFields v ≠ s.wordFields v → t.control.mirror.getLsbD v.val = true))
      ∧ (s.accessesOk → ∀ v ∈ ([1, 3, 14, 15, 28, 29, 30, 31] : List CtlWord), t.control.mirror.getLsbD v.val = true →
          s.control.mirror.getLsbD v.val = true ∨ (∃ a r i w, s.holdsPass a (.answer v r i) w)
            ∨ ∃ adr ws, s.holdsRequest (.mirrorWrite v adr) ws)
      ∧ (s.control.line = false → t.control.line = true → s.control.noticeAddr ≠ 0 → t.control.noticePending = true))

/-- PRELOAD_WRITE_COMPLETE: the cursor moves on, OK or ERROR, an ERROR raising MEMORY_FAULT; after the last pair the
load ends RUNNING with the staged windows, curves, T, L and order table in effect and each staged tower PARKED with
HALT and QUERY ALL still to send, every record and every other tower as they stood, but that an IDLE transmitter
begins with one frame at once (R19, R87, R88, R113, R175, R176); the coverage range is that of the COVERAGE window,
the banks are kept or dropped as R39 gives, and the mirror set holds the words 0 to 14 and 16 to 27, its pointer at 31
or moved on to word 0 by the offer that follows (R161, R168). -/
def Obligations.PreloadWriteCompletes : Prop :=
  (∀ (s : State) (adr : Nat) (val : Word) (ws : List PortWord) (ans : MemAnswer) (n : Nat),
    s.holdsRequest (.preloadWrite adr val) ws → s.loader.state = .preloading n →
    (n + 1 < s.loader.staged.preload.length →
      ∃ t, exec (.preloadWriteComplete ans) s = .next t ∧ t.port.holder = none
        ∧ t.loader = { s.loader with state := .preloading (n + 1) } ∧ t.mem = Memory.answers s.mem ws [ans]
        ∧ (ans = .ok → t.control.flags = s.control.flags) ∧ (ans ≠ .ok → s.raised .memoryFault t)
        ∧ t.bus = s.bus ∧ s.sameSetup t ∧ t.coverage = s.coverage ∧ s.sameTowers t ∧ t.engine = s.engine
        ∧ t.loop = s.loop ∧ s.sameSettings t)
    ∧ ∀ g, s.loader.staged.preload.length ≤ n + 1 → s.loader.staged.globals = some g →
      ∃ t, exec (.preloadWriteComplete ans) s = .next t ∧ t.port.holder = none ∧ t.loader.state = .idle
        ∧ t.control.part = .running ∧ t.control.enables = g.enables ∧ t.control.mode = g.mode
        ∧ t.control.noticeAddr = g.noticeAddr ∧ t.control.noticeDatum = g.noticeDatum
        ∧ t.windows = s.loader.staged.windows ∧ t.curves = s.loader.staged.curves ∧ t.timeout = g.timeout
        ∧ t.port.limit = g.limit ∧ t.engine = { s.engine with table := some ⟨g.tableBase, g.tableLength⟩ }
        ∧ t.coverage.range = rangeOf s.loader.staged.windows
        ∧ (∀ (u : Tower) (c : TowerCfg), s.loader.staged.towers[u] = some c →
            t.towers[u].service = .parked ∧ t.towers[u].parkHold = true ∧ t.towers[u].cfg = some c.key
              ∧ t.towers[u].address = some c.address ∧ t.towers[u].settings = some c.loop
              ∧ t.coverage.geometry[u] = some c.geometry
              ∧ (t.towers[u].haltPending = true ∨ t.towers[u].queryPending = true))
        ∧ (s.link.tx ≠ .idle → t.link = s.link
          ∧ (∀ (u : Tower) (c : TowerCfg), s.loader.staged.towers[u] = some c →
            t.towers[u] = { s.towers[u] with
              service := .parked, parkHold := true, cfg := some c.key, settings := some c.loop
              address := some c.address, haltPending := true, queryPending := true })
          ∧ ∀ u : Tower, s.loader.staged.towers[u] = none → t.towers[u] = s.towers[u])
        ∧ (∀ u : Tower, s.loader.staged.towers[u] = none → t.coverage.geometry[u] = none
            ∧ t.towers[u].service = s.towers[u].service)
        ∧ s.coverage.loadEnded t.coverage (rangeOf s.loader.staged.windows)
            (fun u => (s.loader.staged.towers[u]).map TowerCfg.geometry)
        ∧ (∀ v : CtlWord, t.control.mirror.getLsbD v.val = decide (v.val < 15 ∨ 16 ≤ v.val ∧ v.val < 28))
        ∧ (t.control.pointer = 31 ∨ t.control.pointer = 0 ∧ t.control.channel = some (.mirror 0))
        ∧ t.bus = s.bus ∧ t.loop = s.loop ∧ t.levels = s.levels)
  ∧ (∀ (ws ws' : WindowTable) (w : Window), (∀ x, some x ∈ ws → x.kind ≠ .coverage) → w.kind = .coverage →
      rangeOf (ws ++ some w :: ws') = some ⟨w.base, w.size⟩)
  ∧ ∀ ws : WindowTable, (∀ x, some x ∈ ws → x.kind ≠ .coverage) → rangeOf ws = none

/-! ### Orders -/

/-- An order's fields at their places (12.3). What its write-back carries and raises: state, fault code, runs
completed and runs-left of each outcome (R122, 12.3), and ORDER_DONE or ORDER_FAULT by the notify field (R124).
ORDER_WRITE_COMPLETE: the outcome's event is raised, OK or ERROR; the link of a success is followed when the write was
answered OK and no stop is noted, with the visited count one higher; otherwise the chain ends with the stop request
cleared, and with nothing waiting the engine is IDLE (R19, R123, R124, R125, R126). The order in which the arbiter
over the order engine serves what waits: JOBCHG, IMPR_OFF, the start slot, MEASURE, IMPR_ON, SHEET; with nothing
waiting nothing changes (R135). The current record starts at the table's base plus 32 × the current index (R114), an
address past the end of the 28-bit space wrapping to its start, which is the model's choice (log 14). The completion
of a request that a RELOAD has discarded, of an order, a record, a clear, a mirror, a notice or a preload, by whichever
row it arrives: memory is as the answers to its words leave it, word by word, and as it was where the words are read;
the port is free; no unit takes the result, no event is raised, OK or ERROR, and nothing else changes but the request
that the control unit offers on a free channel (R2, R19, R161, R177). -/
def Obligations.OrderWriteCompletesAndWaitingStartsAreServed : Prop :=
  (∀ (s : State) (adr : Nat) (hw : Half) (st : Word) (ws : List PortWord) (o : RunningOrder) (a6 a7 : MemAnswer),
    s.holdsRequest (.orderWrite adr hw st) ws → s.engine.running = some o →
    ∃ t, exec (.orderWriteComplete a6 a7) s = .next t ∧ t.port.holder = none
      ∧ t.mem = Memory.answers s.mem ws [a6, a7]
      ∧ (∀ f, outcomeEvent (orderRec o.words) o.outcome = some f → t.control.flags.getLsbD (flagBit f) = true)
      ∧ (a6 ≠ .ok ∨ a7 ≠ .ok → t.control.flags.getLsbD (flagBit .memoryFault) = true)
      ∧ (a6 = .ok → a7 = .ok → outcomeEvent (orderRec o.words) o.outcome = none →
          t.control.flags = s.control.flags)
      ∧ (a6 = .ok → a7 = .ok → o.outcome.success = true → (orderRec o.words).linked = true → s.engine.stop = false →
          t.engine.state = .fetching ∧ t.engine.current = (orderRec o.words).next
            ∧ t.engine.visited = s.engine.visited + 1 ∧ t.engine.head = s.engine.head
            ∧ t.engine.tie = s.engine.tie ∧ t.engine.bindings = s.engine.bindings ∧ t.engine.slot = s.engine.slot
            ∧ s.port.queue ++ [.orderRead t.engine.recordAddr] <+: t.port.queue)
      ∧ ((a6 ≠ .ok ∨ a7 ≠ .ok ∨ o.outcome.success = false ∨ (orderRec o.words).linked = false
            ∨ s.engine.stop = true) →
          t.engine.stop = false
            ∧ ((∀ k, (s.engine.bindings.get k).pending = false) → s.engine.slot = none →
                t.engine.state = .idle ∧ t.engine.running = none ∧ t.engine.head = s.engine.head
                  ∧ t.engine.current = s.engine.current ∧ t.engine.visited = s.engine.visited)
            ∧ ((s.engine.bindings.get .jobchg).pending = true →
                t.engine.state = .fetching ∧ t.engine.head = (s.engine.bindings.get .jobchg).index
                  ∧ t.engine.visited = 1 ∧ t.engine.tie = some .jobchg
                  ∧ (t.engine.bindings.get .jobchg).pending = false ∧ t.engine.slot = s.engine.slot))
      ∧ t.bus = s.bus ∧ t.lastResponse = s.lastResponse ∧ s.sameSetup t ∧ t.coverage = s.coverage ∧ s.sameTowers t
      ∧ t.loop = s.loop ∧ t.loader = s.loader ∧ s.sameSettings t)
  ∧ (∀ s : State,
    let j := (s.engine.bindings.get .jobchg).pending
    let f := (s.engine.bindings.get .imprOff).pending
    let m := (s.engine.bindings.get .measure).pending
    let n := (s.engine.bindings.get .imprOn).pending
    let h := (s.engine.bindings.get .sheet).pending
    let started := fun (k : Source) =>
      s.serveStarts.engine.state = .fetching ∧ s.serveStarts.engine.visited = 1
        ∧ s.serveStarts.engine.head = (s.engine.bindings.get k).index ∧ s.serveStarts.engine.tie = some k
        ∧ s.serveStarts.engine.bindings.get k = { s.engine.bindings.get k with pending := false }
        ∧ s.serveStarts.engine.slot = s.engine.slot
    (j = true → started .jobchg)
      ∧ (j = false → f = true → started .imprOff)
      ∧ (∀ i, j = false → f = false → s.engine.slot = some i →
          s.serveStarts.engine.state = .fetching ∧ s.serveStarts.engine.visited = 1
            ∧ s.serveStarts.engine.head = i ∧ s.serveStarts.engine.tie = none
            ∧ s.serveStarts.engine.slot = none ∧ s.serveStarts.engine.bindings = s.engine.bindings)
      ∧ (j = false → f = false → s.engine.slot = none → m = true → started .measure)
      ∧ (j = false → f = false → s.engine.slot = none → m = false → n = true → started .imprOn)
      ∧ (j = false → f = false → s.engine.slot = none → m = false → n = false → h = true → started .sheet)
      ∧ (j = false → f = false → s.engine.slot = none → m = false → n = false → h = false → s.serveStarts = s))
  ∧ (∀ (r : OrderRec) (o : OrderOutcome),
    (statusWord r o).extractLsb' 0 8 = (match o with
        | .done => 1
        | .exhausted => 2
        | .fault _ => 3
        | .cancelled => 4)
      ∧ (statusWord r o).extractLsb' 8 8 = (match o with
        | .fault .verb => 1
        | .fault .range => 2
        | .fault .tower => 3
        | .fault .bankState => 4
        | .fault .frameUnfit => 5
        | .fault .exhausted => 6
        | .fault .link => 7
        | .fault .chainLoop => 8
        | .fault .memory => 9
        | _ => 0)
      ∧ (statusWord r o).extractLsb' 16 16
          = BitVec.ofNat 16 (if o = .done ∨ o = .exhausted then r.runs + 1 else r.runs)
      ∧ runsLeftWritten r o = (if o = .done ∨ o = .exhausted then r.runsLeft - 1 else r.runsLeft)
      ∧ (o.success = true ↔ o = .done ∨ o = .exhausted))
  ∧ (∀ r : OrderRec, outcomeEvent r .done = (if r.notify = 1 then some .orderDone else none)
      ∧ outcomeEvent r .exhausted = (if r.notify = 1 ∨ r.notify = 2 then some .orderDone else none)
      ∧ (∀ code, outcomeEvent r (.fault code) = some .orderFault) ∧ outcomeEvent r .cancelled = none)
  ∧ (∀ (e : Engine) (tab : OrderTable), e.table = some tab →
    e.recordAddr = (tab.base + 32 * e.current) % 2 ^ 28 ∧ e.length = tab.length)
  ∧ (∀ (ws : List Word) (f : Nat → Nat → Nat → Nat),
    (∀ word bit len, f word bit len = ((ws.getD word 0).extractLsb' bit len).toNat) →
    (orderRec ws).verb = f 0 0 8 ∧ (orderRec ws).tower = f 0 8 8 ∧ (orderRec ws).first = f 0 16 8
      ∧ (orderRec ws).last = f 0 24 8 ∧ (orderRec ws).fountain = (ws.getD 1 0).getLsbD 0
      ∧ (orderRec ws).standby = (ws.getD 1 0).getLsbD 1 ∧ (orderRec ws).ramp = (ws.getD 1 0).getLsbD 2
      ∧ (orderRec ws).linked = (ws.getD 1 0).getLsbD 3 ∧ (orderRec ws).curve = f 1 8 8 ∧ (orderRec ws).steps = f 1 16 8
      ∧ (orderRec ws).notify = f 1 24 8 ∧ (orderRec ws).value = ((ws.getD 2 0).extractLsb' 0 16).toInt
      ∧ (orderRec ws).next = f 2 16 8 ∧ (orderRec ws).runsLeft = f 6 16 16 ∧ (orderRec ws).state = f 7 0 8
      ∧ (orderRec ws).code = f 7 8 8 ∧ (orderRec ws).runs = f 7 16 16)
  ∧ (∀ (s : State) (c : Instr) (r : IReq) (ws : List PortWord) (anss : List MemAnswer),
    s.port.holder = some (.internal r ws true) → completes c r anss →
    ∃ t, exec c s = .next t ∧ t.port.holder = none ∧ t.mem = Memory.answers s.mem ws anss
      ∧ ((∀ w ∈ ws, w.dir = .read) → s.sameMemory t)
      ∧ t.control = s.offerChannel.control ∧ t.port = { s.offerChannel.port with holder := none }
      ∧ t.bus = s.bus ∧ t.lastResponse = s.lastResponse ∧ s.sameSetup t ∧ s.sameBlocks t ∧ s.sameSettings t
      ∧ s.sameEvents t)
  ∧ ∀ (m : List Host.Cell) (w : PortWord) (ws : List PortWord) (x : MemAnswer) (xs : List MemAnswer),
    Memory.answers m [] xs = m ∧ Memory.answers m ws [] = m
      ∧ Memory.answers m (w :: ws) (x :: xs) = Memory.answers (Memory.answer m w x) ws xs

/-- ORDER_FETCH_ERROR: MEMORY_FAULT and ORDER_FAULT are raised, nothing is written back (memory is as it was and no
ORDER_WRITE is offered), the chain ends, and a head at its first visit disarms the binding it is tied to; the engine is
IDLE when nothing else waits, and a waiting start or firing is served at once (R19, R116, R126, R135, R136).
ORDER_CANCELLED: with a stop noted the fetched order is not executed and is written back CANCELLED, no event raised
(R116, R122, R139). -/
def Obligations.FetchErrorAndCancellation : Prop :=
  (∀ (s : State) (adr : Nat) (ws : List PortWord), s.holdsRequest (.orderRead adr) ws →
    ∃ t, exec .orderFetchError s = .next t ∧ t.port.holder = none ∧ t.engine.running = none ∧ t.engine.stop = false
      ∧ t.control.flags.getLsbD (flagBit .memoryFault) = true
      ∧ t.control.flags.getLsbD (flagBit .orderFault) = true
      ∧ s.sameMemory t ∧ s.port.queue <+: t.port.queue
      ∧ (∀ a h w, IReq.orderWrite a h w ∈ t.port.queue → IReq.orderWrite a h w ∈ s.port.queue)
      ∧ (s.engine.noneWaits → t.engine.state = .idle
          ∧ ∀ k, t.engine.bindings.get k
            = if s.engine.visited = 1 ∧ s.engine.tie = some k
              then ⟨false, false, (s.engine.bindings.get k).index⟩ else s.engine.bindings.get k)
      ∧ (∀ k, s.engine.visited = 1 → s.engine.tie = some k →
          t.engine.bindings.get k = ⟨false, false, (s.engine.bindings.get k).index⟩)
      ∧ (s.engine.slot.isSome = true
          ∨ (∃ k, (s.engine.bindings.get k).pending = true ∧ ¬(s.engine.visited = 1 ∧ s.engine.tie = some k)) →
          t.engine.state = .fetching ∧ t.engine.visited = 1)
      ∧ t.bus = s.bus ∧ s.sameSetup t ∧ t.coverage = s.coverage ∧ s.sameTowers t ∧ t.loop = s.loop
      ∧ t.loader = s.loader)
  ∧ ∀ (s : State) (adr : Nat) (ws : List PortWord), s.holdsRequest (.orderRead adr) ws → s.engine.stop = true →
    ∃ t, exec .orderCancelled s = .next t ∧ s.writesBack t ws .cancelled
      ∧ t.engine.bindings = s.engine.bindings ∧ t.engine.stop = true
      ∧ t.bus = s.bus ∧ s.sameSetup t ∧ t.coverage = s.coverage ∧ s.sameTowers t ∧ t.loop = s.loop
      ∧ t.loader = s.loader ∧ s.sameSettings t ∧ s.sameEvents t

/-- TRIM_SET, TRIM_ADD, CORR_CLEAR, HOLD and RELEASE that pass their checks: each record of the clipped range, and the
fountain with the flag set, takes its new trim, correction or hold and its target is composed; every other record
keeps its values; the order is written back, which disarms the binding of a head EXHAUSTED at its first visit (R49, R50,
R51, R53, R118, R119, R122, R136). With the transmitter busy each key is handed on as its target has changed, in slot
order (R55). -/
def Obligations.KeyRangeOrdersExecute : Prop :=
  ∀ (s : State) (ws : List PortWord) (r : OrderRec) (ts : List Tower) (c : Instr) (f : KeyRec → KeyRec),
    s.fetched ws r → s.engine.commonFault r = none → s.towerSet true r = .ok ts →
    ((c = .trimSet ∧ r.verb = 2 ∧ f = fun x => { x with trim := clampInt (-300) 300 r.value })
      ∨ (c = .trimAdd ∧ r.verb = 3 ∧ f = fun x => { x with trim := clampInt (-300) 300 (x.trim + r.value) })
      ∨ (c = .corrClear ∧ r.verb = 4 ∧ f = fun x => { x with correction := 0 })
      ∨ (c = .hold ∧ r.verb = 5 ∧ f = fun x => { x with hold := true })
      ∨ (c = .release ∧ r.verb = 6 ∧ f = fun x => { x with hold := false })) →
    ∃ t, exec c s = .next t ∧ s.writesBack t ws (if r.runsLeft = 1 then .exhausted else .done)
      ∧ (∀ (u : Tower) (sl : Slot), u ∈ ts → s.towers[u].present sl = true →
          (if sl = fountainSlot then r.fountain = true else r.first ≤ sl.val ∧ sl.val ≤ r.last) →
          (t.towers[u].recs[sl]).base = (f (s.towers[u].recs[sl])).base
            ∧ (t.towers[u].recs[sl]).trim = (f (s.towers[u].recs[sl])).trim
            ∧ (t.towers[u].recs[sl]).correction = (f (s.towers[u].recs[sl])).correction
            ∧ (t.towers[u].recs[sl]).hold = (f (s.towers[u].recs[sl])).hold
            ∧ (t.towers[u].recs[sl]).ramp = (f (s.towers[u].recs[sl])).ramp
            ∧ (t.towers[u].recs[sl]).target
                = composed s.towers[u].cfg s.towers[u].parkHold sl (f (s.towers[u].recs[sl])))
      ∧ (∀ (u : Tower) (sl : Slot),
          ¬(u ∈ ts ∧ s.towers[u].present sl = true
            ∧ (if sl = fountainSlot then r.fountain = true else r.first ≤ sl.val ∧ sl.val ≤ r.last)) →
          (t.towers[u].recs[sl]).values = (s.towers[u].recs[sl]).values)
      ∧ (s.link.tx ≠ .idle → s.handedOn t)
      ∧ t.bus = s.bus ∧ s.sameSetup t ∧ t.coverage = s.coverage ∧ t.loop = s.loop ∧ t.loader = s.loader
      ∧ s.sameSettings t ∧ s.sameEvents t

/-- PRESET that passes its checks: each record in range takes as base the curve at its coverage in the named bank; at
once its ramp is removed, with pace RAMP it ramps from the opening it stood at, or holds no ramp when that is the new
base; trims, corrections and holds stay, and records out of range keep their values (R42, R43, R44, R45, R53); the
order is written back (R122, R136). With the transmitter busy each key is handed on as its target has changed, in slot
order (R55). The curve of a key is the one the order names, 0 to 15, or the default curve of its tower for 31; the
fountain's is its tower's fountain curve, whatever the order names (R42). -/
def Obligations.PresetExecutes : Prop :=
  (∀ (s : State) (ws : List PortWord) (r : OrderRec) (ts : List Tower),
    s.fetched ws r → s.engine.commonFault r = none → r.verb = 1 → s.towerSet true r = .ok ts →
    (r.curve ≤ 15 ∨ r.curve = 31) → (r.ramp = true → 1 ≤ r.steps ∧ r.steps ≤ 64) →
    (s.coverage.banks.get (s.coverage.role r.standby)).state = .locked →
    (∀ u ∈ ts, (s.coverage.frame (s.coverage.role r.standby) u).fit = true) →
    ∃ t, exec .preset s = .next t ∧ s.writesBack t ws (if r.runsLeft = 1 then .exhausted else .done)
      ∧ (∀ (u : Tower) (sl : Slot), u ∈ ts → s.towers[u].present sl = true →
          (if sl = fountainSlot then r.fountain = true else r.first ≤ sl.val ∧ sl.val ≤ r.last) →
          (t.towers[u].recs[sl]).base
              = evalCurve (presetCurve s.curves r s.towers[u].cfg sl)
                  (s.coverage.read (s.coverage.role r.standby) u sl)
            ∧ (t.towers[u].recs[sl]).ramp
              = (if r.ramp = false then none
                  else if (s.towers[u].recs[sl]).rbOpening = (t.towers[u].recs[sl]).base then none
                  else some ⟨(s.towers[u].recs[sl]).rbOpening, (t.towers[u].recs[sl]).base, 0, r.steps⟩)
            ∧ (t.towers[u].recs[sl]).trim = (s.towers[u].recs[sl]).trim
            ∧ (t.towers[u].recs[sl]).correction = (s.towers[u].recs[sl]).correction
            ∧ (t.towers[u].recs[sl]).hold = (s.towers[u].recs[sl]).hold
            ∧ (t.towers[u].recs[sl]).target
                = composed s.towers[u].cfg s.towers[u].parkHold sl (t.towers[u].recs[sl]))
      ∧ (∀ (u : Tower) (sl : Slot),
          ¬(u ∈ ts ∧ s.towers[u].present sl = true
            ∧ (if sl = fountainSlot then r.fountain = true else r.first ≤ sl.val ∧ sl.val ≤ r.last)) →
          (t.towers[u].recs[sl]).values = (s.towers[u].recs[sl]).values)
      ∧ (s.link.tx ≠ .idle → s.handedOn t)
      ∧ t.bus = s.bus ∧ s.sameSetup t ∧ t.coverage = s.coverage ∧ t.loop = s.loop ∧ t.loader = s.loader
      ∧ s.sameSettings t ∧ s.sameEvents t)
  ∧ ∀ (curves : List Curve) (r : OrderRec) (c : KeyCfg) (sl : Slot) (n : Nat) (x : Curve),
    n = (if sl = fountainSlot then c.fountainCurve.val else if r.curve = 31 then c.defaultCurve.val else r.curve) →
    curves[n]? = some x → presetCurve curves r (some c) sl = x

/-- CLEAR_BANK, LOCK_BANK, UNLOCK_BANK and SWAP_BANKS: the bank named by the value 0 or 1 is commanded as the BANK
word would; ACCEPTED makes the order a success, any other answer faults it BANK_STATE with the banks as they stood,
and any other value faults RANGE (R120). An ACCEPTED CLEAR_BANK reports the BANK word (R34); the write-back disarms
the binding of a head that is EXHAUSTED or faults at its first visit (R136). What a bank command answers and does, as
the BANK word's own statements give it: CLEAR by R30 and R35, BANK_READY raised for a plan with no words and no other
event, LOCK and UNLOCK by the table of R31. -/
def Obligations.BankOrdersExecute : Prop :=
  (∀ (s : State) (ws : List PortWord) (r : OrderRec) (c : Instr) (cmd : BankId → BankCmd),
    s.fetched ws r → s.engine.commonFault r = none →
    ((c = .clearBank ∧ r.verb = 7 ∧ cmd = .clear) ∨ (c = .lockBank ∧ r.verb = 8 ∧ cmd = .lock)
      ∨ (c = .unlockBank ∧ r.verb = 9 ∧ cmd = .unlock)) →
    (∀ bk, ((r.value = 0 ∧ bk = .a) ∨ (r.value = 1 ∧ bk = .b)) →
      ∃ t, exec c s = .next t ∧ t.coverage = (s.coverage.command (cmd bk)).2
        ∧ s.writesBack t ws (if (s.coverage.command (cmd bk)).1 = .accepted
            then (if r.runsLeft = 1 then .exhausted else .done) else .fault .bankState)
        ∧ ((s.coverage.command (cmd bk)).1 ≠ .accepted → t.coverage = s.coverage ∧ s.sameEvents t)
        ∧ (c = .clearBank → (s.coverage.command (cmd bk)).1 = .accepted → s.control.part = .running →
            t.control.mirror.getLsbD 4 = true)
        ∧ (c = .clearBank → (s.coverage.command (cmd bk)).1 = .accepted → ∀ g, s.coverage.range = some g →
            (planWords (clearPlan s.coverage g bk) = 0 →
                s.raised .bankReady t ∧ t.control.capture = s.control.capture)
              ∧ (planWords (clearPlan s.coverage g bk) ≠ 0 → s.sameEvents t))
        ∧ (c ≠ .clearBank → s.sameEvents t)
        ∧ t.bus = s.bus ∧ s.sameSetup t ∧ s.sameTowers t ∧ t.loop = s.loop ∧ t.loader = s.loader
        ∧ s.sameSettings t)
    ∧ (r.value ≠ 0 → r.value ≠ 1 →
      ∃ t, exec c s = .next t ∧ s.writesBack t ws (.fault .range) ∧ t.coverage = s.coverage
        ∧ t.bus = s.bus ∧ s.sameSetup t ∧ s.sameTowers t ∧ t.loop = s.loop ∧ t.loader = s.loader
        ∧ s.sameSettings t ∧ s.sameEvents t))
  ∧ (∀ (s : State) (ws : List PortWord) (r : OrderRec), s.fetched ws r → s.engine.commonFault r = none → r.verb = 10 →
    ((s.coverage.banks.get (s.coverage.role true)).state = .locked →
      ∃ t, exec .swapBanks s = .next t ∧ s.writesBack t ws (if r.runsLeft = 1 then .exhausted else .done)
        ∧ t.coverage = { s.coverage with active := s.coverage.role true }
        ∧ t.bus = s.bus ∧ s.sameSetup t ∧ s.sameTowers t ∧ t.loop = s.loop ∧ t.loader = s.loader
        ∧ s.sameSettings t ∧ s.sameEvents t)
    ∧ ((s.coverage.banks.get (s.coverage.role true)).state ≠ .locked →
      ∃ t, exec .swapBanks s = .next t ∧ s.writesBack t ws (.fault .bankState) ∧ t.coverage = s.coverage
        ∧ t.bus = s.bus ∧ s.sameSetup t ∧ s.sameTowers t ∧ t.loop = s.loop ∧ t.loader = s.loader
        ∧ s.sameSettings t ∧ s.sameEvents t))
  ∧ ∀ (c : Coverage) (bk : BankId),
    (c.clearing .a = true ∨ c.clearing .b = true → c.command (.clear bk) = (.refusedBusy, c))
    ∧ (c.clearing .a = false → c.clearing .b = false → c.range = none → c.command (.clear bk) = (.refusedState, c))
    ∧ (∀ (g : CoverRange) (d : Coverage), c.clearing .a = false → c.clearing .b = false → c.range = some g →
      d = (c.command (.clear bk)).2 →
      (c.command (.clear bk)).1 = .accepted ∧ (∀ u : Tower, d.frame bk u = ⟨true, Vector.replicate 48 0⟩)
        ∧ d.banks.get (otherBank bk) = c.banks.get (otherBank bk)
        ∧ d.active = c.active ∧ d.geometry = c.geometry ∧ d.range = c.range ∧ d.waiting = c.waiting
        ∧ (c.latch = none → d.latch = none)
        ∧ (∀ f, c.latch = some f →
            d.latch = some (if f.bank = bk then { f with void := true, cleared := true } else f))
        ∧ (planWords (clearPlan c g bk) = 0 → (d.banks.get bk).state = .opened ∧ d.cursor = c.cursor)
        ∧ (planWords (clearPlan c g bk) ≠ 0 →
            (d.banks.get bk).state = .clearing ∧ d.cursor = some ⟨bk, clearPlan c g bk, 0, false⟩))
    ∧ c.command (.lock bk) = (match (c.banks.get bk).state with
        | .opened => (.accepted, c.setState bk .locked)
        | .locked => (.accepted, c)
        | .stale => (.refusedState, c)
        | .clearing => (.refusedState, c))
    ∧ c.command (.unlock bk) = (match (c.banks.get bk).state with
        | .locked => (.accepted, c.setState bk .opened)
        | .opened => (.refusedState, c)
        | .stale => (.refusedState, c)
        | .clearing => (.refusedState, c))

/-- ORDER_LOOP_ON, ORDER_LOOP_OFF and NOP that pass their checks succeed: each tower of the set takes the loop command
as R147 gives, every other tower and every record as before; NOP changes no tower; the write-back disarms the binding of
a head that is EXHAUSTED at its first visit (R118, R121, R122, R136, R147). LOOP_ON at a tower that is not FAULTED: an
OFF loop becomes SETTLING with its counter at the sheets to settle, any other loop stays (R147). -/
def Obligations.LoopOrdersAndNopExecute : Prop :=
  (∀ (s : State) (ws : List PortWord) (r : OrderRec) (ts : List Tower),
    s.fetched ws r → s.engine.commonFault r = none → s.towerSet false r = .ok ts →
    (r.verb = 11 →
      ∃ t, exec .orderLoopOn s = .next t ∧ s.writesBack t ws (if r.runsLeft = 1 then .exhausted else .done)
        ∧ (∀ u : Tower, u ∈ ts → t.towers[u] = (s.towers[u].loopOn).2)
        ∧ (∀ u : Tower, u ∉ ts → t.towers[u] = s.towers[u])
        ∧ t.link = s.link ∧ t.bus = s.bus ∧ s.sameSetup t ∧ t.coverage = s.coverage ∧ t.loop = s.loop
        ∧ t.loader = s.loader ∧ s.sameSettings t ∧ s.sameEvents t)
    ∧ (r.verb = 12 →
      ∃ t, exec .orderLoopOff s = .next t ∧ s.writesBack t ws (if r.runsLeft = 1 then .exhausted else .done)
        ∧ (∀ u : Tower, u ∈ ts → t.towers[u] = { s.towers[u] with loop := .off, settle := 0 })
        ∧ (∀ u : Tower, u ∉ ts → t.towers[u] = s.towers[u])
        ∧ t.link = s.link ∧ t.bus = s.bus ∧ s.sameSetup t ∧ t.coverage = s.coverage ∧ t.loop = s.loop
        ∧ t.loader = s.loader ∧ s.sameSettings t ∧ s.sameEvents t))
  ∧ (∀ (s : State) (ws : List PortWord) (r : OrderRec), s.fetched ws r → s.engine.commonFault r = none → r.verb = 0 →
    ∃ t, exec .nop s = .next t ∧ s.writesBack t ws (if r.runsLeft = 1 then .exhausted else .done)
      ∧ t.bus = s.bus ∧ s.sameSetup t ∧ t.coverage = s.coverage ∧ s.sameTowers t ∧ t.loop = s.loop
      ∧ t.loader = s.loader ∧ s.sameSettings t ∧ s.sameEvents t)
  ∧ ∀ tw : TowerState, tw.service ≠ .faulted →
    (tw.loop = .off → tw.loopOn = (.accepted, { tw with
        loop := .settling
        settle := match tw.settings with
          | none => 0
          | some x => x.sheets }))
      ∧ (tw.loop ≠ .off → tw.loopOn = (.accepted, tw))

/-- An order of any of the fourteen rows that fails a check changes nothing in any block but the engine, where its
write-back begins and a head at its first visit disarms the binding it is tied to (R136), and is written back FAULT
with the code of the first check that fails: CHAIN_LOOP, EXHAUSTED, VERB, LINK (R117), VERB being what VERB_FAULT
always meets once the first two pass; an order that fails none of them has no such code (commonFault is none). Of the
eight verbs over towers, a named tower that is UNCONFIGURED or FAULTED, or a tower field of no tower, faults TOWER; of
PRESET and the five key-range verbs, a first key above the last, or a last key at or beyond the named tower's key
count, or above 47 for ALL, faults RANGE (R118). PRESET then faults RANGE for a curve that is neither 0 to 15 nor 31,
RANGE for pace RAMP with a step count outside 1 to 64, BANK_STATE for a bank that is not LOCKED, FRAME_UNFIT for an
UNFIT frame of the tower set, the first that fails (R43). The tower set otherwise: the named tower, or for ALL every
tower neither UNCONFIGURED nor FAULTED, ascending (R118). -/
def Obligations.FailedChecksChangeNothing : Prop :=
  (∀ (s : State) (ws : List PortWord) (r : OrderRec) (c : Instr) (code : FaultCode),
    s.fetched ws r → verbRow c r.verb →
    code = (if 65 ≤ s.engine.visited then .chainLoop
      else if r.state = 2 ∨ (r.state = 3 ∧ r.code = 6) then .exhausted
      else if 13 ≤ r.verb ∨ 3 ≤ r.notify then .verb else .link) →
    (65 ≤ s.engine.visited ∨ r.state = 2 ∨ (r.state = 3 ∧ r.code = 6) ∨ 13 ≤ r.verb ∨ 3 ≤ r.notify
      ∨ (r.linked = true ∧ s.engine.length ≤ r.next)) →
    ∃ t, exec c s = .next t ∧ s.onlyFaulted t ws code)
  ∧ (∀ (s : State) (ws : List PortWord) (r : OrderRec) (c : Instr), s.fetched ws r → s.engine.commonFault r = none →
    verbRow c r.verb → ((1 ≤ r.verb ∧ r.verb ≤ 6) ∨ r.verb = 11 ∨ r.verb = 12) →
    ((12 ≤ r.tower ∧ r.tower ≠ 15)
      ∨ ∃ u : Tower, r.tower = u.val
          ∧ (s.towers[u].service = .unconfigured ∨ s.towers[u].service = .faulted)) →
    ∃ t, exec c s = .next t ∧ s.onlyFaulted t ws .tower)
  ∧ (∀ (s : State) (ws : List PortWord) (r : OrderRec) (c : Instr), s.fetched ws r → s.engine.commonFault r = none →
    verbRow c r.verb → 1 ≤ r.verb → r.verb ≤ 6 →
    ((r.tower = 15 ∧ (r.last < r.first ∨ 47 < r.last))
      ∨ ∃ (u : Tower) (k : KeyCfg), r.tower = u.val ∧ s.towers[u].service ≠ .unconfigured
          ∧ s.towers[u].service ≠ .faulted ∧ s.towers[u].cfg = some k ∧ (r.last < r.first ∨ k.k ≤ r.last)) →
    ∃ t, exec c s = .next t ∧ s.onlyFaulted t ws .range)
  ∧ (∀ (s : State) (ws : List PortWord) (r : OrderRec) (ts : List Tower) (code : FaultCode), s.fetched ws r →
    s.engine.commonFault r = none → r.verb = 1 → s.towerSet true r = .ok ts →
    code = (if (15 < r.curve ∧ r.curve ≠ 31) ∨ (r.ramp = true ∧ (r.steps < 1 ∨ 64 < r.steps)) then .range
      else if (s.coverage.banks.get (s.coverage.role r.standby)).state ≠ .locked then .bankState else .frameUnfit) →
    ((15 < r.curve ∧ r.curve ≠ 31) ∨ (r.ramp = true ∧ (r.steps < 1 ∨ 64 < r.steps))
      ∨ (s.coverage.banks.get (s.coverage.role r.standby)).state ≠ .locked
      ∨ ∃ u ∈ ts, (s.coverage.frame (s.coverage.role r.standby) u).fit = false) →
    ∃ t, exec .preset s = .next t ∧ s.onlyFaulted t ws code)
  ∧ (∀ (e : Engine) (r : OrderRec), e.commonFault r = none
      ↔ e.visited < 65 ∧ r.state ≠ 2 ∧ ¬(r.state = 3 ∧ r.code = 6) ∧ r.verb < 13 ∧ r.notify < 3
        ∧ (r.linked = true → r.next < e.length))
  ∧ (∀ e : Engine, (e.table = none → e.length = 0) ∧ ∀ tab : OrderTable, e.table = some tab → e.length = tab.length)
  ∧ ∀ (s : State) (keyed : Bool) (r : OrderRec),
    (∀ (u : Tower) (k : KeyCfg), r.tower = u.val → s.towers[u].service ≠ .unconfigured →
        s.towers[u].service ≠ .faulted → s.towers[u].cfg = some k →
        (keyed = true → r.first ≤ r.last ∧ r.last < k.k) → s.towerSet keyed r = .ok [u])
      ∧ (r.tower = 15 → (keyed = true → r.first ≤ r.last ∧ r.last ≤ 47) →
        s.towerSet keyed r = .ok ((List.finRange 12).filter (fun u =>
          decide (s.towers[u].service ≠ .unconfigured ∧ s.towers[u].service ≠ .faulted))))

/-! ### Press signals -/

/-- SHEET, and the rows for what a pulse may bring about: ramps of PRINTING towers step once and end at their total,
no ramp of another tower steps; an eligible pulse lowers a SETTLING loop's counter and arms it at 0; an armed SHEET
binding counts the pulse, and at the divisor fires: it waits while a chain runs, and starts its chain when the engine
is IDLE with nothing else waiting (R46, R112, R134, R135, R148). A stepped record's target is composed of its new ramp
value, or of its base at the ramp's end (R46, R54), and with the transmitter busy each key is handed on as its target
has changed (R55). That each of the four rows is the whole SHEET pulse, in every state, is the model's reading of the
table (log 2). -/
def Obligations.SheetPulse : Prop :=
  ∀ (s : State) (c : Instr), c = .sheet ∨ c = .rampComplete ∨ c = .settleEnd ∨ c = .sheetFiring →
    ∃ t, exec c s = .next t
      ∧ (∀ (u : Tower) (sl : Slot), s.towers[u].service = .printing → s.towers[u].present sl = true →
          (t.towers[u].recs[sl]).base = (s.towers[u].recs[sl]).base
            ∧ (t.towers[u].recs[sl]).ramp = (match (s.towers[u].recs[sl]).ramp with
                | none => none
                | some p => if p.done + 1 = p.total then none else some { p with done := p.done + 1 })
            ∧ (t.towers[u].recs[sl]).trim = (s.towers[u].recs[sl]).trim
            ∧ (t.towers[u].recs[sl]).correction = (s.towers[u].recs[sl]).correction
            ∧ (t.towers[u].recs[sl]).hold = (s.towers[u].recs[sl]).hold
            ∧ (t.towers[u].recs[sl]).target = (if (s.towers[u].recs[sl]).ramp = none then (s.towers[u].recs[sl]).target
                else composed s.towers[u].cfg s.towers[u].parkHold sl (t.towers[u].recs[sl])))
      ∧ (∀ (u : Tower) (sl : Slot), s.towers[u].service ≠ .printing →
          (t.towers[u].recs[sl]).values = (s.towers[u].recs[sl]).values)
      ∧ (s.link.tx ≠ .idle → s.handedOn t)
      ∧ (∀ u : Tower,
          (s.towers[u].loop = .settling → s.towers[u].service = .printing → s.towers[u].queue = [] →
              s.towers[u].flight = [] → 1 < s.towers[u].settle →
              t.towers[u].loop = .settling ∧ t.towers[u].settle = s.towers[u].settle - 1)
            ∧ (s.towers[u].loop = .settling → s.towers[u].service = .printing → s.towers[u].queue = [] →
              s.towers[u].flight = [] → s.towers[u].settle = 1 →
              t.towers[u].loop = .armed ∧ t.towers[u].settle = 0)
            ∧ ((s.towers[u].loop ≠ .settling ∨ s.towers[u].service ≠ .printing ∨ s.towers[u].queue ≠ []
                ∨ s.towers[u].flight ≠ []) →
              t.towers[u].loop = s.towers[u].loop ∧ t.towers[u].settle = s.towers[u].settle))
      ∧ (s.engine.bindings.sheet.armed = false → t.engine = s.engine)
      ∧ (s.engine.bindings.sheet.armed = true → s.engine.counter + 1 < s.engine.divisor →
          t.engine = { s.engine with counter := s.engine.counter + 1 })
      ∧ (s.engine.bindings.sheet.armed = true → s.engine.divisor ≤ s.engine.counter + 1 →
          t.engine.counter = 0
            ∧ (s.engine.bindings.sheet.pending = true →
                t.control.flags.getLsbD (flagBit .triggerMerged) = true
                  ∧ t.engine = { s.engine with counter := 0 })
            ∧ (s.engine.bindings.sheet.pending = false → s.engine.state ≠ .idle →
                t.engine.bindings.sheet = { s.engine.bindings.sheet with pending := true })
            ∧ ({ s with engine := { s.engine with counter := 0 } } : State).fired t .sheet)
      ∧ s.sameMemory t ∧ t.bus = s.bus ∧ s.sameSetup t ∧ t.coverage = s.coverage ∧ t.loop = s.loop
      ∧ t.loader = s.loader ∧ s.sameSettings t

/-- IMPR_RISE takes every READY tower to PRINTING and IMPR_FALL every PRINTING tower to READY, the others keeping
their states, and the taken level follows; with the transmitter busy, so that it dispatches nothing at once, queue,
in-flight set and every record of every tower stand as they stood (R110, R111). An event onto the level already taken,
which R110 makes no edge, changes nothing: that is the model's choice (log 1). JOBCHG, IMPR_RISE and IMPR_FALL are
each a firing of their source: a disarmed binding takes no notice, a pending one raises TRIGGER_MERGED, an armed one
waits while the engine runs and is served when it is IDLE (R112, R134, R135). -/
def Obligations.EdgesAndFirings : Prop :=
  (∀ s : State, s.levels.impr = false →
    ∃ t, exec .imprRise s = .next t ∧ t.levels = { s.levels with impr := true }
      ∧ (∀ u : Tower, t.towers[u].service
          = if s.towers[u].service = .ready then .printing else s.towers[u].service)
      ∧ (∀ (u : Tower) (sl : Slot), (t.towers[u].recs[sl]).values = (s.towers[u].recs[sl]).values)
      ∧ (s.link.tx ≠ .idle → t.link = s.link
          ∧ ∀ u : Tower, t.towers[u] = { s.towers[u] with service := t.towers[u].service })
      ∧ s.fired t .imprOn
      ∧ ((s.engine.bindings.imprOn.armed = false ∨ s.engine.bindings.imprOn.pending = false) → s.sameEvents t)
      ∧ s.sameMemory t ∧ t.bus = s.bus ∧ t.windows = s.windows ∧ t.curves = s.curves ∧ t.timeout = s.timeout
      ∧ t.pending = s.pending ∧ t.coverage = s.coverage ∧ t.loop = s.loop ∧ t.loader = s.loader ∧ s.sameSettings t)
  ∧ (∀ s : State, s.levels.impr = true →
    ∃ t, exec .imprFall s = .next t ∧ t.levels = { s.levels with impr := false }
      ∧ (∀ u : Tower, t.towers[u].service
          = if s.towers[u].service = .printing then .ready else s.towers[u].service)
      ∧ (∀ (u : Tower) (sl : Slot), (t.towers[u].recs[sl]).values = (s.towers[u].recs[sl]).values)
      ∧ (s.link.tx ≠ .idle → t.link = s.link
          ∧ ∀ u : Tower, t.towers[u] = { s.towers[u] with service := t.towers[u].service })
      ∧ s.fired t .imprOff
      ∧ ((s.engine.bindings.imprOff.armed = false ∨ s.engine.bindings.imprOff.pending = false) → s.sameEvents t)
      ∧ s.sameMemory t ∧ t.bus = s.bus ∧ t.windows = s.windows ∧ t.curves = s.curves ∧ t.timeout = s.timeout
      ∧ t.pending = s.pending ∧ t.coverage = s.coverage ∧ t.loop = s.loop ∧ t.loader = s.loader ∧ s.sameSettings t)
  ∧ (∀ s : State,
    (s.levels.impr = true → ∃ t, exec .imprRise s = .next t ∧ s.sameSetup t ∧ s.sameBlocks t ∧ s.sameControl t
        ∧ s.sameMemory t ∧ t.bus = s.bus ∧ t.lastResponse = s.lastResponse)
      ∧ (s.levels.impr = false →
        ∃ t, exec .imprFall s = .next t ∧ s.sameSetup t ∧ s.sameBlocks t ∧ s.sameControl t
          ∧ s.sameMemory t ∧ t.bus = s.bus ∧ t.lastResponse = s.lastResponse))
  ∧ ∀ s : State,
    ∃ t, exec .jobchg s = .next t ∧ s.fired t .jobchg
      ∧ (s.engine.bindings.jobchg.armed = false → t.engine = s.engine ∧ s.sameEvents t)
      ∧ (s.engine.bindings.jobchg.armed = true → s.engine.bindings.jobchg.pending = true →
          t.engine = s.engine ∧ s.raised .triggerMerged t)
      ∧ (s.engine.bindings.jobchg.armed = true → s.engine.bindings.jobchg.pending = false →
          s.engine.state ≠ .idle →
          t.engine.bindings.jobchg = { s.engine.bindings.jobchg with pending := true }
            ∧ t.engine.state = s.engine.state ∧ t.engine.head = s.engine.head ∧ s.sameEvents t)
      ∧ (s.engine.bindings.jobchg.armed = true → s.engine.bindings.jobchg.pending = false →
          s.engine.state = .idle →
          t.engine.state = .fetching ∧ t.engine.head = s.engine.bindings.jobchg.index
            ∧ t.engine.visited = 1 ∧ t.engine.tie = some .jobchg
            ∧ t.engine.bindings.jobchg = s.engine.bindings.jobchg ∧ s.sameEvents t)
      ∧ s.sameMemory t ∧ t.bus = s.bus ∧ s.sameSetup t ∧ t.coverage = s.coverage ∧ s.sameTowers t
      ∧ t.loop = s.loop ∧ t.loader = s.loader ∧ s.sameSettings t

/-! ### The key drive link and the timers -/

/-- SENDING_END takes the transmitter to its gap (R88). GAP_END makes it IDLE and searches: with no tower at work
nothing more happens; otherwise the first tower with work after the pointer is served, which the pointer then names
(R88, R89): towers and link are those of its service, one frame sent, HALT, QUERY ALL or the head of its queue, as
ServiceSendsOneFrame states it (R67, R90, R91). EVERY command taken with the transmitter IDLE and no tower at work
leaves towers and link as it leaves them with the transmitter in its gap, but for the search that follows (R55, R88):
what the other statements say of the hand-off with the transmitter busy, of TRIM_WRITE, STOP_ALL, the orders on keys,
SHEET, the record of a SLOT_READ, the IMPR edges, WAKE, PARK, CLEAR_FAULTS, the answers, HELLO, the move timers and
the ends of loads and reloads, holds with an IDLE one before that search. The one search at the end of the whole
event, where R88 lets an IDLE transmitter search at every change, is the model's reading (log 21). -/
def Obligations.LineTiming : Prop :=
  (∀ (s : State) (l : List Byte), s.link.tx = .sending l →
    ∃ t, exec .sendingEnd s = .next t ∧ t.link = { s.link with tx := .gap } ∧ t.towers = s.towers
      ∧ s.sameMemory t ∧ t.bus = s.bus ∧ s.samePort t ∧ s.sameSetup t ∧ t.coverage = s.coverage
      ∧ t.engine = s.engine ∧ t.loop = s.loop ∧ t.loader = s.loader ∧ s.sameSettings t ∧ s.sameEvents t)
  ∧ (∀ s : State, s.link.tx = .gap →
    ∃ t, exec .gapEnd s = .next t
      ∧ ((∀ u : Tower, s.towers[u].hasWork = false) →
          t.link = { s.link with tx := .idle } ∧ t.towers = s.towers)
      ∧ (∀ u : Tower, s.towers[u].hasWork = true →
          (∀ v : Tower, s.towers[v].hasWork = true →
            (u.val + 11 - s.link.pointer.val) % 12 ≤ (v.val + 11 - s.link.pointer.val) % 12) →
          t.link.pointer = u
            ∧ t.towers = (({ s with link := { s.link with tx := .idle } } : State).serve u).towers
            ∧ t.link = (({ s with link := { s.link with tx := .idle } } : State).serve u).link
            ∧ ∀ v : Tower, v ≠ u → t.towers[v] = s.towers[v])
      ∧ s.sameMemory t ∧ t.bus = s.bus ∧ s.samePort t ∧ s.sameSetup t ∧ t.coverage = s.coverage
      ∧ t.engine = s.engine ∧ t.loop = s.loop ∧ t.loader = s.loader ∧ s.sameSettings t ∧ s.sameEvents t)
  ∧ (∀ (s : State) (c : Instr), s.atRest → s.searchesAfter c)
  ∧ ∀ s : State,
    ((∀ u : Tower, s.towers[u].hasWork = false) → s.search = s)
      ∧ ∀ u : Tower, s.towers[u].hasWork = true →
        (∀ v : Tower, s.towers[v].hasWork = true →
          (u.val + 11 - s.link.pointer.val) % 12 ≤ (v.val + 11 - s.link.pointer.val) % 12) →
        s.search = s.serve u

/-- DONE, STALL and REPORT for a present key of the tower that holds the address, position at most 1000, while the
transmitter is busy: a matching DONE sets reported and tries 0, and the key leaves the in-flight set; a matching STALL
sets commanded and reported and counts a try, the third one faulting the key with KEY_FAULT; a DONE or STALL that does
not match sets reported alone; a REPORT sets reported, and commanded unless the key is in flight; a key queued anew
joins the tail of the queue; nothing else of the tower changes but its timeout count, which is 0, and PARKING, which
becomes PARKED as the moves come to rest; the values of every record stay (R68, R69, R70, R72, R73, R74, R75, R78,
R95, R103). An answer whose key is not present or whose position is above 1000 sets that count to 0 and changes
nothing else of any tower (R73, R74). That the row KEY_FAULT with a STALL is that STALL, also where it faults no key,
is the model's reading of the table (log 2). The tower is the configured one that holds the frame's address, of which
R86 leaves one at most (R86, R95); the key is the present slot of the frame's key number, the key's index or 63 for
the fountain (R73, R83), a slot being present below K or as the fountain the tower has (R12); a DONE or STALL matches
a key in flight whose tag it carries (R68). -/
def Obligations.AnswersAreTaken : Prop :=
  (∀ (s : State) (adr key tag : Byte) (pos : Half) (u : Tower) (sl : Slot) (c : Instr),
    s.link.tx ≠ .idle → s.towerAt adr = some u → s.towers[u].slotOf key = some sl → pos.toNat ≤ 1000 →
    (c = .done adr key tag pos ∨ c = .stall adr key tag pos ∨ c = .keyFault (.stall adr key tag pos)
      ∨ c = .report adr key tag pos) →
    ∃ t, exec c s = .next t ∧ s.towers[u].onlyKey sl t.towers[u] ∧ t.towers[u].timeouts = 0
      ∧ (t.towers[u].recs[sl]).reported = some pos.toNat
      ∧ (∀ (v : Tower) (x : Slot), (t.towers[v].recs[x]).values = (s.towers[v].recs[x]).values)
      ∧ (∀ v : Tower, v ≠ u → t.towers[v] = s.towers[v])
      ∧ (c = .done adr key tag pos → (s.towers[u].recs[sl]).matchesTag tag = true →
          t.towers[u].flight = s.towers[u].flight.filter (fun x => x != sl)
            ∧ ∀ again : Bool, again = ((s.towers[u].recs[sl]).move = .retarget
                && (s.towers[u].recs[sl]).commanded.isSome
                && (s.towers[u].recs[sl]).commanded ≠ some (s.towers[u].recs[sl]).target) →
              t.towers[u].recs[sl] = { s.towers[u].recs[sl] with
                  reported := some pos.toNat, tries := 0, timer := none, move := if again then .queued else .idle }
                ∧ t.towers[u].queue = s.towers[u].queue ++ (if again then [sl] else []))
      ∧ ((c = .stall adr key tag pos ∨ c = .keyFault (.stall adr key tag pos)) →
          (s.towers[u].recs[sl]).matchesTag tag = true →
          t.towers[u].flight = s.towers[u].flight.filter (fun x => x != sl)
            ∧ ((s.towers[u].recs[sl]).tries + 1 < 3 →
              t.towers[u].recs[sl] = { s.towers[u].recs[sl] with
                  commanded := some pos.toNat, reported := some pos.toNat, timer := none
                  tries := (s.towers[u].recs[sl]).tries + 1, move := .queued }
                ∧ t.towers[u].queue = s.towers[u].queue ++ [sl] ∧ s.sameEvents t)
            ∧ (3 ≤ (s.towers[u].recs[sl]).tries + 1 →
              t.towers[u].recs[sl] = { s.towers[u].recs[sl] with
                  commanded := some pos.toNat, reported := some pos.toNat, timer := none
                  tries := (s.towers[u].recs[sl]).tries + 1, move := .fault, fault := some .stall }
                ∧ t.towers[u].queue = s.towers[u].queue ∧ s.raised .keyFault t))
      ∧ (c ≠ .report adr key tag pos → (s.towers[u].recs[sl]).matchesTag tag = false →
          t.towers[u].recs[sl] = { s.towers[u].recs[sl] with reported := some pos.toNat }
            ∧ t.towers[u].queue = s.towers[u].queue ∧ t.towers[u].flight = s.towers[u].flight ∧ s.sameEvents t)
      ∧ (c = .report adr key tag pos →
          t.towers[u].recs[sl] = { s.towers[u].recs[sl] with
              reported := some pos.toNat
              commanded := if (s.towers[u].recs[sl]).move = .inFlight ∨ (s.towers[u].recs[sl]).move = .retarget
                then (s.towers[u].recs[sl]).commanded else some pos.toNat
              move := match (s.towers[u].recs[sl]).move with
                | .idle => if (s.towers[u].recs[sl]).target ≠ pos.toNat
                    ∧ admitsMoves s.towers[u].service = true then .queued else .idle
                | .queued => if (s.towers[u].recs[sl]).target = pos.toNat then .idle else .queued
                | m => m }
            ∧ t.towers[u].flight = s.towers[u].flight
            ∧ t.towers[u].queue = (match (s.towers[u].recs[sl]).move, (t.towers[u].recs[sl]).move with
                | .idle, .queued => s.towers[u].queue ++ [sl]
                | .queued, .idle => s.towers[u].queue.filter (fun x => x != sl)
                | _, _ => s.towers[u].queue))
      ∧ (c = .done adr key tag pos ∨ c = .report adr key tag pos → s.sameEvents t)
      ∧ s.sameMemory t ∧ t.bus = s.bus ∧ s.sameSetup t ∧ t.coverage = s.coverage ∧ t.engine = s.engine
      ∧ t.loop = s.loop ∧ t.loader = s.loader ∧ s.sameSettings t)
  ∧ (∀ (s : State) (adr : Byte), (∀ u, s.towerAt adr = some u
      ↔ s.towers[u].service ≠ .unconfigured ∧ s.towers[u].address = some adr
        ∧ ∀ v : Tower, v < u → ¬(s.towers[v].service ≠ .unconfigured ∧ s.towers[v].address = some adr))
    ∧ (s.towerAt adr = none ↔ ∀ u : Tower, ¬(s.towers[u].service ≠ .unconfigured ∧ s.towers[u].address = some adr)))
  ∧ (∀ (tw : TowerState) (key : Byte) (sl : Slot), (tw.slotOf key = some sl
      ↔ tw.present sl = true ∧ key = (if sl = fountainSlot then 63#8 else BitVec.ofNat 8 sl.val))
    ∧ (tw.present sl = true ↔ ∃ c, tw.cfg = some c ∧ (sl.val < c.k ∨ (sl = fountainSlot ∧ c.fountain = true))))
  ∧ (∀ (r : KeyRec) (tag : Byte), r.matchesTag tag = true
      ↔ (r.move = .inFlight ∨ r.move = .retarget) ∧ tag.toNat = r.tag.toNat)
  ∧ ∀ (s : State) (adr key tag : Byte) (pos : Half) (u : Tower) (c : Instr), s.towerAt adr = some u →
    (s.towers[u].slotOf key = none ∨ 1000 < pos.toNat) →
    (c = .done adr key tag pos ∨ c = .stall adr key tag pos ∨ c = .keyFault (.stall adr key tag pos)
      ∨ c = .report adr key tag pos) →
    ∃ t, exec c s = .next t ∧ t.towers[u] = { s.towers[u] with timeouts := 0 }
      ∧ (∀ v : Tower, v ≠ u → t.towers[v] = s.towers[v]) ∧ t.link.tx = s.link.tx ∧ t.link.pointer = s.link.pointer
      ∧ s.sameMemory t ∧ t.bus = s.bus ∧ s.sameSetup t ∧ t.coverage = s.coverage ∧ t.engine = s.engine
      ∧ t.loop = s.loop ∧ t.loader = s.loader ∧ s.sameSettings t ∧ s.sameEvents t

/-- HELLO from the tower that holds the address: TOWER_UP is raised, the queue and the in-flight set are empty, every
record's commanded and reported are UNKNOWN; a key that was QUEUED or in flight is IDLE with tries 0 and its timer
stopped, any other key stays as it was, IDLE or in FAULT with its fault; a FAULTED tower, in which no key is QUEUED
(6.1), comes back PARKED with park-hold set and a frame to send, its present records composed to 0 when the flag was
clear, any other keeps its state, but for PARKING, which becomes PARKED, and its targets (R52, R77, R103, R105, R106).
-/
def Obligations.HelloWithdrawsTheMoves : Prop :=
  ∀ (s : State) (adr key tag : Byte) (pos : Half) (u : Tower), s.towerAt adr = some u → s.link.tx ≠ .idle →
    ∃ t, exec (.hello adr key tag pos) s = .next t ∧ s.raised .towerUp t
      ∧ t.towers[u] = { s.towers[u] with
          service := t.towers[u].service, parkHold := t.towers[u].parkHold, haltPending := t.towers[u].haltPending
          queryPending := true, queue := [], flight := [], timeouts := 0, recs := t.towers[u].recs }
      ∧ (∀ sl : Slot, (t.towers[u].recs[sl]).commanded = none ∧ (t.towers[u].recs[sl]).reported = none
          ∧ (t.towers[u].recs[sl]).move = (if (s.towers[u].recs[sl]).move = .fault then .fault else .idle)
          ∧ (t.towers[u].recs[sl]).fault = (s.towers[u].recs[sl]).fault
          ∧ (t.towers[u].recs[sl]).tag = (s.towers[u].recs[sl]).tag
          ∧ (t.towers[u].recs[sl]).trim = (s.towers[u].recs[sl]).trim
          ∧ (t.towers[u].recs[sl]).base = (s.towers[u].recs[sl]).base
          ∧ (t.towers[u].recs[sl]).correction = (s.towers[u].recs[sl]).correction
          ∧ (t.towers[u].recs[sl]).hold = (s.towers[u].recs[sl]).hold
          ∧ (t.towers[u].recs[sl]).ramp = (s.towers[u].recs[sl]).ramp)
      ∧ (∀ sl : Slot, s.towers[u].service ≠ .faulted ∨ (s.towers[u].recs[sl]).move ≠ .queued →
          (s.towers[u].recs[sl]).withdrawn (t.towers[u].recs[sl]))
      ∧ (s.towers[u].service = .faulted → t.towers[u].service = .parked ∧ t.towers[u].parkHold = true
          ∧ t.towers[u].haltPending = true
          ∧ ∀ sl : Slot, (t.towers[u].recs[sl]).target
            = if s.towers[u].parkHold = false ∧ s.towers[u].present sl = true then 0
              else (s.towers[u].recs[sl]).target)
      ∧ (s.towers[u].service ≠ .faulted → t.towers[u].parkHold = s.towers[u].parkHold
          ∧ t.towers[u].haltPending = s.towers[u].haltPending
          ∧ t.towers[u].service
            = (if s.towers[u].service = .parking then .parked else s.towers[u].service)
          ∧ ∀ sl : Slot, (t.towers[u].recs[sl]).target = (s.towers[u].recs[sl]).target)
      ∧ (∀ v : Tower, v ≠ u → t.towers[v] = s.towers[v])
      ∧ s.sameMemory t ∧ t.bus = s.bus ∧ s.sameSetup t ∧ t.coverage = s.coverage ∧ t.engine = s.engine
      ∧ t.loop = s.loop ∧ t.loader = s.loader ∧ s.sameSettings t

/-- FRAME_DISCARDED: a run of the line that is, after a rest, fewer than eight bytes and a rest, a bad start mark, a
byte with a bad stop bit, or eight bytes whose check is wrong, whose address no configured tower holds or whose kind
is no answer, changes nothing but the receiver, the control unit offering what it has to offer on a free channel (R93,
R94, R161). -/
def Obligations.BadFramesAreDiscarded : Prop :=
  ∀ (s : State) (line : List LineEvent),
    ((∃ bs : List Byte, bs.length < 8
        ∧ line = .rest :: bs.map (fun b => .byte b true) ++ [.rest])
      ∨ (∃ (v : Byte) (l : List Byte), v ≠ 0xA5#8 ∧ line = .rest :: .byte v true :: l.map (fun b => .byte b true))
      ∨ (∃ (bs : List Byte) (v : Byte), bs.length < 8
          ∧ line = .rest :: bs.map (fun b => .byte b true) ++ [.byte v false])
      ∨ (∃ a k x y p q z : Byte,
          (crc8 [a, k, x, y, p, q] ≠ z ∨ s.towerAt a = none
            ∨ (k ≠ 0x11#8 ∧ k ≠ 0x12#8 ∧ k ≠ 0x13#8 ∧ k ≠ 0x14#8))
          ∧ line = .rest :: [0xA5#8, a, k, x, y, p, q, z].map (fun b => .byte b true))) →
    ∃ t, exec (.frameDiscarded line) s = .next t ∧ t.towers = s.towers ∧ t.link.tx = s.link.tx
      ∧ t.link.pointer = s.link.pointer ∧ s.sameMemory t ∧ t.bus = s.bus ∧ t.lastResponse = s.lastResponse
      ∧ s.sameControl t ∧ s.sameSetup t ∧ t.coverage = s.coverage ∧ t.engine = s.engine ∧ t.loop = s.loop
      ∧ t.loader = s.loader ∧ s.sameSettings t ∧ s.sameEvents t

/-- MOVE_TIMEOUT, and the rows for what a timeout may bring about, for a key whose move timer runs, with no frame free
to go out: below three in a row the key leaves the in-flight set, counts a try and joins the tail of the queue, or
faults TIMEOUT with KEY_FAULT at the third try, and nothing else of the tower changes but PARKING, which becomes PARKED
as the moves come to rest; at the third in a row the tower is FAULTED, TOWER_DOWN is raised and its moves are withdrawn:
a key that was QUEUED or in flight is IDLE with tries 0 and its timer stopped, the timed-out key too unless it has
faulted, a key in FAULT stays there, and commanded and reported are UNKNOWN; park-hold and the values of every record
stay (R71, R74, R75, R77, R78, R103, R104). That TOWER_DOWN and KEY_FAULT with a timeout are the expiry of that timer,
also where it takes no tower down or faults no key, is the model's reading of the table (log 2), and so is that the
count rises before the notice of rest is given (log 26). -/
def Obligations.TimeoutsAreTaken : Prop :=
  ∀ (s : State) (u : Tower) (sl : Slot) (c : Instr),
    (c = .moveTimeout u sl ∨ c = .towerDown u sl ∨ c = .keyFault (.timeout u sl)) →
    (s.towers[u].recs[sl]).timer.isSome = true → s.link.tx ≠ .idle →
    ∃ t, exec c s = .next t
      ∧ (s.towers[u].timeouts + 1 < 3 →
          s.towers[u].onlyKey sl t.towers[u] ∧ t.towers[u].timeouts = s.towers[u].timeouts + 1
            ∧ t.towers[u].flight = s.towers[u].flight.filter (fun x => x != sl)
            ∧ ((s.towers[u].recs[sl]).tries + 1 < 3 →
              t.towers[u].recs[sl] = { s.towers[u].recs[sl] with
                  timer := none, tries := (s.towers[u].recs[sl]).tries + 1, move := .queued }
                ∧ t.towers[u].queue = s.towers[u].queue ++ [sl])
            ∧ (3 ≤ (s.towers[u].recs[sl]).tries + 1 →
              t.towers[u].recs[sl] = { s.towers[u].recs[sl] with
                  timer := none, tries := (s.towers[u].recs[sl]).tries + 1, move := .fault, fault := some .timeout }
                ∧ t.towers[u].queue = s.towers[u].queue))
      ∧ (3 ≤ (s.towers[u].recs[sl]).tries + 1 → (s.towers[u].recs[sl]).move ≠ .fault →
          t.control.flags.getLsbD (flagBit .keyFault) = true)
      ∧ (3 ≤ s.towers[u].timeouts + 1 →
          t.towers[u] = { s.towers[u] with
              service := .faulted, queue := [], flight := [], timeouts := 0, recs := t.towers[u].recs }
            ∧ t.control.flags.getLsbD (flagBit .towerDown) = true
            ∧ (∀ x : Slot, x ≠ sl → (s.towers[u].recs[x]).withdrawn (t.towers[u].recs[x]))
            ∧ ((s.towers[u].recs[sl]).tries + 1 < 3 →
              t.towers[u].recs[sl] = { s.towers[u].recs[sl] with
                commanded := none, reported := none, timer := none, tries := 0, move := .idle })
            ∧ (3 ≤ (s.towers[u].recs[sl]).tries + 1 →
              t.towers[u].recs[sl] = { s.towers[u].recs[sl] with
                commanded := none, reported := none, timer := none, tries := (s.towers[u].recs[sl]).tries + 1
                move := .fault, fault := some .timeout }))
      ∧ (∀ (v : Tower) (x : Slot), (t.towers[v].recs[x]).values = (s.towers[v].recs[x]).values)
      ∧ (∀ v : Tower, v ≠ u → t.towers[v] = s.towers[v])
      ∧ s.sameMemory t ∧ t.bus = s.bus ∧ s.sameSetup t ∧ t.coverage = s.coverage ∧ t.engine = s.engine
      ∧ t.loop = s.loop ∧ t.loader = s.loader ∧ s.sameSettings t

/-! ### The configuration loader and the pin reset -/

/-- HEADER_READ at the header: a good header takes the loader to GLOBAL, with its pointers; one whose signature is
wrong or whose section count is not 1 to 16 fails the load, which ends PASS_ONLY with CONFIG_FAULT, no window, no
coverage range and both banks dropped (R39, R169, R171, R176). A word is the two bytes from twice its address, the
most significant first; CFG_CS_N goes high when the run has been clocked in, and the read of GLOBAL begins, CFG_CS_N
low, 03h and twice its word address, when it has a pointer (R169; log 31). Bytes past the end of a memory that is
shorter than a read are FFh or 00h, all of them, by the pull of the line: that is the model's choice (log 5). -/
def Obligations.HeaderIsJudged : Prop :=
  (∀ (s : State) (image : List Byte), s.loader.state = .readingHeader →
    (imageWord image 0 = 0x5A3C#16 → 1 ≤ (imageWord image 1).toNat → (imageWord image 1).toNat ≤ 16 →
      ∃ t h, exec (.headerRead image) s = .next t
        ∧ t.loader = { s.loader with state := .reading 0, header := some h, spi := t.loader.spi }
        ∧ h.count = (imageWord image 1).toNat ∧ h.pointers.length = h.count
        ∧ (∀ i, i < h.count → h.pointers.getD i 0 = imageWord image (i + 2))
        ∧ (imageWord image 2 ≠ 0 →
            t.loader.spi.csN = false ∧ t.loader.spi.steps = [.receive (h.count + 2), .csHigh, .csLow, .send 0x03#8,
                .send (BitVec.ofNat 8 (2 * (imageWord image 2).toNat / 256)),
                .send (BitVec.ofNat 8 (2 * (imageWord image 2).toNat))])
        ∧ (imageWord image 2 = 0 → t.loader.spi = ⟨true, [], [.receive (h.count + 2), .csHigh]⟩)
        ∧ s.sameMemory t ∧ t.bus = s.bus ∧ s.sameSetup t ∧ s.sameTowers t ∧ t.coverage = s.coverage
        ∧ t.engine = s.engine ∧ t.loop = s.loop ∧ s.sameSettings t ∧ s.sameEvents t)
    ∧ ((imageWord image 0 ≠ 0x5A3C#16 ∨ (imageWord image 1).toNat < 1 ∨ 16 < (imageWord image 1).toNat) →
      ∃ t, exec (.headerRead image) s = .next t ∧ s.loadFailed t
        ∧ t.loader.spi = ⟨true, [], [.receive 2, .csHigh]⟩))
  ∧ (∀ (image : List Byte) (a : Nat), imageWord image a = imageByte image (2 * a) ++ imageByte image (2 * a + 1))
  ∧ ∀ (image : List Byte) (a : Nat), (∀ b, image[a]? = some b → imageByte image a = b)
      ∧ (image[a]? = none → imageByte image a = if Config.pullHigh then 0xFF#8 else 0x00#8)

/-- SECTION_READ while the loader stands at a section, the judgements being those ConfigurationSectionsAreRead states:
a GLOBAL or a WINDOWS that is absent, bad or out of range, and a WINDOWS that leaves no valid CONTROL entry, fail the
load; good ones are staged. A CURVES that is good is staged, bad or absent it stays linear. A TOWER section that is
good in framing and in content is staged for its tower. A PRELOAD with pairs is staged and begun; without any, bad or
absent, the load ends RUNNING, each staged tower PARKED with HALT and QUERY ALL to send (R87, R113). CONFIG_FAULT is
raised for a load that fails, a section that is bad, in framing or in content, a window entry or a curve that is
rejected, and for nothing else (R3, R23, R40, R168, R170 to R176). CFG_CS_N goes high at the end of a section that was
read and low when the next is begun (R169; log 31). The addresses a TOWER section is judged against are those of the
towers staged before it (R174). -/
def Obligations.SectionIsJudged : Prop :=
  (∀ (s : State) (image : List Byte) (h : Header), s.loader.state = .reading 0 → s.loader.header = some h →
    (∀ ws g, readSection h image 0 = .good ws → globalOf ws = some g →
      ∃ t, exec (.sectionRead image) s = .next t
        ∧ t.loader = { s.loader with
            state := .reading 1
            staged := { s.loader.staged with globals := some g }
            spi := t.loader.spi }
        ∧ t.loader.spi.csN = decide (h.pointers.getD 1 0 = 0)
        ∧ s.sameMemory t ∧ t.bus = s.bus ∧ s.sameSetup t ∧ s.sameTowers t ∧ t.coverage = s.coverage
        ∧ t.engine = s.engine ∧ t.loop = s.loop ∧ s.sameSettings t ∧ s.sameEvents t)
    ∧ ((∀ ws, readSection h image 0 = .good ws → globalOf ws = none) →
      ∃ t, exec (.sectionRead image) s = .next t ∧ s.loadFailed t
        ∧ t.loader.spi.csN = (s.loader.spi.csN || decide (h.pointers.getD 0 0 ≠ 0))))
  ∧ (∀ (s : State) (image : List Byte) (h : Header), s.loader.state = .reading 1 → s.loader.header = some h →
    (∀ ws, readSection h image 1 = .good ws → (∃ w, some w ∈ (windowsOf ws).1 ∧ w.kind = .control) →
      ∃ t, exec (.sectionRead image) s = .next t
        ∧ t.loader = { s.loader with
            state := .reading 2
            staged := { s.loader.staged with windows := (windowsOf ws).1 }
            spi := t.loader.spi }
        ∧ t.loader.spi.csN = decide (h.pointers.getD 2 0 = 0)
        ∧ ((windowsOf ws).2 = true → s.raised .configFault t)
        ∧ ((windowsOf ws).2 = false → t.control.flags = s.control.flags)
        ∧ s.sameMemory t ∧ t.bus = s.bus ∧ s.sameSetup t ∧ s.sameTowers t ∧ t.coverage = s.coverage
        ∧ t.engine = s.engine ∧ t.loop = s.loop ∧ s.sameSettings t ∧ t.control.capture = s.control.capture)
    ∧ ((∀ ws, readSection h image 1 = .good ws → ∀ w, some w ∈ (windowsOf ws).1 → w.kind ≠ .control) →
      ∃ t, exec (.sectionRead image) s = .next t ∧ s.loadFailed t
        ∧ t.loader.spi.csN = (s.loader.spi.csN || decide (h.pointers.getD 1 0 ≠ 0))))
  ∧ (∀ (s : State) (image : List Byte) (h : Header), s.loader.state = .reading 2 → s.loader.header = some h →
    ∃ t, exec (.sectionRead image) s = .next t
      ∧ (∀ ws, readSection h image 2 = .good ws →
          t.loader.staged = { s.loader.staged with curves := (curvesOf ws).1 }
            ∧ ((curvesOf ws).2 = true → s.raised .configFault t)
            ∧ ((curvesOf ws).2 = false → t.control.flags = s.control.flags))
      ∧ (readSection h image 2 = .bad → t.loader.staged = s.loader.staged ∧ s.raised .configFault t)
      ∧ (readSection h image 2 = .absent → t.loader.staged = s.loader.staged ∧ t.control.flags = s.control.flags)
      ∧ t.loader.state = .reading 3 ∧ t.loader.header = s.loader.header
      ∧ t.loader.spi.csN = (decide (h.pointers.getD 3 0 = 0)
          && (s.loader.spi.csN || decide (h.pointers.getD 2 0 ≠ 0)))
      ∧ s.sameMemory t ∧ t.bus = s.bus ∧ s.sameSetup t ∧ s.sameTowers t ∧ t.coverage = s.coverage
      ∧ t.engine = s.engine ∧ t.loop = s.loop ∧ s.sameSettings t ∧ t.control.capture = s.control.capture)
  ∧ (∀ (s : State) (image : List Byte) (h : Header) (u : Tower), s.loader.state = .reading (Fin.ofNat 16 (3 + u.val)) →
    s.loader.header = some h →
    (∀ ws c, readSection h image (3 + u.val) = .good ws → towerOf s.loader.staged.holds ws = some c →
      ∃ t, exec (.sectionRead image) s = .next t
        ∧ t.loader = { s.loader with
            state := .reading (Fin.ofNat 16 (4 + u.val))
            staged := { s.loader.staged with towers := s.loader.staged.towers.set u (some c) }
            spi := t.loader.spi }
        ∧ t.loader.spi.csN = decide (h.pointers.getD (4 + u.val) 0 = 0)
        ∧ s.sameMemory t ∧ t.bus = s.bus ∧ s.sameSetup t ∧ s.sameTowers t ∧ t.coverage = s.coverage
        ∧ t.engine = s.engine ∧ t.loop = s.loop ∧ s.sameSettings t ∧ s.sameEvents t)
    ∧ (readSection h image (3 + u.val) = .bad
        ∨ (∃ ws, readSection h image (3 + u.val) = .good ws ∧ towerOf s.loader.staged.holds ws = none) →
      ∃ t, exec (.sectionRead image) s = .next t
        ∧ t.loader = { s.loader with state := .reading (Fin.ofNat 16 (4 + u.val)), spi := t.loader.spi }
        ∧ t.loader.spi.csN = decide (h.pointers.getD (4 + u.val) 0 = 0) ∧ s.raised .configFault t
        ∧ s.sameMemory t ∧ t.bus = s.bus ∧ s.sameSetup t ∧ s.sameTowers t ∧ t.coverage = s.coverage)
    ∧ (readSection h image (3 + u.val) = .absent →
      ∃ t, exec (.sectionRead image) s = .next t
        ∧ t.loader = { s.loader with state := .reading (Fin.ofNat 16 (4 + u.val)), spi := t.loader.spi }
        ∧ t.loader.spi.csN = (decide (h.pointers.getD (4 + u.val) 0 = 0) && s.loader.spi.csN) ∧ s.sameEvents t
        ∧ s.sameMemory t ∧ t.bus = s.bus ∧ s.sameSetup t ∧ s.sameTowers t ∧ t.coverage = s.coverage))
  ∧ (∀ (s : State) (image : List Byte) (h : Header), s.loader.state = .reading 15 → s.loader.header = some h →
    (∀ ws, readSection h image 15 = .good ws → preloadOf ws ≠ [] →
      ∃ t, exec (.sectionRead image) s = .next t
        ∧ t.loader = { s.loader with
            state := .preloading 0
            staged := { s.loader.staged with preload := preloadOf ws }
            spi := t.loader.spi }
        ∧ t.loader.spi.csN = true ∧ s.sameMemory t ∧ t.bus = s.bus ∧ s.sameSetup t ∧ s.sameTowers t
        ∧ t.coverage = s.coverage ∧ t.engine = s.engine ∧ t.loop = s.loop ∧ s.sameSettings t ∧ s.sameEvents t)
    ∧ ∀ g, s.loader.staged.globals = some g →
      ((∀ ws, readSection h image 15 = .good ws → preloadOf ws = []) →
      ∃ t, exec (.sectionRead image) s = .next t ∧ t.loader.state = .idle ∧ t.control.part = .running
        ∧ t.loader.spi.csN = (s.loader.spi.csN || decide (h.pointers.getD 15 0 ≠ 0))
        ∧ t.windows = s.loader.staged.windows ∧ t.curves = s.loader.staged.curves ∧ t.timeout = g.timeout
        ∧ t.engine = { s.engine with table := some ⟨g.tableBase, g.tableLength⟩ }
        ∧ s.coverage.loadEnded t.coverage (rangeOf s.loader.staged.windows)
            (fun u => (s.loader.staged.towers[u]).map TowerCfg.geometry)
        ∧ (∀ (u : Tower) (c : TowerCfg), s.loader.staged.towers[u] = some c →
            t.towers[u].service = .parked ∧ t.towers[u].cfg = some c.key)
        ∧ (s.link.tx ≠ .idle → t.link = s.link
          ∧ (∀ (u : Tower) (c : TowerCfg), s.loader.staged.towers[u] = some c →
            t.towers[u] = { s.towers[u] with
              service := .parked, parkHold := true, cfg := some c.key, settings := some c.loop
              address := some c.address, haltPending := true, queryPending := true })
          ∧ ∀ u : Tower, s.loader.staged.towers[u] = none → t.towers[u] = s.towers[u])
        ∧ (∀ v : CtlWord, t.control.mirror.getLsbD v.val = decide (v.val < 15 ∨ 16 ≤ v.val ∧ v.val < 28))
        ∧ (readSection h image 15 = .bad → s.raised .configFault t)
        ∧ (readSection h image 15 ≠ .bad → t.control.flags = s.control.flags)
        ∧ s.sameMemory t ∧ t.bus = s.bus ∧ t.loop = s.loop ∧ t.levels = s.levels))
  ∧ ∀ (x : Staged) (a : Byte), x.holds a = true ↔ ∃ (u : Tower) (c : TowerCfg), x.towers[u] = some c ∧ c.address = a

/-- SECTION_RELOAD_COMPLETE: a good section makes the tower PARKED with park-hold set, its moves withdrawn, every
target 0, its corrections 0 and its loop OFF; a failed one makes it UNCONFIGURED with its records at their reset
values and CONFIG_FAULT raised; the new geometry, or none, is installed, and where it has changed the tower's frames
become UNFIT, keeping their sums, a fold in the latch into one of them void, while every other frame, the banks'
states and the roles stay; where it has not the coverage unit stays whole (R29, R36); the tag counter and the other
towers stay, and the tower's word is reported (R58, R81, R107, R108, R109, R156, R178). Slots, read list and measure
status stay, and each record in the read list over a good reset is marked with the tower, which is how the model keeps
what R156 says of it (log 33). CFG_CS_N is high, nothing being read (R169; log 31). The section is read again through
the header, which must be good, and is judged as ConfigurationSectionsAreRead states, its address against that of
every other configured tower (R86, R174, R178). -/
def Obligations.TowerResetTakesEffect : Prop :=
  (∀ (s : State) (image : List Byte) (u : Tower), s.loader.state = .section_ u → s.link.tx ≠ .idle →
    (∀ c, s.reread u image = some c →
      ∃ t, exec (.sectionReloadComplete image) s = .next t
        ∧ t.loader = { s.loader with state := .idle, spi := t.loader.spi }
        ∧ t.loader.spi.csN = true ∧ t.loader.spi.sent = []
        ∧ t.towers[u].service = .parked ∧ t.towers[u].parkHold = true ∧ t.towers[u].cfg = some c.key
        ∧ t.towers[u].address = some c.address ∧ t.towers[u].settings = some c.loop ∧ t.towers[u].loop = .off
        ∧ t.towers[u].settle = 0 ∧ t.towers[u].queue = [] ∧ t.towers[u].flight = [] ∧ t.towers[u].timeouts = 0
        ∧ t.towers[u].tagCounter = s.towers[u].tagCounter
        ∧ t.towers[u].haltPending = true ∧ t.towers[u].queryPending = true
        ∧ t.coverage.geometry[u] = some c.geometry
        ∧ (∀ v : Tower, v ≠ u → t.coverage.geometry[v] = s.coverage.geometry[v])
        ∧ s.coverage.madeUnfit t.coverage (fun _ v => v = u ∧ s.coverage.geometry[u] ≠ some c.geometry)
        ∧ (s.coverage.geometry[u] = some c.geometry → t.coverage = s.coverage)
        ∧ (∀ sl : Slot, (t.towers[u].recs[sl]).target = 0 ∧ (t.towers[u].recs[sl]).correction = 0
            ∧ (t.towers[u].recs[sl]).ramp = none ∧ (t.towers[u].recs[sl]).commanded = none
            ∧ (t.towers[u].recs[sl]).reported = none ∧ (t.towers[u].recs[sl]).move = .idle
            ∧ (t.towers[u].recs[sl]).fault = none ∧ (t.towers[u].recs[sl]).tries = 0
            ∧ (t.towers[u].recs[sl]).timer = none
            ∧ (s.towers[u].present sl = true → t.towers[u].present sl = true →
                (t.towers[u].recs[sl]).base = (s.towers[u].recs[sl]).rbOpening
                  ∧ (t.towers[u].recs[sl]).tag = (s.towers[u].recs[sl]).tag
                  ∧ (t.towers[u].recs[sl]).trim = (s.towers[u].recs[sl]).trim
                  ∧ (t.towers[u].recs[sl]).hold = (s.towers[u].recs[sl]).hold)
            ∧ (s.towers[u].present sl = false ∨ t.towers[u].present sl = false →
                t.towers[u].recs[sl] = KeyRec.reset))
        ∧ (∀ v : Tower, v ≠ u → t.towers[v] = s.towers[v])
        ∧ (s.control.part = .running → t.control.mirror.getLsbD (16 + u.val) = true)
        ∧ t.loop = { s.loop with overReset := t.loop.overReset }
        ∧ (∀ i : Fin 16, t.loop.overReset[i] = if i ∈ s.loop.readList
            then s.loop.overReset[i] ||| BitVec.twoPow 12 u.val else s.loop.overReset[i])
        ∧ s.sameMemory t ∧ t.bus = s.bus ∧ s.sameSetup t ∧ t.engine = s.engine
        ∧ s.sameSettings t ∧ s.sameEvents t)
    ∧ (s.reread u image = none →
      ∃ t, exec (.sectionReloadComplete image) s = .next t
        ∧ t.loader = { s.loader with state := .idle, spi := t.loader.spi }
        ∧ t.loader.spi.csN = true ∧ t.loader.spi.sent = []
        ∧ t.towers[u] = { TowerState.reset with tagCounter := s.towers[u].tagCounter }
        ∧ s.raised .configFault t ∧ t.coverage.geometry[u] = none
        ∧ (∀ v : Tower, v ≠ u → t.coverage.geometry[v] = s.coverage.geometry[v])
        ∧ s.coverage.madeUnfit t.coverage (fun _ v => v = u ∧ s.coverage.geometry[u] ≠ none)
        ∧ (s.coverage.geometry[u] = none → t.coverage = s.coverage)
        ∧ (∀ v : Tower, v ≠ u → t.towers[v] = s.towers[v])
        ∧ (s.control.part = .running → t.control.mirror.getLsbD (16 + u.val) = true)
        ∧ s.sameMemory t ∧ t.bus = s.bus ∧ s.sameSetup t ∧ t.engine = s.engine ∧ t.loop = s.loop
        ∧ s.sameSettings t))
  ∧ ∀ (s : State) (image : List Byte) (u : Tower) (n : Nat) (taken : Byte → Bool), n = (imageWord image 1).toNat →
    (∀ a, taken a = true ↔ ∃ v : Tower, v ≠ u ∧ s.towers[v].service ≠ .unconfigured ∧ s.towers[v].address = some a) →
    ((imageWord image 0 ≠ 0x5A3C#16 ∨ n < 1 ∨ 16 < n) → s.reread u image = none)
      ∧ (imageWord image 0 = 0x5A3C#16 → 1 ≤ n → n ≤ 16 → ∀ h : Header,
        h = ⟨n, (List.range n).map (fun i => imageWord image (i + 2))⟩ →
        s.reread u image = (match readSection h image (3 + u.val) with
          | .good ws => towerOf taken ws
          | _ => none))

/-- PIN_RESET: every block takes its pin-reset values, each access in progress is answered with a bus error, a granted
pass-through access completes at memory later, one that an earlier pin reset has answered and memory has not yet
keeping the port over a second, and memory stays unless an internal write holds the port (R20). Choices of the model:
of the words of such a write those are written that the operand of PIN_RESET says (log 13), the responses given before
stay (log 19), and the port of the configuration memory has begun the read of the header (log 31). -/
def Obligations.PinResetPutsEveryBlockInItsValues : Prop :=
  ∀ (s : State) (l : BitVec 2),
    ∃ t, exec (.pinReset l) s = .next t
      ∧ (∀ c, t.bus.get c = none)
      ∧ (∀ c, t.lastResponse.get c
          = if (s.bus.get c).isSome then some .busError else s.lastResponse.get c)
      ∧ (∀ c w, s.port.holder = some (.passThrough c w) → t.port.holder = some (.orphan w))
      ∧ (∀ w, s.port.holder = some (.orphan w) → t.port.holder = some (.orphan w))
      ∧ (s.port.holder = none → t.port.holder = none)
      ∧ (∀ r ws x, s.port.holder = some (.internal r ws x) → t.port.holder = none)
      ∧ ((∀ r ws x, s.port.holder ≠ some (.internal r ws x)) → s.sameMemory t)
      ∧ (∀ r ws x, s.port.holder = some (.internal r ws x) → (∀ w ∈ ws, w.dir = .read) → s.sameMemory t)
      ∧ (∀ r w x, s.port.holder = some (.internal r [w] x) → t.mem = Memory.answer s.mem w (.error (l.getLsbD 0)))
      ∧ (∀ r w v x, s.port.holder = some (.internal r [w, v] x) →
          t.mem = Memory.answers s.mem [w, v] [.error (l.getLsbD 0), .error (l.getLsbD 1)])
      ∧ t.port.queue = [] ∧ t.port.passOver = 0 ∧ t.port.limit = 16 ∧ t.port.pointer = .service
      ∧ t.windows = noWindows ∧ t.coverage = Coverage.reset ∧ t.curves = linearCurves
      ∧ t.towers = Vector.replicate 12 TowerState.reset ∧ t.timeout = 20 ∧ t.link = Link.reset
      ∧ t.levels = ⟨false, false, false⟩ ∧ t.engine = Engine.reset ∧ t.loop = LoopUnit.reset
      ∧ t.control = Control.reset ∧ t.loader = Loader.reset ∧ t.pending = s.pending

/-- How a section is read and judged. Its pointer, 0 or missing for an absent one; its framing: the start below the
header's end, the check word past word 4095, a length its kind does not allow, a check word that is not the sum of the
content words mod 65536, make it bad (R170). GLOBAL's fields and ranges (R172); the window entries with their checks,
forced sizes, aligned bases and forced masks (R3) and the COVERAGE entry that shares an address with another (R23);
the curves, each valid or linear (R40, R173); TOWER's fields and content checks (R142, R174); PRELOAD's pairs (R175);
all at their places (12.6). -/
def Obligations.ConfigurationSectionsAreRead : Prop :=
  (∀ (h : Header) (image : List Byte) (kind p len : Nat) (ws : List Half),
    p = (h.pointers.getD kind 0).toNat → len = (imageWord image p).toNat →
    ws = (List.range len).map (fun i => imageWord image (p + 1 + i)) →
    (p = 0 → readSection h image kind = .absent)
    ∧ (p ≠ 0 → (p < h.count + 2 ∨ 4095 < p + len + 1 ∨ lengthAllowed kind len ws = false
          ∨ imageWord image (p + len + 1) ≠ BitVec.ofNat 16 (ws.map BitVec.toNat).sum) →
        readSection h image kind = .bad)
    ∧ (p ≠ 0 → h.count + 2 ≤ p → p + len + 1 ≤ 4095 → lengthAllowed kind len ws = true →
        imageWord image (p + len + 1) = BitVec.ofNat 16 (ws.map BitVec.toNat).sum →
        readSection h image kind = .good ws))
  ∧ (∀ (len : Nat) (ws : List Half),
    (lengthAllowed 0 len ws = true ↔ len = 11) ∧ (lengthAllowed 1 len ws = true ↔ len % 6 = 0 ∧ len ≤ 48)
      ∧ (lengthAllowed 2 len ws = true ↔ len = 176) ∧ (lengthAllowed 15 len ws = true ↔ len % 4 = 0 ∧ len ≤ 1024)
      ∧ ∀ u : Tower, lengthAllowed (3 + u.val) len ws = true
          ↔ 8 ≤ (ws.getD 1 0).toNat ∧ (ws.getD 1 0).toNat ≤ 48 ∧ len = (ws.getD 1 0).toNat + 15)
  ∧ (∀ (ws : List Half) (g : GlobalCfg) (n : Nat → Nat), (∀ i, n i = (ws.getD i 0).toNat) →
    (globalOf ws = some g ↔
      1 ≤ n 2 ∧ n 2 ≤ 64 ∧ n 7 ≤ 1 ∧ 2 ≤ n 9 ∧ n 9 ≤ 60 ∧ 4 ≤ n 10 ∧ n 10 ≤ 64
        ∧ g.tableBase = (n 1 * 65536 + n 0) % 2 ^ 28 / 32 * 32 ∧ g.tableLength = n 2
        ∧ g.noticeAddr = (n 4 * 65536 + n 3) % 2 ^ 28 / 4 * 4 ∧ g.noticeDatum = ws.getD 6 0 ++ ws.getD 5 0
        ∧ g.mode = (if n 7 = 0 then .clearOnes else .replace) ∧ g.enables = (ws.getD 8 0).setWidth 14
        ∧ g.timeout = n 9 ∧ g.limit = n 10))
  ∧ (∀ (before : WindowTable) (ws : List Half) (n : Nat → Nat) (size : Nat) (k : WindowKind),
    (∀ i, n i = (ws.getD i 0).toNat) →
    ((ws.getD 0 0).getLsbD 0 = false → checkEntry before ws = (none, false))
    ∧ ((ws.getD 0 0).getLsbD 0 = true → 6 ≤ n 0 / 256 % 8 → checkEntry before ws = (none, true))
    ∧ ((ws.getD 0 0).getLsbD 0 = true →
        ((n 0 / 256 % 8 = 0 ∧ k = .coverage) ∨ (n 0 / 256 % 8 = 1 ∧ k = .measure) ∨ (n 0 / 256 % 8 = 2 ∧ k = .control)
          ∨ (n 0 / 256 % 8 = 3 ∧ k = .live) ∨ (n 0 / 256 % 8 = 4 ∧ k = .orders)
          ∨ (n 0 / 256 % 8 = 5 ∧ k = .guard)) →
        size = (if k = .control then 128 else if k = .measure then 2048 else if k = .live then 16384
          else n 4 * 65536 + n 3) →
        ((k = .coverage ∨ k = .orders ∨ k = .guard) ∧ (∀ i, 6 ≤ i → i ≤ 26 → size ≠ 2 ^ i)
            ∨ (k ≠ .guard ∧ ∃ w, some w ∈ before ∧ w.kind = k) → checkEntry before ws = (none, true))
          ∧ ((k = .control ∨ k = .measure ∨ k = .live ∨ ∃ i, 6 ≤ i ∧ i ≤ 26 ∧ size = 2 ^ i) →
            (k = .guard ∨ ∀ w, some w ∈ before → w.kind ≠ k) →
            checkEntry before ws
              = (some ⟨k, (n 2 * 65536 + n 1) % 2 ^ 28 / size * size, size, (ws.getD 5 0).extractLsb' 0 4,
                  if k = .coverage ∨ k = .live then ~~~((ws.getD 5 0).extractLsb' 0 4)
                  else (ws.getD 5 0).extractLsb' 8 4⟩, false))))
  ∧ (∀ (ws : List Half) (es : Nat → WindowTable × Bool), es 0 = ([], false) →
    (∀ i, es (i + 1) = ((es i).1 ++ [(checkEntry (es i).1 ((ws.drop (6 * i)).take 6)).1],
        (es i).2 || (checkEntry (es i).1 ((ws.drop (6 * i)).take 6)).2)) →
    ∀ tab : WindowTable, tab = ((es (ws.length / 6)).1 ++ List.replicate 8 none).take 8 →
      (windowsOf ws).1.length = 8
        ∧ (∀ (i : Nat) (w : Window),
            (windowsOf ws).1[i]? = some (some w) ↔ tab[i]? = some (some w) ∧ ¬sharesAddress tab w)
        ∧ ((windowsOf ws).2 = true ↔ (es (ws.length / 6)).2 = true ∨ ∃ w, some w ∈ tab ∧ sharesAddress tab w))
  ∧ (∀ (ws : List Half) (c : Fin 16) (pts : Curve),
    pts = (List.range 11).map (fun i => (ws.getD (11 * c.val + i) 0).toNat) →
    (curvesOf ws).1.getD c.val [] = (if curveValid pts then pts else linearCurve)
      ∧ (curveValid pts = false → (curvesOf ws).2 = true)
      ∧ (curveValid pts = true ↔ (∀ x ∈ pts, x ≤ 1000) ∧ ∀ i, i < 10 → pts.getD i 0 ≤ pts.getD (i + 1) 0))
  ∧ (∀ ws : List Half, (∀ c : Nat, c < 16 →
      curveValid ((List.range 11).map (fun i => (ws.getD (11 * c + i) 0).toNat)) = true) → (curvesOf ws).2 = false)
  ∧ (∀ (taken : Byte → Bool) (ws : List Half) (c : TowerCfg) (n : Nat → Nat) (k : Nat),
    (∀ i, n i = (ws.getD i 0).toNat) → k = n 1 →
    (towerOf taken ws = some c ↔
      (1 ≤ n 0 ∧ n 0 ≤ 15 ∧ taken (BitVec.ofNat 8 (n 0)) = false) ∧ (8 ≤ k ∧ k ≤ 48)
        ∧ (64 ≤ n 2 ∧ n 2 ≤ 8192 ∧ n 2 % 4 = 0) ∧ (∀ i, i < k → n (3 + i) < n (4 + i)) ∧ n (3 + k) < n 2
        ∧ (100 ≤ n (k + 4) ∧ n (k + 4) ≤ 1000) ∧ n (k + 5) ≤ 15 ∧ n (k + 6) ≤ 1 ∧ n (k + 7) ≤ 15
        ∧ n (k + 8) ≤ 4000 ∧ (1 ≤ n (k + 9) ∧ n (k + 9) ≤ 2000) ∧ n (k + 10) ≤ 1000
        ∧ (1 ≤ n (k + 11) ∧ n (k + 11) ≤ 50) ∧ (1 ≤ n (k + 12) ∧ n (k + 12) ≤ 200)
        ∧ (10 ≤ n (k + 13) ∧ n (k + 13) ≤ 500) ∧ n (k + 14) ≤ 1000
        ∧ c.address = BitVec.ofNat 8 (n 0) ∧ c.geometry = ⟨n 2, k, (List.range (k + 1)).map (fun i => n (3 + i))⟩
        ∧ c.key.k = k ∧ c.key.omax = n (k + 4) ∧ c.key.defaultCurve.val = n (k + 5)
        ∧ c.key.fountain = decide (n (k + 6) = 1) ∧ c.key.fountainCurve.val = n (k + 7)
        ∧ c.loop = ⟨n (k + 8), n (k + 9), n (k + 10), n (k + 11), n (k + 12), n (k + 13), n (k + 14)⟩))
  ∧ ∀ (ws : List Half) (n : Nat → Nat), (∀ i, n i = (ws.getD i 0).toNat) →
    preloadOf ws = (List.range (ws.length / 4)).map (fun i =>
      ((n (4 * i + 1) * 65536 + n (4 * i)) % 2 ^ 28 / 4 * 4, ws.getD (4 * i + 3) 0 ++ ws.getD (4 * i + 2) 0))
end

