-- ==== Sys2Proof/Laws/State.lean ====
section
/-! SUPPORT. What each shared operation leaves as it was: one lemma an operation, one conjunct a field. Citing the
name, or simp, replaces unfolding the operation. -/

namespace Sys2Proof.Machine

@[simp] theorem State.raise_keeps (f : EventFlag) (s : State) :
    (s.raise f).pending = s.pending ∧ (s.raise f).mem = s.mem ∧ (s.raise f).lastResponse = s.lastResponse ∧
    (s.raise f).bus = s.bus ∧ (s.raise f).windows = s.windows ∧ (s.raise f).port = s.port ∧
    (s.raise f).coverage = s.coverage ∧ (s.raise f).curves = s.curves ∧ (s.raise f).towers = s.towers ∧
    (s.raise f).timeout = s.timeout ∧ (s.raise f).link = s.link ∧ (s.raise f).levels = s.levels ∧
    (s.raise f).engine = s.engine ∧ (s.raise f).loop = s.loop ∧ (s.raise f).loader = s.loader :=
  ⟨rfl, rfl, rfl, rfl, rfl, rfl, rfl, rfl, rfl, rfl, rfl, rfl, rfl, rfl, rfl⟩

@[simp] theorem State.raiseIf_keeps (b : Bool) (f : EventFlag) (s : State) :
    (s.raiseIf b f).pending = s.pending ∧ (s.raiseIf b f).mem = s.mem ∧
    (s.raiseIf b f).lastResponse = s.lastResponse ∧ (s.raiseIf b f).bus = s.bus ∧
    (s.raiseIf b f).windows = s.windows ∧ (s.raiseIf b f).port = s.port ∧
    (s.raiseIf b f).coverage = s.coverage ∧ (s.raiseIf b f).curves = s.curves ∧
    (s.raiseIf b f).towers = s.towers ∧ (s.raiseIf b f).timeout = s.timeout ∧ (s.raiseIf b f).link = s.link ∧
    (s.raiseIf b f).levels = s.levels ∧ (s.raiseIf b f).engine = s.engine ∧ (s.raiseIf b f).loop = s.loop ∧
    (s.raiseIf b f).loader = s.loader :=
  ⟨rfl, rfl, rfl, rfl, rfl, rfl, rfl, rfl, rfl, rfl, rfl, rfl, rfl, rfl, rfl⟩

@[simp] theorem State.report_keeps (w : CtlWord) (s : State) :
    (s.report w).pending = s.pending ∧ (s.report w).mem = s.mem ∧ (s.report w).lastResponse = s.lastResponse ∧
    (s.report w).bus = s.bus ∧ (s.report w).windows = s.windows ∧ (s.report w).port = s.port ∧
    (s.report w).coverage = s.coverage ∧ (s.report w).curves = s.curves ∧ (s.report w).towers = s.towers ∧
    (s.report w).timeout = s.timeout ∧ (s.report w).link = s.link ∧ (s.report w).levels = s.levels ∧
    (s.report w).engine = s.engine ∧ (s.report w).loop = s.loop ∧ (s.report w).loader = s.loader :=
  ⟨rfl, rfl, rfl, rfl, rfl, rfl, rfl, rfl, rfl, rfl, rfl, rfl, rfl, rfl, rfl⟩

@[simp] theorem State.reportIf_keeps (b : Bool) (w : CtlWord) (s : State) :
    (s.reportIf b w).pending = s.pending ∧ (s.reportIf b w).mem = s.mem ∧
    (s.reportIf b w).lastResponse = s.lastResponse ∧ (s.reportIf b w).bus = s.bus ∧
    (s.reportIf b w).windows = s.windows ∧ (s.reportIf b w).port = s.port ∧
    (s.reportIf b w).coverage = s.coverage ∧ (s.reportIf b w).curves = s.curves ∧
    (s.reportIf b w).towers = s.towers ∧ (s.reportIf b w).timeout = s.timeout ∧ (s.reportIf b w).link = s.link ∧
    (s.reportIf b w).levels = s.levels ∧ (s.reportIf b w).engine = s.engine ∧ (s.reportIf b w).loop = s.loop ∧
    (s.reportIf b w).loader = s.loader :=
  ⟨rfl, rfl, rfl, rfl, rfl, rfl, rfl, rfl, rfl, rfl, rfl, rfl, rfl, rfl, rfl⟩

@[simp] theorem State.respond_keeps (c : MasterClass) (r : Response) (s : State) :
    (s.respond c r).pending = s.pending ∧ (s.respond c r).mem = s.mem ∧ (s.respond c r).windows = s.windows ∧
    (s.respond c r).port = s.port ∧ (s.respond c r).coverage = s.coverage ∧ (s.respond c r).curves = s.curves ∧
    (s.respond c r).towers = s.towers ∧ (s.respond c r).timeout = s.timeout ∧ (s.respond c r).link = s.link ∧
    (s.respond c r).levels = s.levels ∧ (s.respond c r).engine = s.engine ∧ (s.respond c r).loop = s.loop ∧
    (s.respond c r).control = s.control ∧ (s.respond c r).loader = s.loader :=
  ⟨rfl, rfl, rfl, rfl, rfl, rfl, rfl, rfl, rfl, rfl, rfl, rfl, rfl, rfl⟩

@[simp] theorem State.capture_keeps (a : Addr) (c : MasterClass) (s : State) :
    (s.capture a c).pending = s.pending ∧ (s.capture a c).mem = s.mem ∧
    (s.capture a c).lastResponse = s.lastResponse ∧ (s.capture a c).bus = s.bus ∧
    (s.capture a c).windows = s.windows ∧ (s.capture a c).port = s.port ∧
    (s.capture a c).coverage = s.coverage ∧ (s.capture a c).curves = s.curves ∧
    (s.capture a c).towers = s.towers ∧ (s.capture a c).timeout = s.timeout ∧ (s.capture a c).link = s.link ∧
    (s.capture a c).levels = s.levels ∧ (s.capture a c).engine = s.engine ∧ (s.capture a c).loop = s.loop ∧
    (s.capture a c).loader = s.loader :=
  ⟨rfl, rfl, rfl, rfl, rfl, rfl, rfl, rfl, rfl, rfl, rfl, rfl, rfl, rfl, rfl⟩

@[simp] theorem State.refuse_keeps (a : Access) (s : State) :
    (s.refuse a).pending = s.pending ∧ (s.refuse a).mem = s.mem ∧ (s.refuse a).windows = s.windows ∧
    (s.refuse a).port = s.port ∧ (s.refuse a).coverage = s.coverage ∧ (s.refuse a).curves = s.curves ∧
    (s.refuse a).towers = s.towers ∧ (s.refuse a).timeout = s.timeout ∧ (s.refuse a).link = s.link ∧
    (s.refuse a).levels = s.levels ∧ (s.refuse a).engine = s.engine ∧ (s.refuse a).loop = s.loop ∧
    (s.refuse a).loader = s.loader :=
  ⟨rfl, rfl, rfl, rfl, rfl, rfl, rfl, rfl, rfl, rfl, rfl, rfl, rfl⟩

@[simp] theorem State.setStage_keeps (a : Access) (x : BusStage) (s : State) :
    (s.setStage a x).pending = s.pending ∧ (s.setStage a x).mem = s.mem ∧
    (s.setStage a x).lastResponse = s.lastResponse ∧ (s.setStage a x).windows = s.windows ∧
    (s.setStage a x).port = s.port ∧ (s.setStage a x).coverage = s.coverage ∧
    (s.setStage a x).curves = s.curves ∧ (s.setStage a x).towers = s.towers ∧
    (s.setStage a x).timeout = s.timeout ∧ (s.setStage a x).link = s.link ∧ (s.setStage a x).levels = s.levels ∧
    (s.setStage a x).engine = s.engine ∧ (s.setStage a x).loop = s.loop ∧ (s.setStage a x).control = s.control ∧
    (s.setStage a x).loader = s.loader :=
  ⟨rfl, rfl, rfl, rfl, rfl, rfl, rfl, rfl, rfl, rfl, rfl, rfl, rfl, rfl, rfl⟩

@[simp] theorem State.claim_keeps (a : Access) (p : Purpose) (s : State) :
    (s.claim a p).pending = s.pending ∧ (s.claim a p).mem = s.mem ∧
    (s.claim a p).lastResponse = s.lastResponse ∧ (s.claim a p).windows = s.windows ∧
    (s.claim a p).port = s.port ∧ (s.claim a p).coverage = s.coverage ∧ (s.claim a p).curves = s.curves ∧
    (s.claim a p).towers = s.towers ∧ (s.claim a p).timeout = s.timeout ∧ (s.claim a p).link = s.link ∧
    (s.claim a p).levels = s.levels ∧ (s.claim a p).engine = s.engine ∧ (s.claim a p).loop = s.loop ∧
    (s.claim a p).control = s.control ∧ (s.claim a p).loader = s.loader :=
  ⟨rfl, rfl, rfl, rfl, rfl, rfl, rfl, rfl, rfl, rfl, rfl, rfl, rfl, rfl, rfl⟩

@[simp] theorem State.offer_keeps (r : IReq) (s : State) :
    (s.offer r).pending = s.pending ∧ (s.offer r).mem = s.mem ∧ (s.offer r).lastResponse = s.lastResponse ∧
    (s.offer r).bus = s.bus ∧ (s.offer r).windows = s.windows ∧ (s.offer r).coverage = s.coverage ∧
    (s.offer r).curves = s.curves ∧ (s.offer r).towers = s.towers ∧ (s.offer r).timeout = s.timeout ∧
    (s.offer r).link = s.link ∧ (s.offer r).levels = s.levels ∧ (s.offer r).engine = s.engine ∧
    (s.offer r).loop = s.loop ∧ (s.offer r).control = s.control ∧ (s.offer r).loader = s.loader :=
  ⟨rfl, rfl, rfl, rfl, rfl, rfl, rfl, rfl, rfl, rfl, rfl, rfl, rfl, rfl, rfl⟩

@[simp] theorem State.freePort_keeps (s : State) :
    (s.freePort).pending = s.pending ∧ (s.freePort).mem = s.mem ∧ (s.freePort).lastResponse = s.lastResponse ∧
    (s.freePort).bus = s.bus ∧ (s.freePort).windows = s.windows ∧ (s.freePort).coverage = s.coverage ∧
    (s.freePort).curves = s.curves ∧ (s.freePort).towers = s.towers ∧ (s.freePort).timeout = s.timeout ∧
    (s.freePort).link = s.link ∧ (s.freePort).levels = s.levels ∧ (s.freePort).engine = s.engine ∧
    (s.freePort).loop = s.loop ∧ (s.freePort).control = s.control ∧ (s.freePort).loader = s.loader :=
  ⟨rfl, rfl, rfl, rfl, rfl, rfl, rfl, rfl, rfl, rfl, rfl, rfl, rfl, rfl, rfl⟩

@[simp] theorem State.putTower_keeps (t : Tower) (tw : TowerState) (s : State) :
    (s.putTower t tw).pending = s.pending ∧ (s.putTower t tw).mem = s.mem ∧
    (s.putTower t tw).lastResponse = s.lastResponse ∧ (s.putTower t tw).bus = s.bus ∧
    (s.putTower t tw).windows = s.windows ∧ (s.putTower t tw).port = s.port ∧
    (s.putTower t tw).coverage = s.coverage ∧ (s.putTower t tw).curves = s.curves ∧
    (s.putTower t tw).timeout = s.timeout ∧ (s.putTower t tw).link = s.link ∧
    (s.putTower t tw).levels = s.levels ∧ (s.putTower t tw).engine = s.engine ∧
    (s.putTower t tw).loop = s.loop ∧ (s.putTower t tw).loader = s.loader :=
  ⟨rfl, rfl, rfl, rfl, rfl, rfl, rfl, rfl, rfl, rfl, rfl, rfl, rfl, rfl⟩

@[simp] theorem State.modTower_keeps (t : Tower) (f : TowerState → TowerState) (s : State) :
    (s.modTower t f).pending = s.pending ∧ (s.modTower t f).mem = s.mem ∧
    (s.modTower t f).lastResponse = s.lastResponse ∧ (s.modTower t f).bus = s.bus ∧
    (s.modTower t f).windows = s.windows ∧ (s.modTower t f).port = s.port ∧
    (s.modTower t f).coverage = s.coverage ∧ (s.modTower t f).curves = s.curves ∧
    (s.modTower t f).timeout = s.timeout ∧ (s.modTower t f).link = s.link ∧ (s.modTower t f).levels = s.levels ∧
    (s.modTower t f).engine = s.engine ∧ (s.modTower t f).loop = s.loop ∧ (s.modTower t f).loader = s.loader :=
  ⟨rfl, rfl, rfl, rfl, rfl, rfl, rfl, rfl, rfl, rfl, rfl, rfl, rfl, rfl⟩

@[simp] theorem State.watch_keeps (w : PortWord) (s : State) :
    (s.watch w).pending = s.pending ∧ (s.watch w).mem = s.mem ∧ (s.watch w).lastResponse = s.lastResponse ∧
    (s.watch w).bus = s.bus ∧ (s.watch w).windows = s.windows ∧ (s.watch w).port = s.port ∧
    (s.watch w).curves = s.curves ∧ (s.watch w).towers = s.towers ∧ (s.watch w).timeout = s.timeout ∧
    (s.watch w).link = s.link ∧ (s.watch w).levels = s.levels ∧ (s.watch w).engine = s.engine ∧
    (s.watch w).loop = s.loop ∧ (s.watch w).loader = s.loader :=
  by dsimp only [State.watch]; (repeat' split) <;> simp

@[simp] theorem State.transmit_keeps (t : Tower) (l : List Byte) (s : State) :
    (s.transmit t l).pending = s.pending ∧ (s.transmit t l).mem = s.mem ∧
    (s.transmit t l).lastResponse = s.lastResponse ∧ (s.transmit t l).bus = s.bus ∧
    (s.transmit t l).windows = s.windows ∧ (s.transmit t l).port = s.port ∧
    (s.transmit t l).coverage = s.coverage ∧ (s.transmit t l).curves = s.curves ∧
    (s.transmit t l).towers = s.towers ∧ (s.transmit t l).timeout = s.timeout ∧
    (s.transmit t l).levels = s.levels ∧ (s.transmit t l).engine = s.engine ∧ (s.transmit t l).loop = s.loop ∧
    (s.transmit t l).control = s.control ∧ (s.transmit t l).loader = s.loader :=
  ⟨rfl, rfl, rfl, rfl, rfl, rfl, rfl, rfl, rfl, rfl, rfl, rfl, rfl, rfl, rfl⟩

@[simp] theorem State.serve_keeps (t : Tower) (s : State) :
    (s.serve t).pending = s.pending ∧ (s.serve t).mem = s.mem ∧ (s.serve t).lastResponse = s.lastResponse ∧
    (s.serve t).bus = s.bus ∧ (s.serve t).windows = s.windows ∧ (s.serve t).port = s.port ∧
    (s.serve t).coverage = s.coverage ∧ (s.serve t).curves = s.curves ∧ (s.serve t).timeout = s.timeout ∧
    (s.serve t).levels = s.levels ∧ (s.serve t).engine = s.engine ∧ (s.serve t).loop = s.loop ∧
    (s.serve t).loader = s.loader :=
  by dsimp only [State.serve]; (repeat' split) <;> simp

@[simp] theorem State.search_keeps (s : State) :
    (s.search).pending = s.pending ∧ (s.search).mem = s.mem ∧ (s.search).lastResponse = s.lastResponse ∧
    (s.search).bus = s.bus ∧ (s.search).windows = s.windows ∧ (s.search).port = s.port ∧
    (s.search).coverage = s.coverage ∧ (s.search).curves = s.curves ∧ (s.search).timeout = s.timeout ∧
    (s.search).levels = s.levels ∧ (s.search).engine = s.engine ∧ (s.search).loop = s.loop ∧
    (s.search).loader = s.loader :=
  by dsimp only [State.search]; (repeat' split) <;> simp

@[simp] theorem State.searchIfChanged_keeps (s0 : State) (s : State) :
    (State.searchIfChanged s0 s).pending = s.pending ∧ (State.searchIfChanged s0 s).mem = s.mem ∧
    (State.searchIfChanged s0 s).lastResponse = s.lastResponse ∧ (State.searchIfChanged s0 s).bus = s.bus ∧
    (State.searchIfChanged s0 s).windows = s.windows ∧ (State.searchIfChanged s0 s).port = s.port ∧
    (State.searchIfChanged s0 s).coverage = s.coverage ∧ (State.searchIfChanged s0 s).curves = s.curves ∧
    (State.searchIfChanged s0 s).timeout = s.timeout ∧ (State.searchIfChanged s0 s).levels = s.levels ∧
    (State.searchIfChanged s0 s).engine = s.engine ∧ (State.searchIfChanged s0 s).loop = s.loop ∧
    (State.searchIfChanged s0 s).loader = s.loader :=
  by dsimp only [State.searchIfChanged]; (repeat' split) <;> simp

@[simp] theorem State.offerOn_keeps (c : ChannelReq) (r : IReq) (s : State) :
    (s.offerOn c r).pending = s.pending ∧ (s.offerOn c r).mem = s.mem ∧
    (s.offerOn c r).lastResponse = s.lastResponse ∧ (s.offerOn c r).bus = s.bus ∧
    (s.offerOn c r).windows = s.windows ∧ (s.offerOn c r).coverage = s.coverage ∧
    (s.offerOn c r).curves = s.curves ∧ (s.offerOn c r).towers = s.towers ∧
    (s.offerOn c r).timeout = s.timeout ∧ (s.offerOn c r).link = s.link ∧ (s.offerOn c r).levels = s.levels ∧
    (s.offerOn c r).engine = s.engine ∧ (s.offerOn c r).loop = s.loop ∧ (s.offerOn c r).loader = s.loader :=
  ⟨rfl, rfl, rfl, rfl, rfl, rfl, rfl, rfl, rfl, rfl, rfl, rfl, rfl, rfl⟩

@[simp] theorem State.offerMirror_keeps (s : State) :
    (s.offerMirror).pending = s.pending ∧ (s.offerMirror).mem = s.mem ∧
    (s.offerMirror).lastResponse = s.lastResponse ∧ (s.offerMirror).bus = s.bus ∧
    (s.offerMirror).windows = s.windows ∧ (s.offerMirror).coverage = s.coverage ∧
    (s.offerMirror).curves = s.curves ∧ (s.offerMirror).towers = s.towers ∧
    (s.offerMirror).timeout = s.timeout ∧ (s.offerMirror).link = s.link ∧ (s.offerMirror).levels = s.levels ∧
    (s.offerMirror).engine = s.engine ∧ (s.offerMirror).loop = s.loop ∧ (s.offerMirror).loader = s.loader :=
  by dsimp only [State.offerMirror]; (repeat' split) <;> simp

@[simp] theorem State.offerChannel_keeps (s : State) :
    (s.offerChannel).pending = s.pending ∧ (s.offerChannel).mem = s.mem ∧
    (s.offerChannel).lastResponse = s.lastResponse ∧ (s.offerChannel).bus = s.bus ∧
    (s.offerChannel).windows = s.windows ∧ (s.offerChannel).coverage = s.coverage ∧
    (s.offerChannel).curves = s.curves ∧ (s.offerChannel).towers = s.towers ∧
    (s.offerChannel).timeout = s.timeout ∧ (s.offerChannel).link = s.link ∧ (s.offerChannel).levels = s.levels ∧
    (s.offerChannel).engine = s.engine ∧ (s.offerChannel).loop = s.loop ∧ (s.offerChannel).loader = s.loader :=
  by dsimp only [State.offerChannel]; (repeat' split) <;> simp

@[simp] theorem State.settle_keeps (s0 : State) (s : State) :
    (State.settle s0 s).pending = s.pending ∧ (State.settle s0 s).mem = s.mem ∧
    (State.settle s0 s).lastResponse = s.lastResponse ∧ (State.settle s0 s).bus = s.bus ∧
    (State.settle s0 s).windows = s.windows ∧ (State.settle s0 s).coverage = s.coverage ∧
    (State.settle s0 s).curves = s.curves ∧ (State.settle s0 s).timeout = s.timeout ∧
    (State.settle s0 s).levels = s.levels ∧ (State.settle s0 s).engine = s.engine ∧
    (State.settle s0 s).loop = s.loop ∧ (State.settle s0 s).loader = s.loader :=
  by simp [State.settle]

@[simp] theorem State.putEngine_keeps (e : Engine) (s : State) :
    (s.putEngine e).pending = s.pending ∧ (s.putEngine e).mem = s.mem ∧
    (s.putEngine e).lastResponse = s.lastResponse ∧ (s.putEngine e).bus = s.bus ∧
    (s.putEngine e).windows = s.windows ∧ (s.putEngine e).port = s.port ∧
    (s.putEngine e).coverage = s.coverage ∧ (s.putEngine e).curves = s.curves ∧
    (s.putEngine e).towers = s.towers ∧ (s.putEngine e).timeout = s.timeout ∧ (s.putEngine e).link = s.link ∧
    (s.putEngine e).levels = s.levels ∧ (s.putEngine e).loop = s.loop ∧ (s.putEngine e).loader = s.loader :=
  ⟨rfl, rfl, rfl, rfl, rfl, rfl, rfl, rfl, rfl, rfl, rfl, rfl, rfl, rfl⟩

@[simp] theorem State.fetch_keeps (e : Engine) (s : State) :
    (s.fetch e).pending = s.pending ∧ (s.fetch e).mem = s.mem ∧ (s.fetch e).lastResponse = s.lastResponse ∧
    (s.fetch e).bus = s.bus ∧ (s.fetch e).windows = s.windows ∧ (s.fetch e).coverage = s.coverage ∧
    (s.fetch e).curves = s.curves ∧ (s.fetch e).towers = s.towers ∧ (s.fetch e).timeout = s.timeout ∧
    (s.fetch e).link = s.link ∧ (s.fetch e).levels = s.levels ∧ (s.fetch e).loop = s.loop ∧
    (s.fetch e).loader = s.loader :=
  ⟨rfl, rfl, rfl, rfl, rfl, rfl, rfl, rfl, rfl, rfl, rfl, rfl, rfl⟩

@[simp] theorem State.startChain_keeps (i : Nat) (k : Option Source) (s : State) :
    (s.startChain i k).pending = s.pending ∧ (s.startChain i k).mem = s.mem ∧
    (s.startChain i k).lastResponse = s.lastResponse ∧ (s.startChain i k).bus = s.bus ∧
    (s.startChain i k).windows = s.windows ∧ (s.startChain i k).coverage = s.coverage ∧
    (s.startChain i k).curves = s.curves ∧ (s.startChain i k).towers = s.towers ∧
    (s.startChain i k).timeout = s.timeout ∧ (s.startChain i k).link = s.link ∧
    (s.startChain i k).levels = s.levels ∧ (s.startChain i k).loop = s.loop ∧
    (s.startChain i k).loader = s.loader :=
  ⟨rfl, rfl, rfl, rfl, rfl, rfl, rfl, rfl, rfl, rfl, rfl, rfl, rfl⟩

@[simp] theorem State.serveStarts_keeps (s : State) :
    (s.serveStarts).pending = s.pending ∧ (s.serveStarts).mem = s.mem ∧
    (s.serveStarts).lastResponse = s.lastResponse ∧ (s.serveStarts).bus = s.bus ∧
    (s.serveStarts).windows = s.windows ∧ (s.serveStarts).coverage = s.coverage ∧
    (s.serveStarts).curves = s.curves ∧ (s.serveStarts).towers = s.towers ∧
    (s.serveStarts).timeout = s.timeout ∧ (s.serveStarts).link = s.link ∧ (s.serveStarts).levels = s.levels ∧
    (s.serveStarts).loop = s.loop ∧ (s.serveStarts).loader = s.loader :=
  by dsimp only [State.serveStarts]; (repeat' split) <;> simp

@[simp] theorem State.endChain_keeps (s : State) :
    (s.endChain).pending = s.pending ∧ (s.endChain).mem = s.mem ∧ (s.endChain).lastResponse = s.lastResponse ∧
    (s.endChain).bus = s.bus ∧ (s.endChain).windows = s.windows ∧ (s.endChain).coverage = s.coverage ∧
    (s.endChain).curves = s.curves ∧ (s.endChain).towers = s.towers ∧ (s.endChain).timeout = s.timeout ∧
    (s.endChain).link = s.link ∧ (s.endChain).levels = s.levels ∧ (s.endChain).loop = s.loop ∧
    (s.endChain).loader = s.loader :=
  by simp [State.endChain]

@[simp] theorem State.fire_keeps (k : Source) (s : State) :
    (s.fire k).pending = s.pending ∧ (s.fire k).mem = s.mem ∧ (s.fire k).lastResponse = s.lastResponse ∧
    (s.fire k).bus = s.bus ∧ (s.fire k).windows = s.windows ∧ (s.fire k).coverage = s.coverage ∧
    (s.fire k).curves = s.curves ∧ (s.fire k).towers = s.towers ∧ (s.fire k).timeout = s.timeout ∧
    (s.fire k).link = s.link ∧ (s.fire k).levels = s.levels ∧ (s.fire k).loop = s.loop ∧
    (s.fire k).loader = s.loader :=
  by dsimp only [State.fire]; (repeat' split) <;> simp

@[simp] theorem State.countSheet_keeps (s : State) :
    (s.countSheet).pending = s.pending ∧ (s.countSheet).mem = s.mem ∧
    (s.countSheet).lastResponse = s.lastResponse ∧ (s.countSheet).bus = s.bus ∧
    (s.countSheet).windows = s.windows ∧ (s.countSheet).coverage = s.coverage ∧
    (s.countSheet).curves = s.curves ∧ (s.countSheet).towers = s.towers ∧ (s.countSheet).timeout = s.timeout ∧
    (s.countSheet).link = s.link ∧ (s.countSheet).levels = s.levels ∧ (s.countSheet).loop = s.loop ∧
    (s.countSheet).loader = s.loader :=
  by dsimp only [State.countSheet]; (repeat' split) <;> simp

@[simp] theorem State.writeBack_keeps (ws : List Word) (o : OrderOutcome) (s : State) :
    (s.writeBack ws o).pending = s.pending ∧ (s.writeBack ws o).mem = s.mem ∧
    (s.writeBack ws o).lastResponse = s.lastResponse ∧ (s.writeBack ws o).bus = s.bus ∧
    (s.writeBack ws o).windows = s.windows ∧ (s.writeBack ws o).coverage = s.coverage ∧
    (s.writeBack ws o).curves = s.curves ∧ (s.writeBack ws o).towers = s.towers ∧
    (s.writeBack ws o).timeout = s.timeout ∧ (s.writeBack ws o).link = s.link ∧
    (s.writeBack ws o).levels = s.levels ∧ (s.writeBack ws o).loop = s.loop ∧
    (s.writeBack ws o).loader = s.loader :=
  ⟨rfl, rfl, rfl, rfl, rfl, rfl, rfl, rfl, rfl, rfl, rfl, rfl, rfl⟩

@[simp] theorem State.raiseSome_keeps (f : Option EventFlag) (s : State) :
    (s.raiseSome f).pending = s.pending ∧ (s.raiseSome f).mem = s.mem ∧
    (s.raiseSome f).lastResponse = s.lastResponse ∧ (s.raiseSome f).bus = s.bus ∧
    (s.raiseSome f).windows = s.windows ∧ (s.raiseSome f).port = s.port ∧
    (s.raiseSome f).coverage = s.coverage ∧ (s.raiseSome f).curves = s.curves ∧
    (s.raiseSome f).towers = s.towers ∧ (s.raiseSome f).timeout = s.timeout ∧ (s.raiseSome f).link = s.link ∧
    (s.raiseSome f).levels = s.levels ∧ (s.raiseSome f).engine = s.engine ∧ (s.raiseSome f).loop = s.loop ∧
    (s.raiseSome f).loader = s.loader :=
  by dsimp only [State.raiseSome]; (repeat' split) <;> simp

@[simp] theorem State.orderWritten_keeps (failed : Bool) (s : State) :
    (s.orderWritten failed).pending = s.pending ∧ (s.orderWritten failed).mem = s.mem ∧
    (s.orderWritten failed).lastResponse = s.lastResponse ∧ (s.orderWritten failed).bus = s.bus ∧
    (s.orderWritten failed).windows = s.windows ∧ (s.orderWritten failed).coverage = s.coverage ∧
    (s.orderWritten failed).curves = s.curves ∧ (s.orderWritten failed).towers = s.towers ∧
    (s.orderWritten failed).timeout = s.timeout ∧ (s.orderWritten failed).link = s.link ∧
    (s.orderWritten failed).levels = s.levels ∧ (s.orderWritten failed).loop = s.loop ∧
    (s.orderWritten failed).loader = s.loader :=
  by dsimp only [State.orderWritten]; (repeat' split) <;> simp

@[simp] theorem State.fetchFailed_keeps (s : State) :
    (s.fetchFailed).pending = s.pending ∧ (s.fetchFailed).mem = s.mem ∧
    (s.fetchFailed).lastResponse = s.lastResponse ∧ (s.fetchFailed).bus = s.bus ∧
    (s.fetchFailed).windows = s.windows ∧ (s.fetchFailed).coverage = s.coverage ∧
    (s.fetchFailed).curves = s.curves ∧ (s.fetchFailed).towers = s.towers ∧
    (s.fetchFailed).timeout = s.timeout ∧ (s.fetchFailed).link = s.link ∧ (s.fetchFailed).levels = s.levels ∧
    (s.fetchFailed).loop = s.loop ∧ (s.fetchFailed).loader = s.loader :=
  by simp [State.fetchFailed]

@[simp] theorem State.setSlot_keeps (i : Fin 16) (x : SlotState) (s : State) :
    (s.setSlot i x).pending = s.pending ∧ (s.setSlot i x).mem = s.mem ∧
    (s.setSlot i x).lastResponse = s.lastResponse ∧ (s.setSlot i x).bus = s.bus ∧
    (s.setSlot i x).windows = s.windows ∧ (s.setSlot i x).port = s.port ∧
    (s.setSlot i x).coverage = s.coverage ∧ (s.setSlot i x).curves = s.curves ∧
    (s.setSlot i x).towers = s.towers ∧ (s.setSlot i x).timeout = s.timeout ∧ (s.setSlot i x).link = s.link ∧
    (s.setSlot i x).levels = s.levels ∧ (s.setSlot i x).engine = s.engine ∧
    (s.setSlot i x).control = s.control ∧ (s.setSlot i x).loader = s.loader :=
  ⟨rfl, rfl, rfl, rfl, rfl, rfl, rfl, rfl, rfl, rfl, rfl, rfl, rfl, rfl, rfl⟩

@[simp] theorem State.forgetResets_keeps (i : Fin 16) (s : State) :
    (s.forgetResets i).pending = s.pending ∧ (s.forgetResets i).mem = s.mem ∧
    (s.forgetResets i).lastResponse = s.lastResponse ∧ (s.forgetResets i).bus = s.bus ∧
    (s.forgetResets i).windows = s.windows ∧ (s.forgetResets i).port = s.port ∧
    (s.forgetResets i).coverage = s.coverage ∧ (s.forgetResets i).curves = s.curves ∧
    (s.forgetResets i).towers = s.towers ∧ (s.forgetResets i).timeout = s.timeout ∧ (s.forgetResets i).link = s.link ∧
    (s.forgetResets i).levels = s.levels ∧ (s.forgetResets i).engine = s.engine ∧
    (s.forgetResets i).control = s.control ∧ (s.forgetResets i).loader = s.loader :=
  ⟨rfl, rfl, rfl, rfl, rfl, rfl, rfl, rfl, rfl, rfl, rfl, rfl, rfl, rfl, rfl⟩

@[simp] theorem State.offerSlotRead_keeps (s : State) :
    (s.offerSlotRead).pending = s.pending ∧ (s.offerSlotRead).mem = s.mem ∧
    (s.offerSlotRead).lastResponse = s.lastResponse ∧ (s.offerSlotRead).bus = s.bus ∧
    (s.offerSlotRead).windows = s.windows ∧ (s.offerSlotRead).coverage = s.coverage ∧
    (s.offerSlotRead).curves = s.curves ∧ (s.offerSlotRead).towers = s.towers ∧
    (s.offerSlotRead).timeout = s.timeout ∧ (s.offerSlotRead).link = s.link ∧
    (s.offerSlotRead).levels = s.levels ∧ (s.offerSlotRead).engine = s.engine ∧
    (s.offerSlotRead).control = s.control ∧ (s.offerSlotRead).loader = s.loader :=
  by dsimp only [State.offerSlotRead]; (repeat' split) <;> simp

@[simp] theorem State.enlist_keeps (i : Fin 16) (s : State) :
    (s.enlist i).pending = s.pending ∧ (s.enlist i).mem = s.mem ∧ (s.enlist i).lastResponse = s.lastResponse ∧
    (s.enlist i).bus = s.bus ∧ (s.enlist i).windows = s.windows ∧ (s.enlist i).coverage = s.coverage ∧
    (s.enlist i).curves = s.curves ∧ (s.enlist i).towers = s.towers ∧ (s.enlist i).timeout = s.timeout ∧
    (s.enlist i).link = s.link ∧ (s.enlist i).levels = s.levels ∧ (s.enlist i).engine = s.engine ∧
    (s.enlist i).control = s.control ∧ (s.enlist i).loader = s.loader :=
  by simp [State.enlist]

@[simp] theorem State.dropRecord_keeps (y : DropReason) (i : Fin 16) (x : Option Byte) (s : State) :
    (s.dropRecord y i x).pending = s.pending ∧ (s.dropRecord y i x).mem = s.mem ∧
    (s.dropRecord y i x).lastResponse = s.lastResponse ∧ (s.dropRecord y i x).bus = s.bus ∧
    (s.dropRecord y i x).windows = s.windows ∧ (s.dropRecord y i x).port = s.port ∧
    (s.dropRecord y i x).coverage = s.coverage ∧ (s.dropRecord y i x).curves = s.curves ∧
    (s.dropRecord y i x).towers = s.towers ∧ (s.dropRecord y i x).timeout = s.timeout ∧
    (s.dropRecord y i x).link = s.link ∧ (s.dropRecord y i x).levels = s.levels ∧
    (s.dropRecord y i x).engine = s.engine ∧ (s.dropRecord y i x).loader = s.loader :=
  ⟨rfl, rfl, rfl, rfl, rfl, rfl, rfl, rfl, rfl, rfl, rfl, rfl, rfl, rfl⟩

@[simp] theorem State.correct_keeps (m : MeasureRec) (t : Tower) (s : State) :
    (s.correct m t).pending = s.pending ∧ (s.correct m t).mem = s.mem ∧
    (s.correct m t).lastResponse = s.lastResponse ∧ (s.correct m t).bus = s.bus ∧
    (s.correct m t).windows = s.windows ∧ (s.correct m t).port = s.port ∧
    (s.correct m t).coverage = s.coverage ∧ (s.correct m t).curves = s.curves ∧
    (s.correct m t).timeout = s.timeout ∧ (s.correct m t).link = s.link ∧ (s.correct m t).levels = s.levels ∧
    (s.correct m t).engine = s.engine ∧ (s.correct m t).loop = s.loop ∧ (s.correct m t).loader = s.loader :=
  ⟨rfl, rfl, rfl, rfl, rfl, rfl, rfl, rfl, rfl, rfl, rfl, rfl, rfl, rfl⟩

@[simp] theorem State.setApplied_keeps (t : Tower) (g : Half) (s : State) :
    (s.setApplied t g).pending = s.pending ∧ (s.setApplied t g).mem = s.mem ∧
    (s.setApplied t g).lastResponse = s.lastResponse ∧ (s.setApplied t g).bus = s.bus ∧
    (s.setApplied t g).windows = s.windows ∧ (s.setApplied t g).port = s.port ∧
    (s.setApplied t g).coverage = s.coverage ∧ (s.setApplied t g).curves = s.curves ∧
    (s.setApplied t g).towers = s.towers ∧ (s.setApplied t g).timeout = s.timeout ∧
    (s.setApplied t g).link = s.link ∧ (s.setApplied t g).levels = s.levels ∧
    (s.setApplied t g).engine = s.engine ∧ (s.setApplied t g).control = s.control ∧
    (s.setApplied t g).loader = s.loader :=
  ⟨rfl, rfl, rfl, rfl, rfl, rfl, rfl, rfl, rfl, rfl, rfl, rfl, rfl, rfl, rfl⟩

@[simp] theorem State.applyRecord_keeps (m : MeasureRec) (t : Tower) (s : State) :
    (s.applyRecord m t).pending = s.pending ∧ (s.applyRecord m t).mem = s.mem ∧
    (s.applyRecord m t).lastResponse = s.lastResponse ∧ (s.applyRecord m t).bus = s.bus ∧
    (s.applyRecord m t).windows = s.windows ∧ (s.applyRecord m t).coverage = s.coverage ∧
    (s.applyRecord m t).curves = s.curves ∧ (s.applyRecord m t).timeout = s.timeout ∧
    (s.applyRecord m t).link = s.link ∧ (s.applyRecord m t).levels = s.levels ∧
    (s.applyRecord m t).loader = s.loader :=
  by simp [State.applyRecord]

@[simp] theorem State.gate_keeps (i : Fin 16) (m : Option MeasureRec) (s : State) :
    (s.gate i m).pending = s.pending ∧ (s.gate i m).mem = s.mem ∧ (s.gate i m).lastResponse = s.lastResponse ∧
    (s.gate i m).bus = s.bus ∧ (s.gate i m).windows = s.windows ∧ (s.gate i m).coverage = s.coverage ∧
    (s.gate i m).curves = s.curves ∧ (s.gate i m).timeout = s.timeout ∧ (s.gate i m).link = s.link ∧
    (s.gate i m).levels = s.levels ∧ (s.gate i m).loader = s.loader :=
  by dsimp only [State.gate]; (repeat' split) <;> simp

@[simp] theorem State.slotRead_keeps (i : Fin 16) (m : Option MeasureRec) (s : State) :
    (s.slotRead i m).pending = s.pending ∧ (s.slotRead i m).mem = s.mem ∧
    (s.slotRead i m).lastResponse = s.lastResponse ∧ (s.slotRead i m).bus = s.bus ∧
    (s.slotRead i m).windows = s.windows ∧ (s.slotRead i m).coverage = s.coverage ∧
    (s.slotRead i m).curves = s.curves ∧ (s.slotRead i m).timeout = s.timeout ∧ (s.slotRead i m).link = s.link ∧
    (s.slotRead i m).levels = s.levels ∧ (s.slotRead i m).loader = s.loader :=
  by simp [State.slotRead]

@[simp] theorem State.clearMeasure_keeps (s : State) :
    (s.clearMeasure).pending = s.pending ∧ (s.clearMeasure).mem = s.mem ∧
    (s.clearMeasure).lastResponse = s.lastResponse ∧ (s.clearMeasure).bus = s.bus ∧
    (s.clearMeasure).windows = s.windows ∧ (s.clearMeasure).port = s.port ∧
    (s.clearMeasure).coverage = s.coverage ∧ (s.clearMeasure).curves = s.curves ∧
    (s.clearMeasure).towers = s.towers ∧ (s.clearMeasure).timeout = s.timeout ∧ (s.clearMeasure).link = s.link ∧
    (s.clearMeasure).levels = s.levels ∧ (s.clearMeasure).engine = s.engine ∧
    (s.clearMeasure).control = s.control ∧ (s.clearMeasure).loader = s.loader :=
  ⟨rfl, rfl, rfl, rfl, rfl, rfl, rfl, rfl, rfl, rfl, rfl, rfl, rfl, rfl, rfl⟩

@[simp] theorem State.takeHello_keeps (t : Tower) (s : State) :
    (s.takeHello t).pending = s.pending ∧ (s.takeHello t).mem = s.mem ∧
    (s.takeHello t).lastResponse = s.lastResponse ∧ (s.takeHello t).bus = s.bus ∧
    (s.takeHello t).windows = s.windows ∧ (s.takeHello t).port = s.port ∧
    (s.takeHello t).coverage = s.coverage ∧ (s.takeHello t).curves = s.curves ∧
    (s.takeHello t).timeout = s.timeout ∧ (s.takeHello t).link = s.link ∧ (s.takeHello t).levels = s.levels ∧
    (s.takeHello t).engine = s.engine ∧ (s.takeHello t).loop = s.loop ∧ (s.takeHello t).loader = s.loader :=
  ⟨rfl, rfl, rfl, rfl, rfl, rfl, rfl, rfl, rfl, rfl, rfl, rfl, rfl, rfl⟩

@[simp] theorem State.takeAnswer_keeps (t : Tower) (k : AnswerKind) (key tag : Byte) (p : Nat) (s : State) :
    (s.takeAnswer t k key tag p).pending = s.pending ∧ (s.takeAnswer t k key tag p).mem = s.mem ∧
    (s.takeAnswer t k key tag p).lastResponse = s.lastResponse ∧ (s.takeAnswer t k key tag p).bus = s.bus ∧
    (s.takeAnswer t k key tag p).windows = s.windows ∧ (s.takeAnswer t k key tag p).port = s.port ∧
    (s.takeAnswer t k key tag p).coverage = s.coverage ∧ (s.takeAnswer t k key tag p).curves = s.curves ∧
    (s.takeAnswer t k key tag p).timeout = s.timeout ∧ (s.takeAnswer t k key tag p).link = s.link ∧
    (s.takeAnswer t k key tag p).levels = s.levels ∧ (s.takeAnswer t k key tag p).engine = s.engine ∧
    (s.takeAnswer t k key tag p).loop = s.loop ∧ (s.takeAnswer t k key tag p).loader = s.loader :=
  ⟨rfl, rfl, rfl, rfl, rfl, rfl, rfl, rfl, rfl, rfl, rfl, rfl, rfl, rfl⟩

@[simp] theorem State.takeTimeout_keeps (t : Tower) (sl : Slot) (s : State) :
    (s.takeTimeout t sl).pending = s.pending ∧ (s.takeTimeout t sl).mem = s.mem ∧
    (s.takeTimeout t sl).lastResponse = s.lastResponse ∧ (s.takeTimeout t sl).bus = s.bus ∧
    (s.takeTimeout t sl).windows = s.windows ∧ (s.takeTimeout t sl).port = s.port ∧
    (s.takeTimeout t sl).coverage = s.coverage ∧ (s.takeTimeout t sl).curves = s.curves ∧
    (s.takeTimeout t sl).timeout = s.timeout ∧ (s.takeTimeout t sl).link = s.link ∧
    (s.takeTimeout t sl).levels = s.levels ∧ (s.takeTimeout t sl).engine = s.engine ∧
    (s.takeTimeout t sl).loop = s.loop ∧ (s.takeTimeout t sl).loader = s.loader :=
  by dsimp only [State.takeTimeout]; (repeat' split) <;> simp

@[simp] theorem State.setImpr_keeps (b : Bool) (s : State) :
    (s.setImpr b).pending = s.pending ∧ (s.setImpr b).mem = s.mem ∧
    (s.setImpr b).lastResponse = s.lastResponse ∧ (s.setImpr b).bus = s.bus ∧
    (s.setImpr b).windows = s.windows ∧ (s.setImpr b).port = s.port ∧ (s.setImpr b).coverage = s.coverage ∧
    (s.setImpr b).curves = s.curves ∧ (s.setImpr b).towers = s.towers ∧ (s.setImpr b).timeout = s.timeout ∧
    (s.setImpr b).link = s.link ∧ (s.setImpr b).engine = s.engine ∧ (s.setImpr b).loop = s.loop ∧
    (s.setImpr b).control = s.control ∧ (s.setImpr b).loader = s.loader :=
  ⟨rfl, rfl, rfl, rfl, rfl, rfl, rfl, rfl, rfl, rfl, rfl, rfl, rfl, rfl, rfl⟩

@[simp] theorem State.deliver_keeps (f : LinkFrame) (s : State) :
    (s.deliver f).pending = s.pending ∧ (s.deliver f).mem = s.mem ∧
    (s.deliver f).lastResponse = s.lastResponse ∧ (s.deliver f).bus = s.bus ∧
    (s.deliver f).windows = s.windows ∧ (s.deliver f).port = s.port ∧ (s.deliver f).coverage = s.coverage ∧
    (s.deliver f).curves = s.curves ∧ (s.deliver f).timeout = s.timeout ∧ (s.deliver f).link = s.link ∧
    (s.deliver f).levels = s.levels ∧ (s.deliver f).engine = s.engine ∧ (s.deliver f).loop = s.loop ∧
    (s.deliver f).loader = s.loader :=
  by dsimp only [State.deliver]; (repeat' split) <;> simp

@[simp] theorem State.setRx_keeps (r : RxState) (s : State) :
    (s.setRx r).pending = s.pending ∧ (s.setRx r).mem = s.mem ∧ (s.setRx r).lastResponse = s.lastResponse ∧
    (s.setRx r).bus = s.bus ∧ (s.setRx r).windows = s.windows ∧ (s.setRx r).port = s.port ∧
    (s.setRx r).coverage = s.coverage ∧ (s.setRx r).curves = s.curves ∧ (s.setRx r).towers = s.towers ∧
    (s.setRx r).timeout = s.timeout ∧ (s.setRx r).levels = s.levels ∧ (s.setRx r).engine = s.engine ∧
    (s.setRx r).loop = s.loop ∧ (s.setRx r).control = s.control ∧ (s.setRx r).loader = s.loader :=
  ⟨rfl, rfl, rfl, rfl, rfl, rfl, rfl, rfl, rfl, rfl, rfl, rfl, rfl, rfl, rfl⟩

@[simp] theorem State.assemble_keeps (bs : List Byte) (s : State) :
    (s.assemble bs).pending = s.pending ∧ (s.assemble bs).mem = s.mem ∧
    (s.assemble bs).lastResponse = s.lastResponse ∧ (s.assemble bs).bus = s.bus ∧
    (s.assemble bs).windows = s.windows ∧ (s.assemble bs).port = s.port ∧
    (s.assemble bs).coverage = s.coverage ∧ (s.assemble bs).curves = s.curves ∧
    (s.assemble bs).timeout = s.timeout ∧ (s.assemble bs).levels = s.levels ∧
    (s.assemble bs).engine = s.engine ∧ (s.assemble bs).loop = s.loop ∧ (s.assemble bs).loader = s.loader :=
  by dsimp only [State.assemble]; (repeat' split) <;> simp

@[simp] theorem State.lineEvent_keeps (e : LineEvent) (s : State) :
    (s.lineEvent e).pending = s.pending ∧ (s.lineEvent e).mem = s.mem ∧
    (s.lineEvent e).lastResponse = s.lastResponse ∧ (s.lineEvent e).bus = s.bus ∧
    (s.lineEvent e).windows = s.windows ∧ (s.lineEvent e).port = s.port ∧
    (s.lineEvent e).coverage = s.coverage ∧ (s.lineEvent e).curves = s.curves ∧
    (s.lineEvent e).timeout = s.timeout ∧ (s.lineEvent e).levels = s.levels ∧
    (s.lineEvent e).engine = s.engine ∧ (s.lineEvent e).loop = s.loop ∧ (s.lineEvent e).loader = s.loader :=
  by dsimp only [State.lineEvent]; (repeat' split) <;> simp

@[simp] theorem State.endSending_keeps (s : State) :
    (s.endSending).pending = s.pending ∧ (s.endSending).mem = s.mem ∧
    (s.endSending).lastResponse = s.lastResponse ∧ (s.endSending).bus = s.bus ∧
    (s.endSending).windows = s.windows ∧ (s.endSending).port = s.port ∧ (s.endSending).coverage = s.coverage ∧
    (s.endSending).curves = s.curves ∧ (s.endSending).towers = s.towers ∧ (s.endSending).timeout = s.timeout ∧
    (s.endSending).levels = s.levels ∧ (s.endSending).engine = s.engine ∧ (s.endSending).loop = s.loop ∧
    (s.endSending).control = s.control ∧ (s.endSending).loader = s.loader :=
  by dsimp only [State.endSending]; (repeat' split) <;> simp

@[simp] theorem State.endGap_keeps (s : State) :
    (s.endGap).pending = s.pending ∧ (s.endGap).mem = s.mem ∧ (s.endGap).lastResponse = s.lastResponse ∧
    (s.endGap).bus = s.bus ∧ (s.endGap).windows = s.windows ∧ (s.endGap).port = s.port ∧
    (s.endGap).coverage = s.coverage ∧ (s.endGap).curves = s.curves ∧ (s.endGap).timeout = s.timeout ∧
    (s.endGap).levels = s.levels ∧ (s.endGap).engine = s.engine ∧ (s.endGap).loop = s.loop ∧
    (s.endGap).loader = s.loader :=
  by dsimp only [State.endGap]; (repeat' split) <;> simp

@[simp] theorem State.dropStaged_keeps (s : State) :
    (s.dropStaged).pending = s.pending ∧ (s.dropStaged).mem = s.mem ∧
    (s.dropStaged).lastResponse = s.lastResponse ∧ (s.dropStaged).bus = s.bus ∧
    (s.dropStaged).windows = s.windows ∧ (s.dropStaged).port = s.port ∧ (s.dropStaged).coverage = s.coverage ∧
    (s.dropStaged).curves = s.curves ∧ (s.dropStaged).towers = s.towers ∧ (s.dropStaged).timeout = s.timeout ∧
    (s.dropStaged).link = s.link ∧ (s.dropStaged).levels = s.levels ∧ (s.dropStaged).engine = s.engine ∧
    (s.dropStaged).loop = s.loop ∧ (s.dropStaged).control = s.control :=
  ⟨rfl, rfl, rfl, rfl, rfl, rfl, rfl, rfl, rfl, rfl, rfl, rfl, rfl, rfl, rfl⟩

@[simp] theorem State.setLoader_keeps (x : LoaderState) (s : State) :
    (s.setLoader x).pending = s.pending ∧ (s.setLoader x).mem = s.mem ∧
    (s.setLoader x).lastResponse = s.lastResponse ∧ (s.setLoader x).bus = s.bus ∧
    (s.setLoader x).windows = s.windows ∧ (s.setLoader x).port = s.port ∧
    (s.setLoader x).coverage = s.coverage ∧ (s.setLoader x).curves = s.curves ∧
    (s.setLoader x).towers = s.towers ∧ (s.setLoader x).timeout = s.timeout ∧ (s.setLoader x).link = s.link ∧
    (s.setLoader x).levels = s.levels ∧ (s.setLoader x).engine = s.engine ∧ (s.setLoader x).loop = s.loop ∧
    (s.setLoader x).control = s.control :=
  ⟨rfl, rfl, rfl, rfl, rfl, rfl, rfl, rfl, rfl, rfl, rfl, rfl, rfl, rfl, rfl⟩

@[simp] theorem State.stage_keeps (f : Staged → Staged) (s : State) :
    (s.stage f).pending = s.pending ∧ (s.stage f).mem = s.mem ∧ (s.stage f).lastResponse = s.lastResponse ∧
    (s.stage f).bus = s.bus ∧ (s.stage f).windows = s.windows ∧ (s.stage f).port = s.port ∧
    (s.stage f).coverage = s.coverage ∧ (s.stage f).curves = s.curves ∧ (s.stage f).towers = s.towers ∧
    (s.stage f).timeout = s.timeout ∧ (s.stage f).link = s.link ∧ (s.stage f).levels = s.levels ∧
    (s.stage f).engine = s.engine ∧ (s.stage f).loop = s.loop ∧ (s.stage f).control = s.control :=
  ⟨rfl, rfl, rfl, rfl, rfl, rfl, rfl, rfl, rfl, rfl, rfl, rfl, rfl, rfl, rfl⟩

@[simp] theorem State.clearCapture_keeps (s : State) :
    (s.clearCapture).pending = s.pending ∧ (s.clearCapture).mem = s.mem ∧
    (s.clearCapture).lastResponse = s.lastResponse ∧ (s.clearCapture).bus = s.bus ∧
    (s.clearCapture).windows = s.windows ∧ (s.clearCapture).port = s.port ∧
    (s.clearCapture).coverage = s.coverage ∧ (s.clearCapture).curves = s.curves ∧
    (s.clearCapture).towers = s.towers ∧ (s.clearCapture).timeout = s.timeout ∧ (s.clearCapture).link = s.link ∧
    (s.clearCapture).levels = s.levels ∧ (s.clearCapture).engine = s.engine ∧ (s.clearCapture).loop = s.loop ∧
    (s.clearCapture).loader = s.loader :=
  ⟨rfl, rfl, rfl, rfl, rfl, rfl, rfl, rfl, rfl, rfl, rfl, rfl, rfl, rfl, rfl⟩

@[simp] theorem State.setResult_keeps (w : CtlWord) (r : Result) (d : Word) (s : State) :
    (s.setResult w r d).pending = s.pending ∧ (s.setResult w r d).mem = s.mem ∧
    (s.setResult w r d).lastResponse = s.lastResponse ∧ (s.setResult w r d).bus = s.bus ∧
    (s.setResult w r d).windows = s.windows ∧ (s.setResult w r d).port = s.port ∧
    (s.setResult w r d).coverage = s.coverage ∧ (s.setResult w r d).curves = s.curves ∧
    (s.setResult w r d).towers = s.towers ∧ (s.setResult w r d).timeout = s.timeout ∧
    (s.setResult w r d).link = s.link ∧ (s.setResult w r d).levels = s.levels ∧
    (s.setResult w r d).loop = s.loop ∧ (s.setResult w r d).loader = s.loader :=
  ⟨rfl, rfl, rfl, rfl, rfl, rfl, rfl, rfl, rfl, rfl, rfl, rfl, rfl, rfl⟩

@[simp] theorem State.setLatch_keeps (f : Option Fold) (s : State) :
    (s.setLatch f).pending = s.pending ∧ (s.setLatch f).mem = s.mem ∧
    (s.setLatch f).lastResponse = s.lastResponse ∧ (s.setLatch f).bus = s.bus ∧
    (s.setLatch f).windows = s.windows ∧ (s.setLatch f).port = s.port ∧ (s.setLatch f).curves = s.curves ∧
    (s.setLatch f).towers = s.towers ∧ (s.setLatch f).timeout = s.timeout ∧ (s.setLatch f).link = s.link ∧
    (s.setLatch f).levels = s.levels ∧ (s.setLatch f).engine = s.engine ∧ (s.setLatch f).loop = s.loop ∧
    (s.setLatch f).control = s.control ∧ (s.setLatch f).loader = s.loader :=
  ⟨rfl, rfl, rfl, rfl, rfl, rfl, rfl, rfl, rfl, rfl, rfl, rfl, rfl, rfl, rfl⟩

@[simp] theorem State.setWaiting_keeps (l : List MasterClass) (s : State) :
    (s.setWaiting l).pending = s.pending ∧ (s.setWaiting l).mem = s.mem ∧
    (s.setWaiting l).lastResponse = s.lastResponse ∧ (s.setWaiting l).bus = s.bus ∧
    (s.setWaiting l).windows = s.windows ∧ (s.setWaiting l).port = s.port ∧ (s.setWaiting l).curves = s.curves ∧
    (s.setWaiting l).towers = s.towers ∧ (s.setWaiting l).timeout = s.timeout ∧ (s.setWaiting l).link = s.link ∧
    (s.setWaiting l).levels = s.levels ∧ (s.setWaiting l).engine = s.engine ∧ (s.setWaiting l).loop = s.loop ∧
    (s.setWaiting l).control = s.control ∧ (s.setWaiting l).loader = s.loader :=
  ⟨rfl, rfl, rfl, rfl, rfl, rfl, rfl, rfl, rfl, rfl, rfl, rfl, rfl, rfl, rfl⟩

@[simp] theorem State.refuseFold_keeps (a : Access) (s : State) :
    (s.refuseFold a).pending = s.pending ∧ (s.refuseFold a).mem = s.mem ∧ (s.refuseFold a).windows = s.windows ∧
    (s.refuseFold a).port = s.port ∧ (s.refuseFold a).curves = s.curves ∧ (s.refuseFold a).towers = s.towers ∧
    (s.refuseFold a).timeout = s.timeout ∧ (s.refuseFold a).link = s.link ∧ (s.refuseFold a).levels = s.levels ∧
    (s.refuseFold a).engine = s.engine ∧ (s.refuseFold a).loop = s.loop ∧ (s.refuseFold a).loader = s.loader :=
  by simp [State.refuseFold]

@[simp] theorem State.takeFold_keeps (a : Access) (s : State) :
    (s.takeFold a).pending = s.pending ∧ (s.takeFold a).mem = s.mem ∧ (s.takeFold a).windows = s.windows ∧
    (s.takeFold a).port = s.port ∧ (s.takeFold a).curves = s.curves ∧ (s.takeFold a).towers = s.towers ∧
    (s.takeFold a).timeout = s.timeout ∧ (s.takeFold a).link = s.link ∧ (s.takeFold a).levels = s.levels ∧
    (s.takeFold a).engine = s.engine ∧ (s.takeFold a).loop = s.loop ∧ (s.takeFold a).loader = s.loader :=
  by dsimp only [State.takeFold]; (repeat' split) <;> simp

@[simp] theorem State.takeWaiter_keeps (x : BusAccess) (s : State) :
    (s.takeWaiter x).pending = s.pending ∧ (s.takeWaiter x).mem = s.mem ∧ (s.takeWaiter x).windows = s.windows ∧
    (s.takeWaiter x).port = s.port ∧ (s.takeWaiter x).curves = s.curves ∧ (s.takeWaiter x).towers = s.towers ∧
    (s.takeWaiter x).timeout = s.timeout ∧ (s.takeWaiter x).link = s.link ∧ (s.takeWaiter x).levels = s.levels ∧
    (s.takeWaiter x).engine = s.engine ∧ (s.takeWaiter x).loop = s.loop ∧ (s.takeWaiter x).loader = s.loader :=
  by dsimp only [State.takeWaiter]; (repeat' split) <;> simp

@[simp] theorem State.withdrawMirror_keeps (w : CtlWord) (s : State) :
    (s.withdrawMirror w).pending = s.pending ∧ (s.withdrawMirror w).mem = s.mem ∧
    (s.withdrawMirror w).lastResponse = s.lastResponse ∧ (s.withdrawMirror w).bus = s.bus ∧
    (s.withdrawMirror w).windows = s.windows ∧ (s.withdrawMirror w).coverage = s.coverage ∧
    (s.withdrawMirror w).curves = s.curves ∧ (s.withdrawMirror w).towers = s.towers ∧
    (s.withdrawMirror w).timeout = s.timeout ∧ (s.withdrawMirror w).link = s.link ∧
    (s.withdrawMirror w).levels = s.levels ∧ (s.withdrawMirror w).engine = s.engine ∧
    (s.withdrawMirror w).loop = s.loop ∧ (s.withdrawMirror w).loader = s.loader :=
  by dsimp only [State.withdrawMirror]; (repeat' split) <;> simp

@[simp] theorem State.supersede_keeps (p : Purpose) (s : State) :
    (s.supersede p).pending = s.pending ∧ (s.supersede p).mem = s.mem ∧
    (s.supersede p).lastResponse = s.lastResponse ∧ (s.supersede p).bus = s.bus ∧
    (s.supersede p).windows = s.windows ∧ (s.supersede p).coverage = s.coverage ∧
    (s.supersede p).curves = s.curves ∧ (s.supersede p).towers = s.towers ∧
    (s.supersede p).timeout = s.timeout ∧ (s.supersede p).link = s.link ∧ (s.supersede p).levels = s.levels ∧
    (s.supersede p).engine = s.engine ∧ (s.supersede p).loop = s.loop ∧ (s.supersede p).loader = s.loader :=
  by dsimp only [State.supersede]; (repeat' split) <;> simp

@[simp] theorem State.watchPass_keeps (p : Purpose) (w : PortWord) (s : State) :
    (s.watchPass p w).pending = s.pending ∧ (s.watchPass p w).mem = s.mem ∧
    (s.watchPass p w).lastResponse = s.lastResponse ∧ (s.watchPass p w).bus = s.bus ∧
    (s.watchPass p w).windows = s.windows ∧ (s.watchPass p w).port = s.port ∧
    (s.watchPass p w).curves = s.curves ∧ (s.watchPass p w).towers = s.towers ∧
    (s.watchPass p w).timeout = s.timeout ∧ (s.watchPass p w).link = s.link ∧
    (s.watchPass p w).levels = s.levels ∧ (s.watchPass p w).engine = s.engine ∧
    (s.watchPass p w).loop = s.loop ∧ (s.watchPass p w).loader = s.loader :=
  by dsimp only [State.watchPass]; (repeat' split) <;> simp

@[simp] theorem State.grantPass_keeps (c : MasterClass) (a : Access) (p : Purpose) (s : State) :
    (s.grantPass c a p).pending = s.pending ∧ (s.grantPass c a p).mem = s.mem ∧
    (s.grantPass c a p).lastResponse = s.lastResponse ∧ (s.grantPass c a p).windows = s.windows ∧
    (s.grantPass c a p).curves = s.curves ∧ (s.grantPass c a p).towers = s.towers ∧
    (s.grantPass c a p).timeout = s.timeout ∧ (s.grantPass c a p).link = s.link ∧
    (s.grantPass c a p).levels = s.levels ∧ (s.grantPass c a p).engine = s.engine ∧
    (s.grantPass c a p).loop = s.loop ∧ (s.grantPass c a p).loader = s.loader :=
  by simp [State.grantPass]

@[simp] theorem State.misfit_keeps (a : Access) (s : State) :
    (s.misfit a).pending = s.pending ∧ (s.misfit a).mem = s.mem ∧ (s.misfit a).windows = s.windows ∧
    (s.misfit a).port = s.port ∧ (s.misfit a).coverage = s.coverage ∧ (s.misfit a).curves = s.curves ∧
    (s.misfit a).towers = s.towers ∧ (s.misfit a).timeout = s.timeout ∧ (s.misfit a).link = s.link ∧
    (s.misfit a).levels = s.levels ∧ (s.misfit a).engine = s.engine ∧ (s.misfit a).loop = s.loop ∧
    (s.misfit a).loader = s.loader :=
  ⟨rfl, rfl, rfl, rfl, rfl, rfl, rfl, rfl, rfl, rfl, rfl, rfl, rfl⟩

@[simp] theorem State.readLive_keeps (w : Window) (a : Access) (s : State) :
    (s.readLive w a).pending = s.pending ∧ (s.readLive w a).mem = s.mem ∧ (s.readLive w a).windows = s.windows ∧
    (s.readLive w a).port = s.port ∧ (s.readLive w a).coverage = s.coverage ∧
    (s.readLive w a).curves = s.curves ∧ (s.readLive w a).towers = s.towers ∧
    (s.readLive w a).timeout = s.timeout ∧ (s.readLive w a).link = s.link ∧ (s.readLive w a).levels = s.levels ∧
    (s.readLive w a).engine = s.engine ∧ (s.readLive w a).loop = s.loop ∧ (s.readLive w a).control = s.control ∧
    (s.readLive w a).loader = s.loader :=
  ⟨rfl, rfl, rfl, rfl, rfl, rfl, rfl, rfl, rfl, rfl, rfl, rfl, rfl, rfl⟩

@[simp] theorem State.memAnswered_keeps (w : PortWord) (x : MemAnswer) (s : State) :
    (s.memAnswered w x).pending = s.pending ∧ (s.memAnswered w x).lastResponse = s.lastResponse ∧
    (s.memAnswered w x).bus = s.bus ∧ (s.memAnswered w x).windows = s.windows ∧
    (s.memAnswered w x).coverage = s.coverage ∧ (s.memAnswered w x).curves = s.curves ∧
    (s.memAnswered w x).towers = s.towers ∧ (s.memAnswered w x).timeout = s.timeout ∧
    (s.memAnswered w x).link = s.link ∧ (s.memAnswered w x).levels = s.levels ∧
    (s.memAnswered w x).engine = s.engine ∧ (s.memAnswered w x).loop = s.loop ∧
    (s.memAnswered w x).control = s.control ∧ (s.memAnswered w x).loader = s.loader :=
  ⟨rfl, rfl, rfl, rfl, rfl, rfl, rfl, rfl, rfl, rfl, rfl, rfl, rfl, rfl⟩

@[simp] theorem State.completed_keeps (ws : List PortWord) (x : List MemAnswer) (d : Bool) (s : State) :
    (s.completed ws x d).pending = s.pending ∧ (s.completed ws x d).lastResponse = s.lastResponse ∧
    (s.completed ws x d).bus = s.bus ∧ (s.completed ws x d).windows = s.windows ∧
    (s.completed ws x d).coverage = s.coverage ∧ (s.completed ws x d).curves = s.curves ∧
    (s.completed ws x d).towers = s.towers ∧ (s.completed ws x d).timeout = s.timeout ∧
    (s.completed ws x d).link = s.link ∧ (s.completed ws x d).levels = s.levels ∧
    (s.completed ws x d).engine = s.engine ∧ (s.completed ws x d).loop = s.loop ∧
    (s.completed ws x d).loader = s.loader :=
  ⟨rfl, rfl, rfl, rfl, rfl, rfl, rfl, rfl, rfl, rfl, rfl, rfl, rfl⟩

@[simp] theorem State.freeChannel_keeps (s : State) :
    (s.freeChannel).pending = s.pending ∧ (s.freeChannel).mem = s.mem ∧
    (s.freeChannel).lastResponse = s.lastResponse ∧ (s.freeChannel).bus = s.bus ∧
    (s.freeChannel).windows = s.windows ∧ (s.freeChannel).port = s.port ∧
    (s.freeChannel).coverage = s.coverage ∧ (s.freeChannel).curves = s.curves ∧
    (s.freeChannel).towers = s.towers ∧ (s.freeChannel).timeout = s.timeout ∧ (s.freeChannel).link = s.link ∧
    (s.freeChannel).levels = s.levels ∧ (s.freeChannel).engine = s.engine ∧ (s.freeChannel).loop = s.loop ∧
    (s.freeChannel).loader = s.loader :=
  ⟨rfl, rfl, rfl, rfl, rfl, rfl, rfl, rfl, rfl, rfl, rfl, rfl, rfl, rfl, rfl⟩

@[simp] theorem State.answerDone_keeps (a : Access) (w : CtlWord) (ok : Bool) (s : State) :
    (s.answerDone a w ok).pending = s.pending ∧ (s.answerDone a w ok).mem = s.mem ∧
    (s.answerDone a w ok).windows = s.windows ∧ (s.answerDone a w ok).port = s.port ∧
    (s.answerDone a w ok).coverage = s.coverage ∧ (s.answerDone a w ok).curves = s.curves ∧
    (s.answerDone a w ok).towers = s.towers ∧ (s.answerDone a w ok).timeout = s.timeout ∧
    (s.answerDone a w ok).link = s.link ∧ (s.answerDone a w ok).levels = s.levels ∧
    (s.answerDone a w ok).engine = s.engine ∧ (s.answerDone a w ok).loop = s.loop ∧
    (s.answerDone a w ok).loader = s.loader :=
  ⟨rfl, rfl, rfl, rfl, rfl, rfl, rfl, rfl, rfl, rfl, rfl, rfl, rfl⟩

@[simp] theorem State.modTowers_keeps (f : TowerState → TowerState) (ts : List Tower) (s : State) :
    (s.modTowers f ts).pending = s.pending ∧ (s.modTowers f ts).mem = s.mem ∧
    (s.modTowers f ts).lastResponse = s.lastResponse ∧ (s.modTowers f ts).bus = s.bus ∧
    (s.modTowers f ts).windows = s.windows ∧ (s.modTowers f ts).port = s.port ∧
    (s.modTowers f ts).coverage = s.coverage ∧ (s.modTowers f ts).curves = s.curves ∧
    (s.modTowers f ts).timeout = s.timeout ∧ (s.modTowers f ts).link = s.link ∧
    (s.modTowers f ts).levels = s.levels ∧ (s.modTowers f ts).engine = s.engine ∧
    (s.modTowers f ts).loop = s.loop ∧ (s.modTowers f ts).loader = s.loader :=
  by
  induction ts generalizing s with
  | nil => simp [State.modTowers]
  | cons t ts ih =>
    have h := ih (s.modTower t f)
    simp only [State.modTower_keeps] at h
    exact h

@[simp] theorem State.imprRise_keeps (s : State) :
    (s.imprRise).pending = s.pending ∧ (s.imprRise).mem = s.mem ∧ (s.imprRise).lastResponse = s.lastResponse ∧
    (s.imprRise).bus = s.bus ∧ (s.imprRise).windows = s.windows ∧ (s.imprRise).coverage = s.coverage ∧
    (s.imprRise).curves = s.curves ∧ (s.imprRise).timeout = s.timeout ∧ (s.imprRise).link = s.link ∧
    (s.imprRise).loop = s.loop ∧ (s.imprRise).loader = s.loader :=
  by dsimp only [State.imprRise]; (repeat' split) <;> simp

@[simp] theorem State.imprFall_keeps (s : State) :
    (s.imprFall).pending = s.pending ∧ (s.imprFall).mem = s.mem ∧ (s.imprFall).lastResponse = s.lastResponse ∧
    (s.imprFall).bus = s.bus ∧ (s.imprFall).windows = s.windows ∧ (s.imprFall).coverage = s.coverage ∧
    (s.imprFall).curves = s.curves ∧ (s.imprFall).timeout = s.timeout ∧ (s.imprFall).link = s.link ∧
    (s.imprFall).loop = s.loop ∧ (s.imprFall).loader = s.loader :=
  by dsimp only [State.imprFall]; (repeat' split) <;> simp

@[simp] theorem State.sheet_keeps (s : State) :
    (s.sheet).pending = s.pending ∧ (s.sheet).mem = s.mem ∧ (s.sheet).lastResponse = s.lastResponse ∧
    (s.sheet).bus = s.bus ∧ (s.sheet).windows = s.windows ∧ (s.sheet).coverage = s.coverage ∧
    (s.sheet).curves = s.curves ∧ (s.sheet).timeout = s.timeout ∧ (s.sheet).link = s.link ∧
    (s.sheet).levels = s.levels ∧ (s.sheet).loop = s.loop ∧ (s.sheet).loader = s.loader :=
  by simp [State.sheet]

@[simp] theorem State.receive_keeps (line : List LineEvent) (s : State) :
    (s.receive line).pending = s.pending ∧ (s.receive line).mem = s.mem ∧
    (s.receive line).lastResponse = s.lastResponse ∧ (s.receive line).bus = s.bus ∧
    (s.receive line).windows = s.windows ∧ (s.receive line).port = s.port ∧
    (s.receive line).coverage = s.coverage ∧ (s.receive line).curves = s.curves ∧
    (s.receive line).timeout = s.timeout ∧ (s.receive line).levels = s.levels ∧
    (s.receive line).engine = s.engine ∧ (s.receive line).loop = s.loop ∧ (s.receive line).loader = s.loader :=
  by
  induction line generalizing s with
  | nil => simp [State.receive]
  | cons e line ih =>
    have h := ih (s.lineEvent e)
    simp only [State.lineEvent_keeps] at h
    exact h

@[simp] theorem State.takeWaiting_keeps (l : List MasterClass) (s : State) :
    (State.takeWaiting l s).pending = s.pending ∧ (State.takeWaiting l s).mem = s.mem ∧
    (State.takeWaiting l s).windows = s.windows ∧ (State.takeWaiting l s).port = s.port ∧
    (State.takeWaiting l s).curves = s.curves ∧ (State.takeWaiting l s).towers = s.towers ∧
    (State.takeWaiting l s).timeout = s.timeout ∧ (State.takeWaiting l s).link = s.link ∧
    (State.takeWaiting l s).levels = s.levels ∧ (State.takeWaiting l s).engine = s.engine ∧
    (State.takeWaiting l s).loop = s.loop ∧ (State.takeWaiting l s).loader = s.loader :=
  by
  induction l generalizing s with
  | nil => simp [State.takeWaiting]
  | cons c l ih => simp only [State.takeWaiting]; (repeat' split) <;> simp_all

@[simp] theorem State.emptyLatch_keeps (s : State) :
    (s.emptyLatch).pending = s.pending ∧ (s.emptyLatch).mem = s.mem ∧ (s.emptyLatch).windows = s.windows ∧
    (s.emptyLatch).port = s.port ∧ (s.emptyLatch).curves = s.curves ∧ (s.emptyLatch).towers = s.towers ∧
    (s.emptyLatch).timeout = s.timeout ∧ (s.emptyLatch).link = s.link ∧ (s.emptyLatch).levels = s.levels ∧
    (s.emptyLatch).engine = s.engine ∧ (s.emptyLatch).loop = s.loop ∧ (s.emptyLatch).loader = s.loader :=
  by simp [State.emptyLatch]

@[simp] theorem State.coverageWrite_keeps (a : Access) (s : State) :
    (s.coverageWrite a).pending = s.pending ∧ (s.coverageWrite a).mem = s.mem ∧
    (s.coverageWrite a).windows = s.windows ∧ (s.coverageWrite a).port = s.port ∧
    (s.coverageWrite a).curves = s.curves ∧ (s.coverageWrite a).towers = s.towers ∧
    (s.coverageWrite a).timeout = s.timeout ∧ (s.coverageWrite a).link = s.link ∧
    (s.coverageWrite a).levels = s.levels ∧ (s.coverageWrite a).engine = s.engine ∧
    (s.coverageWrite a).loop = s.loop ∧ (s.coverageWrite a).loader = s.loader :=
  by dsimp only [State.coverageWrite]; (repeat' split) <;> simp

@[simp] theorem State.measureWrite_keeps (b : Nat) (a : Access) (s : State) :
    (s.measureWrite b a).pending = s.pending ∧ (s.measureWrite b a).mem = s.mem ∧
    (s.measureWrite b a).windows = s.windows ∧ (s.measureWrite b a).port = s.port ∧
    (s.measureWrite b a).coverage = s.coverage ∧ (s.measureWrite b a).curves = s.curves ∧
    (s.measureWrite b a).towers = s.towers ∧ (s.measureWrite b a).timeout = s.timeout ∧
    (s.measureWrite b a).link = s.link ∧ (s.measureWrite b a).levels = s.levels ∧
    (s.measureWrite b a).engine = s.engine ∧ (s.measureWrite b a).loader = s.loader :=
  by dsimp only [State.measureWrite]; (repeat' split) <;> simp

@[simp] theorem State.writeLive_keeps (w : Window) (a : Access) (s : State) :
    (s.writeLive w a).pending = s.pending ∧ (s.writeLive w a).mem = s.mem ∧
    (s.writeLive w a).windows = s.windows ∧ (s.writeLive w a).port = s.port ∧
    (s.writeLive w a).coverage = s.coverage ∧ (s.writeLive w a).curves = s.curves ∧
    (s.writeLive w a).timeout = s.timeout ∧ (s.writeLive w a).link = s.link ∧
    (s.writeLive w a).levels = s.levels ∧ (s.writeLive w a).engine = s.engine ∧
    (s.writeLive w a).loop = s.loop ∧ (s.writeLive w a).loader = s.loader :=
  by dsimp only [State.writeLive]; (repeat' split) <;> simp

@[simp] theorem State.watchAll_keeps (r : IReq) (ws : List PortWord) (s : State) :
    (s.watchAll r ws).pending = s.pending ∧ (s.watchAll r ws).mem = s.mem ∧
    (s.watchAll r ws).lastResponse = s.lastResponse ∧ (s.watchAll r ws).bus = s.bus ∧
    (s.watchAll r ws).windows = s.windows ∧ (s.watchAll r ws).port = s.port ∧
    (s.watchAll r ws).curves = s.curves ∧ (s.watchAll r ws).towers = s.towers ∧
    (s.watchAll r ws).timeout = s.timeout ∧ (s.watchAll r ws).link = s.link ∧
    (s.watchAll r ws).levels = s.levels ∧ (s.watchAll r ws).engine = s.engine ∧
    (s.watchAll r ws).loop = s.loop ∧ (s.watchAll r ws).loader = s.loader :=
  by
  unfold State.watchAll; split
  · induction ws generalizing s with
    | nil => simp
    | cons w ws ih =>
      have h := ih (s.watch w)
      simp only [State.watch_keeps] at h
      exact h
  · simp

@[simp] theorem State.grantHead_keeps (r : IReq) (l : List IReq) (s : State) :
    (s.grantHead r l).pending = s.pending ∧ (s.grantHead r l).mem = s.mem ∧
    (s.grantHead r l).lastResponse = s.lastResponse ∧ (s.grantHead r l).bus = s.bus ∧
    (s.grantHead r l).windows = s.windows ∧ (s.grantHead r l).curves = s.curves ∧
    (s.grantHead r l).towers = s.towers ∧ (s.grantHead r l).timeout = s.timeout ∧
    (s.grantHead r l).link = s.link ∧ (s.grantHead r l).levels = s.levels ∧
    (s.grantHead r l).engine = s.engine ∧ (s.grantHead r l).loop = s.loop ∧
    (s.grantHead r l).loader = s.loader :=
  by simp [State.grantHead]

@[simp] theorem State.grantClass_keeps (c : MasterClass) (s : State) :
    (s.grantClass c).pending = s.pending ∧ (s.grantClass c).mem = s.mem ∧
    (s.grantClass c).lastResponse = s.lastResponse ∧ (s.grantClass c).windows = s.windows ∧
    (s.grantClass c).curves = s.curves ∧ (s.grantClass c).towers = s.towers ∧
    (s.grantClass c).timeout = s.timeout ∧ (s.grantClass c).link = s.link ∧ (s.grantClass c).levels = s.levels ∧
    (s.grantClass c).engine = s.engine ∧ (s.grantClass c).loop = s.loop ∧ (s.grantClass c).loader = s.loader :=
  by dsimp only [State.grantClass]; (repeat' split) <;> simp

@[simp] theorem State.grant_keeps (s : State) :
    (s.grant).pending = s.pending ∧ (s.grant).mem = s.mem ∧ (s.grant).lastResponse = s.lastResponse ∧
    (s.grant).windows = s.windows ∧ (s.grant).curves = s.curves ∧ (s.grant).towers = s.towers ∧
    (s.grant).timeout = s.timeout ∧ (s.grant).link = s.link ∧ (s.grant).levels = s.levels ∧
    (s.grant).engine = s.engine ∧ (s.grant).loop = s.loop ∧ (s.grant).loader = s.loader :=
  by dsimp only [State.grant]; (repeat' split) <;> simp

@[simp] theorem State.foldReadDone_keeps (a : Access) (ok : Bool) (d : Word) (s : State) :
    (s.foldReadDone a ok d).pending = s.pending ∧ (s.foldReadDone a ok d).mem = s.mem ∧
    (s.foldReadDone a ok d).windows = s.windows ∧ (s.foldReadDone a ok d).port = s.port ∧
    (s.foldReadDone a ok d).curves = s.curves ∧ (s.foldReadDone a ok d).towers = s.towers ∧
    (s.foldReadDone a ok d).timeout = s.timeout ∧ (s.foldReadDone a ok d).link = s.link ∧
    (s.foldReadDone a ok d).levels = s.levels ∧ (s.foldReadDone a ok d).engine = s.engine ∧
    (s.foldReadDone a ok d).loop = s.loop ∧ (s.foldReadDone a ok d).loader = s.loader :=
  by dsimp only [State.foldReadDone]; (repeat' split) <;> simp

@[simp] theorem State.foldWriteDone_keeps (a : Access) (ok : Bool) (s : State) :
    (s.foldWriteDone a ok).pending = s.pending ∧ (s.foldWriteDone a ok).mem = s.mem ∧
    (s.foldWriteDone a ok).windows = s.windows ∧ (s.foldWriteDone a ok).port = s.port ∧
    (s.foldWriteDone a ok).curves = s.curves ∧ (s.foldWriteDone a ok).towers = s.towers ∧
    (s.foldWriteDone a ok).timeout = s.timeout ∧ (s.foldWriteDone a ok).link = s.link ∧
    (s.foldWriteDone a ok).levels = s.levels ∧ (s.foldWriteDone a ok).engine = s.engine ∧
    (s.foldWriteDone a ok).loop = s.loop ∧ (s.foldWriteDone a ok).loader = s.loader :=
  by dsimp only [State.foldWriteDone]; (repeat' split) <;> simp

@[simp] theorem State.commitDone_keeps (a : Access) (i : Fin 16) (ok : Bool) (s : State) :
    (s.commitDone a i ok).pending = s.pending ∧ (s.commitDone a i ok).mem = s.mem ∧
    (s.commitDone a i ok).windows = s.windows ∧ (s.commitDone a i ok).coverage = s.coverage ∧
    (s.commitDone a i ok).curves = s.curves ∧ (s.commitDone a i ok).towers = s.towers ∧
    (s.commitDone a i ok).timeout = s.timeout ∧ (s.commitDone a i ok).link = s.link ∧
    (s.commitDone a i ok).levels = s.levels ∧ (s.commitDone a i ok).engine = s.engine ∧
    (s.commitDone a i ok).control = s.control ∧ (s.commitDone a i ok).loader = s.loader :=
  by dsimp only [State.commitDone]; (repeat' split) <;> simp

@[simp] theorem State.passDone_keeps (a : Access) (p : Purpose) (ok : Bool) (d : Word) (s : State) :
    (s.passDone a p ok d).pending = s.pending ∧ (s.passDone a p ok d).mem = s.mem ∧
    (s.passDone a p ok d).windows = s.windows ∧ (s.passDone a p ok d).curves = s.curves ∧
    (s.passDone a p ok d).towers = s.towers ∧ (s.passDone a p ok d).timeout = s.timeout ∧
    (s.passDone a p ok d).link = s.link ∧ (s.passDone a p ok d).levels = s.levels ∧
    (s.passDone a p ok d).engine = s.engine ∧ (s.passDone a p ok d).loader = s.loader :=
  by dsimp only [State.passDone]; (repeat' split) <;> simp

@[simp] theorem State.answerPass_keeps (x : MemAnswer) (s : State) :
    (s.answerPass x).pending = s.pending ∧ (s.answerPass x).windows = s.windows ∧
    (s.answerPass x).curves = s.curves ∧ (s.answerPass x).towers = s.towers ∧
    (s.answerPass x).timeout = s.timeout ∧ (s.answerPass x).link = s.link ∧ (s.answerPass x).levels = s.levels ∧
    (s.answerPass x).engine = s.engine ∧ (s.answerPass x).loader = s.loader :=
  by dsimp only [State.answerPass]; (repeat' split) <;> simp

@[simp] theorem State.offerClear_keeps (c : Cursor) (s : State) :
    (s.offerClear c).pending = s.pending ∧ (s.offerClear c).mem = s.mem ∧
    (s.offerClear c).lastResponse = s.lastResponse ∧ (s.offerClear c).bus = s.bus ∧
    (s.offerClear c).windows = s.windows ∧ (s.offerClear c).curves = s.curves ∧
    (s.offerClear c).towers = s.towers ∧ (s.offerClear c).timeout = s.timeout ∧ (s.offerClear c).link = s.link ∧
    (s.offerClear c).levels = s.levels ∧ (s.offerClear c).engine = s.engine ∧ (s.offerClear c).loop = s.loop ∧
    (s.offerClear c).control = s.control ∧ (s.offerClear c).loader = s.loader :=
  by dsimp only [State.offerClear]; (repeat' split) <;> simp

@[simp] theorem State.firstClear_keeps (s : State) :
    (s.firstClear).pending = s.pending ∧ (s.firstClear).mem = s.mem ∧
    (s.firstClear).lastResponse = s.lastResponse ∧ (s.firstClear).bus = s.bus ∧
    (s.firstClear).windows = s.windows ∧ (s.firstClear).curves = s.curves ∧ (s.firstClear).towers = s.towers ∧
    (s.firstClear).timeout = s.timeout ∧ (s.firstClear).link = s.link ∧ (s.firstClear).levels = s.levels ∧
    (s.firstClear).engine = s.engine ∧ (s.firstClear).loop = s.loop ∧ (s.firstClear).control = s.control ∧
    (s.firstClear).loader = s.loader :=
  by dsimp only [State.firstClear]; (repeat' split) <;> simp

@[simp] theorem State.clearWritten_keeps (ok : Bool) (s : State) :
    (s.clearWritten ok).pending = s.pending ∧ (s.clearWritten ok).mem = s.mem ∧
    (s.clearWritten ok).lastResponse = s.lastResponse ∧ (s.clearWritten ok).bus = s.bus ∧
    (s.clearWritten ok).windows = s.windows ∧ (s.clearWritten ok).curves = s.curves ∧
    (s.clearWritten ok).towers = s.towers ∧ (s.clearWritten ok).timeout = s.timeout ∧
    (s.clearWritten ok).link = s.link ∧ (s.clearWritten ok).levels = s.levels ∧
    (s.clearWritten ok).engine = s.engine ∧ (s.clearWritten ok).loop = s.loop ∧
    (s.clearWritten ok).loader = s.loader :=
  by dsimp only [State.clearWritten]; (repeat' split) <;> simp

@[simp] theorem State.slotDelivered_keeps (e : BitVec 31) (m : List Host.Cell) (r : IReq) (ws : List PortWord) (s : State) :
    (s.slotDelivered e m r ws).pending = s.pending ∧ (s.slotDelivered e m r ws).mem = s.mem ∧
    (s.slotDelivered e m r ws).lastResponse = s.lastResponse ∧ (s.slotDelivered e m r ws).bus = s.bus ∧
    (s.slotDelivered e m r ws).windows = s.windows ∧ (s.slotDelivered e m r ws).coverage = s.coverage ∧
    (s.slotDelivered e m r ws).curves = s.curves ∧ (s.slotDelivered e m r ws).timeout = s.timeout ∧
    (s.slotDelivered e m r ws).link = s.link ∧ (s.slotDelivered e m r ws).levels = s.levels ∧
    (s.slotDelivered e m r ws).loader = s.loader :=
  by dsimp only [State.slotDelivered]; (repeat' split) <;> simp

@[simp] theorem State.mirrorWritten_keeps (ok : Bool) (r : IReq) (s : State) :
    (s.mirrorWritten ok r).pending = s.pending ∧ (s.mirrorWritten ok r).mem = s.mem ∧
    (s.mirrorWritten ok r).lastResponse = s.lastResponse ∧ (s.mirrorWritten ok r).bus = s.bus ∧
    (s.mirrorWritten ok r).windows = s.windows ∧ (s.mirrorWritten ok r).port = s.port ∧
    (s.mirrorWritten ok r).coverage = s.coverage ∧ (s.mirrorWritten ok r).curves = s.curves ∧
    (s.mirrorWritten ok r).towers = s.towers ∧ (s.mirrorWritten ok r).timeout = s.timeout ∧
    (s.mirrorWritten ok r).link = s.link ∧ (s.mirrorWritten ok r).levels = s.levels ∧
    (s.mirrorWritten ok r).engine = s.engine ∧ (s.mirrorWritten ok r).loop = s.loop ∧
    (s.mirrorWritten ok r).loader = s.loader :=
  by dsimp only [State.mirrorWritten]; (repeat' split) <;> simp

@[simp] theorem State.drive_keeps (xs : List SpiStep) (s : State) :
    (s.drive xs).pending = s.pending ∧ (s.drive xs).mem = s.mem ∧ (s.drive xs).lastResponse = s.lastResponse ∧
    (s.drive xs).bus = s.bus ∧ (s.drive xs).windows = s.windows ∧ (s.drive xs).port = s.port ∧
    (s.drive xs).coverage = s.coverage ∧ (s.drive xs).curves = s.curves ∧ (s.drive xs).towers = s.towers ∧
    (s.drive xs).timeout = s.timeout ∧ (s.drive xs).link = s.link ∧ (s.drive xs).levels = s.levels ∧
    (s.drive xs).engine = s.engine ∧ (s.drive xs).loop = s.loop ∧ (s.drive xs).control = s.control :=
  ⟨rfl, rfl, rfl, rfl, rfl, rfl, rfl, rfl, rfl, rfl, rfl, rfl, rfl, rfl, rfl⟩

@[simp] theorem State.readOn_keeps (xs : List SpiStep) (s : State) :
    (s.readOn xs).pending = s.pending ∧ (s.readOn xs).mem = s.mem ∧ (s.readOn xs).lastResponse = s.lastResponse ∧
    (s.readOn xs).bus = s.bus ∧ (s.readOn xs).windows = s.windows ∧ (s.readOn xs).port = s.port ∧
    (s.readOn xs).coverage = s.coverage ∧ (s.readOn xs).curves = s.curves ∧ (s.readOn xs).towers = s.towers ∧
    (s.readOn xs).timeout = s.timeout ∧ (s.readOn xs).link = s.link ∧ (s.readOn xs).levels = s.levels ∧
    (s.readOn xs).engine = s.engine ∧ (s.readOn xs).loop = s.loop ∧ (s.readOn xs).control = s.control :=
  ⟨rfl, rfl, rfl, rfl, rfl, rfl, rfl, rfl, rfl, rfl, rfl, rfl, rfl, rfl, rfl⟩

@[simp] theorem State.runLoad_keeps (g : GlobalCfg) (s : State) :
    (s.runLoad g).pending = s.pending ∧ (s.runLoad g).mem = s.mem ∧
    (s.runLoad g).lastResponse = s.lastResponse ∧ (s.runLoad g).bus = s.bus ∧ (s.runLoad g).link = s.link ∧
    (s.runLoad g).levels = s.levels ∧ (s.runLoad g).loop = s.loop :=
  ⟨rfl, rfl, rfl, rfl, rfl, rfl, rfl⟩

@[simp] theorem State.failLoad_keeps (s : State) :
    (s.failLoad).pending = s.pending ∧ (s.failLoad).mem = s.mem ∧ (s.failLoad).lastResponse = s.lastResponse ∧
    (s.failLoad).bus = s.bus ∧ (s.failLoad).curves = s.curves ∧ (s.failLoad).towers = s.towers ∧
    (s.failLoad).timeout = s.timeout ∧ (s.failLoad).link = s.link ∧ (s.failLoad).levels = s.levels ∧
    (s.failLoad).engine = s.engine ∧ (s.failLoad).loop = s.loop :=
  ⟨rfl, rfl, rfl, rfl, rfl, rfl, rfl, rfl, rfl, rfl, rfl⟩

@[simp] theorem State.endLoad_keeps (s : State) :
    (s.endLoad).pending = s.pending ∧ (s.endLoad).mem = s.mem ∧ (s.endLoad).lastResponse = s.lastResponse ∧
    (s.endLoad).bus = s.bus ∧ (s.endLoad).link = s.link ∧ (s.endLoad).levels = s.levels ∧
    (s.endLoad).loop = s.loop :=
  by dsimp only [State.endLoad]; (repeat' split) <;> simp

@[simp] theorem State.judgeHeader_keeps (im : List Byte) (s : State) :
    (s.judgeHeader im).pending = s.pending ∧ (s.judgeHeader im).mem = s.mem ∧
    (s.judgeHeader im).lastResponse = s.lastResponse ∧ (s.judgeHeader im).bus = s.bus ∧
    (s.judgeHeader im).curves = s.curves ∧ (s.judgeHeader im).towers = s.towers ∧
    (s.judgeHeader im).timeout = s.timeout ∧ (s.judgeHeader im).link = s.link ∧
    (s.judgeHeader im).levels = s.levels ∧ (s.judgeHeader im).engine = s.engine ∧
    (s.judgeHeader im).loop = s.loop :=
  by dsimp only [State.judgeHeader]; (repeat' split) <;> simp

@[simp] theorem State.judgeSection_keeps (im : List Byte) (s : State) :
    (s.judgeSection im).pending = s.pending ∧ (s.judgeSection im).mem = s.mem ∧
    (s.judgeSection im).lastResponse = s.lastResponse ∧ (s.judgeSection im).bus = s.bus ∧
    (s.judgeSection im).link = s.link ∧ (s.judgeSection im).levels = s.levels ∧
    (s.judgeSection im).loop = s.loop :=
  by
  dsimp only [State.judgeSection, State.judgeKind, State.judgeGlobal, State.judgeWindows, State.judgeCurves, State.judgeTower,
    State.judgePreload]
  (repeat' split) <;> simp

@[simp] theorem State.preloadWritten_keeps (s : State) :
    (s.preloadWritten).pending = s.pending ∧ (s.preloadWritten).mem = s.mem ∧
    (s.preloadWritten).lastResponse = s.lastResponse ∧ (s.preloadWritten).bus = s.bus ∧
    (s.preloadWritten).link = s.link ∧ (s.preloadWritten).levels = s.levels ∧
    (s.preloadWritten).loop = s.loop :=
  by dsimp only [State.preloadWritten]; (repeat' split) <;> simp

@[simp] theorem State.resetTower_keeps (t : Tower) (c : Option TowerCfg) (s : State) :
    (s.resetTower t c).pending = s.pending ∧ (s.resetTower t c).mem = s.mem ∧
    (s.resetTower t c).lastResponse = s.lastResponse ∧ (s.resetTower t c).bus = s.bus ∧
    (s.resetTower t c).windows = s.windows ∧ (s.resetTower t c).port = s.port ∧
    (s.resetTower t c).curves = s.curves ∧ (s.resetTower t c).timeout = s.timeout ∧
    (s.resetTower t c).link = s.link ∧ (s.resetTower t c).levels = s.levels ∧
    (s.resetTower t c).engine = s.engine ∧ (s.resetTower t c).loader = s.loader :=
  by simp [State.resetTower]

@[simp] theorem State.resetTower_loop (t : Tower) (c : Option TowerCfg) (s : State) :
    (s.resetTower t c).loop = if c.isSome then s.loop.markReset t else s.loop :=
  by simp [State.resetTower]

@[simp] theorem State.sectionReloaded_keeps (im : List Byte) (s : State) :
    (s.sectionReloaded im).pending = s.pending ∧ (s.sectionReloaded im).mem = s.mem ∧
    (s.sectionReloaded im).lastResponse = s.lastResponse ∧ (s.sectionReloaded im).bus = s.bus ∧
    (s.sectionReloaded im).windows = s.windows ∧ (s.sectionReloaded im).port = s.port ∧
    (s.sectionReloaded im).curves = s.curves ∧ (s.sectionReloaded im).timeout = s.timeout ∧
    (s.sectionReloaded im).link = s.link ∧ (s.sectionReloaded im).levels = s.levels ∧
    (s.sectionReloaded im).engine = s.engine :=
  by dsimp only [State.sectionReloaded]; (repeat' split) <;> simp

end Sys2Proof.Machine
end

