-- ==== Sys2Proof/Laws/Control.lean ====
section
/-! SUPPORT. What each shared operation leaves as it was in the control unit. -/

namespace Sys2Proof.Machine

@[simp] theorem Control.report_keeps (w : CtlWord) (c : Control) :
    (c.report w).part = c.part ∧ (c.report w).flags = c.flags ∧ (c.report w).enables = c.enables ∧
    (c.report w).mode = c.mode ∧ (c.report w).line = c.line ∧ (c.report w).noticeAddr = c.noticeAddr ∧
    (c.report w).noticeDatum = c.noticeDatum ∧ (c.report w).noticePending = c.noticePending ∧
    (c.report w).capture = c.capture ∧ (c.report w).pointer = c.pointer ∧ (c.report w).last = c.last ∧
    (c.report w).channel = c.channel :=
  by dsimp only [Control.report]; (repeat' split) <;> simp

@[simp] theorem Control.unmirror_keeps (w : CtlWord) (c : Control) :
    (c.unmirror w).part = c.part ∧ (c.unmirror w).flags = c.flags ∧ (c.unmirror w).enables = c.enables ∧
    (c.unmirror w).mode = c.mode ∧ (c.unmirror w).line = c.line ∧ (c.unmirror w).noticeAddr = c.noticeAddr ∧
    (c.unmirror w).noticeDatum = c.noticeDatum ∧ (c.unmirror w).noticePending = c.noticePending ∧
    (c.unmirror w).capture = c.capture ∧ (c.unmirror w).pointer = c.pointer ∧ (c.unmirror w).last = c.last ∧
    (c.unmirror w).channel = c.channel :=
  ⟨rfl, rfl, rfl, rfl, rfl, rfl, rfl, rfl, rfl, rfl, rfl, rfl⟩

@[simp] theorem Control.relevel_keeps (c : Control) :
    (c.relevel).part = c.part ∧ (c.relevel).flags = c.flags ∧ (c.relevel).enables = c.enables ∧
    (c.relevel).mode = c.mode ∧ (c.relevel).noticeAddr = c.noticeAddr ∧
    (c.relevel).noticeDatum = c.noticeDatum ∧ (c.relevel).capture = c.capture ∧ (c.relevel).mirror = c.mirror ∧
    (c.relevel).pointer = c.pointer ∧ (c.relevel).last = c.last ∧ (c.relevel).channel = c.channel :=
  ⟨rfl, rfl, rfl, rfl, rfl, rfl, rfl, rfl, rfl, rfl, rfl⟩

@[simp] theorem Control.raise_keeps (f : EventFlag) (c : Control) :
    (c.raise f).part = c.part ∧ (c.raise f).enables = c.enables ∧ (c.raise f).mode = c.mode ∧
    (c.raise f).noticeAddr = c.noticeAddr ∧ (c.raise f).noticeDatum = c.noticeDatum ∧
    (c.raise f).capture = c.capture ∧ (c.raise f).pointer = c.pointer ∧ (c.raise f).last = c.last ∧
    (c.raise f).channel = c.channel :=
  by dsimp only [Control.raise]; (repeat' split) <;> simp

@[simp] theorem Control.capture__keeps (a : Addr) (k : MasterClass) (c : Control) :
    (c.capture_ a k).part = c.part ∧ (c.capture_ a k).flags = c.flags ∧ (c.capture_ a k).enables = c.enables ∧
    (c.capture_ a k).mode = c.mode ∧ (c.capture_ a k).line = c.line ∧
    (c.capture_ a k).noticeAddr = c.noticeAddr ∧ (c.capture_ a k).noticeDatum = c.noticeDatum ∧
    (c.capture_ a k).noticePending = c.noticePending ∧ (c.capture_ a k).pointer = c.pointer ∧
    (c.capture_ a k).last = c.last ∧ (c.capture_ a k).channel = c.channel :=
  by dsimp only [Control.capture_]; (repeat' split) <;> simp

@[simp] theorem State.raise_control (f : EventFlag) (s : State) :
    (s.raise f).control.part = s.control.part ∧ (s.raise f).control.enables = s.control.enables ∧
    (s.raise f).control.mode = s.control.mode ∧ (s.raise f).control.noticeAddr = s.control.noticeAddr ∧
    (s.raise f).control.noticeDatum = s.control.noticeDatum ∧ (s.raise f).control.capture = s.control.capture ∧
    (s.raise f).control.pointer = s.control.pointer ∧ (s.raise f).control.last = s.control.last ∧
    (s.raise f).control.channel = s.control.channel :=
  by simp [State.raise]

@[simp] theorem State.raiseIf_control (b : Bool) (f : EventFlag) (s : State) :
    (s.raiseIf b f).control.part = s.control.part ∧ (s.raiseIf b f).control.enables = s.control.enables ∧
    (s.raiseIf b f).control.mode = s.control.mode ∧ (s.raiseIf b f).control.noticeAddr = s.control.noticeAddr ∧
    (s.raiseIf b f).control.noticeDatum = s.control.noticeDatum ∧
    (s.raiseIf b f).control.capture = s.control.capture ∧ (s.raiseIf b f).control.pointer = s.control.pointer ∧
    (s.raiseIf b f).control.last = s.control.last ∧ (s.raiseIf b f).control.channel = s.control.channel :=
  by dsimp only [State.raiseIf]; (repeat' split) <;> simp

@[simp] theorem State.report_control (w : CtlWord) (s : State) :
    (s.report w).control.part = s.control.part ∧ (s.report w).control.flags = s.control.flags ∧
    (s.report w).control.enables = s.control.enables ∧ (s.report w).control.mode = s.control.mode ∧
    (s.report w).control.line = s.control.line ∧ (s.report w).control.noticeAddr = s.control.noticeAddr ∧
    (s.report w).control.noticeDatum = s.control.noticeDatum ∧
    (s.report w).control.noticePending = s.control.noticePending ∧
    (s.report w).control.capture = s.control.capture ∧ (s.report w).control.pointer = s.control.pointer ∧
    (s.report w).control.last = s.control.last ∧ (s.report w).control.channel = s.control.channel :=
  by simp [State.report]

@[simp] theorem State.reportIf_control (b : Bool) (w : CtlWord) (s : State) :
    (s.reportIf b w).control.part = s.control.part ∧ (s.reportIf b w).control.flags = s.control.flags ∧
    (s.reportIf b w).control.enables = s.control.enables ∧ (s.reportIf b w).control.mode = s.control.mode ∧
    (s.reportIf b w).control.line = s.control.line ∧
    (s.reportIf b w).control.noticeAddr = s.control.noticeAddr ∧
    (s.reportIf b w).control.noticeDatum = s.control.noticeDatum ∧
    (s.reportIf b w).control.noticePending = s.control.noticePending ∧
    (s.reportIf b w).control.capture = s.control.capture ∧
    (s.reportIf b w).control.pointer = s.control.pointer ∧ (s.reportIf b w).control.last = s.control.last ∧
    (s.reportIf b w).control.channel = s.control.channel :=
  by dsimp only [State.reportIf]; (repeat' split) <;> simp

@[simp] theorem State.capture_control (a : Addr) (k : MasterClass) (s : State) :
    (s.capture a k).control.part = s.control.part ∧ (s.capture a k).control.flags = s.control.flags ∧
    (s.capture a k).control.enables = s.control.enables ∧ (s.capture a k).control.mode = s.control.mode ∧
    (s.capture a k).control.line = s.control.line ∧ (s.capture a k).control.noticeAddr = s.control.noticeAddr ∧
    (s.capture a k).control.noticeDatum = s.control.noticeDatum ∧
    (s.capture a k).control.noticePending = s.control.noticePending ∧
    (s.capture a k).control.pointer = s.control.pointer ∧ (s.capture a k).control.last = s.control.last ∧
    (s.capture a k).control.channel = s.control.channel :=
  by simp [State.capture]

@[simp] theorem State.refuse_control (a : Access) (s : State) :
    (s.refuse a).control.part = s.control.part ∧ (s.refuse a).control.flags = s.control.flags ∧
    (s.refuse a).control.enables = s.control.enables ∧ (s.refuse a).control.mode = s.control.mode ∧
    (s.refuse a).control.line = s.control.line ∧ (s.refuse a).control.noticeAddr = s.control.noticeAddr ∧
    (s.refuse a).control.noticeDatum = s.control.noticeDatum ∧
    (s.refuse a).control.noticePending = s.control.noticePending ∧
    (s.refuse a).control.pointer = s.control.pointer ∧ (s.refuse a).control.last = s.control.last ∧
    (s.refuse a).control.channel = s.control.channel :=
  by simp [State.refuse]

/-- A tower that has not changed reports nothing. -/
@[simp] theorem Control.towerChanged_same (t : Tower) (tw : TowerState) (c : Control) :
    c.towerChanged t tw tw = c := by
  simp [Control.towerChanged]

@[simp] theorem State.putTower_control (t : Tower) (tw : TowerState) (s : State) :
    (s.putTower t tw).control.part = s.control.part ∧ (s.putTower t tw).control.flags = s.control.flags ∧
    (s.putTower t tw).control.enables = s.control.enables ∧ (s.putTower t tw).control.mode = s.control.mode ∧
    (s.putTower t tw).control.line = s.control.line ∧
    (s.putTower t tw).control.noticeAddr = s.control.noticeAddr ∧
    (s.putTower t tw).control.noticeDatum = s.control.noticeDatum ∧
    (s.putTower t tw).control.noticePending = s.control.noticePending ∧
    (s.putTower t tw).control.capture = s.control.capture ∧
    (s.putTower t tw).control.pointer = s.control.pointer ∧ (s.putTower t tw).control.last = s.control.last ∧
    (s.putTower t tw).control.channel = s.control.channel :=
  by dsimp only [State.putTower, Control.towerChanged]; (repeat' split) <;> simp

@[simp] theorem State.modTower_control (t : Tower) (f : TowerState → TowerState) (s : State) :
    (s.modTower t f).control.part = s.control.part ∧ (s.modTower t f).control.flags = s.control.flags ∧
    (s.modTower t f).control.enables = s.control.enables ∧ (s.modTower t f).control.mode = s.control.mode ∧
    (s.modTower t f).control.line = s.control.line ∧
    (s.modTower t f).control.noticeAddr = s.control.noticeAddr ∧
    (s.modTower t f).control.noticeDatum = s.control.noticeDatum ∧
    (s.modTower t f).control.noticePending = s.control.noticePending ∧
    (s.modTower t f).control.capture = s.control.capture ∧
    (s.modTower t f).control.pointer = s.control.pointer ∧ (s.modTower t f).control.last = s.control.last ∧
    (s.modTower t f).control.channel = s.control.channel :=
  by simp [State.modTower]

@[simp] theorem State.modTowers_control (f : TowerState → TowerState) (ts : List Tower) (s : State) :
    (s.modTowers f ts).control.part = s.control.part ∧ (s.modTowers f ts).control.flags = s.control.flags ∧
    (s.modTowers f ts).control.enables = s.control.enables ∧ (s.modTowers f ts).control.mode = s.control.mode ∧
    (s.modTowers f ts).control.line = s.control.line ∧
    (s.modTowers f ts).control.noticeAddr = s.control.noticeAddr ∧
    (s.modTowers f ts).control.noticeDatum = s.control.noticeDatum ∧
    (s.modTowers f ts).control.noticePending = s.control.noticePending ∧
    (s.modTowers f ts).control.capture = s.control.capture ∧
    (s.modTowers f ts).control.pointer = s.control.pointer ∧ (s.modTowers f ts).control.last = s.control.last ∧
    (s.modTowers f ts).control.channel = s.control.channel :=
  by
  induction ts generalizing s with
  | nil => simp [State.modTowers]
  | cons t ts ih =>
    have h := ih (s.modTower t f)
    simp only [State.modTower_control] at h
    exact h

@[simp] theorem State.watch_control (w : PortWord) (s : State) :
    (s.watch w).control.part = s.control.part ∧ (s.watch w).control.flags = s.control.flags ∧
    (s.watch w).control.enables = s.control.enables ∧ (s.watch w).control.mode = s.control.mode ∧
    (s.watch w).control.line = s.control.line ∧ (s.watch w).control.noticeAddr = s.control.noticeAddr ∧
    (s.watch w).control.noticeDatum = s.control.noticeDatum ∧
    (s.watch w).control.noticePending = s.control.noticePending ∧
    (s.watch w).control.capture = s.control.capture ∧ (s.watch w).control.pointer = s.control.pointer ∧
    (s.watch w).control.last = s.control.last ∧ (s.watch w).control.channel = s.control.channel :=
  by dsimp only [State.watch]; (repeat' split) <;> simp

@[simp] theorem State.watchAll_control (r : IReq) (ws : List PortWord) (s : State) :
    (s.watchAll r ws).control.part = s.control.part ∧ (s.watchAll r ws).control.flags = s.control.flags ∧
    (s.watchAll r ws).control.enables = s.control.enables ∧ (s.watchAll r ws).control.mode = s.control.mode ∧
    (s.watchAll r ws).control.line = s.control.line ∧
    (s.watchAll r ws).control.noticeAddr = s.control.noticeAddr ∧
    (s.watchAll r ws).control.noticeDatum = s.control.noticeDatum ∧
    (s.watchAll r ws).control.noticePending = s.control.noticePending ∧
    (s.watchAll r ws).control.capture = s.control.capture ∧
    (s.watchAll r ws).control.pointer = s.control.pointer ∧ (s.watchAll r ws).control.last = s.control.last ∧
    (s.watchAll r ws).control.channel = s.control.channel :=
  by
  unfold State.watchAll; split
  · induction ws generalizing s with
    | nil => simp
    | cons w ws ih =>
      have h := ih (s.watch w)
      simp only [State.watch_control] at h
      exact h
  · simp

@[simp] theorem State.serve_control (t : Tower) (s : State) :
    (s.serve t).control.part = s.control.part ∧ (s.serve t).control.flags = s.control.flags ∧
    (s.serve t).control.enables = s.control.enables ∧ (s.serve t).control.mode = s.control.mode ∧
    (s.serve t).control.line = s.control.line ∧ (s.serve t).control.noticeAddr = s.control.noticeAddr ∧
    (s.serve t).control.noticeDatum = s.control.noticeDatum ∧
    (s.serve t).control.noticePending = s.control.noticePending ∧
    (s.serve t).control.capture = s.control.capture ∧ (s.serve t).control.pointer = s.control.pointer ∧
    (s.serve t).control.last = s.control.last ∧ (s.serve t).control.channel = s.control.channel :=
  by dsimp only [State.serve]; (repeat' split) <;> simp

@[simp] theorem State.search_control (s : State) :
    (s.search).control.part = s.control.part ∧ (s.search).control.flags = s.control.flags ∧
    (s.search).control.enables = s.control.enables ∧ (s.search).control.mode = s.control.mode ∧
    (s.search).control.line = s.control.line ∧ (s.search).control.noticeAddr = s.control.noticeAddr ∧
    (s.search).control.noticeDatum = s.control.noticeDatum ∧
    (s.search).control.noticePending = s.control.noticePending ∧
    (s.search).control.capture = s.control.capture ∧ (s.search).control.pointer = s.control.pointer ∧
    (s.search).control.last = s.control.last ∧ (s.search).control.channel = s.control.channel :=
  by dsimp only [State.search]; (repeat' split) <;> simp

@[simp] theorem State.searchIfChanged_control (s0 : State) (s : State) :
    (State.searchIfChanged s0 s).control.part = s.control.part ∧
    (State.searchIfChanged s0 s).control.flags = s.control.flags ∧
    (State.searchIfChanged s0 s).control.enables = s.control.enables ∧
    (State.searchIfChanged s0 s).control.mode = s.control.mode ∧
    (State.searchIfChanged s0 s).control.line = s.control.line ∧
    (State.searchIfChanged s0 s).control.noticeAddr = s.control.noticeAddr ∧
    (State.searchIfChanged s0 s).control.noticeDatum = s.control.noticeDatum ∧
    (State.searchIfChanged s0 s).control.noticePending = s.control.noticePending ∧
    (State.searchIfChanged s0 s).control.capture = s.control.capture ∧
    (State.searchIfChanged s0 s).control.pointer = s.control.pointer ∧
    (State.searchIfChanged s0 s).control.last = s.control.last ∧
    (State.searchIfChanged s0 s).control.channel = s.control.channel :=
  by dsimp only [State.searchIfChanged]; (repeat' split) <;> simp

@[simp] theorem State.offerOn_control (c : ChannelReq) (r : IReq) (s : State) :
    (s.offerOn c r).control.part = s.control.part ∧ (s.offerOn c r).control.flags = s.control.flags ∧
    (s.offerOn c r).control.enables = s.control.enables ∧ (s.offerOn c r).control.mode = s.control.mode ∧
    (s.offerOn c r).control.line = s.control.line ∧ (s.offerOn c r).control.noticeAddr = s.control.noticeAddr ∧
    (s.offerOn c r).control.noticeDatum = s.control.noticeDatum ∧
    (s.offerOn c r).control.noticePending = s.control.noticePending ∧
    (s.offerOn c r).control.capture = s.control.capture ∧ (s.offerOn c r).control.mirror = s.control.mirror ∧
    (s.offerOn c r).control.pointer = s.control.pointer ∧ (s.offerOn c r).control.last = s.control.last :=
  ⟨rfl, rfl, rfl, rfl, rfl, rfl, rfl, rfl, rfl, rfl, rfl, rfl⟩

@[simp] theorem State.offerMirror_control (s : State) :
    (s.offerMirror).control.part = s.control.part ∧ (s.offerMirror).control.flags = s.control.flags ∧
    (s.offerMirror).control.enables = s.control.enables ∧ (s.offerMirror).control.mode = s.control.mode ∧
    (s.offerMirror).control.line = s.control.line ∧ (s.offerMirror).control.noticeAddr = s.control.noticeAddr ∧
    (s.offerMirror).control.noticeDatum = s.control.noticeDatum ∧
    (s.offerMirror).control.noticePending = s.control.noticePending ∧
    (s.offerMirror).control.capture = s.control.capture ∧ (s.offerMirror).control.mirror = s.control.mirror ∧
    (s.offerMirror).control.last = s.control.last :=
  by dsimp only [State.offerMirror]; (repeat' split) <;> simp

@[simp] theorem State.offerChannel_control (s : State) :
    (s.offerChannel).control.part = s.control.part ∧ (s.offerChannel).control.flags = s.control.flags ∧
    (s.offerChannel).control.enables = s.control.enables ∧ (s.offerChannel).control.mode = s.control.mode ∧
    (s.offerChannel).control.line = s.control.line ∧
    (s.offerChannel).control.noticeAddr = s.control.noticeAddr ∧
    (s.offerChannel).control.noticeDatum = s.control.noticeDatum ∧
    (s.offerChannel).control.noticePending = s.control.noticePending ∧
    (s.offerChannel).control.capture = s.control.capture ∧ (s.offerChannel).control.mirror = s.control.mirror ∧
    (s.offerChannel).control.last = s.control.last :=
  by dsimp only [State.offerChannel]; (repeat' split) <;> simp

@[simp] theorem State.settle_control (s0 : State) (s : State) :
    (State.settle s0 s).control.part = s.control.part ∧ (State.settle s0 s).control.flags = s.control.flags ∧
    (State.settle s0 s).control.enables = s.control.enables ∧
    (State.settle s0 s).control.mode = s.control.mode ∧ (State.settle s0 s).control.line = s.control.line ∧
    (State.settle s0 s).control.noticeAddr = s.control.noticeAddr ∧
    (State.settle s0 s).control.noticeDatum = s.control.noticeDatum ∧
    (State.settle s0 s).control.noticePending = s.control.noticePending ∧
    (State.settle s0 s).control.capture = s.control.capture ∧
    (State.settle s0 s).control.last = s.control.last :=
  by simp [State.settle]

@[simp] theorem Engine.reports_control (e e' : Engine) (c : Control) :
    (Engine.reports e e' c).part = c.part ∧ (Engine.reports e e' c).flags = c.flags ∧
    (Engine.reports e e' c).enables = c.enables ∧ (Engine.reports e e' c).mode = c.mode ∧
    (Engine.reports e e' c).line = c.line ∧ (Engine.reports e e' c).noticeAddr = c.noticeAddr ∧
    (Engine.reports e e' c).noticeDatum = c.noticeDatum ∧
    (Engine.reports e e' c).noticePending = c.noticePending ∧ (Engine.reports e e' c).capture = c.capture ∧
    (Engine.reports e e' c).pointer = c.pointer ∧ (Engine.reports e e' c).last = c.last ∧
    (Engine.reports e e' c).channel = c.channel :=
  by
  simp only [Engine.reports, allSources, List.foldl, Engine.reportBind]
  (repeat' split) <;> simp

@[simp] theorem State.putEngine_control (e : Engine) (s : State) :
    (s.putEngine e).control.part = s.control.part ∧ (s.putEngine e).control.flags = s.control.flags ∧
    (s.putEngine e).control.enables = s.control.enables ∧ (s.putEngine e).control.mode = s.control.mode ∧
    (s.putEngine e).control.line = s.control.line ∧ (s.putEngine e).control.noticeAddr = s.control.noticeAddr ∧
    (s.putEngine e).control.noticeDatum = s.control.noticeDatum ∧
    (s.putEngine e).control.noticePending = s.control.noticePending ∧
    (s.putEngine e).control.capture = s.control.capture ∧ (s.putEngine e).control.pointer = s.control.pointer ∧
    (s.putEngine e).control.last = s.control.last ∧ (s.putEngine e).control.channel = s.control.channel :=
  by simp [State.putEngine]

@[simp] theorem State.fetch_control (e : Engine) (s : State) :
    (s.fetch e).control.part = s.control.part ∧ (s.fetch e).control.flags = s.control.flags ∧
    (s.fetch e).control.enables = s.control.enables ∧ (s.fetch e).control.mode = s.control.mode ∧
    (s.fetch e).control.line = s.control.line ∧ (s.fetch e).control.noticeAddr = s.control.noticeAddr ∧
    (s.fetch e).control.noticeDatum = s.control.noticeDatum ∧
    (s.fetch e).control.noticePending = s.control.noticePending ∧
    (s.fetch e).control.capture = s.control.capture ∧ (s.fetch e).control.pointer = s.control.pointer ∧
    (s.fetch e).control.last = s.control.last ∧ (s.fetch e).control.channel = s.control.channel :=
  by simp [State.fetch]

@[simp] theorem State.startChain_control (i : Nat) (k : Option Source) (s : State) :
    (s.startChain i k).control.part = s.control.part ∧ (s.startChain i k).control.flags = s.control.flags ∧
    (s.startChain i k).control.enables = s.control.enables ∧ (s.startChain i k).control.mode = s.control.mode ∧
    (s.startChain i k).control.line = s.control.line ∧
    (s.startChain i k).control.noticeAddr = s.control.noticeAddr ∧
    (s.startChain i k).control.noticeDatum = s.control.noticeDatum ∧
    (s.startChain i k).control.noticePending = s.control.noticePending ∧
    (s.startChain i k).control.capture = s.control.capture ∧
    (s.startChain i k).control.pointer = s.control.pointer ∧ (s.startChain i k).control.last = s.control.last ∧
    (s.startChain i k).control.channel = s.control.channel :=
  by simp [State.startChain]

@[simp] theorem State.serveStarts_control (s : State) :
    (s.serveStarts).control.part = s.control.part ∧ (s.serveStarts).control.flags = s.control.flags ∧
    (s.serveStarts).control.enables = s.control.enables ∧ (s.serveStarts).control.mode = s.control.mode ∧
    (s.serveStarts).control.line = s.control.line ∧ (s.serveStarts).control.noticeAddr = s.control.noticeAddr ∧
    (s.serveStarts).control.noticeDatum = s.control.noticeDatum ∧
    (s.serveStarts).control.noticePending = s.control.noticePending ∧
    (s.serveStarts).control.capture = s.control.capture ∧ (s.serveStarts).control.pointer = s.control.pointer ∧
    (s.serveStarts).control.last = s.control.last ∧ (s.serveStarts).control.channel = s.control.channel :=
  by dsimp only [State.serveStarts]; (repeat' split) <;> simp

@[simp] theorem State.endChain_control (s : State) :
    (s.endChain).control.part = s.control.part ∧ (s.endChain).control.flags = s.control.flags ∧
    (s.endChain).control.enables = s.control.enables ∧ (s.endChain).control.mode = s.control.mode ∧
    (s.endChain).control.line = s.control.line ∧ (s.endChain).control.noticeAddr = s.control.noticeAddr ∧
    (s.endChain).control.noticeDatum = s.control.noticeDatum ∧
    (s.endChain).control.noticePending = s.control.noticePending ∧
    (s.endChain).control.capture = s.control.capture ∧ (s.endChain).control.pointer = s.control.pointer ∧
    (s.endChain).control.last = s.control.last ∧ (s.endChain).control.channel = s.control.channel :=
  by simp [State.endChain]

@[simp] theorem State.fire_control (k : Source) (s : State) :
    (s.fire k).control.part = s.control.part ∧ (s.fire k).control.enables = s.control.enables ∧
    (s.fire k).control.mode = s.control.mode ∧ (s.fire k).control.noticeAddr = s.control.noticeAddr ∧
    (s.fire k).control.noticeDatum = s.control.noticeDatum ∧ (s.fire k).control.capture = s.control.capture ∧
    (s.fire k).control.pointer = s.control.pointer ∧ (s.fire k).control.last = s.control.last ∧
    (s.fire k).control.channel = s.control.channel :=
  by dsimp only [State.fire]; (repeat' split) <;> simp

@[simp] theorem State.countSheet_control (s : State) :
    (s.countSheet).control.part = s.control.part ∧ (s.countSheet).control.enables = s.control.enables ∧
    (s.countSheet).control.mode = s.control.mode ∧ (s.countSheet).control.noticeAddr = s.control.noticeAddr ∧
    (s.countSheet).control.noticeDatum = s.control.noticeDatum ∧
    (s.countSheet).control.capture = s.control.capture ∧ (s.countSheet).control.pointer = s.control.pointer ∧
    (s.countSheet).control.last = s.control.last ∧ (s.countSheet).control.channel = s.control.channel :=
  by dsimp only [State.countSheet]; (repeat' split) <;> simp

@[simp] theorem State.writeBack_control (ws : List Word) (o : OrderOutcome) (s : State) :
    (s.writeBack ws o).control.part = s.control.part ∧ (s.writeBack ws o).control.flags = s.control.flags ∧
    (s.writeBack ws o).control.enables = s.control.enables ∧ (s.writeBack ws o).control.mode = s.control.mode ∧
    (s.writeBack ws o).control.line = s.control.line ∧
    (s.writeBack ws o).control.noticeAddr = s.control.noticeAddr ∧
    (s.writeBack ws o).control.noticeDatum = s.control.noticeDatum ∧
    (s.writeBack ws o).control.noticePending = s.control.noticePending ∧
    (s.writeBack ws o).control.capture = s.control.capture ∧
    (s.writeBack ws o).control.pointer = s.control.pointer ∧ (s.writeBack ws o).control.last = s.control.last ∧
    (s.writeBack ws o).control.channel = s.control.channel :=
  by simp [State.writeBack]

@[simp] theorem State.raiseSome_control (f : Option EventFlag) (s : State) :
    (s.raiseSome f).control.part = s.control.part ∧ (s.raiseSome f).control.enables = s.control.enables ∧
    (s.raiseSome f).control.mode = s.control.mode ∧ (s.raiseSome f).control.noticeAddr = s.control.noticeAddr ∧
    (s.raiseSome f).control.noticeDatum = s.control.noticeDatum ∧
    (s.raiseSome f).control.capture = s.control.capture ∧ (s.raiseSome f).control.pointer = s.control.pointer ∧
    (s.raiseSome f).control.last = s.control.last ∧ (s.raiseSome f).control.channel = s.control.channel :=
  by dsimp only [State.raiseSome]; (repeat' split) <;> simp

@[simp] theorem State.orderWritten_control (failed : Bool) (s : State) :
    (s.orderWritten failed).control.part = s.control.part ∧
    (s.orderWritten failed).control.enables = s.control.enables ∧
    (s.orderWritten failed).control.mode = s.control.mode ∧
    (s.orderWritten failed).control.noticeAddr = s.control.noticeAddr ∧
    (s.orderWritten failed).control.noticeDatum = s.control.noticeDatum ∧
    (s.orderWritten failed).control.capture = s.control.capture ∧
    (s.orderWritten failed).control.pointer = s.control.pointer ∧
    (s.orderWritten failed).control.last = s.control.last ∧
    (s.orderWritten failed).control.channel = s.control.channel :=
  by dsimp only [State.orderWritten]; (repeat' split) <;> simp

@[simp] theorem State.fetchFailed_control (s : State) :
    (s.fetchFailed).control.part = s.control.part ∧ (s.fetchFailed).control.enables = s.control.enables ∧
    (s.fetchFailed).control.mode = s.control.mode ∧ (s.fetchFailed).control.noticeAddr = s.control.noticeAddr ∧
    (s.fetchFailed).control.noticeDatum = s.control.noticeDatum ∧
    (s.fetchFailed).control.capture = s.control.capture ∧ (s.fetchFailed).control.pointer = s.control.pointer ∧
    (s.fetchFailed).control.last = s.control.last ∧ (s.fetchFailed).control.channel = s.control.channel :=
  by simp [State.fetchFailed]

@[simp] theorem State.dropRecord_control (y : DropReason) (i : Fin 16) (x : Option Byte) (s : State) :
    (s.dropRecord y i x).control.part = s.control.part ∧
    (s.dropRecord y i x).control.enables = s.control.enables ∧
    (s.dropRecord y i x).control.mode = s.control.mode ∧
    (s.dropRecord y i x).control.noticeAddr = s.control.noticeAddr ∧
    (s.dropRecord y i x).control.noticeDatum = s.control.noticeDatum ∧
    (s.dropRecord y i x).control.capture = s.control.capture ∧
    (s.dropRecord y i x).control.pointer = s.control.pointer ∧
    (s.dropRecord y i x).control.last = s.control.last ∧
    (s.dropRecord y i x).control.channel = s.control.channel :=
  by simp [State.dropRecord]

@[simp] theorem State.correct_control (m : MeasureRec) (t : Tower) (s : State) :
    (s.correct m t).control.part = s.control.part ∧ (s.correct m t).control.flags = s.control.flags ∧
    (s.correct m t).control.enables = s.control.enables ∧ (s.correct m t).control.mode = s.control.mode ∧
    (s.correct m t).control.line = s.control.line ∧ (s.correct m t).control.noticeAddr = s.control.noticeAddr ∧
    (s.correct m t).control.noticeDatum = s.control.noticeDatum ∧
    (s.correct m t).control.noticePending = s.control.noticePending ∧
    (s.correct m t).control.capture = s.control.capture ∧ (s.correct m t).control.pointer = s.control.pointer ∧
    (s.correct m t).control.last = s.control.last ∧ (s.correct m t).control.channel = s.control.channel :=
  by simp [State.correct]

@[simp] theorem State.applyRecord_control (m : MeasureRec) (t : Tower) (s : State) :
    (s.applyRecord m t).control.part = s.control.part ∧
    (s.applyRecord m t).control.enables = s.control.enables ∧
    (s.applyRecord m t).control.mode = s.control.mode ∧
    (s.applyRecord m t).control.noticeAddr = s.control.noticeAddr ∧
    (s.applyRecord m t).control.noticeDatum = s.control.noticeDatum ∧
    (s.applyRecord m t).control.capture = s.control.capture ∧
    (s.applyRecord m t).control.pointer = s.control.pointer ∧
    (s.applyRecord m t).control.last = s.control.last ∧
    (s.applyRecord m t).control.channel = s.control.channel :=
  by simp [State.applyRecord]

@[simp] theorem State.gate_control (i : Fin 16) (m : Option MeasureRec) (s : State) :
    (s.gate i m).control.part = s.control.part ∧ (s.gate i m).control.enables = s.control.enables ∧
    (s.gate i m).control.mode = s.control.mode ∧ (s.gate i m).control.noticeAddr = s.control.noticeAddr ∧
    (s.gate i m).control.noticeDatum = s.control.noticeDatum ∧
    (s.gate i m).control.capture = s.control.capture ∧ (s.gate i m).control.pointer = s.control.pointer ∧
    (s.gate i m).control.last = s.control.last ∧ (s.gate i m).control.channel = s.control.channel :=
  by dsimp only [State.gate]; (repeat' split) <;> simp

@[simp] theorem State.slotRead_control (i : Fin 16) (m : Option MeasureRec) (s : State) :
    (s.slotRead i m).control.part = s.control.part ∧ (s.slotRead i m).control.enables = s.control.enables ∧
    (s.slotRead i m).control.mode = s.control.mode ∧
    (s.slotRead i m).control.noticeAddr = s.control.noticeAddr ∧
    (s.slotRead i m).control.noticeDatum = s.control.noticeDatum ∧
    (s.slotRead i m).control.capture = s.control.capture ∧
    (s.slotRead i m).control.pointer = s.control.pointer ∧ (s.slotRead i m).control.last = s.control.last ∧
    (s.slotRead i m).control.channel = s.control.channel :=
  by simp [State.slotRead]

@[simp] theorem State.takeHello_control (t : Tower) (s : State) :
    (s.takeHello t).control.part = s.control.part ∧ (s.takeHello t).control.enables = s.control.enables ∧
    (s.takeHello t).control.mode = s.control.mode ∧ (s.takeHello t).control.noticeAddr = s.control.noticeAddr ∧
    (s.takeHello t).control.noticeDatum = s.control.noticeDatum ∧
    (s.takeHello t).control.capture = s.control.capture ∧ (s.takeHello t).control.pointer = s.control.pointer ∧
    (s.takeHello t).control.last = s.control.last ∧ (s.takeHello t).control.channel = s.control.channel :=
  by simp [State.takeHello]

@[simp] theorem State.takeAnswer_control (t : Tower) (k : AnswerKind) (key tag : Byte) (p : Nat) (s : State) :
    (s.takeAnswer t k key tag p).control.part = s.control.part ∧
    (s.takeAnswer t k key tag p).control.enables = s.control.enables ∧
    (s.takeAnswer t k key tag p).control.mode = s.control.mode ∧
    (s.takeAnswer t k key tag p).control.noticeAddr = s.control.noticeAddr ∧
    (s.takeAnswer t k key tag p).control.noticeDatum = s.control.noticeDatum ∧
    (s.takeAnswer t k key tag p).control.capture = s.control.capture ∧
    (s.takeAnswer t k key tag p).control.pointer = s.control.pointer ∧
    (s.takeAnswer t k key tag p).control.last = s.control.last ∧
    (s.takeAnswer t k key tag p).control.channel = s.control.channel :=
  by simp [State.takeAnswer]

@[simp] theorem State.takeTimeout_control (t : Tower) (sl : Slot) (s : State) :
    (s.takeTimeout t sl).control.part = s.control.part ∧
    (s.takeTimeout t sl).control.enables = s.control.enables ∧
    (s.takeTimeout t sl).control.mode = s.control.mode ∧
    (s.takeTimeout t sl).control.noticeAddr = s.control.noticeAddr ∧
    (s.takeTimeout t sl).control.noticeDatum = s.control.noticeDatum ∧
    (s.takeTimeout t sl).control.capture = s.control.capture ∧
    (s.takeTimeout t sl).control.pointer = s.control.pointer ∧
    (s.takeTimeout t sl).control.last = s.control.last ∧
    (s.takeTimeout t sl).control.channel = s.control.channel :=
  by dsimp only [State.takeTimeout]; (repeat' split) <;> simp

@[simp] theorem State.deliver_control (f : LinkFrame) (s : State) :
    (s.deliver f).control.part = s.control.part ∧ (s.deliver f).control.enables = s.control.enables ∧
    (s.deliver f).control.mode = s.control.mode ∧ (s.deliver f).control.noticeAddr = s.control.noticeAddr ∧
    (s.deliver f).control.noticeDatum = s.control.noticeDatum ∧
    (s.deliver f).control.capture = s.control.capture ∧ (s.deliver f).control.pointer = s.control.pointer ∧
    (s.deliver f).control.last = s.control.last ∧ (s.deliver f).control.channel = s.control.channel :=
  by dsimp only [State.deliver]; (repeat' split) <;> simp

@[simp] theorem State.assemble_control (bs : List Byte) (s : State) :
    (s.assemble bs).control.part = s.control.part ∧ (s.assemble bs).control.enables = s.control.enables ∧
    (s.assemble bs).control.mode = s.control.mode ∧ (s.assemble bs).control.noticeAddr = s.control.noticeAddr ∧
    (s.assemble bs).control.noticeDatum = s.control.noticeDatum ∧
    (s.assemble bs).control.capture = s.control.capture ∧ (s.assemble bs).control.pointer = s.control.pointer ∧
    (s.assemble bs).control.last = s.control.last ∧ (s.assemble bs).control.channel = s.control.channel :=
  by dsimp only [State.assemble]; (repeat' split) <;> simp

@[simp] theorem State.lineEvent_control (e : LineEvent) (s : State) :
    (s.lineEvent e).control.part = s.control.part ∧ (s.lineEvent e).control.enables = s.control.enables ∧
    (s.lineEvent e).control.mode = s.control.mode ∧ (s.lineEvent e).control.noticeAddr = s.control.noticeAddr ∧
    (s.lineEvent e).control.noticeDatum = s.control.noticeDatum ∧
    (s.lineEvent e).control.capture = s.control.capture ∧ (s.lineEvent e).control.pointer = s.control.pointer ∧
    (s.lineEvent e).control.last = s.control.last ∧ (s.lineEvent e).control.channel = s.control.channel :=
  by dsimp only [State.lineEvent]; (repeat' split) <;> simp

@[simp] theorem State.receive_control (line : List LineEvent) (s : State) :
    (s.receive line).control.part = s.control.part ∧ (s.receive line).control.enables = s.control.enables ∧
    (s.receive line).control.mode = s.control.mode ∧
    (s.receive line).control.noticeAddr = s.control.noticeAddr ∧
    (s.receive line).control.noticeDatum = s.control.noticeDatum ∧
    (s.receive line).control.capture = s.control.capture ∧
    (s.receive line).control.pointer = s.control.pointer ∧ (s.receive line).control.last = s.control.last ∧
    (s.receive line).control.channel = s.control.channel :=
  by
  induction line generalizing s with
  | nil => simp [State.receive]
  | cons e line ih =>
    have h := ih (s.lineEvent e)
    simp only [State.lineEvent_control] at h
    exact h

@[simp] theorem State.refuseFold_control (a : Access) (s : State) :
    (s.refuseFold a).control.part = s.control.part ∧ (s.refuseFold a).control.enables = s.control.enables ∧
    (s.refuseFold a).control.mode = s.control.mode ∧ (s.refuseFold a).control.noticeAddr = s.control.noticeAddr ∧
    (s.refuseFold a).control.noticeDatum = s.control.noticeDatum ∧
    (s.refuseFold a).control.pointer = s.control.pointer ∧ (s.refuseFold a).control.last = s.control.last ∧
    (s.refuseFold a).control.channel = s.control.channel :=
  by simp [State.refuseFold]

@[simp] theorem State.takeFold_control (a : Access) (s : State) :
    (s.takeFold a).control.part = s.control.part ∧ (s.takeFold a).control.enables = s.control.enables ∧
    (s.takeFold a).control.mode = s.control.mode ∧ (s.takeFold a).control.noticeAddr = s.control.noticeAddr ∧
    (s.takeFold a).control.noticeDatum = s.control.noticeDatum ∧
    (s.takeFold a).control.pointer = s.control.pointer ∧ (s.takeFold a).control.last = s.control.last ∧
    (s.takeFold a).control.channel = s.control.channel :=
  by dsimp only [State.takeFold]; (repeat' split) <;> simp

@[simp] theorem State.takeWaiter_control (x : BusAccess) (s : State) :
    (s.takeWaiter x).control.part = s.control.part ∧ (s.takeWaiter x).control.enables = s.control.enables ∧
    (s.takeWaiter x).control.mode = s.control.mode ∧ (s.takeWaiter x).control.noticeAddr = s.control.noticeAddr ∧
    (s.takeWaiter x).control.noticeDatum = s.control.noticeDatum ∧
    (s.takeWaiter x).control.pointer = s.control.pointer ∧ (s.takeWaiter x).control.last = s.control.last ∧
    (s.takeWaiter x).control.channel = s.control.channel :=
  by dsimp only [State.takeWaiter]; (repeat' split) <;> simp

@[simp] theorem State.takeWaiting_control (l : List MasterClass) (s : State) :
    (State.takeWaiting l s).control.part = s.control.part ∧
    (State.takeWaiting l s).control.enables = s.control.enables ∧
    (State.takeWaiting l s).control.mode = s.control.mode ∧
    (State.takeWaiting l s).control.noticeAddr = s.control.noticeAddr ∧
    (State.takeWaiting l s).control.noticeDatum = s.control.noticeDatum ∧
    (State.takeWaiting l s).control.pointer = s.control.pointer ∧
    (State.takeWaiting l s).control.last = s.control.last ∧
    (State.takeWaiting l s).control.channel = s.control.channel :=
  by
  induction l generalizing s with
  | nil => simp [State.takeWaiting]
  | cons c l ih => simp only [State.takeWaiting]; (repeat' split) <;> simp_all

@[simp] theorem State.emptyLatch_control (s : State) :
    (s.emptyLatch).control.part = s.control.part ∧ (s.emptyLatch).control.enables = s.control.enables ∧
    (s.emptyLatch).control.mode = s.control.mode ∧ (s.emptyLatch).control.noticeAddr = s.control.noticeAddr ∧
    (s.emptyLatch).control.noticeDatum = s.control.noticeDatum ∧
    (s.emptyLatch).control.pointer = s.control.pointer ∧ (s.emptyLatch).control.last = s.control.last ∧
    (s.emptyLatch).control.channel = s.control.channel :=
  by simp [State.emptyLatch]

@[simp] theorem State.completed_control (ws : List PortWord) (x : List MemAnswer) (d : Bool) (s : State) :
    (s.completed ws x d).control.part = s.control.part ∧
    (s.completed ws x d).control.enables = s.control.enables ∧
    (s.completed ws x d).control.mode = s.control.mode ∧
    (s.completed ws x d).control.noticeAddr = s.control.noticeAddr ∧
    (s.completed ws x d).control.noticeDatum = s.control.noticeDatum ∧
    (s.completed ws x d).control.capture = s.control.capture ∧
    (s.completed ws x d).control.pointer = s.control.pointer ∧
    (s.completed ws x d).control.last = s.control.last ∧
    (s.completed ws x d).control.channel = s.control.channel :=
  by simp [State.completed]

@[simp] theorem State.withdrawMirror_control (w : CtlWord) (s : State) :
    (s.withdrawMirror w).control.part = s.control.part ∧ (s.withdrawMirror w).control.flags = s.control.flags ∧
    (s.withdrawMirror w).control.enables = s.control.enables ∧
    (s.withdrawMirror w).control.mode = s.control.mode ∧ (s.withdrawMirror w).control.line = s.control.line ∧
    (s.withdrawMirror w).control.noticeAddr = s.control.noticeAddr ∧
    (s.withdrawMirror w).control.noticeDatum = s.control.noticeDatum ∧
    (s.withdrawMirror w).control.noticePending = s.control.noticePending ∧
    (s.withdrawMirror w).control.capture = s.control.capture ∧
    (s.withdrawMirror w).control.mirror = s.control.mirror ∧
    (s.withdrawMirror w).control.pointer = s.control.pointer ∧
    (s.withdrawMirror w).control.last = s.control.last :=
  by dsimp only [State.withdrawMirror]; (repeat' split) <;> simp

end Sys2Proof.Machine
end

