-- ==== Sys2Proof/Laws/Memory.lean ====
section
/-! SUPPORT. Job memory: every operation keeps the canonical form, and a byte reads as it was last written. -/

namespace Sys2Proof.Machine

/-- Below the bound of a list in canonical form nothing is listed. -/
theorem Memory.byte_below {b : Nat} {m : List Host.Cell} (h : Memory.wfAbove (some b) m = true) {x : Nat}
    (hx : x ≤ b) : Memory.byte m x = unlistedByte := by
  induction m generalizing b with
  | nil => rfl
  | cons c m ih =>
    simp only [Memory.wfAbove, Bool.and_eq_true, decide_eq_true_eq] at h
    simp only [Memory.byte]
    rw [if_neg (by omega)]
    exact ih h.2 (by omega)

/-- A list in canonical form above a bound is so above every smaller bound. -/
theorem Memory.wfAbove_mono {b c : Nat} {m : List Host.Cell} (h : Memory.wfAbove (some b) m = true) (hc : c ≤ b) :
    Memory.wfAbove (some c) m = true := by
  cases m with
  | nil => rfl
  | cons d m =>
    simp only [Memory.wfAbove, Bool.and_eq_true, decide_eq_true_eq] at h ⊢
    exact ⟨⟨by omega, h.1.2⟩, h.2⟩

/-- Putting a cell in front keeps the canonical form. -/
theorem Memory.wfAbove_cons {lo : Option Nat} {a : Nat} {v : Byte} {m : List Host.Cell}
    (h : Memory.wfAbove (some a) m = true) (hl : ∀ b, lo = some b → b < a) :
    Memory.wfAbove lo (Memory.cons a v m) = true := by
  unfold Memory.cons
  split
  · cases lo with
    | none =>
      cases m with
      | nil => rfl
      | cons d m =>
        simp only [Memory.wfAbove, Bool.and_eq_true] at h ⊢
        exact ⟨⟨trivial, h.1.2⟩, h.2⟩
    | some b => exact Memory.wfAbove_mono h (by have := hl b rfl; omega)
  · simp only [Memory.wfAbove, Bool.and_eq_true, bne_iff_ne, ne_eq]
    refine ⟨⟨?_, by assumption⟩, h⟩
    cases lo with
    | none => rfl
    | some b => simpa using hl b rfl

/-- Writing a byte keeps the canonical form above a bound. -/
theorem Memory.wfAbove_put {lo : Option Nat} {m : List Host.Cell} (h : Memory.wfAbove lo m = true) {a : Nat}
    (v : Byte) (hl : ∀ b, lo = some b → b < a) : Memory.wfAbove lo (Memory.put m a v) = true := by
  induction m generalizing lo with
  | nil => exact Memory.wfAbove_cons rfl hl
  | cons c m ih =>
    have hc : Memory.wfAbove (some c.1) m = true := by
      simp only [Memory.wfAbove, Bool.and_eq_true] at h; exact h.2
    simp only [Memory.put]
    split
    · rename_i hlt
      refine Memory.wfAbove_cons ?_ hl
      simp only [Memory.wfAbove, Bool.and_eq_true, decide_eq_true_eq] at h ⊢
      exact ⟨⟨hlt, h.1.2⟩, h.2⟩
    · split
      · rename_i he; exact Memory.wfAbove_cons (he ▸ hc) hl
      · simp only [Memory.wfAbove, Bool.and_eq_true] at h ⊢
        exact ⟨h.1, ih hc (by intro b hb; cases hb; omega)⟩

/-- A byte reads as it was written, and every other address as before. -/
theorem Memory.byte_put {lo : Option Nat} {m : List Host.Cell} (h : Memory.wfAbove lo m = true) (a : Nat) (v : Byte)
    (x : Nat) : Memory.byte (Memory.put m a v) x = if x = a then v else Memory.byte m x := by
  induction m generalizing lo with
  | nil =>
    simp only [Memory.put, Memory.cons]
    split
    · rename_i h1; simp only [Memory.byte]; split <;> simp_all
    · simp only [Memory.byte]
      split
      · rename_i h1; simp [h1]
      · rename_i h1; rw [if_neg (fun e => h1 e.symm)]
  | cons c m ih =>
    have hc : Memory.wfAbove (some c.1) m = true := by
      simp only [Memory.wfAbove, Bool.and_eq_true] at h; exact h.2
    simp only [Memory.put]
    split
    · rename_i hlt
      have hw : Memory.wfAbove (some a) (c :: m) = true := by
        simp only [Memory.wfAbove, Bool.and_eq_true, decide_eq_true_eq] at h ⊢
        exact ⟨⟨hlt, h.1.2⟩, h.2⟩
      unfold Memory.cons
      split
      · split
        · rename_i h1 h2; rw [h2, Memory.byte_below hw (Nat.le_refl a), h1]
        · rfl
      · rw [Memory.byte]; simp only []
        split
        · rename_i h1; simp [h1]
        · rename_i h1; rw [if_neg (fun e => h1 e.symm)]
    · split
      · rename_i hn he
        unfold Memory.cons
        split
        · rename_i hv
          split
          · rename_i hx; rw [hx, he, Memory.byte_below hc (Nat.le_refl _), hv]
          · rename_i hx; simp only [Memory.byte]; rw [if_neg (by omega)]
        · simp only [Memory.byte]
          split
          · rename_i h1; simp [h1]
          · rename_i h1; rw [if_neg (fun e => h1 e.symm), if_neg (by omega)]
      · rename_i hn he
        simp only [Memory.byte]
        split
        · rename_i h1; rw [if_neg (by omega)]
        · exact ih hc

/-- Writing a byte keeps the canonical form. -/
theorem Memory.wf_put {m : List Host.Cell} (h : Memory.wf m = true) (a : Nat) (v : Byte) :
    Memory.wf (Memory.put m a v) = true := Memory.wfAbove_put h v (by intro b hb; cases hb)

/-- Writing one byte of a word keeps the canonical form. -/
theorem Memory.wf_lane {m : List Host.Cell} (h : Memory.wf m = true) (a : Nat) (be : BitVec 4) (d : Word) (b : Nat) :
    Memory.wf (Memory.lane m a be d b) = true := by
  unfold Memory.lane
  split
  · exact Memory.wf_put h _ _
  · exact h

/-- Writing a word keeps the canonical form. -/
theorem Memory.wf_write {m : List Host.Cell} (h : Memory.wf m = true) (a : Nat) (be : BitVec 4) (d : Word) :
    Memory.wf (Memory.write m a be d) = true :=
  Memory.wf_lane (Memory.wf_lane (Memory.wf_lane (Memory.wf_lane h _ _ _ _) _ _ _ _) _ _ _ _) _ _ _ _

/-- An answered word keeps the canonical form. -/
theorem Memory.wf_answer {m : List Host.Cell} (h : Memory.wf m = true) (w : PortWord) (x : MemAnswer) :
    Memory.wf (Memory.answer m w x) = true := by
  unfold Memory.answer
  split
  · exact Memory.wf_write h _ _ _
  · exact h

/-- The answered words of a request keep the canonical form. -/
theorem Memory.wf_answers {m : List Host.Cell} (h : Memory.wf m = true) (ws : List PortWord) (xs : List MemAnswer) :
    Memory.wf (Memory.answers m ws xs) = true := by
  induction ws generalizing m xs with
  | nil => exact h
  | cons w ws ih =>
    cases xs with
    | nil => exact h
    | cons x xs => exact ih (Memory.wf_answer h w x) xs

/-- A pin reset keeps the canonical form. -/
theorem Memory.wf_memOverReset {m : List Host.Cell} (h : Memory.wf m = true) (p : Option PortHolder) (l : BitVec 2) :
    Memory.wf (memOverReset m p l) = true := by
  have key : ∀ (ps : List (PortWord × Bool)) (m : List Host.Cell), Memory.wf m = true →
      Memory.wf (ps.foldl landWord m) = true := by
    intro ps
    induction ps with
    | nil => intro m h; exact h
    | cons q ps ih => intro m h; exact ih _ (Memory.wf_answer h q.1 _)
  unfold memOverReset
  split
  · exact key _ _ h
  · exact h

/-- One byte of a word written: the byte changes when its enable is set. -/
theorem Memory.byte_lane {m : List Host.Cell} (h : Memory.wf m = true) (a : Nat) (be : BitVec 4) (d : Word)
    (b x : Nat) : Memory.byte (Memory.lane m a be d b) x
      = if x = a + b ∧ be.getLsbD b = true then byteOf d b else Memory.byte m x := by
  unfold Memory.lane
  split
  · rename_i hb; rw [Memory.byte_put h]; simp [hb]
  · rename_i hb; simp [hb]

/-- Outside its four bytes a word write changes nothing. -/
theorem Memory.byte_write_outside {m : List Host.Cell} (h : Memory.wf m = true) (a : Nat) (be : BitVec 4) (d : Word)
    {x : Nat} (hx : x < a ∨ a + 4 ≤ x) : Memory.byte (Memory.write m a be d) x = Memory.byte m x := by
  unfold Memory.write
  rw [Memory.byte_lane (Memory.wf_lane (Memory.wf_lane (Memory.wf_lane h _ _ _ _) _ _ _ _) _ _ _ _), if_neg (by omega),
    Memory.byte_lane (Memory.wf_lane (Memory.wf_lane h _ _ _ _) _ _ _ _), if_neg (by omega),
    Memory.byte_lane (Memory.wf_lane h _ _ _ _), if_neg (by omega), Memory.byte_lane h, if_neg (by omega)]

/-- A word write of byte b: the enabled byte takes its value, a byte not enabled stays. -/
theorem Memory.byte_write {m : List Host.Cell} (h : Memory.wf m = true) (a : Nat) (be : BitVec 4) (d : Word) {b : Nat}
    (hb : b < 4) : Memory.byte (Memory.write m a be d) (a + b)
      = if be.getLsbD b = true then byteOf d b else Memory.byte m (a + b) := by
  unfold Memory.write
  rw [Memory.byte_lane (Memory.wf_lane (Memory.wf_lane (Memory.wf_lane h _ _ _ _) _ _ _ _) _ _ _ _),
    Memory.byte_lane (Memory.wf_lane (Memory.wf_lane h _ _ _ _) _ _ _ _),
    Memory.byte_lane (Memory.wf_lane h _ _ _ _), Memory.byte_lane h]
  have : b = 0 ∨ b = 1 ∨ b = 2 ∨ b = 3 := by omega
  rcases this with rfl | rfl | rfl | rfl <;> simp

/-- Words that are read leave memory as it is, whatever their answers. -/
theorem Memory.answers_read (m : List Host.Cell) (ws : List PortWord) (xs : List MemAnswer)
    (h : ∀ w ∈ ws, w.dir = .read) : Memory.answers m ws xs = m := by
  induction ws generalizing xs with
  | nil => rfl
  | cons w ws ih =>
    cases xs with
    | nil => rfl
    | cons x xs =>
      have e : Memory.answer m w x = m := by simp [Memory.answer, h w (by simp)]
      rw [Memory.answers, e]
      exact ih xs (fun v hv => h v (by simp [hv]))

end Sys2Proof.Machine
end

