-- ==== Sys2Proof/Laws/Events.lean ====
section
/-! SUPPORT. One lemma for each operation that every event ends with or goes through: a tower replaced, the
transmitter's search, the channel's offer, the arrival of an access. -/

namespace Sys2Proof.Machine

/-! ### One value per class, bank, source -/

@[simp] theorem PerClass.get_put {α : Type} (p : PerClass α) (c d : MasterClass) (x : α) :
    (p.put c x).get d = if d = c then x else p.get d := by
  cases c <;> cases d <;> rfl

@[simp] theorem PerBank.get_put {α : Type} (p : PerBank α) (c d : BankId) (x : α) :
    (p.put c x).get d = if d = c then x else p.get d := by
  cases c <;> cases d <;> rfl

@[simp] theorem PerSource.get_put {α : Type} (p : PerSource α) (c d : Source) (x : α) :
    (p.put c x).get d = if d = c then x else p.get d := by
  cases c <;> cases d <;> rfl

/-! ### Towers -/

/-- A tower after one has been replaced. -/
theorem State.putTower_get (s : State) (t u : Tower) (tw : TowerState) :
    (s.putTower t tw).towers[u] = if u = t then tw else s.towers[u] := by
  simp only [State.putTower, Fin.getElem_fin, Vector.getElem_set]
  by_cases h : u = t
  · simp [h]
  · rw [if_neg (fun e => h (Fin.ext e.symm)), if_neg h]

/-- A tower replaced by itself. -/
theorem State.putTower_self (s : State) (t : Tower) : s.putTower t s.towers[t] = s := by
  unfold State.putTower
  simp

/-- A tower after one has been changed. -/
theorem State.modTower_get (s : State) (t u : Tower) (f : TowerState → TowerState) :
    (s.modTower t f).towers[u] = if u = t then f s.towers[t] else s.towers[u] := by
  simp only [State.modTower, State.putTower_get]

/-- A tower after several have been changed: once each, when the list names no tower twice. -/
theorem State.modTowers_get (f : TowerState → TowerState) (ts : List Tower) (h : ts.Nodup) (s : State) (u : Tower) :
    (s.modTowers f ts).towers[u] = if u ∈ ts then f s.towers[u] else s.towers[u] := by
  induction ts generalizing s with
  | nil => simp [State.modTowers]
  | cons t ts ih =>
    have hn := List.nodup_cons.mp h
    have := ih hn.2 (s.modTower t f)
    rw [State.modTower_get] at this
    show (State.modTowers f ts (s.modTower t f)).towers[u] = _
    rw [this]
    by_cases hu : u = t
    · subst hu; simp [hn.1]
    · simp [hu]

/-- The list of all towers names each once. -/
theorem allTowers_nodup : allTowers.Nodup := List.nodup_finRange 12

@[simp] theorem mem_allTowers (t : Tower) : t ∈ allTowers := List.mem_finRange t

@[simp] theorem mem_allSlots (sl : Slot) : sl ∈ allSlots := List.mem_finRange sl

/-- A record after one has been changed. -/
theorem TowerState.mod_get (tw : TowerState) (sl u : Slot) (f : KeyRec → KeyRec) :
    (tw.mod sl f).recs[u] = if u = sl then f tw.recs[sl] else tw.recs[u] := by
  simp only [TowerState.mod, Fin.getElem_fin, Vector.getElem_set]
  by_cases h : u = sl
  · simp [h]
  · rw [if_neg (fun e => h (Fin.ext e.symm)), if_neg h]

/-- The record that was changed. -/
theorem TowerState.mod_self (tw : TowerState) (sl : Slot) (f : KeyRec → KeyRec) :
    (tw.mod sl f).recs[sl] = f tw.recs[sl] :=
  (TowerState.mod_get tw sl sl f).trans (if_pos rfl)

/-- A record that was not changed. -/
theorem TowerState.mod_other (tw : TowerState) (sl u : Slot) (f : KeyRec → KeyRec) (h : u ≠ sl) :
    (tw.mod sl f).recs[u] = tw.recs[u] :=
  (TowerState.mod_get tw sl u f).trans (if_neg h)

/-- Changing one record changes nothing else of the tower. -/
@[simp] theorem TowerState.mod_keeps (tw : TowerState) (sl : Slot) (f : KeyRec → KeyRec) :
    (tw.mod sl f).service = tw.service ∧ (tw.mod sl f).parkHold = tw.parkHold ∧ (tw.mod sl f).cfg = tw.cfg ∧
    (tw.mod sl f).queue = tw.queue ∧ (tw.mod sl f).flight = tw.flight ∧
    (tw.mod sl f).tagCounter = tw.tagCounter ∧ (tw.mod sl f).timeouts = tw.timeouts ∧
    (tw.mod sl f).loop = tw.loop ∧ (tw.mod sl f).settle = tw.settle ∧ (tw.mod sl f).settings = tw.settings ∧
    (tw.mod sl f).address = tw.address ∧ (tw.mod sl f).haltPending = tw.haltPending ∧
    (tw.mod sl f).queryPending = tw.queryPending :=
  ⟨rfl, rfl, rfl, rfl, rfl, rfl, rfl, rfl, rfl, rfl, rfl, rfl, rfl⟩

/-! ### The transmitter's search -/

/-- What a service leaves of a tower: everything but its pending frames and the dispatched key's movement. -/
def TowerState.sameUnder (tw tv : TowerState) : Prop :=
  tv.service = tw.service ∧ tv.parkHold = tw.parkHold ∧ tv.cfg = tw.cfg ∧ tv.timeouts = tw.timeouts
    ∧ tv.loop = tw.loop ∧ tv.settle = tw.settle ∧ tv.settings = tw.settings ∧ tv.address = tw.address
    ∧ ∀ sl : Slot, (tv.recs[sl]).values = (tw.recs[sl]).values ∧ (tv.recs[sl]).reported = (tw.recs[sl]).reported
      ∧ (tv.recs[sl]).tries = (tw.recs[sl]).tries ∧ (tv.recs[sl]).fault = (tw.recs[sl]).fault

theorem TowerState.sameUnder_refl (tw : TowerState) : tw.sameUnder tw :=
  ⟨rfl, rfl, rfl, rfl, rfl, rfl, rfl, rfl, fun _ => ⟨rfl, rfl, rfl, rfl⟩⟩

theorem TowerState.sameUnder_dispatch (tw : TowerState) (n : Nat) (sl : Slot) :
    tw.sameUnder (tw.dispatch n sl) := by
  refine ⟨rfl, rfl, rfl, rfl, rfl, rfl, rfl, rfl, fun u => ?_⟩
  have : (tw.dispatch n sl).recs[u] = (tw.mod sl (dispatchRec tw.tagCounter n)).recs[u] := rfl
  rw [this, TowerState.mod_get]
  split
  · rename_i h; subst h; exact ⟨rfl, rfl, rfl, rfl⟩
  · exact ⟨rfl, rfl, rfl, rfl⟩

/-- What one service makes of the tower it serves, with the move timeout n. -/
def TowerState.served (n : Nat) (tw tv : TowerState) : Prop :=
  tv = { tw with haltPending := false } ∨ tv = { tw with queryPending := false }
    ∨ ∃ sl, tw.dispatchable = some sl ∧ tv = tw.dispatch n sl

/-- A service serves one tower, or leaves every tower alone. -/
theorem State.serve_served (s : State) (t : Tower) :
    (s.serve t).towers = s.towers
      ∨ ∃ tv, (s.towers[t]).served s.timeout tv
        ∧ ∀ u : Tower, (s.serve t).towers[u] = if u = t then tv else s.towers[u] := by
  have key : ∀ (tv : TowerState) (l : List Byte) (u : Tower),
      ((s.putTower t tv).transmit t l).towers[u] = if u = t then tv else s.towers[u] := by
    intro tv l u
    rw [(State.transmit_keeps t l _).2.2.2.2.2.2.2.2.1, State.putTower_get]
  unfold State.serve
  dsimp only
  split
  · exact Or.inr ⟨_, Or.inl rfl, key _ _⟩
  · split
    · exact Or.inr ⟨_, Or.inr (Or.inl rfl), key _ _⟩
    · split
      · exact Or.inl rfl
      · exact Or.inr ⟨_, Or.inr (Or.inr ⟨_, by assumption, rfl⟩), key _ _⟩

/-- What every event ends with serves one tower, or leaves every tower alone. -/
theorem State.settle_served (s0 s : State) :
    (State.settle s0 s).towers = s.towers
      ∨ ∃ t tv, (s.towers[t]).served s.timeout tv
        ∧ ∀ u : Tower, (State.settle s0 s).towers[u] = if u = t then tv else s.towers[u] := by
  unfold State.settle
  rw [(State.offerChannel_keeps _).2.2.2.2.2.2.2.1]
  unfold State.searchIfChanged
  split
  · unfold State.search
    split
    · exact Or.inl rfl
    · rename_i t _
      rcases State.serve_served s t with h | ⟨tv, h1, h2⟩
      · exact Or.inl h
      · exact Or.inr ⟨t, tv, h1, h2⟩
  · exact Or.inl rfl

/-- What every event ends with leaves every tower as it was but for its pending frames and the dispatched key's
movement. -/
theorem State.settle_tower (s0 s : State) (u : Tower) : (s.towers[u]).sameUnder (State.settle s0 s).towers[u] := by
  rcases State.settle_served s0 s with h | ⟨t, tv, h1, h2⟩
  · rw [h]; exact TowerState.sameUnder_refl _
  · rw [h2 u]
    split
    · rename_i e
      rw [e]
      rcases h1 with h1 | h1 | ⟨x, _, h3⟩
      · rw [h1]; exact ⟨rfl, rfl, rfl, rfl, rfl, rfl, rfl, rfl, fun _ => ⟨rfl, rfl, rfl, rfl⟩⟩
      · rw [h1]; exact ⟨rfl, rfl, rfl, rfl, rfl, rfl, rfl, rfl, fun _ => ⟨rfl, rfl, rfl, rfl⟩⟩
      · rw [h3]; exact TowerState.sameUnder_dispatch _ _ _
    · exact TowerState.sameUnder_refl _

/-- A record after what every event ends with: as it was, or dispatched as the head of its tower's queue. -/
theorem State.settle_rec (s0 s : State) (u : Tower) (sl : Slot) :
    ((State.settle s0 s).towers[u]).recs[sl] = (s.towers[u]).recs[sl]
      ∨ ((s.towers[u]).dispatchable = some sl
        ∧ ((State.settle s0 s).towers[u]).recs[sl]
          = dispatchRec (s.towers[u]).tagCounter s.timeout (s.towers[u]).recs[sl]) := by
  rcases State.settle_served s0 s with h | ⟨t, tv, h1, h2⟩
  · exact Or.inl (by rw [h])
  · rw [h2 u]
    by_cases hu : u = t
    · subst hu
      rw [if_pos rfl]
      rcases h1 with h1 | h1 | ⟨x, h1, h3⟩
      · exact Or.inl (by rw [h1])
      · exact Or.inl (by rw [h1])
      · by_cases hx : sl = x
        · subst hx
          exact Or.inr ⟨h1, by rw [h3]; exact TowerState.mod_self _ _ _⟩
        · exact Or.inl (by rw [h3]; exact TowerState.mod_other _ _ _ _ hx)
    · rw [if_neg hu]
      exact Or.inl rfl

/-- A dispatch leaves a tower's moves at rest or not, as they were. -/
theorem TowerState.dispatch_atRest (tw : TowerState) (n : Nat) (sl : Slot) (h : tw.dispatchable = some sl) :
    (tw.dispatch n sl).atRest = tw.atRest := by
  have hq : tw.queue ≠ [] := by
    intro e
    simp [TowerState.dispatchable, e] at h
  show ((tw.queue.drop 1).isEmpty && (tw.flight ++ [sl]).isEmpty) = (tw.queue.isEmpty && tw.flight.isEmpty)
  cases hl : tw.queue with
  | nil => exact absurd hl hq
  | cons _ _ => simp

/-- What every event ends with leaves every tower's moves at rest or not, as they were. -/
theorem State.settle_atRest (s0 s : State) (u : Tower) :
    ((State.settle s0 s).towers[u]).atRest = (s.towers[u]).atRest := by
  rcases State.settle_served s0 s with h | ⟨t, tv, h1, h2⟩
  · rw [h]
  · rw [h2 u]
    split
    · rename_i e
      rw [e]
      rcases h1 with h1 | h1 | ⟨x, h1, h3⟩
      · rw [h1]; rfl
      · rw [h1]; rfl
      · rw [h3, TowerState.dispatch_atRest _ _ _ h1]
    · rfl

/-- An event that leaves every tower alone makes no search. -/
theorem State.settle_of_towers {s0 s : State} (h : s.towers = s0.towers) : State.settle s0 s = s.offerChannel := by
  unfold State.settle State.searchIfChanged State.linkView
  rw [h]
  simp

/-- What the transmitter looks at is what it looks at in each tower. -/
theorem State.linkView_eq {s0 s : State} (h : ∀ t : Tower, (s.towers[t]).linkView = (s0.towers[t]).linkView) :
    s.linkView = s0.linkView := by
  unfold State.linkView
  apply List.ext_getElem
  · simp
  · intro i h1 h2
    have hi : i < 12 := by simpa using h1
    simpa using h ⟨i, hi⟩

/-- An event that changes nothing the transmitter looks at makes no search. -/
theorem State.settle_of_view {s0 s : State} (h : ∀ t : Tower, (s.towers[t]).linkView = (s0.towers[t]).linkView) :
    State.settle s0 s = s.offerChannel := by
  unfold State.settle State.searchIfChanged
  rw [State.linkView_eq h, if_neg (fun e => e.2 rfl)]

/-- An event that ends with the transmitter not IDLE makes no search. -/
theorem State.settle_of_tx {s0 s : State} (h : s.link.tx ≠ .idle) : State.settle s0 s = s.offerChannel := by
  unfold State.settle State.searchIfChanged
  rw [if_neg (fun e => h e.1)]

/-! ### The port under the offers -/

/-- An offer adds to the queue and changes nothing else of the port. -/
@[simp] theorem State.offer_port (s : State) (r : IReq) :
    (s.offer r).port.holder = s.port.holder ∧ (s.offer r).port.pointer = s.port.pointer ∧
    (s.offer r).port.passOver = s.port.passOver ∧ (s.offer r).port.limit = s.port.limit ∧
    (s.offer r).port.queue = s.port.queue ++ [r] :=
  ⟨rfl, rfl, rfl, rfl, rfl⟩

theorem State.samePort_refl (s : State) : s.samePort s := ⟨rfl, rfl, rfl, rfl, List.prefix_rfl⟩

theorem State.samePort_trans {s t u : State} (h : s.samePort t) (k : t.samePort u) : s.samePort u :=
  ⟨k.1.trans h.1, k.2.1.trans h.2.1, k.2.2.1.trans h.2.2.1, k.2.2.2.1.trans h.2.2.2.1,
    h.2.2.2.2.trans k.2.2.2.2⟩

theorem State.samePort_of_eq {s t : State} (h : t.port = s.port) : s.samePort t := by
  unfold State.samePort
  rw [h]
  exact ⟨rfl, rfl, rfl, rfl, List.prefix_rfl⟩

theorem State.samePort_offer (s : State) (r : IReq) : s.samePort (s.offer r) :=
  ⟨rfl, rfl, rfl, rfl, List.prefix_append _ _⟩

theorem State.samePort_offerOn (s : State) (c : ChannelReq) (r : IReq) : s.samePort (s.offerOn c r) :=
  ⟨rfl, rfl, rfl, rfl, List.prefix_append _ _⟩

theorem State.samePort_offerMirror (s : State) : s.samePort s.offerMirror := by
  unfold State.offerMirror
  split
  · exact ⟨rfl, rfl, rfl, rfl, List.prefix_append _ _⟩
  · exact State.samePort_refl s

theorem State.samePort_offerChannel (s : State) : s.samePort s.offerChannel := by
  unfold State.offerChannel
  split
  · exact State.samePort_refl s
  · split
    · exact State.samePort_offerOn _ _ _
    · split
      · exact State.samePort_offerOn _ _ _
      · exact State.samePort_offerMirror s

theorem State.samePort_settle (s0 s : State) : s.samePort (State.settle s0 s) := by
  unfold State.settle
  exact State.samePort_trans (State.samePort_of_eq (State.searchIfChanged_keeps s0 s).2.2.2.2.2.1)
    (State.samePort_offerChannel _)

/-! ### The arrival of an access -/

/-- What the control unit offers reads the control unit, the loader and the windows alone: over two states that agree
on these, and on the port but for its holder, it leaves control unit and port the same, but for that holder (R161). -/
theorem State.offerChannel_congr {s s1 : State} (hc : s1.control = s.control) (hl : s1.loader = s.loader)
    (hw : s1.windows = s.windows) (h : Option PortHolder) (hp : s1.port = { s.port with holder := h }) :
    s1.offerChannel.control = s.offerChannel.control
      ∧ s1.offerChannel.port = { s.offerChannel.port with holder := h } := by
  unfold State.offerChannel State.nextPreload State.offerMirror State.offerOn State.offer
  rw [hc, hl, hw]
  repeat' split
  all_goals simp_all

/-- An event that leaves towers, control unit, port, loader and windows alone ends with the control unit's offer and
nothing else of the control unit and the port (R161). -/
theorem State.settle_sameControl {s s1 : State} (ht : s1.towers = s.towers) (hc : s1.control = s.control)
    (hp : s1.port = s.port) (hl : s1.loader = s.loader) (hw : s1.windows = s.windows) :
    s.sameControl (State.settle s s1) := by
  rw [State.settle_of_towers ht]
  have h := State.offerChannel_congr hc hl hw s.port.holder (by rw [hp])
  refine ⟨h.1, h.2.trans ?_⟩
  have e : s.offerChannel.port.holder = s.port.holder := (State.samePort_offerChannel s).1
  rw [← e]

/-- An access of a class with none in progress that is in no window is plain. -/
theorem State.arrive_none {s : State} {a : Access} (h : s.bus.get a.cls = none) (hw : s.windowOf a = none) :
    s.arrive a = s.claim a .plain := by
  simp [State.arrive, h, hw]

/-- An access of a class with none in progress in a window is decided there. -/
theorem State.arrive_some {s : State} {a : Access} {w : Window} (h : s.bus.get a.cls = none)
    (hw : s.windowOf a = some w) : s.arrive a = s.decideAccess w a := by
  simp [State.arrive, h, hw]

/-- A matched full-word write is handed over to the window's owner. -/
theorem State.arrive_matched {s : State} {k : WindowKind} {w : Window} {cls : MasterClass} {addr : Addr} {d : Word}
    (h : s.matched k w (fullWrite cls addr d)) (hk : checksShape k = true) :
    s.arrive (fullWrite cls addr d) = s.handOver w (fullWrite cls addr d) := by
  obtain ⟨h1, h2, h3, h4, h5, h6⟩ := h
  rw [State.arrive_some h1 h2]
  subst h3
  have hf : Access.full (fullWrite cls addr d) = true := rfl
  simp only [State.decideAccess, h4, h5, h6, hk, hf, if_true, Bool.false_eq_true, if_false, and_self]

/-- A command that reaches its control word is taken. -/
theorem State.arrive_command {s : State} {cls : MasterClass} {addr : Addr} {d : Word} {w : CtlWord}
    (h : s.admitsCommand cls addr d w) :
    s.arrive (fullWrite cls addr d) = s.takeCommand (fullWrite cls addr d) w := by
  obtain ⟨ho, win, hm, hw⟩ := h
  rw [State.arrive_matched hm rfl]
  have : win.kind = .control := hm.2.2.1
  have hw' : (Fin.ofNat 32 (((fullWrite cls addr d).addr.toNat - win.base) / 4) : CtlWord) = w := hw
  simp only [State.handOver, this, hw', ho, if_true]

end Sys2Proof.Machine
end

