-- ==== Sys2Proof/Laws/Coverage.lean ====
section
/-! SUPPORT. The coverage unit's operations, and the flag an event raises. -/

namespace Sys2Proof.Machine

/-- A raise sets its flag beside those that are set. -/
theorem Control.raise_flags (f : EventFlag) (c : Control) :
    (c.raise f).flags = c.flags ||| BitVec.twoPow 14 (flagBit f) := by
  unfold Control.raise
  split
  · rename_i h
    apply BitVec.eq_of_getLsbD_eq
    intro i _
    rw [BitVec.getLsbD_or, BitVec.getLsbD_twoPow]
    by_cases e : i = flagBit f
    · subst e; simp [h]
    · have : (flagBit f == i) = false := by simpa using fun h => e h.symm
      simp_all
  · simp

theorem State.raise_flags (f : EventFlag) (s : State) :
    (s.raise f).control.flags = s.control.flags ||| BitVec.twoPow 14 (flagBit f) :=
  Control.raise_flags f s.control

/-- Making folds void changes the latch alone. -/
@[simp] theorem Coverage.voidFold_keeps (p : Fold → Bool) (b : Bool) (c : Coverage) :
    (c.voidFold p b).range = c.range ∧ (c.voidFold p b).geometry = c.geometry ∧ (c.voidFold p b).banks = c.banks
      ∧ (c.voidFold p b).active = c.active ∧ (c.voidFold p b).cursor = c.cursor
      ∧ (c.voidFold p b).waiting = c.waiting := by
  unfold Coverage.voidFold
  (repeat' split) <;> simp

/-- A frame after one has been changed. -/
theorem Coverage.modFrame_frame (c : Coverage) (bk k : BankId) (t u : Tower) (f : Frame → Frame) :
    (c.modFrame bk t f).frame k u = if k = bk ∧ u = t then f (c.frame bk t) else c.frame k u := by
  unfold Coverage.frame Coverage.modFrame Coverage.modBank
  simp only [PerBank.get_put]
  by_cases hk : k = bk
  · subst hk
    simp only [if_true, true_and, Fin.getElem_fin, Vector.getElem_set]
    by_cases hu : u = t
    · simp [hu]
    · rw [if_neg (fun e => hu (Fin.ext e.symm)), if_neg hu]
  · simp [hk]

/-- A frame changed leaves every bank's state. -/
theorem Coverage.modFrame_state (c : Coverage) (bk k : BankId) (t : Tower) (f : Frame → Frame) :
    ((c.modFrame bk t f).banks.get k).state = (c.banks.get k).state := by
  unfold Coverage.modFrame Coverage.modBank
  simp only [PerBank.get_put]
  split <;> simp [*]

/-- A bank command changes the coverage unit and, at most, an event flag. -/
@[simp] theorem State.bankCommand_keeps (cmd : BankCmd) (s : State) :
    (s.bankCommand cmd).1 = (s.coverage.command cmd).1
      ∧ (s.bankCommand cmd).2.coverage = (s.coverage.command cmd).2
      ∧ (s.bankCommand cmd).2.pending = s.pending ∧ (s.bankCommand cmd).2.mem = s.mem
      ∧ (s.bankCommand cmd).2.lastResponse = s.lastResponse ∧ (s.bankCommand cmd).2.bus = s.bus
      ∧ (s.bankCommand cmd).2.windows = s.windows ∧ (s.bankCommand cmd).2.port = s.port
      ∧ (s.bankCommand cmd).2.curves = s.curves ∧ (s.bankCommand cmd).2.towers = s.towers
      ∧ (s.bankCommand cmd).2.timeout = s.timeout ∧ (s.bankCommand cmd).2.link = s.link
      ∧ (s.bankCommand cmd).2.levels = s.levels ∧ (s.bankCommand cmd).2.engine = s.engine
      ∧ (s.bankCommand cmd).2.loop = s.loop ∧ (s.bankCommand cmd).2.loader = s.loader := by
  simp [State.bankCommand]

@[simp] theorem State.bankCommand_control (cmd : BankCmd) (s : State) :
    (s.bankCommand cmd).2.control.part = s.control.part ∧ (s.bankCommand cmd).2.control.enables = s.control.enables
      ∧ (s.bankCommand cmd).2.control.mode = s.control.mode
      ∧ (s.bankCommand cmd).2.control.noticeAddr = s.control.noticeAddr
      ∧ (s.bankCommand cmd).2.control.noticeDatum = s.control.noticeDatum
      ∧ (s.bankCommand cmd).2.control.capture = s.control.capture
      ∧ (s.bankCommand cmd).2.control.last = s.control.last := by
  simp [State.bankCommand]

/-- What an ACCEPTED CLEAR leaves of the coverage unit (R29, R30, R35). -/
theorem Coverage.startClear_effect {c d : Coverage} {g : CoverRange} {bk : BankId} (hd : d = c.startClear g bk) :
    (∀ u : Tower, d.frame bk u = ⟨true, Vector.replicate 48 0⟩)
      ∧ d.banks.get (otherBank bk) = c.banks.get (otherBank bk)
      ∧ d.active = c.active ∧ d.geometry = c.geometry ∧ d.range = c.range ∧ d.waiting = c.waiting
      ∧ (c.latch = none → d.latch = none)
      ∧ (∀ f, c.latch = some f → d.latch = some (if f.bank = bk then { f with void := true, cleared := true } else f))
      ∧ (planWords (clearPlan c g bk) = 0 → (d.banks.get bk).state = .opened ∧ d.cursor = c.cursor)
      ∧ (planWords (clearPlan c g bk) ≠ 0 →
          (d.banks.get bk).state = .clearing ∧ d.cursor = some ⟨bk, clearPlan c g bk, 0, false⟩) := by
  subst hd
  have fr (u : Tower) : (Vector.replicate 12 Frame.fresh)[u] = ⟨true, Vector.replicate 48 0⟩ := by simp [Frame.fresh]
  cases h : c.latch with
  | none =>
    by_cases hp : planWords (clearPlan c g bk) = 0 <;> cases bk <;>
      simp [Coverage.startClear, Coverage.voidFold, Coverage.modBank, Coverage.frame, PerBank.get, PerBank.put,
        otherBank, h, hp, fr]
  | some f =>
    by_cases hp : planWords (clearPlan c g bk) = 0 <;> cases bk <;> cases hf : f.bank <;>
      simp [Coverage.startClear, Coverage.voidFold, Coverage.modBank, Coverage.frame, PerBank.get, PerBank.put,
        otherBank, h, hp, hf, fr]

end Sys2Proof.Machine
end

