-- ==== Sys2Proof/Laws/Accesses.lean ====
section
/-! SUPPORT. Events that leave every tower and the link alone, the refusal of a write, and the completion
that a RELOAD has discarded. -/

namespace Sys2Proof.Machine

/-- What every event ends with, when the event has left the towers and the link alone. -/
theorem State.settle_quiet {s s1 : State} (ht : s1.towers = s.towers) (hl : s1.link = s.link) :
    (State.settle s s1).bus = s1.bus ∧ (State.settle s s1).lastResponse = s1.lastResponse
      ∧ (State.settle s s1).mem = s1.mem ∧ s1.samePort (State.settle s s1)
      ∧ (State.settle s s1).windows = s1.windows ∧ (State.settle s s1).curves = s1.curves
      ∧ (State.settle s s1).timeout = s1.timeout ∧ (State.settle s s1).levels = s1.levels
      ∧ (State.settle s s1).pending = s1.pending ∧ (State.settle s s1).coverage = s1.coverage
      ∧ s.sameTowers (State.settle s s1) ∧ (State.settle s s1).engine = s1.engine
      ∧ (State.settle s s1).loop = s1.loop ∧ (State.settle s s1).loader = s1.loader
      ∧ (State.settle s s1).control.part = s1.control.part ∧ (State.settle s s1).control.flags = s1.control.flags
      ∧ (State.settle s s1).control.enables = s1.control.enables
      ∧ (State.settle s s1).control.mode = s1.control.mode
      ∧ (State.settle s s1).control.noticeAddr = s1.control.noticeAddr
      ∧ (State.settle s s1).control.noticeDatum = s1.control.noticeDatum
      ∧ (State.settle s s1).control.capture = s1.control.capture := by
  have hs : s.sameTowers (State.settle s s1) := by
    rw [State.settle_of_towers ht]
    exact ⟨by simp [ht], by simp [hl]⟩
  exact ⟨by simp, by simp, by simp, State.samePort_settle _ _, by simp, by simp, by simp, by simp, by simp, by simp,
    hs, by simp, by simp, by simp, by simp, by simp, by simp, by simp, by simp, by simp, by simp⟩

/-- A write refused on its arrival with an event: the bus error, the event and the report to the capture. -/
theorem State.exec_refused {s : State} {a : Access} {f : EventFlag} (ha : s.arrive a = (s.raise f).refuse a) :
    ∃ t, afterEvent (State.arrive a) s = .next t ∧ t.bus.get a.cls = none
      ∧ t.lastResponse.get a.cls = some .busError ∧ s.raised f t ∧ s.captured a t ∧ s.sameOthers a.cls t
      ∧ s.sameMemory t ∧ s.samePort t ∧ s.sameSetup t ∧ s.sameBlocks t ∧ s.sameSettings t := by
  obtain ⟨b1, b2, b3, b4, b5, b6, b7, b8, b9, b10, b11, b12, b13, b14, b15, b16, b17, b18, b19, b20, b21⟩ :=
    State.settle_quiet (s := s) (s1 := s.arrive a) (by rw [ha]; simp) (by rw [ha]; simp)
  have hbus : (s.arrive a).bus = s.bus.put a.cls none := by rw [ha]; rfl
  have hl : (s.arrive a).lastResponse = s.lastResponse.put a.cls (some .busError) := by rw [ha]; rfl
  rw [hbus] at b1
  rw [hl] at b2
  have hcap : (s.arrive a).control.capture
      = if s.control.capture.valid then s.control.capture else ⟨true, a.addr, a.cls⟩ := by
    rw [ha]
    show (Control.capture_ _ _ _).capture = _
    unfold Control.capture_
    simp only [State.raise_control]
    split <;> simp
  refine ⟨_, rfl, by rw [b1]; simp, by rw [b2]; simp, ?_, ?_, fun d hd => ?_, fun x => ?_, ?_, ?_, ?_, ?_⟩
  · unfold State.raised
    rw [b16, ha]
    simp [State.raise_flags]
  · unfold State.captured
    rw [b21, hcap]
  · rw [b1, b2]
    simp [hd]
  · rw [b3, ha]
    simp
  · exact State.samePort_trans (State.samePort_of_eq (by rw [ha]; simp)) b4
  · exact ⟨by rw [b5, ha]; simp, by rw [b6, ha]; simp, by rw [b7, ha]; simp, by rw [b8, ha]; simp,
      by rw [b9, ha]; simp⟩
  · exact ⟨by rw [b10, ha]; simp, b11, by rw [b12, ha]; simp, by rw [b13, ha]; simp, by rw [b14, ha]; simp⟩
  · exact ⟨by rw [b15, ha]; simp, by rw [b17, ha]; simp, by rw [b18, ha]; simp, by rw [b19, ha]; simp,
      by rw [b20, ha]; simp⟩

/-- A completion that a RELOAD has discarded: the words are answered, the port is free, and no unit takes it, whichever
row delivers it (R19). -/
theorem exec_discarded {s : State} {c : Instr} {r : IReq} {ws : List PortWord} {anss : List MemAnswer}
    (hs : s.port.holder = some (.internal r ws true)) (hc : completes c r anss) :
    exec c s = .next (State.settle s (s.completed ws anss true)) := by
  have unit : ∀ (due : IReq → Bool) (k : IReq → List PortWord → State → State), due r = true →
      afterEvent (State.complete due anss k) s = .next (State.settle s (s.completed ws anss true)) := by
    intro due k h
    simp [afterEvent, State.complete, hs, h]
  rcases hc with ⟨a, x, rfl, rfl, rfl⟩ | ⟨a, h, d, x, y, rfl, rfl, rfl⟩ | ⟨i, a, e, rfl, rfl, rfl⟩
    | ⟨v, a, x, rfl, rfl, rfl⟩ | ⟨a, d, x, rfl, rfl, rfl⟩ | ⟨a, d, x, rfl, rfl, rfl⟩ | ⟨a, rfl, rfl, rfl⟩
    | ⟨a, rfl, hc, rfl⟩
  · exact unit _ _ rfl
  · exact unit _ _ rfl
  · exact unit _ _ rfl
  · exact unit _ _ rfl
  · exact unit _ _ rfl
  · exact unit _ _ rfl
  · exact unit _ _ rfl
  · have row : ∀ (p : Nat → Bool) (f : OrderRec → State → Except FaultCode State),
        afterEvent (State.orderRow p f) s = .next (State.settle s (s.completed ws [] true)) := by
      intro p f
      simp [afterEvent, State.orderRow, hs]
    rcases hc with rfl | ⟨n, hn⟩
    · show afterEvent State.orderCancelled s = _
      simp [afterEvent, State.orderCancelled, hs]
    · rcases hn with ⟨rfl, -⟩ | ⟨rfl, -⟩ | ⟨rfl, -⟩ | ⟨rfl, -⟩ | ⟨rfl, -⟩ | ⟨rfl, -⟩ | ⟨rfl, -⟩ | ⟨rfl, -⟩
        | ⟨rfl, -⟩ | ⟨rfl, -⟩ | ⟨rfl, -⟩ | ⟨rfl, -⟩ | ⟨rfl, -⟩ | ⟨rfl, -⟩ <;> exact row _ _

/-- What a discarded completion leaves: memory as its words were answered, the port free, and every block as it was, but
for the request that the control unit offers on a free channel (R19, R161). -/
theorem State.settle_discarded (s : State) (ws : List PortWord) (anss : List MemAnswer) :
    ∃ t, State.settle s (s.completed ws anss true) = t ∧ t.mem = Memory.answers s.mem ws anss
      ∧ t.control = s.offerChannel.control ∧ t.port = { s.offerChannel.port with holder := none }
      ∧ t.bus = s.bus ∧ t.lastResponse = s.lastResponse ∧ s.sameSetup t ∧ s.sameBlocks t ∧ s.sameSettings t
      ∧ s.sameEvents t := by
  have hc : (s.completed ws anss true).control = s.control := rfl
  obtain ⟨h1, h2⟩ := State.offerChannel_congr (s := s) (s1 := s.completed ws anss true) hc rfl rfl none rfl
  refine ⟨_, rfl, ?_⟩
  rw [State.settle_of_towers (s0 := s) (s := s.completed ws anss true) (by simp)]
  refine ⟨by simp; rfl, h1, h2, by simp, by simp, ?_, ?_, ?_, ?_⟩
  · exact ⟨by simp, by simp, by simp, by simp, by simp⟩
  · exact ⟨by simp, ⟨by simp, by simp⟩, by simp, by simp, by simp⟩
  · exact ⟨by simp [hc], by simp [hc], by simp [hc], by simp [hc], by simp [hc]⟩
  · exact ⟨by simp [hc], by simp [hc], by simp [hc], by simp [hc]⟩

end Sys2Proof.Machine
end

