-- ==== Sys2Proof/Laws/AccessOrder.lean ====
section
/-! SUPPORT. The press-bus accesses stay in order: what each operation makes of the accesses in progress and of the list
of waiting coverage writes, up to one lemma for every event. -/

namespace Sys2Proof.Machine

/-! ### The two fields -/

/-- Accesses in progress and a list of waiting classes that are in order. -/
def State.inOrder (s : State) (l : List MasterClass) : Prop :=
  (∀ c x, s.bus.get c = some x → x.access.cls = c)
    ∧ (∀ c ∈ l, ∃ x, s.bus.get c = some x ∧ (x.stage = .waitLatch ∨ x.stage = .overtaken)) ∧ l.Nodup

/-- The same accesses in progress and the same waiting classes. -/
def State.accessesAs (s t : State) : Prop := t.bus = s.bus ∧ t.coverage.waiting = s.coverage.waiting

theorem State.accessesOk_as {s t : State} (h : s.accessesOk) (e : s.accessesAs t) : t.accessesOk := by
  unfold State.accessesOk
  rw [e.1, e.2]
  exact h

/-- Order over a bus with one class's access replaced by one of its own or by none. -/
theorem State.inOrder_put {s t : State} {l : List MasterClass} {c : MasterClass} {y : Option BusAccess}
    (h : s.inOrder l) (hb : t.bus = s.bus.put c y) (hy : ∀ x, y = some x → x.access.cls = c) (hc : c ∉ l) :
    t.inOrder l := by
  refine ⟨fun d x hx => ?_, fun d hd => ?_, h.2.2⟩
  · rw [hb, PerClass.get_put] at hx
    split at hx
    · rename_i e; rw [e]; exact hy x hx
    · exact h.1 d x hx
  · obtain ⟨x, h1, h2⟩ := h.2.1 d hd
    refine ⟨x, ?_, h2⟩
    rw [hb, PerClass.get_put, if_neg (fun e : d = c => hc (e ▸ hd))]
    exact h1

/-- Order over another state with the same accesses in progress. -/
theorem State.inOrder_bus {s t : State} {l : List MasterClass} (h : s.inOrder l) (hb : t.bus = s.bus) :
    t.inOrder l := by
  unfold State.inOrder
  rw [hb]
  exact h

/-- A class with no access in progress waits for nothing. -/
theorem State.notWaiting_none {s : State} {l : List MasterClass} {c : MasterClass} (h : s.inOrder l)
    (hc : s.bus.get c = none) : c ∉ l := fun hm => by
  obtain ⟨x, h1, _⟩ := h.2.1 c hm
  rw [hc] at h1
  cases h1

/-- A class whose access claims or holds the memory port waits for nothing. -/
theorem State.notWaiting_some {s : State} {l : List MasterClass} {c : MasterClass} {x : BusAccess} (h : s.inOrder l)
    (hc : s.bus.get c = some x) (hx : x.stage ≠ .waitLatch) (hx2 : x.stage ≠ .overtaken) : c ∉ l := fun hm => by
  obtain ⟨y, h1, h2⟩ := h.2.1 c hm
  rw [hc] at h1
  cases h1
  exact h2.elim hx hx2

/-! ### The list of waiting classes under the coverage unit's operations -/

@[simp] theorem Coverage.modBank_waiting (bk : BankId) (f : Bank → Bank) (c : Coverage) :
    (c.modBank bk f).waiting = c.waiting := rfl

@[simp] theorem Coverage.modFrame_waiting (bk : BankId) (t : Tower) (f : Frame → Frame) (c : Coverage) :
    (c.modFrame bk t f).waiting = c.waiting := rfl

@[simp] theorem Coverage.setState_waiting (bk : BankId) (st : BankState) (c : Coverage) :
    (c.setState bk st).waiting = c.waiting := rfl

@[simp] theorem Coverage.unfit_waiting (bk : BankId) (t : Tower) (c : Coverage) :
    (c.unfit bk t).waiting = c.waiting := by simp [Coverage.unfit]

@[simp] theorem Coverage.unfitTower_waiting (t : Tower) (c : Coverage) : (c.unfitTower t).waiting = c.waiting := by
  simp [Coverage.unfitTower]

@[simp] theorem Coverage.command_waiting (cmd : BankCmd) (c : Coverage) :
    (c.command cmd).2.waiting = c.waiting := by
  cases cmd <;> simp only [Coverage.command, Coverage.startClear] <;> (repeat' split) <;> simp

@[simp] theorem Coverage.endClear_waiting (bk : BankId) (st : BankState) (c : Coverage) :
    (c.endClear bk st).waiting = c.waiting := rfl

@[simp] theorem Coverage.applyFold_waiting (f : Fold) (c : Coverage) : (c.applyFold f).waiting = c.waiting := by
  unfold Coverage.applyFold
  (repeat' split) <;> simp

@[simp] theorem Coverage.setGeometry_waiting (t : Tower) (g : Option Geometry) (c : Coverage) :
    (c.setGeometry t g).waiting = c.waiting := by
  simp only [Coverage.setGeometry]
  split <;> simp

@[simp] theorem Coverage.startReload_waiting (c : Coverage) : c.startReload.waiting = c.waiting := by
  simp [Coverage.startReload]

@[simp] theorem Coverage.endLoad_waiting (r : Option CoverRange) (g : Tower → Option Geometry) (c : Coverage) :
    (c.endLoad r g).waiting = c.waiting := by
  have fold : ∀ (l : List Tower) (c : Coverage),
      (l.foldl (fun c t => c.setGeometry t (g t)) c).waiting = c.waiting := by
    intro l
    induction l with
    | nil => exact fun _ => rfl
    | cons t l ih => exact fun c => (ih _).trans (Coverage.setGeometry_waiting _ _ _)
  unfold Coverage.endLoad
  split
  · exact fold _ _
  · simp [Coverage.dropBanks]

/-! ### Operations that leave the accesses alone -/

@[simp] theorem State.watch_waiting (w : PortWord) (s : State) :
    (s.watch w).coverage.waiting = s.coverage.waiting := by
  unfold State.watch
  (repeat' split) <;> simp

@[simp] theorem State.watchPass_waiting (p : Purpose) (w : PortWord) (s : State) :
    (s.watchPass p w).coverage.waiting = s.coverage.waiting := by
  unfold State.watchPass
  split <;> simp

@[simp] theorem State.watchAll_waiting (r : IReq) (ws : List PortWord) (s : State) :
    (s.watchAll r ws).coverage.waiting = s.coverage.waiting := by
  unfold State.watchAll
  split
  · induction ws generalizing s with
    | nil => rfl
    | cons w ws ih => exact (ih (s.watch w)).trans (State.watch_waiting _ _)
  · rfl

@[simp] theorem State.offerClear_waiting (c : Cursor) (s : State) :
    (s.offerClear c).coverage.waiting = s.coverage.waiting := by
  unfold State.offerClear
  split <;> rfl

@[simp] theorem State.firstClear_waiting (s : State) : s.firstClear.coverage.waiting = s.coverage.waiting := by
  unfold State.firstClear
  (repeat' split) <;> simp

@[simp] theorem State.clearWritten_waiting (ok : Bool) (s : State) :
    (s.clearWritten ok).coverage.waiting = s.coverage.waiting := by
  unfold State.clearWritten
  (repeat' split) <;> simp

@[simp] theorem State.failLoad_as (s : State) : s.accessesAs s.failLoad := by
  unfold State.accessesAs State.failLoad
  simp [State.dropStaged]

@[simp] theorem State.runLoad_as (g : GlobalCfg) (s : State) : s.accessesAs (s.runLoad g) := by
  unfold State.accessesAs State.runLoad
  simp [State.dropStaged]

theorem State.accessesAs_refl (s : State) : s.accessesAs s := ⟨rfl, rfl⟩

theorem State.accessesAs_trans {s t u : State} (h : s.accessesAs t) (k : t.accessesAs u) : s.accessesAs u :=
  ⟨k.1.trans h.1, k.2.trans h.2⟩

theorem State.accessesAs_of {s t : State} (hb : t.bus = s.bus) (hc : t.coverage = s.coverage) : s.accessesAs t :=
  ⟨hb, by rw [hc]⟩

theorem State.endLoad_as (s : State) : s.accessesAs s.endLoad := by
  unfold State.endLoad
  split
  · exact State.failLoad_as s
  · exact State.runLoad_as _ s

theorem State.judgeHeader_as (image : List Byte) (s : State) : s.accessesAs (s.judgeHeader image) := by
  unfold State.judgeHeader
  split
  · exact State.failLoad_as s
  · exact ⟨rfl, rfl⟩

theorem State.judgeKind_as (n : Fin 16) (j : Judged) (s : State) : s.accessesAs (s.judgeKind n j) := by
  unfold State.judgeKind
  split
  · unfold State.judgeGlobal
    (repeat' split) <;> first | exact State.failLoad_as _ | exact ⟨rfl, rfl⟩
  · split
    · unfold State.judgeWindows
      split
      · dsimp only
        split
        · exact State.accessesAs_of (by simp) (by simp)
        · exact State.accessesAs_trans (State.accessesAs_of (by simp) (by simp)) (State.failLoad_as _)
      · exact State.failLoad_as _
    · split
      · unfold State.judgeCurves
        split <;> exact State.accessesAs_of (by simp) (by simp)
      · split
        · unfold State.judgePreload
          split
          · split
            · exact State.endLoad_as _
            · exact ⟨rfl, rfl⟩
          · exact State.accessesAs_trans (State.accessesAs_of (by simp) (by simp)) (State.endLoad_as _)
          · exact State.endLoad_as _
        · unfold State.judgeTower
          split
          · split <;> exact State.accessesAs_of (by simp) (by simp)
          · exact State.accessesAs_of (by simp) (by simp)
          · exact State.accessesAs_of (by simp) (by simp)

theorem State.judgeSection_as (image : List Byte) (s : State) : s.accessesAs (s.judgeSection image) := by
  unfold State.judgeSection
  split
  · rename_i n h _ _
    exact State.accessesAs_trans (State.judgeKind_as n (readSection h image n.val) s)
      (State.accessesAs_of (by simp) (by simp))
  · exact State.accessesAs_refl s

theorem State.preloadWritten_as (s : State) : s.accessesAs s.preloadWritten := by
  unfold State.preloadWritten
  split
  · split
    · exact ⟨rfl, rfl⟩
    · exact State.endLoad_as s
  · exact State.accessesAs_refl s

theorem State.sectionReloaded_as (image : List Byte) (s : State) : s.accessesAs (s.sectionReloaded image) := by
  refine ⟨by simp, ?_⟩
  unfold State.sectionReloaded
  split
  · simp [State.resetTower]
  · rfl

/-- The verbs of orders leave the accesses alone. -/
def VerbKeepsAccesses (run : OrderRec → State → Except FaultCode State) : Prop :=
  ∀ r s s1, run r s = .ok s1 → s.accessesAs s1

theorem State.execute_as {run : OrderRec → State → Except FaultCode State} (h : VerbKeepsAccesses run) (ws : List Word)
    (s : State) : s.accessesAs (s.execute run ws) := by
  unfold State.execute
  split
  · exact State.accessesAs_of (by simp) (by simp)
  · split
    · exact State.accessesAs_of (by simp) (by simp)
    · exact State.accessesAs_trans (h _ _ _ (by assumption)) (State.accessesAs_of (by simp) (by simp))

theorem State.orderRow_as {run : OrderRec → State → Except FaultCode State} (h : VerbKeepsAccesses run)
    (row : Nat → Bool) (s : State) : s.accessesAs (s.orderRow row run) := by
  unfold State.orderRow
  split
  · dsimp only
    split
    · exact State.accessesAs_of (by simp) (by simp)
    · split
      · exact State.accessesAs_trans (State.accessesAs_of (by simp) (by simp)) (State.execute_as h _ _)
      · exact State.accessesAs_refl s
  · exact State.accessesAs_refl s

theorem State.orderCancelled_as (s : State) : s.accessesAs s.orderCancelled := by
  unfold State.orderCancelled
  (repeat' split) <;> first
    | exact State.accessesAs_refl _
    | exact State.accessesAs_of (by simp) (by simp)

theorem verb_keyRange (f : OrderRec → KeyRec → KeyRec) : VerbKeepsAccesses (fun r => State.keyRange r (f r)) := by
  intro r s s1 e
  simp only [State.keyRange] at e
  split at e <;> cases e
  exact State.accessesAs_of (by simp) (by simp)

theorem verb_loop (f : TowerState → Result × TowerState) : VerbKeepsAccesses (State.orderLoop f) := by
  intro r s s1 e
  simp only [State.orderLoop] at e
  split at e <;> cases e
  exact State.accessesAs_of (by simp) (by simp)

theorem verb_bank (cmd : BankCmd) : VerbKeepsAccesses (fun _ => State.orderBank cmd) := by
  intro r s s1 e
  simp only [State.orderBank] at e
  split at e <;> cases e
  exact ⟨by simp, by simp⟩

theorem verb_namedBank (cmd : BankId → BankCmd) : VerbKeepsAccesses (State.orderNamedBank cmd) := by
  intro r s s1 e
  simp only [State.orderNamedBank] at e
  split at e
  · cases e
  · exact verb_bank _ r s s1 e

theorem verb_nop : VerbKeepsAccesses (fun _ => .ok) := fun _ s s1 e => by
  cases e
  exact State.accessesAs_refl s

theorem verb_fault : VerbKeepsAccesses (fun _ _ => .error .verb) := fun _ _ _ e => by cases e

theorem verb_preset : VerbKeepsAccesses State.runPreset := by
  intro r s s1 e
  simp only [State.runPreset] at e
  split at e
  · cases e
  · rename_i ts _
    split at e <;> cases e
    have fold : ∀ (l : List Tower) (x : State), x.accessesAs (l.foldl (State.presetTower r s) x) := by
      intro l
      induction l with
      | nil => exact State.accessesAs_refl
      | cons t l ih =>
        exact fun x => State.accessesAs_trans
          (State.accessesAs_of (by simp [State.presetTower]) (by simp [State.presetTower])) (ih _)
    exact fold _ _

/-- A completion whose unit leaves the accesses alone. -/
theorem State.complete_as {due : IReq → Bool} {anss : List MemAnswer} {k : IReq → List PortWord → State → State}
    (h : ∀ r ws (x : State), x.accessesAs (k r ws x)) (s : State) : s.accessesAs (s.complete due anss k) := by
  unfold State.complete
  (repeat' split) <;> first
    | exact State.accessesAs_refl _
    | exact State.accessesAs_of (State.completed_keeps _ _ _ _).2.2.2.1 (by simp)
    | exact State.accessesAs_trans (State.accessesAs_of (by simp) (by simp)) (h _ _ _)

/-! ### The arrival of an access -/

theorem State.accessesOk_respond {s : State} (h : s.accessesOk) {c : MasterClass} (hc : c ∉ s.coverage.waiting)
    (r : Response) : (s.respond c r).accessesOk := by
  exact State.inOrder_put (s := s) h rfl (fun _ e => by cases e) hc

theorem State.accessesOk_claim {s : State} (h : s.accessesOk) {a : Access} (hc : a.cls ∉ s.coverage.waiting)
    (p : Purpose) : (s.claim a p).accessesOk := by
  exact State.inOrder_put (s := s) h rfl (fun _ e => by cases e; rfl) hc

theorem State.accessesOk_refuse {s : State} (h : s.accessesOk) {a : Access} (hc : a.cls ∉ s.coverage.waiting) :
    (s.refuse a).accessesOk :=
  State.accessesOk_respond (State.accessesOk_as (t := s.capture a.addr a.cls) h ⟨rfl, rfl⟩) hc _

theorem State.inOrder_takeFold {s : State} {l : List MasterClass} (h : s.inOrder l) {a : Access} (hc : a.cls ∉ l) :
    (s.takeFold a).inOrder l := by
  unfold State.takeFold
  split
  · exact State.inOrder_put (c := a.cls) (y := none) h rfl (fun _ e => by cases e) hc
  · exact State.inOrder_put (c := a.cls) (y := some _) h rfl (fun _ e => by cases e; rfl) hc

theorem State.inOrder_takeWaiter {s : State} {l : List MasterClass} (h : s.inOrder l) {x : BusAccess}
    (hc : x.access.cls ∉ l) : (s.takeWaiter x).inOrder l := by
  unfold State.takeWaiter
  split
  · exact State.inOrder_put (c := x.access.cls) (y := none) h rfl (fun _ e => by cases e) hc
  · exact State.inOrder_takeFold h hc

@[simp] theorem State.takeFold_waiting (a : Access) (s : State) :
    (s.takeFold a).coverage.waiting = s.coverage.waiting := by
  unfold State.takeFold
  split
  · simp [State.refuseFold]
  · rfl

/-- Waiting writes taken in order leave the accesses in order. -/
theorem State.accessesOk_takeWaiting (l : List MasterClass) {s : State} (h : s.inOrder l) :
    (State.takeWaiting l s).accessesOk := by
  induction l generalizing s with
  | nil => exact State.inOrder_bus (t := s.setWaiting []) h rfl
  | cons c cs ih =>
    obtain ⟨h1, h2, h3⟩ := h
    obtain ⟨hn, hs⟩ := List.nodup_cons.mp h3
    have hcs : s.inOrder cs := ⟨h1, fun d hd => h2 d (List.mem_cons_of_mem _ hd), hs⟩
    obtain ⟨x, hx, _⟩ := h2 c List.mem_cons_self
    have hcls : x.access.cls ∉ cs := (h1 c x hx).symm ▸ hn
    simp only [State.takeWaiting, hx]
    split
    · exact State.inOrder_bus (t := (s.takeWaiter x).setWaiting cs) (State.inOrder_takeWaiter hcs hcls) rfl
    · exact ih (State.inOrder_takeWaiter hcs hcls)

theorem State.accessesOk_emptyLatch {s : State} (h : s.accessesOk) : s.emptyLatch.accessesOk :=
  State.accessesOk_takeWaiting _ (State.inOrder_bus (t := s.setLatch none) h rfl)

theorem State.accessesOk_coverageWrite {s : State} (h : s.accessesOk) {a : Access} (hb : s.bus.get a.cls = none) :
    (s.coverageWrite a).accessesOk := by
  have hc := State.notWaiting_none h hb
  unfold State.coverageWrite
  split
  · have hg : ∀ d : MasterClass, ((s.setStage a .waitLatch).setWaiting (s.coverage.waiting ++ [a.cls])).bus.get d
        = if d = a.cls then some ⟨a, .waitLatch⟩ else s.bus.get d := fun d => PerClass.get_put _ _ _ _
    refine ⟨fun d x hx => ?_, fun d hd => ?_, ?_⟩
    · rw [hg] at hx
      split at hx
      · cases hx; rename_i e; exact e.symm
      · exact h.1 d x hx
    · rcases List.mem_append.mp hd with hd | hd
      · obtain ⟨x, h1, h2⟩ := h.2.1 d hd
        exact ⟨x, by rw [hg, if_neg (fun e : d = a.cls => hc (e ▸ hd))]; exact h1, h2⟩
      · rw [List.mem_singleton] at hd
        exact ⟨_, by rw [hg, if_pos hd], Or.inl rfl⟩
    · exact List.nodup_append.mpr ⟨h.2.2, by simp, fun x hx y hy => by
        rw [List.mem_singleton] at hy
        exact fun e => hc (hy ▸ e ▸ hx)⟩
  · have e : (s.takeFold a).accessesOk = (s.takeFold a).inOrder s.coverage.waiting := by
      unfold State.accessesOk State.inOrder
      rw [State.takeFold_waiting]
    rw [e]
    exact State.inOrder_takeFold h hc

theorem State.accessesOk_measureWrite {s : State} (h : s.accessesOk) (base : Nat) {a : Access}
    (hc : a.cls ∉ s.coverage.waiting) : (s.measureWrite base a).accessesOk := by
  unfold State.measureWrite
  dsimp only
  split
  · exact State.accessesOk_refuse (State.accessesOk_as h (State.accessesAs_of (by simp) (by simp))) (by simpa using hc)
  · split
    · exact State.accessesOk_claim (State.accessesOk_as h (State.accessesAs_of (by simp) (by simp)))
        (by simpa using hc) _
    · exact State.accessesOk_claim h hc _

theorem State.accessesOk_writeLive {s : State} (h : s.accessesOk) (w : Window) {a : Access}
    (hc : a.cls ∉ s.coverage.waiting) : (s.writeLive w a).accessesOk := by
  unfold State.writeLive
  split
  · exact State.accessesOk_refuse (State.accessesOk_as h (State.accessesAs_of (by simp) (by simp))) (by simpa using hc)
  · exact State.accessesOk_respond (State.accessesOk_as h (State.accessesAs_of (by simp) (by simp)))
      (by simpa using hc) _

/-- What a RELOAD makes of an access in progress keeps the access, and one that waits for the latch waits on. -/
theorem State.accessesOk_startReload {s : State} (h : s.accessesOk) : s.startReload.accessesOk := by
  have hg : ∀ c : MasterClass, s.startReload.bus.get c = (s.bus.get c).map BusAccess.overReload := fun c => by
    cases c <;> rfl
  have ha : ∀ x : BusAccess, x.overReload.access = x.access := fun x => by
    unfold BusAccess.overReload
    split <;> rfl
  have hw : s.startReload.coverage.waiting = s.coverage.waiting := Coverage.startReload_waiting _
  refine ⟨fun c x hx => ?_, fun c hc => ?_, by rw [hw]; exact h.2.2⟩
  · rw [hg] at hx
    obtain ⟨y, h1, h2⟩ := Option.map_eq_some_iff.mp hx
    rw [← h2, ha]
    exact h.1 c y h1
  · rw [hw] at hc
    obtain ⟨x, h1, h2⟩ := h.2.1 c hc
    refine ⟨x.overReload, by rw [hg, h1]; rfl, ?_⟩
    unfold BusAccess.overReload
    rcases h2 with h2 | h2 <;> simp [h2]

/-- A command leaves the accesses alone, or it is a RELOAD. -/
theorem State.command_as (s : State) (w : CtlWord) (d : Word) :
    s.accessesAs (s.command w d).2 ∨ (s.command w d).2 = s.startReload := by
  have start : s.accessesAs (s.startWord d).2 := by
    unfold State.startWord State.start
    (repeat' split) <;> exact State.accessesAs_of (by simp) (by simp)
  have stop : s.accessesAs (s.stopWord d).2 := by
    unfold State.stopWord State.stop State.stopAll
    (repeat' split) <;> exact State.accessesAs_of (by simp) (by simp)
  have bank : s.accessesAs (s.bankWord d).2 := by
    unfold State.bankWord
    (repeat' split) <;> exact ⟨by simp, by simp⟩
  have bind : ∀ k, s.accessesAs (s.bindWord k d).2 := fun k => by
    unfold State.bindWord State.armBinding State.disarmBinding
    (repeat' split) <;> exact State.accessesAs_of (by simp) (by simp)
  have tower : ∀ t, s.accessesAs (s.towerWord t d).2 := fun t => by
    unfold State.towerWord State.towerCommand State.resetCommand
    (repeat' split) <;> exact State.accessesAs_of (by simp) (by simp)
  unfold State.command
  split
  · exact Or.inl (tower _)
  · exact Or.inl (bind _)
  · by_cases h : w = wordReload ∧ codeOf d = 1
    · exact Or.inr (by rw [h.1]; simp only [State.reloadWord, h.2]; rfl)
    · refine Or.inl ?_
      (repeat' split) <;> first
        | exact start
        | exact stop
        | exact bank
        | exact ⟨rfl, rfl⟩
        | exact State.accessesAs_of (by simp) (by simp)
        | (unfold State.reloadWord
           rw [if_neg (fun e => h ⟨by assumption, e⟩)]
           exact State.accessesAs_refl s)

theorem State.accessesOk_command {s : State} (h : s.accessesOk) (w : CtlWord) (d : Word) :
    (s.command w d).2.accessesOk := by
  rcases State.command_as s w d with e | e
  · exact State.accessesOk_as h e
  · rw [e]
    exact State.accessesOk_startReload h

theorem State.command_waiting (s : State) (w : CtlWord) (d : Word) :
    (s.command w d).2.coverage.waiting = s.coverage.waiting := by
  rcases State.command_as s w d with e | e
  · exact e.2
  · rw [e]
    exact Coverage.startReload_waiting _

theorem State.accessesOk_takeCommand {s : State} (h : s.accessesOk) {a : Access} (hc : a.cls ∉ s.coverage.waiting)
    (w : CtlWord) : (s.takeCommand a w).accessesOk := by
  unfold State.takeCommand
  dsimp only
  refine State.accessesOk_claim (State.accessesOk_as (State.accessesOk_command h w a.data) ⟨rfl, rfl⟩) ?_ _
  show a.cls ∉ (s.command w a.data).2.coverage.waiting
  rw [State.command_waiting]
  exact hc

theorem State.accessesOk_arrive {s : State} (h : s.accessesOk) (a : Access) : (s.arrive a).accessesOk := by
  unfold State.arrive
  split
  · exact h
  · rename_i hb
    have hb : s.bus.get a.cls = none := by simpa using hb
    have hc := State.notWaiting_none h hb
    have raised : ∀ f, ((s.raise f).refuse a).accessesOk := fun f =>
      State.accessesOk_refuse (State.accessesOk_as h (State.accessesAs_of (by simp) (by simp))) (by simpa using hc)
    split
    · exact State.accessesOk_claim h hc _
    · unfold State.decideAccess State.handOver State.misfit
      dsimp only
      (repeat' split) <;> first
        | exact State.accessesOk_respond h hc _
        | exact State.accessesOk_claim h hc _
        | exact raised _
        | exact State.accessesOk_refuse h hc
        | exact State.accessesOk_coverageWrite h hb
        | exact State.accessesOk_measureWrite h _ hc
        | exact State.accessesOk_takeCommand h hc _
        | exact State.accessesOk_writeLive h _ hc

/-! ### Grants and answers -/

theorem State.accessesOk_grant {s : State} (h : s.accessesOk) : s.grant.accessesOk := by
  have head : ∀ r l, (s.grantHead r l).accessesOk := fun r l =>
    State.accessesOk_as h ⟨by simp, by simp [State.grantHead]⟩
  have pass : ∀ c, (s.grantClass c).accessesOk := fun c => by
    unfold State.grantClass State.waitingAccess
    split
    · exact h
    · rename_i a p hx
      split at hx
      · rename_i b q hq
        cases hx
        have hc := State.notWaiting_some h hq (by simp) (by simp)
        unfold State.accessesOk
        have e : (s.grantPass c a p).bus = s.bus.put c (some ⟨a, .granted p⟩)
            ∧ (s.grantPass c a p).coverage.waiting = s.coverage.waiting := by
          constructor <;> simp [State.grantPass]
        rw [e.2]
        exact State.inOrder_put (y := some _) h e.1 (fun _ k => by cases k; exact h.1 c ⟨a, .claim p⟩ hq) hc
      · cases hx
  unfold State.grant
  (repeat' split) <;> first
    | exact h
    | exact head _ _
    | exact pass _

theorem State.accessesOk_answerPass {s : State} (h : s.accessesOk) (ans : MemAnswer) :
    (s.answerPass ans).accessesOk := by
  have free : ∀ w, (s.memAnswered w ans).accessesOk := fun w =>
    State.accessesOk_as h (State.accessesAs_of (by simp) (by simp))
  unfold State.answerPass
  split
  · rename_i c w _
    split
    · rename_i a p hq
      have hcls : a.cls = c := h.1 c _ hq
      have hc : a.cls ∉ (s.memAnswered w ans).coverage.waiting := by
        rw [hcls]
        simpa using State.notWaiting_some h hq (by simp) (by simp)
      generalize Memory.word s.mem w.word = d
      have hx := free w
      generalize s.memAnswered w ans = x at hx hc
      have resp : ∀ {y : State} (r : Response), y.bus = x.bus → y.coverage.waiting = x.coverage.waiting →
          (y.respond a.cls r).accessesOk := fun r hb hw =>
        State.accessesOk_respond (State.accessesOk_as hx ⟨hb, hw⟩) (by rw [hw]; exact hc) r
      unfold State.passDone
      split
      · exact resp _ rfl rfl
      · unfold State.foldReadDone
        split
        · exact State.accessesOk_claim (State.accessesOk_as hx ⟨rfl, rfl⟩) hc _
        · exact State.accessesOk_emptyLatch (resp _ rfl rfl)
      · unfold State.foldWriteDone
        split
        · exact resp _ rfl rfl
        · split
          · exact State.accessesOk_emptyLatch (resp _ rfl (by simp))
          · exact State.accessesOk_emptyLatch (resp _ (by simp) (by simp; split <;> simp))
      · exact resp _ rfl rfl
      · unfold State.commitDone
        split
        · exact State.accessesOk_as (resp .ok rfl rfl) (State.accessesAs_of (by simp) (by simp))
        · exact State.accessesOk_as (resp .busError rfl rfl) (State.accessesAs_of (by simp) (by simp))
      · unfold State.answerDone
        exact State.accessesOk_as (resp (writeResponse (answeredOk ans)) rfl rfl)
          (State.accessesAs_of (by simp) (by simp))
    · exact free w
  · exact free _
  · exact h

/-! ### Every event -/

/-- What every event ends with leaves the accesses alone. -/
theorem State.accessesOk_after {f : State → State} {s t : State} (h : (f s).accessesOk)
    (e : afterEvent f s = .next t) : t.accessesOk := by
  cases e
  exact State.accessesOk_as h (State.accessesAs_of (by simp) (by simp))

/-- Every event keeps the press-bus accesses in order. -/
theorem State.accessesOk_exec {i : Instr} {s t : State} (h : s.accessesOk) (e : exec i s = .next t) :
    t.accessesOk := by
  have as : ∀ {f : State → State}, s.accessesAs (f s) → afterEvent f s = .next t → t.accessesOk := fun k e =>
    State.accessesOk_after (State.accessesOk_as h k) e
  have quiet : ∀ {f : State → State}, (f s).bus = s.bus → (f s).coverage = s.coverage → afterEvent f s = .next t →
      t.accessesOk := fun hb hc e => as (State.accessesAs_of hb hc) e
  have arr : ∀ {a}, afterEvent (State.arrive a) s = .next t → t.accessesOk := fun e =>
    State.accessesOk_after (State.accessesOk_arrive h _) e
  have ans : ∀ {a}, afterEvent (State.answerPass a) s = .next t → t.accessesOk := fun e =>
    State.accessesOk_after (State.accessesOk_answerPass h _) e
  cases i
  case pinReset l =>
    cases e
    have hb : ∀ c, (State.pinReset l s).bus.get c = none := fun c => by cases c <;> rfl
    have hw : (State.pinReset l s).coverage.waiting = [] := rfl
    unfold State.accessesOk
    rw [hw]
    exact ⟨fun c x hx => (by rw [hb] at hx; cases hx), by simp, List.nodup_nil⟩
  case plainAccess => exact arr e
  case refusedWrite => exact arr e
  case misfitWrite => exact arr e
  case liveRead => exact arr e
  case trimWrite => exact arr e
  case coverageWrite => exact arr e
  case foldTake => exact arr e
  case measureWrite => exact arr e
  case commit => exact arr e
  case badCode => exact arr e
  case start => exact arr e
  case stop => exact arr e
  case stopAll => exact arr e
  case arm => exact arr e
  case disarm => exact arr e
  case event => exact arr e
  case eventEnable => exact arr e
  case partStatus => exact arr e
  case engine => exact arr e
  case refusal => exact arr e
  case measureStatus => exact arr e
  case clear => exact arr e
  case lock => exact arr e
  case unlock => exact arr e
  case swap => exact arr e
  case reload => exact arr e
  case wake => exact arr e
  case park => exact arr e
  case reset => exact arr e
  case loopOn => exact arr e
  case loopOff => exact arr e
  case clearFaults => exact arr e
  case passThroughResponse => exact ans e
  case foldReadResponse => exact ans e
  case foldWriteResponse => exact ans e
  case commitResponse => exact ans e
  case answerWriteResponse => exact ans e
  case mpGrant => exact State.accessesOk_after (State.accessesOk_grant h) e
  case slotReadComplete =>
    exact as (State.complete_as (fun _ _ _ => State.accessesAs_of (by simp) (by simp)) s) e
  case clearFirstOffer => exact as ⟨by simp, by simp⟩ e
  case clearWriteComplete => exact as (State.complete_as (fun _ _ _ => ⟨by simp, by simp⟩) s) e
  case orderWriteComplete =>
    exact as (State.complete_as (fun _ _ _ => State.accessesAs_of (by simp) (by simp)) s) e
  case orderFetchError => exact as (State.complete_as (fun _ _ _ => State.accessesAs_of (by simp) (by simp)) s) e
  case mirrorWriteComplete =>
    exact as (State.complete_as (fun _ _ _ => State.accessesAs_of (by simp) (by simp)) s) e
  case noticeWriteComplete =>
    exact as (State.complete_as (fun _ _ _ => State.accessesAs_of (by simp) (by simp)) s) e
  case preloadWriteComplete =>
    exact as (State.complete_as (fun _ _ x => State.accessesAs_trans
      (State.accessesAs_of (by simp) (by simp)) (State.preloadWritten_as x.freeChannel)) s) e
  case orderCancelled => exact as (State.orderCancelled_as s) e
  case preset => exact as (State.orderRow_as verb_preset _ s) e
  case trimSet => exact as (State.orderRow_as (verb_keyRange (fun r => setTrim r.value)) _ s) e
  case trimAdd => exact as (State.orderRow_as (verb_keyRange (fun r => addTrim r.value)) _ s) e
  case corrClear => exact as (State.orderRow_as (verb_keyRange (fun _ => setCorrection 0)) _ s) e
  case hold => exact as (State.orderRow_as (verb_keyRange (fun _ => setHold true)) _ s) e
  case release => exact as (State.orderRow_as (verb_keyRange (fun _ => setHold false)) _ s) e
  case clearBank => exact as (State.orderRow_as (verb_namedBank _) _ s) e
  case lockBank => exact as (State.orderRow_as (verb_namedBank _) _ s) e
  case unlockBank => exact as (State.orderRow_as (verb_namedBank _) _ s) e
  case swapBanks => exact as (State.orderRow_as (verb_bank _) _ s) e
  case orderLoopOn => exact as (State.orderRow_as (verb_loop _) _ s) e
  case orderLoopOff => exact as (State.orderRow_as (verb_loop _) _ s) e
  case nop => exact as (State.orderRow_as verb_nop _ s) e
  case verbFault => exact as (State.orderRow_as verb_fault _ s) e
  case sheet => exact quiet (by simp) (by simp) e
  case rampComplete => exact quiet (by simp) (by simp) e
  case settleEnd => exact quiet (by simp) (by simp) e
  case sheetFiring => exact quiet (by simp) (by simp) e
  case imprRise => exact quiet (by simp) (by simp) e
  case imprFall => exact quiet (by simp) (by simp) e
  case jobchg => exact quiet (by simp) (by simp) e
  case sendingEnd => exact quiet (by simp) (by simp) e
  case gapEnd => exact quiet (by simp) (by simp) e
  case done => exact quiet (by simp) (by simp) e
  case stall => exact quiet (by simp) (by simp) e
  case report => exact quiet (by simp) (by simp) e
  case hello => exact quiet (by simp) (by simp) e
  case frameDiscarded => exact quiet (by simp) (by simp) e
  case keyFault c => exact quiet (by cases c <;> simp [State.keyFaultEvent]) (by cases c <;> simp [State.keyFaultEvent]) e
  case moveTimeout => exact quiet (by simp) (by simp) e
  case towerDown => exact quiet (by simp) (by simp) e
  case headerRead image => exact as (by
    unfold State.headerEvent
    split
    · exact State.accessesAs_trans (State.judgeHeader_as image s) (State.accessesAs_of (by simp) (by simp))
    · exact State.accessesAs_refl s) e
  case sectionRead => exact as (State.judgeSection_as _ s) e
  case sectionReloadComplete => exact as (State.sectionReloaded_as _ s) e

end Sys2Proof.Machine
end

