-- ==== Sys2Proof/Laws/Compose.lean ====
section
/-! SUPPORT. What recomposition, a sweep and a change of value fields leave of a tower: one lemma an operation. -/

namespace Sys2Proof.Machine

/-- What a change of value fields leaves of a tower: all but its records, its queue and its service. -/
def TowerState.sameShell (tw tv : TowerState) : Prop :=
  tv.parkHold = tw.parkHold ∧ tv.cfg = tw.cfg ∧ tv.flight = tw.flight ∧ tv.tagCounter = tw.tagCounter
    ∧ tv.timeouts = tw.timeouts ∧ tv.loop = tw.loop ∧ tv.settle = tw.settle ∧ tv.settings = tw.settings
    ∧ tv.address = tw.address ∧ tv.haltPending = tw.haltPending ∧ tv.queryPending = tw.queryPending

theorem TowerState.sameShell_refl (tw : TowerState) : tw.sameShell tw :=
  ⟨rfl, rfl, rfl, rfl, rfl, rfl, rfl, rfl, rfl, rfl, rfl⟩

theorem TowerState.sameShell_trans {a b c : TowerState} (h : a.sameShell b) (k : b.sameShell c) : a.sameShell c := by
  obtain ⟨h1, h2, h3, h4, h5, h6, h7, h8, h9, h10, h11⟩ := h
  obtain ⟨k1, k2, k3, k4, k5, k6, k7, k8, k9, k10, k11⟩ := k
  exact ⟨k1.trans h1, k2.trans h2, k3.trans h3, k4.trans h4, k5.trans h5, k6.trans h6, k7.trans h7, k8.trans h8,
    k9.trans h9, k10.trans h10, k11.trans h11⟩

theorem TowerState.sameShell_mod (tw : TowerState) (sl : Slot) (f : KeyRec → KeyRec) : tw.sameShell (tw.mod sl f) :=
  TowerState.sameShell_refl _

theorem TowerState.sameShell_enqueue (tw : TowerState) (sl : Slot) : tw.sameShell (tw.enqueue sl) :=
  TowerState.sameShell_refl _

theorem TowerState.sameShell_leaveQueue (tw : TowerState) (sl : Slot) : tw.sameShell (tw.leaveQueue sl) :=
  TowerState.sameShell_refl _

theorem TowerState.enqueue_self (tw : TowerState) (sl : Slot) :
    (tw.enqueue sl).recs[sl] = { tw.recs[sl] with move := .queued } :=
  TowerState.mod_self tw sl (fun r => { r with move := .queued })

theorem TowerState.enqueue_other (tw : TowerState) (sl u : Slot) (h : u ≠ sl) :
    (tw.enqueue sl).recs[u] = tw.recs[u] :=
  TowerState.mod_other tw sl u (fun r => { r with move := .queued }) h

theorem TowerState.leaveQueue_self (tw : TowerState) (sl : Slot) :
    (tw.leaveQueue sl).recs[sl] = { tw.recs[sl] with move := .idle } :=
  TowerState.mod_self tw sl (fun r => { r with move := .idle })

theorem TowerState.leaveQueue_other (tw : TowerState) (sl u : Slot) (h : u ≠ sl) :
    (tw.leaveQueue sl).recs[u] = tw.recs[u] :=
  TowerState.mod_other tw sl u (fun r => { r with move := .idle }) h

/-- Handing on changes the move state of the record and the queue. -/
theorem TowerState.handOn_spec (tw : TowerState) (sl : Slot) :
    tw.sameShell (tw.handOn sl) ∧ (tw.handOn sl).service = tw.service
      ∧ (∃ m, (tw.handOn sl).recs[sl] = { tw.recs[sl] with move := m })
      ∧ ∀ u : Slot, u ≠ sl → (tw.handOn sl).recs[u] = tw.recs[u] := by
  have same : ∃ m, tw.recs[sl] = { tw.recs[sl] with move := m } := ⟨_, rfl⟩
  have whole : tw.sameShell tw ∧ tw.service = tw.service ∧ (∃ m, tw.recs[sl] = { tw.recs[sl] with move := m })
      ∧ ∀ u : Slot, u ≠ sl → tw.recs[u] = tw.recs[u] := ⟨TowerState.sameShell_refl _, rfl, same, fun _ _ => rfl⟩
  unfold TowerState.handOn
  split
  · split
    · exact ⟨TowerState.sameShell_enqueue _ _, rfl, ⟨.queued, TowerState.enqueue_self tw sl⟩, TowerState.enqueue_other tw sl⟩
    · exact whole
  · split
    · exact ⟨TowerState.sameShell_leaveQueue _ _, rfl, ⟨.idle, TowerState.leaveQueue_self tw sl⟩,
        TowerState.leaveQueue_other tw sl⟩
    · exact whole
  · exact ⟨TowerState.sameShell_mod _ _ _, rfl, ⟨.retarget, TowerState.mod_self tw sl _⟩,
      fun u h => TowerState.mod_other tw sl u _ h⟩
  · exact whole
  · exact whole

/-- A change of one record's value fields: the record takes them and its composed target, every other record stays. -/
theorem TowerState.revalue_spec (f : Slot → KeyRec → KeyRec) (tw : TowerState) (sl : Slot) :
    tw.sameShell (tw.revalue f sl) ∧ (tw.revalue f sl).service = tw.service
      ∧ (∃ m, (tw.revalue f sl).recs[sl] = { f sl tw.recs[sl] with
          target := composed tw.cfg tw.parkHold sl (f sl tw.recs[sl]), move := m })
      ∧ ∀ u : Slot, u ≠ sl → (tw.revalue f sl).recs[u] = tw.recs[u] := by
  unfold TowerState.revalue TowerState.recompose
  have hg : (tw.mod sl (f sl)).recs[sl] = f sl tw.recs[sl] := TowerState.mod_self tw sl _
  split
  · rename_i h
    rw [hg] at h
    refine ⟨TowerState.sameShell_mod _ _ _, rfl, ⟨(f sl tw.recs[sl]).move, ?_⟩,
      fun u hu => TowerState.mod_other tw sl u _ hu⟩
    rw [hg, show composed tw.cfg tw.parkHold sl (f sl tw.recs[sl]) = _ from h]
  · obtain ⟨h1, h2, ⟨m, h3⟩, h4⟩ := TowerState.handOn_spec ((tw.mod sl (f sl)).mod sl (fun r => { r with
      target := composed (tw.mod sl (f sl)).cfg (tw.mod sl (f sl)).parkHold sl r })) sl
    refine ⟨h1, h2, ⟨m, ?_⟩, fun u hu => ?_⟩
    · rw [h3, TowerState.mod_self, hg]
      rfl
    · rw [h4 u hu, TowerState.mod_other _ _ _ _ hu, TowerState.mod_other _ _ _ _ hu]

/-- A change of several records' value fields, each named once. -/
theorem TowerState.revalueAll_spec (f : Slot → KeyRec → KeyRec) (sls : List Slot) (hn : sls.Nodup) (tw : TowerState) :
    tw.sameShell (TowerState.revalueAll f sls tw) ∧ (TowerState.revalueAll f sls tw).service = tw.service
      ∧ ∀ u : Slot,
        (u ∈ sls → ∃ m, (TowerState.revalueAll f sls tw).recs[u] = { f u tw.recs[u] with
          target := composed tw.cfg tw.parkHold u (f u tw.recs[u]), move := m })
        ∧ (u ∉ sls → (TowerState.revalueAll f sls tw).recs[u] = tw.recs[u]) := by
  induction sls generalizing tw with
  | nil => exact ⟨TowerState.sameShell_refl _, rfl, fun u => ⟨by simp, fun _ => rfl⟩⟩
  | cons sl sls ih =>
    obtain ⟨hn1, hn2⟩ := List.nodup_cons.mp hn
    obtain ⟨a1, a2, a3, a4⟩ := TowerState.revalue_spec f tw sl
    obtain ⟨b1, b2, b3⟩ := ih hn2 (tw.revalue f sl)
    have hcfg : (tw.revalue f sl).cfg = tw.cfg := a1.2.1
    have hph : (tw.revalue f sl).parkHold = tw.parkHold := a1.1
    refine ⟨TowerState.sameShell_trans a1 b1, b2.trans a2, fun u => ?_⟩
    show (_ → ∃ m, (TowerState.revalueAll f sls (tw.revalue f sl)).recs[u] = _)
      ∧ (_ → (TowerState.revalueAll f sls (tw.revalue f sl)).recs[u] = _)
    by_cases hu : u = sl
    · subst hu
      refine ⟨fun _ => ?_, fun h => absurd (List.mem_cons_self ..) h⟩
      rw [(b3 u).2 hn1]; exact a3
    · refine ⟨fun h => ?_, fun h => ?_⟩
      · obtain ⟨m, hm⟩ := (b3 u).1 ((List.mem_cons.mp h).resolve_left hu)
        rw [a4 u hu, hcfg, hph] at hm
        exact ⟨m, hm⟩
      · rw [(b3 u).2 (fun h' => h (List.mem_cons_of_mem _ h')), a4 u hu]

/-- The present slots, each once. -/
theorem TowerState.slots_nodup (tw : TowerState) : tw.slots.Nodup :=
  List.Nodup.sublist List.filter_sublist (List.nodup_finRange 49)

@[simp] theorem TowerState.mem_slots (tw : TowerState) (sl : Slot) : sl ∈ tw.slots ↔ tw.present sl = true := by
  simp [TowerState.slots]

/-- The notice of R78 changes the service state alone, from PARKING to PARKED. -/
theorem TowerState.notice_spec (old tw : TowerState) :
    TowerState.notice old tw = { tw with service := (TowerState.notice old tw).service }
      ∧ (tw.service ≠ .parking → (TowerState.notice old tw).service = tw.service) := by
  unfold TowerState.notice TowerState.parkIfRest
  split
  · exact ⟨rfl, fun _ => rfl⟩
  · split
    · rename_i h; exact ⟨rfl, fun h' => absurd h.1 h'⟩
    · exact ⟨rfl, fun _ => rfl⟩

/-- A change of the value fields of some slots of a tower as one event. -/
theorem TowerState.revalueEvent_spec (f : Slot → KeyRec → KeyRec) (sls : TowerState → List Slot) (tw : TowerState)
    (hn : (sls tw).Nodup) :
    tw.sameShell (tw.revalueEvent f sls)
      ∧ (tw.service ≠ .parking → (tw.revalueEvent f sls).service = tw.service)
      ∧ ∀ u : Slot,
        (u ∈ sls tw → ∃ m, (tw.revalueEvent f sls).recs[u] = { f u tw.recs[u] with
          target := composed tw.cfg tw.parkHold u (f u tw.recs[u]), move := m })
        ∧ (u ∉ sls tw → (tw.revalueEvent f sls).recs[u] = tw.recs[u]) := by
  obtain ⟨a1, a2, a3⟩ := TowerState.revalueAll_spec f (sls tw) hn tw
  obtain ⟨n1, n2⟩ := TowerState.notice_spec tw (TowerState.revalueAll f (sls tw) tw)
  unfold TowerState.revalueEvent
  refine ⟨?_, fun h => ?_, fun u => ?_⟩
  · rw [n1]; exact a1
  · rw [n2 (by rw [a2]; exact h), a2]
  · rw [n1]; exact a3 u

/-- A sweep changes move states and the queue. -/
theorem TowerState.sweep_spec (tw : TowerState) :
    tw.sameShell tw.sweep ∧ tw.sweep.service = tw.service
      ∧ ∀ u : Slot, ∃ m, tw.sweep.recs[u] = { tw.recs[u] with move := m } := by
  unfold TowerState.sweep
  generalize tw.slots = l
  induction l generalizing tw with
  | nil => exact ⟨TowerState.sameShell_refl _, rfl, fun u => ⟨_, rfl⟩⟩
  | cons sl l ih =>
    have one : tw.sameShell (tw.sweepSlot sl) ∧ (tw.sweepSlot sl).service = tw.service
        ∧ ∀ u : Slot, ∃ m, (tw.sweepSlot sl).recs[u] = { tw.recs[u] with move := m } := by
      unfold TowerState.sweepSlot
      split
      · refine ⟨TowerState.sameShell_enqueue _ _, rfl, fun u => ?_⟩
        by_cases h : u = sl
        · subst h; exact ⟨.queued, TowerState.enqueue_self tw u⟩
        · exact ⟨tw.recs[u].move, TowerState.enqueue_other tw sl u h⟩
      · exact ⟨TowerState.sameShell_refl _, rfl, fun u => ⟨_, rfl⟩⟩
    obtain ⟨a1, a2, a3⟩ := one
    obtain ⟨b1, b2, b3⟩ := ih (tw.sweepSlot sl)
    refine ⟨TowerState.sameShell_trans a1 b1, b2.trans a2, fun u => ?_⟩
    obtain ⟨m, hm⟩ := a3 u
    obtain ⟨n, hn⟩ := b3 u
    refine ⟨n, ?_⟩
    show (List.foldl TowerState.sweepSlot (tw.sweepSlot sl) l).recs[u] = _
    rw [hn, hm]

/-- The park-hold flag changes: the value fields of every record stay, and each present record has its target
composed when the flag was the other way. -/
theorem TowerState.setParkHold_spec (b : Bool) (tw : TowerState) :
    (tw.setParkHold b).service = tw.service ∧ (tw.setParkHold b).parkHold = b ∧ (tw.setParkHold b).cfg = tw.cfg
      ∧ (tw.setParkHold b).flight = tw.flight ∧ (tw.setParkHold b).settings = tw.settings
      ∧ ∀ u : Slot, (∃ m n, (tw.setParkHold b).recs[u] = { tw.recs[u] with target := n, move := m })
        ∧ (tw.parkHold ≠ b → tw.present u = true →
            (tw.setParkHold b).recs[u].target = composed tw.cfg b u tw.recs[u]) := by
  unfold TowerState.setParkHold
  split
  · rename_i h
    exact ⟨rfl, h, rfl, rfl, rfl, fun u => ⟨⟨_, _, rfl⟩, fun h' => absurd h h'⟩⟩
  · obtain ⟨a1, a2, a3⟩ := TowerState.revalueAll_spec (fun _ r => r) tw.slots tw.slots_nodup
      { tw with parkHold := b }
    obtain ⟨s1, s2, s3, _, _, _, _, s8, _⟩ := a1
    refine ⟨a2, s1, s2, s3, s8, fun u => ?_⟩
    by_cases hu : tw.present u = true
    · obtain ⟨m, hm⟩ := (a3 u).1 ((TowerState.mem_slots tw u).mpr hu)
      refine ⟨⟨m, _, hm⟩, fun _ _ => ?_⟩
      rw [hm]
    · refine ⟨⟨tw.recs[u].move, tw.recs[u].target, ?_⟩, fun _ h => absurd h hu⟩
      exact (a3 u).2 (fun h => hu ((TowerState.mem_slots tw u).mp h))

end Sys2Proof.Machine
end

