-- ==== Sys2Proof/Laws/Account.lean ====
section
/-! SUPPORT. The move account of a tower (R61, R62) under each operation on one tower: one lemma an operation. -/

namespace Sys2Proof.Machine


/-- The move account of every slot but x, which is neither queued, in flight nor timed. -/
def TowerState.apartFrom (tw : TowerState) (x : Slot) : Prop :=
  (∀ sl : Slot, sl ≠ x → (sl ∈ tw.queue ↔ tw.recs[sl].move = .queued))
    ∧ (∀ sl : Slot, sl ≠ x → (sl ∈ tw.flight ↔ tw.recs[sl].flying = true))
    ∧ (∀ sl : Slot, sl ≠ x → (tw.recs[sl]).timer.isSome = tw.recs[sl].flying)
    ∧ x ∉ tw.queue ∧ x ∉ tw.flight ∧ (tw.recs[x]).timer = none
    ∧ tw.queue.Nodup ∧ tw.flight.Nodup ∧ tw.flight.length ≤ 4

theorem flying_iff (r : KeyRec) : r.flying = true ↔ r.move = .inFlight ∨ r.move = .retarget := by
  simp [KeyRec.flying]

theorem apart_of_accountOk {tw : TowerState} {x : Slot} (h : tw.accountOk) (hm : (tw.recs[x]).move = .idle ∨
    (tw.recs[x]).move = .fault) :
    tw.apartFrom x := by
  obtain ⟨a, b, c, d, e, f⟩ := h
  have hf : (tw.recs[x]).flying = false := by
    rcases hm with h | h <;> simp only [KeyRec.flying, h] <;> rfl
  refine ⟨fun s _ => a s, fun s _ => b s, fun s _ => c s, ?_, ?_, ?_, d, e, f⟩
  · intro hq; have := (a x).1 hq; rcases hm with h | h <;> rw [h] at this <;> cases this
  · intro hq; have := (b x).1 hq; rw [hf] at this; cases this
  · have := c x; rw [hf] at this; cases ht : (tw.recs[x]).timer with
    | none => rfl
    | some n => rw [ht] at this; cases this

theorem accountOk_of_apart {tw : TowerState} {x : Slot} (h : tw.apartFrom x) (hm : (tw.recs[x]).move = .idle ∨
    (tw.recs[x]).move = .fault) :
    tw.accountOk := by
  obtain ⟨a, b, c, q, f, t, d, e, g⟩ := h
  have hf : (tw.recs[x]).flying = false := by
    rcases hm with h | h <;> simp only [KeyRec.flying, h] <;> rfl
  refine ⟨?_, ?_, ?_, d, e, g⟩
  · intro s; by_cases hs : s = x
    · subst hs; constructor
      · intro h; exact absurd h q
      · intro h; rcases hm with k | k <;> rw [k] at h <;> cases h
    · exact a s hs
  · intro s; by_cases hs : s = x
    · subst hs; constructor
      · intro h; exact absurd h f
      · intro h; rw [hf] at h; cases h
    · exact b s hs
  · intro s; by_cases hs : s = x
    · subst hs; rw [hf, t]; rfl
    · exact c s hs

theorem apart_mod {tw : TowerState} {x : Slot} {f : KeyRec → KeyRec} (h : tw.apartFrom x) (ht : (f
    (tw.recs[x])).timer = none) :
    (tw.mod x f).apartFrom x := by
  obtain ⟨a, b, c, q, fl, t, d, e, g⟩ := h
  refine ⟨?_, ?_, ?_, q, fl, ?_, d, e, g⟩
  · intro s hs; rw [TowerState.mod_other _ _ _ _ hs]; exact a s hs
  · intro s hs; rw [TowerState.mod_other _ _ _ _ hs]; exact b s hs
  · intro s hs; rw [TowerState.mod_other _ _ _ _ hs]; exact c s hs
  · rw [TowerState.mod_self]; exact ht

theorem accountOk_enqueue {tw : TowerState} {x : Slot} (h : tw.apartFrom x) : (tw.enqueue x).accountOk := by
  obtain ⟨a, b, c, q, fl, t, d, e, g⟩ := h
  refine ⟨?_, ?_, ?_, ?_, e, g⟩
  · intro s; show s ∈ tw.queue ++ [x] ↔ _
    by_cases hs : s = x
    · subst hs; rw [TowerState.enqueue_self]; simp
    · rw [TowerState.enqueue_other _ _ _ hs]; simp [hs]; exact a s hs
  · intro s; show s ∈ tw.flight ↔ _
    by_cases hs : s = x
    · subst hs; rw [TowerState.enqueue_self]; simp [KeyRec.flying]; exact fl
    · rw [TowerState.enqueue_other _ _ _ hs]; exact b s hs
  · intro s
    by_cases hs : s = x
    · subst hs; rw [TowerState.enqueue_self]; simp [KeyRec.flying]; exact t
    · rw [TowerState.enqueue_other _ _ _ hs]; exact c s hs
  · show (tw.queue ++ [x]).Nodup
    rw [List.nodup_append]; refine ⟨d, by simp, ?_⟩
    intro a ha b hb; simp at hb; subst hb; intro hh; subst hh; exact q ha

theorem accountOk_leaveQueue {tw : TowerState} {x : Slot} (h : tw.accountOk) (hm : (tw.recs[x]).move = .queued) :
    (tw.leaveQueue x).accountOk := by
  obtain ⟨a, b, c, d, e, f⟩ := h
  have hf : (tw.recs[x]).flying = false := by simp only [KeyRec.flying, hm]; rfl
  refine ⟨?_, ?_, ?_, d.filter _, e, f⟩
  · intro s; show s ∈ tw.queue.filter (fun y => y != x) ↔ _
    by_cases hs : s = x
    · subst hs; rw [TowerState.leaveQueue_self]; simp
    · rw [TowerState.leaveQueue_other _ _ _ hs]; simp [hs]; exact a s
  · intro s; show s ∈ tw.flight ↔ _
    by_cases hs : s = x
    · subst hs; rw [TowerState.leaveQueue_self, b s]; rw [hf]; simp [KeyRec.flying]
    · rw [TowerState.leaveQueue_other _ _ _ hs]; exact b s
  · intro s
    by_cases hs : s = x
    · subst hs
      rw [TowerState.leaveQueue_self]
      have := c s
      rw [hf] at this
      simp [KeyRec.flying]
      simpa using this
    · rw [TowerState.leaveQueue_other _ _ _ hs]; exact c s

theorem accountOk_mod {tw : TowerState} {x : Slot} {f : KeyRec → KeyRec} (h : tw.accountOk) 
    (hq : (f (tw.recs[x])).move = .queued ↔ (tw.recs[x]).move = .queued)
    (hf : (f (tw.recs[x])).flying = (tw.recs[x]).flying) (ht : (f (tw.recs[x])).timer.isSome =
    (tw.recs[x]).timer.isSome) : (tw.mod x f).accountOk := by
  obtain ⟨a, b, c, d, e, g⟩ := h
  refine ⟨?_, ?_, ?_, d, e, g⟩
  · intro s; show s ∈ tw.queue ↔ _
    by_cases hs : s = x
    · subst hs; rw [TowerState.mod_self, hq]; exact a s
    · rw [TowerState.mod_other _ _ _ _ hs]; exact a s
  · intro s; show s ∈ tw.flight ↔ _
    by_cases hs : s = x
    · subst hs; rw [TowerState.mod_self, hf]; exact b s
    · rw [TowerState.mod_other _ _ _ _ hs]; exact b s
  · intro s
    by_cases hs : s = x
    · subst hs; rw [TowerState.mod_self, hf, ht]; exact c s
    · rw [TowerState.mod_other _ _ _ _ hs]; exact c s

/-- The account depends on queue, in-flight set and records alone. -/
theorem accountOk_congr {tw tv : TowerState} (h : tw.accountOk) (h1 : tv.queue = tw.queue) (h2 : tv.flight =
    tw.flight) (h3 : tv.recs = tw.recs) :
    tv.accountOk := by
  unfold TowerState.accountOk; rw [h1, h2, h3]; exact h

theorem accountOk_leaveFlight {tw : TowerState} {x : Slot} (h : tw.accountOk) (hm : (tw.recs[x]).flying = true) :
    (tw.leaveFlight x).apartFrom x := by
  obtain ⟨a, b, c, d, e, g⟩ := h
  have hr : ∀ u : Slot, (tw.leaveFlight x).recs[u] = (tw.mod x (fun r => { r with timer := none })).recs[u] := fun _ => rfl
  refine ⟨?_, ?_, ?_, ?_, ?_, ?_, d, e.filter _, Nat.le_trans (List.length_filter_le _ _) g⟩
  · intro s hs; show s ∈ tw.queue ↔ _
    rw [hr, TowerState.mod_other _ _ _ _ hs]; exact a s
  · intro s hs; show s ∈ tw.flight.filter _ ↔ _
    rw [hr, TowerState.mod_other _ _ _ _ hs]; simp [hs]; exact b s
  · intro s hs; rw [hr, TowerState.mod_other _ _ _ _ hs]; exact c s
  · show x ∉ tw.queue
    intro hq
    have := (a x).1 hq
    rw [flying_iff] at hm
    rcases hm with k | k <;> rw [k] at this <;> cases this
  · show x ∉ tw.flight.filter _; simp
  · rw [hr, TowerState.mod_self]

theorem accountOk_handOn {tw : TowerState} {x : Slot} (h : tw.accountOk) : (tw.handOn x).accountOk := by
  unfold TowerState.handOn
  split
  · split
    · exact accountOk_enqueue (apart_of_accountOk h (Or.inl (by assumption)))
    · exact h
  · split
    · exact accountOk_leaveQueue h (by assumption)
    · exact h
  · rename_i hm
    refine accountOk_mod h ?_ ?_ rfl
    · rw [hm]; constructor <;> (intro k; cases k)
    · unfold KeyRec.flying; rw [hm]; rfl
  · exact h
  · exact h

/-- A change of value fields: movement and target stay, trim, correction and ramp keep their ranges. -/
def ValueChange (f : Slot → KeyRec → KeyRec) : Prop :=
  ∀ sl r, (f sl r).move = r.move ∧ (f sl r).timer = r.timer ∧ (f sl r).target = r.target
    ∧ (-300 ≤ r.trim ∧ r.trim ≤ 300 → -300 ≤ (f sl r).trim ∧ (f sl r).trim ≤ 300)
    ∧ (-200 ≤ r.correction ∧ r.correction ≤ 200 → -200 ≤ (f sl r).correction ∧ (f sl r).correction ≤ 200)
    ∧ (r.rampOk → (f sl r).rampOk)

theorem accountOk_recompose {tw : TowerState} {x : Slot} (h : tw.accountOk) : (tw.recompose x).accountOk := by
  unfold TowerState.recompose
  split
  · exact h
  · exact accountOk_handOn (accountOk_mod h Iff.rfl rfl rfl)

theorem accountOk_revalue {f : Slot → KeyRec → KeyRec} (hf : ValueChange f) {tw : TowerState} {x : Slot} (h :
    tw.accountOk) : (tw.revalue f x).accountOk := by
  unfold TowerState.revalue
  refine accountOk_recompose (accountOk_mod h ?_ ?_ ?_)
  · rw [(hf x _).1]
  · unfold KeyRec.flying; rw [(hf x _).1]
  · rw [(hf x _).2.1]

theorem accountOk_revalueAll {f : Slot → KeyRec → KeyRec} (hf : ValueChange f) (l : List Slot) {tw : TowerState}
    (h : tw.accountOk) : (TowerState.revalueAll f l tw).accountOk := by
  unfold TowerState.revalueAll
  induction l generalizing tw with
  | nil => exact h
  | cons a l ih => exact ih (accountOk_revalue hf h)

theorem accountOk_parkIfRest {tw : TowerState} (h : tw.accountOk) : tw.parkIfRest.accountOk := by
  unfold TowerState.parkIfRest; split
  · exact accountOk_congr h rfl rfl rfl
  · exact h

theorem accountOk_notice {tw tv : TowerState} (h : tv.accountOk) : (TowerState.notice tw tv).accountOk := by
  unfold TowerState.notice; split
  · exact h
  · exact accountOk_parkIfRest h

theorem accountOk_revalueEvent {f : Slot → KeyRec → KeyRec} (hf : ValueChange f) (l : TowerState → List Slot) {tw
    : TowerState} (h : tw.accountOk) : (tw.revalueEvent f l).accountOk := 
  accountOk_notice (accountOk_revalueAll hf _ h)

theorem valueChange_id : ValueChange (fun _ r => r) := fun _ _ => ⟨rfl, rfl, rfl, id, id, id⟩
theorem clamp_range (lo hi x : Int) (h : lo ≤ hi) : lo ≤ clampInt lo hi x ∧ clampInt lo hi x ≤ hi := by
  unfold clampInt; split
  · omega
  · split <;> omega
theorem valueChange_trim (v) : ValueChange (fun _ => setTrim v) := fun _ _ => ⟨rfl, rfl, rfl, fun _ =>
    clamp_range _ _ _ (by decide), id, id⟩
theorem valueChange_add (v) : ValueChange (fun _ => addTrim v) := fun _ _ => ⟨rfl, rfl, rfl, fun _ => clamp_range
    _ _ _ (by decide), id, id⟩
theorem valueChange_hold (v) : ValueChange (fun _ => setHold v) := fun _ _ => ⟨rfl, rfl, rfl, id, id, id⟩
theorem valueChange_corr (v : Slot → Int) (h : ∀ sl, -200 ≤ v sl ∧ v sl ≤ 200) : ValueChange (fun sl =>
    setCorrection (v sl)) := fun sl _ => ⟨rfl, rfl, rfl, id, fun _ => h sl, id⟩
theorem valueChange_freeze : ValueChange (fun _ => freezeRamp) := fun _ _ =>
  ⟨rfl, rfl, rfl, id, id, fun _ _ h => nomatch h⟩
theorem valueChange_step : ValueChange (fun _ => stepRamp) := by
  intro _ r
  dsimp only
  unfold stepRamp
  split
  · exact ⟨rfl, rfl, rfl, id, id, id⟩
  · rename_i p hp
    split
    · exact ⟨rfl, rfl, rfl, id, id, fun _ _ h => nomatch h⟩
    · refine ⟨rfl, rfl, rfl, id, id, fun ho q hq => ?_⟩
      have hlt := ho p hp
      cases hq
      show p.done + 1 < p.total
      omega
theorem valueChange_preset (r) (hr : r.ramp = true → 1 ≤ r.steps) (b : Slot → Nat) :
    ValueChange (fun sl => presetRec r (b sl)) := by
  intro sl x
  dsimp only
  unfold presetRec
  split
  · rename_i hp
    refine ⟨rfl, rfl, rfl, id, id, fun _ q hq => ?_⟩
    unfold presetRamp at hq
    dsimp only at hq
    split at hq
    · exact nomatch hq
    · cases hq
      exact hr hp
  · exact ⟨rfl, rfl, rfl, id, id, fun _ _ h => nomatch h⟩

theorem accountOk_setParkHold (b) {tw : TowerState} (h : tw.accountOk) : (tw.setParkHold b).accountOk := by
  unfold TowerState.setParkHold; split
  · exact h
  · exact accountOk_revalueAll valueChange_id _ (accountOk_congr h rfl rfl rfl)

theorem accountOk_sweepSlot {tw : TowerState} (sl) (h : tw.accountOk) : (tw.sweepSlot sl).accountOk := by
  unfold TowerState.sweepSlot; split
  · rename_i hm; exact accountOk_enqueue (apart_of_accountOk h (Or.inl hm.1))
  · exact h

theorem accountOk_foldl {f : TowerState → Slot → TowerState} (hf : ∀ tw sl, tw.accountOk → (f tw sl).accountOk)
    (l : List Slot) (tw : TowerState) (h : tw.accountOk) :
    (l.foldl f tw).accountOk := by
  induction l generalizing tw with
  | nil => exact h
  | cons a l ih => exact ih _ (hf _ _ h)

theorem accountOk_sweep {tw : TowerState} (h : tw.accountOk) : tw.sweep.accountOk := accountOk_foldl (fun _ s =>
    accountOk_sweepSlot s) _ _ h

theorem accountOk_clearFaults {tw : TowerState} (h : tw.accountOk) : tw.clearFaults.accountOk := by
  refine accountOk_foldl (fun tw sl h => ?_) _ _ h
  unfold TowerState.clearFaultSlot; split
  · rename_i hm
    have e := apart_of_accountOk h (Or.inr hm)
    split
    · exact accountOk_enqueue (apart_mod e e.2.2.2.2.2.1)
    · exact accountOk_of_apart (x := sl) (apart_mod e e.2.2.2.2.2.1) (by rw [TowerState.mod_self]; exact Or.inl rfl)
  · exact h

theorem accountOk_wake (b) {tw : TowerState} (h : tw.accountOk) : (tw.wake b).accountOk := by
  unfold TowerState.wake; split
  · exact accountOk_sweep (accountOk_congr (accountOk_setParkHold _ h) rfl rfl rfl)
  · exact accountOk_sweep (accountOk_setParkHold _ (accountOk_congr h rfl rfl rfl))
  · exact h

theorem accountOk_park {tw : TowerState} (h : tw.accountOk) : tw.park.accountOk := by
  unfold TowerState.park; split
  · exact accountOk_parkIfRest (accountOk_setParkHold _ (accountOk_congr h rfl rfl rfl))
  · exact h

theorem vecMap_get {α β : Type} {n : Nat} (f : α → β) (v : Vector α n) (i : Fin n) : (vecMap f v)[i] = f v[i] := by
  simp [vecMap]

theorem vecOf_get {α : Type} {n : Nat} (f : Fin n → α) (i : Fin n) : (vecOf f)[i] = f i := by
  simp [vecOf, allFin]

theorem accountOk_withdraw (b) {tw : TowerState} (h : tw.accountOk) : (tw.withdraw b).accountOk := by
  have key : ∀ sl : Slot, (((tw.withdraw b).recs[sl]).move = .idle ∨ ((tw.withdraw b).recs[sl]).move = .fault) ∧ ((tw.withdraw b).recs[sl]).timer = none := by
    intro sl
    have e : (tw.withdraw b).recs[sl] = withdrawRec b (tw.recs[sl]) := vecMap_get _ _ _
    rw [e]
    have ht := h.2.2.1 sl
    have ht' : (tw.recs[sl]).flying = false → (tw.recs[sl]).timer = none := by
      intro k; rw [k] at ht; cases hx : (tw.recs[sl]).timer with
      | none => rfl
      | some n => rw [hx] at ht; cases ht
    unfold withdrawRec; split
    · rename_i hm; exact ⟨Or.inl hm, ht' (by unfold KeyRec.flying; rw [hm]; rfl)⟩
    · rename_i hm; split
      · exact ⟨Or.inl rfl, rfl⟩
      · exact ⟨Or.inr hm, ht' (by unfold KeyRec.flying; rw [hm]; rfl)⟩
    · exact ⟨Or.inl rfl, rfl⟩
  refine ⟨?_, ?_, ?_, List.nodup_nil, List.nodup_nil, Nat.zero_le _⟩
  · intro sl; show sl ∈ [] ↔ _; simp; intro k; rcases (key sl).1 with h | h <;> (have := h.symm.trans k; cases this)
  · intro sl; show sl ∈ [] ↔ _; rw [flying_iff]; simp only [List.not_mem_nil, false_iff]; intro k
    rcases (key sl).1 with h | h <;> rcases k with k | k <;> (have := h.symm.trans k; cases this)
  · intro sl; rw [(key sl).2]; unfold KeyRec.flying; rcases (key sl).1 with h | h <;> (rw [h]; rfl)

theorem accountOk_hello {tw : TowerState} (h : tw.accountOk) : tw.hello.accountOk := by
  unfold TowerState.hello; split
  · exact accountOk_congr (accountOk_withdraw false (accountOk_setParkHold true (accountOk_congr (tv := { tw with service := .parked }) h rfl rfl rfl))) rfl rfl rfl
  · exact h
  · exact accountOk_congr (accountOk_parkIfRest (accountOk_withdraw _ h)) rfl rfl rfl

theorem accountOk_unsuccessful {tw : TowerState} {sl : Slot} (why) (h : tw.apartFrom sl) : (tw.unsuccessful sl
    why).accountOk := by
  unfold TowerState.unsuccessful; split
  · exact accountOk_enqueue (apart_mod h h.2.2.2.2.2.1)
  · exact accountOk_of_apart (x := sl) (apart_mod h h.2.2.2.2.2.1) (by rw [TowerState.mod_self]; exact Or.inr rfl)

theorem matches_flying {r : KeyRec} {tag} (h : r.matchesTag tag = true) : r.flying = true := by
  unfold KeyRec.matchesTag at h; simp at h; exact h.1

theorem accountOk_setReported {tw : TowerState} {sl : Slot} {p} (h : tw.accountOk) : (tw.setReported sl
    p).accountOk := accountOk_mod h Iff.rfl rfl rfl
theorem accountOk_setPosition {tw : TowerState} {sl : Slot} {p} (h : tw.accountOk) : (tw.setPosition sl
    p).accountOk := accountOk_mod h Iff.rfl rfl rfl
theorem setPosition_self (tw : TowerState) (sl : Slot) (p) : (tw.setPosition sl p).recs[sl] = { tw.recs[sl] with
    commanded := some p, reported := some p } := by
  unfold TowerState.setPosition; rw [TowerState.mod_self]

theorem accountOk_takeKind (k) (sl) (tag) (p) {tw : TowerState} (h : tw.accountOk) : (tw.takeKind k sl tag
    p).accountOk := by
  cases k
  · show (tw.takeDone sl tag p).accountOk
    unfold TowerState.takeDone; split
    · rename_i hm
      have h2 : ((tw.setReported sl p).mod sl (fun r => { r with tries := 0 })).accountOk := accountOk_mod (accountOk_setReported h) Iff.rfl rfl rfl
      have e := accountOk_leaveFlight (x := sl) h2 (by rw [TowerState.mod_self]; unfold TowerState.setReported; rw [TowerState.mod_self]; exact matches_flying hm)
      unfold TowerState.afterDone; split
      · exact accountOk_enqueue e
      · exact accountOk_of_apart (x := sl) (apart_mod e e.2.2.2.2.2.1) (by rw [TowerState.mod_self]; exact Or.inl rfl)
    · exact accountOk_setReported h
  · show (tw.takeStall sl tag p).accountOk
    unfold TowerState.takeStall; split
    · rename_i hm
      exact accountOk_unsuccessful _ (accountOk_leaveFlight (accountOk_setPosition h) (by rw [setPosition_self]; exact matches_flying hm))
    · exact accountOk_setReported h
  · show (tw.takeReport sl p).accountOk
    unfold TowerState.takeReport; split
    · exact accountOk_sweepSlot _ (accountOk_setPosition h)
    · rename_i hm
      split
      · exact accountOk_leaveQueue (accountOk_setPosition h) (by rw [setPosition_self]; exact hm)
      · exact accountOk_setPosition h
    · exact accountOk_setReported h
    · exact accountOk_setReported h
    · exact accountOk_setPosition h

theorem accountOk_takeAnswer (k key tag p) {tw : TowerState} (h : tw.accountOk) : (tw.takeAnswer k key tag
    p).accountOk := by
  unfold TowerState.takeAnswer; split
  · exact accountOk_congr h rfl rfl rfl
  · split
    · exact accountOk_notice (accountOk_takeKind _ _ _ _ (accountOk_congr h rfl rfl rfl))
    · exact accountOk_congr h rfl rfl rfl

theorem accountOk_timeout (sl : Slot) {tw : TowerState} (h : tw.accountOk) (ht : (tw.recs[sl]).timer.isSome =
    true) : (tw.timeout sl).accountOk := by
  have h1 : (tw.takeTimeout sl).countTimeout.accountOk :=
    accountOk_congr (accountOk_unsuccessful .timeout (accountOk_leaveFlight h ((h.2.2.1 sl).symm.trans ht))) rfl rfl rfl
  unfold TowerState.timeout; dsimp only; split
  · exact accountOk_withdraw _ (accountOk_congr h1 rfl rfl rfl)
  · exact accountOk_notice h1

theorem accountOk_dispatch (n) {tw : TowerState} (sl : Slot) (h : tw.accountOk) (hd : tw.dispatchable = some sl)
    : (tw.dispatch n sl).accountOk := by
  unfold TowerState.dispatchable at hd
  split at hd
  · cases hd
  · rename_i x q hq
    split at hd
    · rename_i hc
      cases hd
      simp only [Bool.and_eq_true, decide_eq_true_eq] at hc
      obtain ⟨a, b, c, d, e, g⟩ := h
      have hx : (tw.recs[sl]).move = .queued := (a sl).1 (by rw [hq]; simp)
      rw [hq] at d
      have hnf : sl ∉ tw.flight := by intro k; have := (b sl).1 k; rw [flying_iff, hx] at this; rcases this with h | h <;> cases h
      have hr : ∀ u : Slot, (tw.dispatch n sl).recs[u] = (tw.mod sl (dispatchRec tw.tagCounter n)).recs[u] := fun _ => rfl
      refine ⟨?_, ?_, ?_, ?_, ?_, ?_⟩
      · intro u; show u ∈ tw.queue.drop 1 ↔ _
        rw [hr, hq]; simp only [List.drop_succ_cons, List.drop_zero]
        by_cases hu : u = sl
        · subst hu; rw [TowerState.mod_self]; simp [dispatchRec]; exact (List.nodup_cons.1 d).1
        · rw [TowerState.mod_other _ _ _ _ hu, ← a u, hq]; simp [hu]
      · intro u; show u ∈ tw.flight ++ [sl] ↔ _
        rw [hr]
        by_cases hu : u = sl
        · subst hu; rw [TowerState.mod_self]; simp [dispatchRec, KeyRec.flying]
        · rw [TowerState.mod_other _ _ _ _ hu]; simp [hu]; exact b u
      · intro u; rw [hr]
        by_cases hu : u = sl
        · subst hu; rw [TowerState.mod_self]; simp [dispatchRec, KeyRec.flying]
        · rw [TowerState.mod_other _ _ _ _ hu]; exact c u
      · show (tw.queue.drop 1).Nodup; rw [hq]; exact (List.nodup_cons.1 d).2
      · show (tw.flight ++ [sl]).Nodup; rw [List.nodup_append]; refine ⟨e, by simp, ?_⟩
        intro a ha b hb; simp at hb; subst hb; intro hh; subst hh; exact hnf ha
      · show (tw.flight ++ [sl]).length ≤ 4; simp; have := hc.1.2; simp [Config.maxInFlight] at this; omega
    · cases hd

end Sys2Proof.Machine
end

