-- ==== Sys2Proof/Laws/Words.lean ====
section
/-! SUPPORT. What the fields of a written command read as: one lemma a field. -/

namespace Sys2Proof.Machine

/-- Two bit vectors side by side, as a number. -/
theorem toNat_append_arith {n m : Nat} (x : BitVec n) (y : BitVec m) :
    (x ++ y).toNat = x.toNat * 2 ^ m + y.toNat := by
  rw [BitVec.toNat_append, Nat.shiftLeft_eq, Nat.mul_comm, ← Nat.two_pow_add_eq_or_of_lt y.isLt]

theorem codeOf_codeWord (rest : BitVec 24) (code : Byte) : codeOf (codeWord rest code) = code.toNat := by
  simp only [codeOf, fieldOf, codeWord, toNat_append_arith]
  have := code.isLt
  omega

theorem codeOf_eq (d : Word) : codeOf d = d.toNat % 256 := by
  simp [codeOf, fieldOf]

theorem indexOf_codeWord (rest : BitVec 16) (index code : Byte) :
    indexOf (codeWord (rest ++ index) code) = index := by
  apply BitVec.eq_of_toNat_eq
  simp only [indexOf, byteOf, codeWord, toNat_append_arith, BitVec.toNat_ofNat]
  have := code.isLt
  have := index.isLt
  omega

theorem byteOf_codeWord_two (rest divisor index code : Byte) :
    byteOf (codeWord (rest ++ (divisor ++ index : BitVec 16)) code) 2 = divisor := by
  apply BitVec.eq_of_toNat_eq
  simp only [byteOf, codeWord, toNat_append_arith, BitVec.toNat_ofNat]
  have := code.isLt
  have := index.isLt
  have := divisor.isLt
  omega

theorem indexOf_codeWord_arm (rest divisor index code : Byte) :
    indexOf (codeWord (rest ++ (divisor ++ index : BitVec 16)) code) = index := by
  apply BitVec.eq_of_toNat_eq
  simp only [indexOf, byteOf, codeWord, toNat_append_arith, BitVec.toNat_ofNat]
  have := code.isLt
  have := index.isLt
  have := divisor.isLt
  omega

theorem codeOf_bankCommandWord (bk : BankId) (rest : BitVec 23) (code : Byte) :
    codeOf (bankCommandWord bk rest code) = code.toNat :=
  codeOf_codeWord _ _

theorem bankOf_bankCommandWord (bk : BankId) (rest : BitVec 23) (code : Byte) :
    bankOf (bankCommandWord bk rest code) = bk := by
  have h : (bankCommandWord bk rest code).getLsbD 8 = decide (bk = .b) := by
    simp only [bankCommandWord, codeWord, BitVec.getLsbD_append]
    cases bk <;> simp [bankSelector]
  unfold bankOf
  rw [h]
  cases bk <;> simp

theorem setWidth_flags (rest : BitVec 18) (flags : BitVec 14) :
    (rest ++ flags : BitVec 32).setWidth 14 = flags := by
  apply BitVec.eq_of_toNat_eq
  simp only [BitVec.toNat_setWidth, toNat_append_arith]
  have := flags.isLt
  omega

theorem halfOf_low (rest trim : Half) : halfOf (rest ++ trim : BitVec 32) 0 = trim := by
  apply BitVec.eq_of_toNat_eq
  simp only [halfOf, toNat_append_arith, BitVec.toNat_ofNat]
  have := trim.isLt
  omega

/-! ### Control words -/

theorem wordTowerOf_tower (t : Tower) : wordTowerOf (wordTower t) = some t := by
  revert t; decide

theorem bindSource_tower (t : Tower) : bindSource (wordTower t) = none := by
  revert t; decide

theorem wordTowerOf_bind (k : Source) : wordTowerOf (wordBind k) = none := by cases k <;> rfl

theorem bindSource_bind (k : Source) : bindSource (wordBind k) = some k := by cases k <;> rfl

end Sys2Proof.Machine
end

