-- ==== Sys2Proof/Laws/Commands.lean ====
section
/-! SUPPORT. What taking a command from a control word leaves, in terms of the command's own effect. -/

namespace Sys2Proof.Machine

/-- keepOwn changes the mirror set alone. -/
@[simp] theorem Control.keepOwn_keeps (w : CtlWord) (o c : Control) :
    (Control.keepOwn w o c).part = c.part ∧ (Control.keepOwn w o c).flags = c.flags ∧
    (Control.keepOwn w o c).enables = c.enables ∧ (Control.keepOwn w o c).mode = c.mode ∧
    (Control.keepOwn w o c).line = c.line ∧ (Control.keepOwn w o c).noticeAddr = c.noticeAddr ∧
    (Control.keepOwn w o c).noticeDatum = c.noticeDatum ∧ (Control.keepOwn w o c).noticePending = c.noticePending ∧
    (Control.keepOwn w o c).capture = c.capture ∧ (Control.keepOwn w o c).pointer = c.pointer ∧
    (Control.keepOwn w o c).last = c.last ∧ (Control.keepOwn w o c).channel = c.channel := by
  unfold Control.keepOwn; split <;> simp [Control.unmirror]

/-- What a taken command leaves: the result and the claim of its answer write beside the command's own effect. -/
theorem State.takeCommand_took {s s1 : State} {cls : MasterClass} {addr : Addr} {d : Word} {w : CtlWord} {r : Result}
    (hc : s.command w d = (r, s1)) (hb : s1.bus = s.bus) (hr : s1.lastResponse = s.lastResponse)
    (hm : s1.mem = s.mem) (hl : s1.control.last = s.control.last) :
    s.tookCommand (State.settle s (s.takeCommand (fullWrite cls addr d) w)) cls addr d w r := by
  have e : s.takeCommand (fullWrite cls addr d) w
      = ((({ s1 with control := Control.keepOwn w s.control s1.control } : State).setResult w r d).claim
          (fullWrite cls addr d) (.answer w r (indexOf d))) := by
    show State.claim _ _ _ = _
    rw [show (fullWrite cls addr d).data = d from rfl, hc]
  have hl2 : (State.settle s (s.takeCommand (fullWrite cls addr d) w)).control.last
      = if carriesResult w then s.control.last.set w r else s.control.last := by
    rw [(State.settle_control _ _).2.2.2.2.2.2.2.2.2, e]
    simp only [State.claim_keeps, State.setResult, Control.setLast]
    split <;> simp [hl]
  have hb2 : (State.settle s (s.takeCommand (fullWrite cls addr d) w)).bus
      = s.bus.put cls (some ⟨fullWrite cls addr d, .claim (.answer w r (indexOf d))⟩) := by
    rw [(State.settle_keeps _ _).2.2.2.1, e]
    simp [State.claim, State.setStage, State.setResult, hb, fullWrite]
  refine ⟨?_, ?_, ?_, ?_, ?_, ?_⟩
  · rw [hb2]; simp
  · intro h; rw [hl2, h]; simp
  · intro v hv
    rw [hl2]
    split
    · simp only [Fin.getElem_fin, Vector.getElem_set]
      rw [if_neg (fun e => hv (Fin.ext e.symm))]
    · rfl
  · intro c hne
    rw [hb2]
    refine ⟨by simp [hne], ?_⟩
    rw [(State.settle_keeps _ _).2.2.1, e]
    simp [State.setResult, hr]
  · rw [(State.settle_keeps _ _).2.2.1, e]
    simp [State.setResult, hr]
  · intro a
    rw [(State.settle_keeps _ _).2.1, e]
    simp [State.setResult, hm]

/-- The rest of the state after a taken command, in terms of the command's own effect. -/
theorem State.takeCommand_rest {s s1 : State} {cls : MasterClass} {addr : Addr} {d : Word} {w : CtlWord} {r : Result}
    (hc : s.command w d = (r, s1)) :
    let t := State.settle s (s.takeCommand (fullWrite cls addr d) w)
    t.pending = s1.pending ∧ t.windows = s1.windows ∧ t.curves = s1.curves ∧ t.timeout = s1.timeout
      ∧ t.levels = s1.levels ∧ t.coverage = s1.coverage ∧ t.loop = s1.loop ∧ t.loader = s1.loader
      ∧ t.engine = (if w = wordStart then { s1.engine with startIndex := indexOf d }
          else if w = wordStop then { s1.engine with stopIndex := indexOf d } else s1.engine)
      ∧ t.control.part = s1.control.part ∧ t.control.flags = s1.control.flags
      ∧ t.control.enables = s1.control.enables ∧ t.control.mode = s1.control.mode
      ∧ t.control.line = s1.control.line ∧ t.control.noticeAddr = s1.control.noticeAddr
      ∧ t.control.noticeDatum = s1.control.noticeDatum ∧ t.control.noticePending = s1.control.noticePending
      ∧ t.control.capture = s1.control.capture
      ∧ s1.samePort t ∧ (s1.towers = s.towers → t.towers = s.towers ∧ t.link = s1.link)
      ∧ ∀ u : Tower, (s1.towers[u]).sameUnder t.towers[u] := by
  have e : s.takeCommand (fullWrite cls addr d) w
      = ((({ s1 with control := Control.keepOwn w s.control s1.control } : State).setResult w r d).claim
          (fullWrite cls addr d) (.answer w r (indexOf d))) := by
    show State.claim _ _ _ = _
    rw [show (fullWrite cls addr d).data = d from rfl, hc]
  have hcp : (s.takeCommand (fullWrite cls addr d) w).control.part = s1.control.part ∧
      (s.takeCommand (fullWrite cls addr d) w).control.flags = s1.control.flags ∧
      (s.takeCommand (fullWrite cls addr d) w).control.enables = s1.control.enables ∧
      (s.takeCommand (fullWrite cls addr d) w).control.mode = s1.control.mode ∧
      (s.takeCommand (fullWrite cls addr d) w).control.line = s1.control.line ∧
      (s.takeCommand (fullWrite cls addr d) w).control.noticeAddr = s1.control.noticeAddr ∧
      (s.takeCommand (fullWrite cls addr d) w).control.noticeDatum = s1.control.noticeDatum ∧
      (s.takeCommand (fullWrite cls addr d) w).control.noticePending = s1.control.noticePending ∧
      (s.takeCommand (fullWrite cls addr d) w).control.capture = s1.control.capture := by
    rw [e]
    simp only [State.claim_keeps, State.setResult, Control.setLast]
    split <;> simp
  have ht : (s.takeCommand (fullWrite cls addr d) w).towers = s1.towers := by rw [e]; simp [State.setResult]
  have hp : (s.takeCommand (fullWrite cls addr d) w).port = s1.port := by rw [e]; simp [State.setResult]
  have hk : (s.takeCommand (fullWrite cls addr d) w).link = s1.link := by rw [e]; simp [State.setResult]
  obtain ⟨c1, c2, c3, c4, c5, c6, c7, c8, c9⟩ := hcp
  intro t
  refine ⟨?_, ?_, ?_, ?_, ?_, ?_, ?_, ?_, ?_, ?_, ?_, ?_, ?_, ?_, ?_, ?_, ?_, ?_, ?_, ?_, ?_⟩
  · simp [t, e, State.setResult]
  · simp [t, e, State.setResult]
  · simp [t, e, State.setResult]
  · simp [t, e, State.setResult]
  · simp [t, e, State.setResult]
  · simp [t, e, State.setResult]
  · simp [t, e, State.setResult]
  · simp [t, e, State.setResult]
  · simp [t, e, State.setResult]
  · simp [t, c1]
  · simp [t, c2]
  · simp [t, c3]
  · simp [t, c4]
  · simp [t, c5]
  · simp [t, c6]
  · simp [t, c7]
  · simp [t, c8]
  · simp [t, c9]
  · exact State.samePort_trans (State.samePort_of_eq hp) (State.samePort_settle _ _)
  · intro h
    have : (s.takeCommand (fullWrite cls addr d) w).towers = s.towers := ht.trans h
    simp only [t, State.settle_of_towers this]
    simp [this, hk]
  · intro u
    have := State.settle_tower s (s.takeCommand (fullWrite cls addr d) w) u
    rw [ht] at this; exact this

/-- A command that reaches its control word: the next state, with what it took and what else it left. -/
theorem State.exec_command {s s1 : State} {cls : MasterClass} {addr : Addr} {d : Word} {w : CtlWord} {r : Result}
    {e : Host.Outcome State Fault Refusal} (he : e = afterEvent (State.arrive (fullWrite cls addr d)) s)
    (ha : s.admitsCommand cls addr d w) (hc : s.command w d = (r, s1)) (hb : s1.bus = s.bus)
    (hr : s1.lastResponse = s.lastResponse) (hm : s1.mem = s.mem) (hl : s1.control.last = s.control.last) :
    ∃ t, e = .next t ∧ s.tookCommand t cls addr d w r
      ∧ t.pending = s1.pending ∧ t.windows = s1.windows ∧ t.curves = s1.curves ∧ t.timeout = s1.timeout
      ∧ t.levels = s1.levels ∧ t.coverage = s1.coverage ∧ t.loop = s1.loop ∧ t.loader = s1.loader
      ∧ t.engine = (if w = wordStart then { s1.engine with startIndex := indexOf d }
          else if w = wordStop then { s1.engine with stopIndex := indexOf d } else s1.engine)
      ∧ t.control.part = s1.control.part ∧ t.control.flags = s1.control.flags
      ∧ t.control.enables = s1.control.enables ∧ t.control.mode = s1.control.mode
      ∧ t.control.line = s1.control.line ∧ t.control.noticeAddr = s1.control.noticeAddr
      ∧ t.control.noticeDatum = s1.control.noticeDatum ∧ t.control.noticePending = s1.control.noticePending
      ∧ t.control.capture = s1.control.capture
      ∧ s1.samePort t ∧ (s1.towers = s.towers → t.towers = s.towers ∧ t.link = s1.link)
      ∧ ∀ u : Tower, (s1.towers[u]).sameUnder t.towers[u] := by
  refine ⟨_, ?_, State.takeCommand_took (d := d) (w := w) (addr := addr) hc hb hr hm hl, State.takeCommand_rest hc⟩
  rw [he]
  unfold afterEvent
  rw [State.arrive_command ha]

/-! ### Which owner takes a command -/

theorem State.command_start (s : State) (d : Word) : s.command wordStart d = s.startWord d := rfl

theorem State.command_stop (s : State) (d : Word) : s.command wordStop d = s.stopWord d := rfl

theorem State.command_bank (s : State) (d : Word) : s.command wordBank d = s.bankWord d := rfl

theorem State.command_reload (s : State) (d : Word) : s.command wordReload d = s.reloadWord d := rfl

theorem State.command_bind (s : State) (d : Word) (k : Source) : s.command (wordBind k) d = s.bindWord k d := by
  cases k <;> rfl

theorem State.command_tower (s : State) (d : Word) (t : Tower) : s.command (wordTower t) d = s.towerWord t d := by
  simp only [State.command, wordTowerOf_tower]

/-- A command that a tower takes by itself reaches its word: the next state. -/
theorem State.exec_towerCommand {s : State} {u : Tower} {f : TowerState → Result × TowerState} {cls : MasterClass}
    {addr : Addr} {d : Word} {e : Host.Outcome State Fault Refusal}
    (he : e = afterEvent (State.arrive (fullWrite cls addr d)) s) (ha : s.admitsCommand cls addr d (wordTower u))
    (hc : s.command (wordTower u) d = s.towerCommand u f) :
    ∃ t, e = .next t ∧ s.tookCommand t cls addr d (wordTower u) (f s.towers[u]).1
      ∧ s.samePort t ∧ s.sameSetup t ∧ t.coverage = s.coverage ∧ t.engine = s.engine ∧ t.loop = s.loop
      ∧ t.loader = s.loader ∧ s.sameSettings t ∧ s.sameEvents t
      ∧ ((f s.towers[u]).2 = s.towers[u] → s.sameTowers t)
      ∧ ((f s.towers[u]).2).sameUnder t.towers[u]
      ∧ (∀ v : Tower, v ≠ u → (s.towers[v]).sameUnder t.towers[v])
      ∧ ∃ s1 : State, t = State.settle s s1 ∧ s1.link = s.link ∧ s1.timeout = s.timeout
          ∧ ∀ v : Tower, s1.towers[v] = if v = u then (f s.towers[u]).2 else s.towers[v] := by
  have hw : wordTower u ≠ wordStart ∧ wordTower u ≠ wordStop := by
    clear he ha hc
    revert u
    decide
  have he' : e = .next (State.settle s (s.takeCommand (fullWrite cls addr d) (wordTower u))) := by
    rw [he]
    unfold afterEvent
    rw [State.arrive_command ha]
  obtain ⟨t, h1, h2, p1, p2, p3, p4, p5, p6, p7, p8, p9, q1, q2, q3, q4, q5, q6, q7, q8, q9, r1, r2, r3⟩ :=
    State.exec_command (s1 := s.modTower u (fun tw => (f tw).2)) (r := (f s.towers[u]).1) he ha hc (by simp)
      (by simp) (by simp) (by simp)
  have ht : t = State.settle s (s.takeCommand (fullWrite cls addr d) (wordTower u)) := by
    rw [h1] at he'
    cases he'
    rfl
  rw [if_neg hw.1, if_neg hw.2] at p9
  simp only [State.modTower_keeps, State.modTower_control] at p1 p2 p3 p4 p5 p6 p7 p8 q1 q2 q3 q4 q5 q6 q7 q8 q9 p9
  have hx : (s.takeCommand (fullWrite cls addr d) (wordTower u)).towers = (s.modTower u (fun tw => (f tw).2)).towers
      ∧ (s.takeCommand (fullWrite cls addr d) (wordTower u)).link = s.link
      ∧ (s.takeCommand (fullWrite cls addr d) (wordTower u)).timeout = s.timeout := by
    have hd : (fullWrite cls addr d).data = d := rfl
    unfold State.takeCommand
    rw [hd, hc]
    simp [State.setResult, State.towerCommand]
  refine ⟨t, h1, h2, State.samePort_trans (State.samePort_of_eq (by simp)) r1, ⟨p2, p3, p4, p5, p1⟩, p6, p9, p7, p8,
    ⟨q1, q3, q4, q6, q7⟩, ⟨q2, q9, q5, q8⟩, fun h => ?_, ?_, fun v hv => ?_, _, ht, hx.2.1, hx.2.2, fun v => ?_⟩
  · have := r2 (by
      show (s.putTower u (f s.towers[u]).2).towers = _
      rw [h, State.putTower_self])
    exact ⟨this.1, by rw [this.2]; simp⟩
  · have := r3 u
    rw [State.modTower_get, if_pos rfl] at this
    exact this
  · have := r3 v
    rw [State.modTower_get, if_neg hv] at this
    exact this
  · rw [hx.1, State.modTower_get]

end Sys2Proof.Machine
end

