-- ==== Sys2Proof/Laws/Engine.lean ====
section
/-! SUPPORT. The order-start side: removals from the waiting requests, and what an engine replaced reads as. -/

namespace Sys2Proof.Machine

@[simp] theorem State.putEngine_engine (s : State) (e : Engine) : (s.putEngine e).engine = e := rfl

theorem mem_allSources (k : Source) : k ∈ allSources := by cases k <;> simp [allSources]

/-- A binding changed; the rest of the engine stays. -/
@[simp] theorem Engine.modBinding_get (e : Engine) (k j : Source) (f : Binding → Binding) :
    (e.modBinding k f).bindings.get j = if j = k then f (e.bindings.get k) else e.bindings.get j :=
  PerSource.get_put _ _ _ _

/-- A waiting request of an index is a binding's request with that index. -/
theorem Engine.any_pendingAt (e : Engine) (i : Nat) :
    allSources.any (e.pendingAt i) = true
      ↔ ∃ k, (e.bindings.get k).pending = true ∧ (e.bindings.get k).index = i := by
  simp only [List.any_eq_true, Engine.pendingAt, Bool.and_eq_true, decide_eq_true_eq]
  exact ⟨fun ⟨k, _, h⟩ => ⟨k, h⟩, fun ⟨k, h⟩ => ⟨k, mem_allSources k, h⟩⟩

/-- A binding without its request of an index. -/
def Binding.without (i : Nat) (x : Binding) : Binding := { x with pending := x.pending && decide (x.index ≠ i) }

/-- Removing the waiting requests of an index clears its slot and its pending flags and changes nothing else. -/
theorem Engine.removeWaiting_spec (e : Engine) (i : Nat) :
    (e.removeWaiting i).slot = (if e.slot = some i then none else e.slot)
      ∧ (e.removeWaiting i).stop = e.stop ∧ (e.removeWaiting i).state = e.state
      ∧ ∀ k, (e.removeWaiting i).bindings.get k = (e.bindings.get k).without i := by
  have one : ∀ (e : Engine) (k j : Source),
      (if e.pendingAt i k then e.modBinding k Binding.unpend else e).bindings.get j
        = if j = k then (e.bindings.get j).without i else e.bindings.get j := by
    intro e k j
    by_cases hj : j = k
    · subst hj
      rw [if_pos rfl]
      by_cases hp : e.pendingAt i j = true
      · rw [if_pos hp, Engine.modBinding_get, if_pos rfl]
        simp only [Engine.pendingAt, Bool.and_eq_true, decide_eq_true_eq] at hp
        simp [Binding.unpend, Binding.without, hp]
      · rw [if_neg hp]
        simp only [Engine.pendingAt, Bool.and_eq_true, decide_eq_true_eq, not_and] at hp
        unfold Binding.without
        cases hb : e.bindings.get j with
        | mk a p n =>
          rw [hb] at hp
          cases p <;> simp_all
    · rw [if_neg hj]
      split
      · rw [Engine.modBinding_get, if_neg hj]
      · rfl
  have gen : ∀ (l : List Source) (e : Engine), l.Nodup →
      (l.foldl (fun e k => if e.pendingAt i k then e.modBinding k Binding.unpend else e) e).slot = e.slot
        ∧ (l.foldl (fun e k => if e.pendingAt i k then e.modBinding k Binding.unpend else e) e).stop = e.stop
        ∧ (l.foldl (fun e k => if e.pendingAt i k then e.modBinding k Binding.unpend else e) e).state = e.state
        ∧ ∀ j, (l.foldl (fun e k => if e.pendingAt i k then e.modBinding k Binding.unpend else e) e).bindings.get j
            = if j ∈ l then (e.bindings.get j).without i else e.bindings.get j := by
    intro l
    induction l with
    | nil => intro e _; exact ⟨rfl, rfl, rfl, fun j => by simp⟩
    | cons k l ih =>
      intro e hn
      obtain ⟨hk, hl⟩ := List.nodup_cons.mp hn
      obtain ⟨h1, h2, h3, h4⟩ := ih (if e.pendingAt i k then e.modBinding k Binding.unpend else e) hl
      refine ⟨h1.trans ?_, h2.trans ?_, h3.trans ?_, fun j => (h4 j).trans ?_⟩
      · split <;> rfl
      · split <;> rfl
      · split <;> rfl
      · rw [one]
        by_cases hj : j = k
        · subst hj; simp [hk]
        · simp [hj]
  obtain ⟨h1, h2, h3, h4⟩ := gen allSources { e with slot := if e.slot = some i then none else e.slot } (by decide)
  refine ⟨h1, h2, h3, fun k => (h4 k).trans ?_⟩
  rw [if_pos (mem_allSources k)]

/-- Clearing every pending flag changes nothing else of the engine. -/
theorem Engine.unpendAll_spec (l : List Source) (e : Engine) :
    l.foldl (fun e k => e.modBinding k Binding.unpend) e
        = { e with bindings := (l.foldl (fun e k => e.modBinding k Binding.unpend) e).bindings }
      ∧ ∀ k, (l.foldl (fun e k => e.modBinding k Binding.unpend) e).bindings.get k
          = if k ∈ l then (e.bindings.get k).unpend else e.bindings.get k := by
  induction l generalizing e with
  | nil => exact ⟨rfl, fun k => by simp⟩
  | cons j l ih =>
    obtain ⟨h1, h2⟩ := ih (e.modBinding j Binding.unpend)
    refine ⟨h1, fun k => (h2 k).trans ?_⟩
    rw [Engine.modBinding_get]
    by_cases hk : k = j
    · subst hk; by_cases hl : k ∈ l <;> simp [hl, Binding.unpend]
    · simp [hk]

end Sys2Proof.Machine
end

