-- ==== Sys2Proof/Laws/Towers.lean ====
section
/-! SUPPORT. What WAKE and PARK do to a tower, by the state it leaves. -/

namespace Sys2Proof.Machine

/-- A composed target under park-hold is 0. -/
theorem composed_parkHold (cfg : Option KeyCfg) (sl : Slot) (r : KeyRec) : composed cfg true sl r = 0 := by
  unfold composed
  split <;> simp

/-- WAKE from PARKED or PARKING: park-hold is cleared, each present record is composed without it, and the value
fields stay. -/
theorem TowerState.wake_spec (impr : Bool) (tw : TowerState) (h : tw.service = .parked ∨ tw.service = .parking) :
    (tw.wake impr).service = (if impr then .printing else .ready) ∧ (tw.wake impr).parkHold = false
      ∧ (tw.wake impr).cfg = tw.cfg
      ∧ ∀ sl : Slot, (∃ m n, (tw.wake impr).recs[sl] = { tw.recs[sl] with target := n, move := m })
        ∧ (tw.parkHold = true → tw.present sl = true →
            ((tw.wake impr).recs[sl]).target = composed tw.cfg false sl (tw.recs[sl])) := by
  rcases h with h | h
  · have e : tw.wake impr = ({ tw.setParkHold false with service := wokenState impr } : TowerState).sweep := by
      simp [TowerState.wake, h]
    rw [e]
    obtain ⟨a1, a2, a3⟩ :=
      TowerState.sweep_spec ({ tw.setParkHold false with service := wokenState impr } : TowerState)
    obtain ⟨b1, b2, b3, b4, b5, b6⟩ := TowerState.setParkHold_spec false tw
    refine ⟨a2, a1.1.trans b2, a1.2.1.trans b3, fun sl => ?_⟩
    obtain ⟨m, hm⟩ := a3 sl
    obtain ⟨⟨m', n', hm'⟩, hn⟩ := b6 sl
    refine ⟨⟨m, n', ?_⟩, fun h1 h2 => ?_⟩
    · rw [hm]
      show ({ (tw.setParkHold false).recs[sl] with move := m } : KeyRec) = _
      rw [hm']
    · rw [hm]
      exact hn (by simp [h1]) h2
  · have e : tw.wake impr = (({ tw with service := wokenState impr } : TowerState).setParkHold false).sweep := by
      simp [TowerState.wake, h]
    rw [e]
    obtain ⟨a1, a2, a3⟩ :=
      TowerState.sweep_spec (({ tw with service := wokenState impr } : TowerState).setParkHold false)
    obtain ⟨b1, b2, b3, b4, b5, b6⟩ :=
      TowerState.setParkHold_spec false ({ tw with service := wokenState impr } : TowerState)
    refine ⟨a2.trans b1, a1.1.trans b2, a1.2.1.trans b3, fun sl => ?_⟩
    obtain ⟨m, hm⟩ := a3 sl
    obtain ⟨⟨m', n', hm'⟩, hn⟩ := b6 sl
    refine ⟨⟨m, n', ?_⟩, fun h1 h2 => ?_⟩
    · rw [hm, hm']
    · rw [hm]
      exact hn (by simp [h1]) h2

/-- PARK from READY or PRINTING: park-hold is set, each present record composes to 0, the value fields stay, and the
tower is PARKED exactly when its moves are at rest. -/
theorem TowerState.park_spec (tw : TowerState) (h : tw.service = .ready ∨ tw.service = .printing) :
    tw.park.service = (if tw.park.atRest then .parked else .parking) ∧ tw.park.parkHold = true
      ∧ tw.park.cfg = tw.cfg
      ∧ ∀ sl : Slot, (∃ m n, tw.park.recs[sl] = { tw.recs[sl] with target := n, move := m })
        ∧ (tw.parkHold = false → tw.present sl = true → (tw.park.recs[sl]).target = 0) := by
  have e : tw.park = (({ tw with service := .parking } : TowerState).setParkHold true).parkIfRest := by
    simp [TowerState.park, h]
  obtain ⟨b1, b2, b3, b4, b5, b6⟩ :=
    TowerState.setParkHold_spec true ({ tw with service := .parking } : TowerState)
  have hr : (({ tw with service := .parking } : TowerState).setParkHold true).parkIfRest.recs
      = (({ tw with service := .parking } : TowerState).setParkHold true).recs := by
    unfold TowerState.parkIfRest
    split <;> rfl
  have hs : ∀ x : TowerState, x.service = .parking →
      x.parkIfRest.service = if x.parkIfRest.atRest then .parked else .parking := by
    intro x hx
    unfold TowerState.parkIfRest
    by_cases hq : x.atRest = true
    · rw [if_pos ⟨hx, hq⟩]
      have : ({ x with service := .parked } : TowerState).atRest = true := hq
      rw [this]
      rfl
    · rw [if_neg (fun k => hq k.2)]
      simp [hq, hx]
  have hp : (({ tw with service := .parking } : TowerState).setParkHold true).parkIfRest.parkHold
      = (({ tw with service := .parking } : TowerState).setParkHold true).parkHold := by
    unfold TowerState.parkIfRest
    split <;> rfl
  have hc : (({ tw with service := .parking } : TowerState).setParkHold true).parkIfRest.cfg
      = (({ tw with service := .parking } : TowerState).setParkHold true).cfg := by
    unfold TowerState.parkIfRest
    split <;> rfl
  rw [e]
  refine ⟨hs _ b1, hp.trans b2, hc.trans b3, fun sl => ?_⟩
  rw [hr]
  refine ⟨?_, fun h1 h2 => ?_⟩
  · obtain ⟨⟨m, n, hm⟩, _⟩ := b6 sl
    exact ⟨m, n, hm⟩
  · rw [(b6 sl).2 (by simp [h1]) h2, composed_parkHold]

/-- A record after CLEAR_FAULTS takes its key out of FAULT (R76). -/
def KeyRec.outOfFault (again : Bool) (r : KeyRec) : KeyRec :=
  { r with tries := 0, fault := none, move := if again then .queued else .idle }

/-- CLEAR_FAULTS on one slot. -/
theorem TowerState.clearFaultSlot_spec (tw : TowerState) (sl : Slot) :
    tw.sameShell (tw.clearFaultSlot sl) ∧ (tw.clearFaultSlot sl).service = tw.service
      ∧ (∀ u : Slot, (tw.clearFaultSlot sl).recs[u]
          = if u = sl ∧ tw.recs[u].move = .fault
            then tw.recs[u].outOfFault (admitsMoves tw.service && tw.recs[u].commanded.isSome) else tw.recs[u])
      ∧ ∀ u : Slot, u ∈ (tw.clearFaultSlot sl).queue → u ∈ tw.queue ∨ (u = sl ∧ tw.recs[u].move = .fault
          ∧ (admitsMoves tw.service && tw.recs[u].commanded.isSome) = true) := by
  unfold TowerState.clearFaultSlot
  by_cases hf : tw.recs[sl].move = .fault
  · rw [if_pos hf]
    by_cases hc : (admitsMoves tw.service && tw.recs[sl].commanded.isSome) = true
    · rw [if_pos hc]
      refine ⟨TowerState.sameShell_refl _, rfl, fun u => ?_, fun u hu => ?_⟩
      · by_cases hu : u = sl
        · subst hu
          rw [if_pos ⟨rfl, hf⟩, TowerState.enqueue_self, TowerState.mod_self, hc]
          rfl
        · rw [if_neg (fun e => hu e.1), TowerState.enqueue_other _ _ _ hu, TowerState.mod_other _ _ _ _ hu]
      · rcases List.mem_append.mp hu with h | h
        · exact Or.inl h
        · have e : u = sl := by simpa using h
          subst e
          exact Or.inr ⟨rfl, hf, hc⟩
    · rw [if_neg hc]
      refine ⟨TowerState.sameShell_refl _, rfl, fun u => ?_, fun u hu => Or.inl hu⟩
      by_cases hu : u = sl
      · subst hu
        rw [if_pos ⟨rfl, hf⟩, TowerState.mod_self]
        simp only [KeyRec.outOfFault, hc, Bool.false_eq_true, if_false]
      · rw [if_neg (fun e => hu e.1), TowerState.mod_other _ _ _ _ hu]
  · rw [if_neg hf]
    refine ⟨TowerState.sameShell_refl _, rfl, fun u => ?_, fun u hu => Or.inl hu⟩
    by_cases hu : u = sl
    · subst hu
      rw [if_neg (fun e => hf e.2)]
    · rw [if_neg (fun e => hu e.1)]

/-- CLEAR_FAULTS on a tower: each present key in FAULT leaves it, and every other record stays (R76). -/
theorem TowerState.clearFaults_spec (tw : TowerState) :
    tw.sameShell tw.clearFaults ∧ tw.clearFaults.service = tw.service
      ∧ (∀ u : Slot, tw.clearFaults.recs[u]
          = if tw.present u = true ∧ tw.recs[u].move = .fault
            then tw.recs[u].outOfFault (admitsMoves tw.service && tw.recs[u].commanded.isSome) else tw.recs[u])
      ∧ ∀ u : Slot, u ∈ tw.clearFaults.queue → u ∈ tw.queue ∨ (tw.recs[u].move = .fault
          ∧ (admitsMoves tw.service && tw.recs[u].commanded.isSome) = true) := by
  have gen : ∀ (l : List Slot) (tw : TowerState), l.Nodup →
      tw.sameShell (l.foldl TowerState.clearFaultSlot tw) ∧ (l.foldl TowerState.clearFaultSlot tw).service = tw.service
      ∧ (∀ u : Slot, (l.foldl TowerState.clearFaultSlot tw).recs[u]
          = if u ∈ l ∧ tw.recs[u].move = .fault
            then tw.recs[u].outOfFault (admitsMoves tw.service && tw.recs[u].commanded.isSome) else tw.recs[u])
      ∧ ∀ u : Slot, u ∈ (l.foldl TowerState.clearFaultSlot tw).queue → u ∈ tw.queue ∨ (tw.recs[u].move = .fault
          ∧ (admitsMoves tw.service && tw.recs[u].commanded.isSome) = true) := by
    intro l
    induction l with
    | nil => intro tw _; exact ⟨TowerState.sameShell_refl _, rfl, fun u => by simp, fun u h => Or.inl h⟩
    | cons sl l ih =>
      intro tw hn
      obtain ⟨hsl, hl⟩ := List.nodup_cons.mp hn
      obtain ⟨a1, a2, a3, a4⟩ := TowerState.clearFaultSlot_spec tw sl
      obtain ⟨b1, b2, b3, b4⟩ := ih (tw.clearFaultSlot sl) hl
      refine ⟨TowerState.sameShell_trans a1 b1, b2.trans a2, fun u => ?_, fun u hu => ?_⟩
      · refine (b3 u).trans ?_
        by_cases hu : u = sl
        · subst hu
          rw [if_neg (fun e => hsl e.1), a3 u]
          by_cases hf : tw.recs[u].move = .fault
          · rw [if_pos ⟨rfl, hf⟩, if_pos ⟨List.mem_cons_self .., hf⟩]
          · rw [if_neg (fun e => hf e.2), if_neg (fun e => hf e.2)]
        · have e : (tw.clearFaultSlot sl).recs[u] = tw.recs[u] := (a3 u).trans (if_neg (fun e => hu e.1))
          rw [e, a2]
          by_cases hm : u ∈ l
          · simp [hm]
          · simp [hm, hu]
      · rcases b4 u hu with h | ⟨h1, h2⟩
        · rcases a4 u h with h | ⟨_, h1, h2⟩
          · exact Or.inl h
          · exact Or.inr ⟨h1, h2⟩
        · rw [a3 u] at h1 h2
          rw [a2] at h2
          by_cases hu : u = sl ∧ tw.recs[u].move = .fault
          · rw [if_pos hu] at h1
            exfalso
            unfold KeyRec.outOfFault at h1
            dsimp only at h1
            split at h1 <;> cases h1
          · rw [if_neg hu] at h1 h2
            exact Or.inr ⟨h1, h2⟩
  obtain ⟨g1, g2, g3, g4⟩ := gen tw.slots tw tw.slots_nodup
  refine ⟨g1, g2, fun u => (g3 u).trans ?_, g4⟩
  simp only [TowerState.mem_slots]

end Sys2Proof.Machine
end

