-- ==== Sys2Proof/Laws/Moves.lean ====
section
/-! SUPPORT. What an answer, the expiry of a timer, a withdrawal, a dispatch and the gate do, each said once: one key
changes, the others stand, and a PARKING tower is PARKED as its moves come to rest. -/

namespace Sys2Proof.Machine

/-! ### One key of a tower -/

/-- The notice of R78 over an unchanged service state: PARKED where a PARKING tower's moves came to rest. -/
theorem TowerState.notice_eq {old new : TowerState} (h : new.service = old.service) :
    TowerState.notice old new = { new with
      service := if old.service = .parking ∧ ¬(old.queue = [] ∧ old.flight = []) ∧ new.queue = [] ∧ new.flight = []
        then .parked else old.service } := by
  have at_ (x : TowerState) : x.atRest = true ↔ x.queue = [] ∧ x.flight = [] := by
    simp [TowerState.atRest, List.isEmpty_iff]
  unfold TowerState.notice TowerState.parkIfRest
  by_cases hr : old.atRest = true
  · rw [if_pos hr, if_neg (fun k => k.2.1 ((at_ old).1 hr)), ← h]
  · rw [if_neg hr]
    have hn : ¬(old.queue = [] ∧ old.flight = []) := fun k => hr ((at_ old).2 k)
    by_cases hp : new.service = .parking ∧ new.atRest = true
    · rw [if_pos hp, if_pos ⟨h ▸ hp.1, hn, ((at_ new).1 hp.2).1, ((at_ new).1 hp.2).2⟩]
    · rw [if_neg hp, if_neg (fun k => hp ⟨h.trans k.1, (at_ new).2 k.2.2⟩), ← h]

/-- A change of one key's record, the queue and the in-flight set, with the notice that follows it. -/
theorem TowerState.onlyKey_notice {old new : TowerState} {sl : Slot}
    (h : new = { old with
      recs := new.recs, queue := new.queue, flight := new.flight, timeouts := new.timeouts })
    (o : ∀ x : Slot, x ≠ sl → new.recs[x] = old.recs[x]) : old.onlyKey sl (TowerState.notice old new) := by
  have hs : new.service = old.service := by rw [h]
  rw [TowerState.notice_eq hs]
  refine ⟨?_, o⟩
  rw [h]

/-! ### Answers -/

/-- A record after a matching DONE (R69). -/
def KeyRec.afterDone (again : Bool) (p : Nat) (r : KeyRec) : KeyRec :=
  { r with reported := some p, tries := 0, timer := none, move := if again then .queued else .idle }

/-- A matching DONE (R69). -/
theorem TowerState.takeDone_match {tw : TowerState} {sl : Slot} {tag : Byte} (p : Nat)
    (h : tw.recs[sl].matchesTag tag = true) (again : Bool)
    (ha : again = (tw.recs[sl].move = .retarget && tw.recs[sl].wantsMove)) :
    (tw.takeDone sl tag p).recs[sl] = (tw.recs[sl]).afterDone again p
      ∧ (∀ x : Slot, x ≠ sl → (tw.takeDone sl tag p).recs[x] = tw.recs[x])
      ∧ tw.takeDone sl tag p = { tw with
          recs := (tw.takeDone sl tag p).recs
          queue := tw.queue ++ (if again then [sl] else [])
          flight := tw.flight.filter (fun x => x != sl) } := by
  subst ha
  unfold TowerState.takeDone TowerState.afterDone
  rw [if_pos h]
  have hw : ((((tw.setReported sl p).mod sl (fun r => { r with tries := 0 })).leaveFlight sl).recs[sl]).wantsMove
      = tw.recs[sl].wantsMove := by
    simp [TowerState.leaveFlight, TowerState.setReported, TowerState.mod, KeyRec.wantsMove]
  rw [hw]
  by_cases hr : tw.recs[sl].move = .retarget ∧ tw.recs[sl].wantsMove = true
  · have e : (decide (tw.recs[sl].move = .retarget) && tw.recs[sl].wantsMove) = true :=
      Bool.and_eq_true_iff.2 ⟨decide_eq_true hr.1, hr.2⟩
    rw [if_pos hr, e]
    refine ⟨?_, fun x hx => ?_, ?_⟩
    · simp [TowerState.enqueue, TowerState.leaveFlight, TowerState.setReported, TowerState.mod, KeyRec.afterDone]
    · simp [TowerState.enqueue, TowerState.leaveFlight, TowerState.setReported, TowerState.mod, Fin.val_ne_of_ne hx.symm]
    · simp [TowerState.enqueue, TowerState.leaveFlight, TowerState.setReported, TowerState.mod]
  · have e : (decide (tw.recs[sl].move = .retarget) && tw.recs[sl].wantsMove) = false := by
      rw [Bool.and_eq_false_iff]
      by_cases h1 : tw.recs[sl].move = .retarget
      · exact Or.inr (by simpa using fun k => hr ⟨h1, k⟩)
      · exact Or.inl (by simpa using h1)
    rw [if_neg hr, e]
    refine ⟨?_, fun x hx => ?_, ?_⟩
    · simp [TowerState.leaveFlight, TowerState.setReported, TowerState.mod, KeyRec.afterDone]
    · simp [TowerState.leaveFlight, TowerState.setReported, TowerState.mod, Fin.val_ne_of_ne hx.symm]
    · simp [TowerState.leaveFlight, TowerState.setReported, TowerState.mod]

/-- A record after one more unsuccessful move (R70, R71, R75). -/
def KeyRec.failedMove (why : KeyFault) (r : KeyRec) : KeyRec :=
  if r.tries + 1 < 3 then { r with tries := r.tries + 1, move := .queued }
  else { r with tries := r.tries + 1, move := .fault, fault := some why }

/-- One more unsuccessful move (R70, R71, R75). -/
theorem TowerState.unsuccessful_spec (tw : TowerState) (sl : Slot) (why : KeyFault) :
    (tw.unsuccessful sl why).recs[sl] = (tw.recs[sl]).failedMove why
      ∧ (∀ x : Slot, x ≠ sl → (tw.unsuccessful sl why).recs[x] = tw.recs[x])
      ∧ tw.unsuccessful sl why = { tw with
          recs := (tw.unsuccessful sl why).recs
          queue := tw.queue ++ (if tw.recs[sl].tries + 1 < 3 then [sl] else []) } := by
  unfold KeyRec.failedMove
  by_cases ht : tw.recs[sl].tries + 1 < 3
  · have e : tw.unsuccessful sl why = (tw.mod sl (fun r => { r with tries := r.tries + 1 })).enqueue sl := if_pos ht
    rw [e, if_pos ht, if_pos ht]
    refine ⟨?_, fun x hx => ?_, rfl⟩
    · simp [TowerState.enqueue, TowerState.mod]
    · simp [TowerState.enqueue, TowerState.mod, Fin.val_ne_of_ne hx.symm]
  · have e : tw.unsuccessful sl why
        = tw.mod sl (fun r => { r with tries := r.tries + 1, move := .fault, fault := some why }) := if_neg ht
    rw [e, if_neg ht, if_neg ht]
    refine ⟨?_, fun x hx => ?_, ?_⟩
    · simp [TowerState.mod]
    · simp [TowerState.mod, Fin.val_ne_of_ne hx.symm]
    · simp [TowerState.mod]

/-- A matching STALL (R70). -/
theorem TowerState.takeStall_match {tw : TowerState} {sl : Slot} {tag : Byte} (p : Nat)
    (h : tw.recs[sl].matchesTag tag = true) :
    (tw.takeStall sl tag p).recs[sl]
        = ({ tw.recs[sl] with commanded := some p, reported := some p, timer := none } : KeyRec).failedMove .stall
      ∧ (∀ x : Slot, x ≠ sl → (tw.takeStall sl tag p).recs[x] = tw.recs[x])
      ∧ tw.takeStall sl tag p = { tw with
          recs := (tw.takeStall sl tag p).recs
          queue := tw.queue ++ (if tw.recs[sl].tries + 1 < 3 then [sl] else [])
          flight := tw.flight.filter (fun x => x != sl) } := by
  unfold TowerState.takeStall
  rw [if_pos h]
  obtain ⟨a, b, c⟩ := TowerState.unsuccessful_spec ((tw.setPosition sl p).leaveFlight sl) sl .stall
  have e : ((tw.setPosition sl p).leaveFlight sl).recs[sl]
      = { tw.recs[sl] with commanded := some p, reported := some p, timer := none } := by
    simp [TowerState.leaveFlight, TowerState.setPosition, TowerState.mod]
  refine ⟨by rw [a, e], fun x hx => ?_, ?_⟩
  · rw [b x hx]
    simp [TowerState.leaveFlight, TowerState.setPosition, TowerState.mod, Fin.val_ne_of_ne hx.symm]
  · rw [c, e]
    rfl

/-- A DONE or STALL that does not match sets reported alone (R73). -/
theorem TowerState.take_unmatched {tw : TowerState} {sl : Slot} {tag : Byte} (p : Nat)
    (h : tw.recs[sl].matchesTag tag = false) :
    tw.takeDone sl tag p = tw.setReported sl p ∧ tw.takeStall sl tag p = tw.setReported sl p := by
  unfold TowerState.takeDone TowerState.takeStall
  rw [if_neg (ne_true_of_eq_false h), if_neg (ne_true_of_eq_false h)]
  exact ⟨rfl, rfl⟩

/-- A record after a REPORT (R72). -/
def KeyRec.afterReport (admits : Bool) (p : Nat) (r : KeyRec) : KeyRec :=
  { r with
    reported := some p
    commanded := if r.move = .inFlight ∨ r.move = .retarget then r.commanded else some p
    move := match r.move with
      | .idle => if r.target ≠ p ∧ admits = true then .queued else .idle
      | .queued => if r.target = p then .idle else .queued
      | m => m }

/-- A REPORT (R72). -/
theorem TowerState.takeReport_spec (tw : TowerState) (sl : Slot) (p : Nat) :
    (tw.takeReport sl p).recs[sl] = (tw.recs[sl]).afterReport (admitsMoves tw.service) p
      ∧ (∀ x : Slot, x ≠ sl → (tw.takeReport sl p).recs[x] = tw.recs[x])
      ∧ tw.takeReport sl p = { tw with
          recs := (tw.takeReport sl p).recs
          queue := match tw.recs[sl].move, ((tw.recs[sl]).afterReport (admitsMoves tw.service) p).move with
            | .idle, .queued => tw.queue ++ [sl]
            | .queued, .idle => tw.queue.filter (fun x => x != sl)
            | _, _ => tw.queue } := by
  unfold TowerState.takeReport KeyRec.afterReport
  cases hm : tw.recs[sl].move
  case idle =>
    unfold TowerState.sweepSlot
    have c : ((tw.setPosition sl p).recs[sl].move = .idle ∧ (tw.setPosition sl p).recs[sl].wantsMove = true
        ∧ admitsMoves (tw.setPosition sl p).service = true)
        ↔ (tw.recs[sl].target ≠ p ∧ admitsMoves tw.service = true) := by
      simp [TowerState.setPosition, TowerState.mod, KeyRec.wantsMove] at hm ⊢
      simp [hm]
    by_cases h : tw.recs[sl].target ≠ p ∧ admitsMoves tw.service = true
    · rw [if_pos (c.2 h)]
      simp only [if_pos h]
      refine ⟨?_, fun x hx => ?_, ?_⟩
      · simp [TowerState.enqueue, TowerState.setPosition, TowerState.mod]
      · simp [TowerState.enqueue, TowerState.setPosition, TowerState.mod, Fin.val_ne_of_ne hx.symm]
      · simp [TowerState.enqueue, TowerState.setPosition, TowerState.mod]
    · rw [if_neg (fun k => h (c.1 k))]
      simp only [if_neg h]
      refine ⟨?_, fun x hx => ?_, ?_⟩
      · simp [TowerState.setPosition, TowerState.mod]
        exact hm
      · simp [TowerState.setPosition, TowerState.mod, Fin.val_ne_of_ne hx.symm]
      · simp [TowerState.setPosition, TowerState.mod]
  case queued =>
    by_cases h : tw.recs[sl].target = p
    · simp only [if_pos h]
      refine ⟨?_, fun x hx => ?_, ?_⟩
      · simp [TowerState.leaveQueue, TowerState.setPosition, TowerState.mod]
      · simp [TowerState.leaveQueue, TowerState.setPosition, TowerState.mod, Fin.val_ne_of_ne hx.symm]
      · simp [TowerState.leaveQueue, TowerState.setPosition, TowerState.mod]
    · simp only [if_neg h]
      refine ⟨?_, fun x hx => ?_, ?_⟩
      · simp [TowerState.setPosition, TowerState.mod]
        exact hm
      · simp [TowerState.setPosition, TowerState.mod, Fin.val_ne_of_ne hx.symm]
      · simp [TowerState.setPosition, TowerState.mod]
  all_goals
    refine ⟨?_, fun x hx => ?_, ?_⟩
    · simp [TowerState.setPosition, TowerState.setReported, TowerState.mod]
      exact hm
    · simp [TowerState.setPosition, TowerState.setReported, TowerState.mod, Fin.val_ne_of_ne hx.symm]
    · simp [TowerState.setPosition, TowerState.setReported, TowerState.mod]

/-- Whatever the answer, it concerns one key, and its notice follows. -/
theorem TowerState.takeKind_onlyKey (k : AnswerKind) (sl : Slot) (tag : Byte) (p : Nat) (tw : TowerState) :
    tw.onlyKey sl (TowerState.notice tw (({ tw with timeouts := 0 } : TowerState).takeKind k sl tag p)) := by
  have plain : ∀ x : Slot, x ≠ sl → (({ tw with timeouts := 0 } : TowerState).setReported sl p).recs[x] = tw.recs[x] := by
    intro x hx
    simp [TowerState.setReported, TowerState.mod, Fin.val_ne_of_ne hx.symm]
  cases k
  case done =>
    by_cases h : tw.recs[sl].matchesTag tag = true
    · obtain ⟨_, b, c⟩ := TowerState.takeDone_match (tw := { tw with timeouts := 0 }) p h _ rfl
      exact TowerState.onlyKey_notice (by rw [TowerState.takeKind, c]) b
    · rw [TowerState.takeKind, (TowerState.take_unmatched (tw := { tw with timeouts := 0 }) p (by simpa using h)).1]
      exact TowerState.onlyKey_notice rfl plain
  case stall =>
    by_cases h : tw.recs[sl].matchesTag tag = true
    · obtain ⟨_, b, c⟩ := TowerState.takeStall_match (tw := { tw with timeouts := 0 }) p h
      exact TowerState.onlyKey_notice (by rw [TowerState.takeKind, c]) b
    · rw [TowerState.takeKind, (TowerState.take_unmatched (tw := { tw with timeouts := 0 }) p (by simpa using h)).2]
      exact TowerState.onlyKey_notice rfl plain
  case report =>
    obtain ⟨_, b, c⟩ := TowerState.takeReport_spec { tw with timeouts := 0 } sl p
    exact TowerState.onlyKey_notice (by rw [TowerState.takeKind, c]) b

/-! ### Timeouts and withdrawals -/

/-- The key's part of a timeout (R71). -/
theorem TowerState.takeTimeout_spec (tw : TowerState) (sl : Slot) :
    (tw.takeTimeout sl).recs[sl] = ({ tw.recs[sl] with timer := none } : KeyRec).failedMove .timeout
      ∧ (∀ x : Slot, x ≠ sl → (tw.takeTimeout sl).recs[x] = tw.recs[x])
      ∧ tw.takeTimeout sl = { tw with
          recs := (tw.takeTimeout sl).recs
          queue := tw.queue ++ (if tw.recs[sl].tries + 1 < 3 then [sl] else [])
          flight := tw.flight.filter (fun x => x != sl) } := by
  unfold TowerState.takeTimeout
  obtain ⟨a, b, c⟩ := TowerState.unsuccessful_spec (tw.leaveFlight sl) sl .timeout
  have e : (tw.leaveFlight sl).recs[sl] = { tw.recs[sl] with timer := none } := by
    simp [TowerState.leaveFlight, TowerState.mod]
  refine ⟨by rw [a, e], fun x hx => ?_, ?_⟩
  · rw [b x hx]
    simp [TowerState.leaveFlight, TowerState.mod, Fin.val_ne_of_ne hx.symm]
  · rw [c, e]
    rfl

/-- A timeout that is not the third in a row concerns one key (R71, R78). -/
theorem TowerState.timeout_onlyKey {tw : TowerState} (sl : Slot) (h : tw.timeouts + 1 < 3) :
    tw.onlyKey sl (tw.timeout sl) ∧ (tw.timeout sl).timeouts = tw.timeouts + 1
      ∧ (tw.timeout sl).recs = (tw.takeTimeout sl).recs ∧ (tw.timeout sl).queue = (tw.takeTimeout sl).queue
      ∧ (tw.timeout sl).flight = (tw.takeTimeout sl).flight := by
  obtain ⟨_, b, c⟩ := tw.takeTimeout_spec sl
  have ht : (tw.takeTimeout sl).countTimeout.timeouts = tw.timeouts + 1 := by
    simp only [TowerState.countTimeout]
    rw [c]
  have e : tw.timeout sl = TowerState.notice tw (tw.takeTimeout sl).countTimeout := by
    unfold TowerState.timeout
    dsimp only
    rw [if_neg (by rw [ht, Config.maxTimeouts]; omega)]
  have ho : tw.onlyKey sl (tw.timeout sl) := by
    rw [e]
    refine TowerState.onlyKey_notice ?_ b
    unfold TowerState.countTimeout
    rw [c]
  obtain ⟨n, _⟩ := TowerState.notice_spec tw (tw.takeTimeout sl).countTimeout
  refine ⟨ho, ?_, ?_, ?_, ?_⟩
  · rw [e, n]
    exact ht
  all_goals
    rw [e, n]
    rfl

/-- Each record of a tower after a withdrawal outside a tower reset (R77). -/
theorem withdrawRec_withdrawn (r : KeyRec) : r.withdrawn (withdrawRec false r) := by
  unfold KeyRec.withdrawn withdrawRec
  cases h : r.move <;> simp

/-- The third timeout in a row takes the tower to FAULTED with its moves withdrawn (R74, R77, R104). -/
theorem TowerState.timeout_faulted {tw : TowerState} (sl : Slot) (h : 3 ≤ tw.timeouts + 1) :
    tw.timeout sl = { tw with
        service := .faulted, queue := [], flight := [], timeouts := 0, recs := (tw.timeout sl).recs }
      ∧ (∀ x : Slot, x ≠ sl → (tw.recs[x]).withdrawn (tw.timeout sl).recs[x])
      ∧ (tw.timeout sl).recs[sl]
        = withdrawRec false (({ tw.recs[sl] with timer := none } : KeyRec).failedMove .timeout) := by
  obtain ⟨a, b, c⟩ := tw.takeTimeout_spec sl
  have ht : (tw.takeTimeout sl).countTimeout.timeouts = tw.timeouts + 1 := by
    simp only [TowerState.countTimeout]
    rw [c]
  have e : tw.timeout sl = (tw.takeTimeout sl).countTimeout.enterFaulted := by
    unfold TowerState.timeout
    dsimp only
    rw [if_pos (by rw [ht, Config.maxTimeouts]; omega)]
  have r : ∀ x : Slot, (tw.timeout sl).recs[x] = withdrawRec false (tw.takeTimeout sl).recs[x] := by
    intro x
    rw [e]
    exact vecMap_get _ _ x
  refine ⟨?_, fun x hx => ?_, ?_⟩
  · rw [e]
    unfold TowerState.enterFaulted TowerState.withdraw TowerState.countTimeout
    rw [c]
  · rw [r x, b x hx]
    exact withdrawRec_withdrawn _
  · rw [r sl, a]

/-- HELLO for a tower that is not FAULTED (R106). -/
theorem TowerState.hello_inService {tw : TowerState} (h : tw.service ≠ .faulted) (hc : tw.service ≠ .unconfigured) :
    tw.hello = { tw with
        service := if tw.service = .parking then .parked else tw.service
        queryPending := true, queue := [], flight := [], timeouts := 0, recs := tw.hello.recs }
      ∧ ∀ sl : Slot, tw.hello.recs[sl] = withdrawRec false tw.recs[sl] := by
  have e : tw.hello = { (tw.withdraw false).parkIfRest with queryPending := true } := by
    unfold TowerState.hello
    split <;> simp_all
  have q : (tw.withdraw false).parkIfRest
      = { tw.withdraw false with service := if tw.service = .parking then .parked else tw.service } := by
    unfold TowerState.parkIfRest
    have : (tw.withdraw false).atRest = true := rfl
    rw [this]
    show (if tw.service = .parking ∧ _ then _ else _) = _
    by_cases hp : tw.service = .parking <;> simp [hp]
    rfl
  rw [e, q]
  exact ⟨rfl, fun sl => vecMap_get _ _ sl⟩

/-! ### Dispatch -/

/-- A dispatch changes one record, the queue, the in-flight set and the tag counter (R67). -/
theorem TowerState.dispatch_spec (tw : TowerState) (timeout : Nat) (sl : Slot) :
    tw.dispatch timeout sl = { tw with
        queue := tw.queue.drop 1, flight := tw.flight ++ [sl], tagCounter := tw.tagCounter + 1
        recs := (tw.dispatch timeout sl).recs }
      ∧ (tw.dispatch timeout sl).recs[sl] = dispatchRec tw.tagCounter timeout tw.recs[sl]
      ∧ ∀ x : Slot, x ≠ sl → (tw.dispatch timeout sl).recs[x] = tw.recs[x] := by
  refine ⟨rfl, ?_, fun x hx => ?_⟩
  · simp [TowerState.dispatch, TowerState.mod]
  · simp [TowerState.dispatch, TowerState.mod, Fin.val_ne_of_ne hx.symm]

/-! ### The records that wait over a tower reset -/

/-- The mark of a good reset on the record of a slot (R156). -/
theorem LoopUnit.markReset_get (t : Tower) (l : LoopUnit) (i : Fin 16) :
    (l.markReset t).overReset[i]
      = if i ∈ l.readList then l.overReset[i] ||| BitVec.twoPow 12 t.val else l.overReset[i] :=
  vecOf_get _ i

/-- A record has waited over a good reset when it was in the read list then, or over an earlier one (R156). -/
theorem LoopUnit.waitedOver_markReset (t u : Tower) (l : LoopUnit) (i : Fin 16) :
    (l.markReset t).waitedOver i u = (l.waitedOver i u || decide (i ∈ l.readList ∧ u = t)) := by
  unfold LoopUnit.waitedOver
  rw [LoopUnit.markReset_get]
  by_cases h : i ∈ l.readList
  · rw [if_pos h, BitVec.getLsbD_or, BitVec.getLsbD_twoPow]
    simp [h, u.isLt, Fin.ext_iff, eq_comm]
  · simp [h]

end Sys2Proof.Machine
end

