-- ==== Sys2Proof/Laws/HandOn.lean ====
section
/-! SUPPORT. How a change of value fields hands keys on: over any list of slots in ascending order, each key takes the
move state of its new target, those handed off join the queue's tail in slot order and those that leave it go (R55). -/

namespace Sys2Proof.Machine

/-- A change of the value fields of a record alone. -/
def KeepsMoves (f : Slot → KeyRec → KeyRec) : Prop :=
  ∀ sl r, ∃ b t c h p, f sl r = { r with base := b, trim := t, correction := c, hold := h, ramp := p }

theorem keepsMoves_id : KeepsMoves (fun _ r => r) := fun _ _ => ⟨_, _, _, _, _, rfl⟩

/-- One record after a change of its value fields: its new target, its move state by R55, all else of its move. -/
def KeyRec.movesOn (admits : Bool) (old new : KeyRec) : Prop :=
  new.move = old.movedTo admits new.target ∧ new.commanded = old.commanded ∧ new.reported = old.reported
    ∧ new.tag = old.tag ∧ new.tries = old.tries ∧ new.fault = old.fault ∧ new.timer = old.timer

theorem KeyRec.movesOn_refl (admits : Bool) (r : KeyRec) : r.movesOn admits r := by
  simp [KeyRec.movesOn, KeyRec.movedTo]

/-- A list filtered by what is always true. -/
theorem filter_all {q : List Slot} {p : Slot → Bool} (h : ∀ x, p x = true) : q.filter p = q :=
  List.filter_eq_self.2 fun x _ => h x

/-- The queue after one key is handed on (R55). -/
def handedQueue (sl : Slot) (old new : KeyRec) (q : List Slot) : List Slot :=
  q.filter (fun x => !decide (x = sl ∧ old.move = .queued ∧ new.move = .idle))
    ++ (if old.move = .idle ∧ new.move = .queued then [sl] else [])

theorem handedQueue_same (sl : Slot) (r : KeyRec) {s : KeyRec} (h : s.move = r.move) (q : List Slot) :
    handedQueue sl r s q = q := by
  have a : ¬(r.move = .queued ∧ s.move = .idle) := fun k => by rw [h, k.1] at k; simp at k
  have b : ¬(r.move = .idle ∧ s.move = .queued) := fun k => by rw [h, k.1] at k; simp at k
  unfold handedQueue
  rw [if_neg b, List.append_nil]
  exact filter_all fun x => by rw [decide_eq_false (fun k => a k.2)]; rfl

/-- Handing on one key whose target has just changed (R55). -/
theorem TowerState.handOn_moves {tw : TowerState} {sl : Slot} {old : KeyRec} (hm : old.move = tw.recs[sl].move)
    (hc : old.commanded = tw.recs[sl].commanded) (ht : tw.recs[sl].target ≠ old.target) :
    (tw.handOn sl).recs[sl].move = old.movedTo (admitsMoves tw.service) tw.recs[sl].target
      ∧ (tw.handOn sl).queue = handedQueue sl old (tw.handOn sl).recs[sl] tw.queue := by
  have w : tw.recs[sl].wantsMove = true
      ↔ old.commanded.isSome = true ∧ old.commanded ≠ some tw.recs[sl].target := by
    rw [hc]
    unfold KeyRec.wantsMove
    cases tw.recs[sl].commanded with
    | none => simp
    | some c => simpa using ⟨Ne.symm, Ne.symm⟩
  unfold KeyRec.movedTo
  rw [if_neg ht]
  unfold TowerState.handOn
  cases h : tw.recs[sl].move
  case idle =>
    have ho : old.move = .idle := hm.trans h
    simp only [ho]
    by_cases c : old.commanded.isSome = true ∧ old.commanded ≠ some tw.recs[sl].target
        ∧ admitsMoves tw.service = true
    · have g : (tw.recs[sl].wantsMove && admitsMoves tw.service) = true :=
        Bool.and_eq_true_iff.2 ⟨w.2 ⟨c.1, c.2.1⟩, c.2.2⟩
      rw [if_pos c, if_pos g]
      refine ⟨by rw [TowerState.enqueue_self], ?_⟩
      unfold handedQueue
      rw [TowerState.enqueue_self, filter_all fun x => by simp [ho]]
      simp [ho, TowerState.enqueue]
    · have g : ¬(tw.recs[sl].wantsMove && admitsMoves tw.service) = true := fun k => by
        obtain ⟨k1, k2⟩ := Bool.and_eq_true_iff.1 k
        exact c ⟨(w.1 k1).1, (w.1 k1).2, k2⟩
      rw [if_neg c, if_neg g]
      exact ⟨h, (handedQueue_same sl old hm.symm _).symm⟩
  case queued =>
    have ho : old.move = .queued := hm.trans h
    simp only [ho]
    by_cases c : tw.recs[sl].commanded = some tw.recs[sl].target
    · rw [if_pos (hc.trans c), if_pos c]
      refine ⟨by rw [TowerState.leaveQueue_self], ?_⟩
      unfold handedQueue
      rw [TowerState.leaveQueue_self]
      simp [ho, TowerState.leaveQueue, bne, BEq.beq]
    · rw [if_neg (fun k => c (hc.symm.trans k)), if_neg c]
      exact ⟨h, (handedQueue_same sl old hm.symm _).symm⟩
  case inFlight =>
    have ho : old.move = .inFlight := hm.trans h
    simp only [ho]
    refine ⟨by rw [TowerState.mod_self], ?_⟩
    unfold handedQueue
    rw [TowerState.mod_self, filter_all fun x => by simp [ho]]
    simp [ho, TowerState.mod]
  case retarget =>
    have ho : old.move = .retarget := hm.trans h
    simp only [ho]
    exact ⟨h, (handedQueue_same sl old hm.symm _).symm⟩
  case fault =>
    have ho : old.move = .fault := hm.trans h
    simp only [ho]
    exact ⟨h, (handedQueue_same sl old hm.symm _).symm⟩

/-- A change of one record's value fields hands its key on (R54, R55). -/
theorem TowerState.revalue_moves {f : Slot → KeyRec → KeyRec} (hf : KeepsMoves f) (tw : TowerState) (sl : Slot) :
    (tw.recs[sl]).movesOn (admitsMoves tw.service) (tw.revalue f sl).recs[sl]
      ∧ (tw.revalue f sl).queue = handedQueue sl tw.recs[sl] (tw.revalue f sl).recs[sl] tw.queue := by
  obtain ⟨b, t, c, h, p, e⟩ := hf sl tw.recs[sl]
  obtain ⟨_, _, ⟨m, hr⟩, _⟩ := TowerState.revalue_spec f tw sl
  have k : ∀ n : MoveState, ({ f sl tw.recs[sl] with
        target := composed tw.cfg tw.parkHold sl (f sl tw.recs[sl]), move := n } : KeyRec).commanded
        = tw.recs[sl].commanded := by
    intro n
    rw [e]
  suffices s : (tw.revalue f sl).recs[sl].move
        = (tw.recs[sl]).movedTo (admitsMoves tw.service) (tw.revalue f sl).recs[sl].target
      ∧ (tw.revalue f sl).queue = handedQueue sl tw.recs[sl] (tw.revalue f sl).recs[sl] tw.queue by
    refine ⟨⟨s.1, ?_⟩, s.2⟩
    rw [hr, e]
    exact ⟨rfl, rfl, rfl, rfl, rfl, rfl⟩
  clear hr m k
  unfold TowerState.revalue TowerState.recompose
  have hg : (tw.mod sl (f sl)).recs[sl] = f sl tw.recs[sl] := TowerState.mod_self tw sl _
  split
  · rename_i hsame
    rw [hg] at hsame ⊢
    have ht : (f sl tw.recs[sl]).target = tw.recs[sl].target := by rw [e]
    have hm : (f sl tw.recs[sl]).move = tw.recs[sl].move := by rw [e]
    refine ⟨?_, (handedQueue_same sl _ hm _).symm⟩
    rw [hm, ht]
    simp [KeyRec.movedTo]
  · rename_i hne
    rw [hg] at hne
    generalize hv : (tw.mod sl (f sl)).mod sl (fun r => { r with
      target := composed (tw.mod sl (f sl)).cfg (tw.mod sl (f sl)).parkHold sl r }) = tv
    have hrec : tv.recs[sl] = { f sl tw.recs[sl] with
        target := composed tw.cfg tw.parkHold sl (f sl tw.recs[sl]) } := by
      rw [← hv, TowerState.mod_self, hg]
      rfl
    have hne' : composed tw.cfg tw.parkHold sl (f sl tw.recs[sl]) ≠ tw.recs[sl].target := by
      intro k
      apply hne
      have : (f sl tw.recs[sl]).target = tw.recs[sl].target := by rw [e]
      rw [this]
      exact k
    have hq : tv.queue = tw.queue := by rw [← hv]; rfl
    have hs : tv.service = tw.service := by rw [← hv]; rfl
    obtain ⟨a1, a2⟩ := TowerState.handOn_moves (tw := tv) (sl := sl) (old := tw.recs[sl])
      (by rw [hrec, e]) (by rw [hrec, e]) (by rw [hrec]; exact hne')
    obtain ⟨_, _, ⟨n, a3⟩, _⟩ := TowerState.handOn_spec tv sl
    refine ⟨?_, by rw [a2, hq]⟩
    rw [a1, hs, a3]

/-- The queue after several keys are handed on, in the order of the list (R55). -/
theorem TowerState.revalueAll_moves {f : Slot → KeyRec → KeyRec} (hf : KeepsMoves f) (sls : List Slot)
    (hn : sls.Nodup) (tw : TowerState) :
    (∀ u : Slot, (tw.recs[u]).movesOn (admitsMoves tw.service) (TowerState.revalueAll f sls tw).recs[u])
      ∧ (TowerState.revalueAll f sls tw).queue
        = tw.queue.filter (fun u => !decide ((tw.recs[u]).move = .queued
            ∧ (TowerState.revalueAll f sls tw).recs[u].move = .idle))
          ++ sls.filter (fun u => decide ((tw.recs[u]).move = .idle
            ∧ (TowerState.revalueAll f sls tw).recs[u].move = .queued)) := by
  induction sls generalizing tw with
  | nil =>
    refine ⟨fun u => KeyRec.movesOn_refl _ _, ?_⟩
    show tw.queue = tw.queue.filter _ ++ []
    rw [List.append_nil]
    refine (filter_all fun u => ?_).symm
    show (!decide ((tw.recs[u]).move = .queued ∧ (tw.recs[u]).move = .idle)) = true
    cases (tw.recs[u]).move <;> rfl
  | cons sl sls ih =>
    obtain ⟨n1, n2⟩ := List.nodup_cons.mp hn
    obtain ⟨a1, a2, _, a4⟩ := TowerState.revalue_spec f tw sl
    obtain ⟨m1, m2⟩ := TowerState.revalue_moves hf tw sl
    obtain ⟨b1, b2⟩ := ih n2 (tw.revalue f sl)
    have hin : (TowerState.revalueAll f sls (tw.revalue f sl)).recs[sl] = (tw.revalue f sl).recs[sl] :=
      ((TowerState.revalueAll_spec f sls n2 (tw.revalue f sl)).2.2 sl).2 n1
    show (∀ u : Slot, (tw.recs[u]).movesOn _ (TowerState.revalueAll f sls (tw.revalue f sl)).recs[u])
      ∧ (TowerState.revalueAll f sls (tw.revalue f sl)).queue = _
    refine ⟨fun u => ?_, ?_⟩
    · by_cases hu : u = sl
      · subst hu
        rw [hin]
        exact m1
      · have := b1 u
        rw [a4 u hu, a2] at this
        exact this
    · show _ = tw.queue.filter (fun u => !decide ((tw.recs[u]).move = .queued
            ∧ (TowerState.revalueAll f sls (tw.revalue f sl)).recs[u].move = .idle))
          ++ (sl :: sls).filter (fun u => decide ((tw.recs[u]).move = .idle
            ∧ (TowerState.revalueAll f sls (tw.revalue f sl)).recs[u].move = .queued))
      have tail : sls.filter (fun u => decide (((tw.revalue f sl).recs[u]).move = .idle
            ∧ (TowerState.revalueAll f sls (tw.revalue f sl)).recs[u].move = .queued))
          = sls.filter (fun u => decide ((tw.recs[u]).move = .idle
            ∧ (TowerState.revalueAll f sls (tw.revalue f sl)).recs[u].move = .queued)) := by
        refine List.filter_congr fun u hu => ?_
        rw [a4 u (fun k => n1 (k ▸ hu))]
      have keepSelf : decide (((tw.revalue f sl).recs[sl]).move = .queued
          ∧ (TowerState.revalueAll f sls (tw.revalue f sl)).recs[sl].move = .idle) = false := by
        rw [hin]
        cases h : ((tw.revalue f sl).recs[sl]).move <;> simp
      rw [b2, tail, m2]
      unfold handedQueue
      rw [List.filter_append, List.filter_filter, List.append_assoc]
      congr 1
      · refine List.filter_congr fun u _ => ?_
        by_cases hu : u = sl
        · subst hu
          rw [keepSelf, hin]
          simp
        · rw [a4 u hu]
          simp [hu]
      · rw [List.filter_cons, hin]
        by_cases h : (tw.recs[sl]).move = .idle ∧ ((tw.revalue f sl).recs[sl]).move = .queued
        · rw [if_pos h, if_pos (decide_eq_true h), List.filter_cons, keepSelf]
          rfl
        · rw [if_neg h, if_neg (fun k => h (of_decide_eq_true k))]
          rfl

/-- A change of some present slots of a tower, in ascending order, hands their keys on (R55). -/
theorem TowerState.revalueAll_handedOn {f : Slot → KeyRec → KeyRec} (hf : KeepsMoves f) (q : Slot → Bool)
    (tw : TowerState) : tw.handedOn (TowerState.revalueAll f (tw.slots.filter q) tw) := by
  have nd : (tw.slots.filter q).Nodup := List.Nodup.sublist List.filter_sublist tw.slots_nodup
  obtain ⟨a1, a2⟩ := TowerState.revalueAll_moves hf _ nd tw
  obtain ⟨⟨_, _, s3, s4, s5, _⟩, _, b⟩ := TowerState.revalueAll_spec f _ nd tw
  refine ⟨a1, ?_, s3, s4, s5⟩
  rw [a2]
  congr 1
  have out : ∀ u : Slot, u ∉ tw.slots.filter q →
      ¬((tw.recs[u]).move = .idle ∧ (TowerState.revalueAll f (tw.slots.filter q) tw).recs[u].move = .queued) := by
    intro u hu k
    rw [(b u).2 hu, k.1] at k
    simp at k
  generalize TowerState.revalueAll f (tw.slots.filter q) tw = new at out
  have order : tw.slots.filter q = (List.finRange 49).filter (fun u => q u && tw.present u) := List.filter_filter
  rw [order, List.filter_filter]
  refine List.filter_congr fun u _ => ?_
  by_cases hu : u ∈ tw.slots.filter q
  · have hq : q u = true ∧ tw.present u = true := by
      have := List.mem_filter.1 hu
      exact ⟨this.2, (TowerState.mem_slots tw u).1 this.1⟩
    rw [hq.1, hq.2]
    simp
  · rw [decide_eq_false (out u hu)]
    rfl

/-- A key's hand-on asks of its tower only the records, the queue, the in-flight set, the counters and whether it
admits moves. -/
theorem TowerState.handedOn_congr {a b tv tw : TowerState} (h : a.handedOn tv)
    (hr : b.recs = a.recs) (hq : b.queue = a.queue) (hf : b.flight = a.flight) (ht : b.tagCounter = a.tagCounter)
    (hn : b.timeouts = a.timeouts) (hs : admitsMoves b.service = admitsMoves a.service)
    (kr : tw.recs = tv.recs) (kq : tw.queue = tv.queue) (kf : tw.flight = tv.flight)
    (kt : tw.tagCounter = tv.tagCounter) (kn : tw.timeouts = tv.timeouts) : b.handedOn tw := by
  unfold TowerState.handedOn at h ⊢
  rw [hr, hq, hf, ht, hn, hs, kr, kq, kf, kt, kn]
  exact h

/-- A change of some present slots as one event hands their keys on (R55, R78). -/
theorem TowerState.revalueEvent_handedOn {f : Slot → KeyRec → KeyRec} (hf : KeepsMoves f)
    {sls : TowerState → List Slot} {tw : TowerState} (q : Slot → Bool) (h : sls tw = tw.slots.filter q) :
    tw.handedOn (tw.revalueEvent f sls) := by
  have r : (tw.revalueEvent f sls) = { TowerState.revalueAll f (tw.slots.filter q) tw with
      service := (tw.revalueEvent f sls).service } := by
    unfold TowerState.revalueEvent
    rw [h]
    exact (TowerState.notice_spec _ _).1
  rw [r]
  exact TowerState.handedOn_congr (TowerState.revalueAll_handedOn hf q tw) rfl rfl rfl rfl rfl rfl rfl rfl rfl rfl rfl

/-- A change of the park-hold flag hands keys on (R52, R55). -/
theorem TowerState.setParkHold_handedOn (b : Bool) (tw : TowerState) : tw.handedOn (tw.setParkHold b) := by
  unfold TowerState.setParkHold
  split
  · have := TowerState.revalueAll_handedOn keepsMoves_id (fun _ => false) tw
    rw [List.filter_eq_nil_iff.2 (by simp)] at this
    exact this
  · have := TowerState.revalueAll_handedOn keepsMoves_id (fun _ => true) { tw with parkHold := b }
    rw [filter_all fun _ => rfl] at this
    exact TowerState.handedOn_congr this rfl rfl rfl rfl rfl rfl rfl rfl rfl rfl rfl

/-- The sweep queues a key: it is IDLE, its commanded is known and differs from its target, and its tower admits moves
(R63). -/
def TowerState.sweeps (tw : TowerState) (u : Slot) : Prop :=
  tw.recs[u].move = .idle ∧ tw.recs[u].wantsMove = true ∧ admitsMoves tw.service = true

/-- The sweep of some slots, in the order of the list: each key it queues joins the queue's tail, and nothing else of the
tower's records changes (R63). -/
theorem TowerState.sweepList_moves (l : List Slot) (hn : l.Nodup) (tw : TowerState) :
    (∀ u : Slot, (u ∈ l ∧ tw.sweeps u → (l.foldl TowerState.sweepSlot tw).recs[u] = { tw.recs[u] with move := .queued })
        ∧ (¬(u ∈ l ∧ tw.sweeps u) → (l.foldl TowerState.sweepSlot tw).recs[u] = tw.recs[u]))
      ∧ (l.foldl TowerState.sweepSlot tw).queue = tw.queue ++ l.filter (fun u =>
        decide (tw.recs[u].move = .idle) && tw.recs[u].wantsMove && admitsMoves tw.service)
      ∧ (l.foldl TowerState.sweepSlot tw).service = tw.service := by
  induction l generalizing tw with
  | nil => exact ⟨fun u => ⟨fun h => absurd h.1 List.not_mem_nil, fun _ => rfl⟩, (List.append_nil _).symm, rfl⟩
  | cons sl l ih =>
    obtain ⟨n1, n2⟩ := List.nodup_cons.mp hn
    obtain ⟨b1, b2, b3⟩ := ih n2 (tw.sweepSlot sl)
    have other (u : Slot) (h : u ≠ sl) : (tw.sweepSlot sl).recs[u] = tw.recs[u] := by
      unfold TowerState.sweepSlot
      split
      · exact TowerState.mod_other tw sl u (fun r => { r with move := .queued }) h
      · rfl
    have serv : (tw.sweepSlot sl).service = tw.service := by
      unfold TowerState.sweepSlot
      split <;> rfl
    have tail : l.filter (fun u => decide ((tw.sweepSlot sl).recs[u].move = .idle) && (tw.sweepSlot sl).recs[u].wantsMove
          && admitsMoves (tw.sweepSlot sl).service)
        = l.filter (fun u => decide (tw.recs[u].move = .idle) && tw.recs[u].wantsMove && admitsMoves tw.service) := by
      refine List.filter_congr fun u hu => ?_
      rw [other u (fun k => n1 (k ▸ hu)), serv]
    refine ⟨fun u => ?_, ?_, b3.trans serv⟩
    · show (_ → (l.foldl TowerState.sweepSlot (tw.sweepSlot sl)).recs[u] = _)
        ∧ (_ → (l.foldl TowerState.sweepSlot (tw.sweepSlot sl)).recs[u] = _)
      by_cases hu : u = sl
      · subst hu
        rw [(b1 u).2 (fun k => n1 k.1)]
        unfold TowerState.sweepSlot
        refine ⟨fun h => ?_, fun h => ?_⟩
        · have k : tw.recs[u].move = .idle ∧ tw.recs[u].wantsMove = true ∧ admitsMoves tw.service = true := h.2
          rw [if_pos k]
          exact TowerState.enqueue_self tw u
        · have k : ¬(tw.recs[u].move = .idle ∧ tw.recs[u].wantsMove = true ∧ admitsMoves tw.service = true) :=
            fun k => h ⟨List.mem_cons_self, k⟩
          rw [if_neg k]
      · have e : (u ∈ l ∧ (tw.sweepSlot sl).sweeps u) ↔ (u ∈ sl :: l ∧ tw.sweeps u) := by
          unfold TowerState.sweeps
          rw [other u hu, serv, List.mem_cons]
          simp [hu]
        have b := b1 u
        rw [e, other u hu] at b
        exact b
    · show (l.foldl TowerState.sweepSlot (tw.sweepSlot sl)).queue = _
      rw [b2, tail, List.filter_cons]
      unfold TowerState.sweepSlot
      by_cases h : tw.recs[sl].move = .idle ∧ tw.recs[sl].wantsMove = true ∧ admitsMoves tw.service = true
      · have k : (decide (tw.recs[sl].move = .idle) && tw.recs[sl].wantsMove && admitsMoves tw.service) = true := by
          rw [decide_eq_true h.1, h.2.1, h.2.2]
          rfl
        rw [if_pos h, if_pos k]
        show (tw.queue ++ [sl]) ++ _ = _
        rw [List.append_assoc]
        rfl
      · have k : ¬(decide (tw.recs[sl].move = .idle) && tw.recs[sl].wantsMove && admitsMoves tw.service) = true := by
          intro k
          obtain ⟨k1, k3⟩ := Bool.and_eq_true_iff.1 k
          obtain ⟨k1, k2⟩ := Bool.and_eq_true_iff.1 k1
          exact h ⟨of_decide_eq_true k1, k2, k3⟩
        rw [if_neg h, if_neg k]

/-- A tower of the same shell differs in its service state, its records and its queue alone. -/
theorem TowerState.eq_of_sameShell {a b : TowerState} (h : a.sameShell b) :
    b = { a with service := b.service, recs := b.recs, queue := b.queue } := by
  cases a
  cases b
  obtain ⟨h1, h2, h3, h4, h5, h6, h7, h8, h9, h10, h11⟩ := h
  dsimp only at *
  rw [h1, h2, h3, h4, h5, h6, h7, h8, h9, h10, h11]

/-- PARK from READY or PRINTING hands the tower's keys on, all of them before it looks whether they rest (R102). -/
theorem TowerState.park_handedOn {tw : TowerState} (h : tw.service = .ready ∨ tw.service = .printing) :
    tw.handedOn tw.park
      ∧ tw.park = { tw with
          service := tw.park.service, parkHold := true, recs := tw.park.recs, queue := tw.park.queue } := by
  have e : tw.park = (({ tw with service := .parking } : TowerState).setParkHold true).parkIfRest := if_pos h
  have p (x : TowerState) : x.parkIfRest = { x with service := x.parkIfRest.service } := by
    unfold TowerState.parkIfRest
    split <;> rfl
  have ho := TowerState.setParkHold_handedOn true ({ tw with service := .parking } : TowerState)
  have sh : ({ tw with service := .parking } : TowerState).setParkHold true
      = { tw with
          service := .parking, parkHold := true
          recs := (({ tw with service := .parking } : TowerState).setParkHold true).recs
          queue := (({ tw with service := .parking } : TowerState).setParkHold true).queue } := by
    unfold TowerState.setParkHold
    split
    · rename_i k
      have : tw.parkHold = true := k
      simp [← this]
    · obtain ⟨shell, hs, _⟩ := TowerState.revalueAll_spec (fun _ r => r) tw.slots tw.slots_nodup
        ({ tw with service := .parking, parkHold := true } : TowerState)
      refine (TowerState.eq_of_sameShell shell).trans ?_
      rw [hs]
      rfl
  rw [e]
  refine ⟨TowerState.handedOn_congr ho rfl rfl rfl rfl rfl ?_ ?_ ?_ ?_ ?_ ?_, ?_⟩
  · rcases h with h | h <;> rw [h] <;> rfl
  · rw [p]
  · rw [p]
  · rw [p]
  · rw [p]
  · rw [p]
  · rw [p, sh]

end Sys2Proof.Machine
end

