-- ==== Sys2Proof/Laws/Line.lean ====
section
/-! SUPPORT. Bytes and frames as levels on the key drive link, and the steps on the configuration memory's port. -/

namespace Sys2Proof.Machine

/-- Ten levels of a byte are read as that byte with a good stop bit (R82, R93). -/
@[simp] theorem readByte_serialByte : ∀ b : Byte, readByte (serialByte b) = some (.byte b true) := by decide +kernel

/-- Levels of a run of bytes are read as those bytes (R82). -/
@[simp] theorem readLevels_serialFrame (bs : List Byte) :
    readLevels (serialFrame bs) = bs.map (fun b => LineEvent.byte b true) := by
  induction bs with
  | nil => rfl
  | cons b bs ih =>
    show readLevels (serialByte b ++ serialFrame bs) = _
    have h : readLevels (serialByte b ++ serialFrame bs)
        = (readByte (serialByte b)).toList ++ readLevels (serialFrame bs) := rfl
    rw [h, readByte_serialByte, ih]
    rfl

/-- A frame as received is a rest and its eight bytes. -/
theorem frameLine_eq (address kind key tag : Byte) (position : Half) :
    frameLine address kind key tag position
      = .rest :: (frameBytes address kind key tag position).map (fun b => LineEvent.byte b true) := by
  simp [frameLine]

/-- A load begins by ending a read under way and beginning that of the header. -/
theorem SpiPort.drive_atHeader (p : SpiPort) : p.drive (.csHigh :: spiOpen 0) = SpiPort.atHeader := rfl

/-- After the opening steps CFG_CS_N is low and the command and the address have been sent. -/
theorem SpiPort.drive_open (xs : List SpiStep) (a : Nat) (p : SpiPort) :
    p.drive (xs ++ spiOpen a)
      = ⟨false, [Config.readCommand, BitVec.ofNat 8 (2 * a / 256), BitVec.ofNat 8 (2 * a)], xs ++ spiOpen a⟩ := by
  simp [SpiPort.drive, spiOpen, SpiPort.apply]

/-- After the closing steps CFG_CS_N is high and nothing is being read. -/
theorem SpiPort.drive_close (xs : List SpiStep) (n : Nat) (p : SpiPort) :
    p.drive (xs ++ spiClose n) = ⟨true, [], xs ++ spiClose n⟩ := by
  simp [SpiPort.drive, spiClose, SpiPort.apply]

end Sys2Proof.Machine
end

