-- ==== Sys2Proof/Laws/Ranges.lean ====
section
/-! SUPPORT. The ranges of a tower's records (R53, R56) under each operation on one tower, its section unchanged. -/

namespace Sys2Proof.Machine

/-- A tower whose section and settings are c and ls, with every record in its ranges. -/
def TowerState.within (c : Option KeyCfg) (ls : Option LoopSettings) (tw : TowerState) : Prop :=
  tw.cfg = c ∧ tw.settings = ls ∧ ∀ sl : Slot, (tw.recs[sl]).inRange c sl

theorem within_congr {c ls} {tw tv : TowerState} (h : tw.within c ls) (h1 : tv.cfg = tw.cfg) (h2 : tv.settings =
    tw.settings) (h3 : tv.recs = tw.recs) :
    tv.within c ls := by
  unfold TowerState.within; rw [h1, h2, h3]; exact h

theorem within_mod {c ls} {tw : TowerState} (h : tw.within c ls) (x : Slot) (f : KeyRec → KeyRec)
    (hf : (tw.recs[x]).inRange c x → (f (tw.recs[x])).inRange c x) : (tw.mod x f).within c ls := by
  refine ⟨h.1, h.2.1, fun s => ?_⟩
  by_cases hs : s = x
  · subst hs; rw [TowerState.mod_self]; exact hf (h.2.2 _)
  · rw [TowerState.mod_other _ _ _ _ hs]; exact h.2.2 _

theorem within_enqueue {c ls} {tw : TowerState} (h : tw.within c ls) (x : Slot) : (tw.enqueue x).within c ls :=
  within_congr (within_mod h x (fun r => { r with move := .queued }) id) rfl rfl rfl
theorem within_leaveQueue {c ls} {tw : TowerState} (h : tw.within c ls) (x : Slot) : (tw.leaveQueue x).within c
    ls :=
  within_congr (within_mod h x (fun r => { r with move := .idle }) id) rfl rfl rfl
theorem within_leaveFlight {c ls} {tw : TowerState} (h : tw.within c ls) (x : Slot) : (tw.leaveFlight x).within c
    ls :=
  within_congr (within_mod h x (fun r => { r with timer := none }) id) rfl rfl rfl

theorem within_handOn {c ls} {tw : TowerState} (h : tw.within c ls) (x : Slot) : (tw.handOn x).within c ls := by
  unfold TowerState.handOn
  split
  · split
    · exact within_enqueue h x
    · exact h
  · split
    · exact within_leaveQueue h x
    · exact h
  · exact within_mod h x _ id
  · exact h
  · exact h

theorem composed_le (c : Option KeyCfg) (b) (sl) (r) :
    composed c b sl r ≤ (match c with
      | none => 0
      | some c => c.bound sl) := by
  unfold composed
  cases c with
  | none => exact Nat.le_refl _
  | some k =>
    simp only
    split
    · exact Nat.zero_le _
    · unfold clampInt; split
      · simp
      · split <;> omega

theorem within_recompose {c ls} {tw : TowerState} (h : tw.within c ls) (x : Slot) : (tw.recompose x).within c ls
    := by
  unfold TowerState.recompose
  split
  · exact h
  · refine within_handOn (within_mod h x _ (fun k => ⟨k.1, k.2.1, k.2.2.1, k.2.2.2.1, ?_, k.2.2.2.2.2⟩)) x
    rw [← h.1]; exact composed_le _ _ _ _

theorem within_revalue {c ls} {f : Slot → KeyRec → KeyRec} (hf : ValueChange f) {tw : TowerState} (h : tw.within
    c ls) (x : Slot) : (tw.revalue f x).within c ls := by
  unfold TowerState.revalue
  refine within_recompose (within_mod h x _ (fun k => ?_)) x
  obtain ⟨_, _, h3, h4, h5, h6⟩ := hf x (tw.recs[x])
  have a := h4 ⟨k.1, k.2.1⟩
  have b := h5 ⟨k.2.2.1, k.2.2.2.1⟩
  exact ⟨a.1, a.2, b.1, b.2, by rw [h3]; exact k.2.2.2.2.1, h6 k.2.2.2.2.2⟩

theorem within_foldl {c ls} {f : TowerState → Slot → TowerState} (hf : ∀ tw sl, tw.within c ls → (f tw sl).within
    c ls) (l : List Slot) (tw : TowerState) (h : tw.within c ls) :
    (l.foldl f tw).within c ls := by
  induction l generalizing tw with
  | nil => exact h
  | cons a l ih => exact ih _ (hf _ _ h)

theorem within_revalueAll {c ls} {f : Slot → KeyRec → KeyRec} (hf : ValueChange f) (l : List Slot) {tw :
    TowerState} (h : tw.within c ls) : (TowerState.revalueAll f l tw).within c ls :=
  within_foldl (fun _ x k => within_revalue hf k x) _ _ h

theorem within_parkIfRest {c ls} {tw : TowerState} (h : tw.within c ls) : tw.parkIfRest.within c ls := by
  unfold TowerState.parkIfRest; split
  · exact within_congr h rfl rfl rfl
  · exact h
theorem within_notice {c ls} {tw tv : TowerState} (h : tv.within c ls) : (TowerState.notice tw tv).within c ls := by
  unfold TowerState.notice; split
  · exact h
  · exact within_parkIfRest h
theorem within_revalueEvent {c ls} {f : Slot → KeyRec → KeyRec} (hf : ValueChange f) (l : TowerState → List Slot)
    {tw : TowerState} (h : tw.within c ls) : (tw.revalueEvent f l).within c ls := 
  within_notice (within_revalueAll hf _ h)
theorem within_setParkHold {c ls} (b) {tw : TowerState} (h : tw.within c ls) : (tw.setParkHold b).within c ls := by
  unfold TowerState.setParkHold; split
  · exact h
  · exact within_revalueAll valueChange_id _ (within_congr h rfl rfl rfl)
theorem within_sweepSlot {c ls} {tw : TowerState} (sl) (h : tw.within c ls) : (tw.sweepSlot sl).within c ls := by
  unfold TowerState.sweepSlot; split
  · exact within_enqueue h _
  · exact h
theorem within_sweep {c ls} {tw : TowerState} (h : tw.within c ls) : tw.sweep.within c ls := within_foldl (fun _
    s => within_sweepSlot s) _ _ h
theorem within_clearFaults {c ls} {tw : TowerState} (h : tw.within c ls) : tw.clearFaults.within c ls := by
  refine within_foldl (fun tw sl h => ?_) _ _ h
  unfold TowerState.clearFaultSlot; split
  · split
    · exact within_enqueue (within_mod h _ _ id) _
    · exact within_mod h _ _ id
  · exact h
theorem within_wake {c ls} (b) {tw : TowerState} (h : tw.within c ls) : (tw.wake b).within c ls := by
  unfold TowerState.wake; split
  · exact within_sweep (within_congr (within_setParkHold _ h) rfl rfl rfl)
  · exact within_sweep (within_setParkHold _ (within_congr h rfl rfl rfl))
  · exact h
theorem within_park {c ls} {tw : TowerState} (h : tw.within c ls) : tw.park.within c ls := by
  unfold TowerState.park; split
  · exact within_parkIfRest (within_setParkHold _ (within_congr h rfl rfl rfl))
  · exact h
theorem within_withdraw {c ls} (b) {tw : TowerState} (h : tw.within c ls) : (tw.withdraw b).within c ls := by
  refine ⟨h.1, h.2.1, fun sl => ?_⟩
  have e : (tw.withdraw b).recs[sl] = withdrawRec b (tw.recs[sl]) := vecMap_get _ _ _
  rw [e]
  have := h.2.2 sl
  unfold withdrawRec; split
  · exact this
  · split
    · exact this
    · exact this
  · exact this
theorem within_hello {c ls} {tw : TowerState} (h : tw.within c ls) : tw.hello.within c ls := by
  unfold TowerState.hello; split
  · exact within_congr (within_withdraw false (within_setParkHold true (within_congr (tv := { tw with service := .parked }) h rfl rfl rfl))) rfl rfl rfl
  · exact h
  · exact within_congr (within_parkIfRest (within_withdraw _ h)) rfl rfl rfl
theorem within_unsuccessful {c ls} {tw : TowerState} (sl : Slot) (why) (h : tw.within c ls) : (tw.unsuccessful sl
    why).within c ls := by
  unfold TowerState.unsuccessful; split
  · exact within_enqueue (within_mod h _ _ id) _
  · exact within_mod h _ _ id
theorem within_takeKind {c ls} (k) (sl) (tag) (p) {tw : TowerState} (h : tw.within c ls) : (tw.takeKind k sl tag
    p).within c ls := by
  have hr : (tw.setReported sl p).within c ls := within_mod h _ _ id
  have hp : (tw.setPosition sl p).within c ls := within_mod h _ _ id
  cases k
  · show (tw.takeDone sl tag p).within c ls
    unfold TowerState.takeDone; split
    · unfold TowerState.afterDone; split
      · exact within_enqueue (within_leaveFlight (within_mod hr _ _ id) _) _
      · exact within_mod (within_leaveFlight (within_mod hr _ _ id) _) _ _ id
    · exact hr
  · show (tw.takeStall sl tag p).within c ls
    unfold TowerState.takeStall; split
    · exact within_unsuccessful _ _ (within_leaveFlight hp _)
    · exact hr
  · show (tw.takeReport sl p).within c ls
    unfold TowerState.takeReport; split
    · exact within_sweepSlot _ hp
    · split
      · exact within_leaveQueue hp _
      · exact hp
    · exact hr
    · exact hr
    · exact hp
theorem within_takeAnswer {c ls} (k key tag p) {tw : TowerState} (h : tw.within c ls) : (tw.takeAnswer k key tag
    p).within c ls := by
  unfold TowerState.takeAnswer; split
  · exact within_congr h rfl rfl rfl
  · split
    · exact within_notice (within_takeKind _ _ _ _ (within_congr h rfl rfl rfl))
    · exact within_congr h rfl rfl rfl
theorem within_timeout {c ls} (sl : Slot) {tw : TowerState} (h : tw.within c ls) : (tw.timeout sl).within c ls := by
  have h1 : (tw.takeTimeout sl).countTimeout.within c ls :=
    within_congr (within_unsuccessful sl .timeout (within_leaveFlight h sl)) rfl rfl rfl
  unfold TowerState.timeout; dsimp only; split
  · exact within_withdraw _ (within_congr h1 rfl rfl rfl)
  · exact within_notice h1
theorem within_dispatch {c ls} (n) {tw : TowerState} (sl : Slot) (h : tw.within c ls) : (tw.dispatch n sl).within
    c ls :=
  within_congr (within_mod h sl (dispatchRec tw.tagCounter n) id) rfl rfl rfl

theorem corr_range {s : State} {m : MeasureRec} {t : Tower} (c ls) (h : (s.towers[t]).within c ls) (hl : ∀ x, ls
    = some x → limitOk x) (sl : Slot) :
    -200 ≤ s.correctionOf m t sl ∧ s.correctionOf m t sl ≤ 200 := by
  have h0 := h.2.2 sl
  have hd : -200 ≤ (s.towers[t].recs[sl]).correction ∧ (s.towers[t].recs[sl]).correction ≤ 200 := ⟨h0.2.2.1, h0.2.2.2.1⟩
  unfold State.correctionOf; split
  · exact hd
  · rename_i x hx
    have hx' := hl x (h.2.1.symm.trans hx)
    split
    · exact hd
    · unfold corrected; split
      · exact hd
      · split
        · exact hd
        · unfold limitOk at hx'
          have := clamp_range (-(x.limit:Int)) x.limit ((s.towers[t].recs[sl]).correction + loopStep x (x.target - ↑(m.densities.getD sl.val Config.noValue))) (by omega)
          omega

end Sys2Proof.Machine
end

