-- ==== Sys2Proof/Laws/Lookups.lean ====
section
/-! SUPPORT. What the small functions the statements name read as: the composed target and the ramp value, work, keys and
towers found by their numbers, the checks of an order, the address of a record, the reread section, the fold latch over a
RELOAD, the window of an access, the trim word of an offset, the owner of a column. -/

namespace Sys2Proof.Machine

/-! ### Values -/

/-- The clamp of two bounds in their order. -/
theorem clampInt_eq {lo hi : Int} (x : Int) (h : lo ≤ hi) : clampInt lo hi x = max lo (min hi x) := by
  unfold clampInt
  (repeat' split) <;> omega

/-- The composed target of a record that is held, or whose tower is. -/
theorem composed_held {cfg : Option KeyCfg} {park : Bool} {sl : Slot} {r : KeyRec} (h : r.hold = true ∨ park = true) :
    composed cfg park sl r = 0 := by
  unfold composed
  split
  · rfl
  · rcases h with h | h <;> simp [h]

/-- The composed target of a record under no hold. -/
theorem composed_free {c : KeyCfg} {sl : Slot} {r : KeyRec} (h : r.hold = false) :
    (composed (some c) false sl r : Int) = max 0 (min (c.bound sl : Int) (r.rb + r.trim + r.offset sl)) := by
  have := clampInt_eq (lo := 0) (hi := c.bound sl) (r.rb + r.trim + r.offset sl) (by omega)
  simp only [composed, h, Bool.or_self, Bool.false_eq_true, if_false, this]
  omega

/-- A part of a difference: n of d, n at most d, rounded toward zero, lies between 0 and the difference. -/
theorem tdiv_part (a : Int) {n d : Nat} (h : n ≤ d) (ha : 0 ≤ a) :
    0 ≤ (a * n).tdiv d ∧ (a * n).tdiv d ≤ a := by
  have hn : 0 ≤ a * n := Int.mul_nonneg ha (by omega)
  refine ⟨Int.tdiv_nonneg hn (by omega), ?_⟩
  rw [Int.tdiv_eq_ediv_of_nonneg hn]
  rcases Nat.eq_zero_or_pos d with h0 | h0
  · subst h0
    simpa using ha
  · exact Int.ediv_le_of_le_mul (by omega) (Int.mul_le_mul_of_nonneg_left (by omega) ha)

/-- A ramp with pulses left to come stands between its ends (R46). -/
theorem Ramp.value_between {p : Ramp} (h : p.done ≤ p.total) :
    min (p.from_ : Int) p.dest ≤ p.value ∧ p.value ≤ max (p.from_ : Int) p.dest := by
  unfold Ramp.value
  rcases Int.le_total 0 ((p.dest : Int) - p.from_) with hp | hp
  · have := tdiv_part _ h hp
    omega
  · have := tdiv_part (-((p.dest : Int) - p.from_)) h (by omega)
    rw [Int.neg_mul, Int.neg_tdiv] at this
    omega

/-! ### Towers, keys, work -/

/-- A list of all numbers searched: the first that passes. -/
theorem find?_finRange {n : Nat} (p : Fin n → Bool) (u : Fin n) :
    (List.finRange n).find? p = some u ↔ p u = true ∧ ∀ v, v < u → p v = false := by
  rw [List.find?_eq_some_iff_getElem]
  constructor
  · rintro ⟨h, i, hi, e, k⟩
    rw [List.getElem_finRange] at e
    refine ⟨h, fun v hv => ?_⟩
    have := k v.val (by have := Fin.lt_def.1 hv; rw [← e] at this; simpa using this)
    simpa using this
  · rintro ⟨h, k⟩
    refine ⟨h, u.val, by simp, by simp, fun j hj => ?_⟩
    have := k ⟨j, by omega⟩ hj
    simpa using this

/-- The tower found at an address. -/
theorem State.towerAt_some (s : State) (adr : Byte) (u : Tower) :
    s.towerAt adr = some u ↔ (s.towers[u].configured = true ∧ s.towers[u].address = some adr)
      ∧ ∀ v : Tower, v < u → ¬(s.towers[v].configured = true ∧ s.towers[v].address = some adr) := by
  unfold State.towerAt allTowers allFin
  rw [find?_finRange]
  simp

/-- No tower at an address. -/
theorem State.towerAt_none (s : State) (adr : Byte) :
    s.towerAt adr = none ↔ ∀ u : Tower, ¬(s.towers[u].configured = true ∧ s.towers[u].address = some adr) := by
  unfold State.towerAt
  rw [List.find?_eq_none]
  simp

/-- A tower is configured unless it is UNCONFIGURED. -/
theorem TowerState.configured_iff (tw : TowerState) : tw.configured = true ↔ tw.service ≠ .unconfigured := by
  simp [TowerState.configured]

/-- No two slots have one link number. -/
theorem linkNumber_inj : ∀ a b : Slot, linkNumber a = linkNumber b → a = b := by decide +kernel

/-- The slot found at a link number. -/
theorem TowerState.slotOf_some (tw : TowerState) (key : Byte) (sl : Slot) :
    tw.slotOf key = some sl ↔ tw.present sl = true ∧ key = linkNumber sl := by
  constructor
  · intro h
    have h1 := List.find?_some h
    have h2 := List.mem_of_find?_eq_some h
    simp only [decide_eq_true_eq] at h1
    simp only [TowerState.slots, List.mem_filter] at h2
    exact ⟨h2.2, h1.symm⟩
  · rintro ⟨h, rfl⟩
    cases hf : tw.slotOf (linkNumber sl) with
    | none =>
      have := List.find?_eq_none.1 hf sl (by simp [TowerState.slots, h])
      simp at this
    | some x =>
      have := List.find?_some hf
      simp only [decide_eq_true_eq] at this
      rw [linkNumber_inj _ _ this]

/-- The head of a queue that can be dispatched. -/
theorem TowerState.dispatchable_isSome (tw : TowerState) :
    tw.dispatchable.isSome = true ↔ ∃ sl q, tw.queue = sl :: q ∧ admitsMoves tw.service = true
      ∧ tw.flight.length < 4 ∧ (tw.recs[sl]).commanded.isSome = true := by
  unfold TowerState.dispatchable
  split
  · simp [*]
  · rename_i sl q hq
    rw [hq]
    simp only [List.cons.injEq, Bool.and_eq_true, Config.maxInFlight]
    split
    · rename_i h
      exact iff_of_true rfl ⟨sl, q, ⟨rfl, rfl⟩, h.1.1, of_decide_eq_true h.1.2, h.2⟩
    · rename_i h
      refine iff_of_false (by simp) ?_
      rintro ⟨a, b, ⟨rfl, rfl⟩, h1, h2, h3⟩
      exact h ⟨⟨h1, decide_eq_true h2⟩, h3⟩

/-! ### Orders -/

/-- No check that applies to every order fails (R117). -/
theorem Engine.commonFault_none (e : Engine) (r : OrderRec) :
    e.commonFault r = none
      ↔ e.visited < 65 ∧ r.state ≠ 2 ∧ ¬(r.state = 3 ∧ r.code = 6) ∧ r.verb < 13 ∧ r.notify < 3
        ∧ (r.linked = true → r.next < e.length) := by
  simp only [Engine.commonFault, Config.chainLimit, firstBadVerb]
  (repeat' split) <;> simp <;> grind

/-- The address of the current record of a table (R114; log 14). -/
theorem Engine.recordAddr_table {e : Engine} {tab : OrderTable} (h : e.table = some tab) :
    e.recordAddr = (tab.base + 32 * e.current) % 2 ^ 28 ∧ e.length = tab.length := by
  simp [Engine.recordAddr, Engine.length, h, wrapAddr]

/-! ### The loader -/

/-- The header of an image whose signature and count are good (R169). -/
theorem readHeader_good {image : List Byte} (h0 : imageWord image 0 = 0x5A3C#16) (h1 : 1 ≤ (imageWord image 1).toNat)
    (h2 : (imageWord image 1).toNat ≤ 16) :
    readHeader image
      = some ⟨(imageWord image 1).toNat,
          (List.range (imageWord image 1).toNat).map (fun i => imageWord image (i + 2))⟩ := by
  have hs : Config.signature = 0x5A3C#16 := rfl
  unfold readHeader
  dsimp only
  rw [if_pos ⟨by rw [h0, hs], h1, h2⟩]

/-- The header of any other image. -/
theorem readHeader_bad {image : List Byte} (h : imageWord image 0 ≠ 0x5A3C#16 ∨ (imageWord image 1).toNat < 1
    ∨ 16 < (imageWord image 1).toNat) : readHeader image = none := by
  have hs : Config.signature = 0x5A3C#16 := rfl
  unfold readHeader
  dsimp only
  rw [if_neg (fun k => by
    rw [hs] at k
    rcases h with h | h | h
    · exact h k.1
    · omega
    · omega)]

/-- The fold latch over a RELOAD (R29, R39). -/
theorem Coverage.startReload_latch (c : Coverage) :
    c.startReload.latch
      = c.latch.map (fun f => { f with void := f.void || decide ((c.banks.get f.bank).state = .clearing) }) := by
  cases h : c.latch with
  | none => simp [Coverage.startReload, Coverage.voidFold, h]
  | some f =>
    simp only [Coverage.startReload, Coverage.voidFold, Coverage.clearing, h, Option.map_some]
    by_cases e : (c.banks.get f.bank).state = .clearing <;> simp [e, h]

/-! ### The window table and the LIVE window -/

/-- An entry contains the addresses from its base up to its end (R5). -/
theorem Window.covers_iff (w : Window) (a : Nat) : w.covers a = true ↔ w.base ≤ a ∧ a < w.base + w.size := by
  simp [Window.covers]

/-- The window found in a table is the entry of lowest index that contains the address (R5). -/
theorem findWindow_some (a : Nat) (tab : WindowTable) (w : Window) :
    findWindow a tab = some w ↔ ∃ i : Nat, tab[i]? = some (some w) ∧ w.covers a = true
      ∧ ∀ (j : Nat) (x : Window), j < i → tab[j]? = some (some x) → x.covers a = false := by
  induction tab with
  | nil => simp [findWindow]
  | cons y tab ih =>
    have shift : (∃ i : Nat, tab[i]? = some (some w) ∧ w.covers a = true
          ∧ ∀ (j : Nat) (x : Window), j < i → tab[j]? = some (some x) → x.covers a = false)
        → (∀ x, y = some x → x.covers a = false)
        → ∃ i : Nat, (y :: tab)[i]? = some (some w) ∧ w.covers a = true
          ∧ ∀ (j : Nat) (x : Window), j < i → (y :: tab)[j]? = some (some x) → x.covers a = false := by
      rintro ⟨i, h1, h2, h3⟩ h4
      refine ⟨i + 1, by simpa using h1, h2, fun j x hj hx => ?_⟩
      cases j with
      | zero => exact h4 x (by simpa using hx)
      | succ j => exact h3 j x (by omega) (by simpa using hx)
    have back : (∃ i : Nat, (y :: tab)[i]? = some (some w) ∧ w.covers a = true
          ∧ ∀ (j : Nat) (x : Window), j < i → (y :: tab)[j]? = some (some x) → x.covers a = false)
        → (∀ x, y = some x → x.covers a = false)
        → ∃ i : Nat, tab[i]? = some (some w) ∧ w.covers a = true
          ∧ ∀ (j : Nat) (x : Window), j < i → tab[j]? = some (some x) → x.covers a = false := by
      rintro ⟨i, h1, h2, h3⟩ h4
      cases i with
      | zero =>
        have := h4 w (by simpa using h1)
        simp_all
      | succ i =>
        exact ⟨i, by simpa using h1, h2, fun j x hj hx => h3 (j + 1) x (by omega) (by simpa using hx)⟩
    cases y with
    | none => exact ⟨fun h => shift (ih.1 h) (by simp), fun h => ih.2 (back h (by simp))⟩
    | some v =>
      simp only [findWindow]
      split
      · rename_i hv
        constructor
        · rintro ⟨⟩
          exact ⟨0, rfl, hv, by simp⟩
        · rintro ⟨i, h1, h2, h3⟩
          cases i with
          | zero => simpa using h1
          | succ i =>
            have := h3 0 v (by omega) rfl
            simp_all
      · rename_i hv
        have hv' : ∀ x, some v = some x → x.covers a = false := by
          rintro x ⟨⟩
          simpa using hv
        exact ⟨fun h => shift (ih.1 h) hv', fun h => ih.2 (back h hv')⟩

/-- No window is found exactly when no entry contains the address (R5). -/
theorem findWindow_none (a : Nat) (tab : WindowTable) :
    findWindow a tab = none ↔ ∀ w, some w ∈ tab → w.covers a = false := by
  induction tab with
  | nil => simp [findWindow]
  | cons y tab ih =>
    cases y with
    | none => simp [findWindow, ih]
    | some v => cases hv : v.covers a <;> simp [findWindow, hv, ih]

/-- The window of an access (R4, R5). -/
theorem State.windowOf_some (s : State) (a : Access) (w : Window) :
    s.windowOf a = some w ↔ s.control.part = .running ∧ ∃ i : Nat, s.windows[i]? = some (some w)
      ∧ (w.base ≤ a.addr.toNat ∧ a.addr.toNat < w.base + w.size)
      ∧ ∀ (j : Nat) (x : Window), j < i → s.windows[j]? = some (some x) →
        ¬(x.base ≤ a.addr.toNat ∧ a.addr.toNat < x.base + x.size) := by
  unfold State.windowOf
  split
  · rename_i h
    simp only [h, true_and, findWindow_some, Window.covers_iff, ← Bool.not_eq_true]
  · rename_i h
    simp [h]

/-- An access in no window (R4, R5). -/
theorem State.windowOf_none (s : State) (a : Access) :
    s.windowOf a = none ↔ s.control.part ≠ .running
      ∨ ∀ w, some w ∈ s.windows → ¬(w.base ≤ a.addr.toNat ∧ a.addr.toNat < w.base + w.size) := by
  unfold State.windowOf
  split
  · rename_i h
    simp only [h, ne_eq, not_true_eq_false, false_or, findWindow_none, ← Window.covers_iff, Bool.not_eq_true]
  · rename_i h
    simp [h]

/-- The trim word an offset of the LIVE window lies in (R12, R14, 12.4). -/
theorem State.trimTarget_some (s : State) (o : Nat) (u : Tower) (sl : Slot) :
    s.trimTarget o = some (u, sl) ↔ o / 4 * 4 = 1024 * u.val + 800 + 4 * sl.val ∧ s.towers[u].present sl = true := by
  have hu := u.isLt
  have hs := sl.isLt
  have e : (areaTower o = some u ∧ trimSlot (o % 1024) = some sl) ↔ o / 4 * 4 = 1024 * u.val + 800 + 4 * sl.val := by
    constructor
    · rintro ⟨h1, h2⟩
      simp only [areaTower, trimSlot, slotOfNat] at h1 h2
      split at h1 <;> try cases h1
      split at h2 <;> try cases h2
      split at h2 <;> try cases h2
      dsimp only
      omega
    · intro h
      refine ⟨?_, ?_⟩
      · rw [areaTower, dif_pos (by omega)]
        exact congrArg some (Fin.ext (by show o / 1024 = _; omega))
      · rw [trimSlot, if_pos (by omega), slotOfNat, dif_pos (by omega)]
        exact congrArg some (Fin.ext (by show (o % 1024 - 800) / 4 = _; omega))
  rw [← e]
  unfold State.trimTarget
  split
  · rename_i t x h1 h2
    simp only [h1, h2, Option.some.injEq]
    split
    · rename_i hp
      simp only [Option.some.injEq, Prod.mk.injEq]
      constructor
      · rintro ⟨rfl, rfl⟩
        exact ⟨⟨rfl, rfl⟩, hp⟩
      · exact fun h => h.1
    · rename_i hp
      simp only [reduceCtorEq, false_iff]
      rintro ⟨⟨rfl, rfl⟩, h⟩
      exact hp h
  · rename_i h
    simp only [reduceCtorEq, false_iff]
    rintro ⟨⟨h1, h2⟩, -⟩
    exact h _ _ h1 h2

/-- An offset that is in no trim word of a present slot. -/
theorem State.trimTarget_none (s : State) (o : Nat) :
    s.trimTarget o = none ↔ ∀ (u : Tower) (sl : Slot),
      ¬(o / 4 * 4 = 1024 * u.val + 800 + 4 * sl.val ∧ s.towers[u].present sl = true) := by
  rw [Option.eq_none_iff_forall_ne_some]
  simp only [ne_eq, Prod.forall, State.trimTarget_some]

/-! ### Columns and their owners -/

/-- The owner of a column is the key of lowest index that covers it (R22). -/
theorem Geometry.owner_some (g : Geometry) (col : Nat) (k : Fin 48) :
    g.owner col = some k ↔ (k.val < g.k ∧ g.bound k.val ≤ col ∧ col < g.bound (k.val + 1))
      ∧ ∀ j : Fin 48, j < k → ¬(j.val < g.k ∧ g.bound j.val ≤ col ∧ col < g.bound (j.val + 1)) := by
  unfold Geometry.owner allFin
  rw [find?_finRange]
  simp [and_assoc]

/-- A column that no key covers is margin (R22). -/
theorem Geometry.owner_none (g : Geometry) (col : Nat) :
    g.owner col = none
      ↔ ∀ k : Fin 48, ¬(k.val < g.k ∧ g.bound k.val ≤ col ∧ col < g.bound (k.val + 1)) := by
  unfold Geometry.owner
  rw [List.find?_eq_none]
  simp [allFin, and_assoc]

/-- Boundaries that ascend do so over any distance. -/
theorem Geometry.bound_mono {g : Geometry} (h : ∀ i, i < g.k → g.bound i ≤ g.bound (i + 1)) {i j : Nat} (hij : i ≤ j)
    (hj : j ≤ g.k) : g.bound i ≤ g.bound j := by
  induction j with
  | zero => simp [Nat.le_zero.1 hij]
  | succ j ih =>
    rcases Nat.eq_or_lt_of_le hij with rfl | hlt
    · exact Nat.le_refl _
    · exact Nat.le_trans (ih (by omega) (by omega)) (h j (by omega))

/-- With ascending boundaries, key k owns columns B(k) to B(k + 1) − 1, and the columns below B(0) and from B(K) on are
margin (R22). -/
theorem Geometry.owner_ascending {g : Geometry} (h : ∀ i, i < g.k → g.bound i ≤ g.bound (i + 1)) (hk : g.k ≤ 48)
    (col : Nat) :
    (∀ k : Fin 48, g.owner col = some k ↔ k.val < g.k ∧ g.bound k.val ≤ col ∧ col < g.bound (k.val + 1))
      ∧ (g.owner col = none ↔ col < g.bound 0 ∨ g.bound g.k ≤ col) := by
  constructor
  · intro k
    rw [Geometry.owner_some]
    refine ⟨fun h => h.1, fun hc => ⟨hc, fun j hj hjc => ?_⟩⟩
    have := Geometry.bound_mono h (i := j.val + 1) (j := k.val) hj (by omega)
    omega
  · rw [Geometry.owner_none]
    constructor
    · intro hn
      refine Decidable.byContradiction fun hc => ?_
      rw [not_or, Nat.not_lt, Nat.not_le] at hc
      have key : ∀ n, n ≤ g.k → g.bound n ≤ col := by
        intro n
        induction n with
        | zero => exact fun _ => hc.1
        | succ n ih =>
          intro hle
          have := hn ⟨n, by omega⟩
          have := ih (by omega)
          simp only [not_and, Nat.not_lt] at *
          omega
      have := key g.k (Nat.le_refl _)
      omega
    · rintro hc k ⟨h1, h2, h3⟩
      have a := Geometry.bound_mono h (i := 0) (j := k.val) (by omega) (by omega)
      have b := Geometry.bound_mono h (i := k.val + 1) (j := g.k) (by omega) (Nat.le_refl _)
      omega

end Sys2Proof.Machine
end

