-- ==== Sys2Proof/Laws/OnTx.lean ====
section
/-! SUPPORT. What the transmitter does is looked at by no operation but the ends of sending and gap and the search that
follows an event: every other operation does to a machine the same whatever its transmitter does (R88). One lemma an
operation. -/

namespace Sys2Proof.Machine

/-- A machine with its transmitter in a given state. -/
def State.onTx (x : TxState) (s : State) : State := { s with link := { s.link with tx := x } }

@[simp] theorem State.onTx_onTx (x y : TxState) (s : State) : (s.onTx y).onTx x = s.onTx x := rfl
@[simp] theorem State.onTx_tx (x : TxState) (s : State) : (s.onTx x).link.tx = x := rfl
@[simp] theorem State.onTx_pointer (x : TxState) (s : State) : (s.onTx x).link.pointer = s.link.pointer := rfl
@[simp] theorem State.onTx_rx (x : TxState) (s : State) : (s.onTx x).link.rx = s.link.rx := rfl
theorem State.onTx_self (s : State) : s.onTx s.link.tx = s := rfl

@[simp] theorem State.onTx_pending (x : TxState) (s : State) : (s.onTx x).pending = s.pending := rfl
@[simp] theorem State.onTx_mem (x : TxState) (s : State) : (s.onTx x).mem = s.mem := rfl
@[simp] theorem State.onTx_lastResponse (x : TxState) (s : State) : (s.onTx x).lastResponse = s.lastResponse := rfl
@[simp] theorem State.onTx_bus (x : TxState) (s : State) : (s.onTx x).bus = s.bus := rfl
@[simp] theorem State.onTx_windows (x : TxState) (s : State) : (s.onTx x).windows = s.windows := rfl
@[simp] theorem State.onTx_port (x : TxState) (s : State) : (s.onTx x).port = s.port := rfl
@[simp] theorem State.onTx_coverage (x : TxState) (s : State) : (s.onTx x).coverage = s.coverage := rfl
@[simp] theorem State.onTx_curves (x : TxState) (s : State) : (s.onTx x).curves = s.curves := rfl
@[simp] theorem State.onTx_towers (x : TxState) (s : State) : (s.onTx x).towers = s.towers := rfl
@[simp] theorem State.onTx_timeout (x : TxState) (s : State) : (s.onTx x).timeout = s.timeout := rfl
@[simp] theorem State.onTx_levels (x : TxState) (s : State) : (s.onTx x).levels = s.levels := rfl
@[simp] theorem State.onTx_engine (x : TxState) (s : State) : (s.onTx x).engine = s.engine := rfl
@[simp] theorem State.onTx_loop (x : TxState) (s : State) : (s.onTx x).loop = s.loop := rfl
@[simp] theorem State.onTx_control (x : TxState) (s : State) : (s.onTx x).control = s.control := rfl
@[simp] theorem State.onTx_loader (x : TxState) (s : State) : (s.onTx x).loader = s.loader := rfl

/-! ### What is read -/

@[simp] theorem State.windowOf_onTx (x : TxState) (s : State) (a : Access) :
    (s.onTx x).windowOf a = s.windowOf a := rfl
@[simp] theorem State.foldOf_onTx (x : TxState) (s : State) (a : Access) :
    (s.onTx x).foldOf a = s.foldOf a := rfl
@[simp] theorem State.trimTarget_onTx (x : TxState) (s : State) (o : Nat) :
    (s.onTx x).trimTarget o = s.trimTarget o := rfl
@[simp] theorem State.liveWord_onTx (x : TxState) (s : State) (o : Nat) :
    (s.onTx x).liveWord o = s.liveWord o := rfl
@[simp] theorem State.gateFault_onTx (x : TxState) (s : State) (i : Fin 16) (t : Tower) :
    (s.onTx x).gateFault i t = s.gateFault i t := rfl
@[simp] theorem State.towerSet_onTx (x : TxState) (s : State) (k : Bool) (r : OrderRec) :
    (s.onTx x).towerSet k r = s.towerSet k r := rfl
@[simp] theorem State.presetFault_onTx (x : TxState) (s : State) (r : OrderRec) (ts : List Tower) :
    (s.onTx x).presetFault r ts = s.presetFault r ts := rfl
@[simp] theorem State.presetBase_onTx (x : TxState) (s : State) (r : OrderRec) (t : Tower) (sl : Slot) :
    (s.onTx x).presetBase r t sl = s.presetBase r t sl := rfl
@[simp] theorem State.linkView_onTx (x : TxState) (s : State) :
    (s.onTx x).linkView = s.linkView := rfl
@[simp] theorem State.nextPreload_onTx (x : TxState) (s : State) :
    (s.onTx x).nextPreload = s.nextPreload := rfl
@[simp] theorem State.waitingAccess_onTx (x : TxState) (s : State) (c : MasterClass) :
    (s.onTx x).waitingAccess c = s.waitingAccess c := rfl
@[simp] theorem State.nextPass_onTx (x : TxState) (s : State) :
    (s.onTx x).nextPass = s.nextPass := rfl
@[simp] theorem State.passWord_onTx (x : TxState) (s : State) (a : Access) (p : Purpose) :
    (s.onTx x).passWord a p = s.passWord a p := rfl
@[simp] theorem State.reqWords_onTx (x : TxState) (s : State) (r : IReq) :
    (s.onTx x).reqWords r = s.reqWords r := rfl
@[simp] theorem State.towerAt_onTx (x : TxState) (s : State) (a : Byte) :
    (s.onTx x).towerAt a = s.towerAt a := rfl
@[simp] theorem State.reread_onTx (x : TxState) (s : State) (u : Tower) (image : List Byte) :
    (s.onTx x).reread u image = s.reread u image := rfl
@[simp] theorem State.wordDatum_onTx (x : TxState) (s : State) (v : CtlWord) (r : Result) (i : Byte) :
    (s.onTx x).wordDatum v r i = s.wordDatum v r i := rfl
@[simp] theorem State.found_onTx (x : TxState) (s : State) :
    (s.onTx x).found = s.found := rfl
@[simp] theorem State.badRecord_onTx (x : TxState) (s : State) (m : MeasureRec) :
    (s.onTx x).badRecord m = s.badRecord m := rfl
@[simp] theorem State.correctionOf_onTx (x : TxState) (s : State) (m : MeasureRec) :
    (s.onTx x).correctionOf m = s.correctionOf m := rfl

/-! ### One block at a time -/

@[simp] theorem State.raise_onTx (x : TxState) (s : State) (f : EventFlag) :
    (s.onTx x).raise f = State.onTx x (s.raise f) := rfl
@[simp] theorem State.raiseIf_onTx (x : TxState) (s : State) (c : Bool) (f : EventFlag) :
    (s.onTx x).raiseIf c f = State.onTx x (s.raiseIf c f) := rfl
@[simp] theorem State.report_onTx (x : TxState) (s : State) (v : CtlWord) :
    (s.onTx x).report v = State.onTx x (s.report v) := rfl
@[simp] theorem State.reportIf_onTx (x : TxState) (s : State) (c : Bool) (v : CtlWord) :
    (s.onTx x).reportIf c v = State.onTx x (s.reportIf c v) := rfl
@[simp] theorem State.respond_onTx (x : TxState) (s : State) (c : MasterClass) (r : Response) :
    (s.onTx x).respond c r = State.onTx x (s.respond c r) := rfl
@[simp] theorem State.capture_onTx (x : TxState) (s : State) (a : Addr) (c : MasterClass) :
    (s.onTx x).capture a c = State.onTx x (s.capture a c) := rfl
@[simp] theorem State.refuse_onTx (x : TxState) (s : State) (a : Access) :
    (s.onTx x).refuse a = State.onTx x (s.refuse a) := rfl
@[simp] theorem State.setStage_onTx (x : TxState) (s : State) (a : Access) (y : BusStage) :
    (s.onTx x).setStage a y = State.onTx x (s.setStage a y) := rfl
@[simp] theorem State.claim_onTx (x : TxState) (s : State) (a : Access) (p : Purpose) :
    (s.onTx x).claim a p = State.onTx x (s.claim a p) := rfl
@[simp] theorem State.offer_onTx (x : TxState) (s : State) (r : IReq) :
    (s.onTx x).offer r = State.onTx x (s.offer r) := rfl
@[simp] theorem State.freePort_onTx (x : TxState) (s : State) :
    (s.onTx x).freePort  = State.onTx x (s.freePort ) := rfl
@[simp] theorem State.putTower_onTx (x : TxState) (s : State) (t : Tower) (tw : TowerState) :
    (s.onTx x).putTower t tw = State.onTx x (s.putTower t tw) := rfl
@[simp] theorem State.modTower_onTx (x : TxState) (s : State) (t : Tower) (f : TowerState → TowerState) :
    (s.onTx x).modTower t f = State.onTx x (s.modTower t f) := rfl
@[simp] theorem State.putEngine_onTx (x : TxState) (s : State) (e : Engine) :
    (s.onTx x).putEngine e = State.onTx x (s.putEngine e) := rfl
@[simp] theorem State.fetch_onTx (x : TxState) (s : State) (e : Engine) :
    (s.onTx x).fetch e = State.onTx x (s.fetch e) := rfl
@[simp] theorem State.startChain_onTx (x : TxState) (s : State) (i : Nat) (k : Option Source) :
    (s.onTx x).startChain i k = State.onTx x (s.startChain i k) := rfl
@[simp] theorem State.setSlot_onTx (x : TxState) (s : State) (i : Fin 16) (y : SlotState) :
    (s.onTx x).setSlot i y = State.onTx x (s.setSlot i y) := rfl
@[simp] theorem State.forgetResets_onTx (x : TxState) (s : State) (i : Fin 16) :
    (s.onTx x).forgetResets i = State.onTx x (s.forgetResets i) := rfl
@[simp] theorem State.dropRecord_onTx (x : TxState) (s : State) (y : DropReason) (i : Fin 16) (z : Option Byte) :
    (s.onTx x).dropRecord y i z = State.onTx x (s.dropRecord y i z) := rfl
@[simp] theorem State.correct_onTx (x : TxState) (s : State) (m : MeasureRec) (t : Tower) :
    (s.onTx x).correct m t = State.onTx x (s.correct m t) := rfl
@[simp] theorem State.setApplied_onTx (x : TxState) (s : State) (t : Tower) (g : Half) :
    (s.onTx x).setApplied t g = State.onTx x (s.setApplied t g) := rfl
@[simp] theorem State.clearMeasure_onTx (x : TxState) (s : State) :
    (s.onTx x).clearMeasure  = State.onTx x (s.clearMeasure ) := rfl
@[simp] theorem State.setLatch_onTx (x : TxState) (s : State) (f : Option Fold) :
    (s.onTx x).setLatch f = State.onTx x (s.setLatch f) := rfl
@[simp] theorem State.setWaiting_onTx (x : TxState) (s : State) (l : List MasterClass) :
    (s.onTx x).setWaiting l = State.onTx x (s.setWaiting l) := rfl
@[simp] theorem State.refuseFold_onTx (x : TxState) (s : State) (a : Access) :
    (s.onTx x).refuseFold a = State.onTx x (s.refuseFold a) := rfl
@[simp] theorem State.misfit_onTx (x : TxState) (s : State) (a : Access) :
    (s.onTx x).misfit a = State.onTx x (s.misfit a) := rfl
@[simp] theorem State.clearCapture_onTx (x : TxState) (s : State) :
    (s.onTx x).clearCapture  = State.onTx x (s.clearCapture ) := rfl
@[simp] theorem State.setResult_onTx (x : TxState) (s : State) (v : CtlWord) (r : Result) (d : Word) :
    (s.onTx x).setResult v r d = State.onTx x (s.setResult v r d) := rfl
@[simp] theorem State.dropStaged_onTx (x : TxState) (s : State) :
    (s.onTx x).dropStaged  = State.onTx x (s.dropStaged ) := rfl
@[simp] theorem State.setLoader_onTx (x : TxState) (s : State) (y : LoaderState) :
    (s.onTx x).setLoader y = State.onTx x (s.setLoader y) := rfl
@[simp] theorem State.stage_onTx (x : TxState) (s : State) (f : Staged → Staged) :
    (s.onTx x).stage f = State.onTx x (s.stage f) := rfl
@[simp] theorem State.drive_onTx (x : TxState) (s : State) (xs : List SpiStep) :
    (s.onTx x).drive xs = State.onTx x (s.drive xs) := rfl
@[simp] theorem State.readOn_onTx (x : TxState) (s : State) (xs : List SpiStep) :
    (s.onTx x).readOn xs = State.onTx x (s.readOn xs) := rfl
@[simp] theorem State.freeChannel_onTx (x : TxState) (s : State) :
    (s.onTx x).freeChannel  = State.onTx x (s.freeChannel ) := rfl
@[simp] theorem State.memAnswered_onTx (x : TxState) (s : State) (v : PortWord) (y : MemAnswer) :
    (s.onTx x).memAnswered v y = State.onTx x (s.memAnswered v y) := rfl
@[simp] theorem State.completed_onTx (x : TxState) (s : State) (ws : List PortWord) (y : List MemAnswer) (d : Bool) :
    (s.onTx x).completed ws y d = State.onTx x (s.completed ws y d) := rfl
@[simp] theorem State.takeHello_onTx (x : TxState) (s : State) (t : Tower) :
    (s.onTx x).takeHello t = State.onTx x (s.takeHello t) := rfl
@[simp] theorem State.takeAnswer_onTx (x : TxState) (s : State) (t : Tower) (k : AnswerKind) (key tag : Byte) (p : Nat) :
    (s.onTx x).takeAnswer t k key tag p = State.onTx x (s.takeAnswer t k key tag p) := rfl
@[simp] theorem State.setImpr_onTx (x : TxState) (s : State) (c : Bool) :
    (s.onTx x).setImpr c = State.onTx x (s.setImpr c) := rfl
@[simp] theorem State.setRx_onTx (x : TxState) (s : State) (r : RxState) :
    (s.onTx x).setRx r = State.onTx x (s.setRx r) := rfl
@[simp] theorem State.writeBack_onTx (x : TxState) (s : State) (l : List Word) (o : OrderOutcome) :
    (s.onTx x).writeBack l o = State.onTx x (s.writeBack l o) := rfl
@[simp] theorem State.presetTower_onTx (x : TxState) (r : OrderRec) (s0 s : State) (t : Tower) :
    State.presetTower r s0 (s.onTx x) t = State.onTx x (State.presetTower r s0 s t) := rfl
theorem State.presetTower_base (x : TxState) (r : OrderRec) (s0 : State) :
    State.presetTower r (s0.onTx x) = State.presetTower r s0 := rfl
@[simp] theorem State.readLive_onTx (x : TxState) (s : State) (v : Window) (a : Access) :
    (s.onTx x).readLive v a = State.onTx x (s.readLive v a) := rfl
@[simp] theorem State.answerDone_onTx (x : TxState) (s : State) (a : Access) (v : CtlWord) (ok : Bool) :
    (s.onTx x).answerDone a v ok = State.onTx x (s.answerDone a v ok) := rfl
@[simp] theorem State.offerOn_onTx (x : TxState) (s : State) (c : ChannelReq) (r : IReq) :
    (s.onTx x).offerOn c r = State.onTx x (s.offerOn c r) := rfl
@[simp] theorem State.resetTower_onTx (x : TxState) (s : State) (t : Tower) (c : Option TowerCfg) :
    (s.onTx x).resetTower t c = State.onTx x (s.resetTower t c) := rfl
@[simp] theorem State.runLoad_onTx (x : TxState) (s : State) (g : GlobalCfg) :
    (s.onTx x).runLoad g = State.onTx x (s.runLoad g) := rfl

/-! ### The rest -/

@[simp] theorem State.modTowers_onTx (x : TxState) (s : State) (f : TowerState → TowerState) (l : List Tower) :
    (s.onTx x).modTowers f l = State.onTx x (s.modTowers f l) := by
  induction l generalizing s with
  | nil => rfl
  | cons t l ih => exact ih (s.modTower t f)
@[simp] theorem State.bankCommand_onTx (x : TxState) (s : State) (c : BankCmd) :
    (s.onTx x).bankCommand c = Prod.map id (State.onTx x) (s.bankCommand c) := rfl
@[simp] theorem State.watch_onTx (x : TxState) (s : State) (v : PortWord) :
    (s.onTx x).watch v = State.onTx x (s.watch v) := by
  unfold State.watch
  simp only [State.onTx_coverage]
  repeat' first | rfl | (rw [apply_ite (State.onTx x)]; refine ite_congr rfl (fun _ => ?_) fun _ => ?_) | split
@[simp] theorem State.serveStarts_onTx (x : TxState) (s : State) :
    (s.onTx x).serveStarts = State.onTx x (s.serveStarts) := by
  unfold State.serveStarts
  simp only [State.onTx_engine, State.putEngine_onTx, State.startChain_onTx]
  repeat' first | rfl | (rw [apply_ite (State.onTx x)]; refine ite_congr rfl (fun _ => ?_) fun _ => ?_) | split
@[simp] theorem State.endChain_onTx (x : TxState) (s : State) :
    (s.onTx x).endChain = State.onTx x (s.endChain) := State.serveStarts_onTx x (s.putEngine _)
@[simp] theorem State.fire_onTx (x : TxState) (s : State) (k : Source) :
    (s.onTx x).fire k = State.onTx x (s.fire k) := by
  unfold State.fire
  simp only [State.onTx_engine, State.putEngine_onTx, State.raise_onTx, State.serveStarts_onTx]
  repeat' first
    | rfl
    | exact State.serveStarts_onTx x _
    | (rw [apply_ite (State.onTx x)]; refine ite_congr rfl (fun _ => ?_) fun _ => ?_) | split
@[simp] theorem State.countSheet_onTx (x : TxState) (s : State) :
    (s.onTx x).countSheet = State.onTx x (s.countSheet) := by
  unfold State.countSheet
  simp only [State.onTx_engine]
  repeat' first
    | rfl
    | exact State.fire_onTx x { s with engine := { s.engine with counter := 0 } } _
    | (rw [apply_ite (State.onTx x)]; refine ite_congr rfl (fun _ => ?_) fun _ => ?_) | split
@[simp] theorem State.start_onTx (x : TxState) (s : State) (i : Byte) :
    (s.onTx x).start i = Prod.map id (State.onTx x) (s.start i) := by
  unfold State.start
  simp only [State.onTx_engine, State.putEngine_onTx, State.startChain_onTx]
  repeat' first
    | rfl
    | (rw [apply_ite (Prod.map id (State.onTx x))]; refine ite_congr rfl (fun _ => ?_) fun _ => ?_) | split
@[simp] theorem State.stop_onTx (x : TxState) (s : State) (i : Byte) :
    (s.onTx x).stop i = Prod.map id (State.onTx x) (s.stop i) := by
  unfold State.stop
  simp only [State.onTx_engine, State.putEngine_onTx]
  repeat' first
    | rfl
    | (rw [apply_ite (Prod.map id (State.onTx x))]; refine ite_congr rfl (fun _ => ?_) fun _ => ?_) | split
@[simp] theorem State.stopAll_onTx (x : TxState) (s : State) :
    (s.onTx x).stopAll = Prod.map id (State.onTx x) (s.stopAll) := by
  unfold State.stopAll
  exact congrArg (Prod.mk Result.accepted) (State.modTowers_onTx x (s.putEngine _) _ _)
@[simp] theorem State.armBinding_onTx (x : TxState) (s : State) (k : Source) (i d : Byte) :
    (s.onTx x).armBinding k i d = Prod.map id (State.onTx x) (s.armBinding k i d) := by
  unfold State.armBinding
  simp only [State.onTx_engine, State.putEngine_onTx]
  repeat' first
    | rfl
    | (rw [apply_ite (Prod.map id (State.onTx x))]; refine ite_congr rfl (fun _ => ?_) fun _ => ?_) | split
@[simp] theorem State.disarmBinding_onTx (x : TxState) (s : State) (k : Source) :
    (s.onTx x).disarmBinding k = Prod.map id (State.onTx x) (s.disarmBinding k) := rfl
@[simp] theorem State.keyRange_onTx (x : TxState) (s : State) (r : OrderRec) (f : KeyRec → KeyRec) :
    (s.onTx x).keyRange r f = (s.keyRange r f).map (State.onTx x) := by
  unfold State.keyRange
  simp only [State.modTowers_onTx, State.towerSet_onTx]
  repeat' first
    | rfl
    | (rw [apply_ite (Except.map (State.onTx x))]; refine ite_congr rfl (fun _ => ?_) fun _ => ?_) | split
theorem State.presetTowers_onTx (x : TxState) (r : OrderRec) (s0 s : State) (l : List Tower) :
    l.foldl (State.presetTower r s0) (s.onTx x) = State.onTx x (l.foldl (State.presetTower r s0) s) := by
  induction l generalizing s with
  | nil => rfl
  | cons t l ih => exact ih (State.presetTower r s0 s t)
@[simp] theorem State.runPreset_onTx (x : TxState) (s : State) (r : OrderRec) :
    (s.onTx x).runPreset r = (s.runPreset r).map (State.onTx x) := by
  unfold State.runPreset
  simp only [State.presetFault_onTx, State.towerSet_onTx]
  repeat' first
    | rfl
    | exact congrArg Except.ok (State.presetTowers_onTx x r s s _)
    | (rw [apply_ite (Except.map (State.onTx x))]; refine ite_congr rfl (fun _ => ?_) fun _ => ?_) | split
@[simp] theorem State.orderBank_onTx (x : TxState) (s : State) (c : BankCmd) :
    (s.onTx x).orderBank c = (s.orderBank c).map (State.onTx x) := by
  unfold State.orderBank
  simp only [State.bankCommand_onTx, Prod.map_fst, Prod.map_snd, id]
  rw [apply_ite (Except.map (State.onTx x))]
  rfl
@[simp] theorem State.orderNamedBank_onTx (x : TxState) (s : State) (c : BankId → BankCmd) (r : OrderRec) :
    (s.onTx x).orderNamedBank c r = (s.orderNamedBank c r).map (State.onTx x) := by
  unfold State.orderNamedBank
  simp only [State.orderBank_onTx]
  repeat' first
    | rfl
    | (rw [apply_ite (Except.map (State.onTx x))]; refine ite_congr rfl (fun _ => ?_) fun _ => ?_) | split
@[simp] theorem State.orderLoop_onTx (x : TxState) (s : State) (f : TowerState → Result × TowerState) (r : OrderRec) :
    (s.onTx x).orderLoop f r = (s.orderLoop f r).map (State.onTx x) := by
  unfold State.orderLoop
  simp only [State.modTowers_onTx, State.towerSet_onTx]
  repeat' first
    | rfl
    | (rw [apply_ite (Except.map (State.onTx x))]; refine ite_congr rfl (fun _ => ?_) fun _ => ?_) | split
@[simp] theorem State.raiseSome_onTx (x : TxState) (s : State) (f : Option EventFlag) :
    (s.onTx x).raiseSome f = State.onTx x (s.raiseSome f) := by
  unfold State.raiseSome
  simp only [State.raise_onTx]
  repeat' first | rfl | (rw [apply_ite (State.onTx x)]; refine ite_congr rfl (fun _ => ?_) fun _ => ?_) | split
@[simp] theorem State.orderWritten_onTx (x : TxState) (s : State) (c : Bool) :
    (s.onTx x).orderWritten c = State.onTx x (s.orderWritten c) := by
  unfold State.orderWritten
  simp only [State.onTx_engine, State.endChain_onTx, State.fetch_onTx, State.raiseSome_onTx]
  repeat' first | rfl | (rw [apply_ite (State.onTx x)]; refine ite_congr rfl (fun _ => ?_) fun _ => ?_) | split
@[simp] theorem State.fetchFailed_onTx (x : TxState) (s : State) :
    (s.onTx x).fetchFailed = State.onTx x (s.fetchFailed) := State.endChain_onTx x (State.raise .orderFault (s.putEngine _))
@[simp] theorem State.offerSlotRead_onTx (x : TxState) (s : State) :
    (s.onTx x).offerSlotRead = State.onTx x (s.offerSlotRead) := by
  unfold State.offerSlotRead
  simp only [State.onTx_windows, State.onTx_loop]
  repeat' first | rfl | (rw [apply_ite (State.onTx x)]; refine ite_congr rfl (fun _ => ?_) fun _ => ?_) | split
@[simp] theorem State.enlist_onTx (x : TxState) (s : State) (i : Fin 16) :
    (s.onTx x).enlist i = State.onTx x (s.enlist i) := State.offerSlotRead_onTx x { s with loop := _ }
@[simp] theorem State.applyRecord_onTx (x : TxState) (s : State) (m : MeasureRec) (t : Tower) :
    (s.onTx x).applyRecord m t = State.onTx x (s.applyRecord m t) := by
  unfold State.applyRecord
  have h := State.fire_onTx x ((((s.correct m t).modTower t TowerState.settleAgain).setApplied t m.sheetTag).raise
    .measureApplied) .measure
  exact congrArg (fun y : State => (y.report wordMeasure).report (wordTower t)) h
@[simp] theorem State.gate_onTx (x : TxState) (s : State) (i : Fin 16) (m : Option MeasureRec) :
    (s.onTx x).gate i m = State.onTx x (s.gate i m) := by
  unfold State.gate
  simp only [State.applyRecord_onTx, State.dropRecord_onTx, State.gateFault_onTx]
  repeat' first | rfl | (rw [apply_ite (State.onTx x)]; refine ite_congr rfl (fun _ => ?_) fun _ => ?_) | split
@[simp] theorem State.slotRead_onTx (x : TxState) (s : State) (i : Fin 16) (m : Option MeasureRec) :
    (s.onTx x).slotRead i m = State.onTx x (s.slotRead i m) := by
  unfold State.slotRead
  have h := State.gate_onTx x (({ s with
    loop := { s.loop with readList := s.loop.readList.drop 1, reading := false } } : State).setSlot i .free) i m
  exact (congrArg (fun y : State => (y.forgetResets i).offerSlotRead) h).trans (State.offerSlotRead_onTx x (State.forgetResets i _))
@[simp] theorem State.takeTimeout_onTx (x : TxState) (s : State) (t : Tower) (sl : Slot) :
    (s.onTx x).takeTimeout t sl = State.onTx x (s.takeTimeout t sl) := by
  unfold State.takeTimeout
  simp only [State.onTx_towers, State.modTower_onTx, State.raiseIf_onTx]
  repeat' first | rfl | (rw [apply_ite (State.onTx x)]; refine ite_congr rfl (fun _ => ?_) fun _ => ?_) | split
@[simp] theorem State.imprRise_onTx (x : TxState) (s : State) :
    (s.onTx x).imprRise = State.onTx x (s.imprRise) := by
  unfold State.imprRise
  simp only [State.onTx_levels, State.fire_onTx, State.modTowers_onTx, State.setImpr_onTx]
  repeat' first
    | rfl
    | exact (congrArg (State.fire .imprOn) (State.modTowers_onTx x (s.setImpr true) _ _)).trans (State.fire_onTx x _ _)
    | (rw [apply_ite (State.onTx x)]; refine ite_congr rfl (fun _ => ?_) fun _ => ?_) | split
@[simp] theorem State.imprFall_onTx (x : TxState) (s : State) :
    (s.onTx x).imprFall = State.onTx x (s.imprFall) := by
  unfold State.imprFall
  simp only [State.onTx_levels, State.fire_onTx, State.modTowers_onTx, State.setImpr_onTx]
  repeat' first
    | rfl
    | exact (congrArg (State.fire .imprOff) (State.modTowers_onTx x (s.setImpr false) _ _)).trans (State.fire_onTx x _ _)
    | (rw [apply_ite (State.onTx x)]; refine ite_congr rfl (fun _ => ?_) fun _ => ?_) | split
@[simp] theorem State.sheet_onTx (x : TxState) (s : State) :
    (s.onTx x).sheet = State.onTx x (s.sheet) := (congrArg State.countSheet (State.modTowers_onTx x s _ _)).trans (State.countSheet_onTx x _)
@[simp] theorem State.deliver_onTx (x : TxState) (s : State) (f : LinkFrame) :
    (s.onTx x).deliver f = State.onTx x (s.deliver f) := by
  unfold State.deliver
  simp only [State.takeAnswer_onTx, State.takeHello_onTx, State.towerAt_onTx]
  repeat' first | rfl | (rw [apply_ite (State.onTx x)]; refine ite_congr rfl (fun _ => ?_) fun _ => ?_) | split
@[simp] theorem State.assemble_onTx (x : TxState) (s : State) (bs : List Byte) :
    (s.onTx x).assemble bs = State.onTx x (s.assemble bs) := by
  unfold State.assemble
  simp only [State.deliver_onTx, State.setRx_onTx]
  repeat' first
    | rfl
    | exact State.deliver_onTx x _ _
    | (rw [apply_ite (State.onTx x)]; refine ite_congr rfl (fun _ => ?_) fun _ => ?_) | split
@[simp] theorem State.lineEvent_onTx (x : TxState) (s : State) (e : LineEvent) :
    (s.onTx x).lineEvent e = State.onTx x (s.lineEvent e) := by
  unfold State.lineEvent
  simp only [State.onTx_rx, State.assemble_onTx, State.setRx_onTx]
  repeat' first
    | rfl
    | exact State.assemble_onTx x _ _
    | (rw [apply_ite (State.onTx x)]; refine ite_congr rfl (fun _ => ?_) fun _ => ?_) | split
@[simp] theorem State.receive_onTx (x : TxState) (s : State) (l : List LineEvent) :
    (s.onTx x).receive l = State.onTx x (s.receive l) := by
  induction l generalizing s with
  | nil => rfl
  | cons e l ih => exact (congrArg (State.receive l) (State.lineEvent_onTx x s e)).trans (ih (s.lineEvent e))
@[simp] theorem State.keyFaultEvent_onTx (x : TxState) (s : State) (c : KeyFaultCause) :
    (s.onTx x).keyFaultEvent c = State.onTx x (s.keyFaultEvent c) := by
  cases c with
  | stall => exact State.receive_onTx x s _
  | timeout t sl => exact State.takeTimeout_onTx x s t sl
@[simp] theorem State.failLoad_onTx (x : TxState) (s : State) :
    (s.onTx x).failLoad = State.onTx x (s.failLoad) := by
  unfold State.failLoad
  simp only [State.onTx_port, State.onTx_coverage, State.onTx_control, State.onTx_loader, State.raise_onTx]
  repeat' first | rfl | (rw [apply_ite (State.onTx x)]; refine ite_congr rfl (fun _ => ?_) fun _ => ?_) | split
@[simp] theorem State.endLoad_onTx (x : TxState) (s : State) :
    (s.onTx x).endLoad = State.onTx x (s.endLoad) := by
  unfold State.endLoad
  simp only [State.onTx_loader, State.failLoad_onTx, State.runLoad_onTx]
  repeat' first | rfl | (rw [apply_ite (State.onTx x)]; refine ite_congr rfl (fun _ => ?_) fun _ => ?_) | split
@[simp] theorem State.judgeHeader_onTx (x : TxState) (s : State) (i : List Byte) :
    (s.onTx x).judgeHeader i = State.onTx x (s.judgeHeader i) := by
  unfold State.judgeHeader
  simp only [State.onTx_loader, State.failLoad_onTx]
  repeat' first | rfl | (rw [apply_ite (State.onTx x)]; refine ite_congr rfl (fun _ => ?_) fun _ => ?_) | split
@[simp] theorem State.judgeGlobal_onTx (x : TxState) (s : State) (j : Judged) :
    (s.onTx x).judgeGlobal j = State.onTx x (s.judgeGlobal j) := by
  unfold State.judgeGlobal
  simp only [State.failLoad_onTx, State.setLoader_onTx, State.stage_onTx]
  repeat' first | rfl | (rw [apply_ite (State.onTx x)]; refine ite_congr rfl (fun _ => ?_) fun _ => ?_) | split
@[simp] theorem State.judgeWindows_onTx (x : TxState) (s : State) (j : Judged) :
    (s.onTx x).judgeWindows j = State.onTx x (s.judgeWindows j) := by
  unfold State.judgeWindows
  simp only [State.failLoad_onTx, State.raiseIf_onTx, State.setLoader_onTx, State.stage_onTx]
  repeat' first | rfl | (rw [apply_ite (State.onTx x)]; refine ite_congr rfl (fun _ => ?_) fun _ => ?_) | split
@[simp] theorem State.judgeCurves_onTx (x : TxState) (s : State) (j : Judged) :
    (s.onTx x).judgeCurves j = State.onTx x (s.judgeCurves j) := by
  unfold State.judgeCurves
  simp only [State.raise_onTx, State.raiseIf_onTx, State.stage_onTx]
  repeat' first | rfl | (rw [apply_ite (State.onTx x)]; refine ite_congr rfl (fun _ => ?_) fun _ => ?_) | split
@[simp] theorem State.judgeTower_onTx (x : TxState) (s : State) (t : Tower) (n : Fin 16) (j : Judged) :
    (s.onTx x).judgeTower t n j = State.onTx x (s.judgeTower t n j) := by
  unfold State.judgeTower
  simp only [State.onTx_loader, State.raise_onTx, State.stage_onTx]
  repeat' first | rfl | (rw [apply_ite (State.onTx x)]; refine ite_congr rfl (fun _ => ?_) fun _ => ?_) | split
@[simp] theorem State.judgePreload_onTx (x : TxState) (s : State) (j : Judged) :
    (s.onTx x).judgePreload j = State.onTx x (s.judgePreload j) := by
  unfold State.judgePreload
  simp only [State.endLoad_onTx, State.raise_onTx, State.setLoader_onTx, State.stage_onTx]
  repeat' first | rfl | (rw [apply_ite (State.onTx x)]; refine ite_congr rfl (fun _ => ?_) fun _ => ?_) | split
@[simp] theorem State.judgeKind_onTx (x : TxState) (s : State) (n : Fin 16) (j : Judged) :
    (s.onTx x).judgeKind n j = State.onTx x (s.judgeKind n j) := by
  unfold State.judgeKind
  simp only [State.judgeCurves_onTx, State.judgeGlobal_onTx, State.judgePreload_onTx, State.judgeTower_onTx,
    State.judgeWindows_onTx]
  repeat' first | rfl | (rw [apply_ite (State.onTx x)]; refine ite_congr rfl (fun _ => ?_) fun _ => ?_) | split
@[simp] theorem State.judgeSection_onTx (x : TxState) (s : State) (i : List Byte) :
    (s.onTx x).judgeSection i = State.onTx x (s.judgeSection i) := by
  unfold State.judgeSection
  simp only [State.onTx_loader, State.judgeKind_onTx, State.readOn_onTx]
  repeat' first | rfl | (rw [apply_ite (State.onTx x)]; refine ite_congr rfl (fun _ => ?_) fun _ => ?_) | split
@[simp] theorem State.headerEvent_onTx (x : TxState) (s : State) (i : List Byte) :
    (s.onTx x).headerEvent i = State.onTx x (s.headerEvent i) := by
  unfold State.headerEvent
  simp only [State.onTx_loader, State.judgeHeader_onTx, State.readOn_onTx]
  repeat' first | rfl | (rw [apply_ite (State.onTx x)]; refine ite_congr rfl (fun _ => ?_) fun _ => ?_) | split
@[simp] theorem State.preloadWritten_onTx (x : TxState) (s : State) :
    (s.onTx x).preloadWritten  = State.onTx x (s.preloadWritten ) := by
  unfold State.preloadWritten
  simp only [State.onTx_loader, State.endLoad_onTx, State.setLoader_onTx]
  repeat' first | rfl | (rw [apply_ite (State.onTx x)]; refine ite_congr rfl (fun _ => ?_) fun _ => ?_) | split
@[simp] theorem State.sectionReloaded_onTx (x : TxState) (s : State) (i : List Byte) :
    (s.onTx x).sectionReloaded i = State.onTx x (s.sectionReloaded i) := by
  unfold State.sectionReloaded
  simp only [State.onTx_loader, State.drive_onTx, State.reread_onTx, State.resetTower_onTx,
    State.setLoader_onTx]
  repeat' first | rfl | (rw [apply_ite (State.onTx x)]; refine ite_congr rfl (fun _ => ?_) fun _ => ?_) | split
@[simp] theorem State.startReload_onTx (x : TxState) (s : State) :
    (s.onTx x).startReload = State.onTx x (s.startReload) := rfl
@[simp] theorem State.startWord_onTx (x : TxState) (s : State) (d : Word) :
    (s.onTx x).startWord d = Prod.map id (State.onTx x) (s.startWord d) := by
  unfold State.startWord
  simp only [State.start_onTx]
  repeat' first
    | rfl
    | (rw [apply_ite (Prod.map id (State.onTx x))]; refine ite_congr rfl (fun _ => ?_) fun _ => ?_) | split
@[simp] theorem State.stopWord_onTx (x : TxState) (s : State) (d : Word) :
    (s.onTx x).stopWord d = Prod.map id (State.onTx x) (s.stopWord d) := by
  unfold State.stopWord
  simp only [State.stop_onTx, State.stopAll_onTx]
  repeat' first
    | rfl
    | (rw [apply_ite (Prod.map id (State.onTx x))]; refine ite_congr rfl (fun _ => ?_) fun _ => ?_) | split
@[simp] theorem State.bankWord_onTx (x : TxState) (s : State) (d : Word) :
    (s.onTx x).bankWord d = Prod.map id (State.onTx x) (s.bankWord d) := by
  unfold State.bankWord
  simp only [State.bankCommand_onTx]
  repeat' first
    | rfl
    | (rw [apply_ite (Prod.map id (State.onTx x))]; refine ite_congr rfl (fun _ => ?_) fun _ => ?_) | split
@[simp] theorem State.bindWord_onTx (x : TxState) (s : State) (k : Source) (d : Word) :
    (s.onTx x).bindWord k d = Prod.map id (State.onTx x) (s.bindWord k d) := by
  unfold State.bindWord
  simp only [State.armBinding_onTx, State.disarmBinding_onTx]
  repeat' first
    | rfl
    | (rw [apply_ite (Prod.map id (State.onTx x))]; refine ite_congr rfl (fun _ => ?_) fun _ => ?_) | split
@[simp] theorem State.reloadWord_onTx (x : TxState) (s : State) (d : Word) :
    (s.onTx x).reloadWord d = Prod.map id (State.onTx x) (s.reloadWord d) := by
  unfold State.reloadWord
  simp only [State.startReload_onTx]
  repeat' first
    | rfl
    | (rw [apply_ite (Prod.map id (State.onTx x))]; refine ite_congr rfl (fun _ => ?_) fun _ => ?_) | split
@[simp] theorem State.resetCommand_onTx (x : TxState) (s : State) (t : Tower) :
    (s.onTx x).resetCommand t = Prod.map id (State.onTx x) (s.resetCommand t) := by
  unfold State.resetCommand
  simp only [State.onTx_loader, State.drive_onTx, State.setLoader_onTx]
  repeat' first
    | rfl
    | (rw [apply_ite (Prod.map id (State.onTx x))]; refine ite_congr rfl (fun _ => ?_) fun _ => ?_) | split
@[simp] theorem State.towerCommand_onTx (x : TxState) (s : State) (t : Tower) (f : TowerState → Result × TowerState) :
    (s.onTx x).towerCommand t f = Prod.map id (State.onTx x) (s.towerCommand t f) := rfl
@[simp] theorem State.towerWord_onTx (x : TxState) (s : State) (t : Tower) (d : Word) :
    (s.onTx x).towerWord t d = Prod.map id (State.onTx x) (s.towerWord t d) := by
  unfold State.towerWord
  simp only [State.onTx_levels, State.resetCommand_onTx, State.towerCommand_onTx]
  repeat' first
    | rfl
    | (rw [apply_ite (Prod.map id (State.onTx x))]; refine ite_congr rfl (fun _ => ?_) fun _ => ?_) | split
@[simp] theorem State.command_onTx (x : TxState) (s : State) (v : CtlWord) (d : Word) :
    (s.onTx x).command v d = Prod.map id (State.onTx x) (s.command v d) := by
  unfold State.command
  simp only [State.onTx_control, State.bankWord_onTx, State.bindWord_onTx, State.clearCapture_onTx,
    State.clearMeasure_onTx, State.reloadWord_onTx, State.startWord_onTx, State.stopWord_onTx,
    State.towerWord_onTx]
  repeat' first
    | rfl
    | (rw [apply_ite (Prod.map id (State.onTx x))]; refine ite_congr rfl (fun _ => ?_) fun _ => ?_) | split
@[simp] theorem State.takeCommand_onTx (x : TxState) (s : State) (a : Access) (v : CtlWord) :
    (s.onTx x).takeCommand a v = State.onTx x (s.takeCommand a v) := by
  unfold State.takeCommand
  simp only [State.command_onTx, Prod.map_fst, Prod.map_snd, id]
  rfl
@[simp] theorem State.takeFold_onTx (x : TxState) (s : State) (a : Access) :
    (s.onTx x).takeFold a = State.onTx x (s.takeFold a) := by
  unfold State.takeFold
  simp only [State.claim_onTx, State.foldOf_onTx, State.refuseFold_onTx, State.setLatch_onTx]
  repeat' first | rfl | (rw [apply_ite (State.onTx x)]; refine ite_congr rfl (fun _ => ?_) fun _ => ?_) | split
@[simp] theorem State.takeWaiter_onTx (x : TxState) (s : State) (y : BusAccess) :
    (s.onTx x).takeWaiter y = State.onTx x (s.takeWaiter y) := by
  unfold State.takeWaiter
  simp only [State.refuseFold_onTx, State.takeFold_onTx]
  repeat' first | rfl | (rw [apply_ite (State.onTx x)]; refine ite_congr rfl (fun _ => ?_) fun _ => ?_) | split
@[simp] theorem State.takeWaiting_onTx (x : TxState) (s : State) (l : List MasterClass) :
    State.takeWaiting l (s.onTx x) = State.onTx x (State.takeWaiting l s) := by
  induction l generalizing s with
  | nil => rfl
  | cons c l ih =>
    unfold State.takeWaiting
    simp only [State.onTx_bus, State.takeWaiter_onTx, State.onTx_coverage, ih]
    split
    · rfl
    · rw [apply_ite (State.onTx x)]
      rfl
@[simp] theorem State.emptyLatch_onTx (x : TxState) (s : State) :
    (s.onTx x).emptyLatch = State.onTx x (s.emptyLatch) := State.takeWaiting_onTx x (s.setLatch none) _
@[simp] theorem State.coverageWrite_onTx (x : TxState) (s : State) (a : Access) :
    (s.onTx x).coverageWrite a = State.onTx x (s.coverageWrite a) := by
  unfold State.coverageWrite
  simp only [State.onTx_coverage, State.setStage_onTx, State.setWaiting_onTx, State.takeFold_onTx]
  repeat' first | rfl | (rw [apply_ite (State.onTx x)]; refine ite_congr rfl (fun _ => ?_) fun _ => ?_) | split
@[simp] theorem State.measureWrite_onTx (x : TxState) (s : State) (b : Nat) (a : Access) :
    (s.onTx x).measureWrite b a = State.onTx x (s.measureWrite b a) := by
  unfold State.measureWrite
  simp only [State.onTx_loop, State.claim_onTx, State.dropRecord_onTx, State.refuse_onTx, State.setSlot_onTx]
  repeat' first | rfl | (rw [apply_ite (State.onTx x)]; refine ite_congr rfl (fun _ => ?_) fun _ => ?_) | split
@[simp] theorem State.writeLive_onTx (x : TxState) (s : State) (v : Window) (a : Access) :
    (s.onTx x).writeLive v a = State.onTx x (s.writeLive v a) := by
  unfold State.writeLive
  simp only [State.misfit_onTx, State.modTower_onTx, State.respond_onTx, State.trimTarget_onTx]
  repeat' first | rfl | (rw [apply_ite (State.onTx x)]; refine ite_congr rfl (fun _ => ?_) fun _ => ?_) | split
@[simp] theorem State.handOver_onTx (x : TxState) (s : State) (v : Window) (a : Access) :
    (s.onTx x).handOver v a = State.onTx x (s.handOver v a) := by
  unfold State.handOver
  simp only [State.claim_onTx, State.coverageWrite_onTx, State.measureWrite_onTx, State.takeCommand_onTx,
    State.writeLive_onTx]
  repeat' first | rfl | (rw [apply_ite (State.onTx x)]; refine ite_congr rfl (fun _ => ?_) fun _ => ?_) | split
@[simp] theorem State.decideAccess_onTx (x : TxState) (s : State) (v : Window) (a : Access) :
    (s.onTx x).decideAccess v a = State.onTx x (s.decideAccess v a) := by
  unfold State.decideAccess
  simp only [State.claim_onTx, State.handOver_onTx, State.misfit_onTx, State.raise_onTx, State.readLive_onTx,
    State.refuse_onTx]
  repeat' first | rfl | (rw [apply_ite (State.onTx x)]; refine ite_congr rfl (fun _ => ?_) fun _ => ?_) | split
@[simp] theorem State.arrive_onTx (x : TxState) (s : State) (a : Access) :
    (s.onTx x).arrive a = State.onTx x (s.arrive a) := by
  unfold State.arrive
  simp only [State.onTx_bus, State.claim_onTx, State.decideAccess_onTx, State.windowOf_onTx]
  repeat' first | rfl | (rw [apply_ite (State.onTx x)]; refine ite_congr rfl (fun _ => ?_) fun _ => ?_) | split
@[simp] theorem State.withdrawMirror_onTx (x : TxState) (s : State) (v : CtlWord) :
    (s.onTx x).withdrawMirror v = State.onTx x (s.withdrawMirror v) := by
  unfold State.withdrawMirror
  simp only [State.onTx_port, State.onTx_control]
  repeat' first | rfl | (rw [apply_ite (State.onTx x)]; refine ite_congr rfl (fun _ => ?_) fun _ => ?_) | split
@[simp] theorem State.supersede_onTx (x : TxState) (s : State) (p : Purpose) :
    (s.onTx x).supersede p = State.onTx x (s.supersede p) := by
  unfold State.supersede
  simp only [State.onTx_control]
  repeat' first
    | rfl
    | exact State.withdrawMirror_onTx x { s with control := s.control.unmirror _ } _
    | (rw [apply_ite (State.onTx x)]; refine ite_congr rfl (fun _ => ?_) fun _ => ?_) | split
@[simp] theorem State.watchPass_onTx (x : TxState) (s : State) (p : Purpose) (v : PortWord) :
    (s.onTx x).watchPass p v = State.onTx x (s.watchPass p v) := by
  unfold State.watchPass
  simp only [State.watch_onTx]
  repeat' first | rfl | (rw [apply_ite (State.onTx x)]; refine ite_congr rfl (fun _ => ?_) fun _ => ?_) | split
@[simp] theorem State.grantPass_onTx (x : TxState) (s : State) (c : MasterClass) (a : Access) (p : Purpose) :
    (s.onTx x).grantPass c a p = State.onTx x (s.grantPass c a p) := by
  unfold State.grantPass
  exact (congrArg (State.watchPass p (s.passWord a p)) (State.supersede_onTx x { s with bus := _, port := _ } p)).trans
    (State.watchPass_onTx x _ _ _)
@[simp] theorem State.watchAll_onTx (x : TxState) (s : State) (r : IReq) (ws : List PortWord) :
    (s.onTx x).watchAll r ws = State.onTx x (s.watchAll r ws) := by
  unfold State.watchAll
  split
  · induction ws generalizing s with
    | nil => rfl
    | cons v ws ih => exact (congrArg (ws.foldl State.watch) (State.watch_onTx x s v)).trans (ih (s.watch v))
  · rfl
@[simp] theorem State.grantHead_onTx (x : TxState) (s : State) (r : IReq) (l : List IReq) :
    (s.onTx x).grantHead r l = State.onTx x (s.grantHead r l) := State.watchAll_onTx x { s with port := _, control := _ } r _
@[simp] theorem State.grantClass_onTx (x : TxState) (s : State) (c : MasterClass) :
    (s.onTx x).grantClass c = State.onTx x (s.grantClass c) := by
  unfold State.grantClass
  simp only [State.grantPass_onTx, State.waitingAccess_onTx]
  repeat' first | rfl | (rw [apply_ite (State.onTx x)]; refine ite_congr rfl (fun _ => ?_) fun _ => ?_) | split
@[simp] theorem State.grant_onTx (x : TxState) (s : State) :
    (s.onTx x).grant = State.onTx x (s.grant) := by
  unfold State.grant
  simp only [State.onTx_port, State.grantClass_onTx, State.grantHead_onTx, State.nextPass_onTx]
  repeat' first | rfl | (rw [apply_ite (State.onTx x)]; refine ite_congr rfl (fun _ => ?_) fun _ => ?_) | split
@[simp] theorem State.foldReadDone_onTx (x : TxState) (s : State) (a : Access) (ok : Bool) (d : Word) :
    (s.onTx x).foldReadDone a ok d = State.onTx x (s.foldReadDone a ok d) := by
  unfold State.foldReadDone
  simp only [State.onTx_coverage, State.claim_onTx, State.emptyLatch_onTx, State.raise_onTx,
    State.respond_onTx, State.setLatch_onTx]
  repeat' first
    | rfl
    | exact State.emptyLatch_onTx x _
    | (rw [apply_ite (State.onTx x)]; refine ite_congr rfl (fun _ => ?_) fun _ => ?_) | split
@[simp] theorem State.foldWriteDone_onTx (x : TxState) (s : State) (a : Access) (ok : Bool) :
    (s.onTx x).foldWriteDone a ok = State.onTx x (s.foldWriteDone a ok) := by
  unfold State.foldWriteDone
  simp only [State.onTx_coverage]
  repeat' first
    | rfl
    | exact State.emptyLatch_onTx x (State.respond a.cls .ok { s with coverage := _ })
    | exact State.emptyLatch_onTx x (State.respond a.cls .busError (State.raise .memoryFault { s with coverage := _ }))
    | (rw [apply_ite (State.onTx x)]; refine ite_congr rfl (fun _ => ?_) fun _ => ?_) | split
@[simp] theorem State.commitDone_onTx (x : TxState) (s : State) (a : Access) (i : Fin 16) (ok : Bool) :
    (s.onTx x).commitDone a i ok = State.onTx x (s.commitDone a i ok) := by
  unfold State.commitDone
  simp only [State.enlist_onTx, State.respond_onTx, State.setSlot_onTx]
  repeat' first | rfl | (rw [apply_ite (State.onTx x)]; refine ite_congr rfl (fun _ => ?_) fun _ => ?_) | split
@[simp] theorem State.passDone_onTx (x : TxState) (s : State) (a : Access) (p : Purpose) (ok : Bool) (d : Word) :
    (s.onTx x).passDone a p ok d = State.onTx x (s.passDone a p ok d) := by
  unfold State.passDone
  simp only [State.answerDone_onTx, State.commitDone_onTx, State.foldReadDone_onTx, State.foldWriteDone_onTx,
    State.respond_onTx]
  repeat' first | rfl | (rw [apply_ite (State.onTx x)]; refine ite_congr rfl (fun _ => ?_) fun _ => ?_) | split
@[simp] theorem State.answerPass_onTx (x : TxState) (s : State) (y : MemAnswer) :
    (s.onTx x).answerPass y = State.onTx x (s.answerPass y) := by
  unfold State.answerPass
  simp only [State.onTx_mem, State.onTx_bus, State.onTx_port, State.memAnswered_onTx, State.passDone_onTx]
  repeat' first | rfl | (rw [apply_ite (State.onTx x)]; refine ite_congr rfl (fun _ => ?_) fun _ => ?_) | split
/-- A completion changes the machine the same whatever the transmitter does when what its unit does with it does. -/
theorem State.complete_onTx (x : TxState) (s : State) (due : IReq → Bool) (y : List MemAnswer)
    {k : IReq → List PortWord → State → State} (h : ∀ r ws t, k r ws (State.onTx x t) = State.onTx x (k r ws t)) :
    (s.onTx x).complete due y k = State.onTx x (s.complete due y k) := by
  unfold State.complete
  simp only [State.onTx_port, State.completed_onTx, h]
  (repeat' split) <;> rfl
@[simp] theorem State.offerClear_onTx (x : TxState) (s : State) (c : Cursor) :
    (s.onTx x).offerClear c = State.onTx x (s.offerClear c) := by
  unfold State.offerClear
  simp only [State.onTx_coverage]
  repeat' first | rfl | (rw [apply_ite (State.onTx x)]; refine ite_congr rfl (fun _ => ?_) fun _ => ?_) | split
@[simp] theorem State.firstClear_onTx (x : TxState) (s : State) :
    (s.onTx x).firstClear = State.onTx x (s.firstClear) := by
  unfold State.firstClear
  simp only [State.onTx_coverage, State.offerClear_onTx]
  repeat' first | rfl | (rw [apply_ite (State.onTx x)]; refine ite_congr rfl (fun _ => ?_) fun _ => ?_) | split
@[simp] theorem State.clearWritten_onTx (x : TxState) (s : State) (ok : Bool) :
    (s.onTx x).clearWritten ok = State.onTx x (s.clearWritten ok) := by
  unfold State.clearWritten
  simp only [State.onTx_coverage, State.offerClear_onTx]
  repeat' first | rfl | (rw [apply_ite (State.onTx x)]; refine ite_congr rfl (fun _ => ?_) fun _ => ?_) | split
/-- An order executes the same whatever the transmitter does when its verb does. -/
theorem State.execute_onTx (x : TxState) (s : State) {run : OrderRec → State → Except FaultCode State}
    (h : ∀ r t, run r (State.onTx x t) = (run r t).map (State.onTx x)) (l : List Word) :
    (s.onTx x).execute run l = State.onTx x (s.execute run l) := by
  unfold State.execute
  simp only [State.onTx_engine, h, State.writeBack_onTx]
  split
  · rfl
  · cases run (orderRec l) s <;> rfl
theorem State.orderRow_onTx (x : TxState) (s : State) (row : Nat → Bool)
    {run : OrderRec → State → Except FaultCode State}
    (h : ∀ r t, run r (State.onTx x t) = (run r t).map (State.onTx x)) :
    (s.onTx x).orderRow row run = State.onTx x (s.orderRow row run) := by
  unfold State.orderRow
  simp only [State.onTx_port, State.onTx_mem, State.onTx_engine, State.completed_onTx, State.execute_onTx x _ h]
  (repeat' split) <;> rfl
@[simp] theorem State.orderCancelled_onTx (x : TxState) (s : State) :
    (s.onTx x).orderCancelled = State.onTx x (s.orderCancelled) := by
  unfold State.orderCancelled
  simp only [State.onTx_mem, State.onTx_port, State.onTx_engine, State.completed_onTx, State.writeBack_onTx]
  repeat' first | rfl | (rw [apply_ite (State.onTx x)]; refine ite_congr rfl (fun _ => ?_) fun _ => ?_) | split
@[simp] theorem State.slotDelivered_onTx (x : TxState) (s : State) (e : BitVec 31) (m : List Host.Cell) (r : IReq) (ws : List PortWord) :
    (s.onTx x).slotDelivered e m r ws = State.onTx x (s.slotDelivered e m r ws) := by
  unfold State.slotDelivered
  simp only [State.slotRead_onTx]
  repeat' first | rfl | (rw [apply_ite (State.onTx x)]; refine ite_congr rfl (fun _ => ?_) fun _ => ?_) | split
@[simp] theorem State.mirrorWritten_onTx (x : TxState) (s : State) (ok : Bool) (r : IReq) :
    (s.onTx x).mirrorWritten ok r = State.onTx x (s.mirrorWritten ok r) := by
  unfold State.mirrorWritten
  simp only [State.freeChannel_onTx]
  repeat' first | rfl | (rw [apply_ite (State.onTx x)]; refine ite_congr rfl (fun _ => ?_) fun _ => ?_) | split
@[simp] theorem State.offerMirror_onTx (x : TxState) (s : State) :
    (s.onTx x).offerMirror = State.onTx x (s.offerMirror) := by
  unfold State.offerMirror
  simp only [State.onTx_windows, State.onTx_control]
  repeat' first | rfl | (rw [apply_ite (State.onTx x)]; refine ite_congr rfl (fun _ => ?_) fun _ => ?_) | split
@[simp] theorem State.offerChannel_onTx (x : TxState) (s : State) :
    (s.onTx x).offerChannel = State.onTx x (s.offerChannel) := by
  unfold State.offerChannel
  simp only [State.onTx_control, State.nextPreload_onTx, State.offerMirror_onTx, State.offerOn_onTx]
  repeat' first | rfl | (rw [apply_ite (State.onTx x)]; refine ite_congr rfl (fun _ => ?_) fun _ => ?_) | split

/-! ### Commands -/

/-- Every command but a pin reset and the ends of sending and of the gap is an event that does the same whatever the
transmitter does, followed by its search and by the offer (R88, R161). -/
theorem exec_onTx (c : Instr) (h0 : ∀ l, c ≠ .pinReset l) (h1 : c ≠ .sendingEnd) (h2 : c ≠ .gapEnd) :
    ∃ f : State → State, (∀ x s, f (State.onTx x s) = State.onTx x (f s)) ∧ ∀ s, exec c s = .next (State.settle s (f s)) := by
  cases c
  case pinReset l => exact absurd rfl (h0 l)
  case sendingEnd => exact absurd rfl h1
  case gapEnd => exact absurd rfl h2
  case sheet | rampComplete | settleEnd | sheetFiring => exact ⟨State.sheet, State.sheet_onTx, fun _ => rfl⟩
  case imprRise => exact ⟨State.imprRise, State.imprRise_onTx, fun _ => rfl⟩
  case imprFall => exact ⟨State.imprFall, State.imprFall_onTx, fun _ => rfl⟩
  case jobchg => exact ⟨State.fire .jobchg, fun x s => State.fire_onTx x s _, fun _ => rfl⟩
  case keyFault k => exact ⟨State.keyFaultEvent k, fun x s => State.keyFaultEvent_onTx x s k, fun _ => rfl⟩
  case mpGrant => exact ⟨State.grant, State.grant_onTx, fun _ => rfl⟩
  case clearFirstOffer => exact ⟨State.firstClear, State.firstClear_onTx, fun _ => rfl⟩
  case orderCancelled => exact ⟨State.orderCancelled, State.orderCancelled_onTx, fun _ => rfl⟩
  case headerRead i => exact ⟨State.headerEvent i, fun x s => State.headerEvent_onTx x s i, fun _ => rfl⟩
  case sectionRead i => exact ⟨State.judgeSection i, fun x s => State.judgeSection_onTx x s i, fun _ => rfl⟩
  case sectionReloadComplete i => exact ⟨State.sectionReloaded i, fun x s => State.sectionReloaded_onTx x s i, fun _ => rfl⟩
  case slotReadComplete e =>
    exact ⟨fun s => State.complete IReq.isSlotRead (readAnswers e) (State.slotDelivered e s.mem) s,
      fun x s => by
        dsimp only
        rw [State.onTx_mem]
        exact State.complete_onTx x s _ _ fun r ws t => State.slotDelivered_onTx x t e s.mem r ws, fun _ => rfl⟩
  case clearWriteComplete a =>
    exact ⟨_, fun x s => State.complete_onTx x s _ _ fun _ _ t => State.clearWritten_onTx x t (answeredOk a),
      fun _ => rfl⟩
  case orderWriteComplete a b =>
    exact ⟨_, fun x s => State.complete_onTx x s _ _ fun _ _ t =>
      State.orderWritten_onTx x t (!(answeredOk a && answeredOk b)), fun _ => rfl⟩
  case orderFetchError =>
    exact ⟨_, fun x s => State.complete_onTx x s _ _ fun _ _ t => State.fetchFailed_onTx x t, fun _ => rfl⟩
  case mirrorWriteComplete a =>
    exact ⟨_, fun x s => State.complete_onTx x s _ _ fun r _ t => State.mirrorWritten_onTx x t (answeredOk a) r,
      fun _ => rfl⟩
  case noticeWriteComplete a =>
    exact ⟨_, fun x s => State.complete_onTx x s _ _ fun _ _ t => State.freeChannel_onTx x t, fun _ => rfl⟩
  case preloadWriteComplete a =>
    exact ⟨_, fun x s => State.complete_onTx x s _ _ fun _ _ t => State.preloadWritten_onTx x t.freeChannel,
      fun _ => rfl⟩
  case preset => exact ⟨_, fun x s => State.orderRow_onTx x s _ fun r t => State.runPreset_onTx x t r, fun _ => rfl⟩
  case trimSet | trimAdd | corrClear | hold | release =>
    exact ⟨_, fun x s => State.orderRow_onTx x s _ fun r t => State.keyRange_onTx x t r _, fun _ => rfl⟩
  case clearBank | lockBank | unlockBank =>
    exact ⟨_, fun x s => State.orderRow_onTx x s _ fun r t => State.orderNamedBank_onTx x t _ r, fun _ => rfl⟩
  case swapBanks => exact ⟨_, fun x s => State.orderRow_onTx x s _ fun _ t => State.orderBank_onTx x t _, fun _ => rfl⟩
  case orderLoopOn | orderLoopOff =>
    exact ⟨_, fun x s => State.orderRow_onTx x s _ fun r t => State.orderLoop_onTx x t _ r, fun _ => rfl⟩
  case nop => exact ⟨_, fun x s => State.orderRow_onTx x s _ fun _ _ => rfl, fun _ => rfl⟩
  case verbFault => exact ⟨_, fun x s => State.orderRow_onTx x s _ fun _ _ => rfl, fun _ => rfl⟩
  case passThroughResponse a | foldReadResponse a | foldWriteResponse a | commitResponse a | answerWriteResponse a =>
    exact ⟨State.answerPass a, fun x s => State.answerPass_onTx x s a, fun _ => rfl⟩
  case done | stall | report | hello | frameDiscarded =>
    exact ⟨State.receive _, fun x s => State.receive_onTx x s _, fun _ => rfl⟩
  case moveTimeout t sl | towerDown t sl =>
    exact ⟨State.takeTimeout t sl, fun x s => State.takeTimeout_onTx x s t sl, fun _ => rfl⟩
  all_goals exact ⟨State.arrive _, fun x s => State.arrive_onTx x s _, fun _ => rfl⟩

end Sys2Proof.Machine
end

