-- ==== Sys2Proof/Laws/Towerwise.lean ====
section
/-! SUPPORT. What every tower keeps when each operation on one tower keeps it: the lift of a property of one tower
to the commands, and what the loader's events leave of loader and towers. -/

namespace Sys2Proof.Machine

/-- A property of a tower that each operation on one tower keeps. -/
structure TowerClosed (J : Tower → TowerState → Prop) : Prop where
  congr : ∀ u tw tv, J u tw → tv.queue = tw.queue → tv.flight = tw.flight → tv.recs = tw.recs → tv.cfg = tw.cfg → tv.settings = tw.settings → J u tv
  dispatch : ∀ u tw n sl, J u tw → tw.dispatchable = some sl → J u (tw.dispatch n sl)
  valued : ∀ u tw f l, ValueChange f → J u tw → J u (tw.revalueEvent f l)
  wake : ∀ u tw b, J u tw → J u (tw.wake b)
  park : ∀ u tw, J u tw → J u tw.park
  clearF : ∀ u tw, J u tw → J u tw.clearFaults
  hello : ∀ u tw, J u tw → J u tw.hello
  ans : ∀ u tw k key tag p, J u tw → J u (tw.takeAnswer k key tag p)
  tmo : ∀ u tw sl, J u tw → (tw.recs[sl]).timer.isSome = true → J u (tw.timeout sl)
  corr : ∀ (u : Tower) (s : State) (m : MeasureRec), J u s.towers[u] → J u (s.towers[u].revalueEvent (fun sl => setCorrection (s.correctionOf m u sl)) TowerState.slots)

/-- The property holds of every tower. -/
def EveryTower (J : Tower → TowerState → Prop) (s : State) : Prop := ∀ u : Tower, J u s.towers[u]

variable {J : Tower → TowerState → Prop}

theorem everyTower_put {s : State} (h : EveryTower J s) (t : Tower) {tw} (ht : J t tw) : EveryTower J (s.putTower
    t tw) := by
  intro u; rw [State.putTower_get]; split
  · rename_i e; subst e; exact ht
  · exact h u
theorem everyTower_mod {s : State} (h : EveryTower J s) (t : Tower) {f} (hf : J t s.towers[t] → J t (f
    s.towers[t])) : EveryTower J (s.modTower t f) :=
  everyTower_put h t (hf (h t))
theorem everyTower_mods {f} (hf : ∀ u tw, J u tw → J u (f tw)) (l : List Tower) {s : State} (h : EveryTower J s)
    : EveryTower J (s.modTowers f l) := by
  unfold State.modTowers
  induction l generalizing s with
  | nil => exact h
  | cons a l ih => exact ih (everyTower_mod h a (hf _ _))
theorem everyTower_eq {s t : State} (h : EveryTower J s) (e : t.towers = s.towers) : EveryTower J t := by
  intro u; rw [e]; exact h u

theorem everyTower_serve (C : TowerClosed J) {s0 s : State} (h : EveryTower J s) : EveryTower J (State.settle s0
    s) := by
  rcases State.settle_served s0 s with e | ⟨t, tv, h1, h2⟩
  · exact everyTower_eq h e
  · intro u; rw [h2]; split
    · rename_i e; subst e
      rcases h1 with e | e | ⟨sl, hd, e⟩
      · rw [e]; exact C.congr _ _ _ (h u) rfl rfl rfl rfl rfl
      · rw [e]; exact C.congr _ _ _ (h u) rfl rfl rfl rfl rfl
      · rw [e]; exact C.dispatch _ _ _ _ (h u) hd
    · exact h u

theorem everyTower_endGap (C : TowerClosed J) {s : State} (h : EveryTower J s) : EveryTower J s.endGap := by
  unfold State.endGap; split
  · have : ∀ x : State, EveryTower J x → EveryTower J x.search := by
      intro x hx; unfold State.search; split
      · exact hx
      · rename_i t _
        rcases State.serve_served x t with e | ⟨tv, h1, h2⟩
        · exact everyTower_eq hx e
        · intro u; rw [h2]; split
          · rename_i e; subst e
            rcases h1 with e | e | ⟨sl, hd, e⟩
            · rw [e]; exact C.congr _ _ _ (hx u) rfl rfl rfl rfl rfl
            · rw [e]; exact C.congr _ _ _ (hx u) rfl rfl rfl rfl rfl
            · rw [e]; exact C.dispatch _ _ _ _ (hx u) hd
          · exact hx u
    exact this _ (everyTower_eq h rfl)
  · exact h

theorem everyTower_sheet (C : TowerClosed J) {s : State} (h : EveryTower J s) : EveryTower J s.sheet := by
  unfold State.sheet
  refine everyTower_eq (s := s.modTowers TowerState.sheet allTowers) (everyTower_mods (fun u tw h => ?_) _ h) (by simp)
  unfold TowerState.sheet
  have h1 : J u tw.rampSheet := by
    unfold TowerState.rampSheet; split
    · exact C.valued _ _ _ _ valueChange_step h
    · exact h
  unfold TowerState.settleSheet; split
  · split <;> exact C.congr _ _ _ h1 rfl rfl rfl rfl rfl
  · exact h1

theorem everyTower_impr (C : TowerClosed J) {s : State} (h : EveryTower J s) : EveryTower J s.imprRise ∧
    EveryTower J s.imprFall := by
  constructor
  · unfold State.imprRise; split
    · exact h
    · refine everyTower_eq (s := (s.setImpr true).modTowers TowerState.rise allTowers) (everyTower_mods (fun u tw h => ?_) _ (everyTower_eq h (by simp))) (by simp)
      unfold TowerState.rise; split
      · exact C.congr _ _ _ h rfl rfl rfl rfl rfl
      · exact h
  · unfold State.imprFall; split
    · refine everyTower_eq (s := (s.setImpr false).modTowers TowerState.fall allTowers) (everyTower_mods (fun u tw h => ?_) _ (everyTower_eq h (by simp))) (by simp)
      unfold TowerState.fall; split
      · exact C.congr _ _ _ h rfl rfl rfl rfl rfl
      · exact h
    · exact h

theorem everyTower_timeout (C : TowerClosed J) {s : State} (h : EveryTower J s) (t sl) : EveryTower J
    (s.takeTimeout t sl) := by
  unfold State.takeTimeout; split
  · rename_i ht
    refine everyTower_eq (s := s.modTower t (TowerState.timeout sl)) (everyTower_mod h t (fun k => C.tmo _ _ _ k ht)) (by simp)
  · exact h

theorem everyTower_deliver (C : TowerClosed J) {s : State} (h : EveryTower J s) (f) : EveryTower J (s.deliver f)
    := by
  have ha : ∀ t k, EveryTower J (s.takeAnswer t k f.key f.tag f.position) := by
    intro t k
    unfold State.takeAnswer
    exact everyTower_eq (everyTower_put h t (C.ans _ _ k f.key f.tag f.position (h t))) (by simp)
  unfold State.deliver; split
  · exact h
  · split
    · exact ha _ _
    · split
      · exact ha _ _
      · split
        · exact ha _ _
        · split
          · unfold State.takeHello
            rename_i t _ _ _ _ _
            exact everyTower_eq (everyTower_mod h t (C.hello _ _)) (by simp)
          · exact h

theorem everyTower_receive (C : TowerClosed J) (l) {s : State} (h : EveryTower J s) : EveryTower J (s.receive l)
    := by
  unfold State.receive
  induction l generalizing s with
  | nil => exact h
  | cons e l ih =>
    refine ih ?_
    cases e with
    | rest => exact everyTower_eq h (by simp [State.lineEvent, State.setRx])
    | byte v g =>
      show EveryTower J (match s.link.rx with
        | .awaitRest => s
        | .assembling bs =>
          if g = false then s.setRx .awaitRest
          else if bs = [] ∧ v ≠ Config.startMark then s.setRx .awaitRest
          else s.assemble (bs ++ [v]))
      split
      · exact h
      · split
        · exact everyTower_eq h (by simp)
        · split
          · exact everyTower_eq h (by simp)
          · unfold State.assemble; split
            · exact everyTower_eq h (by simp)
            · split
              · exact everyTower_eq h (by simp)
              · exact everyTower_deliver C (everyTower_eq h (by simp)) _

theorem everyTower_gate (C : TowerClosed J) {s : State} (h : EveryTower J s) (i m) : EveryTower J (s.gate i m) := by
  unfold State.gate; split
  · exact everyTower_eq h (by simp)
  · split
    · exact everyTower_eq h (by simp)
    · split
      · exact everyTower_eq h (by simp)
      · split
        · exact everyTower_eq h (by simp)
        · rename_i m _ t _ _ _ _
          unfold State.applyRecord
          have h1 : EveryTower J (s.correct m t) := everyTower_mod h t (fun k => C.corr _ _ _ k)
          have h2 : EveryTower J ((s.correct m t).modTower t TowerState.settleAgain) := everyTower_mod h1 t (fun k => C.congr _ _ _ k rfl rfl rfl rfl rfl)
          exact everyTower_eq h2 (by simp)

theorem everyTower_slotRead (C : TowerClosed J) {s : State} (h : EveryTower J s) (i m) : EveryTower J (s.slotRead
    i m) := by
  have h1 : EveryTower J (({ s with loop := { s.loop with readList := s.loop.readList.drop 1, reading := false } } : State).setSlot i .free) := everyTower_eq h (by simp)
  exact everyTower_eq (everyTower_gate C h1 i m) (by unfold State.slotRead; simp)

theorem everyTower_stopAll (C : TowerClosed J) {s : State} (h : EveryTower J s) : EveryTower J s.stopAll.2 := by
  unfold State.stopAll
  exact everyTower_mods (fun u tw k => C.valued _ _ _ _ valueChange_freeze k) _ (everyTower_eq h (by simp))

theorem everyTower_tower (C : TowerClosed J) {s : State} (h : EveryTower J s) (t d) : EveryTower J (s.towerWord t
    d).2 := by
  unfold State.towerWord
  have key : ∀ f : TowerState → Result × TowerState, (∀ tw, J t tw → J t (f tw).2) → EveryTower J (s.towerCommand t f).2 := by
    intro f hf; exact everyTower_mod h t (hf _)
  have hr : ∀ f : TowerState → Result × TowerState, (∀ tw, J t tw → J t (f tw).2) → ∀ tw, J t tw → J t (TowerState.routed f tw).2 := by
    intro f hf tw k; unfold TowerState.routed; split
    · exact k
    · exact hf _ k
  split
  · refine key _ (fun tw k => ?_); unfold TowerState.takeWake; split
    · exact k
    · exact C.wake _ _ _ k
  · split
    · refine key _ (fun tw k => ?_); unfold TowerState.takePark; split
      · exact k
      · exact C.park _ _ k
    · split
      · unfold State.resetCommand; split
        · exact h
        · exact everyTower_eq h (by simp)
      · split
        · refine key _ (hr _ (fun tw k => ?_)); unfold TowerState.loopOn; split
          · exact k
          · split
            · exact C.congr _ _ _ k rfl rfl rfl rfl rfl
            · exact k
        · split
          · exact key _ (hr _ (fun tw k => C.congr _ _ _ k rfl rfl rfl rfl rfl))
          · split
            · exact key _ (hr _ (fun tw k => C.clearF _ _ k))
            · exact h

theorem start_towers (s : State) (i) : (s.start i).2.towers = s.towers := by
  unfold State.start; repeat' split
  all_goals simp
theorem stop_towers (s : State) (i) : (s.stop i).2.towers = s.towers := by
  unfold State.stop; repeat' split
  all_goals simp
theorem arm_towers (s : State) (k i d) : (s.armBinding k i d).2.towers = s.towers := by
  unfold State.armBinding; repeat' split
  all_goals simp

theorem everyTower_command (C : TowerClosed J) (R : ∀ u, J u TowerState.reset) {s : State} (h : EveryTower J s)
    (w d) : EveryTower J (s.command w d).2 := by
  unfold State.command; split
  · exact everyTower_tower C h _ _
  · unfold State.bindWord; split
    · exact everyTower_eq h (arm_towers _ _ _ _)
    · split
      · exact everyTower_eq h (by simp [State.disarmBinding])
      · exact h
  · split
    · unfold State.startWord; split
      · exact everyTower_eq h (start_towers _ _)
      · exact h
    · split
      · unfold State.stopWord; split
        · exact everyTower_eq h (stop_towers _ _)
        · split
          · exact everyTower_stopAll C h
          · exact h
      · split
        · exact everyTower_eq h rfl
        · split
          · exact everyTower_eq h rfl
          · split
            · unfold State.bankWord; repeat' split
              all_goals exact everyTower_eq h (by simp)
            · split
              · exact everyTower_eq h (by simp)
              · split
                · exact everyTower_eq h (by simp)
                · split
                  · unfold State.reloadWord; split
                    · intro u; show J u (Vector.replicate 12 TowerState.reset)[u]; simp; exact R u
                    · exact h
                  · exact h

theorem everyTower_takeCommand (C : TowerClosed J) (R : ∀ u, J u TowerState.reset) {s : State} (h : EveryTower J
    s) (a w) : EveryTower J (s.takeCommand a w) := by
  refine everyTower_eq (everyTower_command C R h w a.data) ?_
  unfold State.takeCommand; simp

theorem everyTower_arrive (C : TowerClosed J) (R : ∀ u, J u TowerState.reset) {s : State} (h : EveryTower J s)
    (a) : EveryTower J (s.arrive a) := by
  unfold State.arrive; split
  · exact h
  · split
    · exact everyTower_eq h (by simp)
    · unfold State.decideAccess; split
      · split
        · exact everyTower_eq h (by simp)
        · exact everyTower_eq h (by simp)
      · split
        · exact everyTower_eq h (by simp)
        · split
          · split
            · unfold State.handOver; split
              · exact everyTower_eq h (by simp)
              · exact everyTower_eq h (by simp)
              · dsimp only; split
                · exact everyTower_takeCommand C R h _ _
                · exact everyTower_eq h (by simp)
              · unfold State.writeLive; split
                · exact everyTower_eq h (by simp)
                · refine everyTower_eq (everyTower_mod h _ (fun k => C.valued _ _ _ _ (valueChange_trim _) k)) (by simp; rfl)
              · exact everyTower_eq h (by simp)
              · exact everyTower_eq h (by simp)
            · exact everyTower_eq h (by simp)
          · split
            · exact everyTower_eq h (by simp)
            · exact everyTower_eq h (by simp)

/-- A verb keeps the property of every tower. -/
def RunsKeep (J : Tower → TowerState → Prop) (run : OrderRec → State → Except FaultCode State) : Prop :=
  ∀ r s t, EveryTower J s → run r s = .ok t → EveryTower J t

theorem everyTower_orderRow {run} (H : RunsKeep J run) (row) {s : State} (h : EveryTower J s) : EveryTower J
    (s.orderRow row run) := by
  unfold State.orderRow; split
  · dsimp only; split
    · exact everyTower_eq h (by simp)
    · split
      · unfold State.execute; split
        · exact everyTower_eq h (by simp)
        · split
          · exact everyTower_eq h (by simp)
          · rename_i t ht
            exact everyTower_eq (H _ _ _ (everyTower_eq (t := s.completed _ [] false) h (by simp)) ht) (by simp)
      · exact h
  · exact h

theorem runs_keyRange (C : TowerClosed J) (f : OrderRec → KeyRec → KeyRec) (hf : ∀ r, ValueChange (fun _ => f r))
    : RunsKeep J (fun r => State.keyRange r (f r)) := by
  intro r s t h e
  dsimp only at e
  unfold State.keyRange at e; split at e
  · cases e
  · cases e; exact everyTower_mods (fun u tw k => C.valued _ _ _ _ (hf r) k) _ h
theorem runs_preset (C : TowerClosed J) : RunsKeep J State.runPreset := by
  intro r s t h e
  unfold State.runPreset at e; split at e
  · cases e
  · split at e
    · cases e
    · cases e
      rename_i ts _ hf
      have hr : r.ramp = true → 1 ≤ r.steps := by
        intro hp
        unfold State.presetFault at hf
        dsimp only at hf
        split at hf
        · exact nomatch hf
        · split at hf
          · exact nomatch hf
          · rename_i hn
            exact (Decidable.not_not.mp (fun k => hn ⟨hp, k⟩)).1
      have : ∀ (l : List Tower) (x : State), EveryTower J x → EveryTower J (l.foldl (State.presetTower r s) x) := by
        intro l; induction l with
        | nil => exact fun _ h => h
        | cons a l ih =>
          intro x hx
          exact ih _ (everyTower_mod hx a (fun k => C.valued _ _ _ _ (valueChange_preset _ hr _) k))
      exact this _ _ h
theorem runs_bank (cmd) : RunsKeep J (fun _ => State.orderBank cmd) := by
  intro r s t h e
  unfold State.orderBank at e; dsimp only at e; split at e
  · cases e; exact everyTower_eq h (by simp)
  · cases e
theorem runs_named (cmd) : RunsKeep J (State.orderNamedBank cmd) := by
  intro r s t h e
  unfold State.orderNamedBank at e; split at e
  · cases e
  · exact runs_bank _ r s t h e
theorem runs_loop (f : TowerState → Result × TowerState) (hf : ∀ u tw, J u tw → J u (f tw).2) : RunsKeep J
    (State.orderLoop f) := by
  intro r s t h e
  unfold State.orderLoop at e; split at e
  · cases e
  · cases e; exact everyTower_mods hf _ h

theorem everyTower_complete {s : State} (h : EveryTower J s) {due anss k} (hk : ∀ r ws x, EveryTower J x →
    EveryTower J (k r ws x)) : EveryTower J (s.complete due anss k) := by
  unfold State.complete; split
  · split
    · split
      · exact everyTower_eq h (by simp)
      · exact hk _ _ _ (everyTower_eq h (by simp))
    · exact h
  · exact h

/-- The pin reset, and the loader's events, which may install sections. -/
def loaderEvent : Instr → Bool
  | .pinReset _ => true
  | .preloadWriteComplete _ => true
  | .headerRead _ => true
  | .sectionRead _ => true
  | .sectionReloadComplete _ => true
  | _ => false

theorem everyTower_exec (C : TowerClosed J) (R : ∀ u, J u TowerState.reset) {i : Instr} {s t : State} (hi :
    loaderEvent i = false) (h : EveryTower J s) (e : exec i s = .next t) : EveryTower J t := by
  have fin : ∀ {f : State → State}, EveryTower J (f s) → afterEvent f s = .next t → EveryTower J t := by
    intro f hf e; unfold afterEvent at e; cases e; exact everyTower_serve C hf
  cases i
  case pinReset => cases hi
  case preloadWriteComplete => cases hi
  case headerRead => cases hi
  case sectionRead => cases hi
  case sectionReloadComplete => cases hi
  case mpGrant => exact fin (everyTower_eq h (by simp)) e
  case passThroughResponse => exact fin (everyTower_eq h (by simp)) e
  case foldReadResponse => exact fin (everyTower_eq h (by simp)) e
  case foldWriteResponse => exact fin (everyTower_eq h (by simp)) e
  case commitResponse => exact fin (everyTower_eq h (by simp)) e
  case answerWriteResponse => exact fin (everyTower_eq h (by simp)) e
  case slotReadComplete errors =>
    refine fin (everyTower_complete h (fun r ws x hx => ?_)) e
    unfold State.slotDelivered; split
    · exact everyTower_slotRead C hx _ _
    · exact hx
  case clearFirstOffer => exact fin (everyTower_eq h (by simp)) e
  case clearWriteComplete => exact fin (everyTower_complete h (fun r ws x hx => everyTower_eq hx (by simp))) e
  case orderWriteComplete => exact fin (everyTower_complete h (fun r ws x hx => everyTower_eq hx (by simp))) e
  case orderFetchError => exact fin (everyTower_complete h (fun r ws x hx => everyTower_eq hx (by simp))) e
  case mirrorWriteComplete => exact fin (everyTower_complete h (fun r ws x hx => everyTower_eq hx (by simp))) e
  case noticeWriteComplete => exact fin (everyTower_complete h (fun r ws x hx => everyTower_eq hx (by simp))) e
  case orderCancelled =>
    refine fin ?_ e
    unfold State.orderCancelled; split
    · split
      · exact everyTower_eq h (by simp)
      · split
        · exact everyTower_eq h (by simp)
        · exact h
    · exact h
  case preset => exact fin (everyTower_orderRow (runs_preset C) _ h) e
  case trimSet => exact fin (everyTower_orderRow (runs_keyRange C (fun r => setTrim r.value) (fun r => valueChange_trim _)) _ h) e
  case trimAdd => exact fin (everyTower_orderRow (runs_keyRange C (fun r => addTrim r.value) (fun r => valueChange_add _)) _ h) e
  case corrClear => exact fin (everyTower_orderRow (runs_keyRange C (fun r => setCorrection 0) (fun r => valueChange_corr (fun _ => 0) (by decide))) _ h) e
  case hold => exact fin (everyTower_orderRow (runs_keyRange C (fun r => setHold true) (fun r => valueChange_hold _)) _ h) e
  case release => exact fin (everyTower_orderRow (runs_keyRange C (fun r => setHold false) (fun r => valueChange_hold _)) _ h) e
  case clearBank => exact fin (everyTower_orderRow (runs_named _) _ h) e
  case lockBank => exact fin (everyTower_orderRow (runs_named _) _ h) e
  case unlockBank => exact fin (everyTower_orderRow (runs_named _) _ h) e
  case swapBanks => exact fin (everyTower_orderRow (runs_bank _) _ h) e
  case orderLoopOn =>
    refine fin (everyTower_orderRow (runs_loop _ (fun u tw k => ?_)) _ h) e
    unfold TowerState.loopOn; split
    · exact k
    · split
      · exact C.congr _ _ _ k rfl rfl rfl rfl rfl
      · exact k
  case orderLoopOff => exact fin (everyTower_orderRow (runs_loop _ (fun u tw k => C.congr _ _ _ k rfl rfl rfl rfl rfl)) _ h) e
  case nop => exact fin (everyTower_orderRow (by intro r s t h e; cases e; exact h) _ h) e
  case verbFault => exact fin (everyTower_orderRow (by intro r s t h e; cases e) _ h) e
  case sheet => exact fin (everyTower_sheet C h) e
  case rampComplete => exact fin (everyTower_sheet C h) e
  case settleEnd => exact fin (everyTower_sheet C h) e
  case sheetFiring => exact fin (everyTower_sheet C h) e
  case imprRise => exact fin (everyTower_impr C h).1 e
  case imprFall => exact fin (everyTower_impr C h).2 e
  case jobchg => exact fin (everyTower_eq h (by simp)) e
  case sendingEnd => exact fin (everyTower_eq h (by simp)) e
  case gapEnd => exact fin (everyTower_endGap C h) e
  case done => exact fin (everyTower_receive C _ h) e
  case stall => exact fin (everyTower_receive C _ h) e
  case report => exact fin (everyTower_receive C _ h) e
  case hello => exact fin (everyTower_receive C _ h) e
  case frameDiscarded => exact fin (everyTower_receive C _ h) e
  case keyFault c =>
    cases c with
    | stall => exact fin (f := State.keyFaultEvent (.stall _ _ _ _)) (everyTower_receive C _ h) e
    | timeout => exact fin (f := State.keyFaultEvent (.timeout _ _)) (everyTower_timeout C h _ _) e
  case moveTimeout => exact fin (everyTower_timeout C h _ _) e
  case towerDown => exact fin (everyTower_timeout C h _ _) e
  all_goals exact fin (everyTower_arrive C R h _) e

theorem towerClosed_accountOk : TowerClosed (fun _ tw => tw.accountOk) where
  congr := fun _ _ _ h a b c _ _ => accountOk_congr h a b c
  dispatch := fun _ _ n sl h hd => accountOk_dispatch n sl h hd
  valued := fun _ _ _ l hf h => accountOk_revalueEvent hf l h
  wake := fun _ _ _ h => accountOk_wake _ h
  park := fun _ _ h => accountOk_park h
  clearF := fun _ _ h => accountOk_clearFaults h
  hello := fun _ _ h => accountOk_hello h
  ans := fun _ _ _ _ _ _ h => accountOk_takeAnswer _ _ _ _ h
  tmo := fun _ _ sl h ht => accountOk_timeout sl h ht
  corr := fun u s m h => by
    refine accountOk_notice ?_
    generalize TowerState.slots s.towers[u] = l
    generalize s.correctionOf m u = g
    unfold TowerState.revalueAll
    generalize s.towers[u] = tw at h
    induction l generalizing tw with
    | nil => exact h
    | cons a l ih => exact ih _ (accountOk_recompose (accountOk_mod h Iff.rfl rfl rfl))

theorem reset_get (sl : Slot) : TowerState.reset.recs[sl] = KeyRec.reset := by simp [TowerState.reset]

theorem accountOk_reset : TowerState.reset.accountOk := by
  refine ⟨?_, ?_, ?_, List.nodup_nil, List.nodup_nil, Nat.zero_le _⟩
  · intro sl; rw [reset_get]; simp [TowerState.reset, KeyRec.reset]
  · intro sl; rw [reset_get]; simp [TowerState.reset, KeyRec.reset, KeyRec.flying]
  · intro sl; rw [reset_get]; rfl


theorem towerClosed_within (c : Tower → Option KeyCfg) (ls : Tower → Option LoopSettings) (hl : ∀ u x, ls u =
    some x → limitOk x) :
    TowerClosed (fun u tw => tw.within (c u) (ls u)) where
  congr := fun _ _ _ h _ _ a b c => within_congr h b c a
  dispatch := fun _ _ n sl h _ => within_dispatch n sl h
  valued := fun _ _ _ l hf h => within_revalueEvent hf l h
  wake := fun _ _ _ h => within_wake _ h
  park := fun _ _ h => within_park h
  clearF := fun _ _ h => within_clearFaults h
  hello := fun _ _ h => within_hello h
  ans := fun _ _ _ _ _ _ h => within_takeAnswer _ _ _ _ h
  tmo := fun _ _ sl h _ => within_timeout sl h
  corr := fun u _ _ h => within_revalueEvent (valueChange_corr _ (fun sl => corr_range _ _ h (hl u) sl)) _ h

theorem towerClosed_or {J K : Tower → TowerState → Prop} (C : TowerClosed J) (D : TowerClosed K) : TowerClosed
    (fun u tw => J u tw ∨ K u tw) where
  congr := fun u tw tv h a b c d e => h.imp (fun h => C.congr u tw tv h a b c d e) (fun h => D.congr u tw tv h a b c d e)
  dispatch := fun u tw n sl h hd => h.imp (fun h => C.dispatch u tw n sl h hd) (fun h => D.dispatch u tw n sl h hd)
  valued := fun u tw f l hf h => h.imp (fun h => C.valued u tw f l hf h) (fun h => D.valued u tw f l hf h)
  wake := fun u tw b h => h.imp (C.wake u tw b) (D.wake u tw b)
  park := fun u tw h => h.imp (C.park u tw) (D.park u tw)
  clearF := fun u tw h => h.imp (C.clearF u tw) (D.clearF u tw)
  hello := fun u tw h => h.imp (C.hello u tw) (D.hello u tw)
  ans := fun u tw k a b p h => h.imp (C.ans u tw k a b p) (D.ans u tw k a b p)
  tmo := fun u tw sl h ht => h.imp (fun h => C.tmo u tw sl h ht) (fun h => D.tmo u tw sl h ht)
  corr := fun u s m h => h.imp (C.corr u s m) (D.corr u s m)

theorem within_reset : TowerState.reset.within none none := by
  refine ⟨rfl, rfl, fun sl => ?_⟩
  rw [reset_get]; exact ⟨by decide, by decide, by decide, by decide, Nat.le_refl 0, fun _ h => nomatch h⟩

theorem fail_towers (s : State) : s.failLoad.towers = s.towers := by simp
theorem fail_loader (s : State) : s.failLoad.loader = ⟨.idle, none, Staged.empty, s.loader.spi⟩ := by
  unfold State.failLoad State.dropStaged; rfl
theorem run_loader (s : State) (g) : (s.runLoad g).loader = ⟨.idle, none, Staged.empty, s.loader.spi⟩ := rfl
theorem run_towers (s : State) (g) (u : Tower) : (s.runLoad g).towers[u] = (s.towers[u]).install
    s.loader.staged.towers[u] := by
  show (vecOf _)[u] = _; rw [vecOf_get]

/-- What a load's event leaves: the towers as before, or the staged sections installed and the load over. -/
def LoadSpec (s t : State) : Prop :=
  (t.towers = s.towers ∧ (t.loader.state.loading = true → s.loader.state.loading = true)
      ∧ ∀ (u : Tower) c, t.loader.staged.towers[u] = some c → s.loader.staged.towers[u] = some c ∨ limitOk c.loop)
    ∨ (t.loader = ⟨.idle, none, Staged.empty, t.loader.spi⟩ ∧ ∀ u : Tower, t.towers[u] = (s.towers[u]).install
    s.loader.staged.towers[u])

theorem empty_get (u : Tower) : Staged.empty.towers[u] = none := by simp [Staged.empty]

theorem loadSpec_fail {s t : State} (h : t.towers = s.towers) : LoadSpec s t.failLoad := by
  refine Or.inl ⟨by rw [fail_towers, h], ?_, ?_⟩
  · rw [fail_loader]; intro k; cases k
  · rw [fail_loader]; intro u c k; simp only [empty_get] at k; cases k
theorem loadSpec_end {s t : State} (h : t.towers = s.towers) (hl : t.loader = s.loader) : LoadSpec s t.endLoad := by
  unfold State.endLoad; split
  · exact loadSpec_fail h
  · refine Or.inr ⟨by rw [run_loader], fun u => ?_⟩
    rw [run_towers, h, hl]
theorem loadSpec_same {s t : State} (h : t.towers = s.towers) (hs : s.loader.state.loading = true) (hg : ∀ (u :
    Tower) c, t.loader.staged.towers[u] = some c → s.loader.staged.towers[u] = some c ∨ limitOk c.loop) :
    LoadSpec s t :=
  Or.inl ⟨h, fun _ => hs, hg⟩

/-- Driving the port changes nothing that LoadSpec speaks of. -/
theorem LoadSpec.drive {s t : State} (h : LoadSpec s t) (xs) : LoadSpec s (t.drive xs) := by
  rcases h with ⟨a, b, c⟩ | ⟨a, b⟩
  · exact Or.inl ⟨a, b, c⟩
  · refine Or.inr ⟨?_, b⟩
    show ({ t.loader with spi := _ } : Loader) = _
    rw [a]
    rfl

theorem towerOf_limit {f ws c} (h : towerOf f ws = some c) : limitOk c.loop := by
  unfold towerOf at h; dsimp only at h; split at h
  · rename_i hc
    cases h
    simp only [Bool.and_eq_true] at hc
    have := hc.1.1.2
    unfold inRange at this; simp at this
    exact this.2
  · cases h

theorem loadSpec_judge (im) (s : State) : LoadSpec s (s.judgeSection im) := by
  unfold State.judgeSection
  split
  · rename_i n h hst hh
    have hs : s.loader.state.loading = true := by rw [hst]; rfl
    refine LoadSpec.drive ?_ _
    unfold State.judgeKind
    split
    · unfold State.judgeGlobal; split
      · split
        · exact loadSpec_fail rfl
        · exact loadSpec_same (by simp) hs (fun u c k => Or.inl k)
      · exact loadSpec_fail rfl
    · split
      · unfold State.judgeWindows; split
        · dsimp only; split
          · exact loadSpec_same (by simp) hs (fun u c k => Or.inl (by simpa [State.stage, State.setLoader] using k))
          · exact loadSpec_fail (by simp)
        · exact loadSpec_fail rfl
      · split
        · unfold State.judgeCurves
          split
          · exact loadSpec_same (by simp) hs (fun u c k => Or.inl (by simpa [State.stage, State.setLoader] using k))
          · exact loadSpec_same (by simp) hs (fun u c k => Or.inl (by simpa [State.stage, State.setLoader] using k))
          · exact loadSpec_same (by simp) hs (fun u c k => Or.inl (by simpa [State.stage, State.setLoader] using k))
        · split
          · unfold State.judgePreload; split
            · split
              · exact loadSpec_end rfl rfl
              · exact loadSpec_same (by simp) hs (fun u c k => Or.inl k)
            · exact loadSpec_end (by simp) (by simp)
            · exact loadSpec_end rfl rfl
          · rename_i t _
            unfold State.judgeTower
            split
            · split
              · exact loadSpec_same (by simp) hs (fun u c k => Or.inl (by simpa [State.stage, State.setLoader] using k))
              · rename_i c hc
                refine loadSpec_same (by simp) hs (fun u c' k => ?_)
                have k' : (s.loader.staged.towers.set t (some c))[u] = some c' := k
                by_cases e : u = t
                · subst e; simp at k'; subst k'; exact Or.inr (towerOf_limit hc)
                · left; rw [← k']; have : t.val ≠ u.val := fun h => e (Fin.ext h.symm)
                  simp [this]
            · exact loadSpec_same (by simp) hs (fun u c k => Or.inl (by simpa [State.stage, State.setLoader] using k))
            · exact loadSpec_same (by simp) hs (fun u c k => Or.inl (by simpa [State.stage, State.setLoader] using k))
  · exact Or.inl ⟨rfl, id, fun u c k => Or.inl k⟩

theorem loadSpec_header (im) (s : State) : LoadSpec s (s.headerEvent im) := by
  unfold State.headerEvent; split
  · rename_i hst
    have hs : s.loader.state.loading = true := by rw [hst]; rfl
    refine LoadSpec.drive ?_ _
    unfold State.judgeHeader; split
    · exact loadSpec_fail rfl
    · exact loadSpec_same rfl hs (fun u c k => Or.inl k)
  · exact Or.inl ⟨rfl, id, fun u c k => Or.inl k⟩

theorem loadSpec_preload (s : State) : LoadSpec s s.preloadWritten := by
  unfold State.preloadWritten; split
  · rename_i hst
    have hs : s.loader.state.loading = true := by rw [hst]; rfl
    split
    · exact loadSpec_same (by simp) hs (fun u c k => Or.inl k)
    · exact loadSpec_end rfl rfl
  · exact Or.inl ⟨rfl, id, fun u c k => Or.inl k⟩

theorem LoadSpec.of_eq {s s1 t : State} (h : LoadSpec s1 t) (e1 : s1.towers = s.towers) (e2 : s1.loader =
    s.loader) : LoadSpec s t := by
  unfold LoadSpec at h ⊢; rw [e1, e2] at h; exact h

theorem loadSpec_preloadEv (s : State) (ans) : LoadSpec s (s.complete IReq.isPreloadWrite [ans] (fun _ _ s =>
    s.freeChannel.preloadWritten)) := by
  unfold State.complete; split
  · split
    · split
      · exact Or.inl ⟨by simp, by simp, fun u c k => Or.inl (by simpa using k)⟩
      · exact (loadSpec_preload _).of_eq (by simp) (by simp)
    · exact Or.inl ⟨rfl, id, fun u c k => Or.inl k⟩
  · exact Or.inl ⟨rfl, id, fun u c k => Or.inl k⟩

theorem install_acc {tw : TowerState} (c) (h : tw.accountOk) : (tw.install c).accountOk := by
  unfold TowerState.install; split
  · exact h
  · exact accountOk_congr h rfl rfl rfl

theorem accountOk_resetBad (tw : TowerState) : tw.resetBad.accountOk := accountOk_congr accountOk_reset rfl rfl rfl

theorem resetRec_spec (b r) : (resetRec b r).move = .idle ∧ (resetRec b r).timer = none ∧ (resetRec b r).target =
    0 ∧ (resetRec b r).correction = 0
    ∧ ((resetRec b r).trim = r.trim ∨ (resetRec b r).trim = 0) := by
  unfold resetRec; split
  · unfold withdrawRec freezeRamp; dsimp only
    cases hm : r.move <;> simp
  · exact ⟨rfl, rfl, rfl, rfl, Or.inr rfl⟩

/-- A record at a tower reset holds no ramp (R58). -/
theorem resetRec_ramp (b r) : (resetRec b r).ramp = none := by
  unfold resetRec; split
  · unfold withdrawRec freezeRamp; dsimp only
    cases hm : r.move <;> simp
  · rfl

theorem resetGood_rec (c) (tw : TowerState) (sl : Slot) : ∃ b, (tw.resetGood c).recs[sl] = resetRec b
    (tw.recs[sl]) :=
  ⟨_, vecOf_get _ _⟩

theorem accountOk_resetGood (c) (tw : TowerState) : (tw.resetGood c).accountOk := by
  refine ⟨?_, ?_, ?_, List.nodup_nil, List.nodup_nil, Nat.zero_le _⟩
  · intro sl; obtain ⟨b, e⟩ := resetGood_rec c tw sl; show sl ∈ [] ↔ _; rw [e, (resetRec_spec b _).1]; simp
  · intro sl
    obtain ⟨b, e⟩ := resetGood_rec c tw sl
    show sl ∈ [] ↔ _
    rw [e]
    unfold KeyRec.flying
    rw [(resetRec_spec b _).1]
    simp
  · intro sl
    obtain ⟨b, e⟩ := resetGood_rec c tw sl
    rw [e]
    unfold KeyRec.flying
    rw [(resetRec_spec b _).1, (resetRec_spec b _).2.1]
    rfl

theorem resetTower_towers (t) (c) (s : State) (u : Tower) : (s.resetTower t c).towers[u] = if u = t then (match c
    with | none => s.towers[t].resetBad | some x => s.towers[t].resetGood x) else s.towers[u] := by
  have : (s.resetTower t c).towers = (s.putTower t (match c with | none => s.towers[t].resetBad | some x => s.towers[t].resetGood x)).towers := by
    unfold State.resetTower; cases c <;> simp
  rw [this, State.putTower_get]

theorem command_loader (s : State) (w : CtlWord) (d : Word) : (s.command w d).2.loader = s.loader ∨ (∃ v p,
    (s.command w d).2.loader = { s.loader with state := .section_ v, spi := p })
    ∨ ((s.command w d).2.loader = Loader.reset ∧ (s.command w d).2.towers = Vector.replicate 12 TowerState.reset)
    := by
  unfold State.command; split
  · unfold State.towerWord State.towerCommand State.resetCommand
    repeat' split
    all_goals first | (left; simp; done) | exact Or.inr (Or.inl ⟨_, _, rfl⟩) | exact Or.inl rfl
  · unfold State.bindWord State.armBinding State.disarmBinding
    repeat' split
    all_goals first | (left; simp; done) | exact Or.inl rfl
  · split
    · unfold State.startWord State.start; repeat' split
      all_goals first | (left; simp; done) | exact Or.inl rfl
    · split
      · unfold State.stopWord State.stop State.stopAll; repeat' split
        all_goals first | (left; simp; done) | exact Or.inl rfl
      · split
        · exact Or.inl rfl
        · split
          · exact Or.inl rfl
          · split
            · unfold State.bankWord; repeat' split
              all_goals first | (left; simp; done) | exact Or.inl rfl
            · split
              · left; simp
              · split
                · left; simp
                · split
                  · unfold State.reloadWord; split
                    · right; right; exact ⟨rfl, rfl⟩
                    · exact Or.inl rfl
                  · exact Or.inl rfl

theorem arrive_loader (s : State) (a : Access) : (s.arrive a).loader = s.loader ∨ (∃ v p, (s.arrive a).loader = {
    s.loader with state := .section_ v, spi := p })
    ∨ ((s.arrive a).loader = Loader.reset ∧ (s.arrive a).towers = Vector.replicate 12 TowerState.reset) := by
  unfold State.arrive; split
  · exact Or.inl rfl
  · split
    · left; simp
    · unfold State.decideAccess; split
      · split <;> (left; simp)
      · split
        · left; simp
        · split
          · split
            · unfold State.handOver; split
              · left; simp
              · left; simp
              · dsimp only; split
                · have e1 : ∀ w, (s.takeCommand a w).loader = (s.command w a.data).2.loader := by intro w; unfold State.takeCommand; simp
                  have e2 : ∀ w, (s.takeCommand a w).towers = (s.command w a.data).2.towers := by intro w; unfold State.takeCommand; simp
                  rw [e1, e2]
                  exact command_loader _ _ _
                · left; simp
              · left; simp
              · left; simp
              · left; simp
            · left; simp
          · split <;> (left; simp)

/-- What an event that installs no section leaves of the loader. -/
def LoaderAfter (s t : State) : Prop := t.loader = s.loader ∨ (∃ v p, t.loader = { s.loader with state := .section_ v, spi := p })
    ∨ (t.loader = Loader.reset ∧ ∀ u : Tower, t.towers[u].cfg = none)

theorem complete_loader (s : State) (due anss k) (hk : ∀ r ws x, (k r ws x).loader = x.loader) : (s.complete due
    anss k).loader = s.loader := by
  unfold State.complete; repeat' split
  · simp
  · rw [hk]; simp
  · rfl
  · rfl

theorem orderRow_loader (s : State) (row run) (hr : ∀ r x t, run r x = .ok t → t.loader = x.loader) : (s.orderRow
    row run).loader = s.loader := by
  unfold State.orderRow; split
  · dsimp only; split
    · simp
    · split
      · unfold State.execute; split
        · simp
        · split
          · simp
          · rename_i ht; simp; rw [hr _ _ _ ht]; simp
      · rfl
  · rfl
theorem loader_keyRange (f : OrderRec → KeyRec → KeyRec) (r) (x t : State) (h : State.keyRange r (f r) x = .ok t)
    : t.loader = x.loader := by
  unfold State.keyRange at h; split at h <;> cases h; simp
theorem loader_preset (r) (x t : State) (h : State.runPreset r x = .ok t) : t.loader = x.loader := by
  unfold State.runPreset at h; split at h
  · cases h
  · split at h
    · cases h
    · cases h
      rename_i ts _ _ 
      have : ∀ (l : List Tower) (s0 y : State), (l.foldl (State.presetTower r s0) y).loader = y.loader := by
        intro l; induction l with
        | nil => exact fun _ _ => rfl
        | cons a l ih => intro s0 y; simp only [List.foldl_cons]; rw [ih]; simp [State.presetTower]
      exact this _ _ _
theorem loader_bank (c) (x t : State) (h : State.orderBank c x = .ok t) : t.loader = x.loader := by
  unfold State.orderBank at h; dsimp only at h; split at h
  · cases h; simp
  · cases h
theorem loader_named (c) (r) (x t : State) (h : State.orderNamedBank c r x = .ok t) : t.loader = x.loader := by
  unfold State.orderNamedBank at h; split at h
  · cases h
  · exact loader_bank _ x t h
theorem loader_loop (f r) (x t : State) (h : State.orderLoop f r x = .ok t) : t.loader = x.loader := by
  unfold State.orderLoop at h; split at h <;> cases h; simp

theorem exec_loader {i : Instr} {s t : State} (hi : loaderEvent i = false) (e : exec i s = .next t) : LoaderAfter
    s t := by
  have fin : ∀ {f : State → State}, (f s).loader = s.loader → afterEvent f s = .next t → LoaderAfter s t := by
    intro f hf e; unfold afterEvent at e; cases e; left; simpa using hf
  have arr : ∀ {a}, afterEvent (State.arrive a) s = .next t → LoaderAfter s t := by
    intro a e; unfold afterEvent at e; cases e
    rcases arrive_loader s a with k | ⟨v, p, k⟩ | ⟨k1, k2⟩
    · left; simpa using k
    · right; left; exact ⟨v, p, by simpa using k⟩
    · right; right; refine ⟨by simpa using k1, fun u => ?_⟩
      have := (State.settle_tower s (s.arrive a) u).2.2.1
      rw [this]; simp only [k2]; simp [TowerState.reset]
  cases i
  case pinReset => cases hi
  case preloadWriteComplete => cases hi
  case headerRead => cases hi
  case sectionRead => cases hi
  case sectionReloadComplete => cases hi
  case mpGrant => exact fin (by simp) e
  case passThroughResponse => exact fin (by simp) e
  case foldReadResponse => exact fin (by simp) e
  case foldWriteResponse => exact fin (by simp) e
  case commitResponse => exact fin (by simp) e
  case answerWriteResponse => exact fin (by simp) e
  case slotReadComplete errors => exact fin (complete_loader _ _ _ _ (by intros; simp)) e
  case clearFirstOffer => exact fin (by simp) e
  case clearWriteComplete => exact fin (complete_loader _ _ _ _ (by intros; simp)) e
  case orderWriteComplete => exact fin (complete_loader _ _ _ _ (by intros; simp)) e
  case orderFetchError => exact fin (complete_loader _ _ _ _ (by intros; simp)) e
  case mirrorWriteComplete => exact fin (complete_loader _ _ _ _ (by intros; simp)) e
  case noticeWriteComplete => exact fin (complete_loader _ _ _ _ (by intros; simp)) e
  case orderCancelled =>
    refine fin ?_ e
    unfold State.orderCancelled; repeat' split
    all_goals simp
  case preset => exact fin (orderRow_loader _ _ _ loader_preset) e
  case trimSet => exact fin (orderRow_loader _ _ _ (loader_keyRange _)) e
  case trimAdd => exact fin (orderRow_loader _ _ _ (loader_keyRange (fun r => addTrim r.value))) e
  case corrClear => exact fin (orderRow_loader _ _ _ (loader_keyRange (fun _ => setCorrection 0))) e
  case hold => exact fin (orderRow_loader _ _ _ (loader_keyRange (fun _ => setHold true))) e
  case release => exact fin (orderRow_loader _ _ _ (loader_keyRange (fun _ => setHold false))) e
  case clearBank => exact fin (orderRow_loader _ _ _ (loader_named _)) e
  case lockBank => exact fin (orderRow_loader _ _ _ (loader_named _)) e
  case unlockBank => exact fin (orderRow_loader _ _ _ (loader_named _)) e
  case swapBanks => exact fin (orderRow_loader _ _ _ (fun _ => loader_bank _)) e
  case orderLoopOn => exact fin (orderRow_loader _ _ _ (loader_loop _)) e
  case orderLoopOff => exact fin (orderRow_loader _ _ _ (loader_loop _)) e
  case nop => exact fin (orderRow_loader _ _ _ (by intro r x t h; cases h; rfl)) e
  case verbFault => exact fin (orderRow_loader _ _ _ (by intro r x t h; cases h)) e
  case sheet => exact fin (by simp) e
  case rampComplete => exact fin (by simp) e
  case settleEnd => exact fin (by simp) e
  case sheetFiring => exact fin (by simp) e
  case imprRise => exact fin (by simp) e
  case imprFall => exact fin (by simp) e
  case jobchg => exact fin (by simp) e
  case sendingEnd => exact fin (by simp) e
  case gapEnd => exact fin (by simp) e
  case done => exact fin (by simp) e
  case stall => exact fin (by simp) e
  case report => exact fin (by simp) e
  case hello => exact fin (by simp) e
  case frameDiscarded => exact fin (by simp) e
  case keyFault c =>
    cases c with
    | stall => exact fin (f := State.keyFaultEvent (.stall _ _ _ _)) (by simp [State.keyFaultEvent]) e
    | timeout => exact fin (f := State.keyFaultEvent (.timeout _ _)) (by simp [State.keyFaultEvent]) e
  case moveTimeout => exact fin (by simp) e
  case towerDown => exact fin (by simp) e
  all_goals exact arr e

theorem within_of {s : State} (h : s.inRanges) (u : Tower) : (s.towers[u]).within s.towers[u].cfg
    s.towers[u].settings := ⟨rfl, rfl, h.1 u⟩

theorem ranges_settle {s0 s : State} (h : s.inRanges) : (State.settle s0 s).inRanges := by
  have C := towerClosed_within (fun u => s.towers[u].cfg) (fun u => s.towers[u].settings) (fun u x k => h.2.1 u x k)
  have k := everyTower_serve C (s0 := s0) (s := s) (fun u => within_of h u)
  refine ⟨fun t sl => ?_, fun t ls e => ?_, ?_, ?_⟩
  · rw [(k t).1]; exact (k t).2.2 sl
  · rw [(k t).2.1] at e; exact h.2.1 t ls e
  · simpa using h.2.2.1
  · intro hl t; rw [(k t).1]; exact h.2.2.2 (by simpa using hl) t

theorem ranges_load {s t : State} (h : s.inRanges) (k : LoadSpec s t) (hl : t.loader = ⟨.idle, none,
    Staged.empty, t.loader.spi⟩ → (∀ u : Tower, t.towers[u] = (s.towers[u]).install s.loader.staged.towers[u]) → t.towers =
    s.towers ∨ s.loader.state.loading = true) : t.inRanges := by
  rcases k with ⟨a, b, c⟩ | ⟨a, b⟩
  · refine ⟨by rw [a]; exact h.1, by rw [a]; exact h.2.1, ?_, ?_⟩
    · intro u c' e; rcases c u c' e with k | k
      · exact h.2.2.1 u c' k
      · exact k
    · intro l; rw [a]; exact h.2.2.2 (b l)
  · refine ⟨fun u sl => ?_, fun u x e => ?_, ?_, ?_⟩
    · rcases hl a b with k | k
      · rw [k]; exact h.1 u sl
      · rw [b u]
        have h1 := h.1 u sl
        rw [h.2.2.2 k u] at h1
        unfold TowerState.install; split
        · rw [h.2.2.2 k u]; exact h1
        · exact ⟨h1.1, h1.2.1, h1.2.2.1, h1.2.2.2.1, Nat.le_trans h1.2.2.2.2.1 (Nat.zero_le _),
            h1.2.2.2.2.2⟩
    · rw [b u] at e
      unfold TowerState.install at e; split at e
      · exact h.2.1 u x e
      · rename_i c hc; cases e; exact h.2.2.1 u c hc
    · intro u c e; rw [a] at e; simp only [empty_get] at e; cases e
    · intro l; rw [a] at l; cases l

end Sys2Proof.Machine
end

