-- ==== Sys2Proof/Laws/Unfit.lean ====
section
/-! SUPPORT. How frames become UNFIT: one of them, those of a tower, those whose images the words of a granted write lie
in (R29, R36, R37). -/

namespace Sys2Proof.Machine

/-- Where nothing is hit a coverage unit stands as it stood. -/
theorem Coverage.madeUnfit_refl (c : Coverage) {hit : BankId → Tower → Prop} (h : ∀ bk u, ¬hit bk u) :
    c.madeUnfit c hit :=
  ⟨fun bk u => ⟨fun k => absurd k (h bk u), fun _ => rfl⟩, id, fun _ hf => ⟨fun k => absurd k (h _ _), fun _ => hf⟩,
    fun _ => rfl, rfl, rfl, rfl, rfl⟩

/-- What is hit may be said in another way. -/
theorem Coverage.madeUnfit_congr {c d : Coverage} {p q : BankId → Tower → Prop} (h : c.madeUnfit d p)
    (e : ∀ bk u, p bk u ↔ q bk u) : c.madeUnfit d q := by
  have : p = q := funext fun bk => funext fun u => propext (e bk u)
  exact this ▸ h

/-- Frames become UNFIT in two goes. -/
theorem Coverage.madeUnfit_trans {c d e : Coverage} {p q : BankId → Tower → Prop} (h : c.madeUnfit d p)
    (k : d.madeUnfit e q) : c.madeUnfit e (fun bk u => p bk u ∨ q bk u) := by
  obtain ⟨h1, h2, h3, h4, h5, h6, h7, h8⟩ := h
  obtain ⟨k1, k2, k3, k4, k5, k6, k7, k8⟩ := k
  refine ⟨fun bk u => ⟨fun o => ?_, fun o => ?_⟩, fun n => k2 (h2 n), fun f hf => ⟨fun o => ?_, fun o => ?_⟩,
    fun bk => (k4 bk).trans (h4 bk), k5.trans h5, k6.trans h6, k7.trans h7, k8.trans h8⟩
  · by_cases hp : p bk u <;> by_cases hq : q bk u
    · rw [(k1 bk u).1 hq, (h1 bk u).1 hp]
    · rw [(k1 bk u).2 hq, (h1 bk u).1 hp]
    · rw [(k1 bk u).1 hq, (h1 bk u).2 hp]
    · exact absurd o (fun x => x.elim hp hq)
  · rw [(k1 bk u).2 (fun x => o (Or.inr x)), (h1 bk u).2 (fun x => o (Or.inl x))]
  · by_cases hp : p f.bank f.tower
    · have hd := (h3 f hf).1 hp
      by_cases hq : q f.bank f.tower
      · exact (k3 _ hd).1 hq
      · exact (k3 _ hd).2 hq
    · exact (k3 f ((h3 f hf).2 hp)).1 (o.resolve_left hp)
  · exact (k3 f ((h3 f hf).2 (fun x => o (Or.inl x)))).2 (fun x => o (Or.inr x))

/-- One frame becomes UNFIT (R36). -/
theorem Coverage.unfit_madeUnfit (bk : BankId) (t : Tower) (c : Coverage) :
    c.madeUnfit (c.unfit bk t) (fun k u => k = bk ∧ u = t) ∧ (c.unfit bk t).geometry = c.geometry := by
  obtain ⟨v1, v2, v3, v4, v5, v6⟩ := Coverage.voidFold_keeps (fun f => f.bank = bk && f.tower = t) false
    (c.modFrame bk t (fun f => { f with fit := false }))
  have fr (k : BankId) (u : Tower) : (c.unfit bk t).frame k u
      = if k = bk ∧ u = t then { c.frame bk t with fit := false } else c.frame k u := by
    rw [← Coverage.modFrame_frame c bk k t u (fun f => { f with fit := false })]
    show ((Coverage.banks _).get k).frames[u] = _
    rw [Coverage.unfit, v3]
    rfl
  have lt (f : Fold) (hf : c.latch = some f) : (c.unfit bk t).latch
      = if f.bank = bk ∧ f.tower = t then some { f with void := true } else some f := by
    unfold Coverage.unfit Coverage.voidFold
    have : (c.modFrame bk t (fun f => { f with fit := false })).latch = some f := hf
    rw [this]
    by_cases h : f.bank = bk ∧ f.tower = t
    · simp [h]
    · rw [if_neg h]
      have : (decide (f.bank = bk) && decide (f.tower = t)) = false := by
        simpa using fun x => fun y => h ⟨x, y⟩
      simp only [this, Bool.false_eq_true, if_false]
      exact hf
  refine ⟨⟨fun k u => ⟨fun h => ?_, fun h => ?_⟩, fun n => ?_, fun f hf => ⟨fun h => ?_, fun h => ?_⟩, fun k => ?_,
    v4, v1, v5, v6⟩, v2⟩
  · rw [fr, if_pos h, h.1, h.2]
  · rw [fr, if_neg h]
  · unfold Coverage.unfit Coverage.voidFold
    have : (c.modFrame bk t (fun f => { f with fit := false })).latch = none := n
    rw [this]
    exact n
  · rw [lt f hf, if_pos h]
  · rw [lt f hf, if_neg h]
  · rw [Coverage.unfit, v3]
    exact Coverage.modFrame_state c bk k t _

/-- A tower's frames become UNFIT where its new geometry record differs from the old (R36, R108). -/
theorem Coverage.setGeometry_madeUnfit (t : Tower) (g : Option Geometry) (c : Coverage) :
    c.madeUnfit (c.setGeometry t g) (fun _ u => u = t ∧ c.geometry[t] ≠ g)
      ∧ (c.setGeometry t g).geometry = c.geometry.set t g := by
  refine ⟨?_, rfl⟩
  unfold Coverage.setGeometry
  by_cases h : c.geometry[t] = g
  · rw [if_pos h]
    exact ⟨fun bk u => ⟨fun k => absurd h k.2, fun _ => rfl⟩, id, fun _ hf => ⟨fun k => absurd h k.2, fun _ => hf⟩,
      fun _ => rfl, rfl, rfl, rfl, rfl⟩
  · rw [if_neg h]
    obtain ⟨a, _⟩ := Coverage.unfit_madeUnfit .a t c
    obtain ⟨b, _⟩ := Coverage.unfit_madeUnfit .b t (c.unfit .a t)
    refine Coverage.madeUnfit_congr (Coverage.madeUnfit_trans a b) fun bk u => ?_
    constructor
    · rintro (k | k) <;> exact ⟨k.2, h⟩
    · intro k
      cases bk
      · exact Or.inl ⟨rfl, k.1⟩
      · exact Or.inr ⟨rfl, k.1⟩

/-- The frame whose image a word lies in (R37). -/
theorem Coverage.imageFrame_iff {c : Coverage} {a : Nat} {bk : BankId} {u : Tower} :
    c.imageFrame a = some (bk, u) ↔ c.holdsWord a bk u := by
  unfold Coverage.imageFrame Coverage.holdsWord
  constructor
  · intro h
    split at h
    · cases h
    · rename_i r hr
      split at h
      · rename_i hc
        split at h
        · cases h
        · rename_i t ht
          split at h
          · cases h
          · rename_i g hg
            split at h
            · rename_i ho
              have e := Option.some.inj h
              have e1 : (r.place a).bank = bk := congrArg Prod.fst e
              have e2 : t = u := congrArg Prod.snd e
              subst e1
              subst e2
              have hc' : r.base ≤ a ∧ a < r.base + r.size := by simpa [CoverRange.covers] using hc
              have hu : (r.place a).frame = t.val := by
                unfold frameTower at ht
                split at ht
                · exact congrArg Fin.val (Option.some.inj ht)
                · cases ht
              exact ⟨r, g, hr, hc'.1, hc'.2, rfl, hu, hg, ho⟩
            · cases h
      · cases h
  · rintro ⟨r, g, hr, h1, h2, hb, hf, hg, ho⟩
    have hc : r.covers a = true := by simp [CoverRange.covers, h1, h2]
    have ht : frameTower (r.place a).frame = some u := by
      have : (r.place a).frame = u.val := hf
      rw [this, frameTower, dif_pos u.isLt]
    rw [hr]
    simp only [hc, if_true, ht, hg]
    rw [if_pos (show (r.place a).offset < g.imageLen r.frameSize from ho)]
    rw [hb]
    rfl

/-- The watch over one word of a granted outside write (R37). -/
theorem State.watch_madeUnfit {s : State} {w : PortWord} (h : w.dir = .write) :
    s.coverage.madeUnfit (s.watch w).coverage (s.coverage.holdsWord (wordAddr w.addr))
      ∧ (s.watch w).coverage.geometry = s.coverage.geometry := by
  unfold State.watch
  split
  · rename_i n
    refine ⟨Coverage.madeUnfit_refl _ fun bk u k => ?_, rfl⟩
    rw [← Coverage.imageFrame_iff, show wordAddr w.addr = w.word from rfl, n] at k
    cases k
  · rename_i bk t e
    rw [if_pos h]
    obtain ⟨a, b⟩ := Coverage.unfit_madeUnfit bk t s.coverage
    refine ⟨Coverage.madeUnfit_congr a fun k u => ?_, b⟩
    rw [← Coverage.imageFrame_iff, show wordAddr w.addr = w.word from rfl, e]
    constructor
    · rintro ⟨rfl, rfl⟩
      rfl
    · intro x
      have y := Option.some.inj x
      exact ⟨(congrArg Prod.fst y).symm, (congrArg Prod.snd y).symm⟩

/-- Two coverage units with one range and one set of geometry records have their images at the same places. -/
theorem Coverage.holdsWord_congr {c d : Coverage} (hr : d.range = c.range) (hg : d.geometry = c.geometry) (a : Nat) :
    d.holdsWord a = c.holdsWord a := by
  funext bk u
  unfold Coverage.holdsWord
  rw [hr, hg]

/-- The watch over the words of a granted request that writes (R37). -/
theorem State.watchAll_madeUnfit {r : IReq} (hr : r.watched = true) {ws : List PortWord}
    (h : ∀ w ∈ ws, w.dir = .write) (s : State) :
    s.coverage.madeUnfit (s.watchAll r ws).coverage (fun bk u => ∃ w ∈ ws, s.coverage.holdsWord (wordAddr w.addr) bk u)
      ∧ (s.watchAll r ws).coverage.geometry = s.coverage.geometry := by
  unfold State.watchAll
  rw [if_pos hr]
  induction ws generalizing s with
  | nil => exact ⟨Coverage.madeUnfit_refl _ (by simp), rfl⟩
  | cons w ws ih =>
    obtain ⟨a, ga⟩ := State.watch_madeUnfit (s := s) (h w List.mem_cons_self)
    obtain ⟨b, gb⟩ := ih (fun v hv => h v (List.mem_cons_of_mem w hv)) (s.watch w)
    refine ⟨Coverage.madeUnfit_congr (Coverage.madeUnfit_trans a b) fun bk u => ?_, gb.trans ga⟩
    have e := Coverage.holdsWord_congr a.2.2.2.2.2.1 ga
    simp only [List.mem_cons, exists_eq_or_imp, e]

end Sys2Proof.Machine
end

