-- ==== Sys2Proof/Laws/Waiters.lean ====
section
/-! SUPPORT. The writes that wait for the fold latch, when it empties: the fold a write makes where its checks pass, and
what becomes of the whole list (R25, R26, R39). -/

namespace Sys2Proof.Machine

/-- A word of the coverage range lies where the range places it (R21, R22). -/
theorem Coverage.holdsWord_place {c : Coverage} {r : CoverRange} {u : Tower} {g : Geometry} {a : Nat}
    (hr : c.range = some r) (ha : r.covers a = true) (hu : frameTower (r.place a).frame = some u)
    (hg : c.geometry[u] = some g) (ho : (r.place a).offset < g.imageLen r.frameSize) :
    c.holdsWord a (r.place a).bank u := by
  simp only [CoverRange.covers, Bool.and_eq_true, decide_eq_true_eq] at ha
  unfold frameTower at hu
  split at hu
  · cases hu
    exact ⟨r, g, hr, ha.1, ha.2, rfl, rfl, hg, ho⟩
  · cases hu

/-- A fold is what a write makes that passes the checks of R26. -/
theorem State.foldOf_some {s : State} {a : Access} {f : Fold} (h : s.foldOf a = some f) :
    s.foldable s.coverage a ∧ f.cls = a.cls ∧ f.addr = wordAddr a.addr.toNat ∧ f.new = a.data ∧ f.old = none
      ∧ f.void = false ∧ s.coverage.holdsWord f.addr f.bank f.tower := by
  unfold State.foldOf at h
  split at h
  · cases h
  · rename_i r hr
    dsimp only at h
    split at h
    · cases h
    · rename_i u hu
      split at h
      · cases h
      · rename_i g hg
        split at h
        · rename_i hc
          cases h
          have hw := Coverage.holdsWord_place hr hc.2.1 hu hg hc.2.2.2.2
          exact ⟨⟨hc.1, _, _, hw, hc.2.2.1, hc.2.2.2.1⟩, rfl, rfl, rfl, rfl, rfl, hw⟩
        · cases h

/-- A write makes no fold where it fails a check. -/
theorem State.foldOf_isSome {s : State} {a : Access} (h : s.foldable s.coverage a) : (s.foldOf a).isSome = true := by
  obtain ⟨hp, bk, u, ⟨r, g, hr, h1, h2, hb, hf, hg, ho⟩, hs, hfit⟩ := h
  have hu : frameTower (r.place (Access.word a)).frame = some u := by
    show frameTower ((wordAddr a.addr.toNat - r.base) % (r.size / 2) / (r.size / 32)) = some u
    rw [hf, frameTower, dif_pos u.isLt]
  have hc : r.covers (Access.word a) = true := by
    simp only [CoverRange.covers, Bool.and_eq_true, decide_eq_true_eq]
    exact ⟨h1, h2⟩
  have hk : (r.place (Access.word a)).bank = bk := hb.symm
  unfold State.foldOf
  rw [hr]
  dsimp only
  rw [hu]
  dsimp only
  rw [hg]
  dsimp only
  rw [if_pos ⟨hp, hc, by rw [hk]; exact hs, by rw [hk]; exact hfit, ho⟩]
  rfl

/-- A class on the list fails when it is taken. -/
def State.failsWith (s : State) (d : MasterClass) (b : Access) : Prop :=
  s.overtakenWith d b ∨ (s.waitsWith d b ∧ ¬s.foldable s.coverage b)

/-- A write that fails when it is taken is refused. -/
theorem State.takeWaiter_refused {s : State} {d : MasterClass} {b : Access} (h : s.failsWith d b) :
    ∃ x, s.bus.get d = some x ∧ s.takeWaiter x = s.refuseFold b ∧ b.cls = d := by
  rcases h with ⟨h, e⟩ | ⟨⟨h, e⟩, hf⟩
  · exact ⟨_, h, by simp [State.takeWaiter], e⟩
  · refine ⟨_, h, ?_, e⟩
    have : s.foldOf b = none := by
      cases hk : s.foldOf b with
      | none => rfl
      | some f => exact absurd (State.foldOf_some hk).1 hf
    simp [State.takeWaiter, State.takeFold, this]

/-- A refused fold leaves the coverage unit and every other class alone. -/
theorem State.refuseFold_spec (b : Access) (s : State) :
    (s.refuseFold b).coverage = s.coverage ∧ (s.refuseFold b).control.part = s.control.part
      ∧ (s.refuseFold b).turnedAway b.cls
      ∧ (∀ d : MasterClass, d ≠ b.cls → (s.refuseFold b).bus.get d = s.bus.get d
        ∧ (s.refuseFold b).lastResponse.get d = s.lastResponse.get d)
      ∧ (s.refuseFold b).control.flags.getLsbD (flagBit .bankRefused) = true := by
  have hb : (s.refuseFold b).bus = s.bus.put b.cls none := rfl
  have hl : (s.refuseFold b).lastResponse = s.lastResponse.put b.cls (some .busError) := rfl
  have hf : (s.refuseFold b).control.flags = s.control.flags ||| BitVec.twoPow 14 (flagBit .bankRefused) := by
    rw [← State.raise_flags]
    simp [State.refuseFold, State.refuse]
  refine ⟨by simp [State.refuseFold], by simp [State.refuseFold, State.refuse], ⟨by rw [hb]; simp, by rw [hl]; simp⟩,
    fun d hd => ⟨by rw [hb]; simp [hd], by rw [hl]; simp [hd]⟩, ?_⟩
  rw [hf]
  simp [flagBit]

/-- The writes that fail, at the head of the list, are refused one after another. -/
theorem State.takeWaiting_refused (pre rest : List MasterClass) {s : State} (hl : s.coverage.latch = none)
    (hn : pre.Nodup) (hp : ∀ d ∈ pre, ∃ b, s.failsWith d b) :
    ∃ s1 : State, State.takeWaiting (pre ++ rest) s = State.takeWaiting rest s1 ∧ s1.coverage = s.coverage
      ∧ s1.control.part = s.control.part ∧ (∀ d ∈ pre, s1.turnedAway d)
      ∧ (∀ d, d ∉ pre → s1.bus.get d = s.bus.get d ∧ s1.lastResponse.get d = s.lastResponse.get d)
      ∧ (pre ≠ [] ∨ s.control.flags.getLsbD (flagBit .bankRefused) = true →
        s1.control.flags.getLsbD (flagBit .bankRefused) = true) := by
  induction pre generalizing s with
  | nil => exact ⟨s, rfl, rfl, rfl, fun d hd => by simp at hd, fun d _ => ⟨rfl, rfl⟩,
    fun h => h.elim (absurd rfl) id⟩
  | cons d ds ih =>
    obtain ⟨hd, hds⟩ := List.nodup_cons.mp hn
    obtain ⟨b, hb⟩ := hp d List.mem_cons_self
    obtain ⟨x, hx, ht, hc⟩ := State.takeWaiter_refused hb
    obtain ⟨r1, r2, r3, r4, r5⟩ := State.refuseFold_spec b s
    rw [hc] at r3 r4
    have hstep : State.takeWaiting (d :: ds ++ rest) s = State.takeWaiting (ds ++ rest) (s.refuseFold b) := by
      simp only [List.cons_append, State.takeWaiting, hx, ht]
      rw [if_neg (by rw [r1, hl]; simp)]
    obtain ⟨s1, e1, e2, e3, e4, e5, e6⟩ := ih (s := s.refuseFold b) (by rw [r1]; exact hl) hds (fun c hcs => by
      obtain ⟨b2, h2⟩ := hp c (List.mem_cons_of_mem _ hcs)
      refine ⟨b2, ?_⟩
      have hne : c ≠ d := fun e => hd (e ▸ hcs)
      unfold State.failsWith State.overtakenWith State.waitsWith State.foldable at h2 ⊢
      rw [(r4 c hne).1, r1, r2]
      exact h2)
    refine ⟨s1, hstep.trans e1, e2.trans r1, e3.trans r2, fun c hcs => ?_, fun c hcs => ?_, fun _ => e6 (Or.inr r5)⟩
    · rcases List.mem_cons.mp hcs with rfl | hm
      · unfold State.turnedAway
        rw [(e5 c hd).1, (e5 c hd).2]
        exact r3
      · exact e4 c hm
    · rw [List.mem_cons, not_or] at hcs
      exact ⟨(e5 c hcs.2).1.trans (r4 c hcs.1).1, (e5 c hcs.2).2.trans (r4 c hcs.1).2⟩

/-- What becomes of the waiting writes when the latch of a state empties, over another state with the same accesses
waiting and the same part state. -/
theorem State.emptyLatch_taken {s s1 : State} (hw : s1.coverage.waiting = s.coverage.waiting)
    (hp : s1.control.part = s.control.part) (hb : ∀ d ∈ s.coverage.waiting, s1.bus.get d = s.bus.get d) :
    s.waitersTaken s1.coverage s1.emptyLatch := by
  intro pre hn hf
  have start : ∀ rest, s.coverage.waiting = pre ++ rest → ∃ s2 : State, s1.emptyLatch = State.takeWaiting rest s2
      ∧ s2.coverage = (s1.setLatch none).coverage ∧ s2.control.part = s.control.part
      ∧ (∀ d ∈ pre, s2.turnedAway d) ∧ (∀ d ∈ rest, s2.bus.get d = s.bus.get d)
      ∧ (pre ≠ [] → s2.control.flags.getLsbD (flagBit .bankRefused) = true) := by
    intro rest hr
    have hn' := hr ▸ hn
    obtain ⟨n1, n2, n3⟩ := List.nodup_append.mp hn'
    obtain ⟨s2, e1, e2, e3, e4, e5, e6⟩ := State.takeWaiting_refused pre rest (s := s1.setLatch none) rfl n1
      (fun d hd => by
        obtain ⟨b, h⟩ := hf d hd
        refine ⟨b, ?_⟩
        have hbd : (s1.setLatch none).bus.get d = s.bus.get d := hb d (hr ▸ List.mem_append_left _ hd)
        unfold State.failsWith State.overtakenWith State.waitsWith State.foldable
        unfold State.overtakenWith State.waitsWith State.foldable at h
        rw [hbd, show (s1.setLatch none).control.part = s.control.part from hp]
        exact h)
    refine ⟨s2, ?_, e2, e3.trans hp, e4, fun d hd => ?_, fun h => e6 (Or.inl h)⟩
    · rw [← e1, ← hr, ← hw]
      rfl
    · exact (e5 d (fun h => n3 d h d hd rfl)).1.trans (hb d (hr ▸ List.mem_append_right _ hd))
  refine ⟨fun h => ?_, fun x cs b h hx hfold => ?_⟩
  · obtain ⟨s2, e1, e2, _, e4, _, e6⟩ := start [] (by simpa using h)
    rw [e1]
    exact ⟨by show s2.coverage.latch = none; rw [e2]; rfl, rfl, e4, e6⟩
  · obtain ⟨s2, e1, e2, e3, e4, e5, e6⟩ := start (x :: cs) h
    have hn' := h ▸ hn
    obtain ⟨_, n2, n3⟩ := List.nodup_append.mp hn'
    have hx2 : s2.bus.get x = some ⟨b, .waitLatch⟩ := (e5 x List.mem_cons_self).trans hx.1
    have hfold2 : s2.foldable s2.coverage b := by
      rw [e2]
      exact ⟨e3.trans hfold.1, hfold.2⟩
    obtain ⟨f, hk⟩ := Option.isSome_iff_exists.mp (State.foldOf_isSome hfold2)
    obtain ⟨_, f1, f2, f3, f4, f5, f6⟩ := State.foldOf_some hk
    have e7 : s1.emptyLatch = ((s2.setLatch (some f)).claim b .foldRead).setWaiting cs := by
      rw [e1]
      simp only [State.takeWaiting, hx2, State.takeWaiter, State.takeFold, hk]
      rfl
    have hcl : b.cls = x := hx.2
    have hbus : ∀ d, s1.emptyLatch.bus.get d = if d = x then some ⟨b, .claim .foldRead⟩ else s2.bus.get d := by
      intro d
      rw [e7, ← hcl]
      exact PerClass.get_put _ _ _ _
    refine ⟨⟨f, by rw [e7]; rfl, f1.trans hcl, f2, f3, f4, f5, ?_⟩, by rw [hbus, if_pos rfl], by rw [e7]; rfl,
      fun d hd => ?_, fun d hd => ?_, fun hne => ?_⟩
    · rw [e2] at f6
      exact f6
    · have : d ≠ x := fun e => n3 d hd x List.mem_cons_self e
      obtain ⟨h1, h2⟩ := e4 d hd
      refine ⟨by rw [hbus, if_neg this]; exact h1, ?_⟩
      rw [e7]
      exact h2
    · have : d ≠ x := fun e => (List.nodup_cons.mp n2).1 (e ▸ hd)
      rw [hbus, if_neg this]
      exact e5 d (List.mem_cons_of_mem _ hd)
    · rw [e7]
      exact e6 hne

/-- The taking of a write changes what its own class has, and no other's. -/
theorem State.takeWaiter_other {s : State} {x : BusAccess} {c : MasterClass} (h : c ≠ x.access.cls) :
    (s.takeWaiter x).bus.get c = s.bus.get c ∧ (s.takeWaiter x).lastResponse.get c = s.lastResponse.get c := by
  have refused := (State.refuseFold_spec x.access s).2.2.2.1 c h
  unfold State.takeWaiter
  split
  · exact refused
  · unfold State.takeFold
    split
    · exact refused
    · exact ⟨(PerClass.get_put _ _ _ _).trans (if_neg h), rfl⟩

/-- A class that waits for nothing keeps what it has when the waiting writes are taken. -/
theorem State.takeWaiting_other (l : List MasterClass) {s : State} (h : s.inOrder l) {c : MasterClass} (hc : c ∉ l) :
    (State.takeWaiting l s).bus.get c = s.bus.get c
      ∧ (State.takeWaiting l s).lastResponse.get c = s.lastResponse.get c := by
  induction l generalizing s with
  | nil => exact ⟨rfl, rfl⟩
  | cons d ds ih =>
    obtain ⟨h1, h2, h3⟩ := h
    obtain ⟨hn, hs⟩ := List.nodup_cons.mp h3
    obtain ⟨x, hx, _⟩ := h2 d List.mem_cons_self
    rw [List.mem_cons, not_or] at hc
    have hds : s.inOrder ds := ⟨h1, fun y hy => h2 y (List.mem_cons_of_mem _ hy), hs⟩
    have hcls := h1 d x hx
    have one := State.takeWaiter_other (s := s) (x := x) (c := c) (hcls ▸ hc.1)
    simp only [State.takeWaiting, hx]
    split
    · exact one
    · obtain ⟨e1, e2⟩ := ih (State.inOrder_takeWaiter hds (hcls.symm ▸ hn)) hc.2
      exact ⟨e1.trans one.1, e2.trans one.2⟩

/-- A class that waits for nothing keeps what it has when the latch empties. -/
theorem State.emptyLatch_other {s : State} (h : s.accessesOk) {c : MasterClass} (hc : c ∉ s.coverage.waiting) :
    s.emptyLatch.bus.get c = s.bus.get c ∧ s.emptyLatch.lastResponse.get c = s.lastResponse.get c :=
  State.takeWaiting_other _ (State.inOrder_bus (t := s.setLatch none) h rfl) hc

end Sys2Proof.Machine
end

