-- ==== Sys2Proof/Tests/Slice0.lean ====
section
/-! SUPPORT. Small tests: an ill-formed operand for each check of WellFormed, values the manual works out, and for
each statement a state and operands that meet its hypotheses, one for each clause, at the ends of its ranges. -/

namespace Sys2Proof.Tests

open Sys2Proof Sys2Proof.Machine

set_option Elab.async false

/-! ### WellFormed -/

/-- Enables that name no byte are refused. -/
theorem test_wf_plainAccess : Instr.wf (.plainAccess ⟨.console, 0, .read, 0, 0⟩) = false := by decide
theorem test_wf_refusedWrite : Instr.wf (.refusedWrite .console 0 0 0) = false := by decide
theorem test_wf_misfitWrite : Instr.wf (.misfitWrite .console 0 0 0) = false := by decide
theorem test_wf_liveRead : Instr.wf (.liveRead .console 0 0) = false := by decide
/-- An image of more than 8192 bytes is refused. -/
theorem test_wf_headerRead : Instr.wf (.headerRead (List.replicate 8193 0)) = false := by decide +kernel
theorem test_wf_sectionRead : Instr.wf (.sectionRead (List.replicate 8193 0)) = false := by decide +kernel
theorem test_wf_sectionReload : Instr.wf (.sectionReloadComplete (List.replicate 8193 0)) = false := by decide +kernel
theorem test_wf_good : Instr.wf (.plainAccess ⟨.console, 0, .read, 1, 0⟩) = true
    ∧ Instr.wf (.headerRead (List.replicate 8192 0)) = true ∧ Instr.wf .sheet = true := by decide +kernel

/-! ### Values the manual works out -/

/-- A full-scale curve value at both ends and between two points (R41). -/
theorem test_curve : evalCurve linearCurve 0 = 0 ∧ evalCurve linearCurve 999 = 999 ∧ evalCurve linearCurve 1000 = 1000
    ∧ evalCurve linearCurve 250 = 250 := by decide +kernel

/-- A ramp that opens and one that closes, rounding toward zero (R46). -/
theorem test_ramp : (Ramp.mk 100 201 1 2).value = 150 ∧ (Ramp.mk 201 100 1 2).value = 151 := by decide +kernel

/-- A fold: margin changes no sum, and two columns of one key both count (R28). -/
theorem test_fold :
    (foldSums [none, some 0, some 0, some 1] 0x01020304#32 0x11223344#32 Frame.fresh).sums.toList.take 3
      = [0x33 - 3 + (0x22 - 2), 0x11 - 1, 0] := by decide +kernel

/-! ### A small machine -/

/-- Six windows: CONTROL, LIVE, COVERAGE, MEASURE, GUARD, ORDERS. -/
def windows0 : WindowTable :=
  [some ⟨.control, 0x1000, 128, 7, 8⟩, some ⟨.live, 0x8000, 16384, 7, 8⟩, some ⟨.coverage, 0x100000, 0x8000, 7, 8⟩,
    some ⟨.measure, 0x4000, 2048, 7, 8⟩, some ⟨.guard, 0x20000, 64, 0, 8⟩, some ⟨.orders, 0x2000, 2048, 7, 8⟩, none,
    none]

/-- A configured tower: eight keys and a fountain, Omax 800. -/
def tower0 : TowerState :=
  { TowerState.reset with
    service := .printing
    parkHold := false
    cfg := some ⟨8, 800, 0, true, 0⟩
    settings := some ⟨1450, 400, 20, 30, 60, 10, 50⟩
    address := some 1 }

/-- A geometry of eight keys over 96 columns, with a margin at each side. -/
def geometry0 : Geometry := ⟨96, 8, [4, 10, 16, 22, 28, 34, 40, 46, 52]⟩

/-- A RUNNING part with one configured tower, an order table of 64 records and a coverage range of 32 KB. -/
def run0 : State :=
  { State.reset with
    windows := windows0
    control := { Control.reset with part := .running }
    loader := ⟨.idle, none, Staged.empty, ⟨true, [], []⟩⟩
    engine := { Engine.reset with table := some ⟨0x2000, 64⟩ }
    towers := State.reset.towers.set 0 tower0
    coverage :=
      { Coverage.reset with
        range := some ⟨0x100000, 0x8000⟩
        geometry := Coverage.reset.geometry.set 0 (some geometry0) } }

/-- The transmitter in its gap, its pointer at a tower. -/
def gap (p : Tower) (s : State) : State := { s with link := { s.link with tx := .gap, pointer := p } }

/-- What a command leaves, tested. -/
def after (i : Instr) (s : State) (p : State → Bool) : Bool :=
  match exec i s with
  | .next t => p t
  | _ => false

/-- The address of a control word. -/
def ctl (w : CtlWord) : Addr := BitVec.ofNat 28 (0x1000 + 4 * w.val)

/-- Tower 0 changed. -/
def State.tower0 (s : State) (f : TowerState → TowerState) : State := { s with towers := s.towers.set 0 (f s.towers[0]) }

/-- The banks' states changed. -/
def State.banks (s : State) (a b : BankState) : State :=
  { s with coverage := (s.coverage.setState .a a).setState .b b }

/-- The engine changed. -/
def State.eng (s : State) (f : Engine → Engine) : State := { s with engine := f s.engine }

/-- An access that holds the port for a purpose. -/
def State.holding (s : State) (a : Access) (p : Purpose) (w : PortWord) : State :=
  { s with
    bus := s.bus.put a.cls (some ⟨a, .granted p⟩)
    port := { s.port with holder := some (.passThrough a.cls w) } }

/-- A request that holds the port. -/
def State.requesting (s : State) (r : IReq) : State :=
  { s with port := { s.port with holder := some (.internal r (s.reqWords r) false) } }

/-- Every full-word write of the console to an owned control word is admitted. -/
theorem test_admits (s : State) (hb : s.bus.get .console = none) (hp : s.control.part = .running)
    (hw : s.windows = windows0) (w : CtlWord) (ho : ownedWord w = true) (d : Word) :
    s.admitsCommand .console (ctl w) d w := by
  have key : ∀ v : CtlWord, findWindow (ctl v).toNat windows0 = some ⟨.control, 0x1000, 128, 7, 8⟩
      ∧ controlWordOf ⟨.control, 0x1000, 128, 7, 8⟩ (ctl v).toNat = v := by decide +kernel
  refine ⟨ho, ⟨.control, 0x1000, 128, 7, 8⟩, ⟨hb, ?_, rfl, rfl, by show inMask 8 .console = false; decide,
    by show inMask 7 .console = true; decide⟩, (key w).2⟩
  unfold State.windowOf
  rw [if_pos hp, hw]
  exact (key w).1

/-- The command statements' hypothesis, at the first and the last of the owned words. -/
theorem test_admits_run0 : run0.admitsCommand .console (ctl 0) 0 0 ∧ run0.admitsCommand .console (ctl 27) 0 27 :=
  ⟨test_admits run0 rfl rfl rfl 0 rfl 0, test_admits run0 rfl rfl rfl 27 rfl 0⟩

/-! ### The machine -/

/-- Accesses with nothing in progress and nothing waiting are in order. -/
theorem test_accessesOk (s : State) (hb : s.bus = ⟨none, none, none, none⟩) (hw : s.coverage.waiting = []) :
    s.accessesOk := by
  unfold State.accessesOk
  rw [hb, hw]
  exact ⟨fun c x h => (by cases c <;> cases h), by simp, List.nodup_nil⟩

/-- The invariants' hypotheses, in a state with a command to take. -/
theorem test_Invariants_reset : State.memCanonical { State.reset with pending := [.sheet] }
    ∧ State.lineExact { State.reset with pending := [.sheet] }
    ∧ State.inRanges { State.reset with pending := [.sheet] }
    ∧ State.accountOk { State.reset with pending := [.sheet] }
    ∧ State.accessesOk { State.reset with pending := [.sheet] }
    ∧ ∃ t, step { State.reset with pending := [.sheet] } = .next t := by
  have h : ∀ t : Tower, (State.reset.towers[t]) = TowerState.reset := by
    intro t
    simp [State.reset]
  refine ⟨rfl, rfl, ⟨fun t sl => ?_, fun t ls e => ?_, fun t c e => ?_, fun _ t => ?_⟩, fun t => ?_,
    test_accessesOk _ rfl rfl, _, rfl⟩
  · show (State.reset.towers[t].recs[sl]).inRange State.reset.towers[t].cfg sl
    simp only [h]
    exact within_reset.2.2 sl
  · have e' : State.reset.towers[t].settings = some ls := e
    rw [h] at e'
    cases e'
  · have e' : Staged.empty.towers[t] = some c := e
    rw [empty_get] at e'
    cases e'
  · show State.reset.towers[t].cfg = none
    rw [h]
    rfl
  · show (State.reset.towers[t]).accountOk
    rw [h]
    exact accountOk_reset

theorem test_StepRunsTheFrontCommand : State.pending { State.reset with pending := [.sheet] } = Instr.sheet :: []
    ∧ State.reset.pending = [] := ⟨rfl, rfl⟩

theorem test_CurveEvaluation : linearCurve.length = 11 ∧ curveValid linearCurve = true ∧ 0 ≤ 1000
    ∧ 1000 ≤ 1000 ∧ (1000 = 1000) ∧ 999 ≠ 1000 ∧ 900 % 100 = 0 := by decide

/-- A tower with a HALT to send, one with a QUERY ALL, one with a move to dispatch, one with four in flight. -/
def queued0 (flight : List Slot) : TowerState :=
  { ({ tower0 with recs := tower0.recs.set 0 { KeyRec.reset with move := .queued, commanded := some 0, target := 5 } } :
      TowerState) with queue := [0], flight := flight }

theorem test_ServiceSendsOneFrame :
    ((State.tower0 run0 (fun _ => { tower0 with haltPending := true })).towers[(0 : Tower)]).haltPending = true
      ∧ (TowerState.haltPending { tower0 with queryPending := true }) = false
      ∧ (queued0 []).haltPending = false ∧ (queued0 []).queryPending = false ∧ (queued0 []).queue = 0 :: []
      ∧ admitsMoves (queued0 []).service = true ∧ (queued0 [1, 2, 3]).flight.length < 4
      ∧ ((queued0 []).recs[(0 : Slot)]).commanded.isSome = true ∧ 4 ≤ (queued0 [1, 2, 3, 4]).flight.length
      ∧ (queued0 []).hasWork = true ∧ tower0.queue = [] := by decide +kernel

/-- The check of a MOVE frame's six bytes, and a byte on the line (R82, R84). -/
theorem test_Line : crc8 [1, 1, 0, 0, 0, 5] = (frameBytes 1 1 0 0 5).getD 7 0
    ∧ serialByte 0xA5 = [false, true, false, true, false, false, true, false, true, true]
    ∧ readByte [false, true, false, true, false, false, true, false, true, false] = some (.byte 0xA5 false)
    ∧ (TxState.sending [0xA5]).levels.length = 10 := by decide +kernel

/-! ### Press-bus accesses -/

/-- The window of an access: both ends of an entry and its neighbours, an entry in front of another at its first address
and just below it, a part that is not RUNNING (R4, R5). -/
theorem test_Window_entry :
    run0.windowOf ⟨.console, 0x4000, .read, 1, 0⟩ = some ⟨.measure, 0x4000, 2048, 7, 8⟩
      ∧ run0.windowOf ⟨.console, 0x47FF, .read, 1, 0⟩ = some ⟨.measure, 0x4000, 2048, 7, 8⟩
      ∧ run0.windowOf ⟨.console, 0x3FFF, .read, 1, 0⟩ = none ∧ run0.windowOf ⟨.console, 0x4800, .read, 1, 0⟩ = none
      ∧ State.windowOf { run0 with windows := some ⟨.guard, 0x4004, 64, 0, 8⟩ :: none :: windows0.take 6 }
          ⟨.console, 0x4004, .read, 1, 0⟩ = some ⟨.guard, 0x4004, 64, 0, 8⟩
      ∧ State.windowOf { run0 with windows := some ⟨.guard, 0x4004, 64, 0, 8⟩ :: none :: windows0.take 6 }
          ⟨.console, 0x4003, .read, 1, 0⟩ = some ⟨.measure, 0x4000, 2048, 7, 8⟩
      ∧ State.windowOf { run0 with control := Control.reset } ⟨.console, 0x4000, .read, 1, 0⟩ = none := by decide +kernel

theorem test_PlainAccess_noWindow : run0.bus.get .console = none ∧ run0.isPlain ⟨.console, 0x3000, .write, 15, 1⟩ :=
  ⟨rfl, Or.inl (by decide +kernel)⟩

theorem test_PlainAccess_read : run0.isPlain ⟨.service, 0x1000, .read, 1, 0⟩ :=
  Or.inr ⟨⟨.control, 0x1000, 128, 7, 8⟩, by decide +kernel, by decide, Or.inl rfl⟩

theorem test_PlainAccess_guard : run0.isPlain ⟨.console, 0x20000, .write, 15, 1⟩ :=
  Or.inr ⟨⟨.guard, 0x20000, 64, 0, 8⟩, by decide +kernel, by decide, Or.inr ⟨rfl, by decide, Or.inl (by decide)⟩⟩

theorem test_PlainAccess_orders : run0.isPlain ⟨.console, 0x2000, .write, 3, 1⟩ :=
  Or.inr ⟨⟨.orders, 0x2000, 2048, 7, 8⟩, by decide +kernel, by decide,
    Or.inr ⟨rfl, by decide, Or.inr (Or.inl rfl)⟩⟩

theorem test_PlainAccess_unowned : run0.isPlain ⟨.console, 0x103C, .write, 15, 1⟩ :=
  Or.inr ⟨⟨.control, 0x1000, 128, 7, 8⟩, by decide +kernel, by decide,
    Or.inr ⟨rfl, by decide, Or.inr (Or.inr (Or.inr ⟨rfl, by decide, by decide +kernel⟩))⟩⟩

theorem test_RefusedWriteIsAnswered : run0.bus.get .service = none
    ∧ run0.windowOf ⟨.service, 0x103F, .write, 8, 1⟩ = some ⟨.control, 0x1000, 128, 7, 8⟩
    ∧ inMask 8 .service = true := by decide +kernel

theorem test_MisfitWrite_partial :
    run0.matched .control ⟨.control, 0x1000, 128, 7, 8⟩ ⟨.console, 0x1000, .write, 14, 1⟩
      ∧ (14 : BitVec 4) ≠ 15 := by
  unfold State.matched
  decide +kernel

theorem test_MisfitWrite_noTrim : run0.matched .live ⟨.live, 0x8000, 16384, 7, 8⟩ ⟨.console, 0x831C, .write, 15, 1⟩
    ∧ run0.trimTarget (wordAddr 0x831C - 0x8000) = none := by
  unfold State.matched
  decide +kernel

/-- The trim words: the first and the last key of tower 0 and the words beside them, its fountain and the word after it,
the first slot of a tower that is not configured, an area of no tower (R12, R14, 12.4). -/
theorem test_Trim_target : run0.trimTarget 799 = none ∧ run0.trimTarget 800 = some (0, 0)
    ∧ run0.trimTarget 803 = some (0, 0) ∧ run0.trimTarget 828 = some (0, 7) ∧ run0.trimTarget 832 = none
    ∧ run0.trimTarget 992 = some (0, 48) ∧ run0.trimTarget 996 = none ∧ run0.trimTarget 1824 = none
    ∧ State.trimTarget { run0 with towers := run0.towers.set 11 tower0 } (1024 * 11 + 992) = some (11, 48)
    ∧ run0.trimTarget (12 * 1024 + 800) = none := by decide +kernel

theorem test_LiveRead_matched : run0.bus.get .console = none
    ∧ run0.windowOf ⟨.console, 0x8000, .read, 1, 0⟩ = some ⟨.live, 0x8000, 16384, 7, 8⟩
    ∧ run0.windowOf ⟨.service, 0xBFFF, .read, 8, 0⟩ = some ⟨.live, 0x8000, 16384, 7, 8⟩ := by decide +kernel

theorem test_LiveRead_view : run0.towers[(0 : Tower)].configured = true
    ∧ run0.towers[(0 : Tower)].present 0 = true ∧ run0.towers[(0 : Tower)].present 48 = true
    ∧ (run0.towers[(0 : Tower)].recs[(48 : Slot)]).target < 65536
    ∧ run0.towers[(0 : Tower)].present 8 = false ∧ run0.towers[(11 : Tower)].present 0 = false := by decide +kernel

/-- A tower that is not configured, the summary of one that is, and coverage at its ends: not available for a bank not
OPEN, for an UNFIT frame; 0, and full for a key of ten columns in one row (R13, R24). -/
theorem test_LiveRead_rest : run0.towers[(1 : Tower)].service = .unconfigured ∧ 1023 < 1024
    ∧ run0.liveWord 1000 = 4 ∧ run0.liveWord 1004 = 0x900#32 ∧ run0.coverage.read .a 0 0 = 65535
    ∧ (State.banks run0 .opened .locked).coverage.read .a 0 0 = 0
    ∧ (State.banks run0 .opened .locked).coverage.read .b 0 48 = 0
    ∧ ((State.banks run0 .opened .locked).coverage.unfit .a 0).read .a 0 0 = 65535
    ∧ ((State.banks run0 .opened .locked).coverage.modFrame .a 0 (fun f =>
        { f with sums := f.sums.set 0 15300 })).read .a 0 0 = 1000 := by decide +kernel

/-- An UNKNOWN opening is shown as 65535 (R13). -/
theorem test_LiveRead_unknown : run0.liveWord 0 = 0xFFFF0000#32 := by decide +kernel

theorem test_TrimWrite_first :
    run0.matched .live ⟨.live, 0x8000, 16384, 7, 8⟩ (fullWrite .console 0x8320 ((0 : Half) ++ (301 : Half)))
      ∧ run0.trimTarget (wordAddr 0x8320 - 0x8000) = some (0, 0) := by
  unfold State.matched
  decide +kernel

theorem test_TrimWrite_fountain :
    run0.matched .live ⟨.live, 0x8000, 16384, 7, 8⟩ (fullWrite .console 0x83E0 ((7 : Half) ++ (1 : Half)))
      ∧ run0.trimTarget (wordAddr 0x83E0 - 0x8000) = some (0, 48) := by
  unfold State.matched
  decide +kernel

/-- With the transmitter busy an IDLE key whose target leaves its commanded joins the queue (R55). -/
theorem test_TrimWrite_handsOn : (gap 0 run0).link.tx ≠ .idle
    ∧ after (.trimWrite .console 0x8320 9 0)
        (gap 0 (State.tower0 run0 (TowerState.mod 0 (fun r => { r with commanded := some 0 }))))
        (fun t => t.towers[(0 : Tower)].queue = [0]
          && t.towers[(0 : Tower)].recs[(0 : Slot)]
            = { KeyRec.reset with trim := 9, target := 9, commanded := some 0, move := .queued }) := by decide +kernel

/-- The composed target at its ends: under hold, at Omax, at 0, and the fountain's, its correction 0 (R53). -/
theorem test_composed :
    composed (some ⟨8, 800, 0, true, 0⟩) false 7 { KeyRec.reset with base := 700, trim := 300, correction := 200 } = 800
      ∧ composed (some ⟨8, 800, 0, true, 0⟩) false 48 { KeyRec.reset with base := 700, trim := 250, correction := 200 }
        = 950
      ∧ composed (some ⟨8, 800, 0, true, 0⟩) false 0 { KeyRec.reset with base := 100, trim := -300 } = 0
      ∧ composed (some ⟨8, 800, 0, true, 0⟩) false 0 { KeyRec.reset with base := 100, hold := true } = 0
      ∧ composed (some ⟨8, 800, 0, true, 0⟩) true 0 { KeyRec.reset with base := 100 } = 0 := by decide +kernel

/-- A trim beyond its range is clamped (R53). -/
theorem test_trim_clamped : after (.trimWrite .console 0x8320 301 0) run0
    (fun t => (t.towers[(0 : Tower)].recs[(0 : Slot)]).trim = 300) = true := by decide +kernel

/-- Open banks. -/
def open0 : State := State.banks run0 .opened .opened

theorem test_Coverage_taken_last : open0.matched .coverage ⟨.coverage, 0x100000, 0x8000, 7, 8⟩ (fullWrite .console 0x1043BC 1)
    ∧ open0.coverage.latch = none ∧ open0.coverage.range = some ⟨0x100000, 0x8000⟩
    ∧ (CoverRange.mk 0x100000 0x8000).covers (wordAddr 0x1043BC) = true
    ∧ ((CoverRange.mk 0x100000 0x8000).place (wordAddr 0x1043BC)) = ⟨.b, 0, 956⟩ := by
  unfold State.matched
  decide +kernel

theorem test_Coverage_taken_first :
    open0.matched .coverage ⟨.coverage, 0x100000, 0x8000, 7, 8⟩ (fullWrite .console 0x1003BC 1)
      ∧ (CoverRange.mk 0x100000 0x8000).covers (wordAddr 0x1003BC) = true
      ∧ ((CoverRange.mk 0x100000 0x8000).place (wordAddr 0x1003BC)) = ⟨.a, 0, 956⟩
      ∧ open0.coverage.geometry[(0 : Tower)] = some geometry0
      ∧ (open0.coverage.banks.get .a).state = .opened ∧ (open0.coverage.frame .a 0).fit = true
      ∧ 956 < geometry0.imageLen 1024 := by
  unfold State.matched
  decide +kernel

/-- The clauses of a refusal: a word outside the range, a bank not OPEN, frame 12, a tower with no geometry, an UNFIT
frame, the first word after the image (R26). -/
theorem test_Coverage_refused : (CoverRange.mk 0x100000 0x8000).covers 0x108000 = false
    ∧ (run0.coverage.banks.get .a).state ≠ .opened
    ∧ ((CoverRange.mk 0x100000 0x8000).place 0x103000).frame = 12
    ∧ ((CoverRange.mk 0x100000 0x8000).place 0x100400).frame = 1 ∧ open0.coverage.geometry[(1 : Tower)] = none
    ∧ ((open0.coverage.unfit .a 0).frame .a 0).fit = false
    ∧ geometry0.imageLen 1024 ≤ ((CoverRange.mk 0x100000 0x8000).place 0x1003C0).offset := by decide +kernel

/-- The owners of columns: both margins, the first and the last column of the first and of the last key, the column
after a key's last, a geometry with a key of no column and one whose keys overlap (R22). -/
theorem test_Column_owner : geometry0.owner 0 = none ∧ geometry0.owner 3 = none ∧ geometry0.owner 4 = some 0
    ∧ geometry0.owner 9 = some 0 ∧ geometry0.owner 10 = some 1 ∧ geometry0.owner 46 = some 7
    ∧ geometry0.owner 51 = some 7 ∧ geometry0.owner 52 = none ∧ geometry0.owner 95 = none
    ∧ geometry0.bounds[8]? = some 52 ∧ geometry0.k ≤ 48
    ∧ (Geometry.mk 96 2 [4, 4, 8]).owner 4 = some 1 ∧ (Geometry.mk 96 3 [0, 10, 5, 20]).owner 7 = some 0
    ∧ (Geometry.mk 96 3 [0, 10, 5, 20]).owner 19 = some 2 := by decide +kernel

theorem test_Column_ascending : ∀ i, i < geometry0.k → geometry0.bound i ≤ geometry0.bound (i + 1) := by decide +kernel

/-- A write refused leaves the other blocks alone. -/
theorem test_Coverage_refusedFrame : after (.foldTake .console 0x1003BC 1) run0
    (fun t => t.control.flags = 64 && t.engine = run0.engine && t.loop = run0.loop && t.link = run0.link
      && t.windows = run0.windows) = true := by decide +kernel

theorem test_Coverage_waits : after (.coverageWrite .console 0x1003BC 1) open0
    (fun t => after (.coverageWrite .prepress 0x1003B8 1) t (fun u => u.coverage.waiting = [.prepress])) = true := by
  decide +kernel

theorem test_MeasureWrites : run0.matched .measure ⟨.measure, 0x4000, 2048, 7, 8⟩ (fullWrite .scanbar 0x47F8 5)
    ∧ run0.matched .measure ⟨.measure, 0x4000, 2048, 7, 8⟩ (fullWrite .scanbar 0x47FC 1)
    ∧ (15 : Fin 16) = Fin.ofNat 16 ((0x47FC - 0x4000) / 128) ∧ run0.loop.slots[(15 : Fin 16)] = .free
    ∧ (0x47F8 - 0x4000) % 128 / 4 ≠ 31 ∧ (0x47FC - 0x4000) % 128 / 4 = 31 := by
  unfold State.matched
  decide +kernel

/-- A commit makes its slot BUSY; a further write to it is then refused (R144, R145). -/
theorem test_MeasureWrites_busy : after (.commit .scanbar 0x47FC 1) run0
    (fun t => after (.measureWrite .console 0x4780 5) t (fun u =>
      u.loop.slots[(15 : Fin 16)] = .busy && u.lastResponse.console = some .busError
        && u.loop.status.reason = .busy)) = true := by decide +kernel

/-! ### Commands in control words -/

theorem test_BadCode : unknownCode wordStart 0 = true ∧ unknownCode wordReload 2 = true ∧ unknownCode wordStop 3 = true
    ∧ unknownCode (wordBind .measure) 3 = true ∧ unknownCode wordBank 0 = true ∧ unknownCode wordBank 5 = true
    ∧ unknownCode (wordTower 11) 7 = true ∧ unknownCode wordBank 4 = false ∧ unknownCode (wordTower 0) 6 = false := by
  decide

/-- START at the table's end, in it, with the slot full, with a chain running (R131). -/
theorem test_Start_results :
    after (.start .console (ctl 0) 64 0) run0 (fun t => t.control.last[wordStart] = .refusedRange)
      ∧ after (.start .console (ctl 0) 63 0) run0 (fun t =>
          t.control.last[wordStart] = .accepted && t.engine.state = .fetching)
      ∧ after (.start .console (ctl 0) 63 0) (State.eng run0 (fun e => { e with slot := some 1 }))
          (fun t => t.control.last[wordStart] = .refusedBusy)
      ∧ after (.start .console (ctl 0) 63 0) (State.eng run0 (fun e => { e with state := .fetching }))
          (fun t => t.control.last[wordStart] = .queued && t.engine.slot = some 63) := by decide +kernel

theorem test_Stop_results :
    after (.stop .console (ctl 1) 0 0) run0 (fun t => t.control.last[wordStop] = .notRunning)
      ∧ after (.stop .console (ctl 1) 0 0) (State.eng run0 (fun e => { e with state := .fetching }))
          (fun t => t.control.last[wordStop] = .accepted && t.engine.stop)
      ∧ after (.stop .console (ctl 1) 63 0)
          (State.eng run0 (fun e => { e with state := .fetching, slot := some 63 }))
          (fun t => t.control.last[wordStop] = .accepted && t.engine.slot = none && !t.engine.stop)
      ∧ after (.stop .console (ctl 1) 5 0)
          (State.eng run0 (fun e => e.modBinding .measure (fun _ => ⟨true, true, 5⟩)))
          (fun t => t.control.last[wordStop] = .accepted && !t.engine.bindings.measure.pending) := by decide +kernel

/-- A key that ramps from 100 to 200, at its half way. -/
def ramped0 : KeyRec := { KeyRec.reset with base := 200, ramp := some ⟨100, 200, 1, 2⟩, commanded := some 150, target := 150 }

theorem test_ramped_ok : ramped0.rampOk := by
  intro p h
  cases h
  decide

theorem test_StopAll_freezes :
    (State.tower0 run0 (TowerState.mod 0 (fun _ => ramped0))).towers[(0 : Tower)].present 0 = true
      ∧ after (.stopAll .console (ctl 1) 0) (State.tower0 run0 (TowerState.mod 0 (fun _ => ramped0)))
          (fun t => (t.towers[(0 : Tower)].recs[(0 : Slot)]).base = 150) := by decide +kernel

theorem test_Arm_results :
    after (.arm .console (ctl 8) 64 1 0) run0 (fun t => t.control.last[wordBind .sheet] = .refusedRange)
      ∧ after (.arm .console (ctl 8) 63 0 0) run0 (fun t => t.control.last[wordBind .sheet] = .refusedRange)
      ∧ after (.arm .console (ctl 8) 63 255 0) run0 (fun t => t.engine.bindings.sheet = ⟨true, false, 63⟩ && t.engine.divisor = 255)
      ∧ after (.arm .console (ctl 12) 63 0 0) run0 (fun t => t.engine.bindings.measure = ⟨true, false, 63⟩) := by
  decide +kernel

theorem test_Disarm_unties :
    after (.disarm .console (ctl 9) 0)
      (State.eng run0 (fun e => { e.modBinding .jobchg (fun _ => ⟨true, true, 5⟩) with tie := some .jobchg }))
      (fun t => t.engine.bindings.jobchg = ⟨false, false, 5⟩ && t.engine.tie = none) = true := by decide +kernel

theorem test_Event_line :
    after (.eventEnable .console (ctl 3) 1 0) { run0 with control := { run0.control with flags := 1, noticeAddr := 4 } }
      (fun t => t.control.line && t.control.noticePending) = true := by decide +kernel

theorem test_Event_modes :
    after (.event .console (ctl 2) 3 0) { run0 with control := { run0.control with flags := 5 } }
        (fun t => t.control.flags = 4)
      ∧ after (.event .console (ctl 2) 3 0) { run0 with control := { run0.control with flags := 5, mode := .replace } }
        (fun t => t.control.flags = 3) := by decide +kernel

theorem test_Status_words :
    after (.refusal .console (ctl 6) 1) { run0 with control := { run0.control with capture := ⟨true, 7, .service⟩ } }
        (fun t => t.control.capture = Capture.empty)
      ∧ after (.measureStatus .console (ctl 7) 1)
          { run0 with loop := { run0.loop with status := { run0.loop.status with reason := .busy } } }
          (fun t => t.loop.status = MeasureStatus.cleared) := by decide +kernel

/-- A fold into the first row of tower 0 of bank A, its old word read or not. -/
def fold0 (old : Option Word) : Fold :=
  ⟨.console, .a, 0, 0x100008, 8, 0, 8, [some 0, some 0, some 1, some 1], 0x04030201, old, false, false⟩

/-- CLEAR in its clauses: a bank clearing, no range, a plan with no words, a plan (R30, R35). -/
theorem test_Clear_results : run0.coverage.clearing .a = false ∧ run0.coverage.clearing .b = false
    ∧ after (.clear .console (ctl 4) .a 0) (State.banks run0 .opened .clearing)
        (fun t => t.control.last[wordBank] = .refusedBusy)
    ∧ after (.clear .console (ctl 4) .a 0) { run0 with coverage := { run0.coverage with range := none } }
        (fun t => t.control.last[wordBank] = .refusedState)
    ∧ after (.clear .console (ctl 4) .b 0) run0
        (fun t => t.coverage.banks.b.state = .clearing && t.coverage.cursor = some ⟨.b, [⟨0x104000, 960⟩], 0, false⟩)
    ∧ after (.clear .console (ctl 4) .b 0) { run0 with coverage := { run0.coverage with geometry := Vector.replicate 12 none } }
        (fun t => t.coverage.banks.b.state = .opened && t.control.flags = 32) := by decide +kernel

/-- A fold into the bank that is cleared becomes void, one into the other bank stays as it is (R29, R30). -/
theorem test_Clear_latch :
    after (.clear .prepress (ctl 4) .a 0) { run0 with coverage := { run0.coverage with latch := some (fold0 none) } }
        (fun t => t.coverage.latch = some { fold0 none with void := true, cleared := true })
      ∧ after (.clear .prepress (ctl 4) .b 0) { run0 with coverage := { run0.coverage with latch := some (fold0 none) } }
        (fun t => t.coverage.latch = some (fold0 none)) := by decide +kernel

theorem test_Lock_results :
    after (.lock .console (ctl 4) .a 0) open0 (fun t => t.coverage.banks.a.state = .locked)
      ∧ after (.lock .console (ctl 4) .a 0) run0 (fun t => t.control.last[wordBank] = .refusedState)
      ∧ after (.unlock .console (ctl 4) .b 0) (State.banks run0 .stale .locked)
          (fun t => t.coverage.banks.b.state = .opened)
      ∧ after (.unlock .console (ctl 4) .b 0) open0 (fun t => t.control.last[wordBank] = .refusedState) := by
  decide +kernel

theorem test_Swap_results :
    after (.swap .console (ctl 4) 0) (State.banks run0 .stale .locked) (fun t => t.coverage.active = .b)
      ∧ after (.swap .console (ctl 4) 0) (State.banks run0 .locked .opened)
          (fun t => t.coverage.active = .a && t.control.last[wordBank] = .refusedState) := by decide +kernel

theorem test_Reload_results :
    after (.reload .console (ctl 14) 0) (State.banks run0 .clearing .locked)
      (fun t => t.control.part = .loading && t.coverage.banks.a.state = .stale && t.coverage.banks.b.state = .locked
        && t.loader.state = .readingHeader && t.windows = noWindows) = true := by decide +kernel

/-- A fold into a CLEARING bank becomes void by a RELOAD, one into another bank stays as it is (R29, R39). -/
theorem test_Reload_latch :
    after (.reload .prepress (ctl 14) 0)
        { State.banks run0 .clearing .locked with
          coverage := { (State.banks run0 .clearing .locked).coverage with
            latch := some ⟨.console, .a, 0, 0x100008, 8, 0, 8, [], 1, none, false, false⟩ } }
        (fun t => t.coverage.latch.map Fold.void = some true)
      ∧ after (.reload .prepress (ctl 14) 0)
        { State.banks run0 .locked .clearing with
          coverage := { (State.banks run0 .locked .clearing).coverage with
            latch := some ⟨.console, .a, 0, 0x100008, 8, 0, 8, [], 1, none, false, false⟩ } }
        (fun t => t.coverage.latch.map Fold.void = some false) := by decide +kernel

theorem test_Reload_holders :
    (State.requesting run0 (.clearWrite 0)).port.holder = some (.internal (.clearWrite 0) [⟨0, .write, 15, 0⟩] false)
      ∧ (State.holding run0 ⟨.service, 0, .read, 1, 0⟩ .plain ⟨0, .read, 1, 0⟩).port.holder
        = some (.passThrough .service ⟨0, .read, 1, 0⟩)
      ∧ after (.reload .console (ctl 14) 0)
        { run0 with port := { run0.port with holder := some (.orphan ⟨0, .read, 1, 0⟩) } }
        (fun t => t.port.holder = some (.orphan ⟨0, .read, 1, 0⟩)) := by decide +kernel

/-- Tower 0 in a service state. -/
def serving (x : Service) (hold : Bool) : State := State.tower0 run0 (fun t => { t with service := x, parkHold := hold })

/-- WAKE from each service state (R100, R101). -/
theorem test_Wake_results :
    after (.wake .console (ctl 16) 0) (serving .parked true)
        (fun t => t.towers[(0 : Tower)].service = .ready && !t.towers[(0 : Tower)].parkHold)
      ∧ after (.wake .console (ctl 16) 0) { serving .parking true with levels := ⟨false, true, false⟩ }
          (fun t => t.towers[(0 : Tower)].service = .printing)
      ∧ after (.wake .console (ctl 16) 0) (serving .faulted true) (fun t => t.control.last[wordTower 0] = .refusedState)
      ∧ after (.wake .console (ctl 17) 0) run0 (fun t => t.control.last[wordTower 1] = .refusedState) := by
  decide +kernel

/-- Key 0 in flight with a tag and a count of tries, the transmitter busy. -/
def flying (m : MoveState) (tries : Nat) : State :=
  gap 0 (State.tower0 run0 (fun t =>
    { t.mod 0 (fun r => { r with move := m, tag := 15, commanded := some 7, target := 9, tries := tries, timer := some 20 })
      with flight := [0] }))

/-- PARK with moves at rest, with a move waiting that can go out, and with the transmitter busy (R55, R102, R103). -/
theorem test_Park_results :
    after (.park .console (ctl 16) 0) (serving .ready false) (fun t => t.towers[(0 : Tower)].service = .parked)
      ∧ after (.park .console (ctl 16) 0)
          (State.tower0 run0 (TowerState.mod 0 (fun r => { r with commanded := some 5, target := 5, base := 5 })))
          (fun t => t.towers[(0 : Tower)].service = .parking && t.towers[(0 : Tower)].flight = [0])
      ∧ (flying .inFlight 0).link.tx ≠ .idle
      ∧ after (.park .console (ctl 16) 0)
          (State.tower0 (flying .inFlight 0) (TowerState.mod 1 (fun r => { r with commanded := some 5, target := 5, base := 5 })))
          (fun t => t.towers[(0 : Tower)].service = .parking && t.towers[(0 : Tower)].queue = [1]
            && (t.towers[(0 : Tower)].recs[(0 : Slot)]).move = .retarget) := by decide +kernel

theorem test_Reset_results :
    after (.reset .console (ctl 16) 0) run0 (fun t => t.loader.state = .section_ 0)
      ∧ after (.reset .console (ctl 16) 0) { run0 with loader := { run0.loader with state := .section_ 3 } }
          (fun t => t.control.last[wordTower 0] = .refusedBusy) := by decide +kernel

theorem test_Loop_results :
    after (.loopOn .console (ctl 16) 0) run0
        (fun t => t.towers[(0 : Tower)].loop = .settling && t.towers[(0 : Tower)].settle = 10)
      ∧ after (.loopOff .console (ctl 16) 0) (State.tower0 run0 (fun t => { t with loop := .armed }))
          (fun t => t.towers[(0 : Tower)].loop = .off)
      ∧ after (.loopOff .console (ctl 17) 0) run0 (fun t => t.control.last[wordTower 1] = .refusedState) := by
  decide +kernel

/-- A key in FAULT that is queued again, and one that is not (R76). -/
theorem test_ClearFaults_results :
    after (.clearFaults .console (ctl 16) 0)
        (State.tower0 run0 (TowerState.mod 7 (fun r => { r with move := .fault, tries := 3, fault := some .stall, commanded := some 1 })))
        (fun t => (t.towers[(0 : Tower)].recs[(7 : Slot)]).move = .inFlight)
      ∧ after (.clearFaults .console (ctl 16) 0)
          (State.tower0 run0 (TowerState.mod 48 (fun r => { r with move := .fault, tries := 3, fault := some .stall })))
          (fun t => (t.towers[(0 : Tower)].recs[(48 : Slot)]).move = .idle) := by decide +kernel

/-- The sweep with the transmitter busy: a key that is to move is QUEUED, one at its target stays IDLE, one whose
commanded is UNKNOWN stays IDLE (R63). -/
theorem test_Wake_sweep : (gap 0 (serving .parked true)).link.tx ≠ .idle
    ∧ after (.wake .console (ctl 16) 0)
        (gap 0 (State.tower0 (serving .parked true) (fun t =>
          (t.mod 0 (fun r => { r with commanded := some 5 })).mod 1 (fun r => { r with commanded := some 0 }))))
        (fun t => t.towers[(0 : Tower)].queue = [0] && (t.towers[(0 : Tower)].recs[(1 : Slot)]).move = .idle
          && (t.towers[(0 : Tower)].recs[(2 : Slot)]).move = .idle) := by decide +kernel

/-- From PARKING, the transmitter busy: key 2 is QUEUED for what it stands at and leaves the queue, key 3 is in flight
and becomes RETARGET, key 1 is handed off as its target changes, key 0 is swept up after it (R55, R63, R101). -/
theorem test_Wake_parking :
    after (.wake .console (ctl 16) 0)
        (gap 0 (State.tower0 (serving .parking true) (fun t =>
          { (((t.mod 0 (fun r => { r with commanded := some 9 })).mod 1 (fun r =>
              { r with base := 5, commanded := some 0 })).mod 2 (fun r =>
              { r with base := 7, commanded := some 7, move := .queued })).mod 3 (fun r =>
              { r with base := 3, commanded := some 0, move := .inFlight, timer := some 20 }) with
            queue := [2], flight := [3] })))
        (fun t => t.towers[(0 : Tower)].queue = [1, 0] && t.towers[(0 : Tower)].flight = [3]
          && (t.towers[(0 : Tower)].recs[(2 : Slot)]).move = .idle
          && (t.towers[(0 : Tower)].recs[(3 : Slot)]).move = .retarget) = true := by decide +kernel

/-- Two keys taken out of FAULT with the transmitter busy join the queue in slot order (R76). -/
theorem test_ClearFaults_busy :
    after (.clearFaults .console (ctl 16) 0)
        (gap 0 (State.tower0 run0 (fun t =>
          (t.mod 7 (fun r => { r with move := .fault, tries := 3, fault := some .stall, commanded := some 1 })).mod 3
            (fun r => { r with move := .fault, fault := some .timeout, commanded := some 1 }))))
        (fun t => t.towers[(0 : Tower)].queue = [3, 7]) = true := by decide +kernel

/-! ### The memory port -/

/-- A plain read of the console that waits for the port. -/
def waiting0 : State := { run0 with bus := ⟨some ⟨⟨.console, 0x3000, .read, 1, 0⟩, .claim .plain⟩, none, none, none⟩ }

/-- The same with a request at the head of the queue, passed over n times. -/
def contended (n : Nat) : State :=
  { waiting0 with port := { waiting0.port with queue := [.noticeWrite 0x3010 7], passOver := n } }

theorem test_Grant_passes : run0.port.holder = none ∧ waiting0.nextPass = some .console
    ∧ waiting0.bus.get .console = some ⟨⟨.console, 0x3000, .read, 1, 0⟩, .claim .plain⟩ ∧ waiting0.port.queue = []
    ∧ (contended 15).port.passOver < (contended 15).port.limit
    ∧ after .mpGrant (contended 15) (fun t => t.port.passOver = 16 && t.port.pointer = .console) := by decide +kernel

theorem test_Grant_head : (contended 16).port.queue = .noticeWrite 0x3010 7 :: []
    ∧ (contended 16).port.limit ≤ (contended 16).port.passOver ∧ run0.nextPass = none ∧ run0.port.queue = []
    ∧ after .mpGrant (contended 16) (fun t =>
        t.port.holder = some (.internal (.noticeWrite 0x3010 7) [⟨0x3010, .write, 15, 7⟩] false)) := by decide +kernel

/-- With the pointer at CONSOLE, PREPRESS comes before CONSOLE (R15); a granted plain write makes the frame UNFIT in
whose image it lies, and one to the margin after the image none (R37). -/
theorem test_Grant_order :
    after .mpGrant
        { waiting0 with
          bus := { waiting0.bus with prepress := some ⟨⟨.prepress, 0x1003BC, .write, 15, 7⟩, .claim .plain⟩ }
          port := { waiting0.port with pointer := .console } }
        (fun t => t.port.holder = some (.passThrough .prepress ⟨0x1003BC, .write, 15, 7⟩)
          && !(t.coverage.frame .a 0).fit)
      ∧ after .mpGrant
        { run0 with bus := ⟨some ⟨⟨.console, 0x1003C0, .write, 15, 7⟩, .claim .plain⟩, none, none, none⟩ }
        (fun t => (t.coverage.frame .a 0).fit)
      ∧ run0.coverage.holdsWord 0x1003BC .a 0 := by
  refine ⟨by decide +kernel, by decide +kernel, ⟨0x100000, 0x8000⟩, geometry0, ?_⟩
  decide +kernel

/-- A fold in the latch into the frame that a granted plain write makes UNFIT becomes void, one into another frame does
not; the same for the words of an ORDER_WRITE, of which the second lies past the image (R29, R36, R37). -/
theorem test_Grant_voidsFold :
    after .mpGrant
        { run0 with
          coverage := { run0.coverage with latch := some (fold0 none) }
          bus := ⟨none, some ⟨⟨.prepress, 0x1003BC, .write, 15, 7⟩, .claim .plain⟩, none, none⟩ }
        (fun t => t.coverage.latch = some { fold0 none with void := true })
      ∧ after .mpGrant
        { run0 with
          coverage := { run0.coverage with latch := some { fold0 none with bank := .b } }
          bus := ⟨none, some ⟨⟨.prepress, 0x1003BC, .write, 15, 7⟩, .claim .plain⟩, none, none⟩ }
        (fun t => t.coverage.latch = some { fold0 none with bank := .b } && !(t.coverage.frame .a 0).fit)
      ∧ after .mpGrant
        { run0 with
          coverage := { run0.coverage with latch := some (fold0 none) }
          port := { run0.port with queue := [.orderWrite 0x1003A4 5 9] } }
        (fun t => t.coverage.latch = some { fold0 none with void := true } && !(t.coverage.frame .a 0).fit
          && (t.coverage.frame .b 0).fit) := by decide +kernel

/-- A plain access goes to the port with its byte address (R2, R9). -/
theorem test_Grant_unaligned :
    after .mpGrant
        { run0 with bus := ⟨none, none, none, some ⟨⟨.service, 0x3001, .write, 2, 0xAABB⟩, .claim .plain⟩⟩ }
        (fun t => t.port.holder = some (.passThrough .service ⟨0x3001, .write, 2, 0xAABB⟩)) = true := by decide +kernel

/-- The answer write of START claims the port while START's mirror write is the head of the queue and two words are in
the set. -/
def superseding : State :=
  { run0 with
    bus := ⟨some ⟨fullWrite .console 0x1000 1, .claim (.answer 0 .accepted 0)⟩, none, none, none⟩
    port := { run0.port with queue := [.mirrorWrite 0 0x1000, .clearWrite 0x104000], passOver := 3 }
    control := { run0.control with mirror := 0x21, channel := some (.mirror 0), pointer := 0 } }

/-- Its grant takes the word out of the set and its request out of the queue, and the next word is offered (R16, R161,
R162). -/
theorem test_Grant_supersedes : superseding.port.holder = none ∧ superseding.port.passOver < superseding.port.limit
    ∧ superseding.nextPass = some .console
    ∧ after .mpGrant superseding (fun t => t.control.mirror = 0x20 && t.control.channel = some (.mirror 5)
        && t.port.queue = [.clearWrite 0x104000, .mirrorWrite 5 0x1014] && t.port.passOver = 0) := by decide +kernel

/-- A granted NOTICE_WRITE clears the notice-pending flag, a granted MIRROR_WRITE takes its word out of the set (R160,
R166). -/
theorem test_Grant_control :
    after .mpGrant
        { run0 with
          port := { run0.port with queue := [.noticeWrite 0x3010 7] }
          control := { run0.control with channel := some .notice, noticePending := true } }
        (fun t => !t.control.noticePending)
      ∧ after .mpGrant
        { run0 with
          port := { run0.port with queue := [.mirrorWrite 5 0x1014] }
          control := { run0.control with channel := some (.mirror 5), mirror := 0x20 } }
        (fun t => t.control.mirror = 0) := by decide +kernel

/-- A forwarded MEASURE write and an access whose master a pin reset has answered (R9, R20). -/
theorem test_MeasureAndOrphan :
    (State.holding run0 (fullWrite .scanbar 0x47F8 5) .measure ⟨0x47F8, .write, 15, 5⟩).holdsPass
        (fullWrite .scanbar 0x47F8 5) .measure ⟨0x47F8, .write, 15, 5⟩
      ∧ after (.passThroughResponse (.error false))
        (State.holding run0 (fullWrite .scanbar 0x47F8 5) .measure ⟨0x47F8, .write, 15, 5⟩)
        (fun t => t.lastResponse.scanbar = some .busError && t.control.flags = 0)
      ∧ after (.passThroughResponse .ok)
        { run0 with port := { run0.port with holder := some (.orphan ⟨0x3000, .write, 15, 7⟩) } }
        (fun t => t.mem = [(0x3000, 7)] && t.lastResponse = run0.lastResponse) := by
  unfold State.holdsPass
  decide +kernel

theorem test_PlainAccessIsAnswered :
    (State.holding run0 ⟨.service, 0x3001, .write, 2, 0xAABB⟩ .plain ⟨0x3001, .write, 2, 0xAABB⟩).holdsPass
      ⟨.service, 0x3001, .write, 2, 0xAABB⟩ .plain ⟨0x3001, .write, 2, 0xAABB⟩ ∧
      after (.passThroughResponse .ok)
        (State.holding run0 ⟨.service, 0x3001, .write, 2, 0xAABB⟩ .plain ⟨0x3001, .write, 2, 0xAABB⟩)
        (fun t => t.mem = [(0x3001, 0xAA)] && t.lastResponse.service = some .ok) := by
  unfold State.holdsPass
  decide +kernel

/-- That fold in the latch, its access at the port for a purpose. -/
def folding (old : Option Word) (p : Purpose) (d : Dir) : State :=
  State.holding { open0 with coverage := { open0.coverage with latch := some (fold0 old) } }
    (fullWrite .console 0x100008 0x04030201) p ⟨0x100008, d, 15, 0⟩

theorem test_FoldReadIsAnswered :
    (folding none .foldRead .read).holdsPass (fullWrite .console 0x100008 0x04030201) .foldRead ⟨0x100008, .read, 15, 0⟩
      ∧ (folding none .foldRead .read).coverage.latch = some (fold0 none)
      ∧ (folding none .foldRead .read).coverage.waiting = [] := by
  unfold State.holdsPass
  decide +kernel

theorem test_FoldWriteIsAnswered :
    (folding (some 0) .foldWrite .write).holdsPass (fullWrite .console 0x100008 0x04030201) .foldWrite
        ⟨0x100008, .write, 15, 0⟩
      ∧ (folding (some 0) .foldWrite .write).coverage.latch = some (fold0 (some 0))
      ∧ (fold0 (some 0)).old = some 0 ∧ (folding (some 0) .foldWrite .write).coverage.waiting = [] := by
  unfold State.holdsPass
  decide +kernel

/-- The sums after a fold, and an UNFIT frame after a failed one (R28). -/
theorem test_Fold_results :
    after (.foldWriteResponse .ok) (folding (some 0) .foldWrite .write)
        (fun t => (t.coverage.frame .a 0).sums.toList.take 3 = [3, 7, 0] && t.coverage.latch = none)
      ∧ after (.foldWriteResponse (.error true)) (folding (some 0) .foldWrite .write)
        (fun t => !(t.coverage.frame .a 0).fit && t.lastResponse.console = some .busError) := by decide +kernel

/-- That fold with PREPRESS waiting for a frame of no tower and SCANBAR behind it for a word of the image. -/
def queueing (p : Purpose) (d : Dir) : State :=
  let s := folding (some 0) p d
  { s with
    coverage := { s.coverage with waiting := [.prepress, .scanbar] }
    bus :=
      { s.bus with
        prepress := some ⟨fullWrite .prepress 0x100400 1, .waitLatch⟩
        scanbar := some ⟨fullWrite .scanbar 0x1003BC 2, .waitLatch⟩ } }

/-- The first that waits is refused and the second latched, or, the part not RUNNING, both are refused (R25, R26). -/
theorem test_Waiters : (queueing .foldRead .read).coverage.waiting.Nodup
    ∧ (queueing .foldRead .read).waitsWith .prepress (fullWrite .prepress 0x100400 1)
    ∧ (queueing .foldRead .read).waitsWith .scanbar (fullWrite .scanbar 0x1003BC 2)
    ∧ after (.foldReadResponse (.error false)) (queueing .foldRead .read) (fun t =>
        t.coverage.latch.map Fold.cls = some .scanbar && t.coverage.waiting = []
          && t.lastResponse.prepress = some .busError && t.control.flags = 4160)
    ∧ after (.foldWriteResponse .ok) (queueing .foldWrite .write) (fun t =>
        t.coverage.latch.map Fold.cls = some .scanbar && (t.coverage.frame .a 0).sums.toList.take 3 = [3, 7, 0])
    ∧ after (.foldReadResponse (.error false))
        { queueing .foldRead .read with control := { run0.control with part := .loading } } (fun t =>
        t.coverage.latch = none && t.lastResponse.scanbar = some .busError) := by
  unfold State.waitsWith
  decide +kernel

/-- Accesses that wait for the latch behind a fold, in order. -/
theorem test_Waiters_inOrder (p : Purpose) (d : Dir) : (queueing p d).accessesOk := by
  have hb : (queueing p d).bus = ⟨some ⟨fullWrite .console 0x100008 0x04030201, .granted p⟩,
      some ⟨fullWrite .prepress 0x100400 1, .waitLatch⟩, some ⟨fullWrite .scanbar 0x1003BC 2, .waitLatch⟩, none⟩ := rfl
  have hw : (queueing p d).coverage.waiting = [.prepress, .scanbar] := rfl
  unfold State.accessesOk
  rw [hb, hw]
  refine ⟨fun c x h => (by cases c <;> cases h <;> rfl), fun c hc => ?_, by decide⟩
  cases c
  · cases hc with
    | tail _ h => cases h with
      | tail _ h => cases h
  · exact ⟨_, rfl, Or.inl rfl⟩
  · exact ⟨_, rfl, Or.inl rfl⟩
  · cases hc with
    | tail _ h => cases h with
      | tail _ h => cases h

/-- What the statement asks of each: the one passes the checks, the other does not (R26). -/
theorem test_Waiters_checks :
    (queueing .foldRead .read).foldable (queueing .foldRead .read).coverage (fullWrite .scanbar 0x1003BC 2)
      ∧ ¬(queueing .foldRead .read).foldable (queueing .foldRead .read).coverage (fullWrite .prepress 0x100400 1) := by
  refine ⟨⟨rfl, .a, 0, ⟨⟨0x100000, 0x8000⟩, geometry0, by decide +kernel⟩, by decide +kernel, by decide +kernel⟩, ?_⟩
  rintro ⟨-, bk, u, ⟨r, g, hr, -, -, -, hu, hg, -⟩, -⟩
  have e : r = ⟨0x100000, 0x8000⟩ := (Option.some.inj hr).symm
  subst e
  have hu1 : u = 1 := by
    apply Fin.ext
    rw [← hu]
    decide +kernel
  subst hu1
  have none1 : (queueing .foldRead .read).coverage.geometry[(1 : Tower)] = none := by decide +kernel
  cases none1.symm.trans hg

/-- A RELOAD overtakes a write that waits, and it is refused when it is taken, the part RUNNING again (R39). -/
theorem test_Waiters_overtaken :
    after (.reload .service (ctl 14) 0)
        { queueing .foldRead .read with windows := [some ⟨.control, 0x1000, 128, 15, 0⟩] }
        (fun t => t.bus.scanbar = some ⟨fullWrite .scanbar 0x1003BC 2, .overtaken⟩)
      ∧ State.overtakenWith
        { queueing .foldRead .read with
          bus := { (queueing .foldRead .read).bus with scanbar := some ⟨fullWrite .scanbar 0x1003BC 2, .overtaken⟩ } }
        .scanbar (fullWrite .scanbar 0x1003BC 2)
      ∧ after (.foldReadResponse (.error false))
        { queueing .foldRead .read with
          bus := { (queueing .foldRead .read).bus with scanbar := some ⟨fullWrite .scanbar 0x1003BC 2, .overtaken⟩ } }
        (fun t => t.coverage.latch = none && t.coverage.waiting = [] && t.bus.scanbar = none
          && t.lastResponse.scanbar = some .busError) := by
  unfold State.overtakenWith
  decide +kernel

/-- A commit write of slot 15 that holds the port. -/
def committing : State :=
  State.holding { run0 with loop := { run0.loop with slots := run0.loop.slots.set 15 .busy } }
    (fullWrite .scanbar 0x47FC 1) (.commit 15) ⟨0x47FC, .write, 15, 1⟩

theorem test_CommitIsAnswered :
    committing.holdsPass (fullWrite .scanbar 0x47FC 1) (.commit 15) ⟨0x47FC, .write, 15, 1⟩
      ∧ committing.loop.reading = false ∧ windowBase .measure committing.windows = some 0x4000
      ∧ committing.loop.readList ++ [15] = 15 :: [] := by
  unfold State.holdsPass
  decide +kernel

theorem test_AnswerWriteIsAnswered :
    (State.holding run0 (fullWrite .console 0x1000 1) (.answer 0 .accepted 0) ⟨0x1000, .write, 15, 0⟩).holdsPass
        (fullWrite .console 0x1000 1) (.answer 0 .accepted 0) ⟨0x1000, .write, 15, 0⟩
      ∧ run0.control.part = .running ∧ (MemAnswer.error false) ≠ .ok := by
  unfold State.holdsPass
  decide +kernel

/-! ### Internal requests -/

/-- A record of slot 15 that is read: tower 0, eight keys, every density 0. -/
def reading (keys : Byte) (s : State) : State :=
  State.requesting { s with mem := [(0x4781, keys)], loop := { s.loop with readList := [15], reading := true } }
    (.slotRead 15 0x4780)

/-- Tower 0 ARMED over a LOCKED active bank. -/
def armed0 : State := State.tower0 (State.banks run0 .locked .stale) (fun t => { t with loop := .armed })

theorem test_Measurement_dropped : after (.slotReadComplete 1) (reading 8 armed0)
      (fun t => t.loop.status.reason = .memory && t.loop.slots[(15 : Fin 16)] = .free)
    ∧ after (.slotReadComplete 0) (reading 9 armed0) (fun t => t.loop.status.reason = .badRecord)
    ∧ after (.slotReadComplete 0) (reading 8 run0) (fun t => t.loop.status.reason = .loopState)
    ∧ frameTower 12 = none := by decide +kernel

theorem test_Measurement_applied :
    (reading 8 armed0).holdsRequest (.slotRead 15 0x4780) ((reading 8 armed0).reqWords (.slotRead 15 0x4780))
      ∧ frameTower (measureRec (readData (reading 8 armed0).mem
          ((reading 8 armed0).reqWords (.slotRead 15 0x4780)))).tower.toNat = some 0
      ∧ (reading 8 armed0).badRecord (measureRec (readData (reading 8 armed0).mem
          ((reading 8 armed0).reqWords (.slotRead 15 0x4780)))) = false
      ∧ (reading 8 armed0).gateFault 15 0 = none
      ∧ after (.slotReadComplete 0) (reading 8 armed0)
          (fun t => t.loop.status.applied = some 0 && t.towers[(0 : Tower)].loop = .settling) := by
  unfold State.holdsRequest
  decide +kernel

/-- BAD_RECORD at its ends: the key count, and a density one above 4000 (R149); a record applied fires MEASURE. -/
theorem test_Measurement_judged : run0.towers[(0 : Tower)].cfg = some ⟨8, 800, 0, true, 0⟩
    ∧ run0.badRecord ⟨0, 8, 0, List.replicate 7 4000 ++ List.replicate 41 4001⟩ = true
    ∧ run0.badRecord ⟨0, 8, 0, List.replicate 7 4000 ++ [65535] ++ List.replicate 40 4001⟩ = false
    ∧ run0.gateFault 15 1 = some .towerState ∧ run0.gateFault 15 0 = some .loopState
    ∧ (State.tower0 run0 (fun t => { t with loop := .armed })).gateFault 15 0 = some .noCoverage
    ∧ after (.slotReadComplete 0)
        (State.eng (reading 8 armed0) (fun e => e.modBinding .measure (fun _ => ⟨true, false, 9⟩)))
        (fun t => t.engine.state = .fetching && t.engine.head = 9 && t.engine.tie = some .measure) := by decide +kernel

/-- The section tower 0 is reset with. -/
def section0 : TowerCfg := ⟨1, geometry0, ⟨8, 800, 0, true, 0⟩, ⟨1450, 400, 20, 30, 60, 10, 50⟩⟩

/-- A record that waited over a good reset of its tower is dropped with LOOP_STATE, one committed after it with
TOWER_STATE; one whose loop is ARMED again by then is applied, and the mark goes with its record (R149, R156; log 33).
-/
theorem test_Measurement_overReset :
    ((reading 8 armed0).resetTower 0 (some section0)).gateFault 15 0 = some .loopState
      ∧ ((reading 8 armed0).resetTower 0 (some section0)).gateFault 14 0 = some .towerState
      ∧ after (.slotReadComplete 0) ((reading 8 armed0).resetTower 0 (some section0))
          (fun t => t.loop.status.reason = .loopState && t.loop.overReset[(15 : Fin 16)] = 0)
      ∧ after (.slotReadComplete 0)
          (State.tower0 ((reading 8 armed0).resetTower 0 (some section0)) (fun t =>
            { t with service := .printing, loop := .armed }))
          (fun t => t.loop.status.applied = some 0) := by decide +kernel

/-- The list's next head is read next, behind the ORDER_READ of the chain that the record fires; the target is composed
of the new correction (R53, R146, R152). -/
theorem test_Measurement_next :
    after (.slotReadComplete 1)
        { reading 8 armed0 with loop := { (reading 8 armed0).loop with readList := [15, 3] } }
        (fun t => t.loop.reading && t.port.queue.take 1 = [.slotRead 3 0x4180] && t.loop.readList = [3])
      ∧ after (.slotReadComplete 0)
        (State.eng { reading 8 armed0 with loop := { (reading 8 armed0).loop with readList := [15, 3] } }
          (fun e => e.modBinding .measure (fun _ => ⟨true, false, 9⟩)))
        (fun t => t.port.queue.take 2 = [.orderRead 0x2120, .slotRead 3 0x4180])
      ∧ after (.slotReadComplete 1) (reading 8 armed0) (fun t => !t.loop.reading && t.port.queue = [.mirrorWrite 2 0x1008]) := by
  decide +kernel

/-- The clauses of a correction at their ends: not measured, below the minimum coverage, at the deadband's edge and
one beyond it (R151). -/
theorem test_CorrectionStep : corrected ⟨1450, 400, 20, 30, 60, 10, 50⟩ 100 65535 7 = 7
    ∧ corrected ⟨1450, 400, 20, 30, 60, 10, 50⟩ 49 0 7 = 7 ∧ corrected ⟨1450, 400, 20, 30, 60, 10, 50⟩ 50 1430 7 = 7
    ∧ corrected ⟨1450, 400, 20, 30, 60, 10, 50⟩ 50 1429 7 = 15 ∧ corrected ⟨1450, 400, 20, 30, 60, 10, 50⟩ 50 0 40 = 60
    ∧ corrected ⟨1450, 400, 20, 30, 60, 10, 50⟩ 50 1471 7 = -1 := by decide

/-- A clear of bank B under way at word n. -/
def clearing (n : Nat) (started : Bool) : State :=
  { State.banks run0 .stale .clearing with
    coverage := { (State.banks run0 .stale .clearing).coverage with cursor := some ⟨.b, [⟨0x104000, 960⟩], n, started⟩ } }

theorem test_ClearCursor_first : (clearing 0 false).coverage.latch = none
    ∧ planAddr [⟨0x104000, 960⟩] 0 = some 0x104000 ∧ (fold0 none).bank = .a
    ∧ after .clearFirstOffer (clearing 0 false) (fun t => t.port.queue = [.clearWrite 0x104000])
    ∧ after .clearFirstOffer
        { clearing 0 false with coverage := { (clearing 0 false).coverage with latch := some { fold0 none with bank := .b } } }
        (fun t => t.port.queue = []) := by decide +kernel

theorem test_ClearCursor_last : 238 + 1 < planWords [⟨0x104000, 960⟩]
    ∧ planAddr [⟨0x104000, 960⟩] 239 = some 0x1043BC ∧ planWords [⟨0x104000, 960⟩] ≤ 239 + 1
    ∧ (State.requesting (clearing 239 true) (.clearWrite 0x1043BC)).port.holder
        = some (.internal (.clearWrite 0x1043BC) [⟨0x1043BC, .write, 15, 0⟩] false)
    ∧ after (.clearWriteComplete .ok) (State.requesting (clearing 239 true) (.clearWrite 0x1043BC))
        (fun t => t.coverage.banks.b.state = .opened && t.control.flags = 32) := by decide +kernel

/-- A failed clear write: the bank is STALE, a fold into it void (R29, R35). -/
theorem test_ClearCursor_error :
    after (.clearWriteComplete (.error false))
        { State.requesting (clearing 3 true) (.clearWrite 0x10400C) with
          coverage := { (clearing 3 true).coverage with latch := some { fold0 none with bank := .b } } }
        (fun t => t.coverage.banks.b.state = .stale
          && t.coverage.latch = some { fold0 none with bank := .b, void := true }) = true := by decide +kernel

theorem test_MirrorAndNotice :
    (State.requesting run0 (.mirrorWrite 27 0x106C)).holdsRequest (.mirrorWrite 27 0x106C)
        (run0.reqWords (.mirrorWrite 27 0x106C))
      ∧ (State.requesting run0 (.noticeWrite 0x3000 7)).holdsRequest (.noticeWrite 0x3000 7)
        (run0.reqWords (.noticeWrite 0x3000 7))
      ∧ after (.mirrorWriteComplete (.error false)) (State.requesting run0 (.mirrorWrite 27 0x106C))
        (fun t => t.control.channel = some (.mirror 2) && t.control.mirror.getLsbD 27 && t.control.flags = 4096)
      ∧ after (.noticeWriteComplete .ok) (State.requesting run0 (.noticeWrite 0x3000 7))
        (fun t => t.mem = [(0x3000, 7)]) := by
  unfold State.holdsRequest
  decide +kernel

/-- A free channel with words 2, 5 and 27 in the set, the pointer at 5; the notice pending or not. -/
def offering0 (notice : Bool) : State :=
  { run0 with
    control :=
      { run0.control with mirror := 0x8000024, pointer := 5, noticePending := notice, noticeAddr := 0x3010, noticeDatum := 7 } }

/-- The notice goes first, then the word after the pointer in ascending index (R161). -/
theorem test_Channel_offers : (offering0 false).control.channel = none
    ∧ (offering0 true).offerChannel = (offering0 true).offering .notice (.noticeWrite 0x3010 7) 5
    ∧ (offering0 false).offerChannel = (offering0 false).offering (.mirror 27) (.mirrorWrite 27 0x106C) 27
    ∧ windowBase .control run0.windows = some 0x1000 := by decide +kernel

/-- An event that changes what TOWER 0 shows puts that word alone into the set (R154, R160). -/
theorem test_Mirror_follows : run0.control.part = .running
    ∧ after .settleEnd
        { State.tower0 run0 (fun t => { t with loop := .settling, settle := 1 }) with
          control := { run0.control with channel := some .notice } }
        (fun t => t.control.mirror = 0x10000 && t.wordFields 16 != run0.wordFields 16 && t.control.part = .running
          && t.loader.state.loading = run0.loader.state.loading) := by decide +kernel

/-- An answer write of STOP at the port, the accesses in order; when it fails the word enters the set (R160). -/
theorem test_Mirror_failedAnswer :
    (State.holding run0 (fullWrite .console (ctl 1) 1) (.answer 1 .accepted 0) ⟨0x1004, .write, 15, 0⟩).accessesOk
      ∧ after (.answerWriteResponse (.error false))
        (State.holding { run0 with control := { run0.control with channel := some .notice } }
          (fullWrite .console (ctl 1) 1) (.answer 1 .accepted 0) ⟨0x1004, .write, 15, 0⟩)
        (fun t => t.control.mirror = 2) := by
  refine ⟨⟨fun c x h => ?_, fun c h => ?_, ?_⟩, by decide +kernel⟩
  · cases c <;> cases h
    rfl
  · have h' : c ∈ ([] : List MasterClass) := h
    simp at h'
  · show ([] : List MasterClass).Nodup
    exact List.nodup_nil

/-- GLOBAL's content as checked. -/
def global0 : GlobalCfg := ⟨0x2000, 64, 0, 0, .replace, 0x3FFF, 20, 16⟩

/-- A load at the first of two PRELOAD pairs, or at the second. -/
def preloading (n : Nat) : State :=
  State.requesting
    { State.reset with
      loader :=
        ⟨.preloading n, none,
          { Staged.empty with
            globals := some global0, windows := windows0, towers := Staged.empty.towers.set 0 (some section0),
            preload := [(0x3000, 1), (0x3004, 2)] }, ⟨true, [], []⟩⟩ }
    (.preloadWrite 0x3000 1)

theorem test_PreloadWriteCompletes :
    (preloading 0).holdsRequest (.preloadWrite 0x3000 1) ((preloading 0).reqWords (.preloadWrite 0x3000 1))
      ∧ 0 + 1 < (preloading 0).loader.staged.preload.length ∧ (preloading 1).loader.staged.preload.length ≤ 1 + 1
      ∧ (preloading 1).loader.staged.globals = some global0
      ∧ after (.preloadWriteComplete .ok) (preloading 1) (fun t =>
          t.control.part = .running && t.towers[(0 : Tower)].service = .parked
            && t.towers[(1 : Tower)].service = .unconfigured
            && t.link.tx = .sending (frameBytes 1 kindHalt 255 0 0))
      ∧ after (.preloadWriteComplete .ok) (gap 0 (preloading 1)) (fun t =>
          t.towers[(0 : Tower)].haltPending && t.towers[(0 : Tower)].queryPending) := by
  unfold State.holdsRequest
  decide +kernel

/-! ### Orders -/

/-- An order of these cells at record 0 of the table, its read holding the port. -/
def ordered (cells : List Host.Cell) (s : State) : State :=
  State.requesting { s with mem := cells, engine := { s.engine with state := .fetching, visited := 1 } } (.orderRead 0x2000)

/-- What the read of that record delivers. -/
def fetchedRec (cells : List Host.Cell) : OrderRec := orderRec (readData cells (run0.reqWords (.orderRead 0x2000)))

theorem test_fetched (cells : List Host.Cell) (s : State) (h : s.engine.stop = false) :
    (ordered cells s).fetched (run0.reqWords (.orderRead 0x2000)) (fetchedRec cells) := ⟨⟨0x2000, rfl⟩, h, rfl⟩

theorem test_OrderWrite_holds :
    (State.requesting run0 (.orderWrite 0x2000 1 2)).holdsRequest (.orderWrite 0x2000 1 2)
        (run0.reqWords (.orderWrite 0x2000 1 2))
      ∧ (outcomeEvent (fetchedRec [(0x2007, 1)]) .done = some .orderDone)
      ∧ outcomeEvent (fetchedRec []) .done = none ∧ OrderOutcome.done.success = true
      ∧ (fetchedRec [(0x2004, 8)]).linked = true := by
  unfold State.holdsRequest
  decide +kernel

/-- A write-back that ends a chain whose JOBCHG binding waits, and one that follows a link (R125, R126, R135). -/
theorem test_OrderWrite_results :
    after (.orderWriteComplete .ok .ok)
        (State.eng (State.requesting run0 (.orderWrite 0x2000 1 2)) (fun e =>
          { e.modBinding .jobchg (fun _ => ⟨true, true, 63⟩) with
            state := .writingBack, visited := 1, running := some ⟨[0], .done⟩ }))
        (fun t => t.engine.state = .fetching && t.engine.head = 63 && t.engine.tie = some .jobchg)
      ∧ after (.orderWriteComplete .ok .ok)
        (State.eng (State.requesting run0 (.orderWrite 0x2000 1 2)) (fun e =>
          { e with state := .writingBack, visited := 1, running := some ⟨[0, 8, 0x00050000], .done⟩ }))
        (fun t => t.engine.state = .fetching && t.engine.current = 5 && t.engine.visited = 2) := by decide +kernel

/-- A request that holds the port and that a RELOAD has discarded. -/
def State.discarding (s : State) (r : IReq) : State :=
  { s with port := { s.port with holder := some (.internal r (s.reqWords r) true) } }

/-- The discarded completion's hypotheses, for each kind of request and each row that delivers one. -/
theorem test_Discarded_rows :
    (State.discarding run0 (.orderRead 0x2000)).port.holder
        = some (.internal (.orderRead 0x2000) (run0.reqWords (.orderRead 0x2000)) true)
      ∧ completes (.clearWriteComplete .ok) (.clearWrite 0x104000) [.ok]
      ∧ completes (.orderWriteComplete .ok (.error true)) (.orderWrite 0x2000 5 9) [.ok, .error true]
      ∧ completes (.slotReadComplete 1) (.slotRead 15 0x4780)
        ((List.range 31).map (fun n => if (1 : BitVec 31).getLsbD n then .error false else .ok))
      ∧ completes (.mirrorWriteComplete .ok) (.mirrorWrite 5 0x1014) [.ok]
      ∧ completes (.noticeWriteComplete .ok) (.noticeWrite 0x3000 7) [.ok]
      ∧ completes (.preloadWriteComplete .ok) (.preloadWrite 0x3000 7) [.ok]
      ∧ completes .orderFetchError (.orderRead 0x2000) [.error false]
      ∧ completes .orderCancelled (.orderRead 0x2000) [] ∧ completes .nop (.orderRead 0x2000) []
      ∧ completes .verbFault (.orderRead 0x2000) [] :=
  ⟨rfl, Or.inl ⟨_, _, rfl, rfl, rfl⟩, Or.inr (Or.inl ⟨_, _, _, _, _, rfl, rfl, rfl⟩),
    Or.inr (Or.inr (Or.inl ⟨_, _, _, rfl, rfl, rfl⟩)), Or.inr (Or.inr (Or.inr (Or.inl ⟨_, _, _, rfl, rfl, rfl⟩))),
    Or.inr (Or.inr (Or.inr (Or.inr (Or.inl ⟨_, _, _, rfl, rfl, rfl⟩)))),
    Or.inr (Or.inr (Or.inr (Or.inr (Or.inr (Or.inl ⟨_, _, _, rfl, rfl, rfl⟩))))),
    Or.inr (Or.inr (Or.inr (Or.inr (Or.inr (Or.inr (Or.inl ⟨_, rfl, rfl, rfl⟩)))))),
    Or.inr (Or.inr (Or.inr (Or.inr (Or.inr (Or.inr (Or.inr ⟨_, rfl, Or.inl rfl, rfl⟩)))))),
    Or.inr (Or.inr (Or.inr (Or.inr (Or.inr (Or.inr (Or.inr ⟨_, rfl, Or.inr ⟨0, Or.inl ⟨rfl, rfl⟩⟩, rfl⟩)))))),
    Or.inr (Or.inr (Or.inr (Or.inr (Or.inr (Or.inr (Or.inr ⟨_, rfl, Or.inr ⟨255, by unfold verbRow; decide⟩, rfl⟩))))))⟩

/-- A discarded write is in memory where it landed; a discarded completion raises nothing and reaches no unit (R19). -/
theorem test_Discarded_results :
    after (.orderWriteComplete .ok (.error true)) (State.discarding run0 (.orderWrite 0x2000 5 9))
        (fun t => t.mem = [(0x201A, 5), (0x201C, 9)] && t.port.holder = none && t.control.flags = 0
          && t.engine = run0.engine)
      ∧ after (.noticeWriteComplete (.error false)) (State.discarding run0 (.noticeWrite 0x3000 7))
        (fun t => t.mem = [] && t.port.holder = none && t.control.flags = 0)
      ∧ after (.clearWriteComplete (.error false)) (State.discarding run0 (.clearWrite 0x104000))
        (fun t => t.port.holder = none && t.control.flags = 0 && t.coverage.banks.b.state = .stale)
      ∧ after (.slotReadComplete 1) (State.discarding run0 (.slotRead 15 0x4780))
        (fun t => t.port.holder = none && t.control.flags = 0 && t.loop = run0.loop)
      ∧ after .orderFetchError (State.discarding run0 (.orderRead 0x2000))
        (fun t => t.port.holder = none && t.control.flags = 0 && t.engine = run0.engine)
      ∧ after .preset (State.discarding run0 (.orderRead 0x2000))
        (fun t => t.port.holder = none && t.control.flags = 0 && t.engine = run0.engine) := by decide +kernel

theorem test_WaitingStarts :
    (run0.engine.modBinding .jobchg (fun _ => ⟨true, true, 0⟩)).waits (.binding .jobchg) = true
      ∧ run0.serveStarts = run0 := by decide +kernel

theorem test_FetchErrorAndCancellation :
    (ordered [] run0).holdsRequest (.orderRead 0x2000) (run0.reqWords (.orderRead 0x2000))
      ∧ (∀ k, ((ordered [] run0).engine.bindings.get k).pending = false) ∧ (ordered [] run0).engine.slot = none
      ∧ after .orderFetchError (ordered [] run0) (fun t => t.engine.state = .idle && t.control.flags = 4098)
      ∧ after .orderCancelled (State.eng (ordered [] run0) (fun e => { e with stop := true })) (fun t =>
          t.engine.running.map RunningOrder.outcome = some .cancelled) := by
  refine ⟨rfl, fun k => by cases k <;> rfl, rfl, ?_⟩
  decide +kernel

/-- With a start waiting it is served at once; nothing is written back (R126, R135). -/
theorem test_FetchError_serves : run0.engine.noneWaits
    ∧ after .orderFetchError (State.eng (ordered [] run0) (fun e => { e with slot := some 9 })) (fun t =>
        t.engine.state = .fetching && t.engine.head = 9 && t.port.queue.head? = some (.orderRead 0x2120)) := by
  refine ⟨⟨fun k => by cases k <;> rfl, rfl⟩, ?_⟩
  decide +kernel

/-- The cells of an order over keys 0 to 7 of tower 0 with a value of 1. -/
def keyed (verb : Byte) : List Host.Cell := [(0x2000, verb), (0x2003, 7), (0x2004, 1), (0x2008, 1)]

theorem test_KeyRangeOrders : (ordered (keyed 2) run0).engine.commonFault (fetchedRec (keyed 2)) = none
    ∧ (fetchedRec (keyed 2)).verb = 2 ∧ (fetchedRec (keyed 3)).verb = 3 ∧ (fetchedRec (keyed 4)).verb = 4
    ∧ (fetchedRec (keyed 5)).verb = 5 ∧ (fetchedRec (keyed 6)).verb = 6
    ∧ (match (ordered (keyed 2) run0).towerSet true (fetchedRec (keyed 2)) with
      | .ok ts => decide (ts = [0])
      | .error _ => false) = true
    ∧ after .trimAdd (ordered (keyed 3) run0) (fun t =>
        (t.towers[(0 : Tower)].recs[(7 : Slot)]).trim = 1 && (t.towers[(0 : Tower)].recs[(48 : Slot)]).trim = 1
          && t.engine.state = .writingBack) := by decide +kernel

/-- A PRESET over keys 0 to 7 with pace RAMP over 64 pulses. -/
def presetCells : List Host.Cell := [(0x2000, 1), (0x2003, 7), (0x2004, 4), (0x2006, 64)]

theorem test_Preset : (fetchedRec presetCells).verb = 1 ∧ (fetchedRec presetCells).curve ≤ 15
    ∧ (fetchedRec presetCells).ramp = true ∧ (fetchedRec presetCells).steps ≤ 64
    ∧ (ordered presetCells armed0).engine.commonFault (fetchedRec presetCells) = none
    ∧ (armed0.coverage.banks.get (armed0.coverage.role false)).state = .locked
    ∧ (armed0.coverage.frame (armed0.coverage.role false) 0).fit = true
    ∧ after .preset (ordered presetCells (State.tower0 armed0 (TowerState.mod 0 (fun r => { r with base := 9 })))) (fun t =>
        (t.towers[(0 : Tower)].recs[(0 : Slot)]).ramp = some ⟨9, 0, 0, 64⟩) := by decide +kernel

/-- A head that faults at its first visit disarms the binding its chain is tied to (R136). -/
theorem test_WriteBack_disarms :
    after .verbFault
        (ordered [(0x2000, 13)] (State.eng run0 (fun e =>
          { e.modBinding .jobchg (fun _ => ⟨true, true, 5⟩) with tie := some .jobchg, visited := 1 })))
        (fun t => t.engine.bindings.jobchg = ⟨false, false, 5⟩ && t.engine.tie = none
          && t.engine.state = .writingBack) = true := by decide +kernel

/-- Bank orders with the values 0, 1 and 2. -/
theorem test_BankOrders : (fetchedRec [(0x2000, 8)]).value = 0 ∧ (fetchedRec (keyed 8)).value = 1
    ∧ (fetchedRec (keyed 7)).verb = 7 ∧ (fetchedRec (keyed 9)).verb = 9
    ∧ after .lockBank (ordered (keyed 8) open0) (fun t =>
        t.coverage.banks.b.state = .locked && t.engine.running.map RunningOrder.outcome = some .done)
    ∧ after .unlockBank (ordered (keyed 9) open0) (fun t =>
        t.engine.running.map RunningOrder.outcome = some (.fault .bankState))
    ∧ after .lockBank (ordered [(0x2000, 8), (0x2008, 2)] open0) (fun t =>
        t.engine.running.map RunningOrder.outcome = some (.fault .range)) := by decide +kernel

/-- CLEAR_BANK over a plan with words, and over one with none (R35, R120). -/
theorem test_ClearOrder : run0.coverage.clearing .a = false ∧ run0.coverage.clearing .b = false
    ∧ planWords (clearPlan run0.coverage ⟨0x100000, 0x8000⟩ .b) = 240
    ∧ after .clearBank (ordered (keyed 7) run0) (fun t =>
        t.coverage.banks.b.state = .clearing && t.control.flags = 0)
    ∧ after .clearBank (ordered (keyed 7)
          { run0 with coverage := { run0.coverage with geometry := Coverage.reset.geometry } }) (fun t =>
        t.coverage.banks.b.state = .opened && t.control.flags = 32) := by decide +kernel

theorem test_SwapOrder : (fetchedRec [(0x2000, 10)]).verb = 10
    ∧ after .swapBanks (ordered [(0x2000, 10)] (State.banks run0 .stale .locked)) (fun t => t.coverage.active = .b)
    ∧ after .swapBanks (ordered [(0x2000, 10)] run0) (fun t =>
        t.engine.running.map RunningOrder.outcome = some (.fault .bankState)) := by decide +kernel

theorem test_LoopOrders : (fetchedRec [(0x2000, 11)]).verb = 11 ∧ (fetchedRec [(0x2000, 12)]).verb = 12
    ∧ (fetchedRec []).verb = 0
    ∧ (match (ordered [(0x2000, 11)] run0).towerSet false (fetchedRec [(0x2000, 11)]) with
      | .ok ts => decide (ts = [0])
      | .error _ => false) = true
    ∧ after .orderLoopOn (ordered [(0x2000, 11)] run0) (fun t => t.towers[(0 : Tower)].loop = .settling)
    ∧ after .nop (ordered [] run0) (fun t => t.engine.running.map RunningOrder.outcome = some .done) := by decide +kernel

/-- The checks of R117 in their order, each at its first value, and a tower that an order may not name (R118). -/
theorem test_FailedChecks :
    after .nop (State.eng (ordered [] run0) (fun e => { e with visited := 65 })) (fun t =>
        t.engine.running.map RunningOrder.outcome = some (.fault .chainLoop))
      ∧ after .nop (ordered [(0x201C, 2)] run0) (fun t =>
        t.engine.running.map RunningOrder.outcome = some (.fault .exhausted))
      ∧ after .verbFault (ordered [(0x2000, 13)] run0) (fun t =>
        t.engine.running.map RunningOrder.outcome = some (.fault .verb))
      ∧ after .nop (ordered [(0x2004, 8), (0x200A, 64)] run0) (fun t =>
        t.engine.running.map RunningOrder.outcome = some (.fault .link))
      ∧ after .hold (ordered [(0x2000, 5), (0x2001, 12)] run0) (fun t =>
        t.engine.running.map RunningOrder.outcome = some (.fault .tower)) := by decide +kernel

/-- An order that fails no common check, the last of the table linked at the 64th visit (R117). -/
theorem test_commonFault_none :
    (State.eng run0 (fun e => { e with visited := 64 })).engine.commonFault
        (fetchedRec [(0x2000, 12), (0x2004, 8), (0x2007, 2), (0x200A, 63)]) = none
      ∧ run0.engine.table = some ⟨0x2000, 64⟩ := by decide +kernel

/-- The record's address, within the address space and past its end (R114; log 14). -/
theorem test_recordAddr :
    Engine.recordAddr { Engine.reset with table := some ⟨0x2000, 64⟩, current := 63 } = 0x27E0
      ∧ Engine.recordAddr { Engine.reset with table := some ⟨0xFFFFFE0, 64⟩, current := 1 } = 0 := by decide +kernel

/-- The curve of a key by name, of a key by default, and of the fountain (R42). -/
theorem test_presetCurve :
    presetCurve [[0], [1], [2]] { fetchedRec [] with curve := 1 } (some ⟨8, 800, 2, true, 0⟩) 47 = [1]
      ∧ presetCurve [[0], [1], [2]] { fetchedRec [] with curve := 31 } (some ⟨8, 800, 2, true, 0⟩) 0 = [2]
      ∧ presetCurve [[0], [1], [2]] { fetchedRec [] with curve := 1 } (some ⟨8, 800, 2, true, 0⟩) 48 = [0]
      ∧ linearCurves[15]? = some linearCurve := by decide +kernel

/-- RANGE at its ends for ALL and for a tower of eight keys, and the four faults of PRESET in their order (R43,
R118). -/
theorem test_RangeAndPreset :
    verbRow .trimAdd 3 ∧ verbRow .verbFault 13
      ∧ after .trimAdd (ordered [(0x2000, 3), (0x2003, 8)] run0) (fun t =>
        t.engine.running.map RunningOrder.outcome = some (.fault .range))
      ∧ after .trimAdd (ordered [(0x2000, 3), (0x2001, 15), (0x2003, 48)] run0) (fun t =>
        t.engine.running.map RunningOrder.outcome = some (.fault .range))
      ∧ after .orderLoopOff (ordered [(0x2000, 12), (0x2001, 1)] run0) (fun t =>
        t.engine.running.map RunningOrder.outcome = some (.fault .tower))
      ∧ after .preset (ordered (presetCells ++ [(0x2005, 16)]) run0) (fun t =>
        t.engine.running.map RunningOrder.outcome = some (.fault .range))
      ∧ after .preset (ordered [(0x2000, 1), (0x2003, 7), (0x2004, 4), (0x2006, 65)] run0) (fun t =>
        t.engine.running.map RunningOrder.outcome = some (.fault .range))
      ∧ after .preset (ordered presetCells run0) (fun t =>
        t.engine.running.map RunningOrder.outcome = some (.fault .bankState))
      ∧ after .preset (ordered presetCells { armed0 with coverage := armed0.coverage.unfit .a 0 }) (fun t =>
        t.engine.running.map RunningOrder.outcome = some (.fault .frameUnfit)) := by
  refine ⟨by unfold verbRow; decide, by unfold verbRow; decide, ?_⟩
  decide +kernel

/-! ### Press signals -/

theorem test_Sheet_ramp : after .sheet (State.tower0 run0 (TowerState.mod 0 (fun _ => ramped0)))
    (fun t => t.towers[(0 : Tower)].recs[(0 : Slot)] = { ramped0 with ramp := none, target := 200, move := .inFlight, commanded := some 200, timer := some 20 })
    = true := by decide +kernel

/-- Settling at its last pulse and before it; the SHEET binding at its divisor and before it (R134, R148). -/
theorem test_Sheet_counts :
    after .settleEnd (State.tower0 run0 (fun t => { t with loop := .settling, settle := 1 }))
        (fun t => t.towers[(0 : Tower)].loop = .armed)
      ∧ after .sheet (State.tower0 run0 (fun t => { t with loop := .settling, settle := 2 }))
        (fun t => t.towers[(0 : Tower)].loop = .settling && t.towers[(0 : Tower)].settle = 1)
      ∧ after .sheet (State.eng run0 (fun e => { e.modBinding .sheet (fun _ => ⟨true, false, 5⟩) with divisor := 2 }))
        (fun t => t.engine.counter = 1)
      ∧ after .sheetFiring
        (State.eng run0 (fun e => { e.modBinding .sheet (fun _ => ⟨true, true, 5⟩) with divisor := 2, counter := 1 }))
        (fun t => t.engine.counter = 0 && t.control.flags = 512) := by decide +kernel

/-- At its divisor the SHEET binding starts its chain when the engine is IDLE with nothing else waiting (R134, R135). -/
theorem test_Sheet_fires :
    run0.engine.state = .idle ∧ (State.eng run0 (fun e => e.modBinding .sheet (fun _ => ⟨true, false, 5⟩))).engine.slot = none
      ∧ after .sheetFiring
        (State.eng run0 (fun e => { e.modBinding .sheet (fun _ => ⟨true, false, 5⟩) with divisor := 2, counter := 1 }))
        (fun t => t.engine.state = .fetching && t.engine.head = 5 && t.engine.tie = some .sheet
          && t.port.queue.take 1 = [.orderRead 0x20A0]) := by decide +kernel

/-- With the transmitter busy a key whose ramp ends joins the tail of the queue (R46, R55). -/
theorem test_Sheet_handsOn : (gap 0 (State.tower0 run0 (TowerState.mod 0 (fun _ => ramped0)))).link.tx ≠ .idle
    ∧ after .sheet (gap 0 (State.tower0 run0 (TowerState.mod 0 (fun _ => ramped0)))) (fun t =>
        t.towers[(0 : Tower)].recs[(0 : Slot)] = { ramped0 with ramp := none, target := 200, move := .queued }
          && t.towers[(0 : Tower)].queue = [0]) := by decide +kernel

theorem test_Edges : run0.levels.impr = false
    ∧ after .imprRise (serving .ready false) (fun t => t.towers[(0 : Tower)].service = .printing && t.levels.impr)
    ∧ after .imprFall { run0 with levels := ⟨false, true, false⟩ } (fun t =>
        t.towers[(0 : Tower)].service = .ready && !t.levels.impr)
    ∧ after .imprFall { flying .inFlight 0 with levels := ⟨false, true, false⟩ } (fun t =>
        t.towers[(0 : Tower)] = { (flying .inFlight 0).towers[(0 : Tower)] with service := .ready })
    ∧ after .jobchg (State.eng run0 (fun e => e.modBinding .jobchg (fun _ => ⟨true, false, 5⟩)))
        (fun t => t.engine.state = .fetching && t.engine.head = 5 && !t.engine.bindings.jobchg.pending) := by
  decide +kernel

/-- A firing of IMPR_ON and of IMPR_OFF in each of its cases: pending, running, idle (R134, R135). -/
theorem test_Firings :
    after .imprRise (State.eng run0 (fun e => e.modBinding .imprOn (fun _ => ⟨true, true, 5⟩)))
        (fun t => t.control.flags = 512)
      ∧ after .imprRise
        (State.eng run0 (fun e => { e.modBinding .imprOn (fun _ => ⟨true, false, 5⟩) with state := .fetching }))
        (fun t => t.engine.bindings.imprOn = ⟨true, true, 5⟩)
      ∧ after .imprFall
        { State.eng run0 (fun e => e.modBinding .imprOff (fun _ => ⟨true, false, 5⟩)) with
          levels := ⟨false, true, false⟩ } (fun t =>
        t.engine.state = .fetching && t.engine.head = 5 && t.engine.tie = some .imprOff) := by decide +kernel

/-- An edge onto the level already taken (log 1). -/
theorem test_Edges_taken : State.levels { run0 with levels := ⟨false, true, false⟩ } = ⟨false, true, false⟩
    ∧ after .imprRise { run0 with levels := ⟨false, true, false⟩ } (fun t =>
        t = { run0 with levels := ⟨false, true, false⟩ })
    ∧ after .imprFall run0 (fun t => t = run0) := by decide +kernel

/-! ### The key drive link and the timers -/

theorem test_LineTiming : after .sendingEnd { run0 with link := { run0.link with tx := .sending [1] } }
      (fun t => t.link.tx = .gap)
    ∧ (∀ u : Tower, (gap 11 run0).towers[u].hasWork = false)
    ∧ after .gapEnd (gap 11 run0) (fun t => t.link.tx = .idle && t.link.pointer = 11)
    ∧ after .gapEnd (gap 0 (State.tower0 run0 (fun t => { t with queryPending := true })))
        (fun t => t.link.tx = .sending (frameBytes 1 kindQuery 255 0 0) && t.link.pointer = 0) := by decide +kernel

theorem test_Answers_hypotheses : (flying .inFlight 0).link.tx ≠ .idle ∧ (flying .inFlight 0).towerAt 1 = some 0
    ∧ (flying .inFlight 0).towerAt 2 = none
    ∧ (flying .inFlight 0).towers[(0 : Tower)].slotOf 0 = some 0
    ∧ (flying .inFlight 0).towers[(0 : Tower)].slotOf 63 = some 48 ∧ (1000 : Half).toNat ≤ 1000
    ∧ ((flying .inFlight 0).towers[(0 : Tower)].recs[(0 : Slot)]).matchesTag 15 = true
    ∧ ((flying .inFlight 0).towers[(0 : Tower)].recs[(0 : Slot)]).matchesTag 16 = false := by decide +kernel

theorem test_Answers_results :
    after (.done 1 0 15 7) (flying .retarget 2) (fun t =>
        (t.towers[(0 : Tower)].recs[(0 : Slot)]).move = .queued && t.towers[(0 : Tower)].queue = [0]
          && t.towers[(0 : Tower)].flight = [])
      ∧ after (.done 1 0 15 7) (flying .inFlight 2) (fun t => (t.towers[(0 : Tower)].recs[(0 : Slot)]).move = .idle)
      ∧ after (.stall 1 0 15 3) (flying .inFlight 1) (fun t => (t.towers[(0 : Tower)].recs[(0 : Slot)]).move = .queued)
      ∧ after (.keyFault (.stall 1 0 15 3)) (flying .inFlight 2) (fun t =>
        (t.towers[(0 : Tower)].recs[(0 : Slot)]).move = .fault && t.control.flags = 4)
      ∧ after (.report 1 0 0 3) (flying .inFlight 2) (fun t =>
        (t.towers[(0 : Tower)].recs[(0 : Slot)]).reported = some 3
          && (t.towers[(0 : Tower)].recs[(0 : Slot)]).commanded = some 7) := by decide +kernel

/-- A key that is not present, the fountain of a tower with none, and a position above 1000 (R73, R74). -/
theorem test_Answers_noKey : (flying .inFlight 0).towers[(0 : Tower)].slotOf 8 = none
    ∧ (flying .inFlight 0).towers[(0 : Tower)].slotOf 62 = none ∧ 1000 < (1001 : Half).toNat
    ∧ after (.done 1 0 15 1001) (State.tower0 (flying .inFlight 0) (fun t => { t with timeouts := 2 })) (fun t =>
        (t.towers[(0 : Tower)].recs[(0 : Slot)]).move = .inFlight && t.towers[(0 : Tower)].timeouts = 0) := by
  decide +kernel

/-- The transmitter IDLE with nothing to send, and a HELLO and a trim that give it a frame (R55, R88, R89). -/
theorem test_IdleSearches : run0.atRest
    ∧ (after (.hello 1 0 0 0) run0 (fun t =>
        t.link.tx = .sending (frameBytes 1 kindQuery 255 0 0) && t.link.pointer = 0)
      ∧ after (.trimWrite .console 0x8320 9 0)
        (State.tower0 run0 (TowerState.mod 0 (fun r => { r with commanded := some 0 })))
        (fun t => t.link.tx = .sending (frameBytes 1 kindMove 0 0 9) && t.towers[(0 : Tower)].flight = [0])) := by
  refine ⟨⟨rfl, fun u => ⟨?_, ?_⟩⟩, by decide +kernel⟩
  · revert u
    decide +kernel
  · revert u
    decide +kernel

theorem test_Hello : (gap 0 (serving .faulted false)).towerAt 1 = some 0
    ∧ (gap 0 (serving .faulted false)).link.tx ≠ .idle
    ∧ after (.hello 1 0 0 0) (gap 0 (serving .faulted false)) (fun t =>
        t.towers[(0 : Tower)].service = .parked && t.towers[(0 : Tower)].haltPending && t.control.flags = 16)
    ∧ after (.hello 1 0 0 0) (gap 0 (serving .parking true)) (fun t => t.towers[(0 : Tower)].service = .parked)
    ∧ after (.hello 1 0 0 0) (flying .inFlight 2) (fun t =>
        t.towers[(0 : Tower)].recs[(0 : Slot)] = { KeyRec.reset with tag := 15, target := 9 }) := by
  decide +kernel

/-- A run of seven bytes and a rest, and a whole frame with a wrong check, one with no tower, one with no answer's
kind (R93, R94). -/
theorem test_BadFrames : ([1, 2, 3, 4, 5, 6, 7] : List Byte).length < 8 ∧ (0 : Byte) ≠ 0xA5#8
    ∧ crc8 [1, 0x11, 0, 0, 0, 0] ≠ 0 ∧ run0.towerAt 2 = none ∧ (0x10 : Byte) ≠ 0x11#8
    ∧ after (.frameDiscarded (.rest :: ([0xA5, 1, 0x11, 0, 0, 0, 0, 0] : List Byte).map (fun b => .byte b true))) run0
        (fun t => t.link.rx = .awaitRest) := by decide +kernel

/-- Timeouts: the first in a row, the key's third, the tower's third in a row (R71, R74, R75). -/
theorem test_Timeouts : ((flying .inFlight 0).towers[(0 : Tower)].recs[(0 : Slot)]).timer.isSome = true
    ∧ after (.moveTimeout 0 0) (flying .inFlight 1) (fun t =>
        (t.towers[(0 : Tower)].recs[(0 : Slot)]).move = .queued && t.towers[(0 : Tower)].queue = [0])
    ∧ after (.keyFault (.timeout 0 0)) (flying .inFlight 2) (fun t => t.control.flags = 4)
    ∧ after (.towerDown 0 0) (State.tower0 (flying .inFlight 0) (fun t => { t with timeouts := 2 })) (fun t =>
        t.towers[(0 : Tower)].service = .faulted && t.control.flags = 8
          && (t.towers[(0 : Tower)].recs[(0 : Slot)]).move = .idle
          && (t.towers[(0 : Tower)].recs[(0 : Slot)]).tries = 0) := by decide +kernel

/-! ### The configuration loader and the resets -/

/-- A section's words: length, content, check. -/
def section_ (c : List Half) : List Half := [BitVec.ofNat 16 c.length] ++ c ++ [checkSum c]

/-- GLOBAL, and TOWER 0. -/
def globalWords : List Half := [0x2000, 0, 64, 0, 0, 0, 0, 1, 0x3FFF, 20, 16]
def towerWords : List Half := [1, 8, 96, 4, 10, 16, 22, 28, 34, 40, 46, 52, 800, 0, 1, 0, 1450, 400, 20, 30, 60, 10, 50]

/-- Words as the configuration memory holds them, the most significant byte first. -/
def bytesOf (ws : List Half) : List Byte := ws.flatMap (fun w => [w.extractLsb' 8 8, w.extractLsb' 0 8])

/-- An image of four pointers with GLOBAL at word 6 and TOWER 0 at word 19. -/
def image0 : List Byte := bytesOf ([0x5A3C, 4, 6, 0, 0, 19] ++ section_ globalWords ++ section_ towerWords)

theorem test_Header : State.reset.loader.state = .readingHeader ∧ imageWord image0 0 = 0x5A3C#16
    ∧ 1 ≤ (imageWord image0 1).toNat ∧ (imageWord (bytesOf [0x5A3C, 16]) 1).toNat ≤ 16
    ∧ imageWord (bytesOf [0, 4]) 0 ≠ 0x5A3C#16 ∧ (imageWord (bytesOf [0x5A3C, 0]) 1).toNat < 1
    ∧ 16 < (imageWord (bytesOf [0x5A3C, 17]) 1).toNat
    ∧ after (.headerRead image0) State.reset (fun t => t.loader.state = .reading 0)
    ∧ after (.headerRead (bytesOf [0, 4])) State.reset (fun t =>
        t.control.part = .passOnly && t.control.flags = 8192) := by
  decide +kernel

/-- The read of GLOBAL begins at byte 12 when the header has been read; nothing is read after a bad header, nor after
one whose first pointer is 0 (R169). -/
theorem test_Header_port :
    after (.headerRead image0) State.reset (fun t =>
        t.loader.spi = ⟨false, [3, 0, 12], [.receive 6, .csHigh, .csLow, .send 3, .send 0, .send 12]⟩)
      ∧ after (.headerRead (bytesOf [0, 4])) State.reset (fun t => t.loader.spi = ⟨true, [], [.receive 2, .csHigh]⟩)
      ∧ imageWord image0 2 ≠ 0 ∧ imageWord (bytesOf [0x5A3C, 1, 0]) 2 = 0 := by decide +kernel

/-- The bytes a memory of two bytes gives, and what a memory that does not answer gives past them (R169). -/
theorem test_Header_bytes : ([0x5A, 0x3C] : List Byte)[1]? = some 0x3C ∧ ([0x5A, 0x3C] : List Byte)[2]? = none
    ∧ imageWord [0x5A, 0x3C] 0 = 0x5A3C#16 := by decide +kernel

/-- The header of that image. -/
def header0 : Header := ⟨4, [6, 0, 0, 19]⟩

theorem test_Section_good : readSection header0 image0 0 = .good globalWords ∧ globalOf globalWords = some global0
    ∧ readSection header0 image0 3 = .good towerWords ∧ towerOf Staged.empty.holds towerWords = some section0
    ∧ readHeader image0 = some header0 := by decide +kernel

/-- A section that is absent, one whose pointer lies in the header, a GLOBAL out of range. -/
theorem test_Section_bad : readSection header0 image0 1 = .absent ∧ readSection ⟨4, [5]⟩ image0 0 = .bad
    ∧ globalOf [0x2000, 0, 65, 0, 0, 0, 0, 1, 0x3FFF, 20, 16] = none := by decide +kernel

/-- A load that stands at a section, its header read. -/
def loading (n : Fin 16) (st : Staged) (h : Header) : State :=
  { State.reset with loader := ⟨.reading n, some h, st, ⟨false, [3, 0, 12], []⟩⟩ }

/-- Two sections judged one after the other (R171). -/
theorem test_Section_results :
    after (.sectionRead image0) (loading 0 Staged.empty header0)
        (fun t => t.loader.state = .reading 1 && t.loader.staged.globals = some global0)
      ∧ after (.sectionRead image0) (loading 3 Staged.empty header0)
        (fun t => t.loader.state = .reading 4 && t.loader.staged.towers[(0 : Tower)] = some section0) := by decide +kernel

/-- Sections of a second image: WINDOWS of one CONTROL entry, of none, CURVES with its first curve falling, PRELOAD of
one pair, of none. -/
def controlEntry : List Half := [0x0201, 0x1000, 0, 0, 0, 0x0807]
def curveWords : List Half := [1] ++ List.replicate 175 0
def pairWords : List Half := [0x3000, 0, 1, 0]

/-- An image with those at words 18, 26, 29, 207 and 213, and the pointers that lead to one kind at one of them. -/
def image1 : List Byte :=
  bytesOf ([0x5A3C, 16] ++ List.replicate 16 0 ++ section_ controlEntry ++ section_ [] ++ [0] ++ section_ curveWords
    ++ section_ pairWords ++ section_ [])
def leading (kind : Nat) (p : Half) : Header := ⟨16, (List.replicate 16 0).set kind p⟩

theorem test_Section_windows : readSection (leading 1 18) image1 1 = .good controlEntry
    ∧ (windowsOf controlEntry).1 = [some ⟨.control, 0x1000, 128, 7, 8⟩, none, none, none, none, none, none, none]
    ∧ (windowsOf controlEntry).2 = false ∧ (windowsOf ([1] ++ controlEntry)).2 = true
    ∧ readSection (leading 1 26) image1 1 = .good [] ∧ (windowsOf []).1 = noWindows
    ∧ after (.sectionRead image1) (loading 1 Staged.empty (leading 1 18)) (fun t =>
        t.loader.state = .reading 2 && t.loader.spi.csN && t.control.flags = 0)
    ∧ after (.sectionRead image1) (loading 1 Staged.empty (leading 1 26)) (fun t =>
        t.control.part = .passOnly && t.control.flags = 8192) := by decide +kernel

theorem test_Section_curves : readSection (leading 2 29) image1 2 = .good curveWords ∧ (curvesOf curveWords).2 = true
    ∧ readSection (leading 2 28) image1 2 = .bad ∧ readSection (leading 2 0) image1 2 = .absent
    ∧ after (.sectionRead image1) (loading 2 Staged.empty (leading 2 29)) (fun t =>
        t.loader.state = .reading 3 && t.control.flags = 8192 && t.loader.staged.curves.getD 0 [] = linearCurve
          && t.loader.staged.curves.getD 15 [] = List.replicate 11 0)
    ∧ after (.sectionRead image1) (loading 2 Staged.empty (leading 2 0)) (fun t =>
        t.control.flags = 0 && !t.loader.spi.csN) := by decide +kernel

/-- A TOWER section good in framing whose address another staged tower holds (R174). -/
theorem test_Section_towerContent :
    towerOf (Staged.holds { Staged.empty with towers := Staged.empty.towers.set 5 (some section0) }) towerWords = none
      ∧ after (.sectionRead image0)
        (loading 3 { Staged.empty with towers := Staged.empty.towers.set 5 (some section0) } header0)
        (fun t => t.loader.state = .reading 4 && t.control.flags = 8192
          && t.loader.staged.towers[(0 : Tower)] = none) := by decide +kernel

theorem test_Section_preload : readSection (leading 15 207) image1 15 = .good pairWords
    ∧ preloadOf pairWords = [(0x3000, 1)] ∧ readSection (leading 15 213) image1 15 = .good [] ∧ preloadOf [] = []
    ∧ after (.sectionRead image1) (loading 15 Staged.empty (leading 15 207)) (fun t =>
        t.loader.state = .preloading 0 && t.port.queue = [.preloadWrite 0x3000 1])
    ∧ after (.sectionRead image1) (loading 15 { Staged.empty with globals := some global0 } (leading 15 213))
        (fun t => t.control.part = .running && t.timeout = 20) := by decide +kernel

/-- The judgements at the ends of their ranges: a GLOBAL right after the header, a check word past word 4095, a
window size below 64 B and over 64 MB, a second CONTROL entry, a COVERAGE entry that shares an address with another
(R3, R23, R170). -/
theorem test_Sections_ends :
    readSection ⟨1, [3]⟩ (bytesOf ([0x5A3C, 1, 3] ++ section_ globalWords)) 0 = .good globalWords
      ∧ readSection ⟨1, [3]⟩ (bytesOf [0x5A3C, 1, 3, 4092]) 0 = .bad
      ∧ checkEntry [] [0x0001, 0, 0, 64, 0, 15] = (some ⟨.coverage, 0, 64, 15, 0⟩, false)
      ∧ checkEntry [] [0x0001, 0, 0, 32, 0, 15] = (none, true)
      ∧ checkEntry [] [0x0501, 0, 0, 0, 0x0400, 15] = (some ⟨.guard, 0, 0x4000000, 15, 0⟩, false)
      ∧ checkEntry [] [0x0501, 0, 0, 0, 0x0800, 15] = (none, true)
      ∧ checkEntry [some ⟨.control, 0, 128, 15, 0⟩] controlEntry = (none, true)
      ∧ checkEntry [] [0x0601, 0, 0, 64, 0, 15] = (none, true) ∧ checkEntry [] [0x0600, 0, 0, 64, 0, 15] = (none, false)
      ∧ sharesAddress [some ⟨.coverage, 0, 64, 15, 0⟩, some ⟨.guard, 0, 128, 15, 0⟩] ⟨.coverage, 0, 64, 15, 0⟩
      ∧ (windowsOf ([0x0001, 0, 0, 64, 0, 15] ++ [0x0501, 0, 0, 128, 0, 15])).1.take 2
        = [none, some ⟨.guard, 0, 128, 15, 0⟩] := by
  refine ⟨by decide +kernel, by decide +kernel, by decide +kernel, by decide +kernel, by decide +kernel,
    by decide +kernel, by decide +kernel, by decide +kernel, by decide +kernel,
    ⟨rfl, ⟨.guard, 0, 128, 15, 0⟩, by decide, by decide, by decide, by decide⟩, by decide +kernel⟩

/-- A tower reset whose section is good, and one whose section cannot be read (R108, R109). -/
theorem test_TowerReset : run0.reread 0 image0 = some section0 ∧ run0.reread 0 (bytesOf [0, 4]) = none
    ∧ run0.coverage.geometry[(0 : Tower)] = some section0.geometry
    ∧ after (.sectionReloadComplete image0)
        { gap 0 run0 with loader := { run0.loader with state := .section_ 0 } }
        (fun t => t.towers[(0 : Tower)].service = .parked && t.coverage.geometry[(0 : Tower)] = some geometry0
          && t.loader.spi.csN && (t.coverage.frame .a 0).fit)
    ∧ after (.sectionReloadComplete image0)
        { flying .inFlight 2 with
          loader := { run0.loader with state := .section_ 0 }, loop := { run0.loop with readList := [3] } }
        (fun t => t.towers[(0 : Tower)].recs[(0 : Slot)] = { KeyRec.reset with tag := 15 }
          && t.loop.overReset[(3 : Fin 16)] = 1 && t.loop.overReset[(4 : Fin 16)] = 0)
    ∧ after (.sectionReloadComplete (bytesOf [0, 4]))
        { gap 0 run0 with loader := { run0.loader with state := .section_ 0 } }
        (fun t => t.towers[(0 : Tower)].service = .unconfigured && t.control.flags = 8192
          && !(t.coverage.frame .a 0).fit) := by decide +kernel

/-- A fold into the frame of a tower whose geometry a section reload takes away becomes void; where the geometry is the
same it does not (R29, R36). -/
theorem test_TowerReset_voidsFold :
    after (.sectionReloadComplete (bytesOf [0, 4]))
        { gap 0 run0 with
          loader := { run0.loader with state := .section_ 0 }
          coverage := { run0.coverage with latch := some (fold0 none) } }
        (fun t => t.coverage.latch = some { fold0 none with void := true })
      ∧ after (.sectionReloadComplete image0)
        { gap 0 run0 with
          loader := { run0.loader with state := .section_ 0 }
          coverage := { run0.coverage with latch := some (fold0 none) } }
        (fun t => t.coverage.latch = some (fold0 none)) := by decide +kernel

/-- A section whose address another configured tower holds is none (R86, R174, R178). -/
theorem test_TowerReset_address :
    State.reread 1 image0 { run0 with loader := { run0.loader with state := .section_ 1 } } = none
      ∧ State.reread 0 image0 { run0 with towers := run0.towers.set 11 tower0 } = none := by decide +kernel

/-- A pin reset with an access at the port, a second before memory has answered it, and one with a request at the port
(R20). -/
theorem test_PinReset :
    after (.pinReset 0) (State.holding run0 ⟨.service, 0, .read, 1, 0⟩ .plain ⟨0, .read, 1, 0⟩)
        (fun t => t.port.holder = some (.orphan ⟨0, .read, 1, 0⟩) && t.lastResponse.service = some .busError
          && after (.pinReset 3) t (fun u => u.port.holder = some (.orphan ⟨0, .read, 1, 0⟩)))
      ∧ after (.pinReset 1) (State.requesting run0 (.noticeWrite 0x3000 7))
        (fun t => t.port.holder = none && t.mem = [(0x3000, 7)])
      ∧ after (.pinReset 2) (State.requesting run0 (.orderWrite 0x2000 5 9))
        (fun t => t.port.holder = none && t.mem = [(0x201C, 9)]) := by decide +kernel

end Sys2Proof.Tests
end

section
/-! PROOFS. The roles of the two coverage banks. -/

namespace Sys2Proof.Machine

/-- The role ACTIVE is the bank that the coverage unit holds as active (R32). -/
@[simp] theorem Coverage.role_false (c : Coverage) : c.role false = c.active := rfl

/-- The role STANDBY is the other bank's (R32). -/
@[simp] theorem Coverage.role_true (c : Coverage) : c.role true = otherBank c.active := rfl

/-- Settles O9, by the bank that is active: the role STANDBY is the other one's. -/
theorem oneBankIsActive : Obligations.OneBankIsActive := by
  unfold Obligations.OneBankIsActive
  intro s
  rw [Coverage.role_false, Coverage.role_true]
  cases s.coverage.active with
  | a => exact .inl ⟨rfl, rfl⟩
  | b => exact .inr ⟨rfl, rfl⟩

end Sys2Proof.Machine
end

section
/-! PROOFS. The points of a valid curve, and the curve's value between two of them. -/

namespace Sys2Proof.Machine

/-! ### Points -/

@[simp] theorem curvePoint_nil (i : Nat) : curvePoint [] i = 0 := rfl

@[simp] theorem curvePoint_cons_zero (p : Nat) (c : Curve) : curvePoint (p :: c) 0 = p := rfl

@[simp] theorem curvePoint_cons_succ (p : Nat) (c : Curve) (i : Nat) :
    curvePoint (p :: c) (i + 1) = curvePoint c i := rfl

@[simp] theorem curveValid_singleton (p : Nat) : curveValid [p] = true ↔ p ≤ 1000 := decide_eq_true_iff

@[simp] theorem curveValid_cons_cons (p q : Nat) (r : Curve) :
    curveValid (p :: q :: r) = true ↔ p ≤ q ∧ p ≤ 1000 ∧ curveValid (q :: r) = true := by
  simp [curveValid, and_assoc]

/-- No point of a valid curve is above 1000 (R40). -/
theorem curvePoint_le_of_valid {c : Curve} (hc : curveValid c = true) (i : Nat) : curvePoint c i ≤ 1000 := by
  induction c using curveValid.induct generalizing i with
  | case1 => simp
  | case2 p => cases i with
    | zero => simpa using hc
    | succ j => simp
  | case3 p q r ih =>
    obtain ⟨-, hp, hqr⟩ := (curveValid_cons_cons p q r).mp hc
    cases i with
    | zero => exact hp
    | succ j => exact ih hqr j

/-- No point of a valid curve is below the point before it (R40). -/
theorem curvePoint_le_succ_of_valid {c : Curve} (hc : curveValid c = true) {i : Nat} (hi : i + 1 < c.length) :
    curvePoint c i ≤ curvePoint c (i + 1) := by
  induction c using curveValid.induct generalizing i with
  | case1 => simp
  | case2 p => simp at hi
  | case3 p q r ih =>
    obtain ⟨hpq, -, hqr⟩ := (curveValid_cons_cons p q r).mp hc
    cases i with
    | zero => exact hpq
    | succ j => exact ih hqr (Nat.lt_of_succ_lt_succ hi)

/-! ### Values -/

theorem evalCurve_last (c : Curve) : evalCurve c 1000 = curvePoint c 10 := rfl

theorem evalCurve_of_ne (c : Curve) {x : Nat} (hx : x ≠ 1000) :
    evalCurve c x = curvePoint c (x / 100)
      + (curvePoint c (x / 100 + 1) - curvePoint c (x / 100)) * (x % 100) / 100 := if_neg hx

theorem evalCurve_of_multiple (c : Curve) {x : Nat} (hx : x % 100 = 0) :
    evalCurve c x = curvePoint c (x / 100) := by
  by_cases hlast : x = 1000
  · subst hlast
    exact evalCurve_last c
  · rw [evalCurve_of_ne c hlast, hx, Nat.mul_zero, Nat.zero_div, Nat.add_zero]

theorem curvePoint_le_evalCurve (c : Curve) {x : Nat} (hx : x ≠ 1000) :
    curvePoint c (x / 100) ≤ evalCurve c x := by
  rw [evalCurve_of_ne c hx]
  exact Nat.le_add_right _ _

/-- The part of the difference that R41 adds is at most the whole of it, because f is below 100. -/
theorem evalCurve_le_curvePoint {c : Curve} {x : Nat} (hx : x ≠ 1000)
    (hup : curvePoint c (x / 100) ≤ curvePoint c (x / 100 + 1)) :
    evalCurve c x ≤ curvePoint c (x / 100 + 1) := by
  rw [evalCurve_of_ne c hx]
  generalize curvePoint c (x / 100) = p at hup ⊢
  generalize curvePoint c (x / 100 + 1) = q at hup ⊢
  have hf : x % 100 ≤ 100 := Nat.le_of_lt (Nat.mod_lt x (by decide))
  calc p + (q - p) * (x % 100) / 100
      ≤ p + (q - p) * 100 / 100 :=
        Nat.add_le_add_left (Nat.div_le_div_right (Nat.mul_le_mul_left (q - p) hf)) p
    _ = q := by rw [Nat.mul_div_cancel (q - p) (by decide), Nat.add_sub_cancel' hup]

theorem evalCurve_le_of_valid {c : Curve} (hlen : c.length = 11) (hc : curveValid c = true) {x : Nat}
    (hx : x ≤ 1000) : evalCurve c x ≤ 1000 := by
  by_cases hlast : x = 1000
  · rw [hlast, evalCurve_last]
    exact curvePoint_le_of_valid hc 10
  · have hup := curvePoint_le_succ_of_valid hc (i := x / 100) (by omega)
    exact Nat.le_trans (evalCurve_le_curvePoint hlast hup) (curvePoint_le_of_valid hc _)

/-- Settles O10: below 1000 the value lies between the two points around the coverage, which are in order. -/
theorem curveEvaluation : Obligations.CurveEvaluation := by
  unfold Obligations.CurveEvaluation
  intro c x hlen hc hx
  refine ⟨fun hlast => ?_, fun hne => ?_, evalCurve_le_of_valid hlen hc hx, evalCurve_of_multiple c⟩
  · rw [hlast]
    exact evalCurve_last c
  · have hup := curvePoint_le_succ_of_valid hc (i := x / 100) (by omega)
    exact ⟨evalCurve_of_ne c hne, hup, curvePoint_le_evalCurve c hne, evalCurve_le_curvePoint hne hup⟩

end Sys2Proof.Machine
end

section
/-! PROOFS. What an event of the machine is: the few operations that the rows of the table come to, and the verbs of an
order, so that what every step keeps is shown once for each of them. -/

namespace Sys2Proof.Machine

/-! ### The operations behind the rows -/

/-- What a fetched order may run (R116, 12.3). -/
inductive Verb : (OrderRec → State → Except FaultCode State) → Prop
  | preset : Verb State.runPreset
  | keyRange (f : OrderRec → KeyRec → KeyRec) : Verb (fun r => State.keyRange r (f r))
  | namedBank (cmd : BankId → BankCmd) : Verb (State.orderNamedBank cmd)
  | swap : Verb (fun _ => State.orderBank .swap)
  | loop (f : TowerState → Result × TowerState) : Verb (State.orderLoop f)
  | nop : Verb (fun _ => .ok)
  | fault : Verb (fun _ _ => .error .verb)

/-- The operations by which the rows of the table but PIN_RESET change the state, ahead of what follows every event. -/
inductive Event : (State → State) → Prop
  | arrive (a : Access) : Event (State.arrive a)
  | grant : Event State.grant
  | answerPass (ans : MemAnswer) : Event (State.answerPass ans)
  | slotRead (errors : BitVec 31) (m : List Host.Cell) :
      Event (State.complete IReq.isSlotRead (readAnswers errors) (State.slotDelivered errors m))
  | firstClear : Event State.firstClear
  | clearWritten (ans : MemAnswer) :
      Event (State.complete IReq.isClearWrite [ans] (fun _ _ => State.clearWritten (answeredOk ans)))
  | orderWritten (a6 a7 : MemAnswer) :
      Event (State.complete IReq.isOrderWrite [a6, a7]
        (fun _ _ => State.orderWritten (!(answeredOk a6 && answeredOk a7))))
  | fetchFailed : Event (State.complete IReq.isOrderRead [.error false] (fun _ _ => State.fetchFailed))
  | mirrorWritten (ans : MemAnswer) :
      Event (State.complete IReq.isMirrorWrite [ans] (fun r _ => State.mirrorWritten (answeredOk ans) r))
  | noticeWritten (ans : MemAnswer) :
      Event (State.complete IReq.isNoticeWrite [ans] (fun _ _ => State.freeChannel))
  | preloadWritten (ans : MemAnswer) :
      Event (State.complete IReq.isPreloadWrite [ans] (fun _ _ s => s.freeChannel.preloadWritten))
  | cancelled : Event State.orderCancelled
  | order (row : Nat → Bool) {run : OrderRec → State → Except FaultCode State} (h : Verb run) :
      Event (State.orderRow row run)
  | sheet : Event State.sheet
  | imprRise : Event State.imprRise
  | imprFall : Event State.imprFall
  | jobchg : Event (State.fire .jobchg)
  | endSending : Event State.endSending
  | endGap : Event State.endGap
  | receive (line : List LineEvent) : Event (State.receive line)
  | timeout (t : Tower) (sl : Slot) : Event (State.takeTimeout t sl)
  | header (image : List Byte) : Event (State.headerEvent image)
  | section_ (image : List Byte) : Event (State.judgeSection image)
  | sectionReloaded (image : List Byte) : Event (State.sectionReloaded image)

/-- A command is a pin reset, or one of the operations with what follows every event. -/
theorem exec_event (i : Instr) (s : State) :
    (∃ l, i = .pinReset l) ∨ ∃ f, Event f ∧ exec i s = .next (State.settle s (f s)) := by
  cases i
  case pinReset l => exact .inl ⟨l, rfl⟩
  case slotReadComplete errors => exact .inr ⟨_, .slotRead errors s.mem, rfl⟩
  case passThroughResponse ans => exact .inr ⟨_, .answerPass ans, rfl⟩
  case foldReadResponse ans => exact .inr ⟨_, .answerPass ans, rfl⟩
  case foldWriteResponse ans => exact .inr ⟨_, .answerPass ans, rfl⟩
  case commitResponse ans => exact .inr ⟨_, .answerPass ans, rfl⟩
  case answerWriteResponse ans => exact .inr ⟨_, .answerPass ans, rfl⟩
  case mpGrant => exact .inr ⟨_, .grant, rfl⟩
  case clearFirstOffer => exact .inr ⟨_, .firstClear, rfl⟩
  case clearWriteComplete ans => exact .inr ⟨_, .clearWritten ans, rfl⟩
  case orderWriteComplete a6 a7 => exact .inr ⟨_, .orderWritten a6 a7, rfl⟩
  case orderFetchError => exact .inr ⟨_, .fetchFailed, rfl⟩
  case orderCancelled => exact .inr ⟨_, .cancelled, rfl⟩
  case mirrorWriteComplete ans => exact .inr ⟨_, .mirrorWritten ans, rfl⟩
  case noticeWriteComplete ans => exact .inr ⟨_, .noticeWritten ans, rfl⟩
  case preloadWriteComplete ans => exact .inr ⟨_, .preloadWritten ans, rfl⟩
  case preset => exact .inr ⟨_, .order _ .preset, rfl⟩
  case trimSet => exact .inr ⟨_, .order _ (.keyRange fun r => setTrim r.value), rfl⟩
  case trimAdd => exact .inr ⟨_, .order _ (.keyRange fun r => addTrim r.value), rfl⟩
  case corrClear => exact .inr ⟨_, .order _ (.keyRange fun _ => setCorrection 0), rfl⟩
  case hold => exact .inr ⟨_, .order _ (.keyRange fun _ => setHold true), rfl⟩
  case release => exact .inr ⟨_, .order _ (.keyRange fun _ => setHold false), rfl⟩
  case clearBank => exact .inr ⟨_, .order _ (.namedBank .clear), rfl⟩
  case lockBank => exact .inr ⟨_, .order _ (.namedBank .lock), rfl⟩
  case unlockBank => exact .inr ⟨_, .order _ (.namedBank .unlock), rfl⟩
  case swapBanks => exact .inr ⟨_, .order _ .swap, rfl⟩
  case orderLoopOn => exact .inr ⟨_, .order _ (.loop TowerState.loopOn), rfl⟩
  case orderLoopOff => exact .inr ⟨_, .order _ (.loop TowerState.loopOff), rfl⟩
  case nop => exact .inr ⟨_, .order _ .nop, rfl⟩
  case verbFault => exact .inr ⟨_, .order _ .fault, rfl⟩
  case sheet => exact .inr ⟨_, .sheet, rfl⟩
  case rampComplete => exact .inr ⟨_, .sheet, rfl⟩
  case settleEnd => exact .inr ⟨_, .sheet, rfl⟩
  case sheetFiring => exact .inr ⟨_, .sheet, rfl⟩
  case imprRise => exact .inr ⟨_, .imprRise, rfl⟩
  case imprFall => exact .inr ⟨_, .imprFall, rfl⟩
  case jobchg => exact .inr ⟨_, .jobchg, rfl⟩
  case sendingEnd => exact .inr ⟨_, .endSending, rfl⟩
  case gapEnd => exact .inr ⟨_, .endGap, rfl⟩
  case done => exact .inr ⟨_, .receive _, rfl⟩
  case stall => exact .inr ⟨_, .receive _, rfl⟩
  case report => exact .inr ⟨_, .receive _, rfl⟩
  case hello => exact .inr ⟨_, .receive _, rfl⟩
  case frameDiscarded => exact .inr ⟨_, .receive _, rfl⟩
  case keyFault cause =>
    cases cause with
    | stall => exact .inr ⟨_, .receive _, rfl⟩
    | timeout t sl => exact .inr ⟨_, .timeout t sl, rfl⟩
  case moveTimeout t sl => exact .inr ⟨_, .timeout t sl, rfl⟩
  case towerDown t sl => exact .inr ⟨_, .timeout t sl, rfl⟩
  case headerRead image => exact .inr ⟨_, .header image, rfl⟩
  case sectionRead image => exact .inr ⟨_, .section_ image, rfl⟩
  case sectionReloadComplete image => exact .inr ⟨_, .sectionReloaded image, rfl⟩
  all_goals exact .inr ⟨_, .arrive _, rfl⟩

/-- A step idles, or runs the front command: a pin reset, or an operation with what follows every event. -/
theorem step_cases {s t : State} (h : step s = .next t) :
    t = s ∨ ∃ c rest, s.pending = c :: rest
      ∧ ((∃ l, t = ({ s with pending := rest } : State).pinReset l)
        ∨ ∃ f, Event f ∧ t = State.settle { s with pending := rest } (f { s with pending := rest })) := by
  unfold step at h
  split at h
  · cases h
    exact .inl rfl
  · next c rest hp =>
    refine .inr ⟨c, rest, hp, ?_⟩
    rcases exec_event c { s with pending := rest } with ⟨l, rfl⟩ | ⟨f, hf, he⟩
    · cases h
      exact .inl ⟨l, rfl⟩
    · rw [he] at h
      cases h
      exact .inr ⟨f, hf, rfl⟩

/-! ### Operations that take a continuation -/

/-- What a completion keeps when the delivery to its unit keeps it. -/
theorem State.complete_induction {P : State → Prop} {due : IReq → Bool} {anss : List MemAnswer}
    {k : IReq → List PortWord → State → State} {s : State} (h : P s) (hc : ∀ ws d, P (s.completed ws anss d))
    (hk : ∀ r ws x, P x → P (k r ws x)) : P (s.complete due anss k) := by
  unfold State.complete
  split
  · next r ws d _ =>
    split
    · split
      · exact hc ws true
      · exact hk r ws _ (hc ws false)
    · exact h
  · exact h

/-- What the row of a fetched order keeps when its verb and the write-back keep it. -/
theorem State.orderRow_induction {P : State → Prop} {row : Nat → Bool}
    {run : OrderRec → State → Except FaultCode State} {s : State} (h : P s) (hc : ∀ ws d, P (s.completed ws [] d))
    (hw : ∀ ws o x, P x → P (x.writeBack ws o)) (hr : ∀ r x y, P x → run r x = .ok y → P y) :
    P (s.orderRow row run) := by
  unfold State.orderRow
  split
  · next a ws d _ =>
    dsimp only
    split
    · exact hc ws true
    · split
      · unfold State.execute
        split
        · exact hw _ _ _ (hc ws false)
        · split
          · exact hw _ _ _ (hc ws false)
          · next y hy => exact hw _ _ _ (hr _ _ y (hc ws false) hy)
      · exact h
  · exact h

/-- What the row ORDER_CANCELLED keeps when the write-back keeps it. -/
theorem State.orderCancelled_induction {P : State → Prop} {s : State} (h : P s)
    (hc : ∀ ws d, P (s.completed ws [] d)) (hw : ∀ ws o x, P x → P (x.writeBack ws o)) : P s.orderCancelled := by
  unfold State.orderCancelled
  split
  · next a ws d _ =>
    split
    · exact hc ws true
    · split
      · exact hw _ _ _ (hc ws false)
      · exact h
  · exact h

/-! ### Accesses and commands -/

/-- What a command keeps when each owner of a word keeps it. -/
theorem State.command_induction {P : State → Prop} {s : State} (h : P s) (w : CtlWord) (d : Word)
    (tower : ∀ t, P (s.towerWord t d).2) (bind : ∀ k, P (s.bindWord k d).2) (start : P (s.startWord d).2)
    (stop : P (s.stopWord d).2) (bank : P (s.bankWord d).2) (reload : P (s.reloadWord d).2)
    (event : ∀ v, P { s with control := s.control.writeEvent v })
    (enable : ∀ v, P { s with control := s.control.writeEnable v }) (capture : P s.clearCapture)
    (measure : P s.clearMeasure) : P (s.command w d).2 := by
  unfold State.command
  split
  · exact tower _
  · exact bind _
  · split
    · exact start
    split
    · exact stop
    split
    · exact event _
    split
    · exact enable _
    split
    · exact bank
    split
    · exact capture
    split
    · exact measure
    split
    · exact reload
    · exact h

/-- What an arriving access keeps when each way of handling it keeps it. -/
theorem State.arrive_induction {P : State → Prop} {s : State} (h : P s) (a : Access) (claim : ∀ p, P (s.claim a p))
    (refuse : P (s.refuse a)) (fault : ∀ f, P ((s.raise f).refuse a)) (read : ∀ w, P (s.readLive w a))
    (live : ∀ w, P (s.writeLive w a)) (coverage : P (s.coverageWrite a)) (measure : ∀ b, P (s.measureWrite b a))
    (command : ∀ w, P (s.takeCommand a w)) : P (s.arrive a) := by
  have handOver : ∀ w, P (s.handOver w a) := by
    intro w
    unfold State.handOver
    split
    · exact coverage
    · exact measure _
    · dsimp only
      split
      · exact command _
      · exact claim _
    · exact live _
    · exact claim _
    · exact claim _
  have write : ∀ w, P (if inMask w.refuseMask a.cls then (s.raise .protectHit).refuse a
      else if inMask w.matchMask a.cls = true ∧ checksShape w.kind = true then
        if Access.full a then s.handOver w a else s.misfit a
      else if w.kind = .live then s.refuse a else s.claim a .plain) := by
    intro w
    split
    · exact fault _
    split
    · split
      · exact handOver w
      · exact fault _
    split
    · exact refuse
    · exact claim _
  unfold State.arrive State.decideAccess
  split
  · exact h
  split
  · exact claim _
  split
  · split
    · exact read _
    · exact claim _
  · exact write _

end Sys2Proof.Machine
end

section
/-! PROOFS. The queue of commands and job memory over every step. -/

namespace Sys2Proof.Machine

/-- The queue of commands and job memory stand as they stood. -/
def State.sameStore (s t : State) : Prop := t.pending = s.pending ∧ t.mem = s.mem

theorem Verb.sameStore {run : OrderRec → State → Except FaultCode State} (hv : Verb run) {r : OrderRec} {s t : State}
    (h : run r s = .ok t) : s.sameStore t := by
  have bank : ∀ cmd, State.orderBank cmd s = .ok t → s.sameStore t := by
    intro cmd h
    unfold State.orderBank at h
    dsimp only at h
    split at h
    · cases h
      exact ⟨by simp, by simp⟩
    · cases h
  cases hv with
  | preset =>
    have fold : ∀ (l : List Tower) (x : State), x.sameStore (l.foldl (State.presetTower r s) x) := by
      intro l
      induction l with
      | nil => exact fun x => ⟨rfl, rfl⟩
      | cons u l ih =>
        intro x
        obtain ⟨hp, hm⟩ := ih (State.presetTower r s x u)
        exact ⟨hp.trans (by simp [State.presetTower]), hm.trans (by simp [State.presetTower])⟩
    unfold State.runPreset at h
    repeat' split at h
    all_goals cases h
    exact fold _ s
  | keyRange f =>
    simp only [State.keyRange] at h
    split at h
    · cases h
    · cases h
      exact ⟨by simp, by simp⟩
  | namedBank cmd =>
    unfold State.orderNamedBank at h
    split at h
    · cases h
    · exact bank _ h
  | swap => exact bank _ h
  | loop f =>
    unfold State.orderLoop at h
    split at h
    · cases h
    · cases h
      exact ⟨by simp, by simp⟩
  | nop =>
    cases h
    exact ⟨rfl, rfl⟩
  | fault => cases h

theorem State.towerWord_sameStore (s : State) (t : Tower) (d : Word) : s.sameStore (s.towerWord t d).2 := by
  unfold State.towerWord State.towerCommand State.resetCommand
  repeat' split
  all_goals exact ⟨by simp, by simp⟩

theorem State.bindWord_sameStore (s : State) (k : Source) (d : Word) : s.sameStore (s.bindWord k d).2 := by
  unfold State.bindWord State.armBinding State.disarmBinding
  repeat' split
  all_goals exact ⟨by simp, by simp⟩

theorem State.startWord_sameStore (s : State) (d : Word) : s.sameStore (s.startWord d).2 := by
  unfold State.startWord State.start
  repeat' split
  all_goals exact ⟨by simp, by simp⟩

theorem State.stopWord_sameStore (s : State) (d : Word) : s.sameStore (s.stopWord d).2 := by
  unfold State.stopWord State.stop State.stopAll
  repeat' split
  all_goals exact ⟨by simp, by simp⟩

theorem State.bankWord_sameStore (s : State) (d : Word) : s.sameStore (s.bankWord d).2 := by
  unfold State.bankWord
  repeat' split
  all_goals exact ⟨by simp, by simp⟩

theorem State.reloadWord_sameStore (s : State) (d : Word) : s.sameStore (s.reloadWord d).2 := by
  unfold State.reloadWord
  split
  all_goals exact ⟨rfl, rfl⟩

theorem State.command_sameStore (s : State) (w : CtlWord) (d : Word) : s.sameStore (s.command w d).2 :=
  State.command_induction ⟨rfl, rfl⟩ w d (fun t => s.towerWord_sameStore t d) (fun k => s.bindWord_sameStore k d)
    (s.startWord_sameStore d) (s.stopWord_sameStore d) (s.bankWord_sameStore d) (s.reloadWord_sameStore d)
    (fun _ => ⟨rfl, rfl⟩) (fun _ => ⟨rfl, rfl⟩) ⟨rfl, rfl⟩ ⟨rfl, rfl⟩

theorem State.arrive_sameStore (s : State) (a : Access) : s.sameStore (s.arrive a) := by
  have take : ∀ w, s.sameStore (s.takeCommand a w) := by
    intro w
    obtain ⟨hp, hm⟩ := s.command_sameStore w a.data
    exact ⟨by simp [State.takeCommand, hp], by simp [State.takeCommand, hm]⟩
  exact State.arrive_induction ⟨rfl, rfl⟩ a (fun _ => ⟨by simp, by simp⟩) ⟨by simp, by simp⟩
    (fun _ => ⟨by simp, by simp⟩) (fun _ => ⟨by simp, by simp⟩) (fun _ => ⟨by simp, by simp⟩) ⟨by simp, by simp⟩
    (fun _ => ⟨by simp, by simp⟩) take

/-- What an event may make of the queue of commands and of job memory: the queue stands, and memory stays canonical. -/
def State.storeKept (s t : State) : Prop := t.pending = s.pending ∧ (s.memCanonical → t.memCanonical)

theorem State.sameStore.kept {s t : State} (h : s.sameStore t) : s.storeKept t :=
  ⟨h.1, fun hc => by rw [State.memCanonical, h.2]; exact hc⟩

theorem State.storeKept_refl (s : State) : s.storeKept s := ⟨rfl, id⟩

theorem State.storeKept.trans {s t u : State} (h : s.storeKept t) (k : t.sameStore u) : s.storeKept u :=
  ⟨k.1.trans h.1, fun hc => k.kept.2 (h.2 hc)⟩

/-- The words of a request have been answered: memory has taken them, in its canonical form. -/
theorem State.completed_storeKept (ws : List PortWord) (xs : List MemAnswer) (d : Bool) (s : State) :
    s.storeKept (s.completed ws xs d) :=
  ⟨by simp, fun hc => by simpa [State.memCanonical, State.completed] using Memory.wf_answers hc ws xs⟩

theorem State.memAnswered_storeKept (w : PortWord) (x : MemAnswer) (s : State) : s.storeKept (s.memAnswered w x) :=
  ⟨by simp, fun hc => by simpa [State.memCanonical, State.memAnswered] using Memory.wf_answer hc w x⟩

theorem State.answerPass_storeKept (ans : MemAnswer) (s : State) : s.storeKept (s.answerPass ans) := by
  unfold State.answerPass
  split
  · next c w _ =>
    split
    · exact (s.memAnswered_storeKept w ans).trans ⟨by simp, by simp⟩
    · exact s.memAnswered_storeKept w ans
  · exact s.memAnswered_storeKept _ ans
  · exact s.storeKept_refl

theorem State.complete_storeKept {due : IReq → Bool} {anss : List MemAnswer} {k : IReq → List PortWord → State → State}
    (hk : ∀ r ws (x : State), x.sameStore (k r ws x)) (s : State) : s.storeKept (s.complete due anss k) :=
  State.complete_induction s.storeKept_refl (fun _ _ => s.completed_storeKept _ _ _)
    (fun r ws x hx => hx.trans (hk r ws x))

theorem State.orderRow_storeKept {run : OrderRec → State → Except FaultCode State} (hv : Verb run) (row : Nat → Bool)
    (s : State) : s.storeKept (s.orderRow row run) :=
  State.orderRow_induction s.storeKept_refl (fun _ _ => s.completed_storeKept _ _ _)
    (fun _ _ _ hx => hx.trans ⟨by simp, by simp⟩) (fun _ _ _ hx hy => hx.trans (hv.sameStore hy))

theorem Event.storeKept {f : State → State} (h : Event f) (s : State) : s.storeKept (f s) := by
  have quiet : (f s).pending = s.pending → (f s).mem = s.mem → s.storeKept (f s) := fun hp hm =>
    State.sameStore.kept ⟨hp, hm⟩
  cases h with
  | arrive a => exact (s.arrive_sameStore a).kept
  | answerPass ans => exact s.answerPass_storeKept ans
  | slotRead => exact s.complete_storeKept (fun _ _ _ => ⟨by simp, by simp⟩)
  | clearWritten => exact s.complete_storeKept (fun _ _ _ => ⟨by simp, by simp⟩)
  | orderWritten => exact s.complete_storeKept (fun _ _ _ => ⟨by simp, by simp⟩)
  | fetchFailed => exact s.complete_storeKept (fun _ _ _ => ⟨by simp, by simp⟩)
  | mirrorWritten => exact s.complete_storeKept (fun _ _ _ => ⟨by simp, by simp⟩)
  | noticeWritten => exact s.complete_storeKept (fun _ _ _ => ⟨by simp, by simp⟩)
  | preloadWritten => exact s.complete_storeKept (fun _ _ _ => ⟨by simp, by simp⟩)
  | cancelled =>
    exact State.orderCancelled_induction s.storeKept_refl (fun _ _ => s.completed_storeKept _ _ _)
      (fun _ _ _ hx => hx.trans ⟨by simp, by simp⟩)
  | order row hv => exact s.orderRow_storeKept hv row
  | header image =>
    unfold State.headerEvent at quiet ⊢
    split
    · exact State.sameStore.kept ⟨by simp, by simp⟩
    · exact s.storeKept_refl
  | _ => exact quiet (by simp) (by simp)

theorem State.pinReset_storeKept (l : BitVec 2) (s : State) : s.storeKept (s.pinReset l) :=
  ⟨rfl, fun hc => Memory.wf_memOverReset hc s.port.holder l⟩

theorem State.settle_sameStore (s0 s : State) : s.sameStore (State.settle s0 s) := ⟨by simp, by simp⟩

/-- Settles O2, by the operations behind the rows. -/
theorem everyCommandHasANextState : Obligations.EveryCommandHasANextState := by
  unfold Obligations.EveryCommandHasANextState
  intro i s
  rcases exec_event i s with ⟨l, rfl⟩ | ⟨f, hf, he⟩
  · exact ⟨s.pinReset l, rfl, (s.pinReset_storeKept l).1⟩
  · exact ⟨_, he, ((hf.storeKept s).trans (State.settle_sameStore s (f s))).1⟩

/-- Settles O5, by the operations behind the rows: memory changes where its answers are taken alone. -/
theorem everyStepKeepsMemoryCanonical : Obligations.EveryStepKeepsMemoryCanonical := by
  unfold Obligations.EveryStepKeepsMemoryCanonical
  intro s t hc h
  rcases step_cases h with rfl | ⟨c, rest, hp, ⟨l, rfl⟩ | ⟨f, hf, rfl⟩⟩
  · exact hc
  · exact (State.pinReset_storeKept l { s with pending := rest }).2 hc
  · exact ((hf.storeKept { s with pending := rest }).trans (State.settle_sameStore _ _)).2 hc

end Sys2Proof.Machine
end

section
/-! PROOFS. The interrupt line over every step: each operation keeps it asserted exactly when a flag and its enable are
both set, because what sets a flag, an enable or the line does so through the control unit's relevelling (R165). -/

namespace Sys2Proof.Machine

/-! ### The control unit -/

/-- The line as the flags and the enables give it (R165). -/
def Control.exact (c : Control) : Prop := c.line = (c.flags &&& c.enables != 0)

theorem Control.exact_as {c d : Control} (h : c.exact) (hf : d.flags = c.flags) (he : d.enables = c.enables)
    (hl : d.line = c.line) : d.exact := by
  unfold Control.exact
  rw [hf, he, hl]
  exact h

theorem Control.exact_reset : Control.reset.exact := by
  unfold Control.exact
  decide

theorem Control.exact_relevel (c : Control) : c.relevel.exact := rfl

theorem Control.exact_raise {c : Control} (h : c.exact) (f : EventFlag) : (c.raise f).exact := by
  unfold Control.raise
  split
  · exact h
  · exact Control.exact_as (Control.exact_relevel { c with flags := c.flags ||| BitVec.twoPow 14 (flagBit f) })
      (by simp) (by simp) (by simp)

/-! ### Shared operations -/

theorem State.lineExact_as {s t : State} (h : s.lineExact) (hf : t.control.flags = s.control.flags)
    (he : t.control.enables = s.control.enables) (hl : t.control.line = s.control.line) : t.lineExact :=
  Control.exact_as (c := s.control) h hf he hl

theorem State.lineExact_control {s t : State} (h : s.lineExact) (hc : t.control = s.control) : t.lineExact := by
  unfold State.lineExact
  rw [hc]
  exact h

theorem State.lineExact_raise {s : State} (h : s.lineExact) (f : EventFlag) : (s.raise f).lineExact :=
  Control.exact_raise (c := s.control) h f

theorem State.lineExact_raiseIf {s : State} (h : s.lineExact) (b : Bool) (f : EventFlag) :
    (s.raiseIf b f).lineExact := by
  cases b
  · exact h
  · exact State.lineExact_raise h f

theorem State.lineExact_report {s : State} (h : s.lineExact) (w : CtlWord) : (s.report w).lineExact :=
  State.lineExact_as h (by simp) (by simp) (by simp)

theorem State.lineExact_reportIf {s : State} (h : s.lineExact) (b : Bool) (w : CtlWord) :
    (s.reportIf b w).lineExact := State.lineExact_as h (by simp) (by simp) (by simp)

theorem State.lineExact_respond {s : State} (h : s.lineExact) (c : MasterClass) (r : Response) :
    (s.respond c r).lineExact := State.lineExact_control h (by simp)

theorem State.lineExact_claim {s : State} (h : s.lineExact) (a : Access) (p : Purpose) : (s.claim a p).lineExact :=
  State.lineExact_control h (by simp)

theorem State.lineExact_refuse {s : State} (h : s.lineExact) (a : Access) : (s.refuse a).lineExact :=
  State.lineExact_as h (by simp) (by simp) (by simp)

theorem State.lineExact_modTower {s : State} (h : s.lineExact) (t : Tower) (f : TowerState → TowerState) :
    (s.modTower t f).lineExact := State.lineExact_as h (by simp) (by simp) (by simp)

theorem State.lineExact_modTowers {s : State} (h : s.lineExact) (f : TowerState → TowerState) (l : List Tower) :
    (s.modTowers f l).lineExact := State.lineExact_as h (by simp) (by simp) (by simp)

theorem State.lineExact_putEngine {s : State} (h : s.lineExact) (e : Engine) : (s.putEngine e).lineExact :=
  State.lineExact_as h (by simp) (by simp) (by simp)

theorem State.lineExact_settle {s : State} (h : s.lineExact) (s0 : State) : (State.settle s0 s).lineExact :=
  State.lineExact_as h (by simp) (by simp) (by simp)

theorem State.lineExact_completed {s : State} (h : s.lineExact) (ws : List PortWord) (xs : List MemAnswer) (d : Bool) :
    (s.completed ws xs d).lineExact :=
  State.lineExact_raiseIf (s := ({ s with mem := Memory.answers s.mem ws xs } : State).freePort) h _ _

theorem State.lineExact_memAnswered {s : State} (h : s.lineExact) (w : PortWord) (x : MemAnswer) :
    (s.memAnswered w x).lineExact := State.lineExact_control h (by simp)

/-! ### The order engine -/

theorem State.lineExact_endChain {s : State} (h : s.lineExact) : s.endChain.lineExact :=
  State.lineExact_as h (by simp) (by simp) (by simp)

theorem State.lineExact_raiseSome {s : State} (h : s.lineExact) (f : Option EventFlag) : (s.raiseSome f).lineExact := by
  cases f with
  | none => exact h
  | some f => exact State.lineExact_raise h f

theorem State.lineExact_orderWritten {s : State} (h : s.lineExact) (failed : Bool) :
    (s.orderWritten failed).lineExact := by
  unfold State.orderWritten
  split
  · exact State.lineExact_endChain h
  · dsimp only
    split
    · next o _ _ =>
      exact State.lineExact_as (State.lineExact_raiseSome h (outcomeEvent (orderRec o.words) o.outcome)) (by simp)
        (by simp) (by simp)
    · exact State.lineExact_endChain (State.lineExact_raiseSome h _)

theorem State.lineExact_fetchFailed {s : State} (h : s.lineExact) : s.fetchFailed.lineExact :=
  State.lineExact_endChain (State.lineExact_raise (State.lineExact_putEngine h _) _)

theorem State.lineExact_writeBack {s : State} (h : s.lineExact) (ws : List Word) (o : OrderOutcome) :
    (s.writeBack ws o).lineExact := State.lineExact_as h (by simp) (by simp) (by simp)

theorem State.lineExact_fire {s : State} (h : s.lineExact) (k : Source) : (s.fire k).lineExact := by
  unfold State.fire
  dsimp only
  split
  · split
    · exact State.lineExact_raise h _
    · split
      · exact State.lineExact_as h (by simp) (by simp) (by simp)
      · exact State.lineExact_putEngine h _
  · exact h

theorem State.lineExact_countSheet {s : State} (h : s.lineExact) : s.countSheet.lineExact := by
  unfold State.countSheet
  split
  · split
    · exact State.lineExact_fire (s := { s with engine := { s.engine with counter := 0 } }) h _
    · exact h
  · exact h

/-! ### The loop unit -/

theorem State.lineExact_dropRecord {s : State} (h : s.lineExact) (y : DropReason) (i : Fin 16) (x : Option Byte) :
    (s.dropRecord y i x).lineExact :=
  State.lineExact_report (State.lineExact_raise (s := { s with loop := _ }) h _) _

theorem State.lineExact_applyRecord {s : State} (h : s.lineExact) (m : MeasureRec) (t : Tower) :
    (s.applyRecord m t).lineExact := by
  have hset : (((s.correct m t).modTower t TowerState.settleAgain).setApplied t m.sheetTag).lineExact :=
    State.lineExact_as h (by simp) (by simp) (by simp)
  exact State.lineExact_report (State.lineExact_report (State.lineExact_fire (State.lineExact_raise hset _) _) _) _

theorem State.lineExact_gate {s : State} (h : s.lineExact) (i : Fin 16) (m : Option MeasureRec) :
    (s.gate i m).lineExact := by
  unfold State.gate
  repeat' split
  all_goals first
    | exact State.lineExact_dropRecord h _ _ _
    | exact State.lineExact_applyRecord h _ _

theorem State.lineExact_slotRead {s : State} (h : s.lineExact) (i : Fin 16) (m : Option MeasureRec) :
    (s.slotRead i m).lineExact := by
  have hg := State.lineExact_gate (s := ({ s with loop :=
    { s.loop with readList := s.loop.readList.drop 1, reading := false } } : State).setSlot i .free) h i m
  exact State.lineExact_control hg (by simp [State.slotRead])

theorem State.lineExact_slotDelivered {s : State} (h : s.lineExact) (errors : BitVec 31) (m : List Host.Cell)
    (r : IReq) (ws : List PortWord) : (State.slotDelivered errors m r ws s).lineExact := by
  unfold State.slotDelivered
  split
  · exact State.lineExact_slotRead h _ _
  · exact h

/-! ### The link and the timers -/

theorem State.lineExact_takeAnswer {s : State} (h : s.lineExact) (t : Tower) (k : AnswerKind) (key tag : Byte)
    (p : Nat) : (s.takeAnswer t k key tag p).lineExact :=
  State.lineExact_raiseIf (State.lineExact_as h (by simp) (by simp) (by simp)) _ _

theorem State.lineExact_takeTimeout {s : State} (h : s.lineExact) (t : Tower) (sl : Slot) :
    (s.takeTimeout t sl).lineExact := by
  unfold State.takeTimeout
  split
  · exact State.lineExact_raiseIf (State.lineExact_raiseIf (State.lineExact_modTower h _ _) _ _) _ _
  · exact h

theorem State.lineExact_deliver {s : State} (h : s.lineExact) (f : LinkFrame) : (s.deliver f).lineExact := by
  unfold State.deliver
  split
  · exact h
  split
  · exact State.lineExact_takeAnswer h _ _ _ _ _
  split
  · exact State.lineExact_takeAnswer h _ _ _ _ _
  split
  · exact State.lineExact_takeAnswer h _ _ _ _ _
  split
  · exact State.lineExact_raise (State.lineExact_modTower h _ _) _
  · exact h

theorem State.lineExact_lineEvent {s : State} (h : s.lineExact) (e : LineEvent) : (s.lineEvent e).lineExact := by
  have assemble : ∀ bs, (s.assemble bs).lineExact := by
    intro bs
    unfold State.assemble
    split
    · exact h
    split
    · exact h
    · exact State.lineExact_deliver (s := s.setRx .awaitRest) h _
  unfold State.lineEvent
  split
  · exact h
  split
  · exact h
  split
  · exact h
  split
  · exact h
  · exact assemble _

theorem State.lineExact_receive (line : List LineEvent) {s : State} (h : s.lineExact) : (s.receive line).lineExact := by
  induction line generalizing s with
  | nil => exact h
  | cons e line ih => exact ih (State.lineExact_lineEvent h e)

/-! ### The coverage unit -/

theorem State.lineExact_refuseFold {s : State} (h : s.lineExact) (a : Access) : (s.refuseFold a).lineExact :=
  State.lineExact_refuse (State.lineExact_raise h _) a

theorem State.lineExact_takeFold {s : State} (h : s.lineExact) (a : Access) : (s.takeFold a).lineExact := by
  unfold State.takeFold
  split
  · exact State.lineExact_refuseFold h a
  · next f _ => exact State.lineExact_claim (s := s.setLatch (some f)) h a .foldRead

theorem State.lineExact_takeWaiter {s : State} (h : s.lineExact) (x : BusAccess) : (s.takeWaiter x).lineExact := by
  unfold State.takeWaiter
  split
  · exact State.lineExact_refuseFold h _
  · exact State.lineExact_takeFold h _

theorem State.lineExact_takeWaiting (l : List MasterClass) {s : State} (h : s.lineExact) :
    (State.takeWaiting l s).lineExact := by
  induction l generalizing s with
  | nil => exact h
  | cons c l ih =>
    unfold State.takeWaiting
    split
    · exact ih h
    · split
      · exact State.lineExact_takeWaiter h _
      · exact ih (State.lineExact_takeWaiter h _)

theorem State.lineExact_emptyLatch {s : State} (h : s.lineExact) : s.emptyLatch.lineExact :=
  State.lineExact_takeWaiting _ (s := s.setLatch none) h

theorem State.lineExact_bankCommand {s : State} (h : s.lineExact) (cmd : BankCmd) :
    (s.bankCommand cmd).2.lineExact := State.lineExact_raiseIf (s := { s with coverage := _ }) h _ _

theorem State.lineExact_clearWritten {s : State} (h : s.lineExact) (ok : Bool) : (s.clearWritten ok).lineExact := by
  have offer : ∀ c, (s.offerClear c).lineExact := fun c => State.lineExact_control h (by simp)
  unfold State.clearWritten
  split
  · exact h
  split
  · split
    · exact offer _
    · exact State.lineExact_report (State.lineExact_raise (s := { s with coverage := _ }) h _) _
  · exact State.lineExact_report (s := { s with coverage := _ }) h _

/-! ### Memory's answers -/

theorem State.lineExact_foldReadDone {s : State} (h : s.lineExact) (a : Access) (ok : Bool) (d : Word) :
    (s.foldReadDone a ok d).lineExact := by
  unfold State.foldReadDone
  split
  · exact h
  · exact State.lineExact_emptyLatch (State.lineExact_respond (State.lineExact_raise h _) _ _)

theorem State.lineExact_foldWriteDone {s : State} (h : s.lineExact) (a : Access) (ok : Bool) :
    (s.foldWriteDone a ok).lineExact := by
  unfold State.foldWriteDone
  split
  · exact h
  split
  · exact State.lineExact_emptyLatch (State.lineExact_respond (s := { s with coverage := _ }) h a.cls .ok)
  · exact State.lineExact_emptyLatch
      (State.lineExact_respond (State.lineExact_raise (s := { s with coverage := _ }) h .memoryFault) a.cls .busError)

theorem State.lineExact_passDone {s : State} (h : s.lineExact) (a : Access) (p : Purpose) (ok : Bool) (d : Word) :
    (s.passDone a p ok d).lineExact := by
  cases p with
  | plain => exact State.lineExact_respond h _ _
  | foldRead => exact State.lineExact_foldReadDone h _ _ _
  | foldWrite => exact State.lineExact_foldWriteDone h _ _
  | measure => exact State.lineExact_respond h _ _
  | commit i => exact State.lineExact_control h (by simp [State.passDone])
  | answer w r i => exact State.lineExact_reportIf (State.lineExact_respond h _ _) _ _

theorem State.lineExact_answerPass {s : State} (h : s.lineExact) (ans : MemAnswer) : (s.answerPass ans).lineExact := by
  unfold State.answerPass
  split
  · split
    · exact State.lineExact_passDone (State.lineExact_memAnswered h _ _) _ _ _ _
    · exact State.lineExact_memAnswered h _ _
  · exact State.lineExact_memAnswered h _ _
  · exact h

theorem State.lineExact_grant {s : State} (h : s.lineExact) : s.grant.lineExact := by
  have pass : ∀ c, (s.grantClass c).lineExact := by
    intro c
    unfold State.grantClass
    split
    · exact h
    · next a p _ =>
      refine State.lineExact_as h ?_ ?_ ?_ <;>
        (unfold State.grantPass State.watchPass State.supersede; dsimp only; repeat' split) <;> simp
  have head : ∀ r rest, (s.grantHead r rest).lineExact := by
    intro r rest
    refine State.lineExact_as h ?_ ?_ ?_ <;> (unfold State.grantHead Control.onGrant; cases r) <;> simp
  unfold State.grant
  split
  · exact h
  split
  · exact h
  · exact head _ _
  · exact pass _
  · split
    · exact head _ _
    · exact pass _

/-! ### The configuration loader -/

theorem State.lineExact_failLoad {s : State} (h : s.lineExact) : s.failLoad.lineExact := by
  have hr := State.lineExact_raise h .configFault
  unfold State.failLoad State.dropStaged State.lineExact
  dsimp only
  split
  · exact hr
  · exact Control.exact_relevel _

theorem State.lineExact_runLoad (g : GlobalCfg) (s : State) : (s.runLoad g).lineExact :=
  Control.exact_as (Control.exact_relevel { s.control with
    enables := g.enables, mode := g.mode, noticeAddr := g.noticeAddr, noticeDatum := g.noticeDatum }) rfl rfl rfl

theorem State.lineExact_endLoad {s : State} (h : s.lineExact) : s.endLoad.lineExact := by
  unfold State.endLoad
  split
  · exact State.lineExact_failLoad h
  · exact State.lineExact_runLoad _ s

theorem State.lineExact_preloadWritten {s : State} (h : s.lineExact) : s.preloadWritten.lineExact := by
  unfold State.preloadWritten
  split
  · split
    · exact h
    · exact State.lineExact_endLoad h
  · exact h

theorem State.lineExact_judgeKind {s : State} (h : s.lineExact) (n : Fin 16) (j : Judged) :
    (s.judgeKind n j).lineExact := by
  have fail := State.lineExact_failLoad h
  have fault := State.lineExact_raise h .configFault
  have global : (s.judgeGlobal j).lineExact := by
    unfold State.judgeGlobal
    split
    · split
      · exact fail
      · exact h
    · exact fail
  have windows : (s.judgeWindows j).lineExact := by
    unfold State.judgeWindows
    split
    · next ws =>
      have staged : ∀ x, ((s.stage x).raiseIf (windowsOf ws).2 .configFault).lineExact := fun x =>
        State.lineExact_raiseIf (s := s.stage x) h _ _
      dsimp only
      split
      · exact staged _
      · exact State.lineExact_failLoad (staged _)
    · exact fail
  have curves : (s.judgeCurves j).lineExact := by
    cases j with
    | absent => exact h
    | bad => exact fault
    | good ws => exact State.lineExact_raiseIf (s := s.stage _) h (curvesOf ws).2 .configFault
  have tower : ∀ t, (s.judgeTower t (n + 1) j).lineExact := by
    intro t
    cases j with
    | absent => exact h
    | bad => exact fault
    | good ws =>
      unfold State.judgeTower
      dsimp only
      cases towerOf s.loader.staged.holds ws with
      | none => exact fault
      | some c => exact h
  have preload : (s.judgePreload j).lineExact := by
    cases j with
    | absent => exact State.lineExact_endLoad h
    | bad => exact State.lineExact_endLoad fault
    | good ws =>
      unfold State.judgePreload
      dsimp only
      split
      · exact State.lineExact_endLoad h
      · exact h
  unfold State.judgeKind
  split
  · exact global
  split
  · exact windows
  split
  · exact curves
  split
  · exact preload
  · exact tower _

theorem State.lineExact_judgeSection {s : State} (h : s.lineExact) (image : List Byte) :
    (s.judgeSection image).lineExact := by
  unfold State.judgeSection
  split
  · exact State.lineExact_judgeKind h _ _
  · exact h

theorem State.lineExact_headerEvent {s : State} (h : s.lineExact) (image : List Byte) :
    (s.headerEvent image).lineExact := by
  unfold State.headerEvent State.judgeHeader
  split
  · split
    · exact State.lineExact_failLoad h
    · exact h
  · exact h

theorem State.lineExact_sectionReloaded {s : State} (h : s.lineExact) (image : List Byte) :
    (s.sectionReloaded image).lineExact := by
  unfold State.sectionReloaded
  split
  · next t _ =>
    refine State.lineExact_report (State.lineExact_raiseIf ?_ _ _) _
    exact State.lineExact_as h (by simp) (by simp) (by simp)
  · exact h

/-! ### Accesses and commands -/

theorem State.lineExact_command {s : State} (h : s.lineExact) (w : CtlWord) (d : Word) :
    (s.command w d).2.lineExact := by
  refine State.command_induction h w d ?_ ?_ ?_ ?_ ?_ ?_ (fun _ => Control.exact_relevel _)
    (fun _ => Control.exact_relevel _) h h
  · intro t
    unfold State.towerWord State.towerCommand State.resetCommand
    repeat' split
    all_goals exact State.lineExact_as h (by simp) (by simp) (by simp)
  · intro k
    unfold State.bindWord State.armBinding State.disarmBinding
    repeat' split
    all_goals exact State.lineExact_as h (by simp) (by simp) (by simp)
  · unfold State.startWord State.start
    repeat' split
    all_goals exact State.lineExact_as h (by simp) (by simp) (by simp)
  · unfold State.stopWord State.stop State.stopAll
    repeat' split
    all_goals exact State.lineExact_as h (by simp) (by simp) (by simp)
  · unfold State.bankWord
    split
    · exact State.lineExact_bankCommand h _
    split
    · exact State.lineExact_bankCommand h _
    split
    · exact State.lineExact_bankCommand h _
    split
    · exact State.lineExact_bankCommand h _
    · exact h
  · unfold State.reloadWord
    split
    · exact Control.exact_reset
    · exact h

theorem State.lineExact_takeCommand {s : State} (h : s.lineExact) (a : Access) (w : CtlWord) :
    (s.takeCommand a w).lineExact := by
  have hc := State.lineExact_command h w a.data
  refine State.lineExact_as hc ?_ ?_ ?_ <;>
    (unfold State.takeCommand State.setResult Control.setLast; cases carriesResult w) <;> simp

theorem State.lineExact_arrive {s : State} (h : s.lineExact) (a : Access) : (s.arrive a).lineExact := by
  refine State.arrive_induction h a (fun p => State.lineExact_claim h a p) (State.lineExact_refuse h a)
    (fun f => State.lineExact_refuse (State.lineExact_raise h f) a) (fun _ => State.lineExact_respond h _ _) ?_ ?_ ?_
    (fun w => State.lineExact_takeCommand h a w)
  · intro w
    unfold State.writeLive
    split
    · exact State.lineExact_refuse (State.lineExact_raise h _) a
    · exact State.lineExact_respond (State.lineExact_modTower h _ _) _ _
  · unfold State.coverageWrite
    split
    · exact State.lineExact_control h (by simp [State.setWaiting])
    · exact State.lineExact_takeFold h a
  · intro b
    unfold State.measureWrite
    dsimp only
    split
    · exact State.lineExact_refuse (State.lineExact_dropRecord h _ _ _) a
    split
    · exact State.lineExact_control h (by simp)
    · exact State.lineExact_claim h a _

/-! ### Every step -/

theorem Verb.lineExact {run : OrderRec → State → Except FaultCode State} (hv : Verb run) {r : OrderRec} {s t : State}
    (hs : s.lineExact) (h : run r s = .ok t) : t.lineExact := by
  have bank : ∀ cmd, State.orderBank cmd s = .ok t → t.lineExact := by
    intro cmd h
    unfold State.orderBank at h
    dsimp only at h
    split at h
    · cases h
      exact State.lineExact_reportIf (State.lineExact_bankCommand hs cmd) _ _
    · cases h
  cases hv with
  | preset =>
    have fold : ∀ (l : List Tower) (x : State), x.lineExact → (l.foldl (State.presetTower r s) x).lineExact := by
      intro l
      induction l with
      | nil => exact fun x hx => hx
      | cons u l ih => exact fun x hx => ih _ (State.lineExact_modTower hx _ _)
    unfold State.runPreset at h
    repeat' split at h
    all_goals cases h
    exact fold _ s hs
  | keyRange f =>
    simp only [State.keyRange] at h
    split at h
    · cases h
    · cases h
      exact State.lineExact_modTowers hs _ _
  | namedBank cmd =>
    unfold State.orderNamedBank at h
    split at h
    · cases h
    · exact bank _ h
  | swap => exact bank _ h
  | loop f =>
    unfold State.orderLoop at h
    split at h
    · cases h
    · cases h
      exact State.lineExact_modTowers hs _ _
  | nop =>
    cases h
    exact hs
  | fault => cases h

theorem Event.lineExact {f : State → State} (hf : Event f) {s : State} (h : s.lineExact) : (f s).lineExact := by
  have complete : ∀ {due anss} {k : IReq → List PortWord → State → State},
      (∀ r ws x, x.lineExact → (k r ws x).lineExact) → (s.complete due anss k).lineExact := fun hk =>
    State.complete_induction h (fun ws d => State.lineExact_completed h ws _ d) hk
  cases hf with
  | arrive a => exact State.lineExact_arrive h a
  | grant => exact State.lineExact_grant h
  | answerPass ans => exact State.lineExact_answerPass h ans
  | slotRead errors m => exact complete fun _ _ _ hx => State.lineExact_slotDelivered hx _ _ _ _
  | firstClear => exact State.lineExact_control h (by simp)
  | clearWritten ans => exact complete fun _ _ _ hx => State.lineExact_clearWritten hx _
  | orderWritten a6 a7 => exact complete fun _ _ _ hx => State.lineExact_orderWritten hx _
  | fetchFailed => exact complete fun _ _ _ hx => State.lineExact_fetchFailed hx
  | mirrorWritten ans =>
    refine complete fun r _ x hx => ?_
    unfold State.mirrorWritten
    split
    · exact State.lineExact_reportIf (s := x.freeChannel) hx _ _
    · exact hx
  | noticeWritten ans => exact complete fun _ _ _ hx => hx
  | preloadWritten ans => exact complete fun _ _ x hx => State.lineExact_preloadWritten (s := x.freeChannel) hx
  | cancelled =>
    exact State.orderCancelled_induction h (fun ws d => State.lineExact_completed h ws _ d)
      (fun ws o _ hx => State.lineExact_writeBack hx ws o)
  | order row hv =>
    exact State.orderRow_induction h (fun ws d => State.lineExact_completed h ws _ d)
      (fun ws o _ hx => State.lineExact_writeBack hx ws o) (fun _ _ _ hx hy => hv.lineExact hx hy)
  | sheet => exact State.lineExact_countSheet (State.lineExact_modTowers h _ _)
  | imprRise =>
    unfold State.imprRise
    split
    · exact h
    · exact State.lineExact_fire (State.lineExact_modTowers (s := s.setImpr true) h _ _) _
  | imprFall =>
    unfold State.imprFall
    split
    · exact State.lineExact_fire (State.lineExact_modTowers (s := s.setImpr false) h _ _) _
    · exact h
  | jobchg => exact State.lineExact_fire h _
  | endSending => exact State.lineExact_control h (by simp)
  | endGap =>
    unfold State.endGap
    split
    · exact State.lineExact_as (s := { s with link := _ }) h (by simp) (by simp) (by simp)
    · exact h
  | receive line => exact State.lineExact_receive line h
  | timeout t sl => exact State.lineExact_takeTimeout h t sl
  | header image => exact State.lineExact_headerEvent h image
  | section_ image => exact State.lineExact_judgeSection h image
  | sectionReloaded image => exact State.lineExact_sectionReloaded h image

/-- Settles O6, by the operations behind the rows. -/
theorem everyStepKeepsTheLineExact : Obligations.EveryStepKeepsTheLineExact := by
  unfold Obligations.EveryStepKeepsTheLineExact
  intro s t hs h
  rcases step_cases h with rfl | ⟨c, rest, hp, ⟨l, rfl⟩ | ⟨f, hf, rfl⟩⟩
  · exact hs
  · exact Control.exact_reset
  · exact State.lineExact_settle (hf.lineExact (s := { s with pending := rest }) hs) _

end Sys2Proof.Machine
end

section
/-! PROOFS. The ranges of the records, the move account and the order of the press-bus accesses over every step. -/

namespace Sys2Proof.Machine

/-! ### The ranges -/

/-- An event of any block but the loader keeps every tower's section or resets the tower, and its records in range. -/
theorem State.inRanges_exec_other {i : Instr} {s t : State} (hi : loaderEvent i = false) (h : s.inRanges)
    (e : exec i s = .next t) : t.inRanges := by
  have closed := towerClosed_or (towerClosed_within (fun u => s.towers[u].cfg) (fun u => s.towers[u].settings) h.2.1)
    (towerClosed_within (fun _ => none) (fun _ => none) (fun _ _ k => nomatch k))
  have towers := everyTower_exec closed (fun _ => .inr within_reset) hi (fun u => .inl (within_of h u)) e
  have cfg : ∀ u : Tower, s.towers[u].cfg = none → t.towers[u].cfg = none := fun u hu =>
    (towers u).elim (fun k => k.1.trans hu) (fun k => k.1)
  obtain ⟨-, settings, staged, loading⟩ := h
  refine ⟨fun u sl => ?_, fun u x hx => ?_, ?_, ?_⟩
  · rcases towers u with ⟨hc, -, hr⟩ | ⟨hc, -, hr⟩ <;> rw [hc] <;> exact hr sl
  · rcases towers u with ⟨-, hs, -⟩ | ⟨-, hs, -⟩ <;> rw [hs] at hx
    · exact settings u x hx
    · cases hx
  all_goals rcases exec_loader hi e with hl | ⟨v, p, hl⟩ | ⟨hl, hn⟩ <;> rw [hl]
  · exact staged
  · exact staged
  · intro u c hc
    cases (empty_get u).symm.trans hc
  · exact fun k u => cfg u (loading k u)
  · exact fun k => nomatch k
  · exact fun _ => hn

theorem KeyRec.reset_inRange (cfg : Option KeyCfg) (sl : Slot) : KeyRec.reset.inRange cfg sl :=
  ⟨by decide, by decide, by decide, by decide, Nat.zero_le _, fun _ k => nomatch k⟩

theorem State.inRanges_pinReset (l : BitVec 2) (s : State) : (s.pinReset l).inRanges := by
  have tower : ∀ u : Tower, (s.pinReset l).towers[u] = TowerState.reset := fun u => by
    simp [State.pinReset, State.reset]
  refine ⟨fun u sl => ?_, fun u x hx => ?_, fun u c hc => ?_, fun _ u => ?_⟩
  · rw [tower, reset_get]
    exact KeyRec.reset_inRange _ sl
  · rw [tower] at hx
    cases hx
  · cases (empty_get u).symm.trans hc
  · rw [tower]
    rfl

theorem TowerState.resetGood_inRange (c : TowerCfg) {tw : TowerState} {cfg : Option KeyCfg}
    (h : ∀ sl : Slot, (tw.recs[sl]).inRange cfg sl) (sl : Slot) :
    ((tw.resetGood c).recs[sl]).inRange (tw.resetGood c).cfg sl := by
  obtain ⟨b, hr⟩ := resetGood_rec c tw sl
  obtain ⟨-, -, ht, hc, htrim⟩ := resetRec_spec b tw.recs[sl]
  obtain ⟨lo, hi, -, -, -, -⟩ := h sl
  rw [hr]
  refine ⟨by omega, by omega, by omega, by omega, ?_, fun p hp => ?_⟩
  · rw [ht]
    exact Nat.zero_le _
  · rw [resetRec_ramp] at hp
    cases hp

theorem State.inRanges_sectionReloaded {s : State} (h : s.inRanges) (image : List Byte) :
    (s.sectionReloaded image).inRanges := by
  unfold State.sectionReloaded
  split
  · next t hl =>
    obtain ⟨recs, settings, staged, -⟩ := h
    refine ⟨fun u sl => ?_, fun u x hx => ?_, ?_, ?_⟩
    · rw [resetTower_towers]
      split
      · split
        · simp only [TowerState.resetBad, reset_get]
          exact KeyRec.reset_inRange _ sl
        · exact TowerState.resetGood_inRange _ (by simpa using recs t) sl
      · simpa using recs u sl
    · rw [resetTower_towers] at hx
      split at hx
      · split at hx
        · cases hx
        · next c hc =>
          cases hx
          unfold State.reread at hc
          repeat' split at hc
          · cases hc
          · exact towerOf_limit hc
          · cases hc
      · exact settings u x (by simpa using hx)
    · simpa [State.setLoader, State.drive] using staged
    · simp [State.setLoader, State.drive, LoaderState.loading]
  · exact h

/-- A load that ends RUNNING installs its sections over towers that have none. -/
theorem State.inRanges_preloadComplete {s : State} (h : s.inRanges) (ans : MemAnswer) :
    (s.complete IReq.isPreloadWrite [ans] (fun _ _ s => s.freeChannel.preloadWritten)).inRanges := by
  refine ranges_load h (loadSpec_preloadEv s ans) (fun _ _ => ?_)
  by_cases hl : s.loader.state.loading = true
  · exact .inr hl
  · have same : ∀ x : State, x.loader = s.loader → x.preloadWritten = x := by
      intro x hx
      unfold State.preloadWritten
      rw [hx]
      split
      · next hp => exact absurd (by rw [hp]; rfl) hl
      · rfl
    have kept := State.complete_induction (P := fun x => x.towers = s.towers ∧ x.loader = s.loader) (s := s)
      (due := IReq.isPreloadWrite) (anss := [ans]) (k := fun _ _ x => x.freeChannel.preloadWritten) ⟨rfl, rfl⟩
      (fun _ _ => ⟨by simp, by simp⟩) (fun _ _ x hx => by rwa [same _ (by simpa using hx.2)])
    exact .inl kept.1

theorem State.inRanges_judgeSection {s : State} (h : s.inRanges) (image : List Byte) :
    (s.judgeSection image).inRanges := by
  refine ranges_load h (loadSpec_judge image s) (fun _ _ => ?_)
  unfold State.judgeSection
  split
  · next hl _ => exact .inr (by rw [hl]; rfl)
  · exact .inl rfl

theorem State.inRanges_headerEvent {s : State} (h : s.inRanges) (image : List Byte) :
    (s.headerEvent image).inRanges := by
  refine ranges_load h (loadSpec_header image s) (fun _ _ => ?_)
  unfold State.headerEvent
  split
  · next hl => exact .inr (by rw [hl]; rfl)
  · exact .inl rfl

theorem State.inRanges_exec {c : Instr} {s t : State} (h : s.inRanges) (e : exec c s = .next t) : t.inRanges := by
  cases c
  case pinReset l =>
    cases e
    exact State.inRanges_pinReset l s
  case preloadWriteComplete ans =>
    cases e
    exact ranges_settle (State.inRanges_preloadComplete h ans)
  case headerRead image =>
    cases e
    exact ranges_settle (State.inRanges_headerEvent h image)
  case sectionRead image =>
    cases e
    exact ranges_settle (State.inRanges_judgeSection h image)
  case sectionReloadComplete image =>
    cases e
    exact ranges_settle (State.inRanges_sectionReloaded h image)
  all_goals exact State.inRanges_exec_other rfl h e

/-- A step keeps what every command keeps, and what does not look at the queue of commands. -/
theorem step_induction {P : State → Prop} {s t : State} (h : P s) (queue : ∀ l, P s → P { s with pending := l })
    (exec_keeps : ∀ c x y, P x → exec c x = .next y → P y) (e : step s = .next t) : P t := by
  unfold step at e
  split at e
  · cases e
    exact h
  · exact exec_keeps _ _ _ (queue _ h) e

/-- Settles O7: the loader's events one by one, every other event by what it keeps of each tower. -/
theorem everyStepKeepsTheRanges : Obligations.EveryStepKeepsTheRanges := by
  unfold Obligations.EveryStepKeepsTheRanges
  exact fun s t h e => step_induction h (fun _ hq => hq) (fun _ _ _ hx hy => State.inRanges_exec hx hy) e

/-! ### The move account -/

theorem State.accountOk_load {s t : State} (h : s.accountOk) (k : LoadSpec s t) : t.accountOk := by
  intro u
  rcases k with ⟨ht, -, -⟩ | ⟨-, ht⟩
  · rw [ht]
    exact h u
  · rw [ht u]
    exact install_acc _ (h u)

theorem State.accountOk_sectionReloaded {s : State} (h : s.accountOk) (image : List Byte) :
    (s.sectionReloaded image).accountOk := by
  unfold State.sectionReloaded
  split
  · intro u
    rw [resetTower_towers]
    split
    · split
      · exact accountOk_resetBad _
      · exact accountOk_resetGood _ _
    · simpa using h u
  · exact h

theorem State.accountOk_settle {s : State} (h : s.accountOk) (s0 : State) : (State.settle s0 s).accountOk :=
  everyTower_serve towerClosed_accountOk h

theorem State.accountOk_pinReset (l : BitVec 2) (s : State) : (s.pinReset l).accountOk := by
  intro u
  have ht : (s.pinReset l).towers[u] = TowerState.reset := by simp [State.pinReset, State.reset]
  rw [ht]
  exact accountOk_reset

theorem State.accountOk_exec {c : Instr} {s t : State} (h : s.accountOk) (e : exec c s = .next t) : t.accountOk := by
  cases c
  case pinReset l =>
    cases e
    exact State.accountOk_pinReset l s
  case preloadWriteComplete ans =>
    cases e
    exact State.accountOk_settle (State.accountOk_load h (loadSpec_preloadEv s ans)) s
  case headerRead image =>
    cases e
    exact State.accountOk_settle (State.accountOk_load h (loadSpec_header image s)) s
  case sectionRead image =>
    cases e
    exact State.accountOk_settle (State.accountOk_load h (loadSpec_judge image s)) s
  case sectionReloadComplete image =>
    cases e
    exact State.accountOk_settle (State.accountOk_sectionReloaded h image) s
  all_goals exact everyTower_exec towerClosed_accountOk (fun _ => accountOk_reset) rfl h e

/-- Settles O8: both accounts are kept by every command. -/
theorem everyStepKeepsTheMoveAccount : Obligations.EveryStepKeepsTheMoveAccount := by
  unfold Obligations.EveryStepKeepsTheMoveAccount
  exact ⟨fun s t h e => step_induction h (fun _ hq => hq) (fun _ _ _ hx hy => State.accountOk_exec hx hy) e,
    fun s t h e => step_induction h (fun _ hq => hq) (fun _ _ _ hx hy => State.accessesOk_exec hx hy) e⟩

end Sys2Proof.Machine
end

section
/-! PROOFS. A step, and the state right after a pin reset. -/

namespace Sys2Proof.Machine

/-- Settles O1, by the two forms of the queue. -/
theorem stepRunsTheFrontCommand : Obligations.StepRunsTheFrontCommand := by
  unfold Obligations.StepRunsTheFrontCommand
  refine ⟨fun c rest s h => ?_, fun s h => ?_⟩ <;> rw [step, h]

theorem State.reset_tower (t : Tower) : State.reset.towers[t] = TowerState.reset := by simp [State.reset]

theorem State.reset_frame (bk : BankId) (t : Tower) : State.reset.coverage.frame bk t = Frame.fresh := by
  cases bk <;> simp [State.reset, Coverage.reset, Coverage.frame, PerBank.get, Bank.stale]

/-- Settles O3: each block's reset value is read off; the tables of equal entries go by their index. -/
theorem resetHoldsTheSpecifiedValues : Obligations.ResetHoldsTheSpecifiedValues := by
  unfold Obligations.ResetHoldsTheSpecifiedValues
  have bus : ∀ c : MasterClass, State.reset.bus.get c = none := fun c => by cases c <;> rfl
  have state : ∀ bk : BankId, (State.reset.coverage.banks.get bk).state = .stale := fun bk => by cases bk <;> rfl
  have frame : ∀ (bk : BankId) (t : Tower), State.reset.coverage.frame bk t = ⟨true, Vector.replicate 48 0⟩ :=
    State.reset_frame
  have geometry : ∀ t : Tower, State.reset.coverage.geometry[t] = none := fun t => by
    simp [State.reset, Coverage.reset]
  have binding : ∀ k : Source, State.reset.engine.bindings.get k = ⟨false, false, 0⟩ := fun k => by cases k <;> rfl
  have slots : ∀ i : Fin 16, State.reset.loop.slots[i] = .free ∧ State.reset.loop.overReset[i] = 0 := fun i => by
    simp [State.reset, LoopUnit.reset]
  have last : ∀ w : CtlWord, State.reset.control.last[w] = .accepted := fun w => by simp [State.reset, Control.reset]
  have staged : ∀ t : Tower, State.reset.loader.staged.towers[t] = none := empty_get
  have tower := State.reset_tower
  simp only [bus, state, frame, geometry, tower, binding, slots, last, staged, reset_get]
  simp [State.reset, MemPort.reset, Config.loadingLimit, Coverage.reset, linearCurves, TowerState.reset,
    KeyRec.reset, Config.loadingTimeout, Link.reset, Engine.reset, LoopUnit.reset, MeasureStatus.cleared,
    Control.reset, Capture.empty, Loader.reset, Staged.empty, SpiPort.atHeader, noWindows, linearCurve]

/-- Settles O4: every tower and every class stands at its reset value. -/
theorem resetMeetsTheInvariants : Obligations.ResetMeetsTheInvariants := by
  unfold Obligations.ResetMeetsTheInvariants
  refine ⟨rfl, Control.exact_reset, State.inRanges_pinReset 0 State.reset, fun t => ?_, ?_, ?_, ?_⟩
  · rw [State.reset_tower]
    exact accountOk_reset
  · intro c x hx
    cases c <;> cases hx
  · intro c hc
    cases hc
  · exact List.nodup_nil

end Sys2Proof.Machine
end

section
/-! PROOFS. The service of a tower: which frame goes out, its bytes on the line, and what a dispatch changes. -/

namespace Sys2Proof.Machine

/-! ### The frame a tower is served -/

@[simp] theorem State.transmit_link (t : Tower) (frame : List Byte) (s : State) :
    (s.transmit t frame).link.tx = .sending frame ∧ (s.transmit t frame).link.pointer = t := ⟨rfl, rfl⟩

theorem State.putTower_same (s : State) (t : Tower) (tw : TowerState) : (s.putTower t tw).towers[t] = tw := by
  rw [State.putTower_get, if_pos rfl]

theorem State.serve_halt {s : State} {t : Tower} (h : s.towers[t].haltPending = true) :
    s.serve t = (s.putTower t { s.towers[t] with haltPending := false }).transmit t
      (frameBytes (s.towers[t].address.getD 0) kindHalt 255#8 0 0) := by simp only [State.serve, h, if_true]

theorem State.serve_query {s : State} {t : Tower} (h : s.towers[t].haltPending = false)
    (hq : s.towers[t].queryPending = true) :
    s.serve t = (s.putTower t { s.towers[t] with queryPending := false }).transmit t
      (frameBytes (s.towers[t].address.getD 0) kindQuery 255#8 0 0) := by
  simp only [State.serve, h, hq, if_true, Bool.false_eq_true, if_false]

theorem State.serve_move {s : State} {t : Tower} {sl : Slot} (h : s.towers[t].haltPending = false)
    (hq : s.towers[t].queryPending = false) (hd : s.towers[t].dispatchable = some sl) :
    s.serve t = (s.putTower t (s.towers[t].dispatch s.timeout sl)).transmit t
      (frameBytes (s.towers[t].address.getD 0) kindMove (linkNumber sl) (s.towers[t].tagCounter.setWidth 8)
        (BitVec.ofNat 16 s.towers[t].recs[sl].target)) := by
  simp only [State.serve, h, hq, hd, Bool.false_eq_true, if_false]

theorem State.serve_nothing {s : State} {t : Tower} (h : s.towers[t].haltPending = false)
    (hq : s.towers[t].queryPending = false) (hd : s.towers[t].dispatchable = none) : s.serve t = s := by
  simp only [State.serve, h, hq, hd, Bool.false_eq_true, if_false]

theorem TowerState.dispatchable_head {tw : TowerState} {sl : Slot} {q : List Slot} (hq : tw.queue = sl :: q)
    (ha : admitsMoves tw.service = true) (hf : tw.flight.length < 4) (hc : tw.recs[sl].commanded.isSome = true) :
    tw.dispatchable = some sl := by
  simp only [TowerState.dispatchable, hq, ha, hc, decide_eq_true (show tw.flight.length < Config.maxInFlight from hf),
    Bool.and_self, if_true]

theorem TowerState.dispatchable_none {tw : TowerState} (h : tw.queue = [] ∨ admitsMoves tw.service = false
    ∨ 4 ≤ tw.flight.length ∨ ∃ sl q, tw.queue = sl :: q ∧ (tw.recs[sl]).commanded = none) : tw.dispatchable = none := by
  rw [← Option.not_isSome_iff_eq_none, TowerState.dispatchable_isSome]
  rintro ⟨sl, q, hq, ha, hf, hc⟩
  rcases h with h | h | h | ⟨x, y, h, hn⟩
  · simp [h] at hq
  · simp [h] at ha
  · omega
  · obtain ⟨rfl, rfl⟩ : x = sl ∧ y = q := by simpa [hq] using h.symm
    rw [hn] at hc
    cases hc

/-- A service names its tower in the pointer and changes no other tower (R89, R91). -/
theorem State.serve_pointer_and_others (s : State) (t : Tower) :
    (s.towers[t].hasWork = true → (s.serve t).link.pointer = t)
      ∧ ∀ v : Tower, v ≠ t → (s.serve t).towers[v] = s.towers[v] := by
  have others : ∀ tw frame, ∀ v : Tower, v ≠ t → ((s.putTower t tw).transmit t frame).towers[v] = s.towers[v] := by
    intro tw frame v hv
    simp only [State.transmit_keeps, State.putTower_get, if_neg hv]
  cases h : s.towers[t].haltPending with
  | true => exact ⟨fun _ => by rw [State.serve_halt h]; simp, by rw [State.serve_halt h]; exact others _ _⟩
  | false =>
    cases hq : s.towers[t].queryPending with
    | true => exact ⟨fun _ => by rw [State.serve_query h hq]; simp, by rw [State.serve_query h hq]; exact others _ _⟩
    | false =>
      cases hd : s.towers[t].dispatchable with
      | some sl =>
        exact ⟨fun _ => by rw [State.serve_move h hq hd]; simp, by rw [State.serve_move h hq hd]; exact others _ _⟩
      | none =>
        refine ⟨fun hw => ?_, fun v _ => by rw [State.serve_nothing h hq hd]⟩
        simp [-Fin.getElem_fin, TowerState.hasWork, h, hq, hd] at hw

/-! ### Bytes and levels -/

theorem highByte_eq (p : Half) : BitVec.ofNat 8 (p.toNat / 256) = p.extractLsb' 8 8 := by
  simp [BitVec.extractLsb', Nat.shiftRight_eq_div_pow]

theorem lowByte_eq (p : Half) : BitVec.ofNat 8 p.toNat = p.extractLsb' 0 8 := by
  simp [BitVec.extractLsb']

theorem frameBytes_eq (a k key tag : Byte) (p : Half) : frameBytes a k key tag p
    = [0xA5#8, a, k, key, tag, p.extractLsb' 8 8, p.extractLsb' 0 8,
        crc8 [a, k, key, tag, p.extractLsb' 8 8, p.extractLsb' 0 8]] := by
  rw [← highByte_eq, ← lowByte_eq]
  rfl

theorem crcBit_eq (r : Byte) : crcBit r = if r.getLsbD 7 then r <<< 1 ^^^ 0x1D#8 else r <<< 1 := by
  rw [crcBit, BitVec.msb_eq_getLsbD_last]

theorem crc8_append (bs : List Byte) (b : Byte) : crc8 (bs ++ [b])
    = Nat.repeat (fun r : Byte => if r.getLsbD 7 then r <<< 1 ^^^ 0x1D#8 else r <<< 1) 8 (crc8 bs ^^^ b) := by
  have e : (fun r : Byte => if r.getLsbD 7 then r <<< 1 ^^^ 0x1D#8 else r <<< 1) = crcBit :=
    (funext crcBit_eq).symm
  rw [e, crc8, List.foldl_append]
  rfl

theorem admitsMoves_iff (x : Service) : admitsMoves x = true ↔ x = .ready ∨ x = .printing ∨ x = .parking := by
  cases x <;> decide

theorem TowerState.hasWork_iff (tw : TowerState) : tw.hasWork = true
    ↔ tw.service ≠ .unconfigured
      ∧ (tw.haltPending = true ∨ tw.queryPending = true
        ∨ ∃ sl q, tw.queue = sl :: q ∧ admitsMoves tw.service = true ∧ tw.flight.length < 4
          ∧ (tw.recs[sl]).commanded.isSome = true) := by
  rw [← TowerState.dispatchable_isSome, ← TowerState.configured_iff]
  simp [TowerState.hasWork, or_assoc]

/-- Settles O11: the service by what the tower holds, then the bytes of a frame and their levels. -/
theorem serviceSendsOneFrame : Obligations.ServiceSendsOneFrame := by
  unfold Obligations.ServiceSendsOneFrame
  refine ⟨fun s t => ⟨fun h => ?_, fun h hq => ?_, fun h hq sl q hl ha hf hc => ?_, fun h hq hn => ?_,
      s.serve_pointer_and_others t⟩,
    ⟨rfl, rfl, rfl, frameBytes_eq⟩, fun b => ⟨rfl, readByte_serialByte b⟩, fun _ => rfl, rfl, rfl, rfl, crc8_append,
    fun _ => rfl, admitsMoves_iff, TowerState.hasWork_iff⟩
  · rw [State.serve_halt h]
    exact ⟨rfl, State.putTower_same s t _⟩
  · rw [State.serve_query h hq]
    exact ⟨rfl, State.putTower_same s t _⟩
  · have hd := TowerState.dispatchable_head hl ha hf hc
    obtain ⟨shell, self, others⟩ := TowerState.dispatch_spec s.towers[t] s.timeout sl
    have ht : (s.serve t).towers[t] = s.towers[t].dispatch s.timeout sl := by
      rw [State.serve_move h hq hd]
      exact State.putTower_same s t _
    refine ⟨by rw [State.serve_move h hq hd]; simp, ?_, fun x hx => ?_, ?_⟩
    · rw [ht]
      rw [hl] at shell
      exact shell
    · rw [ht]
      exact others x hx
    · rw [ht]
      exact self
  · exact State.serve_nothing h hq (TowerState.dispatchable_none hn)

end Sys2Proof.Machine
end

section
/-! PROOFS. The arrival of an access: plain, refused, misfit, into a MEASURE slot, into the coverage range. -/

namespace Sys2Proof.Machine

/-! ### An access that is given a stage -/

/-- What an event leaves that gives an access a stage and changes the coverage unit and the loop unit alone. -/
theorem State.settle_stage (s : State) (c : Coverage) (l : LoopUnit) (a : Access) (x : BusStage) :
    ∃ t, State.settle s (({ s with coverage := c, loop := l } : State).setStage a x) = t
      ∧ t.bus.get a.cls = some ⟨a, x⟩ ∧ t.coverage = c ∧ t.loop = l ∧ t.lastResponse = s.lastResponse
      ∧ s.sameOthers a.cls t ∧ s.sameMemory t ∧ s.sameControl t ∧ s.samePort t ∧ s.sameSetup t ∧ s.sameTowers t
      ∧ t.engine = s.engine ∧ t.loader = s.loader ∧ s.sameSettings t ∧ s.sameEvents t := by
  have hbus : ∀ d, (State.settle s (({ s with coverage := c, loop := l } : State).setStage a x)).bus.get d
      = if d = a.cls then some ⟨a, x⟩ else s.bus.get d := by
    intro d
    simp [State.setStage]
  refine ⟨_, rfl, ?_, by simp, by simp, by simp, fun d hd => ⟨?_, by simp⟩, fun _ => by simp, ?_, ?_, ?_, ?_, by simp,
    by simp, ?_, ?_⟩
  · rw [hbus, if_pos rfl]
  · rw [hbus, if_neg hd]
  · exact State.settle_sameControl rfl rfl rfl rfl rfl
  · exact State.samePort_settle s _
  · exact ⟨by simp, by simp, by simp, by simp, by simp⟩
  · rw [State.settle_of_towers (by simp)]
    exact ⟨by simp, by simp⟩
  · exact ⟨by simp, by simp, by simp, by simp, by simp⟩
  · exact ⟨by simp, by simp, by simp, by simp⟩

/-! ### Plain accesses -/

theorem State.decideAccess_plain {s : State} {a : Access} {w : Window} (hk : w.kind ≠ .live)
    (h : a.dir = .read ∨ (a.dir = .write ∧ inMask w.refuseMask a.cls = false
      ∧ (inMask w.matchMask a.cls = false ∨ w.kind = .orders ∨ w.kind = .guard
        ∨ (w.kind = .control ∧ Access.full a = true ∧ ownedWord (controlWordOf w a.addr.toNat) = false)))) :
    s.decideAccess w a = s.claim a .plain := by
  unfold State.decideAccess
  rcases h with hd | ⟨hd, hr, h⟩
  · simp only [hd, hk, if_false]
  · simp only [hd, hr, hk, if_false, Bool.false_eq_true]
    rcases h with hm | hk' | hk' | ⟨hk', hf, ho⟩
    · simp [hm]
    · simp [hk', checksShape]
    · simp [hk', checksShape]
    · split
      · unfold State.handOver
        simp only [hk']
        unfold controlWordOf at ho
        rw [ho, if_neg Bool.false_ne_true]
      · rfl

theorem State.arrive_plain {s : State} {a : Access} (hb : s.bus.get a.cls = none) (h : s.isPlain a) :
    s.arrive a = s.claim a .plain := by
  rcases h with hw | ⟨w, hw, hk, h⟩
  · exact State.arrive_none hb hw
  · rw [State.arrive_some hb hw]
    exact State.decideAccess_plain hk h

theorem ownedWord_iff (v : CtlWord) : ownedWord v = true ↔ v.val ≤ 14 ∨ (16 ≤ v.val ∧ v.val ≤ 27) := by
  simp only [ownedWord, Bool.or_eq_true, Bool.and_eq_true, decide_eq_true_eq]
  omega

/-- Settles O12: every plain cell claims the port, and a claim changes the class's own access alone. -/
theorem plainAccessClaimsThePort : Obligations.PlainAccessClaimsThePort := by
  unfold Obligations.PlainAccessClaimsThePort
  refine ⟨fun s a hb hp => ?_, State.windowOf_some, State.windowOf_none, fun m => ⟨rfl, rfl, rfl, rfl⟩, ownedWord_iff,
    fun _ _ _ => rfl, fun a => decide_eq_true_iff, fun _ => rfl⟩
  obtain ⟨t, ht, bus, cov, loop, resp, others, mem, control, -, setup, towers, engine, loader, settings, events⟩ :=
    s.settle_stage s.coverage s.loop a (.claim .plain)
  refine ⟨t, ?_, bus, resp, others, mem, control, setup, ⟨cov, towers, engine, loop, loader⟩, settings, events⟩
  show Host.Outcome.next (State.settle s (s.arrive a)) = _
  rw [State.arrive_plain hb hp]
  exact congrArg _ ht

/-! ### Refused writes and misfits -/

/-- Settles O13: a class in the refuse mask is refused with PROTECT_HIT. -/
theorem refusedWriteIsAnswered : Obligations.RefusedWriteIsAnswered := by
  unfold Obligations.RefusedWriteIsAnswered
  intro s cls addr en d w hb hw hr
  refine State.exec_refused (a := ⟨cls, addr, .write, en, d⟩) (f := .protectHit) ?_
  rw [State.arrive_some hb hw]
  simp [State.decideAccess, hr]

/-- Settles O14: a matched write of the wrong shape, or to no present trim word, is refused with WINDOW_MISFIT. -/
theorem misfitWriteIsRefused : Obligations.MisfitWriteIsRefused := by
  unfold Obligations.MisfitWriteIsRefused
  intro s cls addr en d w ⟨hb, hw, _, _, hr, hm⟩ h
  refine State.exec_refused (a := ⟨cls, addr, .write, en, d⟩) (f := .windowMisfit) ?_
  rw [State.arrive_some hb hw]
  simp only [State.decideAccess, hr, hm, true_and, if_false, Bool.false_eq_true]
  rcases h with ⟨he, ho, hg⟩ | ⟨he, hk, ht⟩
  · have hs : checksShape w.kind = true := by
      revert ho hg
      cases w.kind <;> simp [checksShape]
    simp only [hs, if_true, Access.full, fullEnables, he, decide_false, Bool.false_eq_true, if_false, State.misfit]
  · simp only [hk, checksShape, if_true, Access.full, fullEnables, he, decide_true, State.handOver, State.writeLive,
      Access.word, ht, State.misfit]

/-! ### MEASURE writes -/

theorem State.arrive_measure {s : State} {w : Window} {cls : MasterClass} {addr : Addr} {d : Word}
    (h : s.matched .measure w (fullWrite cls addr d)) :
    s.arrive (fullWrite cls addr d) = s.measureWrite w.base (fullWrite cls addr d) := by
  rw [State.arrive_matched h rfl, State.handOver, h.2.2.1]

theorem State.measureWrite_busy {s : State} {base : Nat} {a : Access} {i : Fin 16}
    (hi : i = measureSlot base a.addr.toNat) (hs : s.loop.slots[i] = .busy) :
    s.measureWrite base a = (s.dropRecord .busy i none).refuse a := by
  subst hi
  exact if_pos hs

theorem State.measureWrite_free {s : State} {base : Nat} {a : Access} {i : Fin 16}
    (hi : i = measureSlot base a.addr.toNat) (hs : s.loop.slots[i] = .free) :
    s.measureWrite base a = if onCommitWord base a.addr.toNat = true ∧ a.data ≠ 0
      then (s.setSlot i .busy).claim a (.commit i) else s.claim a .measure := by
  subst hi
  exact if_neg (by rw [hs]; decide)

/-- A write into a BUSY slot: it is dropped, and refused (R144, R150). -/
theorem State.settle_busyDrop (s : State) (i : Fin 16) (a : Access) :
    ∃ t, State.settle s ((s.dropRecord .busy i none).refuse a) = t ∧ t.bus.get a.cls = none
      ∧ t.lastResponse.get a.cls = some .busError ∧ s.raised .measureDropped t ∧ s.captured a t
      ∧ t.loop = { s.loop with status := { s.loop.status with reason := .busy, slot := i, dropTower := none } }
      ∧ s.sameOthers a.cls t ∧ s.sameMemory t ∧ s.samePort t ∧ s.sameSetup t ∧ t.coverage = s.coverage
      ∧ s.sameTowers t ∧ t.engine = s.engine ∧ t.loader = s.loader ∧ s.sameSettings t := by
  obtain ⟨bus, resp, mem, port, -, -, -, -, -, -, towers, -, loop, -, -, flags, -, -, -, -, capture⟩ :=
    State.settle_quiet (s := s) (s1 := (s.dropRecord .busy i none).refuse a) (by simp) (by simp)
  have hbus : ((s.dropRecord .busy i none).refuse a).bus = s.bus.put a.cls none := rfl
  have hresp : ((s.dropRecord .busy i none).refuse a).lastResponse = s.lastResponse.put a.cls (some .busError) := rfl
  have hflags : ((s.dropRecord .busy i none).refuse a).control.flags
      = s.control.flags ||| BitVec.twoPow 14 (flagBit .measureDropped) := by
    simp [State.dropRecord, State.raise_flags]
  have hcap : ((s.dropRecord .busy i none).refuse a).control.capture
      = if s.control.capture.valid then s.control.capture else ⟨true, a.addr, a.cls⟩ := by
    show (Control.capture_ _ _ _).capture = _
    unfold Control.capture_
    simp only [State.dropRecord_control]
    split <;> simp
  refine ⟨_, rfl, ?_, ?_, flags.trans hflags, capture.trans hcap, loop.trans ?_, fun c hc => ?_, fun x => ?_, ?_, ?_, ?_,
    towers, ?_, ?_, ?_⟩
  · rw [bus, hbus]
    simp
  · rw [resp, hresp]
    simp
  · simp [State.dropRecord]
  · rw [bus, hbus, resp, hresp]
    simp [hc]
  · rw [mem]
    simp
  · exact State.samePort_trans (State.samePort_of_eq (by simp)) port
  · exact ⟨by simp, by simp, by simp, by simp, by simp⟩
  · simp
  · simp
  · simp
  · exact ⟨by simp, by simp, by simp, by simp, by simp⟩

/-- Settles O18, by the state of the slot and the word it lies on. -/
theorem measureWritesFollowTheSlotState : Obligations.MeasureWritesFollowTheSlotState := by
  unfold Obligations.MeasureWritesFollowTheSlotState
  refine ⟨fun s cls addr d w i h hi => ⟨fun hs hc => ?_, fun hs => ?_⟩, fun s cls addr d w i h hi hc hd hs => ?_⟩
  · obtain ⟨t, ht, bus, cov, loop, resp, others, mem, -, port, setup, towers, engine, loader, settings, events⟩ :=
      s.settle_stage s.coverage s.loop (fullWrite cls addr d) (.claim .measure)
    refine ⟨t, ?_, bus, resp, others, mem, port, setup, ⟨cov, towers, engine, loop, loader⟩, settings, events⟩
    have ha : s.arrive (fullWrite cls addr d) = s.claim (fullWrite cls addr d) .measure := by
      have hn : ¬(onCommitWord w.base addr.toNat = true ∧ d ≠ 0) := by
        simp only [onCommitWord, decide_eq_true_eq]
        exact fun on => hc.elim (fun off => off on.1) fun zero => on.2 zero
      rw [State.arrive_measure h, State.measureWrite_free hi hs]
      exact if_neg hn
    show Host.Outcome.next (State.settle s (s.arrive (fullWrite cls addr d))) = _
    rw [ha]
    exact congrArg _ ht
  · obtain ⟨t, ht, bus, resp, flags, cap, loop, others, mem, port, setup, cov, towers, engine, loader, settings⟩ :=
      s.settle_busyDrop i (fullWrite cls addr d)
    refine ⟨t, ?_, bus, resp, flags, cap, by rw [loop], by rw [loop], by rw [loop], others, mem, port, setup, cov, towers,
      engine, loader, settings⟩
    have ha : s.arrive (fullWrite cls addr d) = (s.dropRecord .busy i none).refuse (fullWrite cls addr d) := by
      rw [State.arrive_measure h, State.measureWrite_busy hi hs]
    show Host.Outcome.next (State.settle s (s.arrive (fullWrite cls addr d))) = _
    rw [ha, ht]
  · obtain ⟨t, ht, bus, cov, loop, resp, others, mem, -, port, setup, towers, engine, loader, settings, events⟩ :=
      s.settle_stage s.coverage { s.loop with slots := s.loop.slots.set i .busy } (fullWrite cls addr d)
        (.claim (.commit i))
    refine ⟨t, ?_, bus, loop, resp, others, mem, port, setup, cov, towers, engine, loader, settings, events⟩
    have ha : s.arrive (fullWrite cls addr d) = (s.setSlot i .busy).claim (fullWrite cls addr d) (.commit i) := by
      have hcw : onCommitWord w.base addr.toNat = true ∧ d ≠ 0 := ⟨decide_eq_true hc, hd⟩
      rw [State.arrive_measure h, State.measureWrite_free hi hs]
      exact if_pos hcw
    show Host.Outcome.next (State.settle s (s.arrive (fullWrite cls addr d))) = _
    rw [ha]
    exact congrArg _ ht

/-! ### Coverage writes -/

theorem State.arrive_coverage {s : State} {w : Window} {cls : MasterClass} {addr : Addr} {d : Word}
    (h : s.matched .coverage w (fullWrite cls addr d)) :
    s.arrive (fullWrite cls addr d) = s.coverageWrite (fullWrite cls addr d) := by
  rw [State.arrive_matched h rfl, State.handOver, h.2.2.1]

theorem State.exec_coverage {s : State} {w : Window} {cls : MasterClass} {addr : Addr} {d : Word} {c : Instr}
    (hc : c = .coverageWrite cls addr d ∨ c = .foldTake cls addr d)
    (h : s.matched .coverage w (fullWrite cls addr d)) :
    exec c s = .next (State.settle s (s.coverageWrite (fullWrite cls addr d))) := by
  rw [← State.arrive_coverage h]
  rcases hc with rfl | rfl <;> rfl

theorem frameTower_val (u : Tower) : frameTower u.val = some u := by simp [frameTower]

theorem frameTower_some {n : Nat} {u : Tower} (h : frameTower n = some u) : n = u.val := by
  unfold frameTower at h
  split at h
  · cases h
    rfl
  · cases h

/-- The fold a write makes where every check of R26 passes, as the unit fixes it at the take. -/
theorem State.foldOf_eq {s : State} {a : Access} {r : CoverRange} {u : Tower} {g : Geometry}
    (hp : s.control.part = .running) (hr : s.coverage.range = some r) (hc : r.covers (Access.word a) = true)
    (hf : (r.place (Access.word a)).frame = u.val) (hg : s.coverage.geometry[u] = some g)
    (ho : (s.coverage.banks.get (r.place (Access.word a)).bank).state = .opened)
    (hfit : (s.coverage.frame (r.place (Access.word a)).bank u).fit = true)
    (hi : (r.place (Access.word a)).offset < g.imageLen r.frameSize) :
    s.foldOf a = some
      { cls := a.cls, bank := (r.place (Access.word a)).bank, tower := u, addr := Access.word a
        offset := (r.place (Access.word a)).offset, row := (r.place (Access.word a)).offset / g.w
        column := (r.place (Access.word a)).offset % g.w
        owners := (List.range 4).map (fun c => g.owner ((r.place (Access.word a)).offset % g.w + c))
        new := a.data, old := none, void := false, cleared := false } := by
  simp only [State.foldOf, hr, hf, frameTower_val, hg]
  exact if_pos ⟨hp, hc, ho, hfit, hi⟩

/-- No fold is made where a check of R26 fails, or the word lies outside the range (log 29). -/
theorem State.foldOf_refused {s : State} {a : Access} {r : CoverRange} (hr : s.coverage.range = some r)
    (h : r.covers (Access.word a) = false
      ∨ (s.coverage.banks.get (r.place (Access.word a)).bank).state ≠ .opened
      ∨ 12 ≤ (r.place (Access.word a)).frame
      ∨ (∃ u : Tower, (r.place (Access.word a)).frame = u.val
          ∧ (s.coverage.geometry[u] = none
            ∨ (s.coverage.frame (r.place (Access.word a)).bank u).fit = false
            ∨ ∃ g, s.coverage.geometry[u] = some g ∧ g.imageLen r.frameSize ≤ (r.place (Access.word a)).offset))) :
    s.foldOf a = none := by
  unfold State.foldOf
  simp only [hr]
  split
  · rfl
  · next u hu =>
    have hf := frameTower_some hu
    split
    · rfl
    · next g hg =>
      refine if_neg fun ⟨_, hc, ho, hfit, hi⟩ => ?_
      rcases h with h | h | h | ⟨v, hv, h⟩
      · rw [hc] at h
        cases h
      · exact h ho
      · omega
      · obtain rfl : v = u := Fin.ext (hv.symm.trans hf)
        rcases h with h | h | ⟨x, hx, hle⟩
        · rw [hg] at h
          cases h
        · rw [hfit] at h
          cases h
        · rw [hg] at hx
          cases hx
          omega

/-- Settles O17: the three fates of a coverage write, then the places of an address and the owners of a column. -/
theorem coverageWriteIsTakenWaitsOrIsRefused : Obligations.CoverageWriteIsTakenWaitsOrIsRefused := by
  unfold Obligations.CoverageWriteIsTakenWaitsOrIsRefused
  refine ⟨fun s cls addr d w r u g c hc h hl hr hcov hf hg ho hfit hi => ?_, fun s cls addr d w c hc h =>
      ⟨fun hl => ?_, fun r hl hr hx => ?_⟩,
    fun r a => ⟨by simp [CoverRange.covers], rfl, rfl, rfl, rfl⟩, fun _ _ => rfl,
    fun g i b hb => by simp [Geometry.bound, List.getD, hb],
    fun g col => ⟨fun k => Geometry.owner_some g col k, Geometry.owner_none g col⟩,
    fun g col hm hk => Geometry.owner_ascending hm hk col⟩
  · have hp : s.control.part = .running := ((State.windowOf_some s _ w).1 h.2.1).1
    have hfold := State.foldOf_eq (a := fullWrite cls addr d) hp hr hcov hf hg ho hfit hi
    generalize he : s.foldOf (fullWrite cls addr d) = e at hfold
    subst hfold
    obtain ⟨t, ht, bus, cov, loop, resp, others, mem, -, port, setup, towers, engine, loader, settings, events⟩ :=
      s.settle_stage { s.coverage with latch := s.foldOf (fullWrite cls addr d) } s.loop (fullWrite cls addr d)
        (.claim .foldRead)
    rw [he] at ht cov
    refine ⟨t, _, ?_, bus, cov, rfl, rfl, rfl, rfl, rfl, rfl, rfl, rfl, rfl, rfl, rfl, resp, others, mem, port, setup,
      towers, engine, loop, loader, settings, events⟩
    rw [State.exec_coverage hc h, ← ht, State.coverageWrite, hl, State.takeFold, he]
    rfl
  · obtain ⟨t, ht, bus, cov, loop, resp, others, mem, -, port, setup, towers, engine, loader, settings, events⟩ :=
      s.settle_stage { s.coverage with waiting := s.coverage.waiting ++ [cls] } s.loop (fullWrite cls addr d) .waitLatch
    refine ⟨t, ?_, bus, cov, resp, others, mem, port, setup, towers, engine, loop, loader, settings, events⟩
    rw [State.exec_coverage hc h, ← ht, State.coverageWrite, if_pos hl]
    rfl
  · have ha : s.arrive (fullWrite cls addr d) = (s.raise .bankRefused).refuse (fullWrite cls addr d) := by
      rw [State.arrive_coverage h, State.coverageWrite, hl, State.takeFold,
        State.foldOf_refused (a := fullWrite cls addr d) hr hx]
      rfl
    obtain ⟨t, ht, bus, resp, flags, cap, others, mem, port, setup, ⟨cov, towers, engine, loop, loader⟩, settings⟩ :=
      State.exec_refused ha
    refine ⟨t, ?_, bus, resp, cov, flags, cap, others, mem, port, setup, towers, engine, loop, loader, settings⟩
    rw [State.exec_coverage hc h, ← State.arrive_coverage h]
    exact ht

end Sys2Proof.Machine
end

section
/-! PROOFS. TRIM_WRITE: one record is recomposed and its key handed on. -/

namespace Sys2Proof.Machine

/-! ### Records over what follows an event -/

theorem KeyRec.values_eq {r q : KeyRec} (h : r.values = q.values) : r.base = q.base ∧ r.trim = q.trim
    ∧ r.correction = q.correction ∧ r.hold = q.hold ∧ r.ramp = q.ramp ∧ r.target = q.target := by
  simpa only [KeyRec.values, Prod.mk.injEq] using h

theorem State.settle_values (s0 s : State) (u : Tower) (sl : Slot) :
    ((State.settle s0 s).towers[u].recs[sl]).values = (s.towers[u].recs[sl]).values := by
  obtain ⟨-, -, -, -, -, -, -, -, recs⟩ := State.settle_tower s0 s u
  exact (recs sl).1

theorem State.settle_towers_of_tx {s0 s : State} (h : s.link.tx ≠ .idle) :
    (State.settle s0 s).towers = s.towers := by rw [State.settle_of_tx h, (State.offerChannel_keeps s).2.2.2.2.2.2.2.1]

theorem TowerState.handedOn_refl (tw : TowerState) : tw.handedOn tw := by
  have h := TowerState.revalueAll_handedOn keepsMoves_id (fun _ => false) tw
  rwa [List.filter_eq_nil_iff.2 fun _ _ k => Bool.false_ne_true k] at h

/-- One tower handed on and the others as they were: every tower is handed on. -/
theorem State.handedOn_modTower {s : State} {u : Tower} {f : TowerState → TowerState}
    (h : s.towers[u].handedOn (f s.towers[u])) : s.handedOn (s.modTower u f) := by
  intro v
  rw [State.modTower_get]
  split
  · next hv =>
    subst hv
    exact h
  · exact TowerState.handedOn_refl _

theorem State.handedOn_of_towers {s t x : State} (h : s.handedOn t) (e : x.towers = t.towers) : s.handedOn x := by
  unfold State.handedOn
  rw [e]
  exact h

/-! ### One trim -/

theorem keepsMoves_trim (v : Int) : KeepsMoves (fun _ => setTrim v) := fun _ _ => ⟨_, _, _, _, _, rfl⟩

theorem filter_slots_single {tw : TowerState} {sl : Slot} (h : tw.present sl = true) :
    [sl] = tw.slots.filter (fun x => decide (x = sl)) := by
  rw [List.filter_eq sl, tw.slots_nodup.count, if_pos ((tw.mem_slots sl).2 h), List.replicate_one]

/-- A trim write's change of its tower (R14, R48). -/
def TowerState.writeTrim (v : Int) (sl : Slot) (tw : TowerState) : TowerState :=
  TowerState.revalueEvent (fun _ => setTrim v) (fun _ => [sl]) tw

theorem TowerState.writeTrim_values (v : Int) (sl : Slot) (tw : TowerState) :
    ((tw.writeTrim v sl).recs[sl]).values = ({ tw.recs[sl] with
        trim := clampInt (-300) 300 v
        target := composed tw.cfg tw.parkHold sl { tw.recs[sl] with trim := clampInt (-300) 300 v } } : KeyRec).values
      ∧ ∀ x : Slot, x ≠ sl → (tw.writeTrim v sl).recs[x] = tw.recs[x] := by
  obtain ⟨-, -, recs⟩ := TowerState.revalueEvent_spec (fun _ => setTrim v) (fun _ => [sl]) tw (List.pairwise_singleton _ sl)
  refine ⟨?_, fun x hx => (recs x).2 (by simpa using hx)⟩
  obtain ⟨m, hm⟩ := (recs sl).1 (by simp)
  rw [TowerState.writeTrim, hm]
  rfl

theorem State.arrive_trim {s : State} {w : Window} {cls : MasterClass} {addr : Addr} {trim rest : Half} {u : Tower}
    {sl : Slot} (h : s.matched .live w (fullWrite cls addr (rest ++ trim)))
    (ht : s.trimTarget (wordAddr addr.toNat - w.base) = some (u, sl)) :
    s.arrive (fullWrite cls addr (rest ++ trim))
      = (s.modTower u (TowerState.writeTrim trim.toInt sl)).respond cls .ok := by
  have hh : halfOf (fullWrite cls addr (rest ++ trim)).data 0 = trim := halfOf_low rest trim
  have ht' : s.trimTarget (Access.word (fullWrite cls addr (rest ++ trim)) - w.base) = some (u, sl) := ht
  rw [State.arrive_matched h rfl, State.handOver, h.2.2.1]
  simp only [State.writeLive, ht', hh]
  rfl

theorem Ramp.value_start {p : Ramp} (h : p.done = 0) : p.value = p.from_ := by simp [Ramp.value, h]

/-- Settles O16: the written record by the change of its tower, the rest by what one tower's change leaves. -/
theorem trimWriteSetsTheTrim : Obligations.TrimWriteSetsTheTrim := by
  unfold Obligations.TrimWriteSetsTheTrim
  refine ⟨fun s cls addr trim rest w u sl h ht => ?_, fun park sl r => ⟨rfl, fun c => ⟨composed_held, ?_⟩⟩,
    fun r => ⟨fun hr => by simp [KeyRec.rb, hr], fun p hp => ?_⟩, fun lo hi x => clampInt_eq x, fun _ => rfl,
    fun s o => ⟨State.trimTarget_some s o, State.trimTarget_none s o, fun ho => ?_⟩⟩
  · have ha := State.arrive_trim h ht
    generalize hf : TowerState.writeTrim trim.toInt sl = f at ha
    have hself : ∀ v : Tower, (s.arrive (fullWrite cls addr (rest ++ trim))).towers[v]
        = if v = u then f s.towers[u] else s.towers[v] := fun v => by
      simp only [ha, State.respond_keeps, State.modTower_get]
    obtain ⟨written, others⟩ := TowerState.writeTrim_values trim.toInt sl s.towers[u]
    rw [hf] at written others
    have values := State.settle_values s (s.arrive (fullWrite cls addr (rest ++ trim))) u sl
    rw [hself, if_pos rfl, written] at values
    obtain ⟨base, trimmed, correction, hold, ramp, target⟩ := KeyRec.values_eq values
    refine ⟨_, rfl, ?_, ?_, trimmed, target, base, correction, hold, ramp, fun v x hne => ?_, fun htx => ?_, fun d hd => ?_,
      fun _ => ?_, ?_, ?_, ?_, ?_, ?_, ?_, ?_, ?_⟩
    · simp [ha, State.respond]
    · simp [ha, State.respond]
    · rw [State.settle_values, hself]
      split
      · next hv =>
        subst hv
        rw [others x fun hx => hne (by rw [hx])]
      · rfl
    · have hon : s.handedOn (s.modTower u f) := by
        refine State.handedOn_modTower ?_
        rw [← hf]
        exact TowerState.revalueEvent_handedOn (keepsMoves_trim trim.toInt) _
          (filter_slots_single ((State.trimTarget_some _ _ _ _).1 ht).2)
      refine State.handedOn_of_towers hon ?_
      rw [State.settle_towers_of_tx (by rw [ha]; simpa using htx), ha]
      simp
    · simp [ha, State.respond, hd]
    · simp [ha]
    · exact State.samePort_trans (State.samePort_of_eq (by simp [ha])) (State.samePort_settle s _)
    · exact ⟨by simp [ha], by simp [ha], by simp [ha], by simp [ha], by simp [ha]⟩
    · simp [ha]
    · simp [ha]
    · simp [ha]
    · simp [ha]
    · exact ⟨by simp [ha], by simp [ha], by simp [ha], by simp [ha], by simp [ha]⟩
    · exact ⟨by simp [ha], by simp [ha], by simp [ha], by simp [ha]⟩
  · intro hh hp omax corr ho hc
    subst hp
    rw [composed_free hh, ho, hc, KeyRec.offset, KeyCfg.bound]
    split <;> rfl
  · have hv : r.rb = p.value := by simp only [KeyRec.rb, hp]
    rw [hv]
    exact ⟨rfl, Ramp.value_start, Ramp.value_between⟩
  · rw [State.trimTarget_none]
    rintro u sl ⟨he, -⟩
    omega

end Sys2Proof.Machine
end

section
/-! PROOFS. Commands of an unknown code, and those that the order engine takes: START, STOP, ARM, DISARM. -/

namespace Sys2Proof.Machine

/-! ### Command words -/

theorem bankCommandWord_eq (bk : BankId) (rest : BitVec 23) (code : Byte) :
    bankCommandWord bk rest code = rest ++ (if bk = .a then 0#1 else 1#1) ++ code := by
  cases bk <;> rfl

theorem indexOf_eq (d : Word) : indexOf d = d.extractLsb' 8 8 := by
  simp [indexOf, byteOf, BitVec.extractLsb', Nat.shiftRight_eq_div_pow]

theorem carriesResult_iff (v : CtlWord) : carriesResult v = true ↔ v ∈ ([0, 1, 4, 7, 8, 9, 10, 11, 12, 14, 16, 17, 18, 19,
    20, 21, 22, 23, 24, 25, 26, 27] : List CtlWord) := by
  revert v
  decide

/-! ### Unknown codes -/

/-- The owned words that have codes, with the codes they do not know (12.2). -/
inductive BadCode (n : Nat) : CtlWord → Prop
  | start (h : n ≠ 1) : BadCode n wordStart
  | reload (h : n ≠ 1) : BadCode n wordReload
  | stop (h : n ≠ 1 ∧ n ≠ 2) : BadCode n wordStop
  | bind (k : Source) (h : n ≠ 1 ∧ n ≠ 2) : BadCode n (wordBind k)
  | bank (h : n < 1 ∨ 4 < n) : BadCode n wordBank
  | tower (t : Tower) (h : n < 1 ∨ 6 < n) : BadCode n (wordTower t)

theorem exists_wordBind {w : CtlWord} (h : 8 ≤ w.val ∧ w.val ≤ 12) : ∃ k, w = wordBind k := by
  have hs : ∀ w : CtlWord, 8 ≤ w.val ∧ w.val ≤ 12 → ∃ k ∈ allSources, w = wordBind k := by decide
  obtain ⟨k, -, hk⟩ := hs w h
  exact ⟨k, hk⟩

theorem exists_wordTower {w : CtlWord} (ho : ownedWord w = true) (h : 16 ≤ w.val) : ∃ t, w = wordTower t := by
  have hw := (ownedWord_iff w).1 ho
  exact ⟨⟨w.val - 16, by omega⟩, Fin.ext (show w.val = 16 + (w.val - 16) by omega)⟩

theorem badCode_of_unknownCode {w : CtlWord} {n : Nat} (ho : ownedWord w = true) (h : unknownCode w n = true) :
    BadCode n w := by
  unfold unknownCode at h
  split at h
  · next hw =>
    rw [bne_iff_ne] at h
    rcases hw with rfl | rfl
    · exact .start h
    · exact .reload h
  split at h
  · next hw =>
    simp only [Bool.and_eq_true, bne_iff_ne] at h
    rcases hw with rfl | hk
    · exact .stop h
    · obtain ⟨k, rfl⟩ := exists_wordBind hk
      exact .bind k h
  split at h
  · next hw =>
    subst hw
    exact .bank (of_decide_eq_true h)
  split at h
  · next hw =>
    obtain ⟨t, rfl⟩ := exists_wordTower ho hw
    exact .tower t (of_decide_eq_true h)
  · cases h

theorem State.towerWord_unknown {t : Tower} {d : Word} (s : State) (h : codeOf d < 1 ∨ 6 < codeOf d) :
    s.towerWord t d = (.badCode, s) := by
  rw [State.towerWord, if_neg (by omega), if_neg (by omega), if_neg (by omega), if_neg (by omega), if_neg (by omega),
    if_neg (by omega)]

theorem State.bankWord_unknown {d : Word} (s : State) (h : codeOf d < 1 ∨ 4 < codeOf d) :
    s.bankWord d = (.badCode, s) := by
  rw [State.bankWord, if_neg (by omega), if_neg (by omega), if_neg (by omega), if_neg (by omega)]

/-- A command of an unknown code has no effect of its own (R11). -/
theorem State.command_unknown {w : CtlWord} {d : Word} (s : State) (h : BadCode (codeOf d) w) :
    s.command w d = (.badCode, s) := by
  cases h with
  | start h => rw [State.command_start, State.startWord, if_neg h]
  | reload h => rw [State.command_reload, State.reloadWord, if_neg h]
  | stop h => rw [State.command_stop, State.stopWord, if_neg h.1, if_neg h.2]
  | bind k h => rw [State.command_bind, State.bindWord, if_neg h.1, if_neg h.2]
  | bank h => rw [State.command_bank, s.bankWord_unknown h]
  | tower t h => rw [State.command_tower, s.towerWord_unknown h]

/-- A word that is not in the mirror set keeps its place out of it. -/
theorem Control.keepOwn_self (w : CtlWord) (c : Control) : Control.keepOwn w c c = c := by
  unfold Control.keepOwn
  split
  · next h =>
    have hm : c.mirror &&& ~~~(BitVec.twoPow 32 w.val) = c.mirror := by
      apply BitVec.eq_of_getLsbD_eq
      intro i hi
      by_cases hw : w.val = i
      · subst hw
        simpa using h.2
      · simp [Ne.symm hw, hi]
    rw [Control.unmirror, hm]
  · rfl

/-- The offer reads no last result, and keeps them. -/
theorem State.offerChannel_last {s s1 : State} {l : Vector Result 32} (hc : s1.control = { s.control with last := l })
    (hl : s1.loader = s.loader) (hw : s1.windows = s.windows) (hp : s1.port = s.port) :
    s1.offerChannel.control = { s.offerChannel.control with last := l } ∧ s1.offerChannel.port = s.offerChannel.port := by
  unfold State.offerChannel State.nextPreload State.offerMirror State.offerOn State.offer
  rw [hc, hl, hw]
  repeat' split
  all_goals simp_all

/-- Settles O19: the command has no effect of its own, and the answer's bookkeeping is all that is left. -/
theorem badCodeHasNoOtherEffect : Obligations.BadCodeHasNoOtherEffect := by
  unfold Obligations.BadCodeHasNoOtherEffect
  refine ⟨fun s cls addr d w ha hu => ?_, fun _ _ => rfl, bankCommandWord_eq, indexOf_eq, carriesResult_iff⟩
  have hc : s.command w d = (.badCode, s) :=
    s.command_unknown (badCode_of_unknownCode ha.1 (by rwa [codeOf_eq]))
  have take : s.takeCommand (fullWrite cls addr d) w
      = (s.setResult w .badCode d).claim (fullWrite cls addr d) (.answer w .badCode (indexOf d)) := by
    have hd : (fullWrite cls addr d).data = d := rfl
    simp only [State.takeCommand, hd, hc, Control.keepOwn_self]
  obtain ⟨pending, windows, curves, timeout, levels, cov, loop, loader, engine, part, flags, enables, mode, line, addr_,
    datum, notice, cap, -, towers, -⟩ := State.takeCommand_rest (cls := cls) (addr := addr) hc
  have settled : State.settle s (s.takeCommand (fullWrite cls addr d) w)
      = (s.takeCommand (fullWrite cls addr d) w).offerChannel :=
    State.settle_of_towers (by rw [take]; simp [State.setResult])
  obtain ⟨control, port⟩ := State.offerChannel_last (s := s) (s1 := s.takeCommand (fullWrite cls addr d) w)
    (l := (s.setResult w .badCode d).control.last)
    (by
      rw [take]
      simp only [State.claim_keeps, State.setResult]
      split <;> rfl)
    (by rw [take]; simp [State.setResult]) (by rw [take]; simp [State.setResult])
    (by rw [take]; simp [State.setResult])
  refine ⟨_, ?_, State.takeCommand_took hc rfl rfl rfl rfl, ?_, ?_, ⟨windows, curves, timeout, levels, pending⟩, cov,
    towers rfl, loop, loader, engine.trans ?_, ⟨part, enables, mode, addr_, datum⟩, ⟨flags, cap, line, notice⟩⟩
  · show Host.Outcome.next (State.settle s (s.arrive (fullWrite cls addr d))) = _
    rw [State.arrive_command ha]
  · rw [settled, control]
  · rw [settled, port]
  · rw [indexOf_eq]
    by_cases h0 : w = 0
    · subst h0
      rfl
    · rw [if_neg (show w ≠ wordStart from h0), if_neg h0]
      split
      · next h1 => rw [if_pos (show w = 1 from h1)]
      · next h1 => rw [if_neg (show w ≠ 1 from h1)]

/-! ### Commands of the order engine -/

/-- Nothing but the order engine has changed, with the reports and the requests that go with it. -/
structure State.EngineOnly (s t : State) : Prop where
  eq : t = { s with engine := t.engine, control := t.control, port := t.port }
  settings : s.sameSettings t
  events : s.sameEvents t
  last : t.control.last = s.control.last
  port : s.samePort t

theorem State.EngineOnly.refl (s : State) : s.EngineOnly s :=
  ⟨rfl, ⟨rfl, rfl, rfl, rfl, rfl⟩, ⟨rfl, rfl, rfl, rfl⟩, rfl, State.samePort_refl s⟩

theorem State.engineOnly_putEngine (s : State) (e : Engine) : s.EngineOnly (s.putEngine e) :=
  ⟨rfl, ⟨by simp, by simp, by simp, by simp, by simp⟩, ⟨by simp, by simp, by simp, by simp⟩, by simp,
    State.samePort_of_eq rfl⟩

theorem State.engineOnly_startChain (s : State) (i : Nat) (tie : Option Source) : s.EngineOnly (s.startChain i tie) :=
  ⟨rfl, ⟨by simp, by simp, by simp, by simp, by simp⟩, ⟨by simp, by simp, by simp, by simp⟩, by simp,
    State.samePort_trans (State.samePort_of_eq rfl) (State.samePort_offer _ _)⟩

theorem State.startChain_engine (s : State) (i : Nat) (tie : Option Source) : (s.startChain i tie).engine
    = { s.engine with head := i, current := i, visited := 1, tie := tie, state := .fetching, running := none } := rfl

theorem State.startChain_queue (s : State) (i : Nat) (tie : Option Source) : (s.startChain i tie).port.queue
    = s.port.queue ++ [.orderRead (s.startChain i tie).engine.recordAddr] := rfl

/-- A command that changes the order engine alone reaches its word: the next state. -/
theorem State.exec_engineCommand {s : State} {cls : MasterClass} {addr : Addr} {d : Word} {w : CtlWord}
    {p : Result × State} {e : Host.Outcome State Fault Refusal} (he : e = afterEvent (State.arrive (fullWrite cls addr d)) s)
    (ha : s.admitsCommand cls addr d w) (hc : s.command w d = p) (h1 : s.EngineOnly p.2) :
    ∃ t, e = .next t ∧ s.tookCommand t cls addr d w p.1
      ∧ t.engine = (if w = wordStart then { p.2.engine with startIndex := indexOf d }
          else if w = wordStop then { p.2.engine with stopIndex := indexOf d } else p.2.engine)
      ∧ p.2.samePort t
      ∧ s.samePort t ∧ s.sameSetup t ∧ t.coverage = s.coverage ∧ s.sameTowers t ∧ t.loop = s.loop
      ∧ t.loader = s.loader ∧ s.sameSettings t ∧ s.sameEvents t := by
  obtain ⟨r, s1⟩ := p
  obtain ⟨eq, ⟨part1, enables1, mode1, addr1, datum1⟩, ⟨flags1, cap1, line1, notice1⟩, last, port1⟩ := h1
  dsimp only at eq part1 enables1 mode1 addr1 datum1 flags1 cap1 line1 notice1 last port1 ⊢
  have same : s1.bus = s.bus ∧ s1.lastResponse = s.lastResponse ∧ s1.mem = s.mem ∧ s1.pending = s.pending
      ∧ s1.windows = s.windows ∧ s1.curves = s.curves ∧ s1.timeout = s.timeout ∧ s1.levels = s.levels
      ∧ s1.coverage = s.coverage ∧ s1.loop = s.loop ∧ s1.loader = s.loader ∧ s1.towers = s.towers ∧ s1.link = s.link := by
    rw [eq]
    exact ⟨rfl, rfl, rfl, rfl, rfl, rfl, rfl, rfl, rfl, rfl, rfl, rfl, rfl⟩
  obtain ⟨bus1, resp1, mem1, pending1, windows1, curves1, timeout1, levels1, cov1, loop1, loader1, towers1, link1⟩ := same
  obtain ⟨t, ht, took, pending, windows, curves, timeout, levels, cov, loop, loader, engine, part, flags, enables, mode,
    line, naddr, datum, notice, cap, port, towers, -⟩ := State.exec_command he ha hc bus1 resp1 mem1 last
  obtain ⟨ttowers, tlink⟩ := towers towers1
  exact ⟨t, ht, took, engine, port, State.samePort_trans port1 port,
    ⟨windows.trans windows1, curves.trans curves1, timeout.trans timeout1, levels.trans levels1, pending.trans pending1⟩,
    cov.trans cov1, ⟨ttowers, tlink.trans link1⟩, loop.trans loop1, loader.trans loader1,
    ⟨part.trans part1, enables.trans enables1, mode.trans mode1, naddr.trans addr1, datum.trans datum1⟩,
    ⟨flags.trans flags1, cap.trans cap1, line.trans line1, notice.trans notice1⟩⟩

/-! ### START and STOP -/

theorem State.startWord_one (s : State) (index : Byte) (rest : BitVec 16) :
    s.startWord (codeWord (rest ++ index) 1) = s.start index := by
  rw [State.startWord, codeOf_codeWord, indexOf_codeWord]
  rfl

theorem State.stopWord_one (s : State) (index : Byte) (rest : BitVec 16) :
    s.stopWord (codeWord (rest ++ index) 1) = s.stop index := by
  rw [State.stopWord, codeOf_codeWord, indexOf_codeWord]
  rfl

/-- The result of a START is the one of R131, and a START changes the order engine alone. -/
theorem State.start_result (s : State) (index : Byte) : (s.start index).1
      = (if s.engine.length ≤ index.toNat then .refusedRange
          else if s.engine.slot.isSome then .refusedBusy
          else if s.engine.state = .idle then .accepted else .queued)
    ∧ s.EngineOnly (s.start index).2 := by
  unfold State.start
  split
  · exact ⟨rfl, .refl s⟩
  split
  · exact ⟨rfl, .refl s⟩
  split
  · exact ⟨rfl, s.engineOnly_startChain _ _⟩
  · exact ⟨rfl, s.engineOnly_putEngine _⟩

/-- A START that is ACCEPTED starts the chain, one that is QUEUED fills the slot, any other leaves the state as it is. -/
theorem State.start_effect (s : State) (index : Byte) :
    ((s.start index).1 = .accepted → s.engine.slot = none ∧ (s.start index).2 = s.startChain index.toNat none)
      ∧ ((s.start index).1 = .queued → (s.start index).2 = s.putEngine { s.engine with slot := some index.toNat })
      ∧ ((s.start index).1 = .refusedRange ∨ (s.start index).1 = .refusedBusy → (s.start index).2 = s) := by
  unfold State.start
  split
  · exact ⟨nofun, nofun, fun _ => rfl⟩
  split
  · exact ⟨nofun, nofun, fun _ => rfl⟩
  next hslot =>
  split
  · exact ⟨fun _ => ⟨Option.not_isSome_iff_eq_none.1 hslot, rfl⟩, nofun, by simp⟩
  · exact ⟨nofun, fun _ => rfl, by simp⟩

/-- The result of a STOP with an index is the one of R137, and it changes the order engine alone. -/
theorem State.stop_effect (s : State) (index : Byte) :
    s.EngineOnly (s.stop index).2
      ∧ (s.engine.state ≠ .idle → s.engine.head = index.toNat →
          (s.stop index).1 = .accepted ∧ (s.stop index).2.engine = { s.engine with stop := true })
      ∧ (¬(s.engine.state ≠ .idle ∧ s.engine.head = index.toNat) →
          (s.engine.slot = some index.toNat
            ∨ ∃ k, (s.engine.bindings.get k).pending = true ∧ (s.engine.bindings.get k).index = index.toNat) →
          (s.stop index).1 = .accepted ∧ (s.stop index).2.engine = s.engine.removeWaiting index.toNat)
      ∧ (¬(s.engine.state ≠ .idle ∧ s.engine.head = index.toNat) →
          s.engine.slot ≠ some index.toNat →
          (∀ k, (s.engine.bindings.get k).pending = true → (s.engine.bindings.get k).index ≠ index.toNat) →
          (s.stop index).1 = .notRunning ∧ (s.stop index).2.engine = s.engine) := by
  rw [← Engine.any_pendingAt]
  unfold State.stop
  split
  · next h => exact ⟨s.engineOnly_putEngine _, fun _ _ => ⟨rfl, rfl⟩, fun n => absurd h n, fun n => absurd h n⟩
  next h =>
  split
  · next hw =>
    refine ⟨s.engineOnly_putEngine _, fun a b => absurd ⟨a, b⟩ h, fun _ _ => ⟨rfl, rfl⟩, fun _ hs hp => ?_⟩
    rcases hw with hw | hw
    · exact absurd hw hs
    · obtain ⟨k, hk, hi⟩ := (Engine.any_pendingAt _ _).1 hw
      exact absurd hi (hp k hk)
  · next hw => exact ⟨.refl s, fun a b => absurd ⟨a, b⟩ h, fun _ n => absurd n hw, fun _ _ _ => ⟨rfl, rfl⟩⟩

/-- Settles O20, by the results of R131 and R137 and what each leaves of the engine. -/
theorem startAndStopFollowTheirTables : Obligations.StartAndStopFollowTheirTables := by
  unfold Obligations.StartAndStopFollowTheirTables
  refine ⟨fun s cls addr index rest ha => ?_, fun s cls addr index rest ha => ?_⟩
  · have hc : s.command wordStart (codeWord (rest ++ index) 1) = s.start index := by
      rw [State.command_start, State.startWord_one]
    obtain ⟨result, only⟩ := s.start_result index
    obtain ⟨started, queued, refused⟩ := s.start_effect index
    obtain ⟨t, ht, took, engine, port1, frame⟩ := State.exec_engineCommand
      (e := exec (.start cls addr index rest) s) rfl ha hc only
    rw [if_pos rfl, indexOf_codeWord] at engine
    refine ⟨t, _, ht, took, by rw [engine], result, fun hr => ?_, fun hr => ?_, fun hr => ?_, frame⟩
    · obtain ⟨hslot, hs⟩ := started hr
      rw [hs] at engine port1
      rw [engine]
      exact ⟨rfl, rfl, rfl, rfl, rfl, hslot, rfl, port1.2.2.2.2⟩
    · rw [engine, queued hr]
      rfl
    · rw [engine, refused hr]
  · have hc : s.command wordStop (codeWord (rest ++ index) 1) = s.stop index := by
      rw [State.command_stop, State.stopWord_one]
    obtain ⟨only, running, waiting, neither⟩ := s.stop_effect index
    obtain ⟨t, ht, took, engine, -, frame⟩ := State.exec_engineCommand
      (e := exec (.stop cls addr index rest) s) rfl ha hc only
    rw [if_neg (show wordStop ≠ wordStart by decide), if_pos rfl, indexOf_codeWord] at engine
    refine ⟨t, _, ht, took, fun hs hh => ?_, fun hn hw => ?_, fun hn hs hp => ?_, frame⟩
    · obtain ⟨hr, hs1⟩ := running hs hh
      rw [engine, hs1]
      exact ⟨hr, rfl⟩
    · obtain ⟨hr, hs1⟩ := waiting hn hw
      obtain ⟨slot, stop, state, bindings⟩ := s.engine.removeWaiting_spec index.toNat
      rw [engine, hs1]
      exact ⟨hr, slot, bindings, stop, state⟩
    · obtain ⟨hr, hs1⟩ := neither hn hs hp
      rw [engine, hs1]
      exact ⟨hr, rfl⟩

end Sys2Proof.Machine
end

section
/-! PROOFS. ARM and DISARM, the words of the control unit, and the bank commands. -/

namespace Sys2Proof.Machine

/-! ### ARM and DISARM -/

theorem wordBind_ne (k : Source) : wordBind k ≠ wordStart ∧ wordBind k ≠ wordStop := by cases k <;> decide

theorem State.bindWord_one (s : State) (k : Source) (index divisor rest : Byte) :
    s.bindWord k (codeWord (rest ++ (divisor ++ index : BitVec 16)) 1) = s.armBinding k index divisor := by
  rw [State.bindWord, codeOf_codeWord, indexOf_codeWord_arm, byteOf_codeWord_two]
  rfl

theorem State.bindWord_two (s : State) (k : Source) (rest : BitVec 24) :
    s.bindWord k (codeWord rest 2) = s.disarmBinding k := by
  rw [State.bindWord, codeOf_codeWord]
  rfl

/-- A command on a BIND word leaves the engine as its effect does: no index is kept with its result (R140). -/
theorem State.exec_bindCommand {s : State} {cls : MasterClass} {addr : Addr} {d : Word} {k : Source}
    {p : Result × State} {e : Host.Outcome State Fault Refusal}
    (he : e = afterEvent (State.arrive (fullWrite cls addr d)) s) (ha : s.admitsCommand cls addr d (wordBind k))
    (hc : s.bindWord k d = p) (h1 : s.EngineOnly p.2) :
    ∃ t, e = .next t ∧ s.tookCommand t cls addr d (wordBind k) p.1 ∧ t.engine = p.2.engine
      ∧ s.samePort t ∧ s.sameSetup t ∧ t.coverage = s.coverage ∧ s.sameTowers t ∧ t.loop = s.loop
      ∧ t.loader = s.loader ∧ s.sameSettings t ∧ s.sameEvents t := by
  obtain ⟨t, ht, took, engine, -, frame⟩ := State.exec_engineCommand he ha ((s.command_bind d k).trans hc) h1
  rw [if_neg (wordBind_ne k).1, if_neg (wordBind_ne k).2] at engine
  exact ⟨t, ht, took, engine, frame⟩

/-- Settles O22, by the cases of R133. -/
theorem armAndDisarmABinding : Obligations.ArmAndDisarmABinding := by
  unfold Obligations.ArmAndDisarmABinding
  refine ⟨fun s cls addr index divisor rest k ha => ?_, fun s cls addr rest k ha => ?_⟩
  · have hc := s.bindWord_one k index divisor rest
    by_cases hr : s.engine.length ≤ index.toNat ∨ (k = .sheet ∧ divisor = 0)
    · rw [State.armBinding, if_pos hr] at hc
      obtain ⟨t, ht, took, engine, frame⟩ := State.exec_bindCommand
        (e := exec (.arm cls addr index divisor rest) s) rfl ha hc (.refl s)
      exact ⟨t, _, ht, took, fun _ => ⟨rfl, engine⟩, fun hn => absurd hr hn, frame⟩
    · rw [State.armBinding, if_neg hr] at hc
      obtain ⟨t, ht, took, engine, frame⟩ := State.exec_bindCommand
        (e := exec (.arm cls addr index divisor rest) s) rfl ha hc (s.engineOnly_putEngine _)
      refine ⟨t, _, ht, took, fun h => absurd h hr, fun _ => ?_, frame⟩
      have bindings : ∀ j, t.engine.bindings.get j
          = if j = k then ⟨true, false, index.toNat⟩ else s.engine.bindings.get j := fun j => by
        rw [engine]
        exact Engine.modBinding_get s.engine k j (fun _ => ⟨true, false, index.toNat⟩)
      refine ⟨rfl, (bindings k).trans (if_pos rfl), fun j hj => (bindings j).trans (if_neg hj), ?_⟩
      rw [engine]
      exact ⟨rfl, rfl, rfl, rfl, rfl⟩
  · obtain ⟨t, ht, took, engine, frame⟩ := State.exec_bindCommand
      (e := exec (.disarm cls addr rest) s) rfl ha (s.bindWord_two k rest) (s.engineOnly_putEngine _)
    refine ⟨t, ht, took, ?_, fun j hj => ?_, ?_, ?_, ?_, ?_, ?_, frame⟩ <;> rw [engine]
    · exact (Engine.modBinding_get _ _ _ _).trans (if_pos rfl)
    · exact (Engine.modBinding_get _ _ _ _).trans (if_neg hj)
    all_goals rfl

/-! ### The words of the control unit -/

/-- A command that changes the control unit's fields and the loop unit alone reaches its word: the next state. -/
theorem State.exec_plainCommand {s : State} {c : Control} {l : LoopUnit} {cls : MasterClass} {addr : Addr} {d : Word}
    {w : CtlWord} {r : Result} {e : Host.Outcome State Fault Refusal}
    (he : e = afterEvent (State.arrive (fullWrite cls addr d)) s) (ha : s.admitsCommand cls addr d w)
    (hc : s.command w d = (r, { s with control := c, loop := l })) (hl : c.last = s.control.last)
    (hw : w ≠ wordStart ∧ w ≠ wordStop) :
    ∃ t, e = .next t ∧ s.tookCommand t cls addr d w r ∧ t.loop = l
      ∧ (t.control.part = c.part ∧ t.control.enables = c.enables ∧ t.control.mode = c.mode
        ∧ t.control.noticeAddr = c.noticeAddr ∧ t.control.noticeDatum = c.noticeDatum)
      ∧ (t.control.flags = c.flags ∧ t.control.capture = c.capture ∧ t.control.line = c.line
        ∧ t.control.noticePending = c.noticePending)
      ∧ s.samePort t ∧ s.sameSetup t ∧ t.coverage = s.coverage ∧ s.sameTowers t ∧ t.engine = s.engine
      ∧ t.loader = s.loader := by
  obtain ⟨t, ht, took, pending, windows, curves, timeout, levels, cov, loop, loader, engine, part, flags, enables, mode,
    line, naddr, datum, notice, cap, port, towers, -⟩ := State.exec_command he ha hc rfl rfl rfl hl
  rw [if_neg hw.1, if_neg hw.2] at engine
  exact ⟨t, ht, took, loop, ⟨part, enables, mode, naddr, datum⟩, ⟨flags, cap, line, notice⟩, port,
    ⟨windows, curves, timeout, levels, pending⟩, cov, towers rfl, engine, loader⟩

/-- Settles O23, a word at a time: each is an effect on the control unit or on the drop and applied fields. -/
theorem eventAndStatusWordsAreTaken : Obligations.EventAndStatusWordsAreTaken := by
  unfold Obligations.EventAndStatusWordsAreTaken
  refine ⟨⟨fun s cls addr flags rest ha => ?_, fun s cls addr en rest ha => ?_⟩, fun s cls addr d =>
    ⟨fun ha => ?_, fun ha => ?_, fun ha => ?_, fun ha => ?_⟩⟩
  · have hc : s.command wordEvent (rest ++ flags)
        = (.accepted, { s with control := s.control.writeEvent flags, loop := s.loop }) := by
      show (Result.accepted, { s with control := s.control.writeEvent ((rest ++ flags).setWidth 14) }) = _
      rw [setWidth_flags]
    obtain ⟨t, ht, took, loop, settings, ⟨fl, cap, line, notice⟩, port, setup, cov, towers, engine, loader⟩ :=
      State.exec_plainCommand (e := exec (.event cls addr flags rest) s) rfl ha hc rfl (by decide)
    exact ⟨t, ht, took, fl, by rw [line, fl]; rfl, by rw [notice, line]; rfl, cap, settings, port, setup,
      cov, towers, engine, loop, loader⟩
  · have hc : s.command 3 (rest ++ en)
        = (.accepted, { s with control := s.control.writeEnable en, loop := s.loop }) := by
      show (Result.accepted, { s with control := s.control.writeEnable ((rest ++ en).setWidth 14) }) = _
      rw [setWidth_flags]
    obtain ⟨t, ht, took, loop, ⟨part, enables, mode, -, -⟩, ⟨fl, cap, line, notice⟩, port, setup, cov, towers, engine,
      loader⟩ := State.exec_plainCommand (e := exec (.eventEnable cls addr en rest) s) rfl ha hc rfl (by decide)
    exact ⟨t, ht, took, enables, fl, line, by rw [notice, line]; rfl, cap, part, mode, port, setup,
      cov, towers, engine, loop, loader⟩
  · obtain ⟨t, ht, took, loop, settings, events, port, setup, cov, towers, engine, loader⟩ :=
      State.exec_plainCommand (e := exec (.partStatus cls addr d) s) (r := .accepted) (c := s.control) (l := s.loop)
        rfl ha rfl rfl (by decide)
    exact ⟨t, ht, took, port, setup, ⟨cov, towers, engine, loop, loader⟩, settings, events⟩
  · obtain ⟨t, ht, took, loop, settings, events, port, setup, cov, towers, engine, loader⟩ :=
      State.exec_plainCommand (e := exec (.engine cls addr d) s) (r := .accepted) (c := s.control) (l := s.loop)
        rfl ha rfl rfl (by decide)
    exact ⟨t, ht, took, port, setup, ⟨cov, towers, engine, loop, loader⟩, settings, events⟩
  · obtain ⟨t, ht, took, loop, settings, ⟨fl, cap, -, -⟩, port, setup, cov, towers, engine, loader⟩ :=
      State.exec_plainCommand (e := exec (.refusal cls addr d) s) (r := .accepted)
        (c := { s.control with capture := Capture.empty }) (l := s.loop) rfl ha rfl rfl (by decide)
    exact ⟨t, ht, took, cap, fl, port, setup, ⟨cov, towers, engine, loop, loader⟩, settings⟩
  · obtain ⟨t, ht, took, loop, settings, events, port, setup, cov, towers, engine, loader⟩ :=
      State.exec_plainCommand (e := exec (.measureStatus cls addr d) s) (r := .accepted) (c := s.control)
        (l := { s.loop with status := MeasureStatus.cleared }) rfl ha rfl rfl (by decide)
    exact ⟨t, ht, took, loop, port, setup, cov, towers, engine, loader, settings, events⟩

/-! ### Bank commands -/

/-- A bank command that opens its bank at once: a CLEAR over a plan with no words (R35). -/
def BankCmd.opensAtOnce (c : Coverage) : BankCmd → Bool
  | .clear bk => (c.command (.clear bk)).1 = .accepted && ((c.command (.clear bk)).2.banks.get bk).state = .opened
  | _ => false

theorem State.bankCommand_snd (cmd : BankCmd) (s : State) : (s.bankCommand cmd).2
    = ({ s with coverage := (s.coverage.command cmd).2 } : State).raiseIf (cmd.opensAtOnce s.coverage) .bankReady := by
  cases cmd <;> rfl

/-- A command on the BANK word changes the coverage unit, and raises BANK_READY where a bank opens at once (R34, R35). -/
theorem State.exec_bankCommand {s : State} {cls : MasterClass} {addr : Addr} {d : Word} {cmd : BankCmd}
    {e : Host.Outcome State Fault Refusal} (he : e = afterEvent (State.arrive (fullWrite cls addr d)) s)
    (ha : s.admitsCommand cls addr d wordBank) (hc : s.bankWord d = s.bankCommand cmd) :
    ∃ t, e = .next t ∧ s.tookCommand t cls addr d wordBank (s.coverage.command cmd).1
      ∧ t.coverage = (s.coverage.command cmd).2
      ∧ (cmd.opensAtOnce s.coverage = false → s.sameEvents t)
      ∧ (cmd.opensAtOnce s.coverage = true → s.raised .bankReady t)
      ∧ s.samePort t ∧ s.sameSetup t ∧ s.sameTowers t ∧ t.engine = s.engine ∧ t.loop = s.loop
      ∧ t.loader = s.loader ∧ s.sameSettings t := by
  obtain ⟨t, ht, took, pending, windows, curves, timeout, levels, cov, loop, loader, engine, part, flags, enables, mode,
    line, naddr, datum, notice, cap, port, towers, -⟩ := State.exec_command (s1 := (s.bankCommand cmd).2)
      (r := (s.bankCommand cmd).1) he ha ((s.command_bank d).trans hc) (by simp) (by simp) (by simp) (by simp)
  rw [if_neg (by decide), if_neg (by decide)] at engine
  simp only [State.bankCommand_keeps, State.bankCommand_control] at *
  obtain ⟨ttowers, tlink⟩ := towers trivial
  refine ⟨t, ht, took, cov, fun hn => ?_, fun hy => ?_, State.samePort_trans (State.samePort_of_eq (by simp)) port,
    ⟨windows, curves, timeout, levels, pending⟩, ⟨ttowers, tlink⟩, engine, loop, loader, ⟨part, enables, mode, naddr, datum⟩⟩
  · rw [State.bankCommand_snd, hn] at flags line notice
    exact ⟨flags, cap, line, notice⟩
  · rw [State.bankCommand_snd, hy] at flags
    exact flags.trans (State.raise_flags _ _)

/-- Settles O24, by the branches of R30 and what an ACCEPTED CLEAR leaves of the coverage unit. -/
theorem clearCommand : Obligations.ClearCommand := by
  unfold Obligations.ClearCommand
  intro s cls addr bk rest ha
  have hc : s.bankWord (bankCommandWord bk rest 1) = s.bankCommand (.clear bk) := by
    rw [State.bankWord, codeOf_bankCommandWord, bankOf_bankCommandWord]
    rfl
  obtain ⟨t, ht, took, cov, quiet, ready, port, setup, towers, engine, loop, loader, settings⟩ :=
    State.exec_bankCommand (e := exec (.clear cls addr bk rest) s) rfl ha hc
  refine ⟨t, _, ht, took, fun hb => ?_, fun ha hb hr => ?_, fun g ha hb hr => ?_, port, setup, towers, engine, loop, loader,
    settings⟩
  · have hcmd : s.coverage.command (.clear bk) = (.refusedBusy, s.coverage) := by
      rw [Coverage.command, if_pos (by simpa using hb)]
    refine ⟨by rw [hcmd], by rw [cov, hcmd], quiet ?_⟩
    rw [BankCmd.opensAtOnce, hcmd]
    rfl
  · have hcmd : s.coverage.command (.clear bk) = (.refusedState, s.coverage) := by
      rw [Coverage.command, if_neg (by simp [ha, hb]), hr]
    refine ⟨by rw [hcmd], by rw [cov, hcmd], quiet ?_⟩
    rw [BankCmd.opensAtOnce, hcmd]
    rfl
  · have hcmd : s.coverage.command (.clear bk) = (.accepted, s.coverage.startClear g bk) := by
      rw [Coverage.command, if_neg (by simp [ha, hb]), hr]
    rw [hcmd] at cov
    obtain ⟨frames, other, active, geometry, range, waiting, noFold, fold, empty, full⟩ :=
      Coverage.startClear_effect cov
    refine ⟨by rw [hcmd], frames, other, active, geometry, range.trans hr, waiting, noFold, fold, fun hp => ?_,
      fun hp => ?_⟩
    · obtain ⟨state, cursor⟩ := empty hp
      refine ⟨state, cursor, ready ?_⟩
      rw [BankCmd.opensAtOnce, hcmd, ← cov, state]
      rfl
    · obtain ⟨state, cursor⟩ := full hp
      refine ⟨state, cursor, quiet ?_⟩
      rw [BankCmd.opensAtOnce, hcmd, ← cov, state]
      rfl

/-- Settles O25, by the table of R31 and by R33. -/
theorem lockUnlockAndSwap : Obligations.LockUnlockAndSwap := by
  unfold Obligations.LockUnlockAndSwap
  refine ⟨fun s cls addr bk rest ha => ?_, fun s cls addr bk rest ha => ?_, fun s cls addr rest ha => ?_, rfl, rfl,
    fun c bk st => ⟨rfl, fun k => ?_⟩⟩
  · have hc : s.bankWord (bankCommandWord bk rest 2) = s.bankCommand (.lock bk) := by
      rw [State.bankWord, codeOf_bankCommandWord, bankOf_bankCommandWord]
      rfl
    obtain ⟨t, ht, took, cov, quiet, -, port, setup, towers, engine, loop, loader, settings⟩ :=
      State.exec_bankCommand (e := exec (.lock cls addr bk rest) s) rfl ha hc
    refine ⟨t, _, ht, took, fun h => ?_, fun h => ?_, fun h => ?_, port, setup, towers, engine, loop, loader, settings,
      quiet rfl⟩
    · simp [cov, Coverage.command, h]
    · simp [cov, Coverage.command, h]
    · rcases h with h | h <;> simp [cov, Coverage.command, h]
  · have hc : s.bankWord (bankCommandWord bk rest 3) = s.bankCommand (.unlock bk) := by
      rw [State.bankWord, codeOf_bankCommandWord, bankOf_bankCommandWord]
      rfl
    obtain ⟨t, ht, took, cov, quiet, -, port, setup, towers, engine, loop, loader, settings⟩ :=
      State.exec_bankCommand (e := exec (.unlock cls addr bk rest) s) rfl ha hc
    refine ⟨t, _, ht, took, fun h => ?_, fun h => ?_, port, setup, towers, engine, loop, loader, settings, quiet rfl⟩
    · simp [cov, Coverage.command, h]
    · rw [cov, Coverage.command]
      split <;> simp_all
  · have hc : s.bankWord (codeWord rest 4) = s.bankCommand .swap := by
      rw [State.bankWord, codeOf_codeWord]
      rfl
    obtain ⟨t, ht, took, cov, quiet, -, port, setup, towers, engine, loop, loader, settings⟩ :=
      State.exec_bankCommand (e := exec (.swap cls addr rest) s) rfl ha hc
    refine ⟨t, _, ht, took, fun h => ?_, fun h => ?_, port, setup, towers, engine, loop, loader, settings, quiet rfl⟩
    · rw [Coverage.role_true] at h
      simp [cov, Coverage.command, h]
    · rw [Coverage.role_true] at h
      simp [cov, Coverage.command, h]
  · simp only [Coverage.setState, Coverage.modBank, PerBank.get_put]
    split
    · next h => rw [h]
    · rfl

end Sys2Proof.Machine
end

section
/-! PROOFS. STOP_ALL: the engine's waiting requests go, and every ramp is frozen into its base. -/

namespace Sys2Proof.Machine

/-! ### The towers a command leaves -/

/-- The towers and the link after a command are those of its effect, ahead of what follows the event. -/
theorem State.command_settled {s s1 t : State} {cls : MasterClass} {addr : Addr} {d : Word} {w : CtlWord} {r : Result}
    {e : Host.Outcome State Fault Refusal} (he : e = afterEvent (State.arrive (fullWrite cls addr d)) s)
    (ha : s.admitsCommand cls addr d w) (hc : s.command w d = (r, s1)) (ht : e = .next t) :
    ∃ x, t = State.settle s x ∧ x.towers = s1.towers ∧ x.link = s1.link := by
  have hd : (fullWrite cls addr d).data = d := rfl
  have eq : e = .next (State.settle s (s.takeCommand (fullWrite cls addr d) w)) := by
    rw [he]
    unfold afterEvent
    rw [State.arrive_command ha]
  rw [ht] at eq
  cases eq
  refine ⟨_, rfl, ?_, ?_⟩ <;> simp [State.takeCommand, hd, hc, State.setResult]

/-! ### Ramps frozen into their bases -/

theorem KeyRec.rb_nonneg {r : KeyRec} (h : r.rampOk) : 0 ≤ r.rb := by
  unfold KeyRec.rb
  split
  · exact Int.natCast_nonneg _
  · next p hp =>
    have := (Ramp.value_between (Nat.le_of_lt (h p hp))).1
    omega

theorem freezeRamp_rb {r : KeyRec} (h : r.rampOk) : (freezeRamp r).rb = r.rb :=
  Int.toNat_of_nonneg (KeyRec.rb_nonneg h)

/-- A freeze leaves the composed target where it is (R47, R54). -/
theorem composed_freezeRamp {r : KeyRec} (cfg : Option KeyCfg) (park : Bool) (sl : Slot) (h : r.rampOk) :
    composed cfg park sl (freezeRamp r) = composed cfg park sl r := by
  unfold composed
  rw [freezeRamp_rb h]
  rfl

theorem keepsMoves_freeze : KeepsMoves (fun _ => freezeRamp) := fun _ _ => ⟨_, _, _, _, _, rfl⟩

/-- A record of a tower whose ramps have been frozen. -/
theorem TowerState.freeze_values (tw : TowerState) (sl : Slot) :
    (tw.present sl = true → (tw.recs[sl]).ramp.isSome = true →
        (tw.freeze.recs[sl]).values = ({ freezeRamp tw.recs[sl] with
          target := composed tw.cfg tw.parkHold sl (freezeRamp tw.recs[sl]) } : KeyRec).values)
      ∧ ((tw.recs[sl]).ramp = none ∨ tw.present sl = false → tw.freeze.recs[sl] = tw.recs[sl]) := by
  obtain ⟨-, -, recs⟩ := TowerState.revalueEvent_spec (fun _ => freezeRamp)
    (fun tw => tw.slots.filter (fun sl => tw.recs[sl].ramp.isSome)) tw
    (List.Nodup.sublist List.filter_sublist tw.slots_nodup)
  obtain ⟨frozen, other⟩ := recs sl
  rw [List.mem_filter, TowerState.mem_slots] at frozen other
  refine ⟨fun hp hr => ?_, fun h => other fun ⟨hp, hr⟩ => ?_⟩
  · obtain ⟨m, hm⟩ := frozen ⟨hp, hr⟩
    rw [TowerState.freeze, hm]
    rfl
  · rcases h with h | h
    · rw [h] at hr
      cases hr
    · rw [h] at hp
      cases hp

theorem TowerState.freeze_handedOn (tw : TowerState) : tw.handedOn tw.freeze :=
  TowerState.revalueEvent_handedOn keepsMoves_freeze (fun sl => tw.recs[sl].ramp.isSome) rfl

theorem State.modTowers_all (s : State) (f : TowerState → TowerState) (u : Tower) :
    (s.modTowers f allTowers).towers[u] = f s.towers[u] := by
  rw [State.modTowers_get f allTowers allTowers_nodup, if_pos (mem_allTowers u)]

/-! ### STOP_ALL -/

theorem State.stopAll_engine (s : State) : s.stopAll.2.engine.stop = (s.engine.stop || s.engine.state != .idle)
    ∧ s.stopAll.2.engine.state = s.engine.state ∧ s.stopAll.2.engine.slot = none
    ∧ s.stopAll.2.engine.counter = s.engine.counter
    ∧ ∀ k, s.stopAll.2.engine.bindings.get k = { s.engine.bindings.get k with pending := false } := by
  obtain ⟨shape, bindings⟩ := Engine.unpendAll_spec allSources
    { s.engine with slot := none, stop := s.engine.stop || s.engine.state != .idle }
  have e : s.stopAll.2.engine = allSources.foldl (fun e k => e.modBinding k Binding.unpend)
      { s.engine with slot := none, stop := s.engine.stop || s.engine.state != .idle } := by simp [State.stopAll]
  rw [e]
  refine ⟨by rw [shape], by rw [shape], by rw [shape], by rw [shape], fun k => ?_⟩
  rw [bindings k, if_pos (mem_allSources k)]
  rfl

theorem State.stopAll_towers (s : State) (u : Tower) : s.stopAll.2.towers[u] = s.towers[u].freeze := by
  rw [State.stopAll, State.modTowers_all]
  rfl

/-- Settles O21: the engine's removals, and a frozen record for each ramp of a present slot. -/
theorem stopAllFreezesEveryRamp : Obligations.StopAllFreezesEveryRamp := by
  unfold Obligations.StopAllFreezesEveryRamp
  intro s cls addr rest ha
  have hc : s.command wordStop (codeWord rest 2) = (.accepted, s.stopAll.2) := by
    rw [State.command_stop, State.stopWord, codeOf_codeWord]
    rfl
  obtain ⟨t, ht, took, pending, windows, curves, timeout, levels, cov, loop, loader, engine, part, flags, enables, mode,
    line, naddr, datum, notice, cap, port, -, under⟩ := State.exec_command (e := exec (.stopAll cls addr rest) s)
      rfl ha hc (by simp [State.stopAll]) (by simp [State.stopAll]) (by simp [State.stopAll]) (by simp [State.stopAll])
  obtain ⟨x, hx, xtowers, xlink⟩ := State.command_settled (e := exec (.stopAll cls addr rest) s) rfl ha hc ht
  rw [if_neg (by decide), if_pos rfl] at engine
  obtain ⟨stop, state, slot, counter, bindings⟩ := s.stopAll_engine
  have values : ∀ (u : Tower) (sl : Slot),
      ((t.towers[u]).recs[sl]).values = ((s.towers[u]).freeze.recs[sl]).values := fun u sl => by
    obtain ⟨-, -, -, -, -, -, -, -, recs⟩ := under u
    rw [(recs sl).1, State.stopAll_towers]
  have frozen : ∀ (u : Tower) (sl : Slot), s.towers[u].present sl = true →
      (s.towers[u].recs[sl]).ramp.isSome = true → (t.towers[u].recs[sl]).values = ({ freezeRamp s.towers[u].recs[sl] with
        target := composed s.towers[u].cfg s.towers[u].parkHold sl (freezeRamp s.towers[u].recs[sl]) } : KeyRec).values :=
    fun u sl hp hr => (values u sl).trans ((s.towers[u].freeze_values sl).1 hp hr)
  have kept : ∀ (u : Tower) (sl : Slot), (s.towers[u].recs[sl]).ramp = none ∨ s.towers[u].present sl = false →
      (t.towers[u].recs[sl]).values = (s.towers[u].recs[sl]).values := fun u sl h => by
    rw [values, (s.towers[u].freeze_values sl).2 h]
  refine ⟨t, ht, took, ?_, ?_, ?_, ?_, fun k => ?_, fun u sl hp hr => ?_, kept, fun u sl => ?_, fun htx => ?_, ?_, ?_, ?_, ?_,
    ?_, ?_, ?_⟩
  · rw [engine]
    exact stop
  · rw [engine]
    exact state
  · rw [engine]
    exact slot
  · rw [engine]
    exact counter
  · rw [engine]
    exact bindings k
  · obtain ⟨base, -, -, -, ramp, -⟩ := KeyRec.values_eq (frozen u sl hp hr)
    exact ⟨ramp, base⟩
  · by_cases h : s.towers[u].present sl = true ∧ (s.towers[u].recs[sl]).ramp.isSome = true
    · obtain ⟨-, trim, correction, hold, -, target⟩ := KeyRec.values_eq (frozen u sl h.1 h.2)
      exact ⟨trim, correction, hold, fun _ _ hok => target.trans (composed_freezeRamp _ _ _ hok)⟩
    · have hn : (s.towers[u].recs[sl]).ramp = none ∨ s.towers[u].present sl = false := by
        rw [← Option.not_isSome_iff_eq_none, ← Bool.not_eq_true, or_comm]
        exact Classical.not_and_iff_not_or_not.1 h
      obtain ⟨-, trim, correction, hold, -, -⟩ := KeyRec.values_eq (kept u sl hn)
      exact ⟨trim, correction, hold, fun hp hr => absurd ⟨hp, hr⟩ h⟩
  · intro u
    have : t.towers = s.stopAll.2.towers := by
      rw [hx, State.settle_towers_of_tx (by rw [xlink]; simpa [State.stopAll] using htx), xtowers]
    rw [this, State.stopAll_towers]
    exact TowerState.freeze_handedOn _
  · exact State.samePort_trans (State.samePort_of_eq (by simp [State.stopAll])) port
  · refine ⟨windows.trans ?_, curves.trans ?_, timeout.trans ?_, levels.trans ?_, pending.trans ?_⟩ <;>
      simp [State.stopAll]
  · rw [cov]
    simp [State.stopAll]
  · rw [loop]
    simp [State.stopAll]
  · rw [loader]
    simp [State.stopAll]
  · refine ⟨part.trans ?_, enables.trans ?_, mode.trans ?_, naddr.trans ?_, datum.trans ?_⟩ <;> simp [State.stopAll]
  · refine ⟨flags.trans ?_, cap.trans ?_, line.trans ?_, notice.trans ?_⟩ <;> simp [State.stopAll]

end Sys2Proof.Machine
end

section
/-! PROOFS. RELOAD: every block takes its RELOAD values, and nothing is searched or offered after it. -/

namespace Sys2Proof.Machine

/-! ### Nothing to serve, nothing to offer -/

theorem State.search_none {s : State} (h : ∀ u : Tower, s.towers[u].hasWork = false) : s.search = s := by
  have hf : s.found = none := List.find?_eq_none.2 fun u _ => by rw [h u]; exact Bool.false_ne_true
  rw [State.search, hf]

theorem State.searchIfChanged_none {s0 s : State} (h : ∀ u : Tower, s.towers[u].hasWork = false) :
    State.searchIfChanged s0 s = s := by
  rw [State.searchIfChanged, State.search_none h, ite_self]

theorem nextMirror_empty (p : CtlWord) : nextMirror 0 p = none :=
  List.find?_eq_none.2 fun w _ => by simp

/-- With the mirror set empty, no notice pending and no pair to write, the control unit offers nothing (R161). -/
theorem State.offerChannel_quiet {s : State} (hl : s.nextPreload = none) (hn : s.control.noticePending = false)
    (hm : s.control.mirror = 0) : s.offerChannel = s := by
  unfold State.offerChannel
  rw [hl, hn, if_neg Bool.false_ne_true, State.offerMirror, hm, nextMirror_empty, ite_self]

/-! ### The state after a RELOAD -/

/-- The state that a RELOAD command leaves: the RELOAD values, the answer's result and its claim. -/
def State.reloaded (s : State) (a : Access) : State :=
  ({ s.startReload with control := Control.reset.setLast wordReload .accepted } : State).claim a
    (.answer wordReload .accepted (indexOf a.data))

theorem State.takeCommand_reload {s : State} {a : Access} (hd : codeOf a.data = 1) :
    s.takeCommand a wordReload = s.reloaded a := by
  simp only [State.takeCommand, State.command_reload, State.reloadWord, hd, if_true]
  rfl

theorem State.settle_reloaded (s : State) (a : Access) : State.settle s (s.reloaded a) = s.reloaded a := by
  rw [State.settle, State.searchIfChanged_none fun u => ?_, State.offerChannel_quiet rfl rfl rfl]
  simp [State.reloaded, State.startReload, TowerState.hasWork, TowerState.configured, TowerState.reset]

theorem PerClass.get_map {α : Type} (f : α → α) (p : PerClass α) (c : MasterClass) : (p.map f).get c = f (p.get c) := by
  cases c <;> rfl

theorem PerBank.get_map {α : Type} (f : α → α) (p : PerBank α) (bk : BankId) : (p.map f).get bk = f (p.get bk) := by
  cases bk <;> rfl

theorem State.reloaded_bus (s : State) (a : Access) (d : MasterClass) : (s.reloaded a).bus.get d
    = if d = a.cls then some ⟨a, .claim (.answer wordReload .accepted (indexOf a.data))⟩
      else (s.bus.get d).map BusAccess.overReload := by
  simp [State.reloaded, State.claim, State.setStage, State.startReload, PerClass.get_map]

/-- What a RELOAD makes of an access in progress, stage by stage (R39, R145). -/
theorem overReload_eq (x : Option BusAccess) : x.map BusAccess.overReload = (match x with
    | some ⟨b, .waitLatch⟩ => some ⟨b, .overtaken⟩
    | some ⟨b, .claim (.commit _)⟩ => some ⟨b, .claim .measure⟩
    | some ⟨b, .granted (.commit _)⟩ => some ⟨b, .granted .measure⟩
    | x => x) := by
  rcases x with _ | ⟨b, stage⟩
  · rfl
  cases stage with
  | waitLatch => rfl
  | overtaken => rfl
  | claim p => cases p <;> rfl
  | granted p => cases p <;> rfl

theorem Coverage.startReload_bank (c : Coverage) (bk : BankId) :
    (c.startReload.banks.get bk).frames = (c.banks.get bk).frames
      ∧ (c.startReload.banks.get bk).state
        = if (c.banks.get bk).state = .clearing then .stale else (c.banks.get bk).state := by
  simp only [Coverage.startReload, PerBank.get_map, Bank.stopClear]
  split <;> exact ⟨rfl, rfl⟩

/-- Settles O26: the state is the one that the RELOAD has put in place, with the answer's claim. -/
theorem reloadResetsTheBlocks : Obligations.ReloadResetsTheBlocks := by
  unfold Obligations.ReloadResetsTheBlocks
  intro s cls addr rest ha
  have hd : codeOf (fullWrite cls addr (codeWord rest 1)).data = 1 := codeOf_codeWord rest 1
  have bus := s.reloaded_bus (fullWrite cls addr (codeWord rest 1))
  have next : exec (.reload cls addr rest) s = .next (s.reloaded (fullWrite cls addr (codeWord rest 1))) := by
    show Host.Outcome.next (State.settle s (s.arrive (fullWrite cls addr (codeWord rest 1)))) = _
    rw [State.arrive_command ha, State.takeCommand_reload hd, State.settle_reloaded]
  have latch := s.coverage.startReload_latch
  refine ⟨_, next, (bus cls).trans (if_pos rfl), fun d hne => ?_, rfl, rfl, rfl, rfl, rfl, fun r ws x h => ?_,
    fun c w h => ?_, fun w h => ?_, fun h => ?_, rfl, rfl, fun u => ?_, rfl, rfl, rfl, rfl, rfl, rfl, rfl, rfl, rfl, rfl,
    rfl, rfl, rfl, rfl, rfl, rfl, rfl, ?_, fun w => ?_, ?_, ?_, ?_, rfl, fun h => ?_, fun f h => ?_,
    fun bk => (s.coverage.startReload_bank bk).1, fun bk => (s.coverage.startReload_bank bk).2, rfl, rfl, rfl, rfl,
    fun a => rfl, rfl⟩
  · exact ((bus d).trans (if_neg hne)).trans (overReload_eq _)
  · show s.port.holder.map PortHolder.discard = _
    rw [h]
    rfl
  · show s.port.holder.map PortHolder.discard = _
    rw [h]
    rfl
  · show s.port.holder.map PortHolder.discard = _
    rw [h]
    rfl
  · show s.port.holder.map PortHolder.discard = _
    rw [h]
    rfl
  · simp [State.reloaded, State.startReload]
  · exact Coverage.startReload_waiting _
  · simp [State.reloaded, Control.setLast, Control.reset]
  · simp [State.reloaded, State.startReload, Coverage.startReload]
  · simp [State.reloaded, State.startReload, Coverage.startReload]
  · simp [State.reloaded, State.startReload, Coverage.startReload]
  · exact latch.trans (by rw [h]; rfl)
  · exact latch.trans (by rw [h]; rfl)

end Sys2Proof.Machine
end

section
/-! PROOFS. WAKE and PARK of a tower. -/

namespace Sys2Proof.Machine

/-! ### A record that is handed on, then swept -/

theorem KeyRec.wantsMove_iff (r : KeyRec) :
    r.wantsMove = true ↔ r.commanded.isSome = true ∧ r.commanded ≠ some r.target := by
  unfold KeyRec.wantsMove
  cases r.commanded with
  | none => simp
  | some c => simpa using ⟨Ne.symm, Ne.symm⟩

/-- A sweep queues a record: its slot is present, it is IDLE and it wants a move (R63). -/
def KeyRec.swept (present : Bool) (r : KeyRec) : Prop := present = true ∧ r.move = .idle ∧ r.wantsMove = true

/-- A record that was IDLE is QUEUED by the hand-off of a changed target or by the sweep, if it wants a move; any other
goes by R55 alone (R63). -/
theorem KeyRec.move_of_swept {b p : Bool} {old mid new : KeyRec} (h : old.movesOn b mid)
    (hy : mid.swept p → new = { mid with move := .queued }) (hn : ¬mid.swept p → new = mid) :
    new.target = mid.target
      ∧ (old.move = .idle → p = true → new.move
          = if old.commanded.isSome = true ∧ old.commanded ≠ some new.target then .queued else .idle)
      ∧ (old.move ≠ .idle → new.move = old.movedTo true new.target)
      ∧ (old.move = .queued ∧ mid.move = .idle ↔ old.move = .queued ∧ new.move = .idle)
      ∧ (old.move = .idle ∧ mid.move = .queued
          ↔ b = true ∧ (old.move = .idle ∧ new.move = .queued) ∧ new.target ≠ old.target)
      ∧ (mid.swept p ↔ (old.move = .idle ∧ new.move = .queued) ∧ (b = true → new.target = old.target)) := by
  obtain ⟨move, commanded, -⟩ := h
  have wants := mid.wantsMove_iff
  rw [commanded] at wants
  have target : new.target = mid.target := by
    by_cases hs : mid.swept p
    · rw [hy hs]
    · rw [hn hs]
  have hmove : (mid.swept p → new.move = .queued) ∧ (¬mid.swept p → new.move = mid.move) :=
    ⟨fun hs => by rw [hy hs], fun hs => by rw [hn hs]⟩
  refine ⟨target, ?_⟩
  rw [target]
  unfold KeyRec.movedTo at move ⊢
  unfold KeyRec.swept at *
  clear hy hn commanded target
  by_cases hg : mid.target = old.target
  · rw [if_pos hg] at move ⊢
    cases ho : old.move <;> grind
  · rw [if_neg hg] at move ⊢
    cases ho : old.move <;> grind

/-! ### A tower that is woken -/

/-- A change of the park-hold flag leaves a tower's records, its queue and the flag other, and no record of an absent
slot. -/
theorem TowerState.setParkHold_shell (b : Bool) (tw : TowerState) :
    tw.setParkHold b = { tw with
        parkHold := b, recs := (tw.setParkHold b).recs, queue := (tw.setParkHold b).queue }
      ∧ ∀ sl : Slot, tw.present sl = false → (tw.setParkHold b).recs[sl] = tw.recs[sl] := by
  unfold TowerState.setParkHold
  split
  · next h =>
    subst h
    exact ⟨rfl, fun _ _ => rfl⟩
  · obtain ⟨shell, service, recs⟩ := TowerState.revalueAll_spec (fun _ r => r) tw.slots tw.slots_nodup
      ({ tw with parkHold := b } : TowerState)
    refine ⟨(TowerState.eq_of_sameShell shell).trans ?_, fun sl h => (recs sl).2 fun hm => ?_⟩
    · rw [service]
    · rw [TowerState.mem_slots, h] at hm
      cases hm

/-- A record after the sweep of its tower (R63). -/
theorem TowerState.sweep_rec (tw : TowerState) (ha : admitsMoves tw.service = true) (sl : Slot) :
    ((tw.recs[sl]).swept (tw.present sl) → tw.sweep.recs[sl] = { tw.recs[sl] with move := .queued })
      ∧ (¬(tw.recs[sl]).swept (tw.present sl) → tw.sweep.recs[sl] = tw.recs[sl]) := by
  have h := (TowerState.sweepList_moves tw.slots tw.slots_nodup tw).1 sl
  have iff : sl ∈ tw.slots ∧ tw.sweeps sl ↔ (tw.recs[sl]).swept (tw.present sl) := by
    simp only [TowerState.mem_slots, TowerState.sweeps, KeyRec.swept, ha, and_true]
  rw [iff] at h
  exact h

/-- The queue after the sweep of a tower that admits moves (R63). -/
theorem TowerState.sweep_queue (tw : TowerState) (ha : admitsMoves tw.service = true) :
    tw.sweep.queue = tw.queue ++ (List.finRange 49).filter (fun sl => tw.present sl
      && decide ((tw.recs[sl]).move = .idle) && (tw.recs[sl]).wantsMove) := by
  have slots : tw.slots = (List.finRange 49).filter tw.present := rfl
  rw [TowerState.sweep, (TowerState.sweepList_moves tw.slots tw.slots_nodup tw).2.1, slots, List.filter_filter]
  congr 2
  funext sl
  rw [ha, Bool.and_true, Bool.and_comm, Bool.and_assoc]

/-- A queued key stays in the queue of its tower. -/
def staysQueued (old new : TowerState) (sl : Slot) : Bool :=
  !decide ((old.recs[sl]).move = .queued ∧ (new.recs[sl]).move = .idle)

/-- An idle key joins the queue of its tower. -/
def joinsQueue (old new : TowerState) (sl : Slot) : Bool :=
  decide ((old.recs[sl]).move = .idle ∧ (new.recs[sl]).move = .queued)

/-- The target of a key has changed. -/
def targetChanged (old new : TowerState) (sl : Slot) : Bool := decide ((new.recs[sl]).target ≠ (old.recs[sl]).target)

/-- What a hand-on and the sweep that follows it leave of a tower's move account: a key joins the queue by the hand-on
where its target has changed and its tower admits moves by then, and by the sweep otherwise (R55, R63). -/
theorem TowerState.sweep_handedOn {b : Bool} {old mid new : TowerState} (hn : new = mid.sweep)
    (hr : ∀ sl : Slot, (old.recs[sl]).movesOn b mid.recs[sl])
    (hq : mid.queue = old.queue.filter (staysQueued old mid) ++ (List.finRange 49).filter (joinsQueue old mid))
    (ha : admitsMoves mid.service = true) (hp : ∀ sl : Slot, mid.present sl = old.present sl)
    (habs : ∀ sl : Slot, old.present sl = false → mid.recs[sl] = old.recs[sl]) :
    (∀ sl : Slot, old.present sl = true → (old.recs[sl]).move = .idle → (new.recs[sl]).move
        = (if (old.recs[sl]).commanded.isSome = true ∧ (old.recs[sl]).commanded ≠ some (new.recs[sl]).target
            then .queued else .idle))
      ∧ (∀ sl : Slot, (old.recs[sl]).move ≠ .idle →
          (new.recs[sl]).move = (old.recs[sl]).movedTo true (new.recs[sl]).target)
      ∧ (∀ sl : Slot, old.present sl = false → new.recs[sl] = old.recs[sl])
      ∧ (∀ sl : Slot, (new.recs[sl]).commanded = (old.recs[sl]).commanded
          ∧ (new.recs[sl]).reported = (old.recs[sl]).reported ∧ (new.recs[sl]).tag = (old.recs[sl]).tag
          ∧ (new.recs[sl]).tries = (old.recs[sl]).tries ∧ (new.recs[sl]).fault = (old.recs[sl]).fault
          ∧ (new.recs[sl]).timer = (old.recs[sl]).timer)
      ∧ new.queue = old.queue.filter (staysQueued old new)
          ++ (List.finRange 49).filter (fun sl => b && (joinsQueue old new sl && targetChanged old new sl))
          ++ (List.finRange 49).filter (fun sl => joinsQueue old new sl && !(b && targetChanged old new sl)) := by
  subst hn
  have recs := fun sl : Slot => mid.sweep_rec ha sl
  have record := fun sl : Slot => KeyRec.move_of_swept (hr sl) (recs sl).1 (recs sl).2
  refine ⟨fun sl hpres hidle => ?_, fun sl h => ?_, fun sl h => ?_, fun sl => ?_, ?_⟩
  · obtain ⟨-, idle, -⟩ := record sl
    exact idle hidle (by rw [hp, hpres])
  · obtain ⟨-, -, moving, -⟩ := record sl
    exact moving h
  · rw [(recs sl).2 fun hs => ?_, habs sl h]
    rw [KeyRec.swept, hp, h] at hs
    cases hs.1
  · obtain ⟨-, rest⟩ := hr sl
    by_cases hs : (mid.recs[sl]).swept (mid.present sl)
    · rw [(recs sl).1 hs]
      exact rest
    · rw [(recs sl).2 hs]
      exact rest
  · rw [mid.sweep_queue ha, hq]
    congr 2
    · congr 1
      funext sl
      obtain ⟨-, -, -, stays, -⟩ := record sl
      simp only [staysQueued, stays]
    · congr 1
      funext sl
      obtain ⟨-, -, -, -, joins, -⟩ := record sl
      simp only [joinsQueue, joins, targetChanged, Bool.decide_and, Bool.decide_eq_true]
    · funext sl
      obtain ⟨-, -, -, -, -, sweeps⟩ := record sl
      have e : (mid.present sl && decide ((mid.recs[sl]).move = .idle) && (mid.recs[sl]).wantsMove) = true
          ↔ (mid.recs[sl]).swept (mid.present sl) := by
        rw [Bool.and_eq_true, Bool.and_eq_true, decide_eq_true_eq, and_assoc]
        rfl
      rw [Bool.eq_iff_iff, e, sweeps, Bool.and_eq_true, Bool.not_eq_true', joinsQueue, targetChanged, decide_eq_true_eq,
        Bool.and_eq_false_imp, decide_eq_false_iff_not, Classical.not_not]

/-- WAKE from PARKED hands keys on before the tower admits moves, WAKE from PARKING after it does (R101). -/
theorem TowerState.wake_eq (impr : Bool) (tw : TowerState) (h : tw.service = .parked ∨ tw.service = .parking) :
    ∃ mid : TowerState, tw.wake impr = mid.sweep ∧ mid.service = wokenState impr
      ∧ (∀ sl : Slot, (tw.recs[sl]).movesOn (decide (tw.service = .parking)) mid.recs[sl])
      ∧ mid.queue = tw.queue.filter (staysQueued tw mid) ++ (List.finRange 49).filter (joinsQueue tw mid)
      ∧ (∀ sl : Slot, tw.present sl = false → mid.recs[sl] = tw.recs[sl])
      ∧ mid = { tw with service := mid.service, parkHold := false, recs := mid.recs, queue := mid.queue } := by
  rcases h with h | h
  · refine ⟨{ tw.setParkHold false with service := wokenState impr }, by simp [TowerState.wake, h], rfl, ?_⟩
    obtain ⟨moves, queue, -⟩ := TowerState.setParkHold_handedOn false tw
    obtain ⟨shell, absent⟩ := TowerState.setParkHold_shell false tw
    rw [h] at moves ⊢
    refine ⟨moves, queue, absent, ?_⟩
    rw [shell]
  · refine ⟨({ tw with service := wokenState impr } : TowerState).setParkHold false, by simp [TowerState.wake, h], ?_⟩
    obtain ⟨moves, queue, -⟩ := TowerState.setParkHold_handedOn false { tw with service := wokenState impr }
    obtain ⟨shell, absent⟩ := TowerState.setParkHold_shell false { tw with service := wokenState impr }
    have admits : admitsMoves (wokenState impr) = true := by cases impr <;> rfl
    rw [show ({ tw with service := wokenState impr } : TowerState).service = wokenState impr from rfl, admits] at moves
    refine ⟨by rw [shell], fun sl => ?_, queue, absent, ?_⟩
    · rw [h]
      exact moves sl
    · rw [shell]

/-- The move account of a woken tower (R55, R63, R101). -/
theorem TowerState.wake_moves (impr : Bool) (tw : TowerState) (h : tw.service = .parked ∨ tw.service = .parking) :
    (∀ sl : Slot, tw.present sl = true → (tw.recs[sl]).move = .idle → ((tw.wake impr).recs[sl]).move
        = (if (tw.recs[sl]).commanded.isSome = true
              ∧ (tw.recs[sl]).commanded ≠ some ((tw.wake impr).recs[sl]).target then .queued else .idle))
      ∧ (∀ sl : Slot, (tw.recs[sl]).move ≠ .idle →
          ((tw.wake impr).recs[sl]).move = (tw.recs[sl]).movedTo true ((tw.wake impr).recs[sl]).target)
      ∧ (∀ sl : Slot, tw.present sl = false → (tw.wake impr).recs[sl] = tw.recs[sl])
      ∧ (∀ sl : Slot, ((tw.wake impr).recs[sl]).commanded = (tw.recs[sl]).commanded
          ∧ ((tw.wake impr).recs[sl]).reported = (tw.recs[sl]).reported
          ∧ ((tw.wake impr).recs[sl]).tag = (tw.recs[sl]).tag ∧ ((tw.wake impr).recs[sl]).tries = (tw.recs[sl]).tries
          ∧ ((tw.wake impr).recs[sl]).fault = (tw.recs[sl]).fault
          ∧ ((tw.wake impr).recs[sl]).timer = (tw.recs[sl]).timer)
      ∧ (tw.service = .parked → (tw.wake impr).queue = tw.queue.filter (staysQueued tw (tw.wake impr))
          ++ (List.finRange 49).filter (joinsQueue tw (tw.wake impr)))
      ∧ (tw.service = .parking → (tw.wake impr).queue = tw.queue.filter (staysQueued tw (tw.wake impr))
          ++ (List.finRange 49).filter (fun sl =>
            joinsQueue tw (tw.wake impr) sl && targetChanged tw (tw.wake impr) sl)
          ++ (List.finRange 49).filter (fun sl =>
            joinsQueue tw (tw.wake impr) sl && !targetChanged tw (tw.wake impr) sl))
      ∧ tw.wake impr = { tw with
          service := (tw.wake impr).service, parkHold := false, recs := (tw.wake impr).recs
          queue := (tw.wake impr).queue } := by
  obtain ⟨mid, eq, service, recs, queue, absent, shell⟩ := TowerState.wake_eq impr tw h
  have present : ∀ sl : Slot, mid.present sl = tw.present sl := fun sl => by rw [shell]; rfl
  have admits : admitsMoves mid.service = true := by rw [service]; cases impr <;> rfl
  obtain ⟨idle, moving, gone, fields, joined⟩ :=
    TowerState.sweep_handedOn (b := decide (tw.service = .parking)) eq recs queue admits present absent
  refine ⟨idle, moving, gone, fields, fun hp => ?_, fun hp => ?_, ?_⟩
  · rw [joined, hp]
    simp
  · rw [joined, hp]
    simp
  · rw [eq]
    refine (TowerState.eq_of_sameShell mid.sweep_spec.1).trans ?_
    rw [shell]

/-! ### WAKE and PARK as commands -/

theorem State.command_towerCode (s : State) (u : Tower) (rest : BitVec 24) :
    s.command (wordTower u) (codeWord rest 1) = s.towerCommand u (TowerState.takeWake s.levels.impr)
      ∧ s.command (wordTower u) (codeWord rest 2) = s.towerCommand u TowerState.takePark
      ∧ s.command (wordTower u) (codeWord rest 3) = s.resetCommand u
      ∧ s.command (wordTower u) (codeWord rest 4) = s.towerCommand u (TowerState.routed TowerState.loopOn)
      ∧ s.command (wordTower u) (codeWord rest 5) = s.towerCommand u (TowerState.routed TowerState.loopOff)
      ∧ s.command (wordTower u) (codeWord rest 6) = s.towerCommand u (TowerState.routed TowerState.takeClearFaults) := by
  refine ⟨?_, ?_, ?_, ?_, ?_, ?_⟩ <;> rw [State.command_tower, State.towerWord, codeOf_codeWord] <;> rfl

theorem TowerState.takeWake_refused {impr : Bool} {tw : TowerState}
    (h : tw.service = .unconfigured ∨ tw.service = .faulted) : tw.takeWake impr = (.refusedState, tw) := if_pos h

theorem TowerState.takeWake_idle {impr : Bool} {tw : TowerState} (h : tw.service = .ready ∨ tw.service = .printing) :
    tw.takeWake impr = (.accepted, tw) := by
  rcases h with h | h <;> simp [TowerState.takeWake, TowerState.wake, h]

theorem TowerState.takeWake_wakes {impr : Bool} {tw : TowerState} (h : tw.service = .parked ∨ tw.service = .parking) :
    tw.takeWake impr = (.accepted, tw.wake impr) := by
  rcases h with h | h <;> simp [TowerState.takeWake, h]

theorem TowerState.takePark_refused {tw : TowerState} (h : tw.service = .unconfigured ∨ tw.service = .faulted) :
    tw.takePark = (.refusedState, tw) := if_pos h

theorem TowerState.takePark_idle {tw : TowerState} (h : tw.service = .parked ∨ tw.service = .parking) :
    tw.takePark = (.accepted, tw) := by
  rcases h with h | h <;> simp [TowerState.takePark, TowerState.park, h]

theorem TowerState.takePark_parks {tw : TowerState} (h : tw.service = .ready ∨ tw.service = .printing) :
    tw.takePark = (.accepted, tw.park) := by
  rcases h with h | h <;> simp [TowerState.takePark, h]

/-- A tower's commands leave the other towers as they were, but for what a service changes. -/
theorem TowerState.sameUnder_values {tw tv : TowerState} (h : tw.sameUnder tv) :
    tw.service = tv.service ∧ ∀ sl : Slot, (tv.recs[sl]).values = (tw.recs[sl]).values := by
  obtain ⟨service, -, -, -, -, -, -, -, recs⟩ := h
  exact ⟨service.symm, fun sl => (recs sl).1⟩

/-- The towers after an event that leaves the transmitter busy are those of the event itself. -/
theorem State.settle_busy_towers {s t x : State} {u : Tower} {new : TowerState} (ht : t = State.settle s x)
    (hl : x.link = s.link) (hx : ∀ v : Tower, x.towers[v] = if v = u then new else s.towers[v])
    (htx : s.link.tx ≠ .idle) : t.towers[u] = new ∧ ∀ v : Tower, v ≠ u → t.towers[v] = s.towers[v] := by
  have e : t.towers = x.towers := by rw [ht, State.settle_towers_of_tx (by rw [hl]; exact htx)]
  rw [e]
  exact ⟨(hx u).trans (if_pos rfl), fun v hv => (hx v).trans (if_neg hv)⟩

/-- Settles O27, by the service state that the command finds. -/
theorem wakeBringsATowerIntoService : Obligations.WakeBringsATowerIntoService := by
  unfold Obligations.WakeBringsATowerIntoService
  intro s cls addr rest u ha
  obtain ⟨hc, -⟩ := s.command_towerCode u rest
  obtain ⟨t, ht, took, port, setup, cov, engine, loop, loader, settings, events, same, under, others, x, hx, xlink, -,
    xtowers⟩ := State.exec_towerCommand (e := exec (.wake cls addr rest) s) rfl ha hc
  refine ⟨t, _, ht, took, fun h => ?_, fun h => ?_, fun h => ?_, fun h htx => ?_,
    fun v hv => TowerState.sameUnder_values (others v hv), port, setup, cov, engine, loop, loader, settings, events⟩
  · rw [TowerState.takeWake_refused h] at same ⊢
    exact ⟨rfl, same rfl⟩
  · rw [TowerState.takeWake_idle h] at same ⊢
    exact ⟨rfl, same rfl⟩
  · rw [TowerState.takeWake_wakes h] at under ⊢
    obtain ⟨service, park, cfg, -, -, -, -, -, recs⟩ := under
    obtain ⟨wservice, wpark, wcfg, wrecs⟩ := TowerState.wake_spec s.levels.impr s.towers[u] h
    refine ⟨rfl, service.trans wservice, park.trans wpark, cfg.trans wcfg, fun hp sl hpres => ?_, fun sl => ?_⟩
    · obtain ⟨-, -, -, -, -, target⟩ := KeyRec.values_eq (recs sl).1
      exact target.trans ((wrecs sl).2 hp hpres)
    · obtain ⟨base, trim, correction, hold, ramp, -⟩ := KeyRec.values_eq (recs sl).1
      obtain ⟨⟨m, n, hm⟩, -⟩ := wrecs sl
      rw [hm] at base trim correction hold ramp
      exact ⟨base, trim, correction, hold, ramp⟩
  · simp only [TowerState.takeWake_wakes h] at xtowers
    obtain ⟨hu, hv⟩ := State.settle_busy_towers hx xlink xtowers htx
    obtain ⟨idle, moving, gone, fields, parked, parking, shell⟩ :=
      TowerState.wake_moves s.levels.impr s.towers[u] h
    rw [← hu] at idle moving gone fields parked parking shell
    refine ⟨idle, moving, gone, fields, fun stay join hs hj => ?_, shell, hv⟩
    obtain rfl : stay = staysQueued s.towers[u] t.towers[u] := funext hs
    obtain rfl : join = joinsQueue s.towers[u] t.towers[u] := funext hj
    refine ⟨parked, fun hp => (parking hp).trans ?_⟩
    simp only [targetChanged, ne_eq, decide_not, Bool.not_not]

/-- Settles O28, by the service state that the command finds. -/
theorem parkDrivesTheKeysClosed : Obligations.ParkDrivesTheKeysClosed := by
  unfold Obligations.ParkDrivesTheKeysClosed
  intro s cls addr rest u ha
  obtain ⟨-, hc, -⟩ := s.command_towerCode u rest
  obtain ⟨t, ht, took, port, setup, cov, engine, loop, loader, settings, events, same, under, others, x, hx, xlink, -,
    xtowers⟩ := State.exec_towerCommand (e := exec (.park cls addr rest) s) rfl ha hc
  refine ⟨t, _, ht, took, fun h => ?_, fun h => ?_, fun h => ?_, fun h htx => ?_,
    fun v hv => TowerState.sameUnder_values (others v hv), port, setup, cov, engine, loop, loader, settings, events⟩
  · rw [TowerState.takePark_refused h] at same ⊢
    exact ⟨rfl, same rfl⟩
  · rw [TowerState.takePark_idle h] at same ⊢
    exact ⟨rfl, same rfl⟩
  · rw [TowerState.takePark_parks h] at under xtowers ⊢
    obtain ⟨service, park, -, -, -, -, -, -, recs⟩ := under
    obtain ⟨pservice, ppark, -, precs⟩ := TowerState.park_spec s.towers[u] h
    have rest_ : t.towers[u].atRest = s.towers[u].park.atRest := by
      rw [hx, State.settle_atRest, xtowers, if_pos rfl]
    have rest_iff : t.towers[u].atRest = true ↔ t.towers[u].queue = [] ∧ t.towers[u].flight = [] := by
      simp [TowerState.atRest]
    rw [pservice, ← rest_] at service
    refine ⟨rfl, park.trans ppark, ?_, fun hp => ?_, fun hp => ?_, fun hp sl hpres => ?_, fun sl => ?_⟩
    · rw [service]
      split
      · exact .inr rfl
      · exact .inl rfl
    · rw [← rest_iff]
      refine Classical.byContradiction fun hr => ?_
      rw [service, if_neg hr] at hp
      cases hp
    · rw [← rest_iff]
      intro hr
      rw [service, if_pos hr] at hp
      cases hp
    · obtain ⟨-, -, -, -, -, target⟩ := KeyRec.values_eq (recs sl).1
      exact target.trans ((precs sl).2 hp hpres)
    · obtain ⟨base, trim, correction, hold, ramp, -⟩ := KeyRec.values_eq (recs sl).1
      obtain ⟨⟨m, n, hm⟩, -⟩ := precs sl
      rw [hm] at base trim correction hold ramp
      exact ⟨base, trim, correction, hold, ramp⟩
  · simp only [TowerState.takePark_parks h] at xtowers
    obtain ⟨hu, hv⟩ := State.settle_busy_towers hx xlink xtowers htx
    rw [hu]
    obtain ⟨handed, shell⟩ := TowerState.park_handedOn h
    exact ⟨handed, shell, hv⟩

end Sys2Proof.Machine
end

section
/-! PROOFS. The other commands of a tower: RESET, LOOP_ON, LOOP_OFF, CLEAR_FAULTS. -/

namespace Sys2Proof.Machine

/-! ### RESET -/

/-- A RESET is refused while a section reload is under way; otherwise the loader begins to read the section again, and
nothing else changes (R107, R178). -/
theorem State.resetCommand_effect (s : State) (u : Tower) :
    (s.resetCommand u).2 = { s with loader := (s.resetCommand u).2.loader }
      ∧ ((∃ v, s.loader.state = .section_ v) →
          (s.resetCommand u).1 = .refusedBusy ∧ (s.resetCommand u).2.loader = s.loader)
      ∧ ((∀ v, s.loader.state ≠ .section_ v) →
          (s.resetCommand u).1 = .accepted
            ∧ (s.resetCommand u).2.loader = { s.loader with
                state := .section_ u
                spi := ⟨false, [0x03#8, 0, 0], [.csLow, .send 0x03#8, .send 0, .send 0]⟩ }) := by
  unfold State.resetCommand
  split
  · next v hv => exact ⟨rfl, fun _ => ⟨rfl, rfl⟩, fun hn => absurd hv (hn v)⟩
  · next hn =>
    refine ⟨rfl, fun ⟨v, hv⟩ => absurd hv (hn v), fun _ => ⟨rfl, ?_⟩⟩
    have spi : s.loader.spi.drive (spiOpen 0)
        = ⟨false, [0x03#8, 0, 0], [.csLow, .send 0x03#8, .send 0, .send 0]⟩ := SpiPort.drive_open [] 0 _
    show { s.loader with state := .section_ u, spi := s.loader.spi.drive (spiOpen 0) } = _
    rw [spi]

theorem wordTower_ne (u : Tower) : wordTower u ≠ wordStart ∧ wordTower u ≠ wordStop := by
  revert u
  decide

/-! ### The loop commands -/

/-- The towers and the link after an event that changes nothing the transmitter looks at are those of the event. -/
theorem State.settle_quiet_towers {s t x : State} {u : Tower} {new : TowerState} (ht : t = State.settle s x)
    (hl : x.link = s.link) (hx : ∀ v : Tower, x.towers[v] = if v = u then new else s.towers[v])
    (hv : new.linkView = s.towers[u].linkView) :
    t.towers[u] = new ∧ (∀ v : Tower, v ≠ u → t.towers[v] = s.towers[v]) ∧ t.link = s.link := by
  have settled : t = x.offerChannel := by
    rw [ht]
    refine State.settle_of_view fun v => ?_
    rw [hx]
    split
    · next h => rw [h, hv]
    · rfl
  have towers : t.towers = x.towers := by rw [settled]; simp
  rw [towers]
  refine ⟨(hx u).trans (if_pos rfl), fun v hne => (hx v).trans (if_neg hne), ?_⟩
  rw [settled]
  simpa using hl

/-- What LOOP_ON does in a tower that takes it changes the loop and the settle counter alone (R147). -/
theorem TowerState.loopOn_cases (tw : TowerState) (h : tw.service ≠ .unconfigured) :
    (tw.service = .faulted → tw.routed TowerState.loopOn = (.refusedState, tw))
      ∧ (tw.service ≠ .faulted → tw.loop ≠ .off → tw.routed TowerState.loopOn = (.accepted, tw))
      ∧ (tw.service ≠ .faulted → tw.loop = .off → tw.routed TowerState.loopOn
          = (.accepted, { tw with loop := .settling, settle := (tw.settings.map LoopSettings.sheets).getD 0 })) := by
  unfold TowerState.routed TowerState.loopOn
  rw [if_neg h]
  exact ⟨fun hf => if_pos hf, fun hf hl => by rw [if_neg hf, if_neg hl], fun hf hl => by rw [if_neg hf, if_pos hl]⟩

theorem TowerState.routed_unconfigured {f : TowerState → Result × TowerState} {tw : TowerState}
    (h : tw.service = .unconfigured) : tw.routed f = (.refusedState, tw) := if_pos h

/-- Neither loop command changes what the transmitter looks at. -/
theorem TowerState.loop_linkView (tw : TowerState) :
    (tw.routed TowerState.loopOn).2.linkView = tw.linkView
      ∧ (tw.routed TowerState.loopOff).2.linkView = tw.linkView := by
  unfold TowerState.routed TowerState.loopOn TowerState.loopOff
  constructor
  · split
    · rfl
    · split
      · rfl
      · split <;> rfl
  · split <;> rfl

/-- Settles O29, by what each command does in its tower or in the loader. -/
theorem towerResetAndLoopCommandsAreTaken : Obligations.TowerResetAndLoopCommandsAreTaken := by
  unfold Obligations.TowerResetAndLoopCommandsAreTaken
  refine ⟨fun s cls addr rest u ha => ?_, fun s cls addr rest u ha => ?_, fun s cls addr rest u ha => ?_⟩
  · obtain ⟨-, -, hc, -⟩ := s.command_towerCode u rest
    obtain ⟨shape, busy, free⟩ := s.resetCommand_effect u
    obtain ⟨r, hr⟩ : ∃ r, r = (s.resetCommand u).1 := ⟨_, rfl⟩
    obtain ⟨l, hl⟩ : ∃ l, l = (s.resetCommand u).2.loader := ⟨_, rfl⟩
    rw [← hl] at shape busy free
    rw [← hr] at busy free
    have hc' : s.command (wordTower u) (codeWord rest 3) = (r, { s with loader := l }) := by
      rw [hc, ← shape, hr]
    obtain ⟨t, ht, took, pending, windows, curves, timeout, levels, cov, loop, loader, engine, part, flags, enables, mode,
      line, naddr, datum, notice, cap, port, towers, -⟩ :=
      State.exec_command (e := exec (.reset cls addr rest) s) rfl ha hc' rfl rfl rfl rfl
    rw [if_neg (wordTower_ne u).1, if_neg (wordTower_ne u).2] at engine
    exact ⟨t, r, ht, took, fun h => ⟨(busy h).1, loader.trans (busy h).2⟩,
      fun h => ⟨(free h).1, loader.trans (free h).2⟩, port, ⟨windows, curves, timeout, levels, pending⟩, cov,
      towers rfl, engine, loop, ⟨part, enables, mode, naddr, datum⟩, ⟨flags, cap, line, notice⟩⟩
  · obtain ⟨-, -, -, hc, -⟩ := s.command_towerCode u rest
    obtain ⟨t, ht, took, port, setup, cov, engine, loop, loader, settings, events, same, -, -, x, hx, xlink, -,
      xtowers⟩ := State.exec_towerCommand (e := exec (.loopOn cls addr rest) s) rfl ha hc
    obtain ⟨hu, hv, link⟩ := State.settle_quiet_towers hx xlink xtowers (TowerState.loop_linkView _).1
    refine ⟨t, _, ht, took, fun h => ?_, fun hcfg hf => ?_, hv, link, port, setup, cov, engine, loop, loader, settings,
      events⟩
    · have refused : s.towers[u].routed TowerState.loopOn = (.refusedState, s.towers[u]) := by
        rcases h with h | h
        · exact TowerState.routed_unconfigured h
        · exact (TowerState.loopOn_cases _ (by rw [h]; decide)).1 h
      rw [refused] at same ⊢
      exact ⟨rfl, same rfl⟩
    · obtain ⟨-, on, off⟩ := TowerState.loopOn_cases _ hcfg
      by_cases hl : s.towers[u].loop = .off
      · rw [off hf hl] at hu ⊢
        refine ⟨rfl, fun h => absurd hl h, fun _ ls hls => ?_⟩
        have sheets : (s.towers[u].settings.map LoopSettings.sheets).getD 0 = ls.sheets := by rw [hls]; rfl
        rw [hu, sheets]
      · rw [on hf hl] at same ⊢
        exact ⟨rfl, fun _ => same rfl, fun h => absurd h hl⟩
  · obtain ⟨-, -, -, -, hc, -⟩ := s.command_towerCode u rest
    obtain ⟨t, ht, took, port, setup, cov, engine, loop, loader, settings, events, same, -, -, x, hx, xlink, -,
      xtowers⟩ := State.exec_towerCommand (e := exec (.loopOff cls addr rest) s) rfl ha hc
    obtain ⟨hu, hv, link⟩ := State.settle_quiet_towers hx xlink xtowers (TowerState.loop_linkView _).2
    refine ⟨t, _, ht, took, fun h => ?_, fun hcfg => ?_, hv, link, port, setup, cov, engine, loop, loader, settings,
      events⟩
    · rw [TowerState.routed_unconfigured h] at same ⊢
      exact ⟨rfl, same rfl⟩
    · have taken : s.towers[u].routed TowerState.loopOff
          = (.accepted, { s.towers[u] with loop := .off, settle := 0 }) := if_neg hcfg
      rw [taken] at hu ⊢
      exact ⟨rfl, hu⟩

/-! ### CLEAR_FAULTS -/

/-- A key in FAULT is queued again by a CLEAR_FAULTS: its tower admits moves and its commanded is known (R76). -/
def TowerState.requeues (tw : TowerState) (sl : Slot) : Bool :=
  decide ((tw.recs[sl]).move = .fault) && admitsMoves tw.service && (tw.recs[sl]).commanded.isSome

theorem TowerState.clearFaultSlot_queue (tw : TowerState) (sl : Slot) :
    (tw.clearFaultSlot sl).queue = tw.queue ++ (if tw.requeues sl = true then [sl] else []) := by
  unfold TowerState.clearFaultSlot TowerState.requeues
  by_cases hf : (tw.recs[sl]).move = .fault
  · rw [if_pos hf, decide_eq_true hf, Bool.true_and]
    split
    · rfl
    · exact (List.append_nil _).symm
  · rw [if_neg hf, decide_eq_false hf, Bool.false_and, Bool.false_and, if_neg Bool.false_ne_true, List.append_nil]

/-- Keys taken out of FAULT join the queue's tail in the order of the list (R76). -/
theorem TowerState.clearFaultSlots_queue (l : List Slot) (hn : l.Nodup) (tw : TowerState) :
    (l.foldl TowerState.clearFaultSlot tw).queue = tw.queue ++ l.filter tw.requeues := by
  induction l generalizing tw with
  | nil => exact (List.append_nil _).symm
  | cons sl l ih =>
    obtain ⟨hsl, hl⟩ := List.nodup_cons.1 hn
    obtain ⟨-, service, recs, -⟩ := TowerState.clearFaultSlot_spec tw sl
    have rest : l.filter (tw.clearFaultSlot sl).requeues = l.filter tw.requeues := by
      refine List.filter_congr fun u hu => ?_
      have hne : u ≠ sl := fun e => hsl (e ▸ hu)
      rw [TowerState.requeues, recs u, if_neg (fun e => hne e.1), service]
      rfl
    rw [List.foldl_cons, ih hl, rest, TowerState.clearFaultSlot_queue, List.filter_cons, List.append_assoc]
    split <;> rfl

theorem TowerState.clearFaults_queue (tw : TowerState) : tw.clearFaults.queue = tw.queue
    ++ (List.finRange 49).filter (fun sl => tw.present sl && decide ((tw.recs[sl]).move = .fault)
      && admitsMoves tw.service && (tw.recs[sl]).commanded.isSome) := by
  have slots : tw.slots = (List.finRange 49).filter tw.present := rfl
  rw [TowerState.clearFaults, TowerState.clearFaultSlots_queue _ tw.slots_nodup, slots, List.filter_filter]
  congr 2
  funext sl
  rw [TowerState.requeues, Bool.and_comm, ← Bool.and_assoc, ← Bool.and_assoc]

theorem TowerState.mem_queue_of_dispatchable {tw : TowerState} {sl : Slot} (h : tw.dispatchable = some sl) :
    sl ∈ tw.queue := by
  unfold TowerState.dispatchable at h
  split at h
  · cases h
  · next x q hq =>
    split at h
    · cases h
      rw [hq]
      exact List.mem_cons_self
    · cases h

/-- A key that CLEAR_FAULTS takes out of FAULT stays out of it, whatever the transmitter then dispatches. -/
theorem State.settle_outOfFault {s0 s : State} {u : Tower} {sl : Slot} (h : (s.towers[u].recs[sl]).move ≠ .fault) :
    (((State.settle s0 s).towers[u]).recs[sl]).move ≠ .fault := by
  rcases State.settle_rec s0 s u sl with e | ⟨-, e⟩
  · rwa [e]
  · rw [e]
    exact nofun

/-- Settles O30: each key of FAULT by its record, the order of those queued by the sweep over the slots. -/
theorem clearFaultsTakesKeysOutOfFault : Obligations.ClearFaultsTakesKeysOutOfFault := by
  unfold Obligations.ClearFaultsTakesKeysOutOfFault
  intro s cls addr rest u ha
  obtain ⟨-, -, -, -, -, hc⟩ := s.command_towerCode u rest
  obtain ⟨t, ht, took, port, setup, cov, engine, loop, loader, settings, events, same, under, others, x, hx, xlink, -,
    xtowers⟩ := State.exec_towerCommand (e := exec (.clearFaults cls addr rest) s) rfl ha hc
  obtain ⟨shell, service, recs, queue⟩ := TowerState.clearFaults_spec s.towers[u]
  have taken (h : s.towers[u].service ≠ .unconfigured) :
      s.towers[u].routed TowerState.takeClearFaults = (.accepted, s.towers[u].clearFaults) := if_neg h
  refine ⟨t, _, ht, took, fun h => ?_, fun h => ?_, fun h htx => ?_, fun v sl => ?_, port, setup, cov, engine, loop, loader,
    settings, events⟩
  · rw [TowerState.routed_unconfigured h] at same ⊢
    exact ⟨rfl, same rfl⟩
  · rw [taken h] at under ⊢
    simp only [taken h] at xtowers
    have hu : x.towers[u] = s.towers[u].clearFaults := (xtowers u).trans (if_pos rfl)
    refine ⟨rfl, fun sl hp hf => ?_⟩
    have cleared := (recs sl).trans (if_pos ⟨hp, hf⟩)
    obtain ⟨-, -, -, -, -, -, -, -, kept⟩ := under
    obtain ⟨-, -, tries, fault⟩ := kept sl
    rw [cleared] at tries fault
    have out : (x.towers[u].recs[sl]).move ≠ .fault := by
      rw [hu, cleared, KeyRec.outOfFault]
      dsimp only
      split <;> exact nofun
    refine ⟨tries, fault, ?_, fun hq => ?_⟩
    · rw [hx]
      exact State.settle_outOfFault out
    · rcases State.settle_rec s x u sl with e | ⟨hd, -⟩
      · refine .inl ?_
        rw [hx, e, hu, cleared, KeyRec.outOfFault, hq]
        rfl
      · rw [hu] at hd
        rcases queue sl (TowerState.mem_queue_of_dispatchable hd) with hm | ⟨-, hm⟩
        · exact .inr hm
        · rw [hq] at hm
          cases hm
  · simp only [taken h] at xtowers
    obtain ⟨hu, -⟩ := State.settle_busy_towers hx xlink xtowers htx
    rw [hu]
    refine ⟨fun sl hp hf => (recs sl).trans (if_pos ⟨hp, hf⟩), fun sl hn => (recs sl).trans (if_neg ?_),
      TowerState.clearFaults_queue _, shell.2.2.1⟩
    rintro ⟨hp, hf⟩
    rcases hn with hn | hn
    · rw [hp] at hn
      cases hn
    · exact hn hf
  · by_cases hv : v = u
    · subst hv
      refine ((TowerState.sameUnder_values under).2 sl).trans ?_
      by_cases h : s.towers[v].service = .unconfigured
      · rw [TowerState.routed_unconfigured h]
      · rw [taken h]
        dsimp only
        rw [recs sl]
        split <;> rfl
    · exact (TowerState.sameUnder_values (others v hv)).2 sl

end Sys2Proof.Machine
end

section
/-! PROOFS. The memory port's arbiter: whom it grants, and what a grant changes. -/

namespace Sys2Proof.Machine

/-! ### The order of the classes -/

/-- How far a class stands behind the class last granted, that class itself last (R15). -/
def passRank (p d : MasterClass) : Nat := (classCode d + 3 - classCode p) % 4

theorem grantOrder_sorted (p : MasterClass) :
    (grantOrder p).Pairwise (fun c d => passRank p c < passRank p d) := by
  cases p <;> decide

theorem mem_grantOrder (p c : MasterClass) : c ∈ grantOrder p := by
  cases p <;> cases c <;> decide

/-- Of a list in order, a search finds the first that passes. -/
theorem eq_or_lt_of_find? {α : Type} {R : α → α → Prop} {q : α → Bool} {l : List α} {c d : α} (hl : l.Pairwise R)
    (hf : l.find? q = some d) (hc : c ∈ l) (hq : q c = true) : d = c ∨ R d c := by
  induction l with
  | nil => cases hc
  | cons x l ih =>
    obtain ⟨hx, hl⟩ := List.pairwise_cons.1 hl
    rw [List.find?_cons] at hf
    split at hf
    · cases hf
      rcases List.mem_cons.1 hc with rfl | hc
      · exact .inl rfl
      · exact .inr (hx c hc)
    · next hn =>
      rcases List.mem_cons.1 hc with rfl | hc
      · rw [hq] at hn
        cases hn
      · exact ih hl hf hc

theorem State.waitingAccess_iff {s : State} {c : MasterClass} {a : Access} {p : Purpose} :
    s.waitingAccess c = some (a, p) ↔ s.bus.get c = some ⟨a, .claim p⟩ := by
  unfold State.waitingAccess
  split
  · next b q h => simp [h]
  · next h =>
    refine ⟨nofun, fun hb => ?_⟩
    exact absurd hb (h a p)

/-- The waiting class of lowest rank is the one the pass-through side is granted for (R15). -/
theorem State.nextPass_eq {s : State} {c : MasterClass} {a : Access} {p : Purpose}
    (hc : s.bus.get c = some ⟨a, .claim p⟩)
    (hmin : ∀ d b q, s.bus.get d = some ⟨b, .claim q⟩ → passRank s.port.pointer c ≤ passRank s.port.pointer d) :
    s.nextPass = some c := by
  have hw : (s.waitingAccess c).isSome = true := by rw [State.waitingAccess_iff.2 hc]; rfl
  cases hd : s.nextPass with
  | none =>
    have := List.find?_eq_none.1 hd c (mem_grantOrder _ c)
    exact absurd hw this
  | some d =>
    have found : (s.waitingAccess d).isSome = true := List.find?_some (p := fun d => (s.waitingAccess d).isSome) hd
    obtain ⟨⟨b, q⟩, hb⟩ := Option.isSome_iff_exists.1 found
    have hle := hmin d b q (State.waitingAccess_iff.1 hb)
    rcases eq_or_lt_of_find? (grantOrder_sorted _) hd (mem_grantOrder _ c) hw with rfl | hlt
    · rfl
    · omega

theorem State.nextPass_none {s : State} (h : ∀ d b q, s.bus.get d ≠ some ⟨b, .claim q⟩) : s.nextPass = none := by
  refine List.find?_eq_none.2 fun d _ hd => ?_
  obtain ⟨⟨b, q⟩, hb⟩ := Option.isSome_iff_exists.1 hd
  exact h d b q (State.waitingAccess_iff.1 hb)

/-! ### The mirror set -/

theorem Control.unmirror_mirror (w x : CtlWord) (c : Control) :
    (c.unmirror w).mirror.getLsbD x.val = (c.mirror.getLsbD x.val && decide (x ≠ w)) := by
  by_cases h : x = w
  · subst h
    simp [Control.unmirror]
  · have hv : x.val ≠ w.val := fun e => h (Fin.ext e)
    simp [Control.unmirror, h, hv]

theorem Control.report_mirror (w x : CtlWord) (c : Control) :
    (c.report w).mirror.getLsbD x.val = (c.mirror.getLsbD x.val || (decide (c.part = .running) && decide (x = w))) := by
  unfold Control.report
  split
  · next h =>
    by_cases hx : x = w
    · subst hx
      simp [h]
    · have hv : x.val ≠ w.val := fun e => hx (Fin.ext e)
      simp [h, hx, hv]
  · next h => simp [h]

/-- The watch over a word reports the BANK word at most, and does so while the part runs where a fit frame's image holds
the word (R34, R37). -/
theorem State.watch_mirror (s : State) (w : PortWord) :
    (∀ x : CtlWord, x ≠ 4 → (s.watch w).control.mirror.getLsbD x.val = s.control.mirror.getLsbD x.val)
      ∧ (s.control.mirror.getLsbD 4 = true → (s.watch w).control.mirror.getLsbD 4 = true)
      ∧ ∀ bk u, w.dir = .write → s.coverage.holdsWord (wordAddr w.addr) bk u → (s.coverage.frame bk u).fit = true →
        s.control.part = .running → (s.watch w).control.mirror.getLsbD 4 = true := by
  have four : ((wordBank : CtlWord).val) = 4 := rfl
  unfold State.watch
  split
  · next h =>
    refine ⟨fun _ _ => rfl, id, fun bk u _ hw => ?_⟩
    rw [← Coverage.imageFrame_iff, show wordAddr w.addr = w.word from rfl, h] at hw
    cases hw
  next bk t h =>
  split
  · next hd =>
    have mirror : ∀ x : CtlWord, (({ s with coverage := s.coverage.unfit bk t } : State).reportIf
        (s.coverage.frame bk t).fit wordBank).control.mirror.getLsbD x.val
        = (s.control.mirror.getLsbD x.val || ((s.coverage.frame bk t).fit
            && (decide (s.control.part = .running) && decide (x = wordBank)))) := by
      intro x
      unfold State.reportIf
      cases (s.coverage.frame bk t).fit with
      | false => simp
      | true =>
        rw [if_pos rfl, Control.report_mirror]
        simp
    refine ⟨fun x hx => ?_, fun h4 => ?_, fun k u _ hw hf hp => ?_⟩
    · rw [mirror, decide_eq_false (show x ≠ wordBank from hx)]
      simp
    · rw [← four, mirror, four, h4]
      rfl
    · rw [← Coverage.imageFrame_iff, show wordAddr w.addr = w.word from rfl, h] at hw
      cases hw
      rw [← four, mirror, hf, hp]
      simp
  · next hd => exact ⟨fun _ _ => rfl, id, fun _ _ h => absurd h hd⟩

theorem State.watch_read {s : State} {w : PortWord} (h : w.dir = .read) : s.watch w = s := by
  unfold State.watch
  rw [h]
  split <;> rfl

/-! ### What the control unit offers -/

/-- The offer reads the control unit, the loader and the windows, and is put at the queue's tail. -/
theorem State.offerChannel_congr_control {s s1 : State} (hc : s1.control = s.control) (hl : s1.loader = s.loader)
    (hw : s1.windows = s.windows) : s1.offerChannel.control = s.offerChannel.control
      ∧ (s1.port.queue = s.port.queue → s1.offerChannel.port.queue = s.offerChannel.port.queue) := by
  unfold State.offerChannel State.nextPreload State.offerMirror State.offerOn State.offer
  rw [hc, hl, hw]
  repeat' split
  all_goals simp_all

/-- A mirror write that is offered is that of a word of the mirror set (R161). -/
theorem State.offerChannel_queue (s : State) : ∃ l, s.offerChannel.port.queue = s.port.queue ++ l
    ∧ ∀ x adr, .mirrorWrite x adr ∈ l → s.control.mirror.getLsbD x.val = true := by
  have none : ∃ l, s.port.queue = s.port.queue ++ l
      ∧ ∀ x adr, IReq.mirrorWrite x adr ∈ l → s.control.mirror.getLsbD x.val = true :=
    ⟨[], (List.append_nil _).symm, nofun⟩
  unfold State.offerChannel
  split
  · exact none
  split
  · exact ⟨_, rfl, by simp⟩
  split
  · exact ⟨_, rfl, by simp⟩
  unfold State.offerMirror
  split
  · next w base hw _ =>
    refine ⟨_, rfl, fun x adr hx => ?_⟩
    obtain ⟨rfl, -⟩ : x = w ∧ adr = base + 4 * w.val := by simpa using hx
    exact List.find?_some (p := fun w : CtlWord => s.control.mirror.getLsbD w.val) hw
  · exact none

/-! ### A pass-through grant -/

/-- The state of a pass-through grant ahead of what its purpose brings: the class's access and the port (R15, R16). -/
def State.passing (c : MasterClass) (a : Access) (p : Purpose) (s : State) : State :=
  { s with
    bus := s.bus.put c (some ⟨a, .granted p⟩)
    port :=
      { s.port with
        holder := some (.passThrough c (s.passWord a p))
        pointer := c
        passOver := if s.port.queue = [] then s.port.passOver else s.port.passOver + 1 } }

theorem State.grantPass_eq (c : MasterClass) (a : Access) (p : Purpose) (s : State) :
    s.grantPass c a p = ((s.passing c a p).supersede p).watchPass p (s.passWord a p) := rfl

theorem State.grantPass_other {c : MasterClass} {a : Access} {p : Purpose} {s : State}
    (ha : ∀ v r i, p ≠ .answer v r i) (hp : p ≠ .plain ∨ a.dir = .read) : s.grantPass c a p = s.passing c a p := by
  rw [State.grantPass_eq]
  cases p with
  | answer v r i => exact absurd rfl (ha v r i)
  | plain =>
    have hd : a.dir = .read := hp.resolve_left fun h => h rfl
    exact State.watch_read hd
  | foldRead => rfl
  | foldWrite => rfl
  | measure => rfl
  | commit i => rfl

theorem State.grantPass_plain (c : MasterClass) (a : Access) (s : State) :
    s.grantPass c a .plain = (s.passing c a .plain).watch (s.passWord a .plain) := rfl

theorem State.grantPass_answer (c : MasterClass) (a : Access) (v : CtlWord) (r : Result) (i : Byte) (s : State) :
    s.grantPass c a (.answer v r i)
      = ({ s.passing c a (.answer v r i) with control := s.control.unmirror v } : State).withdrawMirror v := rfl

/-- The withdrawal of a word's mirror write changes the queue, the pass-over count and the channel (R18, R162). -/
theorem State.withdrawMirror_port (v : CtlWord) (s : State) :
    (s.withdrawMirror v).port = { s.port with
        queue := s.port.queue.filter (fun r => !r.isMirror v)
        passOver := if s.port.queue.head?.any (IReq.isMirror v) then 0 else s.port.passOver }
      ∧ (s.port.queue.any (IReq.isMirror v) = true →
        (s.withdrawMirror v).control = { s.control with channel := none }) := by
  unfold State.withdrawMirror
  split
  · exact ⟨rfl, fun _ => rfl⟩
  · next h =>
    have hall : ∀ r ∈ s.port.queue, r.isMirror v = false := fun r hr => by
      simpa using fun e => h (List.any_eq_true.2 ⟨r, hr, e⟩)
    have hf : s.port.queue.filter (fun r => !r.isMirror v) = s.port.queue :=
      List.filter_eq_self.2 fun r hr => by rw [hall r hr]; rfl
    have hh : s.port.queue.head?.any (IReq.isMirror v) = false := by
      cases hq : s.port.queue with
      | nil => rfl
      | cons r q => exact hall r (by rw [hq]; exact List.mem_cons_self)
    rw [hf, hh]
    exact ⟨rfl, fun k => absurd k h⟩

theorem any_isMirror {v : CtlWord} {adr : Nat} {q : List IReq} (h : .mirrorWrite v adr ∈ q) :
    q.any (IReq.isMirror v) = true := List.any_eq_true.2 ⟨_, h, decide_eq_true rfl⟩

/-- The grant of an answer write takes its word out of the mirror set and withdraws that word's mirror write (R18,
R162). -/
theorem State.grantPass_answered (c : MasterClass) (a : Access) (v : CtlWord) (r : Result) (i : Byte) (s : State) :
    (s.grantPass c a (.answer v r i)).port.queue = s.port.queue.filter (fun q => !q.isMirror v)
      ∧ (s.port.queue = [] → (s.grantPass c a (.answer v r i)).port.passOver = s.port.passOver)
      ∧ (∀ q rest, s.port.queue = q :: rest → (s.grantPass c a (.answer v r i)).port.passOver
        = if q.isMirror v then 0 else s.port.passOver + 1)
      ∧ (s.grantPass c a (.answer v r i)).control.mirror = (s.control.unmirror v).mirror
      ∧ ∀ adr, .mirrorWrite v adr ∈ s.port.queue → (s.grantPass c a (.answer v r i)).control
        = { s.control with mirror := (s.control.unmirror v).mirror, channel := none } := by
  rw [State.grantPass_answer]
  obtain ⟨port, channel⟩ :=
    State.withdrawMirror_port v { s.passing c a (.answer v r i) with control := s.control.unmirror v }
  refine ⟨?_, fun h => ?_, fun q rest h => ?_, by simp, fun adr h => channel (any_isMirror h)⟩
  · rw [port]
    rfl
  · rw [port]
    simp [State.passing, h]
  · rw [port]
    simp [State.passing, h]

theorem Purpose.answer_of_not {p : Purpose} (h : ¬ ∀ v r i, p ≠ .answer v r i) : ∃ v r i, p = .answer v r i :=
  Classical.byContradiction fun none => h fun v r i e => none ⟨v, r, i, e⟩

/-- Every pass-through grant puts the access and its word on the port and leaves the rest of the machine. -/
theorem State.grantPass_port (c : MasterClass) (a : Access) (p : Purpose) (s : State) :
    (s.grantPass c a p).port.holder = some (.passThrough c (s.passWord a p)) ∧ (s.grantPass c a p).port.pointer = c
      ∧ (s.grantPass c a p).bus = s.bus.put c (some ⟨a, .granted p⟩)
      ∧ (p ≠ .plain ∨ a.dir = .read → (s.grantPass c a p).coverage = s.coverage) := by
  by_cases hp : p ≠ .plain ∨ a.dir = .read
  · by_cases ha : ∀ v r i, p ≠ .answer v r i
    · rw [State.grantPass_other ha hp]
      exact ⟨rfl, rfl, rfl, fun _ => rfl⟩
    · obtain ⟨v, r, i, rfl⟩ := Purpose.answer_of_not ha
      rw [State.grantPass_answer, (State.withdrawMirror_port _ _).1]
      refine ⟨rfl, rfl, ?_, fun _ => ?_⟩ <;> simp [State.passing]
  · obtain ⟨hn, hd⟩ := not_or.1 hp
    obtain rfl := Classical.not_not.1 hn
    rw [State.grantPass_plain]
    refine ⟨?_, ?_, ?_, fun h => absurd (h.resolve_left fun k => k rfl) hd⟩ <;> simp [State.passing]

theorem State.grantPass_control (c : MasterClass) (a : Access) (p : Purpose) (s : State) :
    s.sameSettings (s.grantPass c a p) ∧ s.sameEvents (s.grantPass c a p) := by
  have same : ∀ x : State, x.control = s.control → ∀ w, s.sameSettings (x.watch w) ∧ s.sameEvents (x.watch w) := by
    intro x hx w
    refine ⟨⟨?_, ?_, ?_, ?_, ?_⟩, ?_, ?_, ?_, ?_⟩ <;> simp [hx]
  by_cases ha : ∀ v r i, p ≠ .answer v r i
  · by_cases hp : p = .plain
    · subst hp
      exact same (s.passing c a .plain) rfl _
    · rw [State.grantPass_other ha (.inl hp)]
      exact ⟨⟨rfl, rfl, rfl, rfl, rfl⟩, rfl, rfl, rfl, rfl⟩
  · obtain ⟨v, r, i, rfl⟩ := Purpose.answer_of_not ha
    rw [State.grantPass_answer]
    refine ⟨⟨?_, ?_, ?_, ?_, ?_⟩, ?_, ?_, ?_, ?_⟩ <;> simp

/-- A grant is followed by the control unit's offer alone. -/
theorem State.exec_grant {s y : State} (h : s.grant = y) : exec .mpGrant s = .next y.offerChannel := by
  show Host.Outcome.next (State.settle s s.grant) = _
  rw [State.settle_of_towers (by simp), h]

theorem State.grant_pass {s : State} {c : MasterClass} {a : Access} {p : Purpose} (hf : s.port.holder = none)
    (hc : s.bus.get c = some ⟨a, .claim p⟩) (hn : s.nextPass = some c)
    (hq : s.port.queue = [] ∨ s.port.passOver < s.port.limit) : s.grant = s.grantPass c a p := by
  have hg : s.grantClass c = s.grantPass c a p := by rw [State.grantClass, State.waitingAccess_iff.2 hc]
  rw [State.grant, hf, if_neg (by decide), hn]
  cases hr : s.port.queue with
  | nil => exact hg
  | cons r rest =>
    dsimp only
    rw [if_neg, hg]
    rcases hq with hq | hq
    · rw [hr] at hq
      cases hq
    · omega

theorem State.grant_head {s : State} {r : IReq} {rest : List IReq} (hf : s.port.holder = none)
    (hr : s.port.queue = r :: rest)
    (h : (∀ d b q, s.bus.get d ≠ some ⟨b, .claim q⟩) ∨ s.port.limit ≤ s.port.passOver) :
    s.grant = s.grantHead r rest := by
  rw [State.grant, hf, if_neg (by decide), hr]
  rcases h with h | h
  · rw [State.nextPass_none h]
  · cases s.nextPass with
    | none => rfl
    | some c => exact if_pos h

/-! ### A grant of the head -/

theorem State.watchAll_cons (r : IReq) (w : PortWord) (ws : List PortWord) (s : State) :
    s.watchAll r (w :: ws) = if r.watched then (s.watch w).watchAll r ws else s := by
  unfold State.watchAll
  split <;> rfl

/-- The watch over a request's words reports the BANK word at most, and does so while the part runs where one of them
lies in the image of a fit frame (R34, R37). -/
theorem State.watchAll_mirror (r : IReq) (ws : List PortWord) (s : State) :
    (∀ x : CtlWord, x ≠ 4 → (s.watchAll r ws).control.mirror.getLsbD x.val = s.control.mirror.getLsbD x.val)
      ∧ (s.control.mirror.getLsbD 4 = true → (s.watchAll r ws).control.mirror.getLsbD 4 = true)
      ∧ (r.watched = true → (∀ w ∈ ws, w.dir = .write) → ∀ w ∈ ws, ∀ bk u,
        s.coverage.holdsWord (wordAddr w.addr) bk u → (s.coverage.frame bk u).fit = true →
        s.control.part = .running → (s.watchAll r ws).control.mirror.getLsbD 4 = true) := by
  induction ws generalizing s with
  | nil =>
    have e : s.watchAll r [] = s := by
      unfold State.watchAll
      split <;> rfl
    rw [e]
    exact ⟨fun _ _ => rfl, id, fun _ _ w hw => by cases hw⟩
  | cons w ws ih =>
    rw [State.watchAll_cons]
    by_cases hr : r.watched = true
    · rw [if_pos hr]
      obtain ⟨kept, mono, set⟩ := s.watch_mirror w
      obtain ⟨restKept, restMono, restSet⟩ := ih (s.watch w)
      refine ⟨fun x hx => (restKept x hx).trans (kept x hx), fun h => restMono (mono h), fun _ hd v hv bk u hh hf hp => ?_⟩
      have hdw : w.dir = .write := hd w List.mem_cons_self
      rcases List.mem_cons.1 hv with rfl | hv
      · exact restMono (set bk u hdw hh hf hp)
      · by_cases hit : s.coverage.holdsWord (wordAddr w.addr) bk u
        · exact restMono (set bk u hdw hit hf hp)
        · obtain ⟨⟨frames, -, -, -, -, range, -, -⟩, geometry⟩ := State.watch_madeUnfit (s := s) hdw
          refine restSet hr (fun x hx => hd x (List.mem_cons_of_mem w hx)) v hv bk u ?_ ?_ ?_
          · rw [Coverage.holdsWord_congr range geometry]
            exact hh
          · rw [(frames bk u).2 hit]
            exact hf
          · simpa using hp
    · rw [if_neg hr]
      exact ⟨fun _ _ => rfl, id, fun h => absurd h hr⟩

theorem Control.onGrant_mirror (r : IReq) (c : Control) :
    (∀ v a, r = .mirrorWrite v a → (c.onGrant r).mirror.getLsbD v.val = false)
      ∧ ∀ x : CtlWord, (∀ a, r ≠ .mirrorWrite x a) → (c.onGrant r).mirror.getLsbD x.val = c.mirror.getLsbD x.val := by
  cases r with
  | mirrorWrite w a =>
    refine ⟨fun v b h => ?_, fun x hx => ?_⟩
    · cases h
      show (c.unmirror w).mirror.getLsbD w.val = false
      rw [Control.unmirror_mirror]
      simp
    · have hne : x ≠ w := fun e => hx a (by rw [e])
      show (c.unmirror w).mirror.getLsbD x.val = _
      rw [Control.unmirror_mirror, decide_eq_true hne, Bool.and_true]
  | clearWrite a => exact ⟨nofun, fun _ _ => rfl⟩
  | orderRead a => exact ⟨nofun, fun _ _ => rfl⟩
  | orderWrite a h d => exact ⟨nofun, fun _ _ => rfl⟩
  | slotRead i a => exact ⟨nofun, fun _ _ => rfl⟩
  | noticeWrite a d => exact ⟨nofun, fun _ _ => rfl⟩
  | preloadWrite a d => exact ⟨nofun, fun _ _ => rfl⟩

theorem Control.onGrant_keeps (r : IReq) (c : Control) :
    (c.onGrant r).part = c.part ∧ (c.onGrant r).enables = c.enables ∧ (c.onGrant r).mode = c.mode
      ∧ (c.onGrant r).noticeAddr = c.noticeAddr ∧ (c.onGrant r).noticeDatum = c.noticeDatum
      ∧ (c.onGrant r).flags = c.flags ∧ (c.onGrant r).capture = c.capture ∧ (c.onGrant r).line = c.line
      ∧ (c.onGrant r).noticePending = (match r with
        | .noticeWrite _ _ => false
        | _ => c.noticePending) := by
  cases r <;> exact ⟨rfl, rfl, rfl, rfl, rfl, rfl, rfl, rfl, rfl⟩

/-- The requests that the watch sees are those whose words are outside writes (R37). -/
theorem IReq.watched_iff (r : IReq) : r.watched = true
    ↔ (∃ a h w, r = .orderWrite a h w) ∨ (∃ a d, r = .noticeWrite a d) ∨ (∃ a d, r = .preloadWrite a d) := by
  cases r <;> simp [IReq.watched]

theorem State.reqWords_write (s : State) {r : IReq} (h : r.watched = true) : ∀ w ∈ s.reqWords r, w.dir = .write := by
  rcases (IReq.watched_iff r).1 h with ⟨a, hi, w, rfl⟩ | ⟨a, d, rfl⟩ | ⟨a, d, rfl⟩ <;> simp [State.reqWords]

/-- The state of a grant of the head ahead of the watch (R16, R18). -/
def State.heading (r : IReq) (rest : List IReq) (s : State) : State :=
  { s with
    port := { s.port with holder := some (.internal r (s.reqWords r) false), queue := rest, passOver := 0 }
    control := s.control.onGrant r }

theorem State.grantHead_eq (r : IReq) (rest : List IReq) (s : State) :
    s.grantHead r rest = (s.heading r rest).watchAll r (s.reqWords r) := rfl

theorem State.grantHead_coverage (s : State) (r : IReq) (rest : List IReq) :
    (r.watched = true → s.coverage.madeUnfit (s.grantHead r rest).coverage
          (fun bk u => ∃ x ∈ s.reqWords r, s.coverage.holdsWord (wordAddr x.addr) bk u)
        ∧ (s.grantHead r rest).coverage.geometry = s.coverage.geometry)
      ∧ (r.watched = false → (s.grantHead r rest).coverage = s.coverage) := by
  refine ⟨fun h => State.watchAll_madeUnfit h (s.reqWords_write h) (s.heading r rest), fun h => ?_⟩
  rw [State.grantHead_eq, State.watchAll, if_neg (by rw [h]; decide)]
  rfl

/-- What a grant of the head leaves of the mirror set (R34, R160). -/
theorem State.grantHead_mirror (s : State) (r : IReq) (rest : List IReq) :
    (∀ v a, r = .mirrorWrite v a → (s.grantHead r rest).control.mirror.getLsbD v.val = false)
      ∧ (∀ x : CtlWord, x ≠ 4 → (∀ a, r ≠ .mirrorWrite x a) →
        (s.grantHead r rest).control.mirror.getLsbD x.val = s.control.mirror.getLsbD x.val)
      ∧ (r.watched = true → ∀ w ∈ s.reqWords r, ∀ bk u, s.coverage.holdsWord (wordAddr w.addr) bk u →
        (s.coverage.frame bk u).fit = true → s.control.part = .running →
        (s.grantHead r rest).control.mirror.getLsbD 4 = true) := by
  obtain ⟨out, other⟩ := s.control.onGrant_mirror r
  obtain ⟨part, -⟩ := s.control.onGrant_keeps r
  obtain ⟨kept, -, set⟩ := State.watchAll_mirror r (s.reqWords r) (s.heading r rest)
  refine ⟨fun v a h => ?_, fun x hx h => (kept x hx).trans (other x h), fun h w hw bk u hh hf hp => ?_⟩
  · subst h
    exact out v a rfl
  · exact set h (s.reqWords_write h) w hw bk u hh hf (part.trans hp)

/-- Settles O31: the class or the head that the arbiter chooses, then what its grant changes. -/
theorem grantFollowsTheArbiter : Obligations.GrantFollowsTheArbiter := by
  unfold Obligations.GrantFollowsTheArbiter
  refine ⟨⟨rfl, rfl, rfl, rfl⟩, fun s hf => ⟨fun c a p hc hmin hq => ?_, fun r rest hr h => ?_, fun h hq => ?_⟩,
    fun s a h d i v => ⟨rfl, rfl, rfl, rfl, rfl, rfl, rfl⟩, fun m ws => rfl⟩
  · have hg := State.grant_pass hf hc (State.nextPass_eq hc hmin) hq
    obtain ⟨holder, pointer, bus, cov⟩ := s.grantPass_port c a p
    obtain ⟨settings, events⟩ := s.grantPass_control c a p
    obtain ⟨offHolder, offPointer, offOver, -, offQueue⟩ := (s.grantPass c a p).samePort_offerChannel
    refine ⟨_, s.passWord a p, State.exec_grant hg, offHolder.trans holder, offPointer.trans pointer, ?_, ?_, fun d hd => ?_,
      fun hp => ?_, fun hp => ?_, fun hp => ?_, fun ha => ?_, fun v r i hp => ?_, fun hp => ?_, fun ha hp => ?_,
      fun hp hd => ?_, fun _ => ?_, ?_, ?_, ?_, ?_, ?_, ?_, ?_, ?_⟩
    · cases p <;> rfl
    · simp [bus]
    · simp [bus, hd]
    · subst hp
      exact ⟨rfl, rfl, fun hd => by simp only [State.passWord, hd]⟩
    · subst hp
      exact ⟨rfl, rfl⟩
    · rcases hp with rfl | rfl | ⟨i, rfl⟩ <;> exact ⟨rfl, rfl, rfl⟩
    · by_cases hp : p = .plain
      · subst hp
        rw [State.grantPass_plain] at offOver offQueue ⊢
        simp only [State.watch_keeps] at offOver offQueue
        refine ⟨offOver, offQueue, fun x hx => ?_⟩
        obtain ⟨kept, -⟩ := (s.passing c a .plain).watch_mirror (s.passWord a .plain)
        simpa [State.passing] using kept x hx
      · rw [State.grantPass_other ha (.inl hp)] at offOver offQueue ⊢
        exact ⟨offOver, offQueue, fun x _ => by simp [State.passing]⟩
    · subst hp
      obtain ⟨queue, passOver_nil, passOver_cons, mirror, channel⟩ := s.grantPass_answered c a v r i
      have mirror' : (s.grantPass c a (.answer v r i)).offerChannel.control.mirror = (s.control.unmirror v).mirror := by
        simp [mirror]
      have out : (s.control.unmirror v).mirror.getLsbD v.val = false := by rw [Control.unmirror_mirror]; simp
      refine ⟨rfl, rfl, rfl, by rw [mirror', out], fun x hx => ?_, ?_, fun adr hm => ?_, fun adr hm => ?_,
        offOver.trans ?_⟩
      · rw [mirror', Control.unmirror_mirror, decide_eq_true hx, Bool.and_true]
      · rw [queue] at offQueue
        refine Eq.subst (motive := fun l => l <+: _) (List.filter_congr fun q _ => ?_) offQueue
        cases q <;> simp [IReq.isMirror]
      · obtain ⟨l, hl, offered⟩ := (s.grantPass c a (.answer v r i)).offerChannel_queue
        rw [hl, queue] at hm
        rcases List.mem_append.1 hm with hm | hm
        · simpa [IReq.isMirror] using (List.mem_filter.1 hm).2
        · have set := offered v adr hm
          rw [mirror, out] at set
          cases set
      · rw [mirror']
        refine congrArg Control.channel (State.offerChannel_congr_control ?_ ?_ ?_).1
        · exact channel adr hm
        · simp
        · simp
      · split
        · next h => exact passOver_nil h
        · next x adr rest h =>
          rw [passOver_cons _ _ h]
          simp [IReq.isMirror]
        · next q rest hn h =>
          rw [passOver_cons _ _ h]
          cases q with
          | mirrorWrite x adr => exact absurd rfl (hn x adr)
          | _ => rfl
    · simpa using cov hp
    · obtain ⟨control, queue⟩ := State.offerChannel_congr_control (s := s) (s1 := s.passing c a p) rfl rfl rfl
      rw [State.grantPass_other ha hp]
      exact ⟨control, queue rfl⟩
    · subst hp
      rw [State.grantPass_plain]
      obtain ⟨unfit, geometry⟩ := State.watch_madeUnfit (s := s.passing c a .plain) (w := s.passWord a .plain) hd
      obtain ⟨-, -, set⟩ := (s.passing c a .plain).watch_mirror (s.passWord a .plain)
      simp only [State.offerChannel_keeps, State.offerChannel_control]
      exact ⟨unfit, geometry, fun bk u hh hfit hrun => set bk u hd hh hfit hrun⟩
    · simp
    · simp
    · exact ⟨by simp, by simp, by simp, by simp, by simp⟩
    · exact ⟨by simp, by simp⟩
    · simp
    · simp
    · simp
    · simpa [State.sameSettings] using settings
    · simpa [State.sameEvents] using events
  · have hg := State.grant_head hf hr h
    obtain ⟨hit, miss⟩ := s.grantHead_coverage r rest
    obtain ⟨out, other, set⟩ := s.grantHead_mirror r rest
    obtain ⟨part, enables, mode, naddr, datum, flags, cap, line, notice⟩ := s.control.onGrant_keeps r
    have port : (s.grantHead r rest).port
        = { s.port with holder := some (.internal r (s.reqWords r) false), queue := rest, passOver := 0 } := by
      simp [State.grantHead]
    obtain ⟨offHolder, offPointer, offOver, -, offQueue⟩ := (s.grantHead r rest).samePort_offerChannel
    rw [port] at offHolder offPointer offOver offQueue
    refine ⟨_, State.exec_grant hg, offHolder, offQueue, offOver, offPointer, by simp, fun hw => ?_, fun hw => ?_,
      fun v a hv => ?_, fun x hx hne => ?_, ?_, ?_, ?_, ?_, fun _ => by simp, by simp, ?_, ⟨by simp, by simp⟩, by simp,
      by simp, by simp, ?_⟩
    · have hw := (IReq.watched_iff r).2 hw
      simp only [State.offerChannel_keeps, State.offerChannel_control]
      obtain ⟨unfit, geometry⟩ := hit hw
      exact ⟨unfit, geometry, set hw⟩
    · have hw : r.watched = false := by
        rcases hw with ⟨a, rfl⟩ | ⟨a, rfl⟩ | ⟨i, a, rfl⟩ | ⟨v, a, rfl⟩ <;> rfl
      simpa using miss hw
    · simpa using out v a hv
    · simpa using other x hx hne
    · exact Eq.trans (by simp [State.grantHead]) notice
    · simpa [State.grantHead] using flags
    · simpa [State.grantHead] using cap
    · simpa [State.grantHead] using line
    · exact ⟨by simp, by simp, by simp, by simp, by simp⟩
    · simpa [State.grantHead, State.sameSettings] using ⟨part, enables, mode, naddr, datum⟩
  · have hg : s.grant = s := by
      rw [State.grant, hf, if_neg (by decide), State.nextPass_none h, hq]
    have next : exec .mpGrant s = .next (State.settle s s) := by
      show Host.Outcome.next (State.settle s s.grant) = _
      rw [hg]
    refine ⟨_, next, ?_, by simp, State.settle_sameControl rfl rfl rfl rfl rfl, ⟨by simp, by simp, by simp, by simp, by simp⟩,
      by simp, fun _ => by simp, by simp, ?_, by simp, by simp, by simp⟩
    · exact (State.samePort_settle s s).1.trans hf
    · rw [State.settle_of_towers rfl]
      exact ⟨by simp, by simp⟩

end Sys2Proof.Machine
end

section
/-! PROOFS. Memory's answers to plain accesses, to forwarded MEASURE writes and after a pin reset. -/

namespace Sys2Proof.Machine

/-! ### The answer to a pass-through access -/

theorem State.answerPass_eq {s : State} {a : Access} {p : Purpose} {w : PortWord} (h : s.holdsPass a p w)
    (ans : MemAnswer) : s.answerPass ans
      = (s.memAnswered w ans).passDone a p (answeredOk ans) (Memory.word s.mem (wordAddr w.addr)) := by
  obtain ⟨holder, bus⟩ := h
  simp only [State.answerPass, holder, bus]
  rfl

theorem State.answerPass_orphan {s : State} {w : PortWord} (h : s.port.holder = some (.orphan w)) (ans : MemAnswer) :
    s.answerPass ans = s.memAnswered w ans := by
  simp only [State.answerPass, h]

/-- An event that changes job memory, the holder of the port and what the press bus has, and is followed by the control
unit's offer (R2, R161). -/
theorem State.settle_answered {s y : State} (hy : y = { s with
      mem := y.mem, port := { s.port with holder := none }, bus := y.bus, lastResponse := y.lastResponse }) :
    ∃ t, State.settle s y = t ∧ t.port.holder = none ∧ t.bus = y.bus ∧ t.lastResponse = y.lastResponse ∧ t.mem = y.mem
      ∧ t.control = s.offerChannel.control ∧ t.port = { s.offerChannel.port with holder := none } ∧ s.sameSetup t
      ∧ s.sameBlocks t ∧ s.sameSettings t ∧ s.sameEvents t := by
  have towers : y.towers = s.towers := by rw [hy]
  have offered := State.offerChannel_congr (s := s) (s1 := y) (by rw [hy]) (by rw [hy]) (by rw [hy]) none (by rw [hy])
  obtain ⟨control, port⟩ := offered
  have fields : y.pending = s.pending ∧ y.windows = s.windows ∧ y.coverage = s.coverage ∧ y.curves = s.curves
      ∧ y.timeout = s.timeout ∧ y.link = s.link ∧ y.levels = s.levels ∧ y.engine = s.engine ∧ y.loop = s.loop
      ∧ y.loader = s.loader := by
    rw [hy]
    exact ⟨rfl, rfl, rfl, rfl, rfl, rfl, rfl, rfl, rfl, rfl⟩
  obtain ⟨pending, windows, coverage, curves, timeout, link, levels, engine, loop, loader⟩ := fields
  refine ⟨_, State.settle_of_towers towers, by rw [port], by simp, by simp, by simp, control, port,
    ⟨by simpa, by simpa, by simpa, by simpa, by simpa⟩, ⟨by simpa, ⟨by simpa, by simpa⟩, by simpa, by simpa, by simpa⟩, ?_, ?_⟩
  · rw [State.sameSettings, control]
    exact ⟨by simp, by simp, by simp, by simp, by simp⟩
  · rw [State.sameEvents, control]
    exact ⟨by simp, by simp, by simp, by simp⟩

/-- The answer to an access that is responded to at once (R9, R144). -/
theorem State.settle_responded (s : State) (w : PortWord) (ans : MemAnswer) (c : MasterClass) (r : Response) :
    ∃ t, State.settle s ((s.memAnswered w ans).respond c r) = t ∧ t.port.holder = none ∧ t.bus.get c = none
      ∧ t.lastResponse.get c = some r ∧ t.mem = Memory.answer s.mem w ans ∧ s.sameOthers c t
      ∧ t.control = s.offerChannel.control ∧ t.port = { s.offerChannel.port with holder := none } ∧ s.sameSetup t
      ∧ s.sameBlocks t ∧ s.sameSettings t ∧ s.sameEvents t := by
  obtain ⟨t, ht, holder, bus, resp, mem, rest⟩ :=
    State.settle_answered (s := s) (y := (s.memAnswered w ans).respond c r) rfl
  have hbus : t.bus = s.bus.put c none := bus
  have hresp : t.lastResponse = s.lastResponse.put c (some r) := resp
  exact ⟨t, ht, holder, by rw [hbus]; simp, by rw [hresp]; simp, mem,
    fun d hd => ⟨by rw [hbus]; simp [hd], by rw [hresp]; simp [hd]⟩, rest⟩

/-! ### Job memory under an answer -/

theorem Memory.answer_read {w : PortWord} (m : List Host.Cell) (x : MemAnswer) (h : w.dir = .read) :
    Memory.answer m w x = m := if_neg fun k => by rw [h] at k; cases k.1

theorem Memory.answer_error_landed (m : List Host.Cell) (w : PortWord) :
    Memory.answer m w (.error true) = Memory.answer m w .ok := rfl

theorem Memory.answer_error_lost (m : List Host.Cell) (w : PortWord) : Memory.answer m w (.error false) = m :=
  if_neg fun k => by cases k.2

/-- An answered word changes no byte outside it, and a read none at all. -/
theorem Memory.byte_answer_other {m : List Host.Cell} (h : Memory.wf m = true) (w : PortWord) (ans : MemAnswer) {x : Nat}
    (hx : w.dir = .read ∨ x < wordAddr w.addr ∨ wordAddr w.addr + 4 ≤ x) :
    Memory.byte (Memory.answer m w ans) x = Memory.byte m x := by
  rcases hx with hr | hx
  · rw [Memory.answer_read m ans hr]
  · unfold Memory.answer
    split
    · exact Memory.byte_write_outside h _ _ _ hx
    · rfl

theorem enableMask_bit : ∀ (en : BitVec 4) (i : Fin 32), (enableMask en).getLsbD i.val = en.getLsbD (i.val / 8) := by
  decide

/-- Settles O32, by the purpose for which the word was on the port. -/
theorem plainAccessIsAnswered : Obligations.PlainAccessIsAnswered := by
  unfold Obligations.PlainAccessIsAnswered
  refine ⟨fun s a w ans h => ?_, fun s a w ans h => ?_, fun s w ans h => ?_, fun m w =>
    ⟨Memory.answer_error_landed m w, Memory.answer_error_lost m w, fun hd x => Memory.answer_read m x hd⟩,
    fun en i hi => enableMask_bit en ⟨i, hi⟩⟩
  · obtain ⟨t, ht, holder, bus, resp, mem, others, control, port, setup, blocks, settings, events⟩ :=
      s.settle_responded w ans a.cls (plainResponse a (Memory.word s.mem (wordAddr w.addr)) (answeredOk ans))
    refine ⟨t, ?_, holder, bus, resp.trans ?_, mem, fun hwf x hx => ?_, fun hwf hd hok b hb => ?_, control, port, others,
      setup, blocks, settings, events⟩
    · show Host.Outcome.next (State.settle s (s.answerPass ans)) = _
      rw [State.answerPass_eq h]
      exact congrArg _ ht
    · cases ans with
      | ok => cases hd : a.dir <;> simp [plainResponse, answeredOk, readResponse, hd]
      | error l => rfl
    · rw [mem]
      exact Memory.byte_answer_other hwf w ans hx
    · have landed : Memory.answer s.mem w ans = Memory.write s.mem (wordAddr w.addr) w.enables w.data := by
        subst hok
        exact if_pos ⟨hd, rfl⟩
      rw [mem, landed]
      exact Memory.byte_write hwf _ _ _ hb
  · obtain ⟨t, ht, holder, bus, resp, mem, others, rest⟩ :=
      s.settle_responded w ans a.cls (writeResponse (answeredOk ans))
    refine ⟨t, ?_, holder, bus, resp.trans ?_, mem, others, rest⟩
    · show Host.Outcome.next (State.settle s (s.answerPass ans)) = _
      rw [State.answerPass_eq h]
      exact congrArg _ ht
    · cases ans <;> rfl
  · obtain ⟨t, ht, holder, bus, resp, mem, rest⟩ := State.settle_answered (s := s) (y := s.memAnswered w ans) rfl
    refine ⟨t, ?_, holder, bus, resp, mem, rest⟩
    show Host.Outcome.next (State.settle s (s.answerPass ans)) = _
    rw [State.answerPass_orphan h]
    exact congrArg _ ht

end Sys2Proof.Machine
end

section
/-! PROOFS. The answers to a fold's read and to its write, and the writes that wait behind it. -/

namespace Sys2Proof.Machine

/-! ### The latch empties -/

/-- Every flag that is set stays set. -/
def State.keepsFlags (s t : State) : Prop :=
  ∀ i, s.control.flags.getLsbD i = true → t.control.flags.getLsbD i = true

theorem State.keepsFlags_trans {s t u : State} (h : s.keepsFlags t) (k : t.keepsFlags u) : s.keepsFlags u :=
  fun i hi => k i (h i hi)

theorem State.keepsFlags_of_eq {s t : State} (h : t.control.flags = s.control.flags) : s.keepsFlags t :=
  fun i hi => by rw [h]; exact hi

theorem State.keepsFlags_raise (s : State) (f : EventFlag) : s.keepsFlags (s.raise f) := fun i hi => by
  rw [State.raise_flags, BitVec.getLsbD_or, hi, Bool.true_or]

theorem State.raise_flag (s : State) (f : EventFlag) : (s.raise f).control.flags.getLsbD (flagBit f) = true := by
  have bit : flagBit f < 14 := by cases f <;> decide
  rw [State.raise_flags]
  simp [bit]

/-- The taking of a write that has waited changes the latch at most, and drops no flag. -/
theorem State.takeWaiter_effect (x : BusAccess) (s : State) :
    (s.takeWaiter x).coverage = { s.coverage with latch := (s.takeWaiter x).coverage.latch }
      ∧ s.keepsFlags (s.takeWaiter x) := by
  have refused : (s.refuseFold x.access).coverage = { s.coverage with latch := (s.refuseFold x.access).coverage.latch }
      ∧ s.keepsFlags (s.refuseFold x.access) := by
    refine ⟨?_, State.keepsFlags_trans (s.keepsFlags_raise .bankRefused) (State.keepsFlags_of_eq ?_)⟩
    · rw [(State.refuseFold_spec x.access s).1]
    · simp [State.refuseFold, State.refuse]
  unfold State.takeWaiter
  split
  · exact refused
  · unfold State.takeFold
    split
    · exact refused
    · exact ⟨rfl, fun _ h => h⟩

theorem State.takeWaiting_effect (l : List MasterClass) (s : State) :
    (State.takeWaiting l s).coverage = { s.coverage with
        latch := (State.takeWaiting l s).coverage.latch, waiting := (State.takeWaiting l s).coverage.waiting }
      ∧ s.keepsFlags (State.takeWaiting l s) := by
  induction l generalizing s with
  | nil => exact ⟨rfl, fun _ h => h⟩
  | cons c cs ih =>
    unfold State.takeWaiting
    split
    · exact ih s
    · next x _ =>
      obtain ⟨cov, flags⟩ := s.takeWaiter_effect x
      split
      · refine ⟨?_, flags⟩
        show { (s.takeWaiter x).coverage with waiting := cs } = _
        rw [cov]
        rfl
      · obtain ⟨restCov, restFlags⟩ := ih (s.takeWaiter x)
        refine ⟨?_, State.keepsFlags_trans flags restFlags⟩
        rw [restCov, cov]

/-- The emptying of the latch changes the latch and the list of those that wait, and drops no flag. -/
theorem State.emptyLatch_effect (s : State) :
    s.emptyLatch.coverage = { s.coverage with
        latch := s.emptyLatch.coverage.latch, waiting := s.emptyLatch.coverage.waiting }
      ∧ s.keepsFlags s.emptyLatch := by
  obtain ⟨cov, flags⟩ := State.takeWaiting_effect s.coverage.waiting (s.setLatch none)
  exact ⟨cov, flags⟩

theorem State.emptyLatch_alone {s : State} (h : s.coverage.waiting = []) :
    s.emptyLatch = { s with coverage := { s.coverage with latch := none } } := by
  have e : s.emptyLatch = (s.setLatch none).setWaiting [] := by
    simp only [State.emptyLatch]
    rw [show (s.setLatch none).coverage.waiting = [] from h]
    rfl
  rw [e]
  show ({ s with coverage := { s.coverage with latch := none, waiting := [] } } : State) = _
  rw [← h]

/-- The emptying of the latch changes the press bus, the coverage unit and the control unit alone. -/
theorem State.emptyLatch_shape (s : State) : s.emptyLatch = { s with
    bus := s.emptyLatch.bus, lastResponse := s.emptyLatch.lastResponse, coverage := s.emptyLatch.coverage
    control := s.emptyLatch.control } := by
  obtain ⟨pending, mem, windows, port, curves, towers, timeout, link, levels, engine, loop, loader⟩ := s.emptyLatch_keeps
  generalize s.emptyLatch = t at *
  cases s
  cases t
  dsimp only at *
  rw [pending, mem, windows, port, curves, towers, timeout, link, levels, engine, loop, loader]

/-! ### What the waiting writes ask of the coverage unit -/

/-- The waiting writes ask of the coverage unit where its images are, its banks' states and its frames' fitness. -/
theorem State.waitersTaken_congr {s t : State} {c d : Coverage} (h : s.waitersTaken c t) (hr : d.range = c.range)
    (hg : d.geometry = c.geometry) (hs : ∀ bk, (d.banks.get bk).state = (c.banks.get bk).state)
    (hf : ∀ bk u, (d.frame bk u).fit = (c.frame bk u).fit) : s.waitersTaken d t := by
  have holds : d.holdsWord = c.holdsWord := funext fun a => Coverage.holdsWord_congr hr hg a
  unfold State.waitersTaken State.foldable at *
  simp only [holds, hs, hf]
  exact h

/-- What is said of the waiting writes is read off the latch, the list, the press bus and the flags. -/
theorem State.waitersTaken_of_eq {s t x : State} {c : Coverage} (h : s.waitersTaken c t)
    (hc : x.coverage = t.coverage) (hb : x.bus = t.bus) (hr : x.lastResponse = t.lastResponse)
    (hf : x.control.flags = t.control.flags) : s.waitersTaken c x := by
  unfold State.waitersTaken State.turnedAway at *
  rw [hc, hb, hr, hf]
  exact h

/-! ### An access that is answered as the latch empties -/

/-- What is left of an event that answers an access and empties the latch: the access is answered, and the waiting writes
are taken over the coverage unit that the answer left. -/
theorem State.emptyLatch_answered {s x : State} {a : Access} {p : Purpose} {r : Response} (hok : s.accessesOk)
    (ha : s.bus.get a.cls = some ⟨a, .granted p⟩) (hb : x.bus = s.bus.put a.cls none)
    (hr : x.lastResponse.get a.cls = some r) (hw : x.coverage.waiting = s.coverage.waiting)
    (hp : x.control.part = s.control.part) :
    x.emptyLatch.bus.get a.cls = none ∧ x.emptyLatch.lastResponse.get a.cls = some r
      ∧ s.waitersTaken x.coverage x.emptyLatch := by
  have notWaiting : a.cls ∉ s.coverage.waiting := State.notWaiting_some hok ha nofun nofun
  have ok : x.accessesOk := by
    have := State.accessesOk_respond hok notWaiting r
    exact State.accessesOk_as this ⟨hb, hw⟩
  obtain ⟨bus, resp⟩ := State.emptyLatch_other ok (c := a.cls) (by rwa [hw])
  refine ⟨bus.trans (by rw [hb]; simp), resp.trans hr, State.emptyLatch_taken hw hp fun d hd => ?_⟩
  have hne : d ≠ a.cls := fun e => notWaiting (e ▸ hd)
  rw [hb]
  simp [hne]

/-- Memory's answer to the word of a fold is followed by the control unit's offer alone. -/
theorem State.settle_answerPass {s : State} {a : Access} {p : Purpose} {w : PortWord} (h : s.holdsPass a p w)
    (ans : MemAnswer) : State.settle s (s.answerPass ans)
      = ((s.memAnswered w ans).passDone a p (answeredOk ans) (Memory.word s.mem (wordAddr w.addr))).offerChannel := by
  rw [State.settle_of_towers (by simp), State.answerPass_eq h]

/-- What an event leaves that changes job memory, the press bus, the coverage unit and the flags, frees the port, and is
followed by the control unit's offer. -/
theorem State.offerChannel_freed {s y : State} (hy : y = { s with
      mem := y.mem, port := { s.port with holder := none }, bus := y.bus, lastResponse := y.lastResponse
      coverage := y.coverage, control := y.control }) :
    y.offerChannel.port.holder = none ∧ y.offerChannel.bus = y.bus ∧ y.offerChannel.lastResponse = y.lastResponse
      ∧ y.offerChannel.mem = y.mem ∧ y.offerChannel.coverage = y.coverage ∧ s.sameSetup y.offerChannel
      ∧ s.sameTowers y.offerChannel ∧ y.offerChannel.engine = s.engine ∧ y.offerChannel.loop = s.loop
      ∧ y.offerChannel.loader = s.loader := by
  have fields : y.pending = s.pending ∧ y.windows = s.windows ∧ y.curves = s.curves ∧ y.towers = s.towers
      ∧ y.timeout = s.timeout ∧ y.link = s.link ∧ y.levels = s.levels ∧ y.engine = s.engine ∧ y.loop = s.loop
      ∧ y.loader = s.loader ∧ y.port.holder = none := by
    rw [hy]
    exact ⟨rfl, rfl, rfl, rfl, rfl, rfl, rfl, rfl, rfl, rfl, rfl⟩
  obtain ⟨pending, windows, curves, towers, timeout, link, levels, engine, loop, loader, holder⟩ := fields
  exact ⟨y.samePort_offerChannel.1.trans holder, by simp, by simp, by simp, by simp,
    ⟨by simpa, by simpa, by simpa, by simpa, by simpa⟩, ⟨by simpa, by simpa⟩, by simpa, by simpa, by simpa⟩

/-! ### FOLD_READ_RESPONSE -/

/-- The state after a failed read of a fold, ahead of the emptying of the latch (R27). -/
def State.foldReadFailed (w : PortWord) (l : Bool) (a : Access) (s : State) : State :=
  ((s.memAnswered w (.error l)).raise .memoryFault).respond a.cls .busError

/-- Settles O33: the latched fold goes on to its write, or ends and lets the waiting writes in. -/
theorem foldReadIsAnswered : Obligations.FoldReadIsAnswered := by
  unfold Obligations.FoldReadIsAnswered
  intro s a w f h hf hd
  obtain ⟨-, ha⟩ := id h
  refine ⟨?_, fun hok l => ?_⟩
  · generalize hy : ((s.memAnswered w .ok).setLatch (s.coverage.latch.map
      (fun f => { f with old := some (Memory.word s.mem (wordAddr w.addr)) }))).claim a .foldWrite = y
    have settled : State.settle s (s.answerPass .ok) = y.offerChannel := by rw [State.settle_answerPass h, ← hy]; rfl
    have control : y.control = s.control := by rw [← hy]; rfl
    have bus : y.bus = s.bus.put a.cls (some ⟨a, .claim .foldWrite⟩) := by rw [← hy]; rfl
    have resp : y.lastResponse = s.lastResponse := by rw [← hy]; rfl
    have mem : y.mem = s.mem := by
      rw [← hy]
      exact Memory.answer_read s.mem .ok hd
    have cov : y.coverage
        = { s.coverage with latch := some { f with old := some (Memory.word s.mem (wordAddr w.addr)) } } := by
      rw [← hy, hf]
      rfl
    obtain ⟨holder, tbus, tresp, tmem, tcov, setup, towers, engine, loop, loader⟩ :=
      State.offerChannel_freed (s := s) (y := y) (by rw [← hy]; rfl)
    refine ⟨_, congrArg Host.Outcome.next settled, holder, by rw [tbus, bus]; simp, tcov.trans cov, tresp.trans resp, fun c hc => ?_,
      fun x => by rw [tmem, mem], setup, towers, engine, loop, loader, ?_, ?_⟩
    · rw [tbus, tresp, bus, resp]
      simp [hc]
    · refine ⟨?_, ?_, ?_, ?_, ?_⟩ <;> simp [control]
    · refine ⟨?_, ?_, ?_, ?_⟩ <;> simp [control]
  · generalize hx : s.foldReadFailed w l a = x
    have settled : State.settle s (s.answerPass (.error l)) = x.emptyLatch.offerChannel := by
      rw [State.settle_answerPass h, ← hx]
      rfl
    have bus : x.bus = s.bus.put a.cls none := by rw [← hx]; rfl
    have resp : x.lastResponse = s.lastResponse.put a.cls (some .busError) := by rw [← hx]; rfl
    have mem : x.mem = s.mem := by
      rw [← hx]
      exact Memory.answer_read s.mem (.error l) hd
    have cov : x.coverage = s.coverage := by rw [← hx]; rfl
    have control : x.control = (s.raise .memoryFault).control := by rw [← hx]; rfl
    have port : x.port = { s.port with holder := none } := by rw [← hx]; rfl
    have part : x.control.part = s.control.part := by rw [control]; simp
    obtain ⟨answered, response, taken⟩ :=
      State.emptyLatch_answered hok ha bus (r := .busError) (by rw [resp]; simp) (by rw [cov]) part
    obtain ⟨latched, flags⟩ := x.emptyLatch_effect
    rw [cov] at taken latched
    obtain ⟨holder, tbus, tresp, tmem, tcov, setup, towers, engine, loop, loader⟩ :=
      State.offerChannel_freed (s := s) (y := x.emptyLatch) (by
        rw [x.emptyLatch_shape, ← hx]
        rfl)
    refine ⟨_, congrArg Host.Outcome.next settled, holder, by rw [tbus, answered], by rw [tresp, response],
      State.waitersTaken_of_eq taken tcov tbus tresp (by simp), ?_, ?_, fun hw => ?_, fun y => ?_, setup, towers, engine, loop,
      loader, ?_⟩
    · have raised := flags (flagBit .memoryFault) (by rw [control]; exact State.raise_flag s .memoryFault)
      simpa using raised
    · rw [tcov]
      exact latched
    · have alone : x.emptyLatch = { x with coverage := { x.coverage with latch := none } } :=
        State.emptyLatch_alone (by rw [cov, hw])
      refine ⟨by rw [tcov, alone], ?_, ?_, fun c hc => ?_⟩
      · rw [State.raised, State.offerChannel_control .. |>.2.1, alone]
        dsimp only
        rw [control, State.raise_flags]
      · simp [alone, control]
      · rw [tbus, tresp, alone]
        dsimp only
        rw [bus, resp]
        simp [hc]
    · rw [tmem]
      simp [mem]
    · refine ⟨?_, ?_, ?_, ?_, ?_⟩ <;> simp [control]

end Sys2Proof.Machine
end

section
/-! PROOFS. FOLD_WRITE_RESPONSE: the sums of a fold, the fitness of its frame, and the writes that wait behind it. -/

namespace Sys2Proof.Machine

/-! ### The coverage unit after a fold -/

/-- One frame of a coverage unit has changed, and nothing else that the unit keeps but its latch. -/
def Coverage.oneFrame (c d : Coverage) (bk : BankId) (t : Tower) (new : Frame) : Prop :=
  d.frame bk t = new ∧ (∀ k u, (k, u) ≠ (bk, t) → d.frame k u = c.frame k u)
    ∧ (∀ k, (d.banks.get k).state = (c.banks.get k).state) ∧ d.active = c.active ∧ d.range = c.range
    ∧ d.geometry = c.geometry ∧ d.cursor = c.cursor

theorem Coverage.oneFrame_refl (c : Coverage) (bk : BankId) (t : Tower) : c.oneFrame c bk t (c.frame bk t) :=
  ⟨rfl, fun _ _ _ => rfl, fun _ => rfl, rfl, rfl, rfl, rfl⟩

theorem Coverage.modFrame_oneFrame (c : Coverage) (bk : BankId) (t : Tower) (f : Frame → Frame) :
    c.oneFrame (c.modFrame bk t f) bk t (f (c.frame bk t)) := by
  refine ⟨?_, fun k u h => ?_, fun k => Coverage.modFrame_state c bk k t f, rfl, rfl, rfl, rfl⟩
  · rw [Coverage.modFrame_frame, if_pos ⟨rfl, rfl⟩]
  · rw [Coverage.modFrame_frame, if_neg fun e => h (by rw [e.1, e.2])]

theorem Coverage.unfit_oneFrame (c : Coverage) (bk : BankId) (t : Tower) :
    c.oneFrame (c.unfit bk t) bk t { c.frame bk t with fit := false } := by
  obtain ⟨⟨frames, -, -, state, active, range, cursor, -⟩, geometry⟩ := Coverage.unfit_madeUnfit bk t c
  refine ⟨(frames bk t).1 ⟨rfl, rfl⟩, fun k u h => (frames k u).2 fun e => h (by rw [e.1, e.2]), state, active, range,
    geometry, cursor⟩

/-- The frame of a fold after its write was answered OK (R28, R29). -/
theorem Coverage.applyFold_oneFrame {c : Coverage} {f : Fold} {old : Word} (h : f.old = some old) :
    c.oneFrame (c.applyFold f) f.bank f.tower (if f.void then c.frame f.bank f.tower
      else foldSums f.owners old f.new (c.frame f.bank f.tower)) := by
  unfold Coverage.applyFold
  rw [h]
  dsimp only
  split
  · exact c.oneFrame_refl _ _
  · exact c.modFrame_oneFrame _ _ _

/-- The frame of a fold after its write was answered ERROR (R28, R29; log 27). -/
theorem Coverage.failFold_oneFrame (c : Coverage) (f : Fold) :
    c.oneFrame (if f.cleared then c else c.unfit f.bank f.tower) f.bank f.tower
      ⟨if f.cleared then (c.frame f.bank f.tower).fit else false, (c.frame f.bank f.tower).sums⟩ := by
  split
  · exact c.oneFrame_refl _ _
  · exact c.unfit_oneFrame _ _

theorem Coverage.oneFrame_of_eq {c d e : Coverage} {bk : BankId} {t : Tower} {new : Frame} (h : c.oneFrame d bk t new)
    (he : e = { d with latch := e.latch, waiting := e.waiting }) : c.oneFrame e bk t new := by
  rw [he]
  exact h

/-! ### The arithmetic of a fold -/

theorem addSample_fit (old new : Word) (f : Frame) (p : Option (Fin 48) × Nat) :
    (addSample old new f p).fit = f.fit := by
  unfold addSample
  split <;> rfl

theorem addSample_sums (old new : Word) (f : Frame) (o : Option (Fin 48)) (i : Nat) (k : Fin 48) :
    (addSample old new f (o, i)).sums[k]
      = f.sums[k] + (if o = some k then sample new i - sample old i else 0) := by
  cases o with
  | none => simp [addSample]
  | some j =>
    by_cases h : j = k
    · subst h
      simp [addSample]
    · have hv : j.val ≠ k.val := fun e => h (Fin.ext e)
      simp [addSample, h, hv]

/-- Each sample's difference goes to the key that owns its column (R28). -/
theorem foldSums_eq (o0 o1 o2 o3 : Option (Fin 48)) (old new : Word) (f : Frame) (k : Fin 48) :
    (foldSums [o0, o1, o2, o3] old new f).sums[k]
        = f.sums[k] + (if o0 = some k then sample new 0 - sample old 0 else 0)
          + (if o1 = some k then sample new 1 - sample old 1 else 0)
          + (if o2 = some k then sample new 2 - sample old 2 else 0)
          + (if o3 = some k then sample new 3 - sample old 3 else 0)
      ∧ (foldSums [o0, o1, o2, o3] old new f).fit = f.fit := by
  have steps : foldSums [o0, o1, o2, o3] old new f = addSample old new (addSample old new (addSample old new
      (addSample old new f (o0, 0)) (o1, 1)) (o2, 2)) (o3, 3) := rfl
  rw [steps]
  exact ⟨by rw [addSample_sums, addSample_sums, addSample_sums, addSample_sums],
    by rw [addSample_fit, addSample_fit, addSample_fit, addSample_fit]⟩

theorem foldSums_fit (owners : List (Option (Fin 48))) (old new : Word) (f : Frame) :
    (foldSums owners old new f).fit = f.fit := by
  unfold foldSums
  generalize owners.zip [0, 1, 2, 3] = l
  induction l generalizing f with
  | nil => rfl
  | cons p l ih =>
    rw [List.foldl_cons, ih, addSample_fit]

theorem sample_eq (x : Word) (i : Nat) : sample x i = (x.extractLsb' (8 * i) 8).toNat := by
  simp [sample, byteOf, BitVec.extractLsb', Nat.shiftRight_eq_div_pow, Nat.pow_mul]

/-! ### The answer -/

/-- The state after a fold's write has been answered, ahead of the emptying of the latch. -/
def State.foldEnded (w : PortWord) (ans : MemAnswer) (c : Coverage) (k : Control) (a : Access) (r : Response)
    (s : State) : State :=
  ({ s.memAnswered w ans with coverage := c, control := k } : State).respond a.cls r

theorem State.settle_foldWrite {s : State} {a : Access} {w : PortWord} {f : Fold} (h : s.holdsPass a .foldWrite w)
    (hf : s.coverage.latch = some f) :
    State.settle s (s.answerPass .ok)
        = (s.foldEnded w .ok (s.coverage.applyFold f) s.control a .ok).emptyLatch.offerChannel
      ∧ ∀ l, State.settle s (s.answerPass (.error l))
        = (s.foldEnded w (.error l) (if f.cleared then s.coverage else s.coverage.unfit f.bank f.tower)
            (s.control.raise .memoryFault) a .busError).emptyLatch.offerChannel := by
  have latch : ∀ ans, (s.memAnswered w ans).coverage.latch = some f := fun _ => hf
  refine ⟨?_, fun l => ?_⟩ <;>
    rw [State.settle_answerPass h, State.passDone, State.foldWriteDone, latch] <;> rfl

/-- What the answer leaves of the machine, whoever waits behind it. -/
theorem State.foldEnded_frame {s x t : State} {w : PortWord} {ans : MemAnswer} {c : Coverage} {k : Control} {a : Access}
    {r : Response} (hx : x = s.foldEnded w ans c k a r) (ht : t = x.emptyLatch.offerChannel) :
    t.port.holder = none ∧ t.mem = Memory.answer s.mem w ans
      ∧ t.coverage = { c with latch := t.coverage.latch, waiting := t.coverage.waiting }
      ∧ (∀ i, k.flags.getLsbD i = true → t.control.flags.getLsbD i = true)
      ∧ (t.control.part = k.part ∧ t.control.enables = k.enables ∧ t.control.mode = k.mode
        ∧ t.control.noticeAddr = k.noticeAddr ∧ t.control.noticeDatum = k.noticeDatum)
      ∧ s.sameSetup t ∧ s.sameTowers t ∧ t.engine = s.engine ∧ t.loop = s.loop ∧ t.loader = s.loader := by
  obtain ⟨cov, flags⟩ := x.emptyLatch_effect
  obtain ⟨holder, -, -, mem, tcov, rest⟩ := State.offerChannel_freed (s := s) (y := x.emptyLatch) (by
    rw [x.emptyLatch_shape, hx]
    rfl)
  have hcov : x.coverage = c := by rw [hx]; rfl
  have hcontrol : x.control = k := by rw [hx]; rfl
  have hmem : x.mem = Memory.answer s.mem w ans := by rw [hx]; rfl
  rw [← ht] at holder mem tcov rest
  refine ⟨holder, by rw [mem]; simpa using hmem, by rw [tcov, ← hcov]; exact cov, fun i hi => ?_, ?_, rest⟩
  · have := flags i (by rw [hcontrol]; exact hi)
    rw [ht]
    simpa using this
  · rw [ht]
    simp [hcontrol]

/-- With no write waiting the latch is empty, and nothing else happens. -/
theorem State.foldEnded_alone {s x t : State} {w : PortWord} {ans : MemAnswer} {c : Coverage} {k : Control} {a : Access}
    {r : Response} (hx : x = s.foldEnded w ans c k a r) (ht : t = x.emptyLatch.offerChannel) (hc : c.waiting = []) :
    t.bus.get a.cls = none ∧ t.lastResponse.get a.cls = some r ∧ t.coverage.latch = none ∧ s.sameOthers a.cls t
      ∧ t.control.flags = k.flags ∧ t.control.capture = k.capture ∧ t.control.line = k.line
      ∧ t.control.noticePending = k.noticePending := by
  have alone : x.emptyLatch = { x with coverage := { x.coverage with latch := none } } :=
    State.emptyLatch_alone (by rw [hx]; exact hc)
  have bus : t.bus = s.bus.put a.cls none := by rw [ht, alone, hx]; simp [State.foldEnded, State.respond]
  have resp : t.lastResponse = s.lastResponse.put a.cls (some r) := by
    rw [ht, alone, hx]
    simp [State.foldEnded, State.respond]
  refine ⟨by rw [bus]; simp, by rw [resp]; simp, by rw [ht, alone]; simp, fun d hd => ?_, ?_, ?_, ?_, ?_⟩
  · rw [bus, resp]
    simp [hd]
  all_goals
    rw [ht, alone, hx]
    simp [State.foldEnded]

/-- Over accesses in order the answer lets in the writes that wait. -/
theorem State.foldEnded_taken {s x t : State} {w : PortWord} {ans : MemAnswer} {c : Coverage} {k : Control} {a : Access}
    {r : Response} (hx : x = s.foldEnded w ans c k a r) (ht : t = x.emptyLatch.offerChannel) (hok : s.accessesOk)
    (h : s.holdsPass a .foldWrite w) (hc : c.waiting = s.coverage.waiting) (hp : k.part = s.control.part) :
    t.bus.get a.cls = none ∧ t.lastResponse.get a.cls = some r ∧ s.waitersTaken c t := by
  obtain ⟨bus, resp, taken⟩ := State.emptyLatch_answered (x := x) (r := r) hok h.2 (by rw [hx]; rfl)
    (by rw [hx]; simp [State.foldEnded, State.respond]) (by rw [hx]; exact hc) (by rw [hx]; exact hp)
  have hcov : x.coverage = c := by rw [hx]; rfl
  rw [hcov] at taken
  refine ⟨by rw [ht]; simpa using bus, by rw [ht]; simpa using resp, ?_⟩
  rw [ht]
  exact State.waitersTaken_of_eq taken (by simp) (by simp) (by simp) (by simp)

theorem Coverage.failFold_waiting (c : Coverage) (f : Fold) :
    (if f.cleared then c else c.unfit f.bank f.tower : Coverage).waiting = c.waiting := by
  obtain ⟨⟨-, -, -, -, -, -, -, waiting⟩, -⟩ := Coverage.unfit_madeUnfit f.bank f.tower c
  split
  · rfl
  · exact waiting

/-- Settles O34: the answer by its cases, then who waits behind it, then the arithmetic of the sums. -/
theorem foldWriteIsAnswered : Obligations.FoldWriteIsAnswered := by
  unfold Obligations.FoldWriteIsAnswered
  refine ⟨fun s a w f old h hf hold hw => ⟨?_, fun l => ?_⟩, fun s a w f old h hf hold hok => ⟨?_, fun l => ?_⟩,
    foldSums_eq, sample_eq, fun c bk u => Coverage.unfit_madeUnfit bk u c⟩
  · obtain ⟨settled, -⟩ := State.settle_foldWrite h hf
    obtain ⟨holder, mem, cov, -, settings, setup, towers, engine, loop, loader⟩ := State.foldEnded_frame rfl settled
    obtain ⟨bus, resp, latch, others, flags, cap, line, notice⟩ := State.foldEnded_alone rfl settled
      ((Coverage.applyFold_waiting f _).trans hw)
    obtain ⟨frame, frames, state, active, range, geometry, cursor⟩ :=
      Coverage.oneFrame_of_eq (Coverage.applyFold_oneFrame (c := s.coverage) hold) cov
    exact ⟨_, rfl, holder, bus, resp, latch, mem, frame, frames, state, active, range, geometry, cursor, others, setup,
      towers, engine, loop, loader, settings, flags, cap, line, notice⟩
  · obtain ⟨-, settled⟩ := State.settle_foldWrite h hf
    obtain ⟨holder, mem, cov, -, -, setup, towers, engine, loop, loader⟩ := State.foldEnded_frame rfl (settled l)
    obtain ⟨bus, resp, latch, others, flags, cap, -, -⟩ := State.foldEnded_alone rfl (settled l)
      ((Coverage.failFold_waiting _ f).trans hw)
    obtain ⟨frame, frames, state, active, range, geometry, cursor⟩ :=
      Coverage.oneFrame_of_eq (s.coverage.failFold_oneFrame f) cov
    exact ⟨_, rfl, holder, bus, resp, latch, flags.trans (Control.raise_flags _ _), cap.trans (by simp), mem, frame,
      frames, state, active, range, geometry, cursor, others, setup, towers, engine, loop, loader⟩
  · obtain ⟨settled, -⟩ := State.settle_foldWrite h hf
    obtain ⟨holder, mem, cov, -, settings, setup, towers, engine, loop, loader⟩ := State.foldEnded_frame rfl settled
    obtain ⟨bus, resp, taken⟩ := State.foldEnded_taken rfl settled hok h (Coverage.applyFold_waiting f _) rfl
    have one := Coverage.applyFold_oneFrame (c := s.coverage) hold
    obtain ⟨appliedFrame, appliedFrames, appliedState, -, appliedRange, appliedGeometry, -⟩ := id one
    have fit : ∀ bk u, ((s.coverage.applyFold f).frame bk u).fit = (s.coverage.frame bk u).fit := by
      intro bk u
      by_cases hk : (bk, u) = (f.bank, f.tower)
      · cases hk
        rw [appliedFrame]
        split
        · rfl
        · exact foldSums_fit _ _ _ _
      · rw [appliedFrames bk u hk]
    obtain ⟨frame, frames, state, active, range, geometry, cursor⟩ := Coverage.oneFrame_of_eq one cov
    exact ⟨_, rfl, holder, bus, resp, State.waitersTaken_congr taken appliedRange.symm appliedGeometry.symm
      (fun bk => (appliedState bk).symm) (fun bk u => (fit bk u).symm), mem, frame, frames, state, active, range, geometry,
      cursor, setup, towers, engine, loop, loader, settings⟩
  · obtain ⟨-, settled⟩ := State.settle_foldWrite h hf
    obtain ⟨holder, mem, cov, flags, settings, setup, towers, engine, loop, loader⟩ :=
      State.foldEnded_frame rfl (settled l)
    obtain ⟨bus, resp, taken⟩ := State.foldEnded_taken rfl (settled l) hok h (Coverage.failFold_waiting _ f) (by simp)
    obtain ⟨frame, frames, state, active, range, geometry, cursor⟩ :=
      Coverage.oneFrame_of_eq (s.coverage.failFold_oneFrame f) cov
    exact ⟨_, rfl, holder, bus, resp, flags _ (State.raise_flag s .memoryFault), mem, taken, frame, frames, state, active,
      range, geometry, cursor, setup, towers, engine, loop, loader, by simpa [State.sameSettings] using settings⟩

end Sys2Proof.Machine
end

section
/-! PROOFS. The answer to a commit and the offers of SLOT_READs. -/

namespace Sys2Proof.Machine

/-! ### The offer of a SLOT_READ -/

theorem State.offerSlotRead_none {s : State}
    (h : s.loop.reading = true ∨ s.loop.readList = [] ∨ windowBase .measure s.windows = none) : s.offerSlotRead = s := by
  unfold State.offerSlotRead
  split
  · rfl
  · next hr =>
    rcases h with h | h | h
    · exact absurd h hr
    · rw [h]
    · rw [h]
      split
      · next e => cases e
      · rfl

theorem State.offerSlotRead_some {s : State} {i : Fin 16} {l : List (Fin 16)} {b : Nat} (hr : s.loop.reading = false)
    (hl : s.loop.readList = i :: l) (hw : windowBase .measure s.windows = some b) : s.offerSlotRead
      = ({ s with loop := { s.loop with reading := true } } : State).offer (.slotRead i (b + 128 * i.val)) := by
  unfold State.offerSlotRead
  rw [hr, hl, hw]
  rfl

/-- The offer changes the queue, and of the loop unit the note that a read is under way. -/
theorem State.offerSlotRead_shape (s : State) : s.offerSlotRead = { s with
    port := { s.port with queue := s.offerSlotRead.port.queue }
    loop := { s.loop with reading := s.offerSlotRead.loop.reading } } := by
  unfold State.offerSlotRead
  repeat' split
  all_goals rfl

/-- The control unit offers no SLOT_READ. -/
theorem State.slotRead_of_offerChannel {s : State} {h : Fin 16} {a : Nat}
    (hm : IReq.slotRead h a ∈ s.offerChannel.port.queue) : IReq.slotRead h a ∈ s.port.queue := by
  unfold State.offerChannel State.offerMirror State.offerOn State.offer at hm
  repeat' split at hm
  all_goals simpa using hm

/-! ### COMMIT_RESPONSE -/

/-- The slot enters the read list, ahead of the offer of its head (R145). -/
def State.listed (i : Fin 16) (s : State) : State :=
  { s with loop := { s.loop with readList := s.loop.readList ++ [i] } }

/-- What an event leaves that changes job memory, the press bus and the loop unit, frees the port and puts requests on its
queue, and is followed by the control unit's offer. -/
theorem State.offerChannel_committed {s y : State} (hy : y = { s with
      mem := y.mem, port := { s.port with holder := none, queue := y.port.queue }, bus := y.bus
      lastResponse := y.lastResponse, loop := y.loop }) :
    State.settle s y = y.offerChannel ∧ y.offerChannel.port.holder = none ∧ s.sameSetup y.offerChannel
      ∧ y.offerChannel.coverage = s.coverage ∧ s.sameTowers y.offerChannel ∧ y.offerChannel.engine = s.engine
      ∧ y.offerChannel.loader = s.loader ∧ s.sameSettings y.offerChannel ∧ s.sameEvents y.offerChannel := by
  have fields : y.pending = s.pending ∧ y.windows = s.windows ∧ y.curves = s.curves ∧ y.towers = s.towers
      ∧ y.timeout = s.timeout ∧ y.link = s.link ∧ y.levels = s.levels ∧ y.engine = s.engine ∧ y.coverage = s.coverage
      ∧ y.loader = s.loader ∧ y.control = s.control ∧ y.port.holder = none := by
    rw [hy]
    exact ⟨rfl, rfl, rfl, rfl, rfl, rfl, rfl, rfl, rfl, rfl, rfl, rfl⟩
  obtain ⟨pending, windows, curves, towers, timeout, link, levels, engine, coverage, loader, control, holder⟩ := fields
  refine ⟨State.settle_of_towers towers, y.samePort_offerChannel.1.trans holder, ⟨by simpa, by simpa, by simpa, by simpa, by simpa⟩,
    by simpa, ⟨by simpa, by simpa⟩, by simpa, by simpa, ?_, ?_⟩
  · refine ⟨?_, ?_, ?_, ?_, ?_⟩ <;> simp [control]
  · refine ⟨?_, ?_, ?_, ?_⟩ <;> simp [control]

/-- Settles O35: the slot joins the read list, whose head is offered when no read is under way. -/
theorem commitIsAnswered : Obligations.CommitIsAnswered := by
  unfold Obligations.CommitIsAnswered
  intro s a w i h
  refine ⟨?_, fun l => ?_⟩
  · generalize hx : ((s.memAnswered w .ok).respond a.cls .ok).listed i = x
    have loop : x.loop = { s.loop with readList := s.loop.readList ++ [i] } := by rw [← hx]; rfl
    have queue : x.port.queue = s.port.queue := by rw [← hx]; rfl
    have windows : x.windows = s.windows := by rw [← hx]; rfl
    obtain ⟨settled, holder, setup, coverage, towers, engine, loader, settings, events⟩ :=
      State.offerChannel_committed (s := s) (y := x.offerSlotRead) (by
        rw [x.offerSlotRead_shape, ← hx]
        rfl)
    have exec : State.settle s (s.answerPass .ok) = x.offerSlotRead.offerChannel := by
      rw [← settled, State.answerPass_eq h, ← hx]
      rfl
    have bus : x.offerSlotRead.offerChannel.bus = s.bus.put a.cls none := by
      simp
      rw [← hx]
      rfl
    have resp : x.offerSlotRead.offerChannel.lastResponse = s.lastResponse.put a.cls (some .ok) := by
      simp
      rw [← hx]
      rfl
    refine ⟨_, congrArg Host.Outcome.next exec, holder, by rw [bus]; simp, by rw [resp]; simp, ?_, ?_, ?_, fun quiet => ?_,
      fun base h l hr hw hl => ?_, fun d hd => by rw [bus, resp]; simp [hd], setup, coverage, towers, engine, loader, settings,
      events⟩
    · rw [(State.offerChannel_keeps _).2.2.2.2.2.2.2.2.2.2.2.2.1, x.offerSlotRead_shape, loop]
    · rw [(State.offerChannel_keeps _).2.2.2.2.2.2.2.2.2.2.2.2.1, x.offerSlotRead_shape, loop]
    · simp only [State.offerChannel_keeps, State.offerSlotRead_keeps, ← hx]
      rfl
    · have none : x.offerSlotRead = x := by
        refine State.offerSlotRead_none (quiet.imp (fun hr => ?_) fun hw => Or.inr ?_)
        · rw [loop]
          exact hr
        · rw [windows, hw]
      rw [none]
      refine ⟨by simp [loop], fun h adr hm => ?_⟩
      have := State.slotRead_of_offerChannel hm
      rwa [queue] at this
    · have offered := State.offerSlotRead_some (s := x) (by rw [loop]; exact hr) (by rw [loop]; exact hl)
        (by rw [windows]; exact hw)
      refine ⟨by simp [offered], ?_⟩
      have := x.offerSlotRead.samePort_offerChannel.2.2.2.2
      rw [offered, State.offer_port .. |>.2.2.2.2] at this
      rw [offered]
      rwa [← queue]
  · generalize hx : ((s.memAnswered w (.error l)).respond a.cls .busError).setSlot i .free = x
    obtain ⟨settled, holder, setup, coverage, towers, engine, loader, settings, events⟩ :=
      State.offerChannel_committed (s := s) (y := x) (by rw [← hx]; rfl)
    have exec : State.settle s (s.answerPass (.error l)) = x.offerChannel := by
      rw [← settled, State.answerPass_eq h, ← hx]
      rfl
    have bus : x.offerChannel.bus = s.bus.put a.cls none := by
      simp
      rw [← hx]
      rfl
    have resp : x.offerChannel.lastResponse = s.lastResponse.put a.cls (some .busError) := by
      simp
      rw [← hx]
      rfl
    refine ⟨_, congrArg Host.Outcome.next exec, holder, by rw [bus]; simp, by rw [resp]; simp, ?_, ?_,
      fun d hd => by rw [bus, resp]; simp [hd], setup, coverage, towers, engine, loader, settings, events⟩
    · rw [← hx, State.offerChannel_keeps .. |>.2.2.2.2.2.2.2.2.2.2.2.2.1]
      rfl
    · simp only [State.offerChannel_keeps, ← hx]
      rfl

end Sys2Proof.Machine
end

section
/-! PROOFS. The answer to an answer write, and the datum of a control word. -/

namespace Sys2Proof.Machine

/-! ### ANSWER_WRITE_RESPONSE -/

/-- An answer that reports its word changes of the control unit the mirror set alone. -/
theorem State.answerWrite_responded {s : State} {a : Access} {w : PortWord} {v : CtlWord} {r : Result} {i : Byte}
    (h : s.holdsPass a (.answer v r i) w) (ans : MemAnswer) :
    ∃ t, exec (.answerWriteResponse ans) s = .next t ∧ t.port.holder = none ∧ t.bus.get a.cls = none
      ∧ t.lastResponse.get a.cls = some (if ans = .ok then .ok else .busError)
      ∧ t.mem = Memory.answer s.mem w ans
      ∧ (ans ≠ .ok → s.control.part = .running → t.control.mirror.getLsbD v.val = true)
      ∧ (ans = .ok → t.control.mirror = s.control.mirror)
      ∧ s.sameOthers a.cls t ∧ s.sameSetup t ∧ s.sameBlocks t ∧ s.sameSettings t ∧ s.sameEvents t := by
  generalize hx : ((s.memAnswered w ans).respond a.cls (writeResponse (answeredOk ans))).reportIf (!answeredOk ans) v = x
  have exec : State.settle s (s.answerPass ans) = x.offerChannel := by
    rw [State.settle_answerPass h, ← hx]
    rfl
  have bus : x.bus = s.bus.put a.cls none := by rw [← hx]; rfl
  have resp : x.lastResponse = s.lastResponse.put a.cls (some (writeResponse (answeredOk ans))) := by rw [← hx]; rfl
  have control : x.control = if !answeredOk ans then s.control.report v else s.control := by rw [← hx]; rfl
  have reported : (s.control.report v) = { s.control with mirror := (s.control.report v).mirror } := by
    unfold Control.report
    split <;> rfl
  have kept : x.control = { s.control with mirror := x.control.mirror } := by
    rw [control]
    split
    · exact reported
    · rfl
  have fields : x.pending = s.pending ∧ x.mem = Memory.answer s.mem w ans ∧ x.windows = s.windows ∧ x.curves = s.curves
      ∧ x.towers = s.towers ∧ x.timeout = s.timeout ∧ x.link = s.link ∧ x.levels = s.levels ∧ x.engine = s.engine
      ∧ x.coverage = s.coverage ∧ x.loop = s.loop ∧ x.loader = s.loader ∧ x.port.holder = none := by
    rw [← hx]
    exact ⟨rfl, rfl, rfl, rfl, rfl, rfl, rfl, rfl, rfl, rfl, rfl, rfl, rfl⟩
  obtain ⟨pending, mem, windows, curves, towers, timeout, link, levels, engine, coverage, loop, loader, holder⟩ := fields
  refine ⟨_, congrArg Host.Outcome.next exec, x.samePort_offerChannel.1.trans holder, by simp [bus], ?_, by simpa,
    fun bad run => ?_, fun good => ?_, fun d hd => by simp [bus, resp, hd],
    ⟨by simpa, by simpa, by simpa, by simpa, by simpa⟩, ⟨by simpa, ⟨by simpa, by simpa⟩, by simpa, by simpa, by simpa⟩, ?_, ?_⟩
  · cases ans <;> simp [resp, writeResponse, answeredOk]
  · have ok : answeredOk ans = false := by
      cases ans with
      | ok => exact absurd rfl bad
      | error l => rfl
    rw [State.offerChannel_control .. |>.2.2.2.2.2.2.2.2.2.1, control, ok, Bool.not_false, if_pos rfl,
      Control.report_mirror]
    simp [run]
  · rw [State.offerChannel_control .. |>.2.2.2.2.2.2.2.2.2.1, control, good]
    rfl
  · rw [State.sameSettings]
    simp only [State.offerChannel_control]
    rw [kept]
    exact ⟨rfl, rfl, rfl, rfl, rfl⟩
  · rw [State.sameEvents]
    simp only [State.offerChannel_control]
    rw [kept]
    exact ⟨rfl, rfl, rfl, rfl⟩

/-! ### The value of a control word -/

/-- The number that the datum of a control word shows (12.2). -/
def State.wordValue (s : State) (w : CtlWord) (r : Result) (index : Byte) : Nat :=
  (if carriesResult w then field 0 3 (resultCode r) else 0)
    + (if w = wordStart then field 8 8 index.toNat else 0) + s.wordFields w

theorem State.wordDatum_eq (s : State) (w : CtlWord) (r : Result) (index : Byte) :
    s.wordDatum w r index = BitVec.ofNat 32 (s.wordValue w r index) := rfl

theorem toNat_extract_ofNat (n bit len : Nat) (h : bit + len ≤ 32) :
    ((BitVec.ofNat 32 n).extractLsb' bit len).toNat = n / 2 ^ bit % 2 ^ len := by
  have split32 : 2 ^ 32 = 2 ^ bit * 2 ^ (32 - bit) := by rw [← Nat.pow_add, Nat.add_sub_cancel' (by omega)]
  rw [BitVec.extractLsb'_toNat, BitVec.toNat_ofNat, Nat.shiftRight_eq_div_pow, split32, Nat.mod_mul_right_div_self,
    Nat.mod_mod_of_dvd _ (Nat.pow_dvd_pow 2 (by omega))]

theorem resultCode_lt (r : Result) : resultCode r < 8 := by cases r <;> decide

theorem engineCode_lt (e : EngineState) : engineCode e < 4 := by cases e <;> decide

theorem bankCode_lt (b : BankState) : bankCode b < 4 := by cases b <;> decide

theorem partCode_lt (p : PartState) : partCode p < 4 := by cases p <;> decide

theorem classCode_lt (c : MasterClass) : classCode c < 4 := by cases c <;> decide

theorem dropCode_lt (d : DropReason) : dropCode d < 8 := by cases d <;> decide

theorem serviceCode_lt (v : Service) : serviceCode v < 8 := by cases v <;> decide

theorem loopCode_lt (l : LoopState) : loopCode l < 4 := by cases l <;> decide

section
variable (s : State) (r : Result) (i : Byte)

theorem State.wordValue_start : s.wordValue 0 r i
    = field 0 3 (resultCode r) + field 8 8 i.toNat + field 16 2 (engineCode s.engine.state) := rfl

theorem State.wordValue_stop : s.wordValue 1 r i = field 0 3 (resultCode r) := rfl

theorem State.wordValue_event : s.wordValue 2 r i = s.control.flags.toNat := Nat.zero_add _

theorem State.wordValue_enable : s.wordValue 3 r i = s.control.enables.toNat := Nat.zero_add _

theorem State.wordValue_bank : s.wordValue 4 r i = field 0 3 (resultCode r) + s.coverage.wordFields := rfl

theorem State.wordValue_partStatus : s.wordValue 5 r i
    = field 0 2 (partCode s.control.part) + field 2 2 (engineCode s.engine.state) + s.configuredFields := Nat.zero_add _

theorem State.wordValue_refusal : s.wordValue 6 r i = s.control.capture.wordFields := Nat.zero_add _

theorem State.wordValue_measure : s.wordValue 7 r i = field 0 3 (resultCode r) + s.loop.status.wordFields := rfl

theorem State.wordValue_engine : s.wordValue 13 r i = s.engine.wordFields := Nat.zero_add _

theorem State.wordValue_reload : s.wordValue 14 r i
    = field 0 3 (resultCode r) + field 8 2 (partCode s.control.part) := rfl

theorem State.wordValue_bind (k : Source) : s.wordValue (wordBind k) r i
    = field 0 3 (resultCode r) + s.engine.bindFields k := by
  cases k <;> rfl

theorem State.wordValue_tower (u : Tower) : s.wordValue (wordTower u) r i
    = field 0 3 (resultCode r) + s.towers[u].wordFields := by
  have carries : ∀ u : Tower, carriesResult (wordTower u) = true ∧ wordTower u ≠ wordStart := by decide
  unfold State.wordValue State.wordFields
  rw [wordTowerOf_tower, if_pos (carries u).1, if_neg (carries u).2]
  rfl

end

theorem bit_le (b : Bool) : bit b ≤ 1 := by cases b <;> decide

/-- The number whose binary digits are given, the lowest first. -/
def digitSum {n : Nat} (b : Fin n → Nat) : Nat := ((List.finRange n).map (fun t => b t * 2 ^ t.val)).sum

theorem sum_map_mul {α : Type} (k : Nat) (f : α → Nat) (l : List α) :
    (l.map (fun x => k * f x)).sum = k * (l.map f).sum := by
  induction l with
  | nil => rfl
  | cons x l ih => rw [List.map_cons, List.map_cons, List.sum_cons, List.sum_cons, ih, Nat.mul_add]

theorem digitSum_succ {n : Nat} (b : Fin (n + 1) → Nat) : digitSum b = b 0 + 2 * digitSum (fun t => b t.succ) := by
  unfold digitSum
  rw [List.finRange_succ, List.map_cons, List.sum_cons, List.map_map, ← sum_map_mul]
  congr 2
  · exact Nat.mul_one _
  · exact List.map_congr_left fun t _ => by
      show b t.succ * 2 ^ (t.val + 1) = 2 * (b t.succ * 2 ^ t.val)
      rw [Nat.pow_succ, ← Nat.mul_assoc, Nat.mul_comm]

theorem digitSum_digit {n : Nat} (b : Fin n → Nat) (h : ∀ u, b u ≤ 1) :
    digitSum b < 2 ^ n ∧ ∀ u : Fin n, digitSum b / 2 ^ u.val % 2 = b u := by
  induction n with
  | zero => exact ⟨Nat.one_pos, fun u => u.elim0⟩
  | succ n ih =>
    obtain ⟨lt, digit⟩ := ih (fun t => b t.succ) fun u => h u.succ
    have low := h 0
    rw [digitSum_succ]
    refine ⟨by rw [Nat.pow_succ]; omega, fun u => ?_⟩
    cases u using Fin.cases with
    | zero => simp only [Fin.val_zero, Nat.pow_zero, Nat.div_one]; omega
    | succ v =>
      have halved : (b 0 + 2 * digitSum fun t => b t.succ) / 2 = digitSum fun t => b t.succ := by omega
      rw [Fin.val_succ, Nat.pow_succ', ← Nat.div_div_eq_div_mul, halved, digit]

/-- The configured towers take twelve bits from bit 16 on, a bit for each tower. -/
theorem State.configuredFields_eq (s : State) :
    s.configuredFields = 2 ^ 16 * digitSum (fun u : Tower => bit s.towers[u].configured) := by
  unfold State.configuredFields digitSum
  rw [← sum_map_mul]
  refine congrArg List.sum (List.map_congr_left fun t _ => ?_)
  rw [field, Nat.pow_one, Nat.mod_eq_of_lt (Nat.lt_succ_of_le (bit_le _)), Nat.pow_add, Nat.mul_left_comm]

theorem TowerState.unknownCount_eq (tw : TowerState) : tw.unknownCount
    = ((List.finRange 49).filter (fun sl => tw.present sl && (tw.recs[sl]).commanded.isNone)).length := by
  unfold TowerState.unknownCount TowerState.slots allSlots allFin
  rw [List.filter_filter]
  simp only [Bool.and_comm]

theorem TowerState.faultCount_eq (tw : TowerState) : tw.faultCount
    = ((List.finRange 49).filter (fun sl => tw.present sl && decide ((tw.recs[sl]).move = .fault))).length := by
  unfold TowerState.faultCount TowerState.slots allSlots allFin
  rw [List.filter_filter]
  simp only [Bool.and_comm]

theorem bit_eq (b : Bool) : bit b = if b then 1 else 0 := rfl

theorem wordTower_val (u : Tower) : (wordTower u).val = 16 + u.val := rfl

/-! ### The fields of each word -/

/-- A field of a number, by its first bit and its length. -/
def fieldAt (n bit len : Nat) : Nat := n / 2 ^ bit % 2 ^ len

theorem State.wordDatum_field (s : State) (v : CtlWord) (r : Result) (i : Byte) {bit len : Nat} (h : bit + len ≤ 32) :
    ((s.wordDatum v r i).extractLsb' bit len).toNat = fieldAt (s.wordValue v r i) bit len :=
  toNat_extract_ofNat _ _ _ h

section
variable (s : State) (r : Result) (i : Byte)

theorem State.start_fields : fieldAt (s.wordValue 0 r i) 0 3 = resultCode r ∧ fieldAt (s.wordValue 0 r i) 3 5 = 0
    ∧ fieldAt (s.wordValue 0 r i) 8 8 = i.toNat ∧ fieldAt (s.wordValue 0 r i) 16 2 = engineCode s.engine.state
    ∧ fieldAt (s.wordValue 0 r i) 18 14 = 0 := by
  have hr := resultCode_lt r
  have he := engineCode_lt s.engine.state
  have hi := i.isLt
  simp only [State.wordValue_start, fieldAt, field]
  refine ⟨?_, ?_, ?_, ?_, ?_⟩ <;> omega

theorem State.stop_fields : fieldAt (s.wordValue 1 r i) 0 3 = resultCode r ∧ fieldAt (s.wordValue 1 r i) 3 29 = 0 := by
  have hr := resultCode_lt r
  simp only [State.wordValue_stop, fieldAt, field]
  refine ⟨?_, ?_⟩ <;> omega

theorem State.event_fields : fieldAt (s.wordValue 2 r i) 0 14 = s.control.flags.toNat
    ∧ fieldAt (s.wordValue 2 r i) 14 18 = 0 := by
  have hf := s.control.flags.isLt
  simp only [State.wordValue_event, fieldAt]
  refine ⟨?_, ?_⟩ <;> omega

theorem State.enable_fields : fieldAt (s.wordValue 3 r i) 0 14 = s.control.enables.toNat
    ∧ fieldAt (s.wordValue 3 r i) 14 18 = 0 := by
  have hf := s.control.enables.isLt
  simp only [State.wordValue_enable, fieldAt]
  refine ⟨?_, ?_⟩ <;> omega

theorem State.bank_fields : fieldAt (s.wordValue 4 r i) 0 3 = resultCode r ∧ fieldAt (s.wordValue 4 r i) 3 5 = 0
    ∧ fieldAt (s.wordValue 4 r i) 8 2 = bankCode s.coverage.banks.a.state
    ∧ fieldAt (s.wordValue 4 r i) 10 2 = bankCode s.coverage.banks.b.state
    ∧ fieldAt (s.wordValue 4 r i) 12 1 = (if s.coverage.active = .a then 0 else 1)
    ∧ fieldAt (s.wordValue 4 r i) 13 19 = 0 := by
  have hr := resultCode_lt r
  have ha := bankCode_lt s.coverage.banks.a.state
  have hb := bankCode_lt s.coverage.banks.b.state
  have hs : bankSelector s.coverage.active = if s.coverage.active = .a then 0 else 1 := by
    cases s.coverage.active <;> rfl
  have hs2 : bankSelector s.coverage.active < 2 := by cases s.coverage.active <;> decide
  simp only [State.wordValue_bank, Coverage.wordFields, fieldAt, field, ← hs]
  refine ⟨?_, ?_, ?_, ?_, ?_, ?_⟩ <;> omega

theorem State.partStatus_fields : fieldAt (s.wordValue 5 r i) 0 2 = partCode s.control.part
    ∧ fieldAt (s.wordValue 5 r i) 2 2 = engineCode s.engine.state ∧ fieldAt (s.wordValue 5 r i) 4 12 = 0
    ∧ (∀ u : Tower, fieldAt (s.wordValue 5 r i) (16 + u.val) 1
      = if s.towers[u].service = .unconfigured then 0 else 1)
    ∧ fieldAt (s.wordValue 5 r i) 28 4 = 0 := by
  obtain ⟨hd, digit⟩ := digitSum_digit (fun u : Tower => bit s.towers[u].configured) fun u => bit_le _
  have hp := partCode_lt s.control.part
  have he := engineCode_lt s.engine.state
  simp only [State.wordValue_partStatus, State.configuredFields_eq, fieldAt, field]
  refine ⟨by omega, by omega, by omega, fun u => ?_, by omega⟩
  have high : (partCode s.control.part % 2 ^ 2 * 2 ^ 0 + engineCode s.engine.state % 2 ^ 2 * 2 ^ 2
      + 2 ^ 16 * digitSum fun u : Tower => bit s.towers[u].configured) / 2 ^ 16
      = digitSum fun u : Tower => bit s.towers[u].configured := by omega
  rw [Nat.pow_add, ← Nat.div_div_eq_div_mul, high, Nat.pow_one, digit]
  unfold TowerState.configured bit
  by_cases h : s.towers[u].service = .unconfigured <;> simp [h]

theorem State.refusal_fields : fieldAt (s.wordValue 6 r i) 0 28 = s.control.capture.addr.toNat
    ∧ fieldAt (s.wordValue 6 r i) 28 2 = classCode s.control.capture.cls ∧ fieldAt (s.wordValue 6 r i) 30 1 = 0
    ∧ fieldAt (s.wordValue 6 r i) 31 1 = if s.control.capture.valid then 1 else 0 := by
  have hc := classCode_lt s.control.capture.cls
  have ha := s.control.capture.addr.isLt
  have hv := bit_le s.control.capture.valid
  simp only [State.wordValue_refusal, Capture.wordFields, fieldAt, field, ← bit_eq]
  refine ⟨?_, ?_, ?_, ?_⟩ <;> omega

theorem dropTowerField_lt (o : Option Byte) : dropTowerField o < 16 := by
  unfold dropTowerField
  repeat' split
  all_goals omega

theorem appliedTowerField_lt (o : Option Tower) : appliedTowerField o < 16 := by
  unfold appliedTowerField
  split <;> omega

theorem dropTowerField_some (x : Byte) : dropTowerField (some x) = min x.toNat 12 := by
  show (if x.toNat < 12 then x.toNat else 12) = _
  split <;> omega

theorem State.measure_fields (hr : r = .accepted) : fieldAt (s.wordValue 7 r i) 0 1 = 0
    ∧ fieldAt (s.wordValue 7 r i) 1 3 = dropCode s.loop.status.reason
    ∧ fieldAt (s.wordValue 7 r i) 4 4 = s.loop.status.slot.val
    ∧ fieldAt (s.wordValue 7 r i) 8 4 = dropTowerField s.loop.status.dropTower
    ∧ fieldAt (s.wordValue 7 r i) 12 4 = appliedTowerField s.loop.status.applied
    ∧ fieldAt (s.wordValue 7 r i) 16 16 = s.loop.status.sheetTag.toNat := by
  have hc := dropCode_lt s.loop.status.reason
  have hs := s.loop.status.slot.isLt
  have ht := s.loop.status.sheetTag.isLt
  have hd := dropTowerField_lt s.loop.status.dropTower
  have ha := appliedTowerField_lt s.loop.status.applied
  have hz : resultCode r = 0 := by rw [hr]; rfl
  simp only [State.wordValue_measure, MeasureStatus.wordFields, fieldAt, field, hz]
  refine ⟨?_, ?_, ?_, ?_, ?_, ?_⟩ <;> omega

theorem State.bind_fields (k : Source) : fieldAt (s.wordValue (wordBind k) r i) 0 3 = resultCode r
    ∧ fieldAt (s.wordValue (wordBind k) r i) 3 1 = (if (s.engine.bindings.get k).armed then 1 else 0)
    ∧ fieldAt (s.wordValue (wordBind k) r i) 4 1 = (if (s.engine.bindings.get k).pending then 1 else 0)
    ∧ fieldAt (s.wordValue (wordBind k) r i) 5 3 = 0
    ∧ fieldAt (s.wordValue (wordBind k) r i) 8 6 = (s.engine.bindings.get k).index % 64
    ∧ fieldAt (s.wordValue (wordBind k) r i) 14 2 = 0
    ∧ fieldAt (s.wordValue (wordBind k) r i) 16 8 = (if k = .sheet then s.engine.divisor % 256 else 0)
    ∧ fieldAt (s.wordValue (wordBind k) r i) 24 8 = 0 := by
  have hr := resultCode_lt r
  have ha := bit_le (s.engine.bindings.get k).armed
  have hp := bit_le (s.engine.bindings.get k).pending
  have hd : (if k = .sheet then field 16 8 s.engine.divisor else 0)
      = (if k = .sheet then s.engine.divisor % 256 else 0) * 2 ^ 16 := by
    split
    · rfl
    · exact (Nat.zero_mul _).symm
  have hb : (if k = .sheet then s.engine.divisor % 256 else 0) < 256 := by split <;> omega
  simp only [State.wordValue_bind, Engine.bindFields, fieldAt, hd, ← bit_eq]
  generalize (if k = .sheet then s.engine.divisor % 256 else 0) = divisor at *
  generalize (s.engine.bindings.get k).index = index at *
  simp only [field]
  refine ⟨?_, ?_, ?_, ?_, ?_, ?_, ?_, ?_⟩ <;> omega

theorem State.engine_fields : fieldAt (s.wordValue 13 r i) 0 6 = s.engine.head % 64
    ∧ fieldAt (s.wordValue 13 r i) 6 6 = s.engine.current % 64 ∧ fieldAt (s.wordValue 13 r i) 12 7 = s.engine.visited % 128
    ∧ fieldAt (s.wordValue 13 r i) 19 1 = (if s.engine.bindings.sheet.pending then 1 else 0)
    ∧ fieldAt (s.wordValue 13 r i) 20 1 = (if s.engine.bindings.jobchg.pending then 1 else 0)
    ∧ fieldAt (s.wordValue 13 r i) 21 1 = (if s.engine.bindings.imprOn.pending then 1 else 0)
    ∧ fieldAt (s.wordValue 13 r i) 22 1 = (if s.engine.bindings.imprOff.pending then 1 else 0)
    ∧ fieldAt (s.wordValue 13 r i) 23 1 = (if s.engine.bindings.measure.pending then 1 else 0)
    ∧ fieldAt (s.wordValue 13 r i) 24 1 = (if s.engine.slot = none then 0 else 1)
    ∧ fieldAt (s.wordValue 13 r i) 25 6 = (s.engine.slot.getD 0) % 64 ∧ fieldAt (s.wordValue 13 r i) 31 1 = 0 := by
  have h1 := bit_le s.engine.bindings.sheet.pending
  have h2 := bit_le s.engine.bindings.jobchg.pending
  have h3 := bit_le s.engine.bindings.imprOn.pending
  have h4 := bit_le s.engine.bindings.imprOff.pending
  have h5 := bit_le s.engine.bindings.measure.pending
  have h6 := bit_le s.engine.slot.isSome
  have hs : (if s.engine.slot = none then 0 else 1) = bit s.engine.slot.isSome := by
    cases s.engine.slot <;> rfl
  simp only [State.wordValue_engine, Engine.wordFields, hs, ← bit_eq]
  generalize s.engine.slot.getD 0 = waiting at *
  generalize bit s.engine.bindings.sheet.pending = b1 at *
  generalize bit s.engine.bindings.jobchg.pending = b2 at *
  generalize bit s.engine.bindings.imprOn.pending = b3 at *
  generalize bit s.engine.bindings.imprOff.pending = b4 at *
  generalize bit s.engine.bindings.measure.pending = b5 at *
  generalize bit s.engine.slot.isSome = b6 at *
  simp only [fieldAt, field]
  refine ⟨?_, ?_, ?_, ?_, ?_, ?_, ?_, ?_, ?_, ?_, ?_⟩ <;> omega

theorem State.reload_fields : fieldAt (s.wordValue 14 r i) 0 3 = resultCode r ∧ fieldAt (s.wordValue 14 r i) 3 5 = 0
    ∧ fieldAt (s.wordValue 14 r i) 8 2 = partCode s.control.part ∧ fieldAt (s.wordValue 14 r i) 10 22 = 0 := by
  have hr := resultCode_lt r
  have hp := partCode_lt s.control.part
  simp only [State.wordValue_reload, fieldAt, field]
  refine ⟨?_, ?_, ?_, ?_⟩ <;> omega

theorem State.tower_fields (u : Tower) : fieldAt (s.wordValue (wordTower u) r i) 0 3 = resultCode r
    ∧ fieldAt (s.wordValue (wordTower u) r i) 3 3 = serviceCode s.towers[u].service
    ∧ fieldAt (s.wordValue (wordTower u) r i) 6 2 = loopCode s.towers[u].loop
    ∧ fieldAt (s.wordValue (wordTower u) r i) 8 3 = s.towers[u].flight.length % 8
    ∧ fieldAt (s.wordValue (wordTower u) r i) 11 6 = s.towers[u].queue.length % 64
    ∧ fieldAt (s.wordValue (wordTower u) r i) 17 6 = s.towers[u].unknownCount % 64
    ∧ fieldAt (s.wordValue (wordTower u) r i) 23 6 = s.towers[u].faultCount % 64
    ∧ fieldAt (s.wordValue (wordTower u) r i) 29 3 = 0 := by
  have hr := resultCode_lt r
  have hs := serviceCode_lt s.towers[u].service
  have hl := loopCode_lt s.towers[u].loop
  rw [State.wordValue_tower]
  generalize s.towers[u] = tw at *
  simp only [TowerState.wordFields, fieldAt, field]
  refine ⟨?_, ?_, ?_, ?_, ?_, ?_, ?_, ?_⟩ <;> omega

end

/-- Settles O36: the answer's bookkeeping, and the fields of each word read off its value. -/
theorem answerWriteIsAnswered : Obligations.AnswerWriteIsAnswered := by
  unfold Obligations.AnswerWriteIsAnswered
  refine ⟨fun s a w v r i ans h => State.answerWrite_responded h ans, fun s r i f hf => ?_,
    ⟨rfl, wordTower_val⟩, ⟨rfl, rfl, rfl, rfl, rfl, rfl, rfl, rfl⟩, rfl, fun s t v r i h => ?_⟩
  · have part : ∀ v bit len, bit + len ≤ 32 → f v bit len = fieldAt (s.wordValue v r i) bit len :=
      fun v bit len h => (hf v bit len).trans (s.wordDatum_field v r i h)
    simp only [part, Nat.reduceAdd, Nat.reduceLeDiff]
    refine ⟨s.start_fields r i, s.stop_fields r i, s.event_fields r i, s.enable_fields r i, s.bank_fields r i, ?_,
      s.refusal_fields r i, fun hr => ?_, s.bind_fields r i, s.engine_fields r i, s.reload_fields r i, fun u => ?_⟩
    · obtain ⟨code, engine, zero, towers, last⟩ := s.partStatus_fields r i
      refine ⟨code, engine, zero, fun u => ?_, last⟩
      rw [part _ _ _ (by omega)]
      exact towers u
    · obtain ⟨low, why, slot, dropped, applied, tag⟩ := s.measure_fields r i hr
      refine ⟨low, why, slot, dropped.trans ?_, applied.trans ?_, tag⟩
      · split
        · next e => rw [e]; rfl
        · next x e => rw [e, dropTowerField_some]
      · split
        · next e => rw [e]; rfl
        · next u e => rw [e]; rfl
    · rw [← TowerState.unknownCount_eq, ← TowerState.faultCount_eq]
      exact s.tower_fields r i u
  · unfold State.wordDatum
    rw [h]

end Sys2Proof.Machine
end

section
/-! PROOFS. The step of the correction; the completions of internal requests, and the clear cursor. -/

namespace Sys2Proof.Machine

/-- Settles O38, by the three ways a key's record may go. -/
theorem correctionStep : Obligations.CorrectionStep := by
  unfold Obligations.CorrectionStep
  intro ls c d old
  have noValue : Config.noValue = 65535 := rfl
  refine ⟨fun h => ?_, fun hd hc hb => ?_, fun hd hc hb => ?_⟩
  · rw [corrected, if_pos (noValue ▸ h)]
  · rw [corrected, if_neg (by rw [noValue]; omega), if_pos hb]
  · have stepped : corrected ls c d old = max (-(ls.limit : Int)) (min ls.limit
        (old + max (-(ls.step : Int)) (min ls.step ((((ls.target : Int) - d) * ls.gain).tdiv 1000)))) := by
      rw [corrected, if_neg (by rw [noValue]; omega), if_neg (by omega), loopStep, clampInt_eq _ (by omega),
        clampInt_eq _ (by omega)]
    rw [stepped]
    exact ⟨rfl, by omega, by omega⟩

/-! ### Completions -/

/-- A request that holds the port and is not discarded completes: its unit takes the completion. -/
theorem State.complete_eq {s : State} {r : IReq} {ws : List PortWord} (h : s.holdsRequest r ws) {due : IReq → Bool}
    (hd : due r = true) (anss : List MemAnswer) (k : IReq → List PortWord → State → State) :
    s.complete due anss k = k r ws (s.completed ws anss false) := by
  have h : s.port.holder = some (.internal r ws false) := h
  simp [State.complete, h, hd]

/-- The answers are taken: memory, the port, and a flag when one of them is an error (R2, R19). -/
theorem State.completed_ok (s : State) (ws : List PortWord) {anss : List MemAnswer} (h : ∀ x ∈ anss, x = .ok) :
    s.completed ws anss false = { s with mem := Memory.answers s.mem ws anss, port := { s.port with holder := none } } := by
  have none : (anss.any fun x => !answeredOk x) = false :=
    List.any_eq_false.2 fun x hx => by
      rw [h x hx]
      decide
  simp only [State.completed, none]
  rfl

theorem State.completed_error (s : State) (ws : List PortWord) {anss : List MemAnswer} (h : ∃ x ∈ anss, x ≠ .ok) :
    s.completed ws anss false = ({ s with
      mem := Memory.answers s.mem ws anss, port := { s.port with holder := none } } : State).raise .memoryFault := by
  obtain ⟨x, hx, bad⟩ := h
  have some : (anss.any fun x => !answeredOk x) = true := List.any_eq_true.2 ⟨x, hx, by
    cases x with
    | ok => exact absurd rfl bad
    | error l => rfl⟩
  simp only [State.completed, some]
  rfl

/-- What an event leaves as it was that does not touch the set-up, the towers, the link and the loader: it is followed by
the control unit's offer alone. -/
theorem State.settle_towersKept {s y : State} (hy : y = { s with
      mem := y.mem, lastResponse := y.lastResponse, bus := y.bus, port := y.port, coverage := y.coverage
      engine := y.engine, loop := y.loop, control := y.control }) :
    State.settle s y = y.offerChannel ∧ s.sameSetup y.offerChannel ∧ s.sameTowers y.offerChannel
      ∧ y.offerChannel.loader = s.loader := by
  have fields : y.pending = s.pending ∧ y.windows = s.windows ∧ y.curves = s.curves ∧ y.towers = s.towers
      ∧ y.timeout = s.timeout ∧ y.link = s.link ∧ y.levels = s.levels ∧ y.loader = s.loader := by
    rw [hy]
    exact ⟨rfl, rfl, rfl, rfl, rfl, rfl, rfl, rfl⟩
  obtain ⟨pending, windows, curves, towers, timeout, link, levels, loader⟩ := fields
  exact ⟨State.settle_of_towers towers, ⟨by simpa, by simpa, by simpa, by simpa, by simpa⟩, ⟨by simpa, by simpa⟩, by simpa⟩

theorem State.offerChannel_holder (s : State) : s.offerChannel.port.holder = s.port.holder :=
  s.samePort_offerChannel.1

/-- What is offered at the queue's tail is in front of what the control unit offers. -/
theorem State.offer_prefix (s : State) (r : IReq) : s.port.queue ++ [r] <+: (s.offer r).offerChannel.port.queue :=
  (s.offer r).samePort_offerChannel.2.2.2.2

/-! ### The clear cursor -/

theorem State.offerClear_some {s : State} {c : Cursor} {a : Nat} (h : planAddr c.plan c.word = some a) : s.offerClear c
    = ({ s with coverage := { s.coverage with cursor := some { c with started := true } } } : State).offer
      (.clearWrite a) := by
  simp only [State.offerClear, h]

theorem State.firstClear_offers {s : State} {c : Cursor} (hc : s.coverage.cursor = some c) (hs : c.started = false)
    (hl : ∀ f, s.coverage.latch = some f → f.bank ≠ c.bank) : s.firstClear = s.offerClear c := by
  have none : (s.coverage.latch.any fun f => decide (f.bank = c.bank)) = false := by
    cases h : s.coverage.latch with
    | none => rfl
    | some f => exact decide_eq_false (hl f h)
  simp [State.firstClear, hc, hs, none]

theorem State.firstClear_waits {s : State} {c : Cursor} {f : Fold} (hc : s.coverage.cursor = some c)
    (hf : s.coverage.latch = some f) (hb : f.bank = c.bank) : s.firstClear = s := by
  simp [State.firstClear, hc, hf, hb]

/-- A bank's state is set: its frames, the other bank and all else of the coverage unit stay. -/
theorem Coverage.endClear_spec (bk : BankId) (st : BankState) (c : Coverage) : (c.endClear bk st).cursor = none
    ∧ ((c.endClear bk st).banks.get bk).state = st
    ∧ ((c.endClear bk st).banks.get bk).frames = (c.banks.get bk).frames
    ∧ (c.endClear bk st).banks.get (otherBank bk) = c.banks.get (otherBank bk)
    ∧ (c.endClear bk st).latch = c.latch ∧ (c.endClear bk st).active = c.active
    ∧ (c.endClear bk st).geometry = c.geometry ∧ (c.endClear bk st).range = c.range
    ∧ (c.endClear bk st).waiting = c.waiting := by
  cases bk <;> exact ⟨rfl, rfl, rfl, rfl, rfl, rfl, rfl, rfl, rfl⟩

/-- Only the latch takes note that a fold is void. -/
theorem Coverage.voidFold_spec (p : Fold → Bool) (c : Coverage) : c.voidFold p false
    = { c with latch := c.latch.map (fun f => if p f then { f with void := true } else f) } := by
  obtain ⟨range, geometry, banks, active, cursor, latch, waiting⟩ := c
  cases latch with
  | none => rfl
  | some f =>
    unfold Coverage.voidFold
    dsimp only [Option.map_some]
    split
    · rw [Bool.or_false]
    · rfl

theorem State.clearWritten_error {s : State} {c : Cursor} (hc : s.coverage.cursor = some c) : s.clearWritten false
    = ({ s with coverage := (s.coverage.endClear c.bank .stale).voidFold (fun f => f.bank = c.bank) false } :
      State).report wordBank := by
  simp only [State.clearWritten, hc]
  rfl

/-- What the offer of a word of the plan leaves. -/
theorem State.settle_offerClear {s x : State} {c : Cursor} {a : Nat} (hx : x = { s with
      mem := x.mem, port := { s.port with holder := x.port.holder } }) (h : planAddr c.plan c.word = some a) :
    ∃ t, State.settle s (x.offerClear c) = t ∧ t.port.holder = x.port.holder
      ∧ t.coverage = { s.coverage with cursor := some { c with started := true } }
      ∧ s.port.queue ++ [.clearWrite a] <+: t.port.queue ∧ t.mem = x.mem ∧ t.bus = s.bus ∧ s.sameSetup t
      ∧ s.sameTowers t ∧ t.engine = s.engine ∧ t.loop = s.loop ∧ t.loader = s.loader ∧ s.sameSettings t
      ∧ s.sameEvents t := by
  have offered := State.offerClear_some (s := x) h
  generalize hy : x.offerClear c = y at offered
  obtain ⟨settled, setup, towers, loader⟩ := State.settle_towersKept (s := s) (y := y) (by rw [offered, hx]; rfl)
  have fields : y.mem = x.mem ∧ y.bus = s.bus ∧ y.engine = s.engine ∧ y.loop = s.loop ∧ y.control = s.control
      ∧ y.coverage = { s.coverage with cursor := some { c with started := true } } := by
    rw [offered, hx]
    exact ⟨rfl, rfl, rfl, rfl, rfl, rfl⟩
  obtain ⟨mem, bus, engine, loop, control, coverage⟩ := fields
  have queue : s.port.queue ++ [.clearWrite a] = y.port.queue := by
    rw [offered, hx]
    rfl
  refine ⟨_, settled, y.offerChannel_holder.trans (by rw [offered]; rfl), by simpa, ?_, by simpa, by simpa, setup, towers, by simpa,
    by simpa, loader, ?_, ?_⟩
  · rw [queue]
    exact y.samePort_offerChannel.2.2.2.2
  · refine ⟨?_, ?_, ?_, ?_, ?_⟩ <;> simp [control]
  · refine ⟨?_, ?_, ?_, ?_⟩ <;> simp [control]

/-- The state at the end of a clear: memory, the free port, the coverage unit, the event and the report (R34, R35). -/
def State.clearEnded (m : List Host.Cell) (d : Coverage) (f : EventFlag) (s : State) : State :=
  (({ s with mem := m, port := { s.port with holder := none }, coverage := d } : State).raise f).report wordBank

theorem State.settle_clearEnded (s : State) (m : List Host.Cell) (d : Coverage) (f : EventFlag) :
    ∃ t, State.settle s (s.clearEnded m d f) = t ∧ t.port.holder = none ∧ t.coverage = d ∧ s.raised f t ∧ t.mem = m
      ∧ (s.control.part = .running → t.control.mirror.getLsbD 4 = true) ∧ t.bus = s.bus ∧ s.sameSetup t
      ∧ s.sameTowers t ∧ t.engine = s.engine ∧ t.loop = s.loop ∧ t.loader = s.loader := by
  generalize hy : s.clearEnded m d f = y
  obtain ⟨settled, setup, towers, loader⟩ := State.settle_towersKept (s := s) (y := y) (by rw [← hy]; rfl)
  have fields : y.mem = m ∧ y.bus = s.bus ∧ y.engine = s.engine ∧ y.loop = s.loop ∧ y.coverage = d
      ∧ y.port.holder = none ∧ y.control = ((s.control.raise f).report wordBank) := by
    rw [← hy]
    exact ⟨rfl, rfl, rfl, rfl, rfl, rfl, rfl⟩
  obtain ⟨mem, bus, engine, loop, coverage, holder, control⟩ := fields
  refine ⟨_, settled, y.offerChannel_holder.trans holder, by simpa, ?_, by simpa, fun run => ?_, by simpa, setup, towers, by simpa,
    by simpa, loader⟩
  · rw [State.raised, State.offerChannel_control .. |>.2.1, control]
    exact (Control.report_keeps .. |>.2.1).trans (Control.raise_flags f s.control)
  · have bit := Control.report_mirror wordBank 4 (s.control.raise f)
    rw [State.offerChannel_control .. |>.2.2.2.2.2.2.2.2.2.1, control]
    refine bit.trans ?_
    simp [run, wordBank]

/-- Settles O39: the cursor's offers, its last answer, and the plan it walks. -/
theorem clearCursorWalksItsPlan : Obligations.ClearCursorWalksItsPlan := by
  unfold Obligations.ClearCursorWalksItsPlan
  refine ⟨fun s c adr hc hs hp => ⟨fun hl => ?_, fun ⟨f, hf, hb⟩ => ?_⟩, fun s c adr ws h hc => ⟨fun nxt hw hn => ?_,
    fun hw => ?_, fun l => ?_⟩, fun c r bk => ?_, fun _ => rfl, fun _ => rfl, fun _ _ _ => rfl⟩
  · obtain ⟨t, ht, -, coverage, queue, mem, bus, rest⟩ := State.settle_offerClear (s := s) (x := s) rfl hp
    refine ⟨t, ?_, queue, coverage, fun a => by rw [mem], bus, rest⟩
    rw [← ht, ← State.firstClear_offers hc hs hl]
    rfl
  · have exec : State.settle s s.firstClear = s.offerChannel := by
      rw [State.firstClear_waits hc hf hb, State.settle_of_towers rfl]
    exact ⟨_, congrArg Host.Outcome.next exec, ⟨rfl, rfl⟩, ⟨by simp, ⟨by simp, by simp⟩, by simp, by simp, by simp⟩,
      fun a => by simp, by simp, by simp, ⟨by simp, by simp, by simp, by simp, by simp⟩⟩
  · have cursor : (s.completed ws [.ok] false).coverage.cursor = some c := by rw [s.completed_ok ws (by simp), hc]
    have walked : (s.completed ws [.ok] false).clearWritten true
        = (s.completed ws [.ok] false).offerClear { c with word := c.word + 1 } := by
      simp [State.clearWritten, hc, hw]
    obtain ⟨t, ht, holder, coverage, queue, mem, rest⟩ := State.settle_offerClear (s := s)
      (x := s.completed ws [.ok] false) (c := { c with word := c.word + 1 }) (by rw [s.completed_ok ws (by simp)]) hn
    rw [s.completed_ok ws (by simp)] at holder mem
    refine ⟨t, ?_, holder, coverage, queue, mem, rest⟩
    rw [← ht, ← walked]
    exact congrArg (Host.Outcome.next ∘ State.settle s) (State.complete_eq h rfl _ _)
  · obtain ⟨cursor, state, frames, other, latch, active, geometry, range, waiting⟩ :=
      Coverage.endClear_spec c.bank .opened s.coverage
    have ended : (s.completed ws [.ok] false).clearWritten true
        = s.clearEnded (Memory.answers s.mem ws [.ok]) (s.coverage.endClear c.bank .opened) .bankReady := by
      simp only [State.clearWritten, State.completed_ok s ws (anss := [.ok]) (by simp), hc, if_neg (Nat.not_lt.2 hw)]
      rfl
    obtain ⟨t, ht, holder, coverage, raised, mem, mirror, bus, setup, rest⟩ :=
      s.settle_clearEnded (Memory.answers s.mem ws [.ok]) (s.coverage.endClear c.bank .opened) .bankReady
    rw [← coverage] at cursor state frames other latch active geometry range waiting
    refine ⟨t, ?_, holder, cursor, state, frames, other, latch, active, geometry, range, waiting, raised, mem, bus, setup,
      mirror, rest⟩
    rw [← ht, ← ended]
    exact congrArg (Host.Outcome.next ∘ State.settle s) (State.complete_eq h rfl _ _)
  · obtain ⟨cursor, state, frames, other, latch, active, geometry, range, waiting⟩ :=
      Coverage.endClear_spec c.bank .stale s.coverage
    have voided := Coverage.voidFold_spec (fun f => decide (f.bank = c.bank)) (s.coverage.endClear c.bank .stale)
    have ended : (s.completed ws [.error l] false).clearWritten false
        = s.clearEnded (Memory.answers s.mem ws [.error l])
          ((s.coverage.endClear c.bank .stale).voidFold (fun f => f.bank = c.bank) false) .memoryFault := by
      rw [State.completed_error s ws (anss := [.error l]) ⟨_, List.mem_singleton_self _, nofun⟩]
      exact State.clearWritten_error (c := c) hc
    obtain ⟨t, ht, holder, coverage, raised, mem, mirror, bus, setup, rest⟩ :=
      s.settle_clearEnded (Memory.answers s.mem ws [.error l])
        ((s.coverage.endClear c.bank .stale).voidFold (fun f => f.bank = c.bank) false) .memoryFault
    rw [voided] at coverage
    refine ⟨t, ?_, holder, by rw [coverage]; exact cursor, by rw [coverage]; exact state, by rw [coverage]; exact frames,
      by rw [coverage]; exact other, ?_, by rw [coverage]; exact active, by rw [coverage]; exact geometry,
      by rw [coverage]; exact range, by rw [coverage]; exact waiting, raised, mem, mirror, bus, setup, rest⟩
    · rw [← ht, ← ended]
      exact congrArg (Host.Outcome.next ∘ State.settle s) (State.complete_eq h rfl _ _)
    · rw [coverage]
      simp only [latch, decide_eq_true_eq]
  · refine congrArg (fun f => List.filterMap f _) (funext fun u => ?_)
    have base : r.frameBase bk u.val = r.base + (if bk = .a then 0 else r.size / 2) + u.val * (r.size / 32) := by
      cases bk <;> simp [CoverRange.frameBase, CoverRange.frameSize, bankSelector]
    unfold planSpan
    split
    · next e => simp only [e]
    · next g e => simp only [e, base]; rfl

end Sys2Proof.Machine
end

section
/-! PROOFS. The order engine: what a record's words say, the starts it serves, and the write-back of an order. -/

namespace Sys2Proof.Machine

/-! ### The fields of a record -/

theorem toNat_extract (x : Word) (bit len : Nat) : (x.extractLsb' bit len).toNat = x.toNat / 2 ^ bit % 2 ^ len := by
  rw [BitVec.extractLsb'_toNat, Nat.shiftRight_eq_div_pow]

theorem byteOf_extract (x : Word) (b : Nat) : byteOf x b = x.extractLsb' (8 * b) 8 :=
  BitVec.eq_of_toNat_eq (by rw [byteOf, BitVec.toNat_ofNat, toNat_extract])

theorem halfOf_extract (x : Word) (h : Nat) : halfOf x h = x.extractLsb' (16 * h) 16 :=
  BitVec.eq_of_toNat_eq (by rw [halfOf, BitVec.toNat_ofNat, toNat_extract])

theorem recByte_extract (ws : List Word) (n : Nat) :
    recByte ws n = ((ws.getD (n / 4) 0).extractLsb' (8 * (n % 4)) 8).toNat := by
  rw [← byteOf_extract]
  rfl

/-! ### The status word -/

theorem extract_ofNat (n bit len : Nat) (h : bit + len ≤ 32) :
    (BitVec.ofNat 32 n).extractLsb' bit len = BitVec.ofNat len (n / 2 ^ bit) :=
  BitVec.eq_of_toNat_eq (by rw [toNat_extract_ofNat n bit len h, BitVec.toNat_ofNat])

theorem OrderOutcome.success_iff (o : OrderOutcome) : o.success = true ↔ o = .done ∨ o = .exhausted := by
  cases o <;> simp [OrderOutcome.success]

theorem faultCode_lt (c : FaultCode) : faultCode c < 10 := by cases c <;> decide

theorem outcomeCodes_lt (o : OrderOutcome) : (outcomeCodes o).1 < 5 ∧ (outcomeCodes o).2 < 10 := by
  cases o with
  | done => decide
  | exhausted => decide
  | cancelled => decide
  | fault c => exact ⟨show 3 < 5 by decide, faultCode_lt c⟩

/-- The three fields of the status word: the state, the fault code and the runs completed (R122). -/
theorem statusWord_fields (r : OrderRec) (o : OrderOutcome) :
    (statusWord r o).extractLsb' 0 8 = BitVec.ofNat 8 (outcomeCodes o).1
      ∧ (statusWord r o).extractLsb' 8 8 = BitVec.ofNat 8 (outcomeCodes o).2
      ∧ (statusWord r o).extractLsb' 16 16 = BitVec.ofNat 16 (runsWritten r o) := by
  obtain ⟨hs, hf⟩ := outcomeCodes_lt o
  unfold statusWord field
  refine ⟨?_, ?_, ?_⟩
  all_goals
    rw [extract_ofNat _ _ _ (by decide)]
    refine BitVec.eq_of_toNat_eq ?_
    rw [BitVec.toNat_ofNat, BitVec.toNat_ofNat]
    omega

/-! ### Starts and the ends of chains -/

theorem State.EngineOnly.trans {s t u : State} (h : s.EngineOnly t) (k : t.EngineOnly u) : s.EngineOnly u := by
  obtain ⟨eq, ⟨p, e, m, a, d⟩, ⟨f, c, l, n⟩, last, port⟩ := h
  obtain ⟨eq', ⟨p', e', m', a', d'⟩, ⟨f', c', l', n'⟩, last', port'⟩ := k
  refine ⟨?_, ⟨p'.trans p, e'.trans e, m'.trans m, a'.trans a, d'.trans d⟩,
    ⟨f'.trans f, c'.trans c, l'.trans l, n'.trans n⟩, last'.trans last, State.samePort_trans port port'⟩
  rw [eq', eq]

theorem State.engineOnly_fetch (s : State) (e : Engine) : s.EngineOnly (s.fetch e) :=
  (s.engineOnly_putEngine _).trans ⟨rfl, ⟨rfl, rfl, rfl, rfl, rfl⟩, ⟨rfl, rfl, rfl, rfl⟩, rfl, State.samePort_offer _ _⟩

theorem State.serveStarts_none {s : State} (h : startOrder.find? s.engine.waits = none) : s.serveStarts = s := by
  simp only [State.serveStarts, h]

theorem State.serveStarts_binding {s : State} {k : Source} (h : startOrder.find? s.engine.waits = some (.binding k)) :
    s.serveStarts = (s.putEngine (s.engine.modBinding k Binding.unpend)).startChain (s.engine.bindings.get k).index
      (some k) := by
  simp only [State.serveStarts, h]

theorem State.serveStarts_slot {s : State} (h : startOrder.find? s.engine.waits = some .slot) :
    s.serveStarts = (s.putEngine { s.engine with slot := none }).startChain (s.engine.slot.getD 0) none := by
  simp only [State.serveStarts, h]

theorem State.engineOnly_serveStarts (s : State) : s.EngineOnly s.serveStarts := by
  cases h : startOrder.find? s.engine.waits with
  | none => rw [State.serveStarts_none h]; exact .refl s
  | some x =>
    cases x with
    | binding k => rw [State.serveStarts_binding h]; exact (s.engineOnly_putEngine _).trans (State.engineOnly_startChain _ _ _)
    | slot => rw [State.serveStarts_slot h]; exact (s.engineOnly_putEngine _).trans (State.engineOnly_startChain _ _ _)

theorem State.engineOnly_endChain (s : State) : s.EngineOnly s.endChain :=
  (s.engineOnly_putEngine _).trans (State.engineOnly_serveStarts _)

/-- A chain started for a binding: the fetch of its index, tied to it, its pending flag cleared. -/
theorem State.serveStarts_started {s : State} {k : Source} (h : startOrder.find? s.engine.waits = some (.binding k)) :
    s.serveStarts.engine = { s.engine.modBinding k Binding.unpend with
        head := (s.engine.bindings.get k).index, current := (s.engine.bindings.get k).index, visited := 1
        tie := some k, state := .fetching, running := none } := by
  rw [State.serveStarts_binding h]
  rfl

theorem State.serveStarts_slotStarted {s : State} (h : startOrder.find? s.engine.waits = some .slot) :
    s.serveStarts.engine = { s.engine with
        slot := none, head := s.engine.slot.getD 0, current := s.engine.slot.getD 0, visited := 1, tie := none
        state := .fetching, running := none } := by
  rw [State.serveStarts_slot h]
  rfl

theorem Engine.noneWaits_iff (e : Engine) : startOrder.find? e.waits = none ↔ e.noneWaits := by
  simp only [startOrder, Engine.noneWaits, List.find?_eq_none, List.mem_cons, List.not_mem_nil, or_false,
    forall_eq_or_imp, forall_eq, Engine.waits, Bool.not_eq_true, Option.isSome_eq_false_iff, Option.isNone_iff_eq_none]
  refine ⟨fun ⟨j, f, slot, m, n, h⟩ => ⟨fun k => ?_, slot⟩, fun ⟨k, slot⟩ => ⟨k _, k _, slot, k _, k _, k _⟩⟩
  cases k with
  | sheet => exact h
  | jobchg => exact j
  | imprOn => exact n
  | imprOff => exact f
  | measure => exact m

/-- When something waits a chain is started at once. -/
theorem State.serveStarts_some {s : State} (h : ¬s.engine.noneWaits) :
    s.serveStarts.engine.state = .fetching ∧ s.serveStarts.engine.visited = 1 := by
  cases hf : startOrder.find? s.engine.waits with
  | none => exact absurd ((Engine.noneWaits_iff _).1 hf) h
  | some x =>
    cases x with
    | binding k => rw [State.serveStarts_started hf]; exact ⟨rfl, rfl⟩
    | slot => rw [State.serveStarts_slotStarted hf]; exact ⟨rfl, rfl⟩

/-- Whatever is served, no order runs and the stop request, the divisor and the table stay. -/
theorem State.serveStarts_stop (s : State) : s.serveStarts.engine.stop = s.engine.stop := by
  cases h : startOrder.find? s.engine.waits with
  | none => rw [State.serveStarts_none h]
  | some x =>
    cases x with
    | binding k => rw [State.serveStarts_started h]; rfl
    | slot => rw [State.serveStarts_slotStarted h]

theorem Engine.first_jobchg {e : Engine} (h : (e.bindings.get .jobchg).pending = true) :
    startOrder.find? e.waits = some (.binding .jobchg) := by
  simp [startOrder, Engine.waits, h]

/-! ### The write-back is answered -/

theorem State.raiseSome_none (s : State) : s.raiseSome none = s := rfl

theorem State.raiseSome_some (s : State) (f : EventFlag) : s.raiseSome (some f) = s.raise f := rfl

theorem State.keepsFlags_raiseSome (s : State) (f : Option EventFlag) : s.keepsFlags (s.raiseSome f) := by
  cases f with
  | none => exact fun _ h => h
  | some f => exact s.keepsFlags_raise f

/-- What the answers to a request's words leave of the flags and of everything else (R2, R19). -/
theorem State.completed_effect (s : State) (ws : List PortWord) (anss : List MemAnswer) :
    s.completed ws anss false = { s with
        mem := Memory.answers s.mem ws anss, port := { s.port with holder := none }
        control := (s.completed ws anss false).control }
      ∧ s.sameSettings (s.completed ws anss false)
      ∧ ((∃ x ∈ anss, x ≠ .ok) → (s.completed ws anss false).control.flags.getLsbD (flagBit .memoryFault) = true)
      ∧ ((∀ x ∈ anss, x = .ok) → (s.completed ws anss false).control = s.control) := by
  refine ⟨?_, ⟨by simp, by simp, by simp, by simp, by simp⟩, fun h => ?_, fun h => by rw [s.completed_ok ws h]⟩
  · by_cases h : ∀ x ∈ anss, x = .ok
    · rw [s.completed_ok ws h]
    · rw [s.completed_error ws (by simpa using h)]
      rfl
  · rw [s.completed_error ws h]
    exact State.raise_flag _ _

/-- The link is followed after a success that was written with no stop noted (R125). -/
theorem State.orderWritten_linked {s : State} {o : RunningOrder} {failed : Bool} (ho : s.engine.running = some o)
    (h : failed = false ∧ o.outcome.success = true ∧ (orderRec o.words).linked = true ∧ s.engine.stop = false) :
    s.orderWritten failed = (s.raiseSome (outcomeEvent (orderRec o.words) o.outcome)).fetch
      { s.engine with current := (orderRec o.words).next, visited := s.engine.visited + 1 } := by
  simp only [State.orderWritten, ho, if_pos h, State.raiseSome_keeps]

theorem State.orderWritten_last {s : State} {o : RunningOrder} {failed : Bool} (ho : s.engine.running = some o)
    (h : ¬(failed = false ∧ o.outcome.success = true ∧ (orderRec o.words).linked = true ∧ s.engine.stop = false)) :
    s.orderWritten failed = (s.raiseSome (outcomeEvent (orderRec o.words) o.outcome)).endChain := by
  simp only [State.orderWritten, ho, if_neg h]

/-- Either way, after the outcome's event the order engine alone goes on. -/
theorem State.engineOnly_orderWritten {s : State} {o : RunningOrder} (ho : s.engine.running = some o) (failed : Bool) :
    (s.raiseSome (outcomeEvent (orderRec o.words) o.outcome)).EngineOnly (s.orderWritten failed) := by
  by_cases h : failed = false ∧ o.outcome.success = true ∧ (orderRec o.words).linked = true ∧ s.engine.stop = false
  · rw [State.orderWritten_linked ho h]
    exact State.engineOnly_fetch _ _
  · rw [State.orderWritten_last ho h]
    exact State.engineOnly_endChain _

theorem writeFailed_iff (a6 a7 : MemAnswer) : (!(answeredOk a6 && answeredOk a7)) = false ↔ a6 = .ok ∧ a7 = .ok := by
  cases a6 <;> cases a7 <;> simp [answeredOk]

/-- The engine at the end of a chain, ahead of the starts that it serves (R126). -/
def Engine.ended (e : Engine) : Engine := { e with state := .idle, running := none, stop := false, tie := none }

theorem State.endChain_eq (s : State) : s.endChain = (s.putEngine s.engine.ended).serveStarts := rfl

/-- The engine when a chain has ended: the stop request is cleared, and what waits is served (R126, R135). -/
theorem State.endChain_effect (s : State) : s.endChain.engine.stop = false
    ∧ (s.engine.noneWaits → s.endChain.engine = s.engine.ended)
    ∧ (¬s.engine.noneWaits → s.endChain.engine.state = .fetching ∧ s.endChain.engine.visited = 1)
    ∧ ((s.engine.bindings.get .jobchg).pending = true → s.endChain.engine.state = .fetching
        ∧ s.endChain.engine.head = (s.engine.bindings.get .jobchg).index ∧ s.endChain.engine.visited = 1
        ∧ s.endChain.engine.tie = some .jobchg ∧ (s.endChain.engine.bindings.get .jobchg).pending = false
        ∧ s.endChain.engine.slot = s.engine.slot) := by
  rw [State.endChain_eq]
  refine ⟨State.serveStarts_stop _, fun h => ?_, fun h => State.serveStarts_some h, fun h => ?_⟩
  · rw [State.serveStarts_none (s := s.putEngine s.engine.ended) ((Engine.noneWaits_iff s.engine.ended).2 h)]
    rfl
  · rw [State.serveStarts_started (s := s.putEngine s.engine.ended) (k := .jobchg)
      (Engine.first_jobchg (e := s.engine.ended) h)]
    exact ⟨rfl, rfl, rfl, rfl, by simp [Binding.unpend], rfl⟩

theorem State.orderWrite_completed {s : State} {adr : Nat} {hw : Half} {st : Word} {ws : List PortWord}
    {o : RunningOrder} (a6 a7 : MemAnswer) (h : s.holdsRequest (.orderWrite adr hw st) ws)
    (ho : s.engine.running = some o) :
    ∃ t, exec (.orderWriteComplete a6 a7) s = .next t ∧ t.port.holder = none
      ∧ t.mem = Memory.answers s.mem ws [a6, a7]
      ∧ (∀ f, outcomeEvent (orderRec o.words) o.outcome = some f → t.control.flags.getLsbD (flagBit f) = true)
      ∧ (a6 ≠ .ok ∨ a7 ≠ .ok → t.control.flags.getLsbD (flagBit .memoryFault) = true)
      ∧ (a6 = .ok → a7 = .ok → outcomeEvent (orderRec o.words) o.outcome = none →
          t.control.flags = s.control.flags)
      ∧ (a6 = .ok → a7 = .ok → o.outcome.success = true → (orderRec o.words).linked = true → s.engine.stop = false →
          t.engine.state = .fetching ∧ t.engine.current = (orderRec o.words).next
            ∧ t.engine.visited = s.engine.visited + 1 ∧ t.engine.head = s.engine.head
            ∧ t.engine.tie = s.engine.tie ∧ t.engine.bindings = s.engine.bindings ∧ t.engine.slot = s.engine.slot
            ∧ s.port.queue ++ [.orderRead t.engine.recordAddr] <+: t.port.queue)
      ∧ ((a6 ≠ .ok ∨ a7 ≠ .ok ∨ o.outcome.success = false ∨ (orderRec o.words).linked = false
            ∨ s.engine.stop = true) →
          t.engine.stop = false
            ∧ ((∀ k, (s.engine.bindings.get k).pending = false) → s.engine.slot = none →
                t.engine.state = .idle ∧ t.engine.running = none ∧ t.engine.head = s.engine.head
                  ∧ t.engine.current = s.engine.current ∧ t.engine.visited = s.engine.visited)
            ∧ ((s.engine.bindings.get .jobchg).pending = true →
                t.engine.state = .fetching ∧ t.engine.head = (s.engine.bindings.get .jobchg).index
                  ∧ t.engine.visited = 1 ∧ t.engine.tie = some .jobchg
                  ∧ (t.engine.bindings.get .jobchg).pending = false ∧ t.engine.slot = s.engine.slot))
      ∧ t.bus = s.bus ∧ t.lastResponse = s.lastResponse ∧ s.sameSetup t ∧ t.coverage = s.coverage ∧ s.sameTowers t
      ∧ t.loop = s.loop ∧ t.loader = s.loader ∧ s.sameSettings t := by
  obtain ⟨shape, settings, bad, good⟩ := s.completed_effect ws [a6, a7]
  generalize hx : s.completed ws [a6, a7] false = x at shape settings bad good
  have hox : x.engine.running = some o := by rw [shape]; exact ho
  have only := State.engineOnly_orderWritten hox (!(answeredOk a6 && answeredOk a7))
  generalize hz : x.raiseSome (outcomeEvent (orderRec o.words) o.outcome) = z at only
  have zshape : z = { s with
      mem := Memory.answers s.mem ws [a6, a7], port := { s.port with holder := none }, control := z.control } := by
    rw [← hz]
    cases outcomeEvent (orderRec o.words) o.outcome with
    | none =>
      rw [State.raiseSome_none]
      exact shape
    | some f =>
      rw [State.raiseSome_some]
      exact congrArg (fun y : State => { y with control := (x.raise f).control }) shape
  have zflags : x.keepsFlags z := hz ▸ x.keepsFlags_raiseSome _
  generalize hy : x.orderWritten (!(answeredOk a6 && answeredOk a7)) = y at only
  obtain ⟨eq, ⟨p, e, m, a, d⟩, ⟨flags, -, -, -⟩, -, port⟩ := only
  obtain ⟨settled, setup, towers, loader⟩ := State.settle_towersKept (s := s) (y := y) (by rw [eq, zshape])
  have exec : State.settle s (s.complete IReq.isOrderWrite [a6, a7]
      (fun _ _ => State.orderWritten (!(answeredOk a6 && answeredOk a7)))) = y.offerChannel := by
    rw [State.complete_eq h rfl, hx, hy, settled]
  have yflags : y.offerChannel.control.flags = z.control.flags := by simp [flags]
  have yengine : y.offerChannel.engine = y.engine := by simp
  have xengine : x.engine = s.engine := by rw [shape]
  have zengine : z.engine = s.engine := by rw [zshape]
  refine ⟨_, congrArg Host.Outcome.next exec, ?_, ?_, fun f hf => ?_, fun err => ?_, fun h6 h7 none => ?_,
    fun h6 h7 success linked stop => ?_, fun last => ?_, ?_, ?_, setup, ?_, towers, ?_, loader, ?_⟩
  · rw [y.offerChannel_holder, port.1, zshape]
  · rw [State.offerChannel_keeps .. |>.2.1, eq, zshape]
  · rw [yflags, ← hz, hf, State.raiseSome_some]
    exact State.raise_flag _ _
  · rw [yflags]
    refine zflags _ (bad ?_)
    rcases err with err | err
    · exact ⟨a6, by simp, err⟩
    · exact ⟨a7, by simp, err⟩
  · rw [yflags, ← hz, none, State.raiseSome_none, good (by simp [h6, h7])]
  · have step := State.orderWritten_linked hox
      ⟨(writeFailed_iff a6 a7).2 ⟨h6, h7⟩, success, linked, by rw [xengine]; exact stop⟩
    rw [hy, hz, xengine] at step
    rw [yengine, step]
    refine ⟨rfl, rfl, rfl, rfl, rfl, rfl, rfl, ?_⟩
    have queue : s.port.queue = z.port.queue := by rw [zshape]
    rw [queue]
    exact (State.samePort_offerChannel (z.fetch _)).2.2.2.2
  · have step := State.orderWritten_last (failed := !(answeredOk a6 && answeredOk a7)) hox (by
      rw [writeFailed_iff, xengine]
      rintro ⟨⟨h6, h7⟩, success, linked, stop⟩
      simp [h6, h7, success, linked, stop] at last)
    obtain ⟨stopped, idle, -, jobchg⟩ := z.endChain_effect
    rw [hy, hz] at step
    rw [zengine] at idle jobchg
    rw [yengine, step]
    refine ⟨stopped, fun bindings slot => ?_, jobchg⟩
    rw [idle ⟨bindings, slot⟩]
    exact ⟨rfl, rfl, rfl, rfl, rfl⟩
  · rw [State.offerChannel_keeps .. |>.2.2.2.1, eq, zshape]
  · rw [State.offerChannel_keeps .. |>.2.2.1, eq, zshape]
  · rw [State.offerChannel_keeps .. |>.2.2.2.2.2.1, eq, zshape]
  · rw [State.offerChannel_keeps .. |>.2.2.2.2.2.2.2.2.2.2.2.2.1, eq, zshape]
  · have zsettings : x.sameSettings z := hz ▸ ⟨by simp, by simp, by simp, by simp, by simp⟩
    obtain ⟨p1, e1, m1, a1, d1⟩ := settings
    obtain ⟨p2, e2, m2, a2, d2⟩ := zsettings
    exact ⟨by simp [p, p2, p1], by simp [e, e2, e1], by simp [m, m2, m1], by simp [a, a2, a1], by simp [d, d2, d1]⟩

/-! ### The arbiter over the order engine -/

/-- A binding served: its chain has started, tied to it (R135). -/
theorem State.serveStarts_tied {s : State} {k : Source} (h : startOrder.find? s.engine.waits = some (.binding k)) :
    s.serveStarts.engine.state = .fetching ∧ s.serveStarts.engine.visited = 1
      ∧ s.serveStarts.engine.head = (s.engine.bindings.get k).index ∧ s.serveStarts.engine.tie = some k
      ∧ s.serveStarts.engine.bindings.get k = { s.engine.bindings.get k with pending := false }
      ∧ s.serveStarts.engine.slot = s.engine.slot := by
  rw [State.serveStarts_started h]
  exact ⟨rfl, rfl, rfl, rfl, by simp [Binding.unpend], rfl⟩

theorem runsLeftWritten_eq (r : OrderRec) (o : OrderOutcome) : runsLeftWritten r o
    = if o = .done ∨ o = .exhausted then r.runsLeft - 1 else r.runsLeft := by
  unfold runsLeftWritten
  simp only [OrderOutcome.success_iff]

theorem runsWritten_eq (r : OrderRec) (o : OrderOutcome) : BitVec.ofNat 16 (runsWritten r o)
    = BitVec.ofNat 16 (if o = .done ∨ o = .exhausted then r.runs + 1 else r.runs) := by
  unfold runsWritten
  simp only [OrderOutcome.success_iff]
  split
  · exact BitVec.eq_of_toNat_eq (by simp)
  · rfl

/-- Settles O42, by the end of a write-back, the order of the arbiter and the fields of the words that are written. -/
theorem orderWriteCompletesAndWaitingStartsAreServed : Obligations.OrderWriteCompletesAndWaitingStartsAreServed := by
  unfold Obligations.OrderWriteCompletesAndWaitingStartsAreServed
  refine ⟨fun s adr hw st ws o a6 a7 h ho => State.orderWrite_completed a6 a7 h ho, fun s => ?_, fun r o => ?_,
    fun r => ⟨rfl, rfl, fun _ => rfl, rfl⟩, fun e tab h => ?_, fun ws f hf => ?_, fun s c r ws anss hs hc => ?_,
    fun m w ws x xs => ⟨by simp [Memory.answers], by simp [Memory.answers], rfl⟩⟩
  · refine ⟨fun j => State.serveStarts_tied ?_, fun j f => State.serveStarts_tied ?_, fun i j f slot => ?_,
      fun j f slot m => State.serveStarts_tied ?_, fun j f slot m n => State.serveStarts_tied ?_,
      fun j f slot m n h => State.serveStarts_tied ?_, fun j f slot m n h => State.serveStarts_none ?_⟩
    · exact Engine.first_jobchg j
    · simp [startOrder, Engine.waits, j, f]
    · rw [State.serveStarts_slotStarted (by simp [startOrder, Engine.waits, j, f, slot]), slot]
      exact ⟨rfl, rfl, rfl, rfl, rfl, rfl⟩
    · simp [startOrder, Engine.waits, j, f, slot, m]
    · simp [startOrder, Engine.waits, j, f, slot, m, n]
    · simp [startOrder, Engine.waits, j, f, slot, m, n, h]
    · simp [startOrder, Engine.waits, j, f, slot, m, n, h]
  · obtain ⟨state, code, runs⟩ := statusWord_fields r o
    refine ⟨state.trans ?_, code.trans ?_, runs.trans (runsWritten_eq r o), runsLeftWritten_eq r o, o.success_iff⟩
    · cases o <;> rfl
    · cases o with
      | fault c => cases c <;> rfl
      | done => rfl
      | exhausted => rfl
      | cancelled => rfl
  · unfold Engine.recordAddr Engine.length
    rw [h]
    exact ⟨rfl, rfl⟩
  · simp only [hf]
    exact ⟨recByte_extract ws 0, recByte_extract ws 1, recByte_extract ws 2, recByte_extract ws 3, rfl, rfl, rfl, rfl,
      recByte_extract ws 5, recByte_extract ws 6, recByte_extract ws 7, congrArg BitVec.toInt (halfOf_extract _ 0),
      recByte_extract ws 10, congrArg BitVec.toNat (halfOf_extract _ 1), recByte_extract ws 28, recByte_extract ws 29,
      congrArg BitVec.toNat (halfOf_extract _ 1)⟩
  · obtain ⟨t, ht, mem, control, port, bus, resp, setup, blocks, settings, events⟩ := s.settle_discarded ws anss
    refine ⟨t, (exec_discarded hs hc).trans (congrArg _ ht), by rw [port], mem, fun hr a => ?_, control, port, bus, resp,
      setup, blocks, settings, events⟩
    rw [mem, Memory.answers_read _ _ _ hr]

end Sys2Proof.Machine
end

section
/-! PROOFS. What an order's outcome leaves in the engine; the failed fetch and the cancelled order. -/

namespace Sys2Proof.Machine

/-! ### The outcome of a head -/

theorem OrderOutcome.disarms_iff (o : OrderOutcome) : o.disarms = true ↔ o ≠ .done ∧ o ≠ .cancelled := by
  cases o <;> simp [OrderOutcome.disarms]

/-- The outcome of a head at the chain's first visit disarms the binding that the chain is tied to, or leaves the engine
(R136). -/
theorem Engine.headOutcome_spec (o : OrderOutcome) (e : Engine) :
    e.headOutcome o = { e with bindings := (e.headOutcome o).bindings, tie := (e.headOutcome o).tie }
      ∧ (∀ k, (e.headOutcome o).bindings.get k = if e.visited = 1 ∧ e.tie = some k ∧ o.disarms = true
          then ⟨false, false, (e.bindings.get k).index⟩ else e.bindings.get k)
      ∧ (e.headOutcome o).tie = if e.visited = 1 ∧ o.disarms = true then none else e.tie := by
  unfold Engine.headOutcome
  by_cases h : e.visited = 1 ∧ o.disarms = true
  · rw [if_pos h, if_pos h]
    cases ht : e.tie with
    | none => exact ⟨rfl, fun k => by simp, ht⟩
    | some j =>
      refine ⟨rfl, fun k => ?_, rfl⟩
      show ((e.modBinding j Binding.disarm).bindings.get k) = _
      rw [Engine.modBinding_get]
      by_cases hk : k = j
      · rw [if_pos hk, if_pos ⟨h.1, by rw [hk], h.2⟩, hk]
        rfl
      · rw [if_neg hk, if_neg fun c => hk (Option.some.inj c.2.1).symm]
  · rw [if_neg h, if_neg h]
    exact ⟨rfl, fun k => by rw [if_neg fun c => h ⟨c.1, c.2.2⟩], rfl⟩

/-! ### Chains that end -/

/-- A binding that does not wait is not touched by the starts that are served. -/
theorem State.serveStarts_other {s : State} {k : Source} (h : (s.engine.bindings.get k).pending = false) :
    s.serveStarts.engine.bindings.get k = s.engine.bindings.get k := by
  cases hf : startOrder.find? s.engine.waits with
  | none => rw [State.serveStarts_none hf]
  | some x =>
    cases x with
    | slot => rw [State.serveStarts_slotStarted hf]
    | binding j =>
      have waits : (s.engine.bindings.get j).pending = true := List.find?_some (p := s.engine.waits) hf
      have other : k ≠ j := fun e => by rw [e, waits] at h; cases h
      rw [State.serveStarts_started hf]
      show (s.engine.modBinding j Binding.unpend).bindings.get k = _
      rw [Engine.modBinding_get, if_neg other]

theorem State.serveStarts_running {s : State} (h : s.engine.running = none) : s.serveStarts.engine.running = none := by
  cases hf : startOrder.find? s.engine.waits with
  | none => rwa [State.serveStarts_none hf]
  | some x =>
    cases x with
    | binding k => rw [State.serveStarts_started hf]
    | slot => rw [State.serveStarts_slotStarted hf]

/-- What is served offers an ORDER_READ, and nothing else. -/
theorem State.serveStarts_queue (s : State) : ∃ l, s.serveStarts.port.queue = s.port.queue ++ l
    ∧ ∀ r ∈ l, ∃ a, r = .orderRead a := by
  cases hf : startOrder.find? s.engine.waits with
  | none =>
    rw [State.serveStarts_none hf]
    exact ⟨[], (List.append_nil _).symm, nofun⟩
  | some x =>
    cases x with
    | binding k =>
      rw [State.serveStarts_binding hf]
      exact ⟨_, rfl, fun r hr => ⟨_, List.mem_singleton.1 hr⟩⟩
    | slot =>
      rw [State.serveStarts_slot hf]
      exact ⟨_, rfl, fun r hr => ⟨_, List.mem_singleton.1 hr⟩⟩

/-- The control unit offers no ORDER_WRITE. -/
theorem State.orderWrite_of_offerChannel {s : State} {a : Nat} {h : Half} {w : Word}
    (hm : IReq.orderWrite a h w ∈ s.offerChannel.port.queue) : IReq.orderWrite a h w ∈ s.port.queue := by
  unfold State.offerChannel State.offerMirror State.offerOn State.offer at hm
  repeat' split at hm
  all_goals simpa using hm

/-! ### The write-back begins -/

theorem State.settle_writeBack {s y : State} (ws : List PortWord) (o : OrderOutcome) (engine : y.engine = s.engine)
    (port : y.port = { s.port with holder := none }) (mem : y.mem = s.mem) :
    s.writesBack (State.settle s (y.writeBack (readData s.mem ws) o)) ws o := by
  obtain ⟨shape, bindings, tie⟩ := Engine.headOutcome_spec o s.engine
  generalize hz : y.writeBack (readData s.mem ws) o = z
  have eng : z.engine
      = { s.engine.headOutcome o with state := .writingBack, running := some ⟨readData s.mem ws, o⟩ } := by
    rw [← hz, ← engine]
    rfl
  have tail := (State.samePort_settle s z).2.2.2.2
  have held := (State.samePort_settle s z).1
  have queue : z.port.queue = s.port.queue ++ [.orderWrite s.engine.recordAddr
      (BitVec.ofNat 16 (runsLeftWritten (orderRec (readData s.mem ws)) o))
      (statusWord (orderRec (readData s.mem ws)) o)] := by
    rw [← hz, ← engine, show s.port.queue = y.port.queue by rw [port]]
    rfl
  refine ⟨?_, fun k => ?_, ?_, queue ▸ tail, held.trans ?_, fun a => ?_⟩
  · rw [State.settle_keeps .. |>.2.2.2.2.2.2.2.2.2.1, eng]
    dsimp only
    rw [shape]
  · rw [State.settle_keeps .. |>.2.2.2.2.2.2.2.2.2.1, eng]
    simp only [OrderOutcome.disarms_iff] at bindings
    exact bindings k
  · rw [State.settle_keeps .. |>.2.2.2.2.2.2.2.2.2.1, eng]
    simp only [OrderOutcome.disarms_iff] at tie
    exact tie
  · rw [← hz]
    show y.port.holder = none
    rw [port]
  · rw [State.settle_keeps .. |>.2.1, ← hz]
    show Memory.byte y.mem a = _
    rw [mem]

/-! ### Fetches -/

/-- The state after an order's eight words have been read: the port is free, and nothing else has changed. -/
def State.wordsRead (s : State) : State := { s with port := { s.port with holder := none } }

theorem State.completed_read (s : State) (ws : List PortWord) : s.completed ws [] false = s.wordsRead := by
  rw [s.completed_ok ws fun _ h => absurd h List.not_mem_nil]
  have same : Memory.answers s.mem ws [] = s.mem := by simp [Memory.answers]
  rw [same]
  rfl

theorem State.orderCancelled_eq {s : State} {adr : Nat} {ws : List PortWord} (h : s.holdsRequest (.orderRead adr) ws)
    (stop : s.engine.stop = true) : s.orderCancelled = s.wordsRead.writeBack (readData s.mem ws) .cancelled := by
  have h : s.port.holder = some (.internal (.orderRead adr) ws false) := h
  simp only [State.orderCancelled, h, stop, Bool.false_eq_true, if_false, if_true, State.completed_read]

/-- A fetched order runs its verb, and its write-back begins with the outcome. -/
theorem State.orderRow_eq {s : State} {ws : List PortWord} {r : OrderRec} (h : s.fetched ws r) {row : Nat → Bool}
    (hv : row r.verb = true) (run : OrderRec → State → Except FaultCode State) :
    s.orderRow row run = s.wordsRead.execute run (readData s.mem ws) := by
  obtain ⟨⟨adr, held⟩, stop, rfl⟩ := h
  have held : s.port.holder = some (.internal (.orderRead adr) ws false) := held
  simp only [State.orderRow, held, stop, hv, Bool.false_eq_true, if_false, and_self, if_true, State.completed_read]

/-- The state of a failed fetch ahead of what its end serves: the answer taken, the head told, ORDER_FAULT raised. -/
def State.fetchLost (ws : List PortWord) (s : State) : State :=
  ((s.completed ws [.error false] false).putEngine (s.engine.headOutcome (.fault .memory))).raise .orderFault

theorem State.fetchFailed_eq (s : State) (ws : List PortWord) :
    (s.completed ws [.error false] false).fetchFailed = (s.fetchLost ws).endChain := by
  have engine : (s.completed ws [.error false] false).engine = s.engine := by simp
  unfold State.fetchFailed State.fetchLost
  rw [engine]

/-- An answer that did not land changes no byte. -/
theorem Memory.answers_lost (m : List Host.Cell) (ws : List PortWord) : Memory.answers m ws [.error false] = m := by
  cases ws with
  | nil => simp [Memory.answers]
  | cons w ws =>
    show Memory.answers (Memory.answer m w (.error false)) ws [] = m
    rw [Memory.answer_error_lost]
    simp [Memory.answers]

theorem State.fetchLost_effect (s : State) (ws : List PortWord) :
    s.fetchLost ws = { s with
        port := { s.port with holder := none }, engine := s.engine.headOutcome (.fault .memory)
        control := (s.fetchLost ws).control }
      ∧ (s.fetchLost ws).control.flags.getLsbD (flagBit .memoryFault) = true
      ∧ (s.fetchLost ws).control.flags.getLsbD (flagBit .orderFault) = true := by
  obtain ⟨shape, -, fault, -⟩ := s.completed_effect ws [.error false]
  refine ⟨?_, ?_, State.raise_flag _ _⟩
  · rw [Memory.answers_lost] at shape
    show { s.completed ws [.error false] false with
      engine := s.engine.headOutcome (.fault .memory), control := (s.fetchLost ws).control } = _
    rw [shape]
  · refine State.keepsFlags_raise _ .orderFault _ ?_
    rw [State.putEngine_control .. |>.2.1]
    exact fault ⟨_, List.mem_singleton_self _, nofun⟩

/-- Settles O43: the failed fetch ends its chain, and the order that a stop caught is written back. -/
theorem fetchErrorAndCancellation : Obligations.FetchErrorAndCancellation := by
  unfold Obligations.FetchErrorAndCancellation
  refine ⟨fun s adr ws h => ?_, fun s adr ws h stop => ?_⟩
  · obtain ⟨shape, memFault, orderFault⟩ := s.fetchLost_effect ws
    obtain ⟨headShape, bindings, tie⟩ := Engine.headOutcome_spec (.fault .memory) s.engine
    generalize hz : s.fetchLost ws = z at shape memFault orderFault
    have zengine : z.engine = s.engine.headOutcome (.fault .memory) := by rw [shape]
    obtain ⟨eq, -, ⟨flags, -, -, -⟩, -, port⟩ := z.engineOnly_endChain
    obtain ⟨stop, idle, serves, -⟩ := z.endChain_effect
    obtain ⟨l, queue, reads⟩ := State.serveStarts_queue (z.putEngine z.engine.ended)
    rw [← State.endChain_eq] at queue
    have running : z.endChain.engine.running = none := State.serveStarts_running (s := z.putEngine z.engine.ended) rfl
    have idleBinding : ∀ k, (z.engine.bindings.get k).pending = false →
        z.endChain.engine.bindings.get k = z.engine.bindings.get k :=
      fun k hk => State.serveStarts_other (s := z.putEngine z.engine.ended) hk
    generalize hy : z.endChain = y at *
    have zqueue : z.port.queue = s.port.queue := by rw [shape]
    obtain ⟨settled, setup, towers, loader⟩ := State.settle_towersKept (s := s) (y := y) (by rw [eq, shape])
    have exec : State.settle s (s.complete IReq.isOrderRead [.error false] (fun _ _ => State.fetchFailed))
        = y.offerChannel := by
      rw [State.complete_eq h rfl, State.fetchFailed_eq, hz, hy, settled]
    have yengine : y.offerChannel.engine = y.engine := by simp
    rw [← yengine] at stop idle serves running idleBinding
    have bindings : ∀ k, z.engine.bindings.get k = if s.engine.visited = 1 ∧ s.engine.tie = some k
        then ⟨false, false, (s.engine.bindings.get k).index⟩ else s.engine.bindings.get k := fun k => by
      rw [zengine, bindings k]
      simp [OrderOutcome.disarms]
    have slot : z.engine.slot = s.engine.slot := by rw [zengine, headShape]
    refine ⟨_, congrArg Host.Outcome.next exec, ?_, running, stop, by simpa [flags], by simpa [flags], fun a => ?_, ?_,
      fun a hw w hm => ?_, fun quiet => ?_, fun k visited tied => ?_, fun waits => serves ?_, ?_, setup, ?_, towers, ?_,
      loader⟩
    · rw [y.offerChannel_holder, port.1, shape]
    · rw [State.offerChannel_keeps .. |>.2.1, eq, shape]
    · rw [← zqueue]
      exact port.2.2.2.2.trans y.samePort_offerChannel.2.2.2.2
    · have offered := State.orderWrite_of_offerChannel hm
      rw [queue, List.mem_append] at offered
      rcases offered with old | new
      · rw [← zqueue]
        exact old
      · obtain ⟨_, e⟩ := reads _ new
        cases e
    · have none : z.engine.noneWaits := by
        refine ⟨fun k => ?_, slot.trans quiet.2⟩
        rw [bindings k]
        split
        · rfl
        · exact quiet.1 k
      rw [idle none]
      exact ⟨rfl, bindings⟩
    · have here := bindings k
      rw [if_pos ⟨visited, tied⟩] at here
      rw [idleBinding k (by rw [here]), here]
    · rintro ⟨none, empty⟩
      rcases waits with waits | ⟨k, waits, free⟩
      · rw [slot] at empty
        rw [empty] at waits
        cases waits
      · have := none k
        rw [bindings k, if_neg free, waits] at this
        cases this
    · rw [State.offerChannel_keeps .. |>.2.2.2.1, eq, shape]
    · rw [State.offerChannel_keeps .. |>.2.2.2.2.2.1, eq, shape]
    · rw [State.offerChannel_keeps .. |>.2.2.2.2.2.2.2.2.2.2.2.2.1, eq, shape]
  · have step : State.settle s s.orderCancelled
        = State.settle s (s.wordsRead.writeBack (readData s.mem ws) .cancelled) := by
      rw [State.orderCancelled_eq h stop]
    have towers := State.settle_of_towers (s0 := s) (s := s.wordsRead.writeBack (readData s.mem ws) .cancelled) rfl
    have back := State.settle_writeBack (s := s) (y := s.wordsRead) ws .cancelled rfl rfl rfl
    refine ⟨_, congrArg Host.Outcome.next step, back, ?_, ?_, by simp [State.wordsRead],
      ⟨by simp [State.wordsRead], by simp [State.wordsRead], by simp [State.wordsRead], by simp [State.wordsRead],
        by simp [State.wordsRead]⟩, by simp [State.wordsRead], ⟨by rw [towers]; simp [State.wordsRead],
        by rw [towers]; simp [State.wordsRead]⟩, by simp [State.wordsRead], by simp [State.wordsRead],
      ⟨by simp [State.wordsRead], by simp [State.wordsRead], by simp [State.wordsRead], by simp [State.wordsRead],
        by simp [State.wordsRead]⟩,
      ⟨by simp [State.wordsRead], by simp [State.wordsRead], by simp [State.wordsRead], by simp [State.wordsRead]⟩⟩
    · rw [State.settle_keeps .. |>.2.2.2.2.2.2.2.2.2.1]
      show (s.engine.headOutcome .cancelled).bindings = _
      rw [Engine.headOutcome, if_neg fun c => nomatch c.2]
    · rw [back.1]
      exact stop

end Sys2Proof.Machine
end

section
/-! PROOFS. The orders that pass their checks: what their verbs do, and the write-back that follows. -/

namespace Sys2Proof.Machine

/-! ### An order that is executed -/

theorem State.execute_ok {s y : State} {ws : List Word} {run : OrderRec → State → Except FaultCode State}
    (hc : s.engine.commonFault (orderRec ws) = none) (hr : run (orderRec ws) s = .ok y) :
    s.execute run ws = y.writeBack ws (successOutcome (orderRec ws)) := by
  simp only [State.execute, hc, hr]

theorem State.execute_error {s : State} {ws : List Word} {run : OrderRec → State → Except FaultCode State}
    {code : FaultCode} (hc : s.engine.commonFault (orderRec ws) = none) (hr : run (orderRec ws) s = .error code) :
    s.execute run ws = s.writeBack ws (.fault code) := by
  simp only [State.execute, hc, hr]

theorem State.execute_fault {s : State} {ws : List Word} {run : OrderRec → State → Except FaultCode State}
    {code : FaultCode} (hc : s.engine.commonFault (orderRec ws) = some code) :
    s.execute run ws = s.writeBack ws (.fault code) := by
  simp only [State.execute, hc]

theorem successOutcome_eq (r : OrderRec) : successOutcome r = if r.runsLeft = 1 then .exhausted else .done := rfl

/-- A fetched order that runs to a state is written back a success from there. -/
theorem State.orderRow_ok {s y : State} {ws : List PortWord} {r : OrderRec} {row : Nat → Bool}
    {run : OrderRec → State → Except FaultCode State} (h : s.fetched ws r) (hv : row r.verb = true)
    (hc : s.engine.commonFault r = none) (hr : run r s.wordsRead = .ok y) : s.orderRow row run
      = y.writeBack (readData s.mem ws) (if r.runsLeft = 1 then .exhausted else .done) := by
  rw [State.orderRow_eq h hv]
  obtain ⟨-, -, rfl⟩ := h
  exact State.execute_ok hc hr

theorem State.orderRow_error {s : State} {ws : List PortWord} {r : OrderRec} {row : Nat → Bool} {code : FaultCode}
    {run : OrderRec → State → Except FaultCode State} (h : s.fetched ws r) (hv : row r.verb = true)
    (hc : s.engine.commonFault r = none) (hr : run r s.wordsRead = .error code) : s.orderRow row run
      = s.wordsRead.writeBack (readData s.mem ws) (.fault code) := by
  rw [State.orderRow_eq h hv]
  obtain ⟨-, -, rfl⟩ := h
  exact State.execute_error hc hr

theorem State.orderRow_fault {s : State} {ws : List PortWord} {r : OrderRec} {row : Nat → Bool} {code : FaultCode}
    (h : s.fetched ws r) (hv : row r.verb = true) (hc : s.engine.commonFault r = some code)
    (run : OrderRec → State → Except FaultCode State) : s.orderRow row run
      = s.wordsRead.writeBack (readData s.mem ws) (.fault code) := by
  rw [State.orderRow_eq h hv]
  obtain ⟨-, -, rfl⟩ := h
  exact State.execute_fault hc

/-- What a verb that has run may have changed: the towers, the coverage unit, and the control unit but for its
settings. -/
structure State.VerbRan (s y : State) : Prop where
  eq : y = { s.wordsRead with towers := y.towers, coverage := y.coverage, control := y.control }
  settings : s.sameSettings y

theorem State.VerbRan.refl (s : State) : s.VerbRan s.wordsRead := ⟨rfl, rfl, rfl, rfl, rfl, rfl⟩

/-- What the write-back and all that follows leave of a verb's work. -/
theorem State.settle_verbRan {s y : State} (h : s.VerbRan y) (ws : List PortWord) (o : OrderOutcome) :
    ∃ t, State.settle s (y.writeBack (readData s.mem ws) o) = t ∧ s.writesBack t ws o
      ∧ (∀ (u : Tower) (sl : Slot), (t.towers[u].recs[sl]).values = (y.towers[u].recs[sl]).values)
      ∧ (s.link.tx ≠ .idle ∨ (∀ u : Tower, y.towers[u].linkView = s.towers[u].linkView) →
          t.towers = y.towers ∧ t.link = s.link
            ∧ t.control.mirror = (y.writeBack (readData s.mem ws) o).control.mirror)
      ∧ t.coverage = y.coverage ∧ t.control.flags = y.control.flags ∧ t.control.capture = y.control.capture
      ∧ (s.sameEvents y → s.sameEvents t) ∧ t.bus = s.bus ∧ s.sameSetup t ∧ t.loop = s.loop ∧ t.loader = s.loader
      ∧ s.sameSettings t := by
  obtain ⟨eq, part, enables, mode, addr, datum⟩ := h
  have back := State.settle_writeBack (s := s) (y := y) ws o (by rw [eq]; rfl) (by rw [eq]; rfl) (by rw [eq]; rfl)
  have fields : y.bus = s.bus ∧ y.windows = s.windows ∧ y.curves = s.curves ∧ y.timeout = s.timeout
      ∧ y.levels = s.levels ∧ y.pending = s.pending ∧ y.loop = s.loop ∧ y.loader = s.loader ∧ y.link = s.link := by
    rw [eq]
    exact ⟨rfl, rfl, rfl, rfl, rfl, rfl, rfl, rfl, rfl⟩
  obtain ⟨bus, windows, curves, timeout, levels, pending, loop, loader, link⟩ := fields
  refine ⟨_, rfl, back, fun u sl => ?_, fun quiet => ?_, by simp, by simp, by simp, fun ⟨f, c, l, n⟩ => ?_, by simpa,
    ⟨by simpa, by simpa, by simpa, by simpa, by simpa⟩, by simpa, by simpa,
    ⟨by simpa, by simpa, by simpa, by simpa, by simpa⟩⟩
  · rw [State.settle_values]
    rfl
  · have settled : State.settle s (y.writeBack (readData s.mem ws) o)
        = (y.writeBack (readData s.mem ws) o).offerChannel := by
      rcases quiet with busy | same
      · exact State.settle_of_tx (by simpa [link] using busy)
      · exact State.settle_of_view same
    rw [settled]
    exact ⟨by simp, by simpa, by simp⟩
  · exact ⟨by simpa, by simpa, by simpa, by simpa⟩

/-! ### Orders over towers -/

theorem State.towerSet_nodup {s : State} {keyed : Bool} {r : OrderRec} {ts : List Tower}
    (h : s.towerSet keyed r = .ok ts) : ts.Nodup := by
  unfold State.towerSet at h
  dsimp only at h
  repeat' split at h
  all_goals cases h
  · exact allTowers_nodup.sublist List.filter_sublist
  · exact List.pairwise_singleton _ _

theorem State.VerbRan.modTower {s y : State} (h : s.VerbRan y) (t : Tower) (f : TowerState → TowerState) :
    s.VerbRan (y.modTower t f) := by
  obtain ⟨eq, part, enables, mode, addr, datum⟩ := h
  refine ⟨?_, ⟨by simpa, by simpa, by simpa, by simpa, by simpa⟩⟩
  show { y with towers := (y.modTower t f).towers, control := (y.modTower t f).control } = _
  rw [eq]
  rfl

theorem State.VerbRan.modTowers {s y : State} (h : s.VerbRan y) (f : TowerState → TowerState) (ts : List Tower) :
    s.VerbRan (y.modTowers f ts) := by
  induction ts generalizing y with
  | nil => exact h
  | cons t ts ih => exact ih (h.modTower t f)

/-- The event of an order that has only changed towers. -/
theorem State.exec_towerOrder {s y : State} {c : Instr} {ws : List PortWord} {o : OrderOutcome}
    (he : exec c s = .next (State.settle s (y.writeBack (readData s.mem ws) o))) (hy : s.VerbRan y)
    (cov : y.coverage = s.coverage) (events : s.sameEvents y) :
    ∃ t, exec c s = .next t ∧ s.writesBack t ws o
      ∧ (∀ (u : Tower) (sl : Slot), (t.towers[u].recs[sl]).values = (y.towers[u].recs[sl]).values)
      ∧ (s.link.tx ≠ .idle ∨ (∀ u : Tower, y.towers[u].linkView = s.towers[u].linkView) →
          t.towers = y.towers ∧ t.link = s.link)
      ∧ t.bus = s.bus ∧ s.sameSetup t ∧ t.coverage = s.coverage ∧ t.loop = s.loop ∧ t.loader = s.loader
      ∧ s.sameSettings t ∧ s.sameEvents t := by
  obtain ⟨t, ht, back, values, quiet, coverage, -, -, same, bus, setup, loop, loader, settings⟩ :=
    State.settle_verbRan hy ws o
  refine ⟨t, he.trans (congrArg _ ht), back, values, fun h => ?_, bus, setup, coverage.trans cov, loop, loader, settings,
    same events⟩
  obtain ⟨towers, link, -⟩ := quiet h
  exact ⟨towers, link⟩

/-! ### The key-range verbs -/

theorem mem_orderSlots {r : OrderRec} {tw : TowerState} {sl : Slot} : sl ∈ orderSlots r tw ↔ tw.present sl = true
    ∧ (if sl = fountainSlot then r.fountain = true else r.first ≤ sl.val ∧ sl.val ≤ r.last) := by
  unfold orderSlots
  rw [List.mem_filter, TowerState.mem_slots]
  split <;> simp

theorem orderSlots_nodup (r : OrderRec) (tw : TowerState) : (orderSlots r tw).Nodup :=
  tw.slots_nodup.sublist List.filter_sublist

/-- The records that an order touches take their new values and their targets; the others stay. -/
theorem TowerState.revalueEvent_values (f : Slot → KeyRec → KeyRec) (r : OrderRec) (tw : TowerState) (sl : Slot) :
    (sl ∈ orderSlots r tw → ((tw.revalueEvent f (orderSlots r)).recs[sl]).values = ({ f sl tw.recs[sl] with
        target := composed tw.cfg tw.parkHold sl (f sl tw.recs[sl]) } : KeyRec).values)
      ∧ (sl ∉ orderSlots r tw → ((tw.revalueEvent f (orderSlots r)).recs[sl]).values = (tw.recs[sl]).values) := by
  obtain ⟨-, -, recs⟩ := TowerState.revalueEvent_spec f (orderSlots r) tw (orderSlots_nodup r tw)
  obtain ⟨touched, other⟩ := recs sl
  refine ⟨fun h => ?_, fun h => by rw [other h]⟩
  obtain ⟨m, hm⟩ := touched h
  rw [hm]
  rfl

theorem State.keyRange_ok {s : State} {r : OrderRec} {ts : List Tower} (h : s.towerSet true r = .ok ts)
    (f : KeyRec → KeyRec) : s.wordsRead.keyRange r f
      = .ok (s.wordsRead.modTowers (TowerState.revalueEvent (fun _ => f) (orderSlots r)) ts) := by
  have h : s.wordsRead.towerSet true r = .ok ts := h
  simp only [State.keyRange, h]

/-- Any of the five key-range verbs over its towers. -/
theorem State.exec_keyRange {s : State} {c : Instr} {ws : List PortWord} {r : OrderRec} {ts : List Tower}
    {row : Nat → Bool} {g : OrderRec → KeyRec → KeyRec} {f : KeyRec → KeyRec}
    (he : exec c s = .next (State.settle s (s.orderRow row (fun r => State.keyRange r (g r))))) (h : s.fetched ws r)
    (hv : row r.verb = true) (hc : s.engine.commonFault r = none) (ht : s.towerSet true r = .ok ts) (hf : g r = f)
    (keeps : KeepsMoves (fun _ => f)) :
    ∃ t, exec c s = .next t ∧ s.writesBack t ws (if r.runsLeft = 1 then .exhausted else .done)
      ∧ (∀ (u : Tower) (sl : Slot), u ∈ ts → s.towers[u].present sl = true →
          (if sl = fountainSlot then r.fountain = true else r.first ≤ sl.val ∧ sl.val ≤ r.last) →
          (t.towers[u].recs[sl]).base = (f (s.towers[u].recs[sl])).base
            ∧ (t.towers[u].recs[sl]).trim = (f (s.towers[u].recs[sl])).trim
            ∧ (t.towers[u].recs[sl]).correction = (f (s.towers[u].recs[sl])).correction
            ∧ (t.towers[u].recs[sl]).hold = (f (s.towers[u].recs[sl])).hold
            ∧ (t.towers[u].recs[sl]).ramp = (f (s.towers[u].recs[sl])).ramp
            ∧ (t.towers[u].recs[sl]).target
                = composed s.towers[u].cfg s.towers[u].parkHold sl (f (s.towers[u].recs[sl])))
      ∧ (∀ (u : Tower) (sl : Slot),
          ¬(u ∈ ts ∧ s.towers[u].present sl = true
            ∧ (if sl = fountainSlot then r.fountain = true else r.first ≤ sl.val ∧ sl.val ≤ r.last)) →
          (t.towers[u].recs[sl]).values = (s.towers[u].recs[sl]).values)
      ∧ (s.link.tx ≠ .idle → s.handedOn t)
      ∧ t.bus = s.bus ∧ s.sameSetup t ∧ t.coverage = s.coverage ∧ t.loop = s.loop ∧ t.loader = s.loader
      ∧ s.sameSettings t ∧ s.sameEvents t := by
  generalize hy : s.wordsRead.modTowers (TowerState.revalueEvent (fun _ => f) (orderSlots r)) ts = y
  have ran : State.keyRange r (g r) s.wordsRead = .ok y := by rw [hf, ← hy]; exact State.keyRange_ok ht f
  have towers : ∀ u : Tower, y.towers[u]
      = if u ∈ ts then s.towers[u].revalueEvent (fun _ => f) (orderSlots r) else s.towers[u] := fun u => by
    rw [← hy, State.modTowers_get _ _ (State.towerSet_nodup ht)]
    rfl
  obtain ⟨t, exec, back, values, busy, rest⟩ := State.exec_towerOrder (y := y)
    (he.trans (by rw [State.orderRow_ok h hv hc ran])) (hy ▸ (State.VerbRan.refl s).modTowers _ _)
    (by rw [← hy]; simp [State.wordsRead])
    (by
      rw [← hy]
      exact ⟨by simp [State.wordsRead], by simp [State.wordsRead], by simp [State.wordsRead], by simp [State.wordsRead]⟩)
  refine ⟨t, exec, back, fun u sl hu hp hr => ?_, fun u sl hn => ?_, fun htx u => ?_, rest⟩
  · have touched := (TowerState.revalueEvent_values (fun _ => f) r s.towers[u] sl).1 (mem_orderSlots.2 ⟨hp, hr⟩)
    have all := values u sl
    rw [towers, if_pos hu, touched] at all
    exact KeyRec.values_eq all
  · rw [values, towers]
    split
    · next hu =>
      exact (TowerState.revalueEvent_values (fun _ => f) r s.towers[u] sl).2 fun hm => hn ⟨hu, mem_orderSlots.1 hm⟩
    · rfl
  · rw [(busy (.inl htx)).1, towers]
    split
    · exact TowerState.revalueEvent_handedOn keeps _ rfl
    · exact TowerState.handedOn_refl _

/-- Settles O44: each of the five verbs is one change of record over the towers' clipped ranges. -/
theorem keyRangeOrdersExecute : Obligations.KeyRangeOrdersExecute := by
  unfold Obligations.KeyRangeOrdersExecute
  intro s ws r ts c f h hc ht hv
  rcases hv with ⟨rfl, verb, rfl⟩ | ⟨rfl, verb, rfl⟩ | ⟨rfl, verb, rfl⟩ | ⟨rfl, verb, rfl⟩ | ⟨rfl, verb, rfl⟩
  · exact State.exec_keyRange (g := fun r => setTrim r.value) rfl h (by rw [verb]; rfl) hc ht rfl
      fun _ _ => ⟨_, _, _, _, _, rfl⟩
  · exact State.exec_keyRange (g := fun r => addTrim r.value) rfl h (by rw [verb]; rfl) hc ht rfl
      fun _ _ => ⟨_, _, _, _, _, rfl⟩
  · exact State.exec_keyRange (g := fun _ => setCorrection 0) rfl h (by rw [verb]; rfl) hc ht rfl
      fun _ _ => ⟨_, _, _, _, _, rfl⟩
  · exact State.exec_keyRange (g := fun _ => setHold true) rfl h (by rw [verb]; rfl) hc ht rfl
      fun _ _ => ⟨_, _, _, _, _, rfl⟩
  · exact State.exec_keyRange (g := fun _ => setHold false) rfl h (by rw [verb]; rfl) hc ht rfl
      fun _ _ => ⟨_, _, _, _, _, rfl⟩

end Sys2Proof.Machine
end

section
/-! PROOFS. The orders PRESET, the bank orders, the loop orders and NOP, and the checks that stop an order. -/

namespace Sys2Proof.Machine

/-! ### PRESET -/

theorem State.foldl_modTower_get (f : Tower → TowerState → TowerState) (ts : List Tower) (h : ts.Nodup) (s : State)
    (u : Tower) : (ts.foldl (fun s t => s.modTower t (f t)) s).towers[u]
      = if u ∈ ts then f u s.towers[u] else s.towers[u] := by
  induction ts generalizing s with
  | nil => simp
  | cons t ts ih =>
    obtain ⟨fresh, rest⟩ := List.nodup_cons.1 h
    rw [List.foldl_cons, ih rest, State.modTower_get]
    by_cases hu : u = t
    · subst hu
      rw [if_neg fresh, if_pos rfl, if_pos List.mem_cons_self]
    · rw [if_neg hu]
      simp only [List.mem_cons, hu, false_or]

theorem State.VerbRan.foldl_modTower {s y : State} (h : s.VerbRan y) (f : Tower → TowerState → TowerState)
    (ts : List Tower) : s.VerbRan (ts.foldl (fun s t => s.modTower t (f t)) y)
      ∧ (ts.foldl (fun s t => s.modTower t (f t)) y).coverage = y.coverage
      ∧ y.sameEvents (ts.foldl (fun s t => s.modTower t (f t)) y) := by
  induction ts generalizing y with
  | nil => exact ⟨h, rfl, rfl, rfl, rfl, rfl⟩
  | cons t ts ih =>
    obtain ⟨ran, cov, flags, capture, line, notice⟩ := ih (h.modTower t (f t))
    exact ⟨ran, cov.trans (by simp), flags.trans (by simp), capture.trans (by simp), line.trans (by simp),
      notice.trans (by simp)⟩

theorem composed_congr {x y : KeyRec} (cfg : Option KeyCfg) (park : Bool) (sl : Slot) (hb : x.base = y.base)
    (ht : x.trim = y.trim) (hc : x.correction = y.correction) (hh : x.hold = y.hold) (hr : x.ramp = y.ramp) :
    composed cfg park sl x = composed cfg park sl y := by
  unfold composed KeyRec.rb KeyRec.offset
  rw [hb, ht, hc, hh, hr]

theorem presetRec_eq (r : OrderRec) (b : Nat) (x : KeyRec) : presetRec r b x = { x with
    base := b
    ramp := if r.ramp = false then none else if x.rbOpening = b then none else some ⟨x.rbOpening, b, 0, r.steps⟩ } := by
  unfold presetRec
  cases r.ramp <;> rfl

theorem keepsMoves_preset (r : OrderRec) (b : Slot → Nat) : KeepsMoves (fun sl => presetRec r (b sl)) := fun sl x =>
  ⟨_, _, _, _, _, presetRec_eq r (b sl) x⟩

theorem State.presetFault_none {s : State} {r : OrderRec} {ts : List Tower} (hc : r.curve ≤ 15 ∨ r.curve = 31)
    (hr : r.ramp = true → 1 ≤ r.steps ∧ r.steps ≤ 64)
    (hl : (s.coverage.banks.get (s.coverage.role r.standby)).state = .locked)
    (hf : ∀ u ∈ ts, (s.coverage.frame (s.coverage.role r.standby) u).fit = true) : s.presetFault r ts = none := by
  unfold State.presetFault
  dsimp only
  rw [if_neg (Classical.not_not.2 hc), if_neg fun c => c.2 (hr c.1), if_neg (Classical.not_not.2 hl), if_pos (List.all_eq_true.2 hf)]

/-- PRESET's change of one tower (R43). -/
def State.presetOver (s : State) (r : OrderRec) (u : Tower) (tw : TowerState) : TowerState :=
  tw.revalueEvent (fun sl => presetRec r (s.presetBase r u sl)) (orderSlots r)

theorem State.runPreset_ok {s : State} {r : OrderRec} {ts : List Tower} (ht : s.towerSet true r = .ok ts)
    (hf : s.presetFault r ts = none) : s.wordsRead.runPreset r
      = .ok (ts.foldl (fun x t => x.modTower t (s.presetOver r t)) s.wordsRead) := by
  have ht : s.wordsRead.towerSet true r = .ok ts := ht
  have hf : s.wordsRead.presetFault r ts = none := hf
  simp only [State.runPreset, ht, hf]
  rfl

/-- Settles O45: PRESET is one change of record over its towers' clipped ranges, to the base that the curve gives. -/
theorem presetExecutes : Obligations.PresetExecutes := by
  unfold Obligations.PresetExecutes
  refine ⟨fun s ws r ts h hc verb ht curve steps locked fit => ?_, fun curves r c sl n x hn hx => ?_⟩
  · generalize hy : ts.foldl (fun x t => x.modTower t (s.presetOver r t)) s.wordsRead = y
    have ran := State.runPreset_ok ht (State.presetFault_none curve steps locked fit)
    rw [hy] at ran
    obtain ⟨verbRan, cov, events⟩ := (State.VerbRan.refl s).foldl_modTower (s.presetOver r) ts
    rw [hy] at verbRan cov events
    have towers : ∀ u : Tower, y.towers[u] = if u ∈ ts then s.presetOver r u s.towers[u] else s.towers[u] := fun u => by
      rw [← hy, State.foldl_modTower_get _ _ (State.towerSet_nodup ht)]
      rfl
    obtain ⟨t, exec, back, values, busy, rest⟩ := State.exec_towerOrder (c := .preset) (y := y)
      (congrArg (Host.Outcome.next ∘ State.settle s) (State.orderRow_ok h (by rw [verb]; rfl) hc ran)) verbRan cov events
    refine ⟨t, exec, back, fun u sl hu hp hr => ?_, fun u sl hn => ?_, fun htx u => ?_, rest⟩
    · have touched := (TowerState.revalueEvent_values (fun sl => presetRec r (s.presetBase r u sl)) r s.towers[u] sl).1
        (mem_orderSlots.2 ⟨hp, hr⟩)
      have all := values u sl
      rw [towers, if_pos hu, State.presetOver, touched, presetRec_eq] at all
      obtain ⟨base, trim, correction, hold, ramp, target⟩ := KeyRec.values_eq all
      refine ⟨base, ramp.trans ?_, trim, correction, hold, target.trans ?_⟩
      · rw [base]
      · exact composed_congr _ _ _ base.symm trim.symm correction.symm hold.symm ramp.symm
    · rw [values, towers]
      split
      · next hu =>
        exact (TowerState.revalueEvent_values _ r s.towers[u] sl).2 fun hm => hn ⟨hu, mem_orderSlots.1 hm⟩
      · rfl
    · rw [(busy (.inl htx)).1, towers]
      split
      · exact TowerState.revalueEvent_handedOn (keepsMoves_preset r _) _ rfl
      · exact TowerState.handedOn_refl _
  · simp only [presetCurve]
    rw [← hn, List.getD_eq_getElem?_getD, hx, Option.getD_some]

/-! ### Bank orders -/

theorem Control.report_keepsMirror (c : Control) (w : CtlWord) {i : Nat} (h : c.mirror.getLsbD i = true) :
    (c.report w).mirror.getLsbD i = true := by
  unfold Control.report
  split
  · simp [h]
  · exact h

theorem Engine.reports_keepsMirror (old new : Engine) {c : Control} {i : Nat} (h : c.mirror.getLsbD i = true) :
    (Engine.reports old new c).mirror.getLsbD i = true := by
  have binds : ∀ (l : List Source) (c : Control), c.mirror.getLsbD i = true →
      (l.foldl (Engine.reportBind old new) c).mirror.getLsbD i = true := by
    intro l
    induction l with
    | nil => exact fun c h => h
    | cons k l ih =>
      refine fun c h => ih _ ?_
      unfold Engine.reportBind
      split
      · exact h
      · exact Control.report_keepsMirror _ _ h
  unfold Engine.reports
  refine binds _ _ ?_
  have view : (if old.view = new.view then c else c.report wordEngine).mirror.getLsbD i = true := by
    split
    · exact h
    · exact Control.report_keepsMirror _ _ h
  dsimp only
  split
  · exact view
  · exact Control.report_keepsMirror _ _ (Control.report_keepsMirror _ _ view)

/-- The BANK word's report after a bank order (R34; log 30). -/
def BankCmd.reports (c : Coverage) (cmd : BankCmd) : Bool :=
  match cmd with
  | .clear _ => true
  | cmd => (c.command cmd).2.wordFields != c.wordFields

/-- The state that an ACCEPTED bank order leaves ahead of its write-back. -/
def State.bankOrdered (cmd : BankCmd) (s : State) : State :=
  (({ s.wordsRead with coverage := (s.coverage.command cmd).2 } : State).raiseIf (cmd.opensAtOnce s.coverage)
    .bankReady).reportIf (cmd.reports s.coverage) wordBank

theorem State.orderBank_eq (cmd : BankCmd) (s : State) : s.wordsRead.orderBank cmd
    = if (s.coverage.command cmd).1 = .accepted then .ok (s.bankOrdered cmd) else .error .bankState := by
  cases cmd <;> rfl

theorem Coverage.command_refused {c : Coverage} {cmd : BankCmd} (h : (c.command cmd).1 ≠ .accepted) :
    (c.command cmd).2 = c := by
  unfold Coverage.command at *
  repeat' split at h
  all_goals simp_all

theorem State.bankOrdered_effect (cmd : BankCmd) (s : State) : s.VerbRan (s.bankOrdered cmd)
    ∧ (s.bankOrdered cmd).coverage = (s.coverage.command cmd).2 ∧ (s.bankOrdered cmd).towers = s.towers
    ∧ (s.bankOrdered cmd).control.capture = s.control.capture
    ∧ (cmd.opensAtOnce s.coverage = false → s.sameEvents (s.bankOrdered cmd))
    ∧ (cmd.opensAtOnce s.coverage = true → s.raised .bankReady (s.bankOrdered cmd))
    ∧ (cmd.reports s.coverage = true → s.control.part = .running →
        (s.bankOrdered cmd).control.mirror.getLsbD 4 = true) := by
  unfold State.bankOrdered
  refine ⟨⟨?_, by simp [State.wordsRead], by simp [State.wordsRead], by simp [State.wordsRead], by simp [State.wordsRead],
    by simp [State.wordsRead]⟩, by simp, by simp [State.wordsRead], by simp [State.wordsRead], fun h => ?_, fun h => ?_,
    fun h run => ?_⟩
  · cases cmd.opensAtOnce s.coverage <;> rfl
  · rw [h]
    exact ⟨by simp [State.raiseIf, State.wordsRead], by simp [State.wordsRead], by simp [State.raiseIf, State.wordsRead],
      by simp [State.raiseIf, State.wordsRead]⟩
  · rw [h, State.raised, State.reportIf_control .. |>.2.1]
    exact State.raise_flags .bankReady _
  · rw [h]
    refine (Control.report_mirror wordBank 4 _).trans ?_
    simp [State.wordsRead, run, wordBank]

/-- A bank order: it commands the bank, and any answer but ACCEPTED faults it (R120). -/
theorem State.exec_bankOrder {s : State} {c : Instr} {cmd : BankCmd} {ws : List PortWord} {r : OrderRec}
    {row : Nat → Bool} {run : OrderRec → State → Except FaultCode State}
    (he : exec c s = .next (State.settle s (s.orderRow row run))) (h : s.fetched ws r) (hv : row r.verb = true)
    (hc : s.engine.commonFault r = none) (hr : run r s.wordsRead = s.wordsRead.orderBank cmd) :
    ∃ t, exec c s = .next t ∧ t.coverage = (s.coverage.command cmd).2
      ∧ s.writesBack t ws (if (s.coverage.command cmd).1 = .accepted
          then (if r.runsLeft = 1 then .exhausted else .done) else .fault .bankState)
      ∧ (cmd.opensAtOnce s.coverage = false ∨ (s.coverage.command cmd).1 ≠ .accepted → s.sameEvents t)
      ∧ ((s.coverage.command cmd).1 = .accepted → cmd.opensAtOnce s.coverage = true →
          s.raised .bankReady t ∧ t.control.capture = s.control.capture)
      ∧ ((s.coverage.command cmd).1 = .accepted → cmd.reports s.coverage = true → s.control.part = .running →
          t.control.mirror.getLsbD 4 = true)
      ∧ t.bus = s.bus ∧ s.sameSetup t ∧ s.sameTowers t ∧ t.loop = s.loop ∧ t.loader = s.loader ∧ s.sameSettings t := by
  rw [State.orderBank_eq] at hr
  by_cases acc : (s.coverage.command cmd).1 = .accepted
  · rw [if_pos acc] at hr
    obtain ⟨ran, cov, towers, capture, quiet, opens, reported⟩ := s.bankOrdered_effect cmd
    obtain ⟨t, ht, back, -, still, tcov, tflags, tcapture, tevents, bus, setup, loop, loader, settings⟩ :=
      State.settle_verbRan ran ws (if r.runsLeft = 1 then .exhausted else .done)
    obtain ⟨ttowers, tlink, tmirror⟩ := still (.inr fun u => by rw [towers])
    refine ⟨t, he.trans ?_, tcov.trans cov, by rw [if_pos acc]; exact back, fun no => ?_, fun _ yes => ⟨?_, ?_⟩,
      fun _ rep run => ?_, bus, setup, ⟨ttowers.trans towers, tlink⟩, loop, loader, settings⟩
    · rw [State.orderRow_ok h hv hc hr, ht]
    · exact tevents (quiet (no.resolve_right (Classical.not_not.2 acc)))
    · rw [State.raised, tflags]
      exact opens yes
    · rw [tcapture, capture]
    · rw [tmirror]
      exact Engine.reports_keepsMirror _ _ (reported rep run)
  · rw [if_neg acc] at hr
    obtain ⟨t, ht, back, -, still, tcov, -, -, tevents, bus, setup, loop, loader, settings⟩ :=
      State.settle_verbRan (.refl s) ws (.fault .bankState)
    obtain ⟨ttowers, tlink, -⟩ := still (.inr fun u => rfl)
    refine ⟨t, he.trans ?_, tcov.trans (Coverage.command_refused acc).symm, by rw [if_neg acc]; exact back,
      fun _ => tevents ⟨rfl, rfl, rfl, rfl⟩, fun yes => absurd yes acc, fun yes => absurd yes acc, bus, setup,
      ⟨ttowers, tlink⟩, loop, loader, settings⟩
    rw [State.orderRow_error h hv hc hr, ht]

theorem selectedBank_some {v : Int} {bk : BankId} (h : (v = 0 ∧ bk = .a) ∨ (v = 1 ∧ bk = .b)) :
    selectedBank v = some bk := by
  rcases h with ⟨rfl, rfl⟩ | ⟨rfl, rfl⟩ <;> rfl

theorem selectedBank_none {v : Int} (h0 : v ≠ 0) (h1 : v ≠ 1) : selectedBank v = none := by
  rw [selectedBank, if_neg h0, if_neg h1]

/-- An order that its verb faults, changing nothing but the engine (R122). -/
theorem State.exec_faulted {s : State} {c : Instr} {ws : List PortWord} {code : FaultCode}
    (he : exec c s = .next (State.settle s (s.wordsRead.writeBack (readData s.mem ws) (.fault code)))) :
    ∃ t, exec c s = .next t ∧ s.onlyFaulted t ws code := by
  obtain ⟨t, ht, back, -, still, cov, -, -, events, bus, setup, loop, loader, settings⟩ :=
    State.settle_verbRan (.refl s) ws (.fault code)
  obtain ⟨towers, link, -⟩ := still (.inr fun u => rfl)
  exact ⟨t, he.trans (congrArg _ ht), back, bus, setup, cov, ⟨towers, link⟩, loop, loader, settings,
    events ⟨rfl, rfl, rfl, rfl⟩⟩

theorem Coverage.clear_busy {c : Coverage} (bk : BankId) (h : c.clearing .a = true ∨ c.clearing .b = true) :
    c.command (.clear bk) = (.refusedBusy, c) := if_pos (by simpa using h)

theorem Coverage.clear_noRange {c : Coverage} (bk : BankId) (ha : c.clearing .a = false) (hb : c.clearing .b = false)
    (hr : c.range = none) : c.command (.clear bk) = (.refusedState, c) := by
  rw [Coverage.command, if_neg (by simp [ha, hb]), hr]

theorem Coverage.clear_starts {c : Coverage} (bk : BankId) {g : CoverRange} (ha : c.clearing .a = false)
    (hb : c.clearing .b = false) (hr : c.range = some g) : c.command (.clear bk) = (.accepted, c.startClear g bk) := by
  rw [Coverage.command, if_neg (by simp [ha, hb]), hr]

/-- A CLEAR opens its bank at once exactly when its plan holds no word (R35). -/
theorem Coverage.clear_opens {c : Coverage} {bk : BankId} {g : CoverRange} (hr : c.range = some g)
    (acc : (c.command (.clear bk)).1 = .accepted) :
    (BankCmd.clear bk).opensAtOnce c = true ↔ planWords (clearPlan c g bk) = 0 := by
  have free : c.clearing .a = false ∧ c.clearing .b = false := by
    rw [← Bool.not_eq_true, ← Bool.not_eq_true, ← not_or]
    intro busy
    rw [Coverage.clear_busy bk busy] at acc
    cases acc
  have started := Coverage.clear_starts bk free.1 free.2 hr
  obtain ⟨-, -, -, -, -, -, -, -, empty, full⟩ := Coverage.startClear_effect (c := c) (g := g) (bk := bk) rfl
  simp only [BankCmd.opensAtOnce, started, decide_true, Bool.true_and, decide_eq_true_eq]
  refine ⟨fun opened => ?_, fun none => (empty none).1⟩
  refine Classical.byContradiction fun some => ?_
  rw [(full some).1] at opened
  cases opened

theorem Coverage.swap_locked {c : Coverage} (h : (c.banks.get (c.role true)).state = .locked) :
    c.command .swap = (.accepted, { c with active := c.role true }) := if_pos h

theorem Coverage.swap_unlocked {c : Coverage} (h : (c.banks.get (c.role true)).state ≠ .locked) :
    c.command .swap = (.refusedState, c) := if_neg h

/-- Settles O46: the bank orders command their bank as the BANK word does. -/
theorem bankOrdersExecute : Obligations.BankOrdersExecute := by
  unfold Obligations.BankOrdersExecute
  refine ⟨fun s ws r c cmd h hc hv => ⟨fun bk hb => ?_, fun h0 h1 => ?_⟩, fun s ws r h hc verb => ⟨fun locked => ?_,
    fun unlocked => ?_⟩, fun c bk => ⟨Coverage.clear_busy bk, Coverage.clear_noRange bk, fun g d ha hb hr hd => ?_, rfl, ?_⟩⟩
  · have named : State.orderNamedBank cmd r s.wordsRead = s.wordsRead.orderBank (cmd bk) := by
      simp only [State.orderNamedBank, selectedBank_some hb]
    rcases hv with ⟨rfl, verb, rfl⟩ | ⟨rfl, verb, rfl⟩ | ⟨rfl, verb, rfl⟩
    · obtain ⟨t, exec, cov, back, quiet, opens, reported, rest⟩ := State.exec_bankOrder (c := .clearBank)
        (run := State.orderNamedBank .clear) rfl h (by rw [verb]; rfl) hc named
      refine ⟨t, exec, cov, back, fun no => ⟨cov.trans (Coverage.command_refused no), quiet (.inr no)⟩,
        fun _ acc run => reported acc rfl run, fun _ acc g hr => ⟨fun none => ?_, fun some => quiet (.inl ?_)⟩,
        fun no => absurd rfl no, rest⟩
      · exact opens acc ((Coverage.clear_opens hr acc).2 none)
      · rw [← Bool.not_eq_true, Coverage.clear_opens hr acc]
        exact some
    · obtain ⟨t, exec, cov, back, quiet, -, -, rest⟩ := State.exec_bankOrder (c := .lockBank)
        (run := State.orderNamedBank .lock) rfl h (by rw [verb]; rfl) hc named
      exact ⟨t, exec, cov, back, fun no => ⟨cov.trans (Coverage.command_refused no), quiet (.inr no)⟩, nofun, nofun,
        fun _ => quiet (.inl rfl), rest⟩
    · obtain ⟨t, exec, cov, back, quiet, -, -, rest⟩ := State.exec_bankOrder (c := .unlockBank)
        (run := State.orderNamedBank .unlock) rfl h (by rw [verb]; rfl) hc named
      exact ⟨t, exec, cov, back, fun no => ⟨cov.trans (Coverage.command_refused no), quiet (.inr no)⟩, nofun, nofun,
        fun _ => quiet (.inl rfl), rest⟩
  · have unnamed : State.orderNamedBank cmd r s.wordsRead = .error .range := by
      simp only [State.orderNamedBank, selectedBank_none h0 h1]
    have faulted : ∀ {row : Nat → Bool}, row r.verb = true → exec c s
        = .next (State.settle s (s.orderRow row (State.orderNamedBank cmd))) → ∃ t, exec c s = .next t
          ∧ s.onlyFaulted t ws .range := fun hv he =>
      State.exec_faulted (he.trans (by rw [State.orderRow_error h hv hc unnamed]))
    obtain ⟨t, exec, back, bus, setup, cov, rest⟩ : ∃ t, exec c s = .next t ∧ s.onlyFaulted t ws .range := by
      rcases hv with ⟨rfl, verb, rfl⟩ | ⟨rfl, verb, rfl⟩ | ⟨rfl, verb, rfl⟩
      · exact faulted (by rw [verb]; rfl) rfl
      · exact faulted (by rw [verb]; rfl) rfl
      · exact faulted (by rw [verb]; rfl) rfl
    exact ⟨t, exec, back, cov, bus, setup, rest⟩
  · obtain ⟨t, exec, cov, back, quiet, -, -, bus, setup, towers, loop, loader, settings⟩ :=
      State.exec_bankOrder (c := .swapBanks) (cmd := .swap) (run := fun _ => State.orderBank .swap) rfl h
        (by rw [verb]; rfl) hc rfl
    rw [Coverage.swap_locked locked] at cov back
    exact ⟨t, exec, back, cov, bus, setup, towers, loop, loader, settings, quiet (.inl rfl)⟩
  · obtain ⟨t, exec, cov, back, quiet, -, -, bus, setup, towers, loop, loader, settings⟩ :=
      State.exec_bankOrder (c := .swapBanks) (cmd := .swap) (run := fun _ => State.orderBank .swap) rfl h
        (by rw [verb]; rfl) hc rfl
    rw [Coverage.swap_unlocked unlocked] at cov back
    exact ⟨t, exec, back, cov, bus, setup, towers, loop, loader, settings, quiet (.inl rfl)⟩
  · have started := Coverage.clear_starts bk ha hb hr
    rw [started] at hd ⊢
    obtain ⟨frames, other, active, geometry, range, waiting, noFold, fold, empty, full⟩ :=
      Coverage.startClear_effect hd
    exact ⟨rfl, frames, other, active, geometry, range, waiting, noFold, fold, empty, full⟩
  · cases h : (c.banks.get bk).state <;> simp only [Coverage.command, h]

end Sys2Proof.Machine
end

section
/-! PROOFS. The loop orders and NOP, and the checks that stop an order. -/

namespace Sys2Proof.Machine

/-! ### The loop orders -/

theorem TowerState.loopOn_linkView (tw : TowerState) : (tw.loopOn).2.linkView = tw.linkView := by
  unfold TowerState.loopOn
  repeat' split
  all_goals rfl

/-- A loop verb over its towers changes nothing that the transmitter looks at. -/
theorem State.exec_loopOrder {s : State} {c : Instr} {ws : List PortWord} {r : OrderRec} {ts : List Tower}
    {row : Nat → Bool} {f : TowerState → Result × TowerState}
    (he : exec c s = .next (State.settle s (s.orderRow row (State.orderLoop f)))) (h : s.fetched ws r)
    (hv : row r.verb = true) (hc : s.engine.commonFault r = none) (ht : s.towerSet false r = .ok ts)
    (view : ∀ tw, (f tw).2.linkView = tw.linkView) :
    ∃ t, exec c s = .next t ∧ s.writesBack t ws (if r.runsLeft = 1 then .exhausted else .done)
      ∧ (∀ u : Tower, u ∈ ts → t.towers[u] = (f s.towers[u]).2)
      ∧ (∀ u : Tower, u ∉ ts → t.towers[u] = s.towers[u])
      ∧ t.link = s.link ∧ t.bus = s.bus ∧ s.sameSetup t ∧ t.coverage = s.coverage ∧ t.loop = s.loop
      ∧ t.loader = s.loader ∧ s.sameSettings t ∧ s.sameEvents t := by
  generalize hy : s.wordsRead.modTowers (fun tw => (f tw).2) ts = y
  have ran : State.orderLoop f r s.wordsRead = .ok y := by
    have ht : s.wordsRead.towerSet false r = .ok ts := ht
    simp only [State.orderLoop, ht, hy]
  have towers : ∀ u : Tower, y.towers[u] = if u ∈ ts then (f s.towers[u]).2 else s.towers[u] := fun u => by
    rw [← hy, State.modTowers_get _ _ (State.towerSet_nodup ht)]
    rfl
  obtain ⟨t, exec, back, -, still, rest⟩ := State.exec_towerOrder (y := y)
    (he.trans (by rw [State.orderRow_ok h hv hc ran])) (hy ▸ (State.VerbRan.refl s).modTowers _ _)
    (by rw [← hy]; simp [State.wordsRead])
    (by
      rw [← hy]
      exact ⟨by simp [State.wordsRead], by simp [State.wordsRead], by simp [State.wordsRead], by simp [State.wordsRead]⟩)
  obtain ⟨ttowers, link⟩ := still (.inr fun u => by
    rw [towers]
    split
    · exact view _
    · rfl)
  rw [← ttowers] at towers
  exact ⟨t, exec, back, fun u hu => (towers u).trans (if_pos hu), fun u hu => (towers u).trans (if_neg hu), link, rest⟩

/-- Settles O47: the loop verbs take R147's command in each tower of the set, NOP runs to the state as read. -/
theorem loopOrdersAndNopExecute : Obligations.LoopOrdersAndNopExecute := by
  unfold Obligations.LoopOrdersAndNopExecute
  refine ⟨fun s ws r ts h hc ht => ⟨fun verb => ?_, fun verb => ?_⟩, fun s ws r h hc verb => ?_, fun tw hf => ⟨fun hl => ?_,
    fun hl => ?_⟩⟩
  · exact State.exec_loopOrder rfl h (by rw [verb]; rfl) hc ht TowerState.loopOn_linkView
  · exact State.exec_loopOrder (f := TowerState.loopOff) rfl h (by rw [verb]; rfl) hc ht fun _ => rfl
  · have ran := State.orderRow_ok (row := (· == verbNop)) (run := fun _ => .ok) h (by rw [verb]; rfl) hc rfl
    obtain ⟨t, exec, back, -, still, bus, setup, cov, loop, loader, settings, events⟩ := State.exec_towerOrder (c := .nop)
      (congrArg (Host.Outcome.next ∘ State.settle s) ran) (.refl s) rfl ⟨rfl, rfl, rfl, rfl⟩
    obtain ⟨towers, link⟩ := still (.inr fun u => rfl)
    exact ⟨t, exec, back, bus, setup, cov, ⟨towers, link⟩, loop, loader, settings, events⟩
  · rw [TowerState.loopOn, if_neg hf, if_pos hl]
    cases tw.settings <;> rfl
  · rw [TowerState.loopOn, if_neg hf, if_neg hl]

/-! ### The rows of the verbs -/

/-- What runs over a tower set fails as the tower set does. -/
def failsWithTowers (keyed : Bool) (run : OrderRec → State → Except FaultCode State) : Prop :=
  ∀ r s code, s.towerSet keyed r = .error code → run r s = .error code

theorem State.keyRange_fails (g : OrderRec → KeyRec → KeyRec) :
    failsWithTowers true (fun r => State.keyRange r (g r)) := fun r s code h => by
  simp only [State.keyRange, h]

theorem State.runPreset_fails : failsWithTowers true State.runPreset := fun r s code h => by
  simp only [State.runPreset, h]

theorem State.orderLoop_fails (f : TowerState → Result × TowerState) : failsWithTowers false (State.orderLoop f) :=
  fun r s code h => by simp only [State.orderLoop, h]

/-- The row of a verb: which orders it takes, and what it runs. -/
theorem exec_verbRow {c : Instr} {v : Nat} (h : verbRow c v) : ∃ row run, row v = true
    ∧ (∀ s, exec c s = .next (State.settle s (s.orderRow row run)))
    ∧ (1 ≤ v → v ≤ 6 → failsWithTowers true run) ∧ (v = 11 ∨ v = 12 → failsWithTowers false run) := by
  unfold verbRow at h
  rcases h with ⟨rfl, rfl⟩ | ⟨rfl, rfl⟩ | ⟨rfl, rfl⟩ | ⟨rfl, rfl⟩ | ⟨rfl, rfl⟩ | ⟨rfl, rfl⟩ | ⟨rfl, rfl⟩ | ⟨rfl, rfl⟩
    | ⟨rfl, rfl⟩ | ⟨rfl, rfl⟩ | ⟨rfl, rfl⟩ | ⟨rfl, rfl⟩ | ⟨rfl, rfl⟩ | ⟨rfl, hv⟩
  · exact ⟨_, _, rfl, fun s => rfl, by omega, by omega⟩
  · exact ⟨_, _, rfl, fun s => rfl, fun _ _ => State.runPreset_fails, by omega⟩
  · exact ⟨_, _, rfl, fun s => rfl, fun _ _ => State.keyRange_fails fun r => setTrim r.value, by omega⟩
  · exact ⟨_, _, rfl, fun s => rfl, fun _ _ => State.keyRange_fails fun r => addTrim r.value, by omega⟩
  · exact ⟨_, _, rfl, fun s => rfl, fun _ _ => State.keyRange_fails fun _ => setCorrection 0, by omega⟩
  · exact ⟨_, _, rfl, fun s => rfl, fun _ _ => State.keyRange_fails fun _ => setHold true, by omega⟩
  · exact ⟨_, _, rfl, fun s => rfl, fun _ _ => State.keyRange_fails fun _ => setHold false, by omega⟩
  · exact ⟨_, _, rfl, fun s => rfl, by omega, by omega⟩
  · exact ⟨_, _, rfl, fun s => rfl, by omega, by omega⟩
  · exact ⟨_, _, rfl, fun s => rfl, by omega, by omega⟩
  · exact ⟨_, _, rfl, fun s => rfl, by omega, by omega⟩
  · exact ⟨_, _, rfl, fun s => rfl, by omega, fun _ => State.orderLoop_fails _⟩
  · exact ⟨_, _, rfl, fun s => rfl, by omega, fun _ => State.orderLoop_fails _⟩
  · exact ⟨_, _, decide_eq_true hv, fun s => rfl, by omega, by omega⟩

/-! ### The checks -/

theorem Engine.commonFault_eq (e : Engine) (r : OrderRec) : e.commonFault r
    = if 65 ≤ e.visited then some .chainLoop
      else if r.state = 2 ∨ (r.state = 3 ∧ r.code = 6) then some .exhausted
      else if 13 ≤ r.verb ∨ 3 ≤ r.notify then some .verb
      else if r.linked = true ∧ e.length ≤ r.next then some .link else none := rfl

theorem TowerState.orderable_iff (tw : TowerState) :
    tw.orderable = true ↔ tw.service ≠ .unconfigured ∧ tw.service ≠ .faulted := by
  simp [TowerState.orderable]

theorem TowerState.keyCount_eq {tw : TowerState} {k : KeyCfg} (h : tw.cfg = some k) : tw.keyCount = k.k := by
  simp only [TowerState.keyCount, h]

theorem State.towerSet_noTower {s : State} {r : OrderRec} (keyed : Bool) (h : 12 ≤ r.tower) (h15 : r.tower ≠ 15) :
    s.towerSet keyed r = .error .tower := by
  rw [State.towerSet, if_neg h15, dif_neg (Nat.not_lt.2 h)]

theorem State.towerSet_named {s : State} {r : OrderRec} {u : Tower} (keyed : Bool) (h : r.tower = u.val) :
    s.towerSet keyed r = if s.towers[u].orderable then
        (if keyed = true ∧ (r.last < r.first ∨ s.towers[u].keyCount ≤ r.last) then .error .range else .ok [u])
      else .error .tower := by
  have lt := u.isLt
  unfold State.towerSet
  rw [if_neg (by omega), dif_pos (by omega : r.tower < 12)]
  have same : (⟨r.tower, by omega⟩ : Tower) = u := Fin.ext h
  simp only [same]

theorem State.towerSet_all {s : State} {r : OrderRec} (keyed : Bool) (h : r.tower = 15) :
    s.towerSet keyed r = if keyed = true ∧ (r.last < r.first ∨ 47 < r.last) then .error .range
      else .ok (allTowers.filter (fun t => s.towers[t].orderable)) := if_pos h

theorem State.presetFault_some {s : State} {r : OrderRec} {ts : List Tower} {code : FaultCode}
    (hc : code = (if (15 < r.curve ∧ r.curve ≠ 31) ∨ (r.ramp = true ∧ (r.steps < 1 ∨ 64 < r.steps)) then .range
      else if (s.coverage.banks.get (s.coverage.role r.standby)).state ≠ .locked then .bankState else .frameUnfit))
    (h : (15 < r.curve ∧ r.curve ≠ 31) ∨ (r.ramp = true ∧ (r.steps < 1 ∨ 64 < r.steps))
      ∨ (s.coverage.banks.get (s.coverage.role r.standby)).state ≠ .locked
      ∨ ∃ u ∈ ts, (s.coverage.frame (s.coverage.role r.standby) u).fit = false) :
    s.presetFault r ts = some code := by
  have curve : ¬(r.curve ≤ 15 ∨ r.curve = 31) ↔ 15 < r.curve ∧ r.curve ≠ 31 := by omega
  have steps : ¬(1 ≤ r.steps ∧ r.steps ≤ 64) ↔ r.steps < 1 ∨ 64 < r.steps := by omega
  unfold State.presetFault
  dsimp only
  simp only [curve, steps]
  by_cases h1 : 15 < r.curve ∧ r.curve ≠ 31
  · rw [if_pos h1, hc, if_pos (.inl h1)]
  rw [if_neg h1]
  by_cases h2 : r.ramp = true ∧ (r.steps < 1 ∨ 64 < r.steps)
  · rw [if_pos h2, hc, if_pos (.inr h2)]
  rw [if_neg h2]
  rw [if_neg (not_or.2 ⟨h1, h2⟩)] at hc
  by_cases h3 : (s.coverage.banks.get (s.coverage.role r.standby)).state ≠ .locked
  · rw [if_pos h3, hc, if_pos h3]
  rw [if_neg h3, hc, if_neg h3]
  obtain ⟨u, hu, unfit⟩ := ((h.resolve_left h1).resolve_left h2).resolve_left h3
  rw [if_neg fun all => ?_]
  rw [List.all_eq_true.1 all u hu] at unfit
  cases unfit

/-- Settles O48, by the row of each verb and the checks in their order. -/
theorem failedChecksChangeNothing : Obligations.FailedChecksChangeNothing := by
  unfold Obligations.FailedChecksChangeNothing
  refine ⟨fun s ws r c code h hv hcode hbad => ?_, fun s ws r c h hc hv hw hbad => ?_,
    fun s ws r c h hc hv h1 h6 hbad => ?_, fun s ws r ts code h hc verb ht hcode hbad => ?_, fun e r => ?_,
    fun e => ⟨fun h => ?_, fun tab h => ?_⟩, fun s keyed r => ⟨fun u k hu hn hf hk hr => ?_, fun h15 hr => ?_⟩⟩
  · obtain ⟨row, run, taken, exec, -, -⟩ := exec_verbRow hv
    have common : s.engine.commonFault r = some code := by
      rw [Engine.commonFault_eq, hcode]
      by_cases h1 : 65 ≤ s.engine.visited
      · rw [if_pos h1, if_pos h1]
      rw [if_neg h1, if_neg h1]
      by_cases h2 : r.state = 2 ∨ (r.state = 3 ∧ r.code = 6)
      · rw [if_pos h2, if_pos h2]
      rw [if_neg h2, if_neg h2]
      by_cases h3 : 13 ≤ r.verb ∨ 3 ≤ r.notify
      · rw [if_pos h3, if_pos h3]
      rw [← or_assoc (a := r.state = 2), ← or_assoc (a := 13 ≤ r.verb)] at hbad
      rw [if_neg h3, if_neg h3, if_pos (((hbad.resolve_left h1).resolve_left h2).resolve_left h3)]
    exact State.exec_faulted ((exec s).trans (by rw [State.orderRow_fault h taken common]))
  · obtain ⟨row, run, taken, exec, keyed, loops⟩ := exec_verbRow hv
    have none : ∀ k, s.wordsRead.towerSet k r = .error .tower := fun k => by
      rcases hbad with ⟨h12, h15⟩ | ⟨u, hu, bad⟩
      · exact State.towerSet_noTower k h12 h15
      · refine (State.towerSet_named k hu).trans (if_neg fun fit => ?_)
        obtain ⟨configured, whole⟩ := (TowerState.orderable_iff _).1 fit
        exact bad.elim configured whole
    have fails : run r s.wordsRead = .error .tower := by
      rcases hw with ⟨h1, h6⟩ | h
      · exact keyed h1 h6 r _ _ (none true)
      · exact loops h r _ _ (none false)
    exact State.exec_faulted ((exec s).trans (by rw [State.orderRow_error h taken hc fails]))
  · obtain ⟨row, run, taken, exec, keyed, -⟩ := exec_verbRow hv
    have range : s.towerSet true r = .error .range := by
      rcases hbad with ⟨h15, bad⟩ | ⟨u, k, hu, hn, hf, hk, bad⟩
      · rw [State.towerSet_all true h15, if_pos ⟨rfl, bad⟩]
      · rw [State.towerSet_named true hu, if_pos ((TowerState.orderable_iff _).2 ⟨hn, hf⟩), TowerState.keyCount_eq hk,
          if_pos ⟨rfl, bad⟩]
    exact State.exec_faulted ((exec s).trans (by rw [State.orderRow_error h taken hc (keyed h1 h6 r _ _ range)]))
  · have fault : s.wordsRead.presetFault r ts = some code := State.presetFault_some hcode hbad
    have fails : State.runPreset r s.wordsRead = .error code := by
      have ht : s.wordsRead.towerSet true r = .ok ts := ht
      simp only [State.runPreset, ht, fault]
    exact State.exec_faulted (c := .preset) (congrArg (Host.Outcome.next ∘ State.settle s)
      (State.orderRow_error h (by rw [verb]; rfl) hc fails))
  · rw [Engine.commonFault_eq]
    repeat' split
    all_goals grind
  · simp only [Engine.length, h]
  · simp only [Engine.length, h]
  · rw [State.towerSet_named keyed hu, if_pos ((TowerState.orderable_iff _).2 ⟨hn, hf⟩), TowerState.keyCount_eq hk,
      if_neg fun c => ?_]
    have := hr c.1
    omega
  · rw [State.towerSet_all keyed h15, if_neg fun c => ?_]
    · refine congrArg Except.ok (List.filter_congr fun u _ => ?_)
      rw [Bool.eq_iff_iff, TowerState.orderable_iff, decide_eq_true_iff]
    · have := hr c.1
      omega

end Sys2Proof.Machine
end

section
/-! PROOFS. Firings of the sources, the SHEET pulse and the edges of IMPR and JOBCHG. -/

namespace Sys2Proof.Machine

/-! ### A firing -/

theorem State.fire_disarmed {s : State} {k : Source} (h : (s.engine.bindings.get k).armed = false) : s.fire k = s := by
  simp [State.fire, h]

theorem State.fire_merged {s : State} {k : Source} (ha : (s.engine.bindings.get k).armed = true)
    (hp : (s.engine.bindings.get k).pending = true) : s.fire k = s.raise .triggerMerged := by
  simp [State.fire, ha, hp]

/-- The engine with a binding's request waiting. -/
def Engine.pend (k : Source) (e : Engine) : Engine := e.modBinding k (fun x => { x with pending := true })

theorem State.fire_waits {s : State} {k : Source} (ha : (s.engine.bindings.get k).armed = true)
    (hp : (s.engine.bindings.get k).pending = false) (hs : s.engine.state ≠ .idle) :
    s.fire k = s.putEngine (s.engine.pend k) := by
  simp only [State.fire, ha, hp, hs, if_true, if_false, Bool.false_eq_true]
  rfl

theorem State.fire_serves {s : State} {k : Source} (ha : (s.engine.bindings.get k).armed = true)
    (hp : (s.engine.bindings.get k).pending = false) (hs : s.engine.state = .idle) :
    s.fire k = (s.putEngine (s.engine.pend k)).serveStarts := by
  simp only [State.fire, ha, hp, hs, if_true, if_false, Bool.false_eq_true]
  rfl

/-- A firing that merges with none changes the order engine alone. -/
theorem State.engineOnly_fire {s : State} {k : Source}
    (h : (s.engine.bindings.get k).armed = false ∨ (s.engine.bindings.get k).pending = false) :
    s.EngineOnly (s.fire k) := by
  by_cases ha : (s.engine.bindings.get k).armed = true
  · have hp := h.resolve_left (by rw [ha]; decide)
    by_cases hs : s.engine.state = .idle
    · rw [State.fire_serves ha hp hs]
      exact (s.engineOnly_putEngine _).trans (State.engineOnly_serveStarts _)
    · rw [State.fire_waits ha hp hs]
      exact s.engineOnly_putEngine _
  · rw [State.fire_disarmed (Bool.not_eq_true _ ▸ ha)]
    exact .refl s

/-- Any firing changes the engine, the control unit's flags and reports, and the port's queue. -/
theorem State.fire_shape (s : State) (k : Source) :
    s.fire k = { s with engine := (s.fire k).engine, control := (s.fire k).control, port := (s.fire k).port }
      ∧ s.sameSettings (s.fire k) ∧ s.keepsFlags (s.fire k) ∧ s.samePort (s.fire k) := by
  by_cases h : (s.engine.bindings.get k).armed = false ∨ (s.engine.bindings.get k).pending = false
  · obtain ⟨eq, settings, ⟨flags, -, -, -⟩, -, port⟩ := State.engineOnly_fire h
    exact ⟨eq, settings, State.keepsFlags_of_eq flags, port⟩
  · obtain ⟨ha, hp⟩ := not_or.1 h
    rw [State.fire_merged (by simpa using ha) (by simpa using hp)]
    exact ⟨rfl, ⟨by simp, by simp, by simp, by simp, by simp⟩, s.keepsFlags_raise _, State.samePort_of_eq rfl⟩

theorem Engine.first_pended {e : Engine} {k : Source} (h : e.noneWaits) :
    startOrder.find? (e.pend k).waits = some (.binding k) := by
  obtain ⟨quiet, slot⟩ := h
  have pending : ∀ j, ((e.pend k).bindings.get j).pending = decide (j = k) := fun j => by
    rw [Engine.pend, Engine.modBinding_get]
    by_cases hj : j = k
    · simp [hj]
    · simp [hj, quiet j]
  have slotted : (e.pend k).slot = none := slot
  cases k <;> simp [startOrder, Engine.waits, pending, slotted]

theorem Binding.unpend_pended {x : Binding} (h : x.pending = false) :
    ({ x with pending := true } : Binding).unpend = x := by
  cases x
  subst h
  rfl

/-- A chain that a binding's own firing has started leaves that binding as it was. -/
theorem State.serveStarts_pended {s : State} {k : Source} (hp : (s.engine.bindings.get k).pending = false)
    (h : startOrder.find? (s.engine.pend k).waits = some (.binding k)) :
    (s.putEngine (s.engine.pend k)).serveStarts.engine.state = .fetching
      ∧ (s.putEngine (s.engine.pend k)).serveStarts.engine.head = (s.engine.bindings.get k).index
      ∧ (s.putEngine (s.engine.pend k)).serveStarts.engine.current = (s.engine.bindings.get k).index
      ∧ (s.putEngine (s.engine.pend k)).serveStarts.engine.visited = 1
      ∧ (s.putEngine (s.engine.pend k)).serveStarts.engine.tie = some k
      ∧ (s.putEngine (s.engine.pend k)).serveStarts.engine.bindings.get k = s.engine.bindings.get k
      ∧ (s.putEngine (s.engine.pend k)).serveStarts.engine.counter = s.engine.counter := by
  have index : ((s.engine.pend k).bindings.get k) = { s.engine.bindings.get k with pending := true } := by
    rw [Engine.pend, Engine.modBinding_get, if_pos rfl]
  rw [State.serveStarts_started (s := s.putEngine (s.engine.pend k)) (k := k) h]
  refine ⟨rfl, ?_, ?_, rfl, rfl, ?_, rfl⟩
  · show ((s.engine.pend k).bindings.get k).index = _
    rw [index]
  · show ((s.engine.pend k).bindings.get k).index = _
    rw [index]
  · show ((s.engine.pend k).modBinding k Binding.unpend).bindings.get k = _
    rw [Engine.modBinding_get, if_pos rfl, index, Binding.unpend_pended hp]

theorem State.serveStarts_offers {s : State} {k : Source} (h : startOrder.find? s.engine.waits = some (.binding k)) :
    s.serveStarts.port.queue = s.port.queue ++ [.orderRead s.serveStarts.engine.recordAddr] := by
  rw [State.serveStarts_binding h]
  rfl

/-- What a firing comes to, read off a later state that has the engine it left (R134, R135). -/
theorem State.fired_of_fire {s x t : State} {k : Source} (he : x.engine = s.engine) (hq : x.port.queue = s.port.queue)
    (te : t.engine = (x.fire k).engine) (tq : (x.fire k).port.queue <+: t.port.queue)
    (tf : (x.fire k).keepsFlags t) : s.fired t k := by
  unfold State.fired State.chainStarted
  rw [← he, ← hq]
  refine ⟨fun ha => by rw [te, State.fire_disarmed ha], fun ha hp => ⟨?_, tf _ ?_⟩, fun ha hp hs => ?_,
    fun ha hs quiet => ?_⟩
  · rw [te, State.fire_merged ha hp]
    simp
  · rw [State.fire_merged ha hp]
    exact State.raise_flag _ _
  · rw [te, State.fire_waits ha hp hs]
    rfl
  · have first := Engine.first_pended (k := k) quiet
    obtain ⟨state, head, current, visited, tie, binding, -⟩ := State.serveStarts_pended (quiet.1 k) first
    rw [State.fire_serves ha (quiet.1 k) hs] at te tq
    rw [State.serveStarts_offers (s := x.putEngine (x.engine.pend k)) (k := k) first, ← te] at tq
    refine ⟨⟨?_, ?_, ?_, ?_, ?_, tq⟩, ?_⟩
    · rw [te, state]
    · rw [te, head]
    · rw [te, current]
    · rw [te, visited]
    · rw [te, tie]
    · rw [te, binding]

/-- What the settling after an event leaves of the flags. -/
theorem State.keepsFlags_settle (s0 s : State) : s.keepsFlags (State.settle s0 s) :=
  State.keepsFlags_of_eq (by simp)

/-! ### The edges of IMPR -/

/-- The state of an edge ahead of its firing: the level taken, and every tower changed in its service state (R110,
R111). -/
def State.edged (b : Bool) (f : TowerState → TowerState) (s : State) : State := (s.setImpr b).modTowers f allTowers

theorem State.settle_edged {s : State} (b : Bool) {f : TowerState → TowerState} (k : Source)
    (hf : ∀ tw, f tw = { tw with service := (f tw).service }) :
    ∃ t, State.settle s ((s.edged b f).fire k) = t ∧ t.levels = { s.levels with impr := b }
      ∧ (∀ u : Tower, t.towers[u].service = (f s.towers[u]).service)
      ∧ (∀ (u : Tower) (sl : Slot), (t.towers[u].recs[sl]).values = (s.towers[u].recs[sl]).values)
      ∧ (s.link.tx ≠ .idle → t.link = s.link
          ∧ ∀ u : Tower, t.towers[u] = { s.towers[u] with service := t.towers[u].service })
      ∧ s.fired t k
      ∧ (((s.engine.bindings.get k).armed = false ∨ (s.engine.bindings.get k).pending = false) → s.sameEvents t)
      ∧ s.sameMemory t ∧ t.bus = s.bus ∧ t.windows = s.windows ∧ t.curves = s.curves ∧ t.timeout = s.timeout
      ∧ t.pending = s.pending ∧ t.coverage = s.coverage ∧ t.loop = s.loop ∧ t.loader = s.loader ∧ s.sameSettings t := by
  generalize hx : s.edged b f = x
  have towers : ∀ u : Tower, (x.fire k).towers[u] = f s.towers[u] := fun u => by
    rw [(State.fire_keeps k x).2.2.2.2.2.2.2.1, ← hx, State.edged, State.modTowers_all]
    rfl
  have fields : x.engine = s.engine ∧ x.port = s.port ∧ x.levels = { s.levels with impr := b } ∧ x.link = s.link
      ∧ x.mem = s.mem ∧ x.bus = s.bus ∧ x.windows = s.windows ∧ x.curves = s.curves ∧ x.timeout = s.timeout
      ∧ x.pending = s.pending ∧ x.coverage = s.coverage ∧ x.loop = s.loop ∧ x.loader = s.loader := by
    rw [← hx]
    refine ⟨?_, ?_, ?_, ?_, ?_, ?_, ?_, ?_, ?_, ?_, ?_, ?_, ?_⟩ <;> simp [State.edged, State.setImpr]
  have control : s.sameSettings x ∧ s.sameEvents x := by
    rw [← hx]
    refine ⟨⟨?_, ?_, ?_, ?_, ?_⟩, ⟨?_, ?_, ?_, ?_⟩⟩ <;> simp [State.edged, State.setImpr]
  obtain ⟨engine, port, levels, link, mem, bus, windows, curves, timeout, pending, coverage, loop, loader⟩ := fields
  obtain ⟨⟨part, enables, mode, addr, datum⟩, flags, capture, line, notice⟩ := control
  refine ⟨_, rfl, by simpa, fun u => ?_, fun u sl => ?_, fun busy => ?_, ?_, fun free => ?_, fun a => by simp [mem],
    by simpa, by simpa, by simpa, by simpa, by simpa, by simpa, by simpa, by simpa,
    ⟨by simpa, by simpa, by simpa, by simpa, by simpa⟩⟩
  · obtain ⟨service, -⟩ := State.settle_tower s (x.fire k) u
    rw [service, towers]
  · rw [State.settle_values, towers, hf]
  · have settled := State.settle_of_tx (s0 := s) (s := x.fire k) (by simpa [link] using busy)
    refine ⟨by rw [settled]; simpa, fun u => ?_⟩
    have all : (State.settle s (x.fire k)).towers = (x.fire k).towers := by rw [settled]; simp
    rw [all, towers]
    exact hf _
  · refine State.fired_of_fire engine (by rw [port]) (by simp) (State.samePort_settle _ _).2.2.2.2 ?_
    exact State.keepsFlags_settle _ _
  · obtain ⟨-, -, ⟨f1, c1, l1, n1⟩, -, -⟩ := State.engineOnly_fire (s := x) (k := k) (by rw [engine]; exact free)
    exact ⟨by simp [f1, flags], by simp [capture], by simp [l1, line], by simp [n1, notice]⟩

theorem TowerState.rise_service (tw : TowerState) : tw.rise = { tw with service := tw.rise.service } := by
  unfold TowerState.rise
  split <;> rfl

theorem TowerState.fall_service (tw : TowerState) : tw.fall = { tw with service := tw.fall.service } := by
  unfold TowerState.fall
  split <;> rfl

/-- An event that changes nothing. -/
theorem State.settle_nothing (s : State) : State.settle s s = s.offerChannel ∧ s.sameSetup s.offerChannel
    ∧ s.sameBlocks s.offerChannel ∧ s.sameControl s.offerChannel ∧ s.sameMemory s.offerChannel
    ∧ s.offerChannel.bus = s.bus ∧ s.offerChannel.lastResponse = s.lastResponse :=
  ⟨State.settle_of_towers rfl, ⟨by simp, by simp, by simp, by simp, by simp⟩,
    ⟨by simp, ⟨by simp, by simp⟩, by simp, by simp, by simp⟩, ⟨rfl, rfl⟩, fun a => by simp, by simp, by simp⟩

/-- JOBCHG is served ahead of everything else that waits (R135). -/
theorem Engine.first_jobchgPended (e : Engine) : startOrder.find? (e.pend .jobchg).waits = some (.binding .jobchg) :=
  Engine.first_jobchg (by rw [Engine.pend, Engine.modBinding_get, if_pos rfl])

/-- Settles O50, by what the edge does to the towers and what its firing does to the engine. -/
theorem edgesAndFirings : Obligations.EdgesAndFirings := by
  unfold Obligations.EdgesAndFirings
  refine ⟨fun s low => ?_, fun s high => ?_, fun s => ⟨fun high => ?_, fun low => ?_⟩, fun s => ?_⟩
  · obtain ⟨t, ht, levels, service, rest⟩ := s.settle_edged true .imprOn TowerState.rise_service
    have rises : s.imprRise = (s.edged true TowerState.rise).fire .imprOn := by simp [State.imprRise, low, State.edged]
    refine ⟨t, ?_, levels, fun u => (service u).trans ?_, rest⟩
    · rw [← ht, ← rises]
      rfl
    · unfold TowerState.rise
      split <;> rfl
  · obtain ⟨t, ht, levels, service, rest⟩ := s.settle_edged false .imprOff TowerState.fall_service
    have falls : s.imprFall = (s.edged false TowerState.fall).fire .imprOff := by simp [State.imprFall, high, State.edged]
    refine ⟨t, ?_, levels, fun u => (service u).trans ?_, rest⟩
    · rw [← ht, ← falls]
      rfl
    · unfold TowerState.fall
      split <;> rfl
  · have same : s.imprRise = s := by simp [State.imprRise, high]
    obtain ⟨settled, rest⟩ := s.settle_nothing
    exact ⟨_, congrArg Host.Outcome.next ((congrArg (State.settle s) same).trans settled), rest⟩
  · have same : s.imprFall = s := by simp [State.imprFall, low]
    obtain ⟨settled, rest⟩ := s.settle_nothing
    exact ⟨_, congrArg Host.Outcome.next ((congrArg (State.settle s) same).trans settled), rest⟩
  · obtain ⟨eq, ⟨part, enables, mode, addr, datum⟩, -, port⟩ := s.fire_shape .jobchg
    obtain ⟨settled, setup, towers, loader⟩ := State.settle_towersKept (s := s) (y := s.fire .jobchg) (by rw [eq])
    have engine : (s.fire .jobchg).offerChannel.engine = (s.fire .jobchg).engine := by simp
    have quiet : (s.engine.bindings.jobchg.armed = false ∨ s.engine.bindings.jobchg.pending = false) →
        s.sameEvents (s.fire .jobchg).offerChannel := fun free => by
      obtain ⟨-, -, ⟨f1, c1, l1, n1⟩, -, -⟩ := State.engineOnly_fire (s := s) (k := .jobchg) free
      exact ⟨by simp [f1], by simp, by simp [l1], by simp [n1]⟩
    refine ⟨_, congrArg Host.Outcome.next settled, ?_, fun ha => ⟨?_, quiet (.inl ha)⟩, fun ha hp => ⟨?_, ?_⟩,
      fun ha hp hs => ?_, fun ha hp hs => ?_, fun a => by simp, by simp, setup, by simp, towers, by simp, loader,
      ⟨by simp, by simp, by simp, by simp, by simp⟩⟩
    · exact State.fired_of_fire rfl rfl engine (State.samePort_offerChannel _).2.2.2.2 (State.keepsFlags_of_eq (by simp))
    · rw [engine, State.fire_disarmed (k := .jobchg) ha]
    · rw [engine, State.fire_merged (k := .jobchg) ha hp]
      simp
    · rw [State.raised, State.offerChannel_control .. |>.2.1, State.fire_merged (k := .jobchg) ha hp]
      exact State.raise_flags _ _
    · have still := quiet (.inr hp)
      rw [engine]
      rw [State.fire_waits (k := .jobchg) ha hp hs] at still ⊢
      exact ⟨rfl, rfl, rfl, still⟩
    · obtain ⟨state, head, -, visited, tie, binding, -⟩ := State.serveStarts_pended (s := s) (k := .jobchg) hp
        s.engine.first_jobchgPended
      have still := quiet (.inr hp)
      rw [engine]
      rw [State.fire_serves (k := .jobchg) ha hp hs] at still ⊢
      exact ⟨state, head, visited, tie, binding, still⟩

end Sys2Proof.Machine
end

section
/-! PROOFS. The SHEET pulse: ramps step, settling loops count, and the SHEET binding counts and fires. -/

namespace Sys2Proof.Machine

/-! ### The order engine counts -/

theorem State.serveStarts_counter (s : State) : s.serveStarts.engine.counter = s.engine.counter := by
  cases h : startOrder.find? s.engine.waits with
  | none => rw [State.serveStarts_none h]
  | some x =>
    cases x with
    | binding k => rw [State.serveStarts_started h]; rfl
    | slot => rw [State.serveStarts_slotStarted h]

theorem State.fire_counter (s : State) (k : Source) : (s.fire k).engine.counter = s.engine.counter := by
  by_cases ha : (s.engine.bindings.get k).armed = true
  · by_cases hp : (s.engine.bindings.get k).pending = true
    · rw [State.fire_merged ha hp]
      simp
    · have hp : (s.engine.bindings.get k).pending = false := by simpa using hp
      by_cases hs : s.engine.state = .idle
      · rw [State.fire_serves ha hp hs, State.serveStarts_counter]
        rfl
      · rw [State.fire_waits ha hp hs]
        rfl
  · rw [State.fire_disarmed (by simpa using ha)]

/-- The SHEET counter back at 0, as the divisor is reached (R134). -/
def State.counterReset (s : State) : State := { s with engine := { s.engine with counter := 0 } }

theorem State.countSheet_disarmed {s : State} (h : s.engine.bindings.sheet.armed = false) : s.countSheet = s := by
  simp [State.countSheet, h]

theorem State.countSheet_counts {s : State} (h : s.engine.bindings.sheet.armed = true)
    (hc : s.engine.counter + 1 < s.engine.divisor) :
    s.countSheet = { s with engine := { s.engine with counter := s.engine.counter + 1 } } := by
  simp only [State.countSheet, h, if_true, if_neg (Nat.not_le.2 hc)]

theorem State.countSheet_fires {s : State} (h : s.engine.bindings.sheet.armed = true)
    (hc : s.engine.divisor ≤ s.engine.counter + 1) : s.countSheet = s.counterReset.fire .sheet := by
  simp only [State.countSheet, h, if_true, if_pos hc]
  rfl

/-! ### A tower at a SHEET pulse -/

theorem stepRamp_some {r : KeyRec} {p : Ramp} (h : r.ramp = some p) : stepRamp r
    = { r with ramp := if p.done + 1 = p.total then none else some { p with done := p.done + 1 } } := by
  unfold stepRamp
  rw [h]
  dsimp only
  split <;> rfl

theorem stepRamp_none {r : KeyRec} (h : r.ramp = none) : stepRamp r = r := by
  unfold stepRamp
  rw [h]

theorem keepsMoves_step : KeepsMoves (fun _ => stepRamp) := fun sl r => by
  cases h : r.ramp with
  | none => exact ⟨_, _, _, _, _, stepRamp_none h⟩
  | some p => exact ⟨_, _, _, _, _, stepRamp_some h⟩

/-- The pulse changes the tower's records by its ramp steps alone, and its loop by the settling alone. -/
theorem TowerState.sheet_recs (tw : TowerState) : tw.sheet = { tw.rampSheet with
    loop := tw.sheet.loop, settle := tw.sheet.settle } := by
  unfold TowerState.sheet TowerState.settleSheet
  repeat' split
  all_goals rfl

theorem TowerState.rampSheet_spec (tw : TowerState) : tw.sameShell tw.rampSheet
    ∧ (tw.service ≠ .printing → tw.rampSheet = tw)
    ∧ (∀ (sl : Slot) (p : Ramp), tw.service = .printing → tw.present sl = true → (tw.recs[sl]).ramp = some p →
        (tw.rampSheet.recs[sl]).values = ({ stepRamp tw.recs[sl] with
          target := composed tw.cfg tw.parkHold sl (stepRamp tw.recs[sl]) } : KeyRec).values)
    ∧ (∀ sl : Slot, (tw.recs[sl]).ramp = none ∨ tw.present sl = false → tw.rampSheet.recs[sl] = tw.recs[sl])
    ∧ tw.handedOn tw.rampSheet := by
  unfold TowerState.rampSheet
  split
  · next printing =>
    obtain ⟨shell, -, recs⟩ := TowerState.revalueEvent_spec (fun _ => stepRamp)
      (fun tw => tw.slots.filter (fun sl => tw.recs[sl].ramp.isSome)) tw
      (List.Nodup.sublist List.filter_sublist tw.slots_nodup)
    refine ⟨shell, fun no => absurd printing no, fun sl p _ hp hr => ?_, fun sl h => ?_,
      TowerState.revalueEvent_handedOn keepsMoves_step (fun sl => tw.recs[sl].ramp.isSome) rfl⟩
    · obtain ⟨m, hm⟩ := (recs sl).1 (List.mem_filter.2 ⟨(TowerState.mem_slots _ _).2 hp, by rw [hr]; rfl⟩)
      rw [hm]
      rfl
    · refine (recs sl).2 fun hm => ?_
      obtain ⟨hp, hr⟩ := List.mem_filter.1 hm
      rw [TowerState.mem_slots] at hp
      rcases h with h | h
      · rw [h] at hr
        cases hr
      · rw [h] at hp
        cases hp
  · next still =>
    exact ⟨TowerState.sameShell_refl _, fun _ => rfl, fun _ _ printing => absurd printing still, fun _ _ => rfl,
      TowerState.handedOn_refl _⟩

theorem TowerState.sheet_handedOn (tw : TowerState) : tw.handedOn tw.sheet := by
  obtain ⟨-, -, -, -, on⟩ := tw.rampSheet_spec
  rw [tw.sheet_recs]
  exact TowerState.handedOn_congr on rfl rfl rfl rfl rfl rfl rfl rfl rfl rfl rfl

theorem TowerState.eligible_iff (tw : TowerState) :
    tw.eligible = true ↔ tw.service = .printing ∧ tw.queue = [] ∧ tw.flight = [] := by
  simp [TowerState.eligible, TowerState.atRest]

/-- The settling of a loop at a pulse (R112, R148). -/
theorem TowerState.sheet_loop (tw : TowerState) :
    (tw.eligible = true → tw.loop = .settling → 1 < tw.settle →
        tw.sheet.loop = .settling ∧ tw.sheet.settle = tw.settle - 1)
      ∧ (tw.eligible = true → tw.loop = .settling → tw.settle ≤ 1 → tw.sheet.loop = .armed ∧ tw.sheet.settle = 0)
      ∧ (tw.eligible = false ∨ tw.loop ≠ .settling → tw.sheet.loop = tw.loop ∧ tw.sheet.settle = tw.settle) := by
  obtain ⟨⟨-, -, -, -, -, loop, settle, -⟩, -⟩ := tw.rampSheet_spec
  unfold TowerState.sheet TowerState.settleSheet
  rw [loop, settle]
  refine ⟨fun he hl hs => ?_, fun he hl hs => ?_, fun h => ?_⟩
  · rw [if_pos ⟨he, hl⟩, if_neg (Nat.not_le.2 hs)]
    exact ⟨hl, rfl⟩
  · rw [if_pos ⟨he, hl⟩, if_pos hs]
    exact ⟨rfl, rfl⟩
  · rw [if_neg fun c => h.elim (fun no => by rw [c.1] at no; cases no) (fun no => no c.2)]
    exact ⟨loop, settle⟩

/-- Settles O49, by a tower's share of the pulse and the binding's count. -/
theorem sheetPulse : Obligations.SheetPulse := by
  unfold Obligations.SheetPulse
  intro s c hc
  have exec : exec c s = .next (State.settle s s.sheet) := by
    rcases hc with rfl | rfl | rfl | rfl <;> rfl
  generalize hx : s.modTowers TowerState.sheet allTowers = x
  have sheet : s.sheet = x.countSheet := by rw [State.sheet, hx]
  have towers : ∀ u : Tower, x.countSheet.towers[u] = s.towers[u].sheet := fun u => by
    rw [(State.countSheet_keeps x).2.2.2.2.2.2.2.1, ← hx, State.modTowers_all]
  have engine : x.engine = s.engine := by rw [← hx]; simp
  have port : x.port = s.port := by rw [← hx]; simp
  have values : ∀ (u : Tower) (sl : Slot),
      ((State.settle s x.countSheet).towers[u].recs[sl]).values = (s.towers[u].rampSheet.recs[sl]).values := fun u sl => by
    rw [State.settle_values, towers, TowerState.sheet_recs]
  have tengine : (State.settle s x.countSheet).engine = x.countSheet.engine := by simp
  refine ⟨_, exec.trans (by rw [sheet]), fun u sl hp hpres => ?_, fun u sl hn => ?_, fun busy u => ?_, fun u => ?_,
    fun ha => ?_, fun ha hd => ?_, fun ha hd => ?_, fun a => ?_, ?_, ?_, ?_, ?_, ?_, ?_⟩
  · obtain ⟨-, -, stepped, still, -⟩ := s.towers[u].rampSheet_spec
    cases hr : (s.towers[u].recs[sl]).ramp with
    | none =>
      have all := values u sl
      rw [still sl (.inl hr)] at all
      obtain ⟨base, trim, correction, hold, ramp, target⟩ := KeyRec.values_eq all
      exact ⟨base, ramp.trans hr, trim, correction, hold, target⟩
    | some p =>
      have all := values u sl
      rw [stepped sl p hp hpres hr, stepRamp_some hr] at all
      obtain ⟨base, trim, correction, hold, ramp, target⟩ := KeyRec.values_eq all
      refine ⟨base, ramp, trim, correction, hold, ?_⟩
      rw [if_neg (Option.some_ne_none p)]
      exact target.trans (composed_congr _ _ _ base.symm trim.symm correction.symm hold.symm ramp.symm)
  · obtain ⟨-, still, -⟩ := s.towers[u].rampSheet_spec
    rw [values, still hn]
  · have link : x.countSheet.link = s.link := by rw [← hx]; simp
    rw [State.settle_towers_of_tx (by rw [link]; exact busy), towers]
    exact s.towers[u].sheet_handedOn
  · obtain ⟨-, -, -, -, loop, settle, -⟩ := State.settle_tower s x.countSheet u
    rw [towers] at loop settle
    obtain ⟨counts, arms, stays⟩ := s.towers[u].sheet_loop
    rw [loop, settle]
    refine ⟨fun hl hs hq hf h1 => ?_, fun hl hs hq hf h1 => ?_, fun h => ?_⟩
    · exact counts ((TowerState.eligible_iff _).2 ⟨hs, hq, hf⟩) hl h1
    · exact arms ((TowerState.eligible_iff _).2 ⟨hs, hq, hf⟩) hl (Nat.le_of_eq h1)
    · refine stays ?_
      rw [← Bool.not_eq_true, TowerState.eligible_iff]
      rcases h with hl | hs | hq | hf
      · exact .inr hl
      · exact .inl fun c => hs c.1
      · exact .inl fun c => hq c.2.1
      · exact .inl fun c => hf c.2.2
  · rw [tengine, State.countSheet_disarmed (by rw [engine]; exact ha), engine]
  · rw [tengine, State.countSheet_counts (by rw [engine]; exact ha) (by rw [engine]; exact hd), engine]
  · have fires := State.countSheet_fires (s := x) (by rw [engine]; exact ha) (by rw [engine]; exact hd)
    have fired : ({ s with engine := { s.engine with counter := 0 } } : State).fired (State.settle s x.countSheet) .sheet := by
      refine State.fired_of_fire (x := x.counterReset) (by rw [State.counterReset, engine]) (by rw [State.counterReset, port])
        (by rw [tengine, fires]) ?_ ?_
      · rw [← fires]
        exact (State.samePort_settle _ _).2.2.2.2
      · rw [← fires]
        exact State.keepsFlags_settle _ _
    refine ⟨?_, fun hp => ?_, fun hp hs => ?_, fired⟩
    · rw [tengine, fires, State.fire_counter]
      rfl
    · obtain ⟨-, merged, -, -⟩ := fired
      obtain ⟨same, flag⟩ := merged ha hp
      exact ⟨flag, same⟩
    · obtain ⟨-, -, waits, -⟩ := fired
      exact congrArg (fun e => e.bindings.sheet) (waits ha hp hs)
  · simp [← hx]
  · simp [← hx]
  · refine ⟨?_, ?_, ?_, ?_, ?_⟩ <;> simp [← hx]
  · simp [← hx]
  · simp [← hx]
  · simp [← hx]
  · refine ⟨?_, ?_, ?_, ?_, ?_⟩ <;> simp [← hx]

end Sys2Proof.Machine
end

section
/-! PROOFS. PIN_RESET: every block takes its pin-reset values, and a granted access completes at memory later. -/

namespace Sys2Proof.Machine

/-! ### Memory, port and bus over a pin reset -/

theorem landWord_read {m : List Host.Cell} {p : PortWord × Bool} (h : p.1.dir = .read) : landWord m p = m :=
  if_neg fun hw => absurd (h.symm.trans hw.1) (by decide)

theorem foldl_landWord_read (ps : List (PortWord × Bool)) (m : List Host.Cell) (h : ∀ p ∈ ps, p.1.dir = .read) :
    ps.foldl landWord m = m := by
  induction ps with
  | nil => rfl
  | cons p ps ih =>
    rw [List.foldl_cons, landWord_read (h p List.mem_cons_self)]
    exact ih fun q hq => h q (List.mem_cons_of_mem _ hq)

/-- Only an internal request that holds the port may write its words over a pin reset (R20; log 13). -/
theorem memOverReset_noInternal {m : List Host.Cell} {h : Option PortHolder} {l : BitVec 2}
    (hh : ∀ r ws x, h ≠ some (.internal r ws x)) : memOverReset m h l = m := by
  rcases h with _ | ⟨c, w⟩ | w | ⟨r, ws, x⟩
  · rfl
  · rfl
  · rfl
  · exact absurd rfl (hh r ws x)

theorem memOverReset_reads {m : List Host.Cell} {r : IReq} {ws : List PortWord} {x : Bool} {l : BitVec 2}
    (h : ∀ w ∈ ws, w.dir = .read) : memOverReset m (some (.internal r ws x)) l = m :=
  foldl_landWord_read _ m fun p hp => h p.1 (List.of_mem_zip hp).1

theorem responseOverReset_eq (b : Option BusAccess) (r : Option Response) :
    responseOverReset b r = if b.isSome then some .busError else r := by
  cases b <;> rfl

theorem State.pinReset_lastResponse (s : State) (l : BitVec 2) (c : MasterClass) :
    (s.pinReset l).lastResponse.get c
      = if (s.bus.get c).isSome then some .busError else s.lastResponse.get c := by
  rw [← responseOverReset_eq]
  cases c <;> rfl

/-- Settles O59: the pin-reset state field by field; the holder decides what the port and memory keep. -/
theorem pinResetPutsEveryBlockInItsValues : Obligations.PinResetPutsEveryBlockInItsValues := by
  intro s l
  refine ⟨s.pinReset l, rfl, fun c => by cases c <;> rfl, s.pinReset_lastResponse l, fun c w h => ?_, fun w h => ?_,
    fun h => ?_, fun r ws x h => ?_, fun h a => ?_, fun r ws x h hr a => ?_, fun r w x h => ?_, fun r w v x h => ?_,
    rfl, rfl, rfl, rfl, rfl, rfl, rfl, rfl, rfl, rfl, rfl, rfl, rfl, rfl, rfl, rfl⟩
  · exact congrArg holderOverReset h
  · exact congrArg holderOverReset h
  · exact congrArg holderOverReset h
  · exact congrArg holderOverReset h
  · exact congrArg (Memory.byte · a) (memOverReset_noInternal h)
  · have hm : (s.pinReset l).mem = s.mem :=
      (congrArg (memOverReset s.mem · l) h).trans (memOverReset_reads hr)
    rw [hm]
  · exact congrArg (memOverReset s.mem · l) h
  · exact congrArg (memOverReset s.mem · l) h

end Sys2Proof.Machine
end

section
/-! PROOFS. The transmitter: its ends of sending and of the gap, its search, and that every other command taken at rest
leaves towers and link as a busy transmitter does, but for that search. -/

namespace Sys2Proof.Machine

/-! ### The search order -/

/-- How far a tower is after the pointer in the order of a search: the next one first, the pointer's own last (R89). -/
def searchDistance (p u : Tower) : Nat := (u.val + 11 - p.val) % 12

theorem searchOrder_pairwise (p : Tower) :
    (searchOrder p).Pairwise (fun u v => searchDistance p u < searchDistance p v) := by
  revert p
  decide

theorem mem_searchOrder (p u : Tower) : u ∈ searchOrder p := by
  revert p u
  decide

/-- In a list that rises by a measure, the first that satisfies a predicate is the least one that does. -/
theorem List.find?_of_least {α : Type} {f : α → Nat} {p : α → Bool} {l : List α} {a : α}
    (sorted : l.Pairwise (fun x y => f x < f y)) (mem : a ∈ l) (sat : p a = true)
    (least : ∀ b, p b = true → f a ≤ f b) : l.find? p = some a := by
  induction l with
  | nil => exact absurd mem List.not_mem_nil
  | cons x l ih =>
    obtain ⟨first, rest⟩ := List.pairwise_cons.1 sorted
    rcases List.mem_cons.1 mem with rfl | mem
    · exact List.find?_cons_of_pos sat
    · rw [List.find?_cons_of_neg fun px => absurd (first a mem) (Nat.not_lt.2 (least x px))]
      exact ih rest mem

theorem State.found_of_least {s : State} {u : Tower} (work : s.towers[u].hasWork = true)
    (least : ∀ v : Tower, s.towers[v].hasWork = true →
      (u.val + 11 - s.link.pointer.val) % 12 ≤ (v.val + 11 - s.link.pointer.val) % 12) : s.found = some u :=
  List.find?_of_least (searchOrder_pairwise s.link.pointer) (mem_searchOrder _ u) work least

theorem State.search_of_least {s : State} {u : Tower} (work : s.towers[u].hasWork = true)
    (least : ∀ v : Tower, s.towers[v].hasWork = true →
      (u.val + 11 - s.link.pointer.val) % 12 ≤ (v.val + 11 - s.link.pointer.val) % 12) : s.search = s.serve u := by
  rw [State.search, State.found_of_least work least]

/-! ### What a search looks at and changes -/

theorem State.found_hasWork {s : State} {u : Tower} (h : s.found = some u) : s.towers[u].hasWork = true := by
  rw [State.found] at h
  exact List.find?_some (p := fun t : Tower => s.towers[t].hasWork) h

/-- A service sends a frame when its tower has work. -/
theorem State.serve_sends {s : State} {t : Tower} (work : s.towers[t].hasWork = true) :
    ∃ l, (s.serve t).link.tx = .sending l := by
  cases h : s.towers[t].haltPending with
  | true => exact ⟨_, by rw [State.serve_halt h]; rfl⟩
  | false =>
    cases hq : s.towers[t].queryPending with
    | true => exact ⟨_, by rw [State.serve_query h hq]; rfl⟩
    | false =>
      cases hd : s.towers[t].dispatchable with
      | some sl => exact ⟨_, by rw [State.serve_move h hq hd]; rfl⟩
      | none =>
        simp [-Fin.getElem_fin, TowerState.hasWork, h, hq, hd] at work

/-- What a service makes of towers and link follows from towers, link and T alone. -/
theorem State.serve_congr {x y : State} (towers : x.towers = y.towers) (link : x.link = y.link)
    (timeout : x.timeout = y.timeout) (t : Tower) :
    (x.serve t).towers = (y.serve t).towers ∧ (x.serve t).link = (y.serve t).link := by
  unfold State.serve State.putTower State.transmit
  dsimp only
  rw [towers, link, timeout]
  (repeat' split) <;> exact ⟨by simp [towers], by simp [link]⟩

theorem State.search_congr {x y : State} (towers : x.towers = y.towers) (link : x.link = y.link)
    (timeout : x.timeout = y.timeout) : x.search.towers = y.search.towers ∧ x.search.link = y.search.link := by
  have found : x.found = y.found := by rw [State.found, State.found, towers, link]
  rw [State.search, State.search, found]
  split
  · exact ⟨towers, link⟩
  · exact State.serve_congr towers link timeout _

theorem State.search_events (s : State) : s.sameEvents s.search ∧ s.sameSettings s.search :=
  ⟨⟨by simp, by simp, by simp, by simp⟩, ⟨by simp, by simp, by simp, by simp, by simp⟩⟩

/-! ### A command taken at rest -/

/-- A tower at rest whose queued keys are known keeps having no work while what the transmitter looks at in it stays
(R65, R88). -/
theorem TowerState.hasWork_of_linkView {a b : TowerState} (view : b.linkView = a.linkView) (rest : a.hasWork = false)
    (known : ∀ sl ∈ a.queue, (a.recs[sl]).commanded.isSome = true) : b.hasWork = false := by
  simp only [TowerState.linkView, Prod.mk.injEq] at view
  obtain ⟨halt, query, queue, flight, service⟩ := view
  refine Bool.eq_false_iff.2 fun work => Bool.eq_false_iff.1 rest ((TowerState.hasWork_iff a).2 ?_)
  rw [TowerState.hasWork_iff, service, halt, query, queue, flight] at work
  obtain ⟨configured, pending | pending | ⟨sl, q, hq, admits, room, -⟩⟩ := work
  · exact ⟨configured, Or.inl pending⟩
  · exact ⟨configured, Or.inr (Or.inl pending)⟩
  · exact ⟨configured, Or.inr (Or.inr ⟨sl, q, hq, admits, room, known sl (by rw [hq]; exact List.mem_cons_self)⟩)⟩

theorem State.linkView_get {s t : State} (view : t.linkView = s.linkView) (u : Tower) :
    (t.towers[u]).linkView = (s.towers[u]).linkView := by
  have h := congrArg (fun l => l[u.val]?) view
  simpa [State.linkView] using h

/-- From a machine at rest, an event that leaves the transmitter IDLE is followed by a search (R88). -/
theorem State.searchIfChanged_atRest {s x : State} (rest : s.atRest) (idle : x.link.tx = .idle) :
    State.searchIfChanged s x = x.search := by
  unfold State.searchIfChanged
  by_cases view : x.linkView = s.linkView
  · rw [if_neg fun h => h.2 view, State.search_none]
    exact fun u => TowerState.hasWork_of_linkView (State.linkView_get view u) (rest.2 u).1 (rest.2 u).2
  · rw [if_pos ⟨idle, view⟩]

/-- An event that does the same whatever the transmitter does searches after it, from a machine at rest (R88). -/
theorem State.searchesAfter_of_onTx {s : State} {c : Instr} {f : State → State} (rest : s.atRest)
    (onTx : ∀ x s, f (State.onTx x s) = State.onTx x (f s)) (run : ∀ s, exec c s = .next (State.settle s (f s))) :
    s.searchesAfter c := by
  have still : s.onTx .idle = s := by rw [← rest.1]; rfl
  have idle : (f s).link.tx = .idle := by rw [← still, onTx]; rfl
  have stillAfter : (f s).onTx .idle = f s := by rw [← idle]; rfl
  refine ⟨_, _, run s, run (s.onTx .gap), ?_⟩
  have busy : State.settle (s.onTx .gap) (f (s.onTx .gap)) = (f s).offerChannel.onTx .gap := by
    rw [onTx, State.settle_of_tx (by simp), State.offerChannel_onTx]
  have offered : (State.settle (s.onTx .gap) (f (s.onTx .gap))).onTx .idle = (f s).offerChannel := by
    rw [busy, State.onTx_onTx, ← State.offerChannel_onTx, stillAfter]
  change _ = ((State.settle (s.onTx .gap) (f (s.onTx .gap))).onTx .idle).search.towers
    ∧ _ = ((State.settle (s.onTx .gap) (f (s.onTx .gap))).onTx .idle).search.link
  rw [offered, State.settle, State.searchIfChanged_atRest rest idle]
  obtain ⟨towers, link⟩ := State.search_congr (x := (f s).offerChannel) (y := f s) (by simp) (by simp) (by simp)
  exact ⟨by rw [towers]; simp, by rw [link]; simp⟩

theorem State.searchesAfter_of_same {s t b : State} {c : Instr} (run : exec c s = .next t)
    (busy : exec c (s.onTx .gap) = .next b)
    (noWork : ∀ u : Tower, t.towers[u].hasWork = false) (towers : b.towers = t.towers)
    (link : { b.link with tx := .idle } = t.link) : s.searchesAfter c := by
  refine ⟨t, b, run, busy, ?_⟩
  rw [State.search_none (s := { b with link := { b.link with tx := .idle } }) (by simpa [towers] using noWork)]
  exact ⟨towers.symm, link.symm⟩

/-- An event that leaves the machine as it was, but for the transmitter, is followed by an offer alone. -/
theorem State.settle_onTx_self (s : State) (x : TxState) : State.settle s (s.onTx x) = s.offerChannel.onTx x := by
  rw [State.settle_of_towers (by simp), State.offerChannel_onTx]

theorem State.endSending_idle {s : State} (h : ∀ l, s.link.tx ≠ .sending l) : s.endSending = s := by
  unfold State.endSending
  split
  · next l hl => exact absurd hl (h l)
  · rfl

theorem State.endGap_idle {s : State} (h : s.link.tx ≠ .gap) : s.endGap = s := by
  unfold State.endGap
  split
  · next hg => exact absurd hg h
  · rfl

theorem State.endGap_gap {s : State} (h : s.link.tx = .gap) : s.endGap = (s.onTx .idle).search := by
  rw [State.endGap, h]
  rfl

/-- From a machine at rest EVERY command leaves towers and link as a busy transmitter does, but for the search: a pin
reset and the ends of sending and of the gap, which look at the transmitter, leave no tower at work (R88). -/
theorem State.searchesAfter_atRest {s : State} (rest : s.atRest) (c : Instr) : s.searchesAfter c := by
  have noWork : ∀ u : Tower, s.towers[u].hasWork = false := fun u => (rest.2 u).1
  have still : s.onTx .idle = s := by rw [← rest.1]; rfl
  by_cases reset : ∃ l, c = .pinReset l
  · obtain ⟨l, rfl⟩ := reset
    refine State.searchesAfter_of_same (t := s.pinReset l) rfl rfl (fun u => ?_) rfl rfl
    change (Vector.replicate 12 TowerState.reset)[u.val].hasWork = false
    rw [Vector.getElem_replicate]
    rfl
  have unsearched : State.settle s s = s.offerChannel := State.settle_of_towers rfl
  by_cases sending : c = .sendingEnd
  · subst sending
    have run : exec .sendingEnd s = .next s.offerChannel := by
      change Host.Outcome.next (State.settle s s.endSending) = _
      rw [State.endSending_idle (by simp [rest.1]), unsearched]
    have busy : exec .sendingEnd (s.onTx .gap) = .next (s.onTx .gap).offerChannel := by
      change Host.Outcome.next (State.settle _ (s.onTx .gap).endSending) = _
      rw [State.endSending_idle (by simp), State.settle_of_towers rfl]
    exact State.searchesAfter_of_same run busy (by simpa using noWork) (by simp)
      (by simp [← rest.1])
  by_cases gap : c = .gapEnd
  · subst gap
    have run : exec .gapEnd s = .next s.offerChannel := by
      change Host.Outcome.next (State.settle s s.endGap) = _
      rw [State.endGap_idle (by simp [rest.1]), unsearched]
    have busy : exec .gapEnd (s.onTx .gap) = .next s.offerChannel := by
      change Host.Outcome.next (State.settle (s.onTx .gap) (s.onTx .gap).endGap) = _
      rw [State.endGap_gap rfl, State.onTx_onTx, still, State.search_none noWork, State.settle_of_towers (by simp)]
    exact State.searchesAfter_of_same run busy (by simpa using noWork) rfl (by simp [← rest.1])
  · obtain ⟨f, onTx, run⟩ := exec_onTx c (fun l h => reset ⟨l, h⟩) sending gap
    exact State.searchesAfter_of_onTx rest onTx run

/-! ### The ends of sending and of the gap -/

theorem State.exec_sendingEnd {s : State} {l : List Byte} (h : s.link.tx = .sending l) :
    exec .sendingEnd s = .next (s.offerChannel.onTx .gap) := by
  change Host.Outcome.next (State.settle s s.endSending) = _
  have sent : s.endSending = s.onTx .gap := by rw [State.endSending, h]; rfl
  rw [sent, State.settle_onTx_self]

theorem State.exec_gapEnd {s : State} (h : s.link.tx = .gap) : exec .gapEnd s = .next (s.onTx .idle).search.offerChannel := by
  change Host.Outcome.next (State.settle s s.endGap) = _
  rw [State.endGap_gap h]
  cases found : (s.onTx .idle).found with
  | none =>
    have quiet : (s.onTx .idle).search = s.onTx .idle := by rw [State.search, found]
    rw [quiet, State.settle_of_towers (by simp)]
  | some u =>
    have served : (s.onTx .idle).search = (s.onTx .idle).serve u := by rw [State.search, found]
    obtain ⟨l, sending⟩ := State.serve_sends (s := s.onTx .idle) (t := u) (State.found_hasWork found)
    rw [served, State.settle_of_tx (by rw [sending]; exact TxState.noConfusion)]

theorem State.samePort_offered (s : State) (x : TxState) : s.samePort (s.offerChannel.onTx x) :=
  State.samePort_offerChannel s

/-- Settles O51: the two ends by what they run, the search by its order, every other command at rest by exec_onTx. -/
theorem lineTiming : Obligations.LineTiming := by
  refine ⟨fun s l h => ?_, fun s h => ?_, fun s c rest => State.searchesAfter_atRest rest c, fun s => ?_⟩
  · refine ⟨_, State.exec_sendingEnd h, by simp [State.onTx], by simp, fun a => by simp, by simp,
      State.samePort_offered s _, ⟨by simp, by simp, by simp, by simp, by simp⟩, by simp, by simp, by simp, by simp,
      ⟨by simp, by simp, by simp, by simp, by simp⟩, ⟨by simp, by simp, by simp, by simp⟩⟩
  · have port : s.samePort (s.onTx .idle).search.offerChannel :=
      State.samePort_trans (State.samePort_of_eq (by rw [(State.search_keeps _).2.2.2.2.2.1]; rfl))
        (State.samePort_offerChannel _)
    refine ⟨_, State.exec_gapEnd h, fun rest => ?_, fun u work least => ?_, fun a => by simp, by simp,
      port, ⟨by simp, by simp, by simp, by simp, by simp⟩, by simp, by simp, by simp, by simp,
      ⟨by simp, by simp, by simp, by simp, by simp⟩, ⟨by simp, by simp, by simp, by simp⟩⟩
    · rw [State.search_none (by simpa using rest)]
      exact ⟨by simp [State.onTx], by simp⟩
    · obtain ⟨pointer, others⟩ := State.serve_pointer_and_others (s.onTx .idle) u
      rw [State.search_of_least (s := s.onTx .idle) (u := u) work least]
      have towers := (State.offerChannel_keeps ((s.onTx .idle).serve u)).2.2.2.2.2.2.2.1
      have link := (State.offerChannel_keeps ((s.onTx .idle).serve u)).2.2.2.2.2.2.2.2.2.1
      rw [towers, link]
      exact ⟨pointer work, rfl, rfl, others⟩
  · exact ⟨State.search_none, fun u work least => State.search_of_least work least⟩

end Sys2Proof.Machine
end

section
/-! PROOFS. The receiver: what a run of the return line leaves, and the runs that are discarded. -/

namespace Sys2Proof.Machine

/-! ### A run of bytes -/

@[simp] theorem State.setRx_setRx (s : State) (r q : RxState) : (s.setRx r).setRx q = s.setRx q := rfl

@[simp] theorem State.setRx_towerAt (s : State) (r : RxState) (a : Byte) : (s.setRx r).towerAt a = s.towerAt a := rfl

theorem State.receive_cons (s : State) (e : LineEvent) (line : List LineEvent) :
    s.receive (e :: line) = (s.lineEvent e).receive line := rfl

theorem State.receive_append (s : State) (l m : List LineEvent) : s.receive (l ++ m) = (s.receive l).receive m :=
  List.foldl_append ..

theorem State.lineEvent_rest (s : State) : s.lineEvent .rest = s.setRx (.assembling []) := rfl

/-- A receiver that awaits a rest hears no byte (R93). -/
theorem State.receive_awaiting (s : State) (bs : List Byte) :
    (s.setRx .awaitRest).receive (bs.map (fun b => .byte b true)) = s.setRx .awaitRest := by
  induction bs with
  | nil => rfl
  | cons b bs ih => exact ih

/-- A byte with a bad stop bit leaves the receiver awaiting a rest (R93). -/
theorem State.lineEvent_badStop (s : State) (r : RxState) (v : Byte) :
    (s.setRx r).lineEvent (.byte v false) = s.setRx .awaitRest := by
  cases r <;> rfl

/-- A first byte that is not the start mark leaves the receiver awaiting a rest (R93). -/
theorem State.lineEvent_badStart (s : State) {v : Byte} (h : v ≠ 0xA5#8) :
    (s.setRx (.assembling [])).lineEvent (.byte v true) = s.setRx .awaitRest := by
  show (if [] = [] ∧ v ≠ Config.startMark then _ else _) = _
  rw [if_pos ⟨rfl, h⟩]
  rfl

/-- One more byte of a frame that stays short of eight changes nothing but the receiver (R93). -/
theorem State.lineEvent_short (s : State) {bs : List Byte} {v : Byte} (h : bs.length + 1 < 8) :
    ∃ r, (s.setRx (.assembling bs)).lineEvent (.byte v true) = s.setRx r
      ∧ (r = .awaitRest ∨ r = .assembling (bs ++ [v])) := by
  show ∃ r, (if bs = [] ∧ v ≠ Config.startMark then s.setRx .awaitRest
    else (s.setRx (.assembling bs)).assemble (bs ++ [v])) = _ ∧ _
  by_cases bad : bs = [] ∧ v ≠ Config.startMark
  · exact ⟨_, if_pos bad, Or.inl rfl⟩
  · refine ⟨_, ?_, Or.inr rfl⟩
    rw [if_neg bad, State.assemble, if_pos (by simpa using h)]
    rfl

/-- Fewer than eight bytes after a rest change nothing but the receiver (R93). -/
theorem State.receive_short (s : State) (bs : List Byte) (sofar : List Byte) (h : sofar.length + bs.length < 8) :
    ∃ r, (s.setRx (.assembling sofar)).receive (bs.map (fun b => .byte b true)) = s.setRx r := by
  induction bs generalizing sofar with
  | nil => exact ⟨_, rfl⟩
  | cons b bs ih =>
    rw [List.length_cons] at h
    obtain ⟨r, step, rfl | rfl⟩ := s.lineEvent_short (bs := sofar) (v := b) (by omega)
    · rw [List.map_cons, State.receive_cons, step]
      exact ⟨_, s.receive_awaiting bs⟩
    · rw [List.map_cons, State.receive_cons, step]
      exact ih (sofar ++ [b]) (by simp; omega)

/-! ### A frame -/

/-- A byte that joins a frame: the start mark first, any byte after it (R93). -/
theorem State.lineEvent_joins (s : State) {bs : List Byte} {v : Byte} (h : bs ≠ [] ∨ v = Config.startMark) :
    (s.setRx (.assembling bs)).lineEvent (.byte v true) = (s.setRx (.assembling bs)).assemble (bs ++ [v]) := by
  show (if bs = [] ∧ v ≠ Config.startMark then s.setRx .awaitRest
    else (s.setRx (.assembling bs)).assemble (bs ++ [v])) = _
  rw [if_neg fun k => h.elim (absurd k.1) k.2]

theorem State.lineEvent_grows (s : State) {bs : List Byte} {v : Byte} (h : bs ≠ [] ∨ v = Config.startMark)
    (short : bs.length + 1 < 8) :
    (s.setRx (.assembling bs)).lineEvent (.byte v true) = s.setRx (.assembling (bs ++ [v])) := by
  rw [s.lineEvent_joins h, State.assemble, if_pos (by simpa using short), State.setRx_setRx]

theorem State.receive_grows (s : State) (bs sofar : List Byte) (begun : sofar ≠ [])
    (short : sofar.length + bs.length < 8) :
    (s.setRx (.assembling sofar)).receive (bs.map (fun b => .byte b true)) = s.setRx (.assembling (sofar ++ bs)) := by
  induction bs generalizing sofar with
  | nil => rw [List.append_nil]; rfl
  | cons b bs ih =>
    rw [List.length_cons] at short
    rw [List.map_cons, State.receive_cons, s.lineEvent_grows (Or.inl begun) (by omega), ih _ (by simp) (by simp; omega),
      List.append_assoc]
    rfl

/-- Eight bytes that begin with the start mark are delivered when their check is right (R93, R94). -/
theorem State.receive_eight (s : State) (a k x y p q z : Byte) :
    s.receive (.rest :: [0xA5#8, a, k, x, y, p, q, z].map (fun b => .byte b true))
      = if crc8 [a, k, x, y, p, q] = z
        then (s.setRx .awaitRest).deliver ⟨a, k, x, y, p.toNat * 256 + q.toNat⟩ else s.setRx .awaitRest := by
  have split : [0xA5#8, a, k, x, y, p, q, z].map (fun b => LineEvent.byte b true)
      = .byte 0xA5#8 true :: ([a, k, x, y, p, q].map (fun b => LineEvent.byte b true) ++ [.byte z true]) := rfl
  rw [split, State.receive_cons, State.lineEvent_rest, State.receive_cons,
    s.lineEvent_grows (v := 0xA5#8) (Or.inr rfl) (by decide), State.receive_append,
    s.receive_grows _ _ (by simp) (by simp), State.receive_cons, s.lineEvent_joins (Or.inl (by simp)),
    State.assemble, if_neg (by simp)]
  simp only [List.cons_append, List.nil_append, frameOf]
  by_cases check : crc8 [a, k, x, y, p, q] = z
  · simp only [if_pos check]
    rfl
  · simp only [if_neg check]
    rfl

theorem State.deliver_nowhere {s : State} {f : LinkFrame} (h : s.towerAt f.address = none) : s.deliver f = s := by
  rw [State.deliver, h]

theorem State.deliver_noAnswer {s : State} {f : LinkFrame}
    (h : f.kind ≠ kindDone ∧ f.kind ≠ kindStall ∧ f.kind ≠ kindReport ∧ f.kind ≠ kindHello) : s.deliver f = s := by
  obtain ⟨done, stall, report, hello⟩ := h
  rw [State.deliver]
  split
  · rfl
  · rw [if_neg done, if_neg stall, if_neg report, if_neg hello]

/-- Settles O54: each of the runs changes nothing but the receiver, and the offer follows. -/
theorem badFramesAreDiscarded : Obligations.BadFramesAreDiscarded := by
  intro s line bad
  have only : ∃ r, s.receive line = s.setRx r := by
    rcases bad with ⟨bs, short, rfl⟩ | ⟨v, l, mark, rfl⟩ | ⟨bs, v, short, rfl⟩ | ⟨a, k, x, y, p, q, z, wrong, rfl⟩
    · obtain ⟨r, received⟩ := s.receive_short bs [] (by simpa using short)
      refine ⟨.assembling [], ?_⟩
      rw [List.cons_append, State.receive_cons, State.lineEvent_rest, State.receive_append, received]
      rfl
    · refine ⟨.awaitRest, ?_⟩
      rw [State.receive_cons, State.receive_cons, State.lineEvent_rest, s.lineEvent_badStart mark, s.receive_awaiting]
    · obtain ⟨r, received⟩ := s.receive_short bs [] (by simpa using short)
      refine ⟨.awaitRest, ?_⟩
      rw [List.cons_append, State.receive_cons, State.lineEvent_rest, State.receive_append, received]
      exact s.lineEvent_badStop r v
    · rw [State.receive_eight]
      split
      · next check =>
        refine ⟨.awaitRest, ?_⟩
        rcases wrong with wrong | nowhere | kinds
        · exact absurd check wrong
        · exact State.deliver_nowhere nowhere
        · exact State.deliver_noAnswer kinds
      · exact ⟨_, rfl⟩
  obtain ⟨r, received⟩ := only
  refine ⟨State.settle s (s.setRx r), congrArg (Host.Outcome.next ∘ State.settle s) received, ?_⟩
  have control : s.sameControl (State.settle s (s.setRx r)) := State.settle_sameControl rfl rfl rfl rfl rfl
  rw [State.settle_of_towers (s0 := s) (s := s.setRx r) rfl] at control ⊢
  exact ⟨by simp, by simp [State.setRx], by simp [State.setRx], fun a => by simp, by simp, by simp, control,
    ⟨by simp, by simp, by simp, by simp, by simp⟩, by simp, by simp, by simp, by simp,
    ⟨by simp, by simp, by simp, by simp, by simp⟩, ⟨by simp, by simp, by simp, by simp⟩⟩

end Sys2Proof.Machine
end

section
/-! PROOFS. The events of the key drive link that change towers: what each leaves of the rest of the machine, and
HELLO. -/

namespace Sys2Proof.Machine

/-! ### Towers and link alone -/

/-- Nothing has changed but towers, link, port and what the control unit shows: events, mirror and channel. -/
def State.towersAlone (s t : State) : Prop :=
  s.sameMemory t ∧ t.bus = s.bus ∧ s.sameSetup t ∧ t.coverage = s.coverage ∧ t.engine = s.engine ∧ t.loop = s.loop
    ∧ t.loader = s.loader ∧ s.sameSettings t

theorem State.offerChannel_towersAlone {s x : State} (h : s.towersAlone x) : s.towersAlone x.offerChannel := by
  obtain ⟨memory, bus, setup, coverage, engine, loop, loader, settings⟩ := h
  refine ⟨fun a => by rw [(State.offerChannel_keeps x).2.1]; exact memory a, by simpa using bus, ?_, by simpa using coverage,
    by simpa using engine, by simpa using loop, by simpa using loader, ?_⟩
  · simpa [State.sameSetup] using setup
  · simpa [State.sameSettings] using settings

/-- Whatever the return line brings, it changes towers and link alone. -/
theorem State.receive_towersAlone (s : State) (line : List LineEvent) : s.towersAlone (s.receive line) :=
  ⟨fun a => by simp, by simp, ⟨by simp, by simp, by simp, by simp, by simp⟩, by simp, by simp, by simp, by simp,
    ⟨by simp, by simp, by simp, by simp, by simp⟩⟩

theorem State.takeTimeout_towersAlone (s : State) (u : Tower) (sl : Slot) : s.towersAlone (s.takeTimeout u sl) :=
  ⟨fun a => by simp, by simp, ⟨by simp, by simp, by simp, by simp, by simp⟩, by simp, by simp, by simp, by simp,
    ⟨by simp, by simp, by simp, by simp, by simp⟩⟩

/-! ### Frames from the tower that holds the address -/

/-- The tail of a frame's run: its eight bytes are delivered (R93, R94). -/
theorem State.receive_frameLine (s : State) (adr kind key tag : Byte) (pos : Half) :
    s.receive (frameLine adr kind key tag pos) = (s.setRx .awaitRest).deliver ⟨adr, kind, key, tag, pos.toNat⟩ := by
  have high : (BitVec.ofNat 8 (pos.toNat / 256)).toNat * 256 + (BitVec.ofNat 8 pos.toNat).toNat = pos.toNat := by
    have := pos.isLt
    simp only [BitVec.toNat_ofNat]
    omega
  rw [frameLine_eq]
  have received := s.receive_eight adr kind key tag (BitVec.ofNat 8 (pos.toNat / 256)) (BitVec.ofNat 8 pos.toNat)
    (crc8 (frameBody adr kind key tag pos))
  rw [high] at received
  exact received.trans (if_pos rfl)

theorem State.deliver_at {s : State} {f : LinkFrame} {u : Tower} (h : s.towerAt f.address = some u) :
    s.deliver f = if f.kind = kindDone then s.takeAnswer u .done f.key f.tag f.position
      else if f.kind = kindStall then s.takeAnswer u .stall f.key f.tag f.position
      else if f.kind = kindReport then s.takeAnswer u .report f.key f.tag f.position
      else if f.kind = kindHello then s.takeHello u else s := by
  rw [State.deliver, h]

theorem State.towerAt_configured {s : State} {adr : Byte} {u : Tower} (h : s.towerAt adr = some u) :
    s.towers[u].service ≠ .unconfigured :=
  (TowerState.configured_iff _).1 ((State.towerAt_some s adr u).1 h).1.1

/-! ### HELLO -/

theorem State.exec_busy {s x : State} {c : Instr} (run : exec c s = .next (State.settle s x)) (alone : s.towersAlone x)
    (busy : x.link.tx ≠ .idle) : exec c s = .next x.offerChannel ∧ s.towersAlone x.offerChannel :=
  ⟨run.trans (congrArg Host.Outcome.next (State.settle_of_tx busy)), State.offerChannel_towersAlone alone⟩

theorem State.exec_hello {s : State} {adr : Byte} {u : Tower} (h : s.towerAt adr = some u) (busy : s.link.tx ≠ .idle)
    (key tag : Byte) (pos : Half) :
    exec (.hello adr key tag pos) s = .next ((s.setRx .awaitRest).takeHello u).offerChannel
      ∧ s.towersAlone ((s.setRx .awaitRest).takeHello u).offerChannel := by
  have received : s.receive (frameLine adr kindHello key tag pos) = (s.setRx .awaitRest).takeHello u := by
    rw [State.receive_frameLine, State.deliver_at (s := s.setRx .awaitRest) (f := ⟨adr, kindHello, key, tag, pos.toNat⟩) h]
    rfl
  exact State.exec_busy (congrArg (Host.Outcome.next ∘ State.settle s) received)
    (received ▸ s.receive_towersAlone (frameLine adr kindHello key tag pos)) busy

/-- A record after a HELLO, whose target may have been composed anew with no move admitted (R77, R105, R106). -/
structure KeyRec.Helloed (r q : KeyRec) : Prop where
  unknown : q.commanded = none ∧ q.reported = none
  move : q.move = if r.move = .fault then .fault else .idle
  kept : q.fault = r.fault ∧ q.tag = r.tag ∧ q.trim = r.trim ∧ q.base = r.base ∧ q.correction = r.correction
    ∧ q.hold = r.hold ∧ q.ramp = r.ramp

theorem KeyRec.helloed_withdrawRec {r q : KeyRec} {n : Nat} (h : q = { r with target := n, move := r.movedTo false n }) :
    r.Helloed (withdrawRec false q) ∧ (withdrawRec false q).target = n
      ∧ (r.move ≠ .queued ∨ n = r.target → r.withdrawn (withdrawRec false q)) := by
  subst h
  by_cases same : n = r.target
  · subst same
    cases m : r.move <;>
      exact ⟨⟨by simp [withdrawRec, KeyRec.movedTo, m], by simp [withdrawRec, KeyRec.movedTo, m],
        by simp [withdrawRec, KeyRec.movedTo, m]⟩, by simp [withdrawRec, KeyRec.movedTo, m],
        fun _ => by simp [withdrawRec, KeyRec.movedTo, KeyRec.withdrawn, m]⟩
  · cases m : r.move
    case queued =>
      by_cases there : r.commanded = some n <;>
        exact ⟨⟨by simp [withdrawRec, KeyRec.movedTo, m, same, there],
          by simp [withdrawRec, KeyRec.movedTo, m, same, there],
          by simp [withdrawRec, KeyRec.movedTo, m, same, there]⟩,
          by simp [withdrawRec, KeyRec.movedTo, m, same, there],
          fun k => k.elim (absurd rfl) (absurd · same)⟩
    all_goals
      exact ⟨⟨by simp [withdrawRec, KeyRec.movedTo, m, same], by simp [withdrawRec, KeyRec.movedTo, m, same],
        by simp [withdrawRec, KeyRec.movedTo, m, same]⟩, by simp [withdrawRec, KeyRec.movedTo, m, same],
        fun _ => by simp [withdrawRec, KeyRec.movedTo, KeyRec.withdrawn, m, same]⟩

/-- A FAULTED tower at a HELLO: it comes back PARKED with park-hold set and a frame to send (R105). -/
theorem TowerState.hello_faulted {tw : TowerState} (h : tw.service = .faulted) :
    tw.hello = { tw with
        service := .parked, parkHold := true, haltPending := true, queryPending := true, queue := [], flight := []
        timeouts := 0, recs := tw.hello.recs }
      ∧ ∀ sl : Slot, ∃ n, (tw.recs[sl]).Helloed tw.hello.recs[sl] ∧ (tw.hello.recs[sl]).target = n
        ∧ (n = if tw.parkHold = false ∧ tw.present sl = true then 0 else (tw.recs[sl]).target)
        ∧ ((tw.recs[sl]).move ≠ .queued → (tw.recs[sl]).withdrawn tw.hello.recs[sl]) := by
  generalize hp : ({ tw with service := .parked } : TowerState) = parked
  have park : parked.parkHold = tw.parkHold := by rw [← hp]
  have recs : parked.recs = tw.recs := by rw [← hp]
  have cfg : parked.present = tw.present := by rw [← hp]; rfl
  have hello : tw.hello = { (parked.setParkHold true).withdraw false with haltPending := true, queryPending := true } := by
    rw [TowerState.hello, h, ← hp]
  obtain ⟨shell, absent⟩ := parked.setParkHold_shell true
  refine ⟨?_, fun sl => ?_⟩
  · rw [hello, TowerState.withdraw, shell, ← hp]
  obtain ⟨-, -, -, -, -, spec⟩ := parked.setParkHold_spec true
  obtain ⟨⟨m, n, moved⟩, composes⟩ := spec sl
  obtain ⟨move, -⟩ := (parked.setParkHold_handedOn true).1 sl
  have admits : admitsMoves parked.service = false := by rw [← hp]; rfl
  have withdrawn : tw.hello.recs[sl] = withdrawRec false (parked.setParkHold true).recs[sl] := by
    rw [hello]
    exact vecMap_get _ _ sl
  rw [admits, moved] at move
  dsimp only at move
  rw [move] at moved
  rw [recs] at moved composes absent
  rw [withdrawn]
  obtain ⟨helloed, target, kept⟩ := KeyRec.helloed_withdrawRec moved
  refine ⟨n, helloed, target, ?_, fun q => kept (Or.inl q)⟩
  have composed : n = ((parked.setParkHold true).recs[sl]).target := by rw [moved]
  by_cases freed : tw.parkHold = false ∧ tw.present sl = true
  · rw [if_pos freed, composed, composes (by rw [park, freed.1]; simp) (by rw [cfg]; exact freed.2)]
    exact composed_held (Or.inr rfl)
  · rw [if_neg freed, composed]
    by_cases held : tw.parkHold = true
    · have same : parked.setParkHold true = parked := if_pos (park.trans held)
      rw [same, recs]
    · rw [absent sl (by rw [cfg]; simpa [held] using freed)]

/-- What a HELLO makes of its tower: the statement of R105 and R106, tower by tower. -/
def TowerState.Helloes (tw tv : TowerState) : Prop :=
  tv = { tw with
      service := tv.service, parkHold := tv.parkHold, haltPending := tv.haltPending, queryPending := true, queue := []
      flight := [], timeouts := 0, recs := tv.recs }
    ∧ (∀ sl : Slot, (tv.recs[sl]).commanded = none ∧ (tv.recs[sl]).reported = none
      ∧ (tv.recs[sl]).move = (if (tw.recs[sl]).move = .fault then .fault else .idle)
      ∧ (tv.recs[sl]).fault = (tw.recs[sl]).fault ∧ (tv.recs[sl]).tag = (tw.recs[sl]).tag
      ∧ (tv.recs[sl]).trim = (tw.recs[sl]).trim ∧ (tv.recs[sl]).base = (tw.recs[sl]).base
      ∧ (tv.recs[sl]).correction = (tw.recs[sl]).correction ∧ (tv.recs[sl]).hold = (tw.recs[sl]).hold
      ∧ (tv.recs[sl]).ramp = (tw.recs[sl]).ramp)
    ∧ (∀ sl : Slot, tw.service ≠ .faulted ∨ (tw.recs[sl]).move ≠ .queued → (tw.recs[sl]).withdrawn (tv.recs[sl]))
    ∧ (tw.service = .faulted → tv.service = .parked ∧ tv.parkHold = true ∧ tv.haltPending = true
      ∧ ∀ sl : Slot, (tv.recs[sl]).target
        = if tw.parkHold = false ∧ tw.present sl = true then 0 else (tw.recs[sl]).target)
    ∧ (tw.service ≠ .faulted → tv.parkHold = tw.parkHold ∧ tv.haltPending = tw.haltPending
      ∧ tv.service = (if tw.service = .parking then .parked else tw.service)
      ∧ ∀ sl : Slot, (tv.recs[sl]).target = (tw.recs[sl]).target)

theorem TowerState.helloes_faulted {tw : TowerState} (h : tw.service = .faulted) : tw.Helloes tw.hello := by
  obtain ⟨shape, recs⟩ := TowerState.hello_faulted h
  refine ⟨by rw [shape], fun sl => ?_, fun sl free => ?_, fun _ => ?_, absurd h⟩
  · obtain ⟨n, ⟨⟨commanded, reported⟩, move, kept⟩, -⟩ := recs sl
    exact ⟨commanded, reported, move, kept⟩
  · obtain ⟨n, -, -, -, withdrawn⟩ := recs sl
    exact withdrawn (free.resolve_left (absurd h))
  · refine ⟨by rw [shape], by rw [shape], by rw [shape], fun sl => ?_⟩
    obtain ⟨n, -, target, composed, -⟩ := recs sl
    exact target.trans composed

theorem TowerState.helloes_inService {tw : TowerState} (h : tw.service ≠ .faulted)
    (configured : tw.service ≠ .unconfigured) : tw.Helloes tw.hello := by
  obtain ⟨shape, recs⟩ := TowerState.hello_inService h configured
  have withdrawn (sl : Slot) := KeyRec.helloed_withdrawRec (r := tw.recs[sl]) (q := tw.recs[sl])
    (n := (tw.recs[sl]).target) (by simp [KeyRec.movedTo])
  refine ⟨by rw [shape], fun sl => ?_, fun sl _ => ?_, fun k => absurd k h,
    fun _ => ⟨by rw [shape], by rw [shape], by rw [shape], fun sl => ?_⟩⟩
  · obtain ⟨⟨⟨commanded, reported⟩, move, kept⟩, -, -⟩ := withdrawn sl
    rw [recs sl]
    exact ⟨commanded, reported, move, kept⟩
  · obtain ⟨-, -, withdraws⟩ := withdrawn sl
    rw [recs sl]
    exact withdraws (Or.inr rfl)
  · obtain ⟨-, target, -⟩ := withdrawn sl
    rw [recs sl, target]

/-- Settles O53: the tower takes its HELLO by its service state, and the records their withdrawal. -/
theorem helloWithdrawsTheMoves : Obligations.HelloWithdrawsTheMoves := by
  intro s adr key tag pos u h busy
  obtain ⟨run, alone⟩ := State.exec_hello h busy key tag pos
  have configured := State.towerAt_configured h
  have towers : ∀ v : Tower, ((s.setRx .awaitRest).takeHello u).offerChannel.towers[v]
      = if v = u then s.towers[u].hello else s.towers[v] := fun v => by
    rw [(State.offerChannel_keeps _).2.2.2.2.2.2.2.1]
    exact State.modTower_get (s.setRx .awaitRest) u v TowerState.hello
  have self := (towers u).trans (if_pos rfl)
  refine ⟨_, run, ?_, ?_⟩
  · simp [State.raised, State.takeHello, State.raise_flags]
  rw [self]
  have others : ∀ v : Tower, v ≠ u → ((s.setRx .awaitRest).takeHello u).offerChannel.towers[v] = s.towers[v] :=
    fun v hv => (towers v).trans (if_neg hv)
  suffices h : s.towers[u].Helloes s.towers[u].hello by
    obtain ⟨shape, recs, withdrawn, back, stays⟩ := h
    exact ⟨shape, recs, withdrawn, back, stays, others, alone⟩
  by_cases faulted : s.towers[u].service = .faulted
  · exact TowerState.helloes_faulted faulted
  · exact TowerState.helloes_inService faulted configured

end Sys2Proof.Machine
end

section
/-! PROOFS. DONE, STALL and REPORT: one key of the tower that holds the address takes the answer. -/

namespace Sys2Proof.Machine

/-! ### One answer in its tower -/

theorem KeyRec.wantsMove_eq (r : KeyRec) : r.wantsMove = (r.commanded.isSome && r.commanded ≠ some r.target) := by
  rw [KeyRec.wantsMove]
  cases h : r.commanded with
  | none => rfl
  | some c =>
    by_cases e : r.target = c
    · simp [e]
    · simp [e, Ne.symm e]

/-- A record after an answer for its key (R69, R70, R72, R73). -/
def KeyRec.answered (k : AnswerKind) (admits : Bool) (tag : Byte) (p : Nat) (r : KeyRec) : KeyRec :=
  match k with
  | .done =>
    if r.matchesTag tag then r.afterDone (r.move = .retarget && r.wantsMove) p else { r with reported := some p }
  | .stall =>
    if r.matchesTag tag then
      ({ r with commanded := some p, reported := some p, timer := none } : KeyRec).failedMove .stall
    else { r with reported := some p }
  | .report => r.afterReport admits p

theorem KeyRec.answered_values (k : AnswerKind) (admits : Bool) (tag : Byte) (p : Nat) (r : KeyRec) :
    (r.answered k admits tag p).values = r.values ∧ (r.answered k admits tag p).reported = some p := by
  cases k
  case done => unfold KeyRec.answered; dsimp only; split <;> exact ⟨rfl, rfl⟩
  case stall =>
    unfold KeyRec.answered KeyRec.failedMove
    dsimp only
    (repeat' split) <;> exact ⟨rfl, rfl⟩
  case report => exact ⟨rfl, rfl⟩

/-- Only the third unsuccessful move in a row faults a key at an answer (R70, R75). -/
theorem KeyRec.answered_fault (k : AnswerKind) (admits : Bool) (tag : Byte) (p : Nat) (r : KeyRec) :
    ((r.answered k admits tag p).move = .fault ∧ r.move ≠ .fault)
      ↔ k = .stall ∧ r.matchesTag tag = true ∧ 3 ≤ r.tries + 1 := by
  have flying (h : r.matchesTag tag = true) : r.move ≠ .fault := by
    intro fault
    simp [KeyRec.matchesTag, KeyRec.flying, fault] at h
  cases k
  case done =>
    refine iff_of_false (fun h => ?_) nofun
    obtain ⟨after, before⟩ := h
    unfold KeyRec.answered KeyRec.afterDone at after
    dsimp only at after
    (repeat' split at after) <;> simp_all
  case stall =>
    unfold KeyRec.answered KeyRec.failedMove
    by_cases tagged : r.matchesTag tag = true
    · have := flying tagged
      by_cases few : r.tries + 1 < 3
      · simp [tagged, few]
        omega
      · simp [tagged, few, this]
        omega
    · simp [tagged]
  case report =>
    refine iff_of_false (fun h => ?_) nofun
    obtain ⟨after, before⟩ := h
    unfold KeyRec.answered KeyRec.afterReport at after
    dsimp only at after
    (repeat' split at after) <;> simp_all

theorem TowerState.setReported_spec (tw : TowerState) (sl : Slot) (p : Nat) :
    (tw.setReported sl p).recs[sl] = { tw.recs[sl] with reported := some p } :=
  TowerState.mod_self tw sl _

/-- The record of the key that an answer concerns. -/
theorem TowerState.takeKind_record (k : AnswerKind) (sl : Slot) (tag : Byte) (p : Nat) (tw : TowerState) :
    (tw.takeKind k sl tag p).recs[sl] = (tw.recs[sl]).answered k (admitsMoves tw.service) tag p := by
  cases k
  case done =>
    by_cases h : (tw.recs[sl]).matchesTag tag = true
    · exact (TowerState.takeDone_match p h _ rfl).1.trans (if_pos h).symm
    · rw [TowerState.takeKind, (TowerState.take_unmatched p (by simpa using h)).1, TowerState.setReported_spec]
      exact (if_neg h).symm
  case stall =>
    by_cases h : (tw.recs[sl]).matchesTag tag = true
    · exact (TowerState.takeStall_match p h).1.trans (if_pos h).symm
    · rw [TowerState.takeKind, (TowerState.take_unmatched p (by simpa using h)).2, TowerState.setReported_spec]
      exact (if_neg h).symm
  case report => exact (TowerState.takeReport_spec tw sl p).1

/-- What an answer to a key leaves of the tower's queue, in-flight set and timeout count: a matching DONE or STALL takes
the key out of the in-flight set, and the key may join the tail of the queue or leave it (R69, R70, R72, R73). -/
theorem TowerState.takeKind_queue (k : AnswerKind) (sl : Slot) (tag : Byte) (p : Nat) (tw : TowerState) :
    (tw.takeKind k sl tag p).timeouts = tw.timeouts
      ∧ (k ≠ .report → (tw.recs[sl]).matchesTag tag = true →
        (tw.takeKind k sl tag p).flight = tw.flight.filter (fun x => x != sl)
          ∧ (tw.takeKind k sl tag p).queue = tw.queue
            ++ (if ((tw.recs[sl]).answered k (admitsMoves tw.service) tag p).move = .queued then [sl] else []))
      ∧ (k ≠ .report → (tw.recs[sl]).matchesTag tag = false →
        (tw.takeKind k sl tag p).flight = tw.flight ∧ (tw.takeKind k sl tag p).queue = tw.queue)
      ∧ (k = .report → (tw.takeKind k sl tag p).flight = tw.flight
        ∧ (tw.takeKind k sl tag p).queue
          = match (tw.recs[sl]).move, ((tw.recs[sl]).answered k (admitsMoves tw.service) tag p).move with
            | .idle, .queued => tw.queue ++ [sl]
            | .queued, .idle => tw.queue.filter (fun x => x != sl)
            | _, _ => tw.queue) := by
  cases k
  case done =>
    by_cases h : (tw.recs[sl]).matchesTag tag = true
    · obtain ⟨-, -, shape⟩ := TowerState.takeDone_match p h _ rfl
      refine ⟨by rw [TowerState.takeKind, shape], fun _ _ => ⟨by rw [TowerState.takeKind, shape], ?_⟩, ?_, nofun⟩
      · rw [TowerState.takeKind, shape, KeyRec.answered, if_pos h, KeyRec.afterDone]
        dsimp only
        split <;> rfl
      · exact fun _ n => absurd (h.symm.trans n) (by decide)
    · rw [TowerState.takeKind, (TowerState.take_unmatched p (by simpa using h)).1]
      exact ⟨rfl, fun _ m => absurd m h, fun _ _ => ⟨rfl, rfl⟩, nofun⟩
  case stall =>
    by_cases h : (tw.recs[sl]).matchesTag tag = true
    · obtain ⟨-, -, shape⟩ := TowerState.takeStall_match p h
      refine ⟨by rw [TowerState.takeKind, shape], fun _ _ => ⟨by rw [TowerState.takeKind, shape], ?_⟩, ?_, nofun⟩
      · rw [TowerState.takeKind, shape, KeyRec.answered, if_pos h, KeyRec.failedMove]
        dsimp only
        split <;> rfl
      · exact fun _ n => absurd (h.symm.trans n) (by decide)
    · rw [TowerState.takeKind, (TowerState.take_unmatched p (by simpa using h)).2]
      exact ⟨rfl, fun _ m => absurd m h, fun _ _ => ⟨rfl, rfl⟩, nofun⟩
  case report =>
    obtain ⟨-, -, shape⟩ := TowerState.takeReport_spec tw sl p
    refine ⟨by rw [TowerState.takeKind, shape], nofun, nofun, fun _ => ⟨by rw [TowerState.takeKind, shape], ?_⟩⟩
    rw [TowerState.takeKind, shape]
    rfl

/-- An answer that the key table takes: the key's change, with the notice that follows it (R73, R74, R78). -/
theorem TowerState.takeAnswer_present {tw : TowerState} {k : AnswerKind} {key tag : Byte} {p : Nat} {sl : Slot}
    (present : tw.slotOf key = some sl) (low : p ≤ 1000) :
    tw.takeAnswer k key tag p = TowerState.notice tw (({ tw with timeouts := 0 } : TowerState).takeKind k sl tag p) := by
  rw [TowerState.takeAnswer, present]
  exact if_pos low

/-- An answer that the key table does not take sets the timeout count to 0 (R73, R74). -/
theorem TowerState.takeAnswer_untaken {tw : TowerState} {k : AnswerKind} {key tag : Byte} {p : Nat}
    (h : tw.slotOf key = none ∨ 1000 < p) : tw.takeAnswer k key tag p = { tw with timeouts := 0 } := by
  unfold TowerState.takeAnswer
  split
  · rfl
  · next sl present => exact if_neg fun low => h.elim (fun absent => nomatch present.symm.trans absent) (by omega)

/-- The notice of R78 changes nothing but the service state. -/
theorem TowerState.notice_keeps (old tw : TowerState) :
    (TowerState.notice old tw).recs = tw.recs ∧ (TowerState.notice old tw).queue = tw.queue
      ∧ (TowerState.notice old tw).flight = tw.flight ∧ (TowerState.notice old tw).timeouts = tw.timeouts := by
  obtain ⟨shape, -⟩ := TowerState.notice_spec old tw
  rw [shape]
  exact ⟨rfl, rfl, rfl, rfl⟩

/-! ### One answer on the line -/

/-- The kind byte of an answer (12.5). -/
def AnswerKind.byte : AnswerKind → Byte
  | .done => kindDone
  | .stall => kindStall
  | .report => kindReport

theorem State.deliver_answer {s : State} {adr : Byte} {u : Tower} (h : s.towerAt adr = some u) (k : AnswerKind)
    (key tag : Byte) (p : Nat) : s.deliver ⟨adr, k.byte, key, tag, p⟩ = s.takeAnswer u k key tag p := by
  rw [State.deliver_at (f := ⟨adr, k.byte, key, tag, p⟩) h]
  cases k <;> rfl

/-- The four commands that are answers, with the kind each delivers (log 2). -/
def Answers (c : Instr) (k : AnswerKind) (adr key tag : Byte) (pos : Half) : Prop :=
  (k = .done ∧ c = .done adr key tag pos)
    ∨ (k = .stall ∧ (c = .stall adr key tag pos ∨ c = .keyFault (.stall adr key tag pos)))
    ∨ (k = .report ∧ c = .report adr key tag pos)

theorem Answers.exec {c : Instr} {k : AnswerKind} {adr key tag : Byte} {pos : Half} (h : Answers c k adr key tag pos)
    (s : State) : exec c s = .next (State.settle s (s.receive (frameLine adr k.byte key tag pos))) := by
  rcases h with ⟨rfl, rfl⟩ | ⟨rfl, rfl | rfl⟩ | ⟨rfl, rfl⟩ <;> rfl

theorem Answers.of_cases {c : Instr} {adr key tag : Byte} {pos : Half}
    (h : c = .done adr key tag pos ∨ c = .stall adr key tag pos ∨ c = .keyFault (.stall adr key tag pos)
      ∨ c = .report adr key tag pos) : ∃ k, Answers c k adr key tag pos := by
  rcases h with h | h | h | h
  · exact ⟨.done, .inl ⟨rfl, h⟩⟩
  · exact ⟨.stall, .inr (.inl ⟨rfl, .inl h⟩)⟩
  · exact ⟨.stall, .inr (.inl ⟨rfl, .inr h⟩)⟩
  · exact ⟨.report, .inr (.inr ⟨rfl, h⟩)⟩

theorem Answers.iffs {c : Instr} {k : AnswerKind} {adr key tag : Byte} {pos : Half} (h : Answers c k adr key tag pos) :
    (c = .done adr key tag pos ↔ k = .done)
      ∧ (c = .stall adr key tag pos ∨ c = .keyFault (.stall adr key tag pos) ↔ k = .stall)
      ∧ (c = .report adr key tag pos ↔ k = .report) := by
  rcases h with ⟨rfl, rfl⟩ | ⟨rfl, rfl | rfl⟩ | ⟨rfl, rfl⟩ <;> simp

/-- An answer faults the key that it names (R75). -/
def TowerState.answerFaults (tw : TowerState) (k : AnswerKind) (key tag : Byte) (p : Nat) : Bool :=
  match tw.slotOf key with
  | none => false
  | some sl => enteredFault sl tw (tw.takeAnswer k key tag p)

theorem State.raiseIf_false (s : State) (f : EventFlag) : s.raiseIf false f = s := rfl

theorem State.raiseIf_true (s : State) (f : EventFlag) : s.raiseIf true f = s.raise f := rfl

theorem State.takeAnswer_eq (s : State) (u : Tower) (k : AnswerKind) (key tag : Byte) (p : Nat) :
    s.takeAnswer u k key tag p = (s.putTower u (s.towers[u].takeAnswer k key tag p)).raiseIf
      (s.towers[u].answerFaults k key tag p) .keyFault := rfl

/-- An answer from the tower that holds the address, when no search follows: that tower takes it, KEY_FAULT is raised
for a key that it faults, and nothing else changes but the receiver and the offer (R75, R95). -/
theorem State.exec_answer {s : State} {c : Instr} {k : AnswerKind} {adr key tag : Byte} {pos : Half} {u : Tower}
    (answers : Answers c k adr key tag pos) (h : s.towerAt adr = some u)
    (still : s.link.tx ≠ .idle ∨ s.towers[u].slotOf key = none ∨ 1000 < pos.toNat) :
    ∃ t, exec c s = .next t ∧ s.towersAlone t
      ∧ (∀ v : Tower, t.towers[v] = if v = u then s.towers[u].takeAnswer k key tag pos.toNat else s.towers[v])
      ∧ (s.towers[u].answerFaults k key tag pos.toNat = false → s.sameEvents t)
      ∧ (s.towers[u].answerFaults k key tag pos.toNat = true → s.raised .keyFault t)
      ∧ t.link.tx = s.link.tx ∧ t.link.pointer = s.link.pointer := by
  have received : s.receive (frameLine adr k.byte key tag pos)
      = (s.setRx .awaitRest).takeAnswer u k key tag pos.toNat := by
    rw [State.receive_frameLine]
    exact State.deliver_answer (s := s.setRx .awaitRest) h k key tag _
  have alone := s.receive_towersAlone (frameLine adr k.byte key tag pos)
  have run := answers.exec s
  rw [received] at alone run
  have towers : ∀ v : Tower, ((s.setRx .awaitRest).takeAnswer u k key tag pos.toNat).towers[v]
      = if v = u then s.towers[u].takeAnswer k key tag pos.toNat else s.towers[v] := fun v =>
    State.putTower_get (s.setRx .awaitRest) u v _
  have taken := (s.setRx .awaitRest).takeAnswer_eq u k key tag pos.toNat
  rw [(State.setRx_keeps _ _).2.2.2.2.2.2.2.2.1] at taken
  have settled : State.settle s ((s.setRx .awaitRest).takeAnswer u k key tag pos.toNat)
      = ((s.setRx .awaitRest).takeAnswer u k key tag pos.toNat).offerChannel := by
    rcases still with busy | untaken
    · exact State.settle_of_tx busy
    · refine State.settle_of_view fun v => ?_
      rw [towers v, TowerState.takeAnswer_untaken untaken]
      split
      · next e => rw [e]; rfl
      · rfl
  rw [settled] at run
  refine ⟨_, run, State.offerChannel_towersAlone alone, fun v => ?_, fun quiet => ?_, fun fault => ?_, by simp [State.setRx],
    by simp [State.setRx]⟩
  · rw [(State.offerChannel_keeps _).2.2.2.2.2.2.2.1]
    exact towers v
  · rw [taken, quiet, State.raiseIf_false]
    exact ⟨by simp, by simp, by simp, by simp⟩
  · rw [taken, fault, State.raiseIf_true, State.raised, (State.offerChannel_control _).2.1, State.raise_flags,
      (State.putTower_control _ _ _).2.1, (State.setRx_keeps _ _).2.2.2.2.2.2.2.2.2.2.2.2.2.1]

/-- An answer to a present key at a position it can have, in its tower: one key has changed (R69, R70, R72, R73). -/
theorem TowerState.takeAnswer_key {tw tv : TowerState} {k : AnswerKind} {key tag : Byte} {p : Nat} {sl : Slot}
    (present : tw.slotOf key = some sl) (low : p ≤ 1000) (after : tv = tw.takeAnswer k key tag p) :
    tw.onlyKey sl tv ∧ tv.timeouts = 0 ∧ tv.recs[sl] = (tw.recs[sl]).answered k (admitsMoves tw.service) tag p
      ∧ (k ≠ .report → (tw.recs[sl]).matchesTag tag = true →
        tv.flight = tw.flight.filter (fun x => x != sl)
          ∧ tv.queue = tw.queue
            ++ (if ((tw.recs[sl]).answered k (admitsMoves tw.service) tag p).move = .queued then [sl] else []))
      ∧ (k ≠ .report → (tw.recs[sl]).matchesTag tag = false → tv.flight = tw.flight ∧ tv.queue = tw.queue)
      ∧ (k = .report → tv.flight = tw.flight
        ∧ tv.queue
          = match (tw.recs[sl]).move, ((tw.recs[sl]).answered k (admitsMoves tw.service) tag p).move with
            | .idle, .queued => tw.queue ++ [sl]
            | .queued, .idle => tw.queue.filter (fun x => x != sl)
            | _, _ => tw.queue)
      ∧ (tw.answerFaults k key tag p = true ↔ k = .stall ∧ (tw.recs[sl]).matchesTag tag = true
        ∧ 3 ≤ (tw.recs[sl]).tries + 1) := by
  have taken := TowerState.takeAnswer_present (k := k) (tag := tag) present low
  obtain ⟨recs, queue, flight, timeouts⟩ := TowerState.notice_keeps tw
    (({ tw with timeouts := 0 } : TowerState).takeKind k sl tag p)
  obtain ⟨count, queues⟩ := TowerState.takeKind_queue k sl tag p { tw with timeouts := 0 }
  have record : tv.recs[sl] = (tw.recs[sl]).answered k (admitsMoves tw.service) tag p := by
    rw [after, taken, recs]
    exact TowerState.takeKind_record k sl tag p { tw with timeouts := 0 }
  have faults : tw.answerFaults k key tag p = true ↔ k = .stall ∧ (tw.recs[sl]).matchesTag tag = true
      ∧ 3 ≤ (tw.recs[sl]).tries + 1 := by
    rw [← KeyRec.answered_fault k (admitsMoves tw.service) tag p, ← record, TowerState.answerFaults, present, ← after]
    simp [enteredFault]
  rw [← after] at taken
  rw [← taken] at queue flight timeouts
  rw [queue, flight]
  exact ⟨taken ▸ TowerState.takeKind_onlyKey k sl tag p tw, timeouts.trans count, record, queues.1, queues.2.1, queues.2.2,
    faults⟩

theorem linkNumber_eq (sl : Slot) : linkNumber sl = if sl = fountainSlot then 63#8 else BitVec.ofNat 8 sl.val := rfl

theorem TowerState.present_iff (tw : TowerState) (sl : Slot) : tw.present sl = true
    ↔ ∃ c, tw.cfg = some c ∧ (sl.val < c.k ∨ (sl = fountainSlot ∧ c.fountain = true)) := by
  unfold TowerState.present
  split
  · next h => simp [h]
  · next c h => simp [h]

theorem KeyRec.matchesTag_iff (r : KeyRec) (tag : Byte) : r.matchesTag tag = true
    ↔ (r.move = .inFlight ∨ r.move = .retarget) ∧ tag.toNat = r.tag.toNat := by
  simp [KeyRec.matchesTag, KeyRec.flying]

/-- Settles O52: one kind of answer at a time in its tower; then the lookups of tower, key and tag. -/
theorem answersAreTaken : Obligations.AnswersAreTaken := by
  refine ⟨fun s adr key tag pos u sl c busy h present low cases => ?_, fun s adr => ⟨fun u => ?_, ?_⟩,
    fun tw key sl => ⟨TowerState.slotOf_some tw key sl, tw.present_iff sl⟩, KeyRec.matchesTag_iff,
    fun s adr key tag pos u c h untaken cases => ?_⟩
  · obtain ⟨k, answers⟩ := Answers.of_cases cases
    obtain ⟨t, run, alone, towers, quiet, fault, -⟩ := State.exec_answer answers h (Or.inl busy)
    obtain ⟨only, timeouts, record, tagged, untagged, reports, faults⟩ :=
      TowerState.takeAnswer_key present low ((towers u).trans (if_pos rfl))
    obtain ⟨isDone, isStall, isReport⟩ := answers.iffs
    obtain ⟨values, reported⟩ := KeyRec.answered_values k (admitsMoves s.towers[u].service) tag pos.toNat s.towers[u].recs[sl]
    have others : ∀ v : Tower, v ≠ u → t.towers[v] = s.towers[v] := fun v hv => (towers v).trans (if_neg hv)
    have events (harmless : ¬(k = .stall ∧ (s.towers[u].recs[sl]).matchesTag tag = true
        ∧ 3 ≤ (s.towers[u].recs[sl]).tries + 1)) : s.sameEvents t :=
      quiet (Bool.eq_false_iff.2 fun y => harmless (faults.1 y))
    refine ⟨t, run, only, timeouts, by rw [record, reported], fun v x => ?_, others, fun done tags => ?_,
      fun stall tags => ?_, fun notReport tags => ?_, fun report => ?_, fun noStall => ?_, alone⟩
    · by_cases hv : v = u
      · subst hv
        by_cases hx : x = sl
        · subst hx
          rw [record, values]
        · rw [only.2 x hx]
      · rw [others v hv]
    · have kind := isDone.1 done
      subst kind
      obtain ⟨flight, queue⟩ := tagged nofun tags
      have after : t.towers[u].recs[sl] = _ := record.trans (if_pos tags)
      refine ⟨flight, fun again same => ?_⟩
      rw [Bool.and_assoc, ← KeyRec.wantsMove_eq] at same
      refine ⟨by rw [after, same]; rfl, ?_⟩
      rw [queue, ← record, after, same, KeyRec.afterDone]
      dsimp only
      cases (decide ((s.towers[u].recs[sl]).move = .retarget) && (s.towers[u].recs[sl]).wantsMove) <;> rfl
    · have kind := isStall.1 stall
      subst kind
      obtain ⟨flight, queue⟩ := tagged nofun tags
      have after : t.towers[u].recs[sl] = _ := record.trans (if_pos tags)
      rw [← record, after] at queue
      refine ⟨flight, fun few => ?_, fun many => ?_⟩
      · have failed : ({ s.towers[u].recs[sl] with
            commanded := some pos.toNat, reported := some pos.toNat, timer := none } : KeyRec).failedMove .stall
            = { s.towers[u].recs[sl] with
              commanded := some pos.toNat, reported := some pos.toNat, timer := none
              tries := (s.towers[u].recs[sl]).tries + 1, move := .queued } := if_pos few
        rw [failed] at after queue
        exact ⟨after, queue, events (by omega)⟩
      · have failed : ({ s.towers[u].recs[sl] with
            commanded := some pos.toNat, reported := some pos.toNat, timer := none } : KeyRec).failedMove .stall
            = { s.towers[u].recs[sl] with
              commanded := some pos.toNat, reported := some pos.toNat, timer := none
              tries := (s.towers[u].recs[sl]).tries + 1, move := .fault, fault := some .stall } :=
          if_neg (Nat.not_lt.2 many)
        rw [failed] at after queue
        exact ⟨after, by rw [queue]; exact List.append_nil _, fault (faults.2 ⟨rfl, tags, many⟩)⟩
    · have kind : k ≠ .report := fun e => notReport (isReport.2 e)
      obtain ⟨flight, queue⟩ := untagged kind tags
      refine ⟨?_, queue, flight, events fun h => Bool.eq_false_iff.1 tags h.2.1⟩
      rw [record]
      cases k
      case done => exact if_neg (Bool.eq_false_iff.1 tags)
      case stall => exact if_neg (Bool.eq_false_iff.1 tags)
      case report => exact absurd rfl kind
    · have kind := isReport.1 report
      subst kind
      obtain ⟨flight, queue⟩ := reports rfl
      rw [← record] at queue
      exact ⟨record, flight, queue⟩
    · refine events fun h => ?_
      rcases noStall with e | e
      · exact absurd ((isDone.1 e).symm.trans h.1) nofun
      · exact absurd ((isReport.1 e).symm.trans h.1) nofun
  · simp only [State.towerAt_some, TowerState.configured_iff, and_assoc]
  · simp only [State.towerAt_none, TowerState.configured_iff]
  · obtain ⟨k, answers⟩ := Answers.of_cases cases
    obtain ⟨t, run, ⟨memory, bus, setup, coverage, engine, loop, loader, settings⟩, towers, quiet, -, tx, pointer⟩ :=
      State.exec_answer answers h (Or.inr untaken)
    have self := (towers u).trans (if_pos rfl)
    rw [TowerState.takeAnswer_untaken untaken] at self
    have harmless : s.towers[u].answerFaults k key tag pos.toNat = false := by
      rw [TowerState.answerFaults, TowerState.takeAnswer_untaken untaken]
      cases s.towers[u].slotOf key with
      | none => rfl
      | some sl => simp [-Fin.getElem_fin, enteredFault]
    exact ⟨t, run, self, fun v hv => (towers v).trans (if_neg hv), tx, pointer, memory, bus, setup, coverage, engine,
      loop, loader, settings, quiet harmless⟩

end Sys2Proof.Machine
end

section
/-! PROOFS. The expiry of a move timer: the key's part, and the third expiry in a row. -/

namespace Sys2Proof.Machine

/-! ### A timeout in its tower -/

theorem KeyRec.failedMove_values (why : KeyFault) (r : KeyRec) : (r.failedMove why).values = r.values := by
  unfold KeyRec.failedMove
  split <;> rfl

theorem withdrawRec_values (b : Bool) (r : KeyRec) : (withdrawRec b r).values = r.values := by
  unfold withdrawRec
  (repeat' split) <;> rfl

theorem TowerState.takeTimeout_values (tw : TowerState) (sl x : Slot) :
    ((tw.takeTimeout sl).recs[x]).values = (tw.recs[x]).values := by
  obtain ⟨record, others, -⟩ := tw.takeTimeout_spec sl
  by_cases h : x = sl
  · subst h
    rw [record, KeyRec.failedMove_values]
    rfl
  · rw [others x h]

/-- A timeout changes no value of any record, the third one in a row neither (R71, R77). -/
theorem TowerState.timeout_values (tw : TowerState) (sl x : Slot) :
    ((tw.timeout sl).recs[x]).values = (tw.recs[x]).values := by
  rw [← tw.takeTimeout_values sl x]
  unfold TowerState.timeout
  dsimp only
  split
  · have withdrawn : (tw.takeTimeout sl).countTimeout.enterFaulted.recs[x]
        = withdrawRec false (tw.takeTimeout sl).recs[x] := vecMap_get _ _ x
    rw [withdrawn, withdrawRec_values]
  · exact congrArg (fun recs : Vector KeyRec 49 => (recs[x]).values) (TowerState.notice_keeps _ _).1

/-- A timeout that is not the third in a row (R71, R75). -/
theorem TowerState.timeout_key {tw : TowerState} (sl : Slot) (h : tw.timeouts + 1 < 3) :
    tw.onlyKey sl (tw.timeout sl) ∧ (tw.timeout sl).timeouts = tw.timeouts + 1
      ∧ (tw.timeout sl).flight = tw.flight.filter (fun x => x != sl)
      ∧ ((tw.recs[sl]).tries + 1 < 3 →
        (tw.timeout sl).recs[sl] = { tw.recs[sl] with timer := none, tries := (tw.recs[sl]).tries + 1, move := .queued }
          ∧ (tw.timeout sl).queue = tw.queue ++ [sl])
      ∧ (3 ≤ (tw.recs[sl]).tries + 1 →
        (tw.timeout sl).recs[sl] = { tw.recs[sl] with
            timer := none, tries := (tw.recs[sl]).tries + 1, move := .fault, fault := some .timeout }
          ∧ (tw.timeout sl).queue = tw.queue) := by
  obtain ⟨only, count, recs, queue, flight⟩ := TowerState.timeout_onlyKey sl h
  obtain ⟨record, -, shape⟩ := tw.takeTimeout_spec sl
  rw [recs, queue, flight, record]
  refine ⟨only, count, by rw [shape], fun few => ⟨if_pos few, ?_⟩, fun many => ⟨if_neg (Nat.not_lt.2 many), ?_⟩⟩
  · rw [shape]
    exact congrArg (tw.queue ++ ·) (if_pos few)
  · rw [shape]
    exact (congrArg (tw.queue ++ ·) (if_neg (Nat.not_lt.2 many))).trans (List.append_nil _)

/-- The key of the third timeout in a row: IDLE with its moves withdrawn, unless it has faulted (R75, R77). -/
theorem TowerState.timeout_downKey {tw : TowerState} (sl : Slot) (h : 3 ≤ tw.timeouts + 1) :
    ((tw.recs[sl]).tries + 1 < 3 →
        (tw.timeout sl).recs[sl] = { tw.recs[sl] with
          commanded := none, reported := none, timer := none, tries := 0, move := .idle })
      ∧ (3 ≤ (tw.recs[sl]).tries + 1 →
        (tw.timeout sl).recs[sl] = { tw.recs[sl] with
          commanded := none, reported := none, timer := none, tries := (tw.recs[sl]).tries + 1
          move := .fault, fault := some .timeout }) := by
  obtain ⟨-, -, record⟩ := TowerState.timeout_faulted sl h
  rw [record, KeyRec.failedMove]
  refine ⟨fun few => ?_, fun many => ?_⟩
  · rw [if_pos few]
    rfl
  · rw [if_neg (Nat.not_lt.2 many)]
    rfl

/-! ### A timeout in the machine -/

theorem State.takeTimeout_running {s : State} {u : Tower} {sl : Slot} (h : (s.towers[u].recs[sl]).timer.isSome = true) :
    s.takeTimeout u sl = ((s.modTower u (TowerState.timeout sl)).raiseIf
      (enteredFault sl s.towers[u] (s.towers[u].takeTimeout sl)) .keyFault).raiseIf s.towers[u].goesDown .towerDown :=
  if_pos h

theorem State.raiseIf_flag (s : State) (f : EventFlag) : (s.raiseIf true f).control.flags.getLsbD (flagBit f) = true :=
  s.raise_flag f

theorem State.keepsFlags_raiseIf (s : State) (b : Bool) (f : EventFlag) : s.keepsFlags (s.raiseIf b f) := by
  cases b
  · exact State.keepsFlags_of_eq rfl
  · exact State.keepsFlags_raise s f

theorem TowerState.enteredFault_takeTimeout {tw : TowerState} {sl : Slot} (many : 3 ≤ (tw.recs[sl]).tries + 1)
    (sound : (tw.recs[sl]).move ≠ .fault) : enteredFault sl tw (tw.takeTimeout sl) = true := by
  have record : (tw.takeTimeout sl).recs[sl] = _ := (tw.takeTimeout_spec sl).1.trans (if_neg (Nat.not_lt.2 many))
  simp [-Fin.getElem_fin, enteredFault, record, sound]

/-- Settles O55: the tower's part by whether the timeout is the third in a row, the flags by what is raised. -/
theorem timeoutsAreTaken : Obligations.TimeoutsAreTaken := by
  intro s u sl c cases running busy
  have run : exec c s = .next (State.settle s (s.takeTimeout u sl)) := by
    rcases cases with rfl | rfl | rfl <;> rfl
  obtain ⟨offered, alone⟩ := State.exec_busy run (s.takeTimeout_towersAlone u sl) (by simpa using busy)
  have taken := State.takeTimeout_running running
  have towers : ∀ v : Tower, (s.takeTimeout u sl).offerChannel.towers[v]
      = if v = u then s.towers[u].timeout sl else s.towers[v] := fun v => by
    rw [(State.offerChannel_keeps _).2.2.2.2.2.2.2.1, taken]
    exact State.modTower_get s u v _
  have flags : (s.takeTimeout u sl).offerChannel.control.flags = (s.takeTimeout u sl).control.flags := by simp
  have self := (towers u).trans (if_pos rfl)
  have others : ∀ v : Tower, v ≠ u → (s.takeTimeout u sl).offerChannel.towers[v] = s.towers[v] := fun v hv =>
    (towers v).trans (if_neg hv)
  refine ⟨_, offered, ?_, fun many sound => ?_, fun down => ?_, fun v x => ?_, others, alone⟩
  · rw [self]
    exact fun few => TowerState.timeout_key sl few
  · rw [flags, taken, TowerState.enteredFault_takeTimeout many sound]
    exact State.keepsFlags_raiseIf _ _ _ _ (State.raiseIf_flag _ _)
  · obtain ⟨shape, withdrawn, -⟩ := TowerState.timeout_faulted (tw := s.towers[u]) sl down
    have goes : s.towers[u].goesDown = true := decide_eq_true down
    rw [self, flags]
    refine ⟨shape, ?_, withdrawn, TowerState.timeout_downKey sl down⟩
    rw [taken, goes]
    exact State.raiseIf_flag _ _
  · by_cases hv : v = u
    · subst hv
      rw [self, TowerState.timeout_values]
    · rw [others v hv]

end Sys2Proof.Machine
end

section
/-! PROOFS. The steps of a load: what a judged section leaves of the machine, what a failed load leaves, and the
header. -/

namespace Sys2Proof.Machine

/-! ### A step of a load that goes on -/

/-- The machine with another loader, CONFIG_FAULT raised or not: what a judged section that does not end the load
leaves. -/
def State.withLoader (L : Loader) (b : Bool) (s : State) : State := ({ s with loader := L } : State).raiseIf b .configFault

/-- The loader after steps on its port (R169). -/
def Loader.driven (xs : List SpiStep) (L : Loader) : Loader := { L with spi := L.spi.drive xs }

theorem State.withLoader_readOn (s : State) (L : Loader) (b : Bool) (xs : List SpiStep) :
    (s.withLoader L b).readOn xs = s.withLoader (L.driven (xs ++ L.openSteps)) b := rfl

/-- What a load keeps while it goes on: memory, bus, windows, curves, levels, towers, banks, engine, loop and
settings. -/
def State.loaderAlone (s t : State) : Prop :=
  s.sameMemory t ∧ t.bus = s.bus ∧ s.sameSetup t ∧ s.sameTowers t ∧ t.coverage = s.coverage ∧ t.engine = s.engine
    ∧ t.loop = s.loop ∧ s.sameSettings t

theorem State.withLoader_offered (s : State) (L : Loader) (b : Bool) :
    s.loaderAlone (s.withLoader L b).offerChannel ∧ (s.withLoader L b).offerChannel.loader = L
      ∧ (s.withLoader L b).offerChannel.control.capture = s.control.capture
      ∧ (b = false → s.sameEvents (s.withLoader L b).offerChannel)
      ∧ (b = true → s.raised .configFault (s.withLoader L b).offerChannel) := by
  refine ⟨⟨fun a => by simp [State.withLoader], by simp [State.withLoader],
      ⟨by simp [State.withLoader], by simp [State.withLoader], by simp [State.withLoader], by simp [State.withLoader],
        by simp [State.withLoader]⟩,
      ⟨by simp [State.withLoader], by simp [State.withLoader]⟩, by simp [State.withLoader], by simp [State.withLoader],
      by simp [State.withLoader],
      ⟨by simp [State.withLoader], by simp [State.withLoader], by simp [State.withLoader], by simp [State.withLoader],
        by simp [State.withLoader]⟩⟩,
    by simp [State.withLoader], by simp [State.withLoader], fun h => ?_, fun h => ?_⟩
  · subst h
    rw [State.withLoader, State.raiseIf_false]
    exact ⟨by simp, by simp, by simp, by simp⟩
  · subst h
    rw [State.withLoader, State.raiseIf_true, State.raised, (State.offerChannel_control _).2.1, State.raise_flags]

/-- An event that changes the loader alone, and raises CONFIG_FAULT at most, is followed by an offer alone. -/
theorem State.settle_withLoader (s : State) (L : Loader) (b : Bool) :
    State.settle s (s.withLoader L b) = (s.withLoader L b).offerChannel :=
  State.settle_of_towers (by simp [State.withLoader])

/-! ### The coverage unit at the end of a load -/

theorem Coverage.dropBanks_latch (c : Coverage) :
    c.dropBanks.latch = c.latch.map (fun f => { f with void := true }) := by
  rw [Coverage.dropBanks, Coverage.voidFold_spec]
  rfl

theorem Bank.stale_frame (u : Tower) : Bank.stale.frames[u] = Frame.fresh := by
  simp [Bank.stale]

theorem Coverage.dropBanks_banks (c : Coverage) : c.dropBanks.active = .a ∧ c.dropBanks.cursor = none
    ∧ (∀ bk, (c.dropBanks.banks.get bk).state = .stale)
    ∧ (∀ bk (u : Tower), c.dropBanks.frame bk u = ⟨true, Vector.replicate 48 0⟩) := by
  refine ⟨rfl, rfl, fun bk => by cases bk <;> rfl, fun bk u => ?_⟩
  cases bk <;> exact Bank.stale_frame u

theorem Coverage.endLoad_none (c : Coverage) (g : Tower → Option Geometry) :
    c.endLoad none g = { c.dropBanks with range := none, geometry := vecOf g } := if_neg fun h => nomatch h.1

/-! ### A load that fails -/

theorem Control.takeGlobal_keeps (g : GlobalCfg) (c : Control) :
    (c.takeGlobal g).part = c.part ∧ (c.takeGlobal g).flags = c.flags ∧ (c.takeGlobal g).mirror = c.mirror
      ∧ (c.takeGlobal g).pointer = c.pointer ∧ (c.takeGlobal g).enables = g.enables ∧ (c.takeGlobal g).mode = g.mode
      ∧ (c.takeGlobal g).noticeAddr = g.noticeAddr ∧ (c.takeGlobal g).noticeDatum = g.noticeDatum
      ∧ (c.takeGlobal g).channel = c.channel ∧ (c.takeGlobal g).capture = c.capture :=
  ⟨rfl, rfl, rfl, rfl, rfl, rfl, rfl, rfl, rfl, rfl⟩

/-- With the mirror set empty the offer leaves the mirror pointer (R161). -/
theorem State.offerChannel_pointer {s : State} (h : s.control.mirror = 0) :
    s.offerChannel.control.pointer = s.control.pointer := by
  unfold State.offerChannel
  (repeat' split)
  · rfl
  · rfl
  · rfl
  · rw [State.offerMirror, h, nextMirror_empty]

/-- The control unit and L after a failed load: GLOBAL's settings where it was good (R168, R171, R176). -/
theorem State.failLoad_control (y : State) :
    y.failLoad.control.part = .passOnly ∧ y.failLoad.control.mirror = 0 ∧ y.failLoad.control.pointer = 31
      ∧ y.failLoad.control.flags = y.control.flags ||| BitVec.twoPow 14 (flagBit .configFault)
      ∧ (∀ g, y.loader.staged.globals = some g → y.failLoad.control.enables = g.enables
        ∧ y.failLoad.control.mode = g.mode ∧ y.failLoad.control.noticeAddr = g.noticeAddr
        ∧ y.failLoad.control.noticeDatum = g.noticeDatum ∧ y.failLoad.port.limit = g.limit)
      ∧ (y.loader.staged.globals = none → y.failLoad.control.enables = y.control.enables
        ∧ y.failLoad.control.mode = y.control.mode ∧ y.failLoad.control.noticeAddr = y.control.noticeAddr
        ∧ y.failLoad.control.noticeDatum = y.control.noticeDatum ∧ y.failLoad.port.limit = 16) := by
  have raised := State.raise_flags .configFault y
  unfold State.failLoad State.dropStaged
  cases h : y.loader.staged.globals with
  | none => simp [h, raised, Config.loadingLimit]
  | some g => simp [h, raised, Control.takeGlobal]

/-- A load that fails from a machine with another loader, the staged GLOBAL kept: it ends PASS_ONLY (R39, R168, R171,
R176). -/
theorem State.loadFailed_withLoader {s : State} {L : Loader} (b : Bool) (xs : List SpiStep)
    (kept : L.staged.globals = s.loader.staged.globals) :
    s.loadFailed ((s.withLoader L b).failLoad.drive xs).offerChannel
      ∧ ((s.withLoader L b).failLoad.drive xs).offerChannel.loader.spi = L.spi.drive xs := by
  obtain ⟨active, cursor, states, frames⟩ := s.coverage.dropBanks_banks
  have latch := s.coverage.dropBanks_latch
  obtain ⟨part, mirror, pointer, flags, good, absent⟩ := (s.withLoader L b).failLoad_control
  have before : (s.withLoader L b).loader.staged.globals = s.loader.staged.globals := by
    rw [← kept]
    rfl
  rw [before] at good absent
  have raised : (s.withLoader L b).control.flags ||| BitVec.twoPow 14 (flagBit .configFault)
      = s.control.flags ||| BitVec.twoPow 14 (flagBit .configFault) := by
    cases b
    · rfl
    · rw [State.withLoader, State.raiseIf_true, State.raise_flags, BitVec.or_assoc, BitVec.or_self]
  rw [raised] at flags
  have settings : (s.withLoader L b).control.enables = s.control.enables
      ∧ (s.withLoader L b).control.mode = s.control.mode
      ∧ (s.withLoader L b).control.noticeAddr = s.control.noticeAddr
      ∧ (s.withLoader L b).control.noticeDatum = s.control.noticeDatum := by simp [State.withLoader]
  obtain ⟨enables, mode, noticeAddr, noticeDatum⟩ := settings
  rw [enables, mode, noticeAddr, noticeDatum] at absent
  generalize hx : (s.withLoader L b).failLoad.drive xs = x
  have control : x.control = (s.withLoader L b).failLoad.control := by rw [← hx]; rfl
  have port : x.port = (s.withLoader L b).failLoad.port := by rw [← hx]; rfl
  rw [← control] at part mirror pointer flags good absent
  rw [← port] at good absent
  have loader : x.loader = ⟨.idle, none, Staged.empty, L.spi.drive xs⟩ := by rw [← hx]; rfl
  have coverage : x.coverage = { s.coverage.dropBanks with range := none, geometry := vecOf fun _ => none } := by
    rw [← hx, ← Coverage.endLoad_none]
    rfl
  have offered := State.offerChannel_control x
  have limit := (State.samePort_offerChannel x).2.2.2.1
  have kept : x.windows = noWindows ∧ x.curves = s.curves ∧ x.timeout = s.timeout ∧ x.mem = s.mem ∧ x.bus = s.bus
      ∧ x.towers = s.towers ∧ x.link = s.link ∧ x.engine = s.engine ∧ x.loop = s.loop := by
    rw [← hx]
    exact ⟨rfl, rfl, rfl, rfl, rfl, rfl, rfl, rfl, rfl⟩
  obtain ⟨windows, curves, timeout, mem, bus, towers, link, engine, loop⟩ := kept
  refine ⟨⟨by simp [loader], by simp [loader], by simp [part], ?_, by simp [windows, noWindows], by simp [coverage],
    fun u => ?_, by simp [coverage, active], by simp [coverage, cursor], fun bk => ?_, fun bk u => ?_, fun f hf => ?_,
    by simp [mirror], ?_, fun g hg => ?_, fun hn => ?_, by simp [curves], by simp [timeout], fun a => by simp [mem],
    by simp [bus], ⟨by simp [towers], by simp [link]⟩, by simp [engine], by simp [loop]⟩, by simp [loader]⟩
  · rw [State.raised, offered.2.1, flags]
  · simp only [State.offerChannel_keeps, coverage]
    exact vecOf_get _ u
  · simp only [State.offerChannel_keeps, coverage]
    exact states bk
  · simp only [State.offerChannel_keeps, coverage]
    exact frames bk u
  · simp only [State.offerChannel_keeps, coverage, latch, hf]
    rfl
  · rw [State.offerChannel_pointer mirror, pointer]
  · simpa [limit] using good g hg
  · simpa [limit] using absent hn

/-! ### The header -/

/-- The loader once the header is good: it stands at GLOBAL, with the pointers (R169). -/
def Loader.atGlobal (L : Loader) (h : Header) : Loader := { L with state := .reading 0, header := some h }

theorem State.headerEvent_good {s : State} {image : List Byte} {h : Header} (state : s.loader.state = .readingHeader)
    (good : readHeader image = some h) :
    s.headerEvent image = (s.withLoader (s.loader.atGlobal h) false).readOn (headerSteps image) := by
  rw [State.headerEvent, if_pos state, State.judgeHeader, good]
  rfl

theorem State.headerEvent_bad {s : State} {image : List Byte} (state : s.loader.state = .readingHeader)
    (bad : readHeader image = none) :
    s.headerEvent image = (s.withLoader s.loader false).failLoad.drive (spiClose 2) := by
  rw [State.headerEvent, if_pos state, State.judgeHeader, bad, headerSteps, bad]
  rfl

/-- Settles O56: the header by its signature and count; then words and bytes of the configuration memory. -/
theorem headerIsJudged : Obligations.HeaderIsJudged := by
  refine ⟨fun s image state => ⟨fun signature low high => ?_, fun bad => ?_⟩, fun image a => rfl,
    fun image a => ⟨fun b hb => ?_, fun hn => ?_⟩⟩
  · generalize hh : (⟨(imageWord image 1).toNat,
      (List.range (imageWord image 1).toNat).map (fun i => imageWord image (i + 2))⟩ : Header) = h
    have good : readHeader image = some h := hh ▸ readHeader_good signature low high
    have count : h.count = (imageWord image 1).toNat := by rw [← hh]
    have length : h.pointers.length = h.count := by rw [← hh]; simp
    have pointers : ∀ i, i < h.count → h.pointers.getD i 0 = imageWord image (i + 2) := by
      rw [← hh]
      intro i hi
      simp only [List.getD_eq_getElem?_getD, List.getElem?_map, List.getElem?_range hi, Option.map_some, Option.getD_some]
    have steps : headerSteps image = spiClose (h.count + 2) := by rw [headerSteps, good]
    have event := State.headerEvent_good state good
    rw [steps, State.withLoader_readOn] at event
    have run : exec (.headerRead image) s = .next (State.settle s (s.headerEvent image)) := rfl
    rw [event, State.settle_withLoader] at run
    have first : h.pointer 0 = (imageWord image 2).toNat := by rw [Header.pointer, pointers 0 (by omega)]
    obtain ⟨⟨memory, bus, setup, towers, coverage, engine, loop, settings⟩, loader, -, events, -⟩ :=
      s.withLoader_offered
        ((s.loader.atGlobal h).driven (spiClose (h.count + 2) ++ (s.loader.atGlobal h).openSteps)) false
    have opens : (s.loader.atGlobal h).openSteps = if h.pointer 0 = 0 then [] else spiOpen (h.pointer 0) := rfl
    refine ⟨_, h, run, by rw [loader]; rfl, count, length, pointers, fun some => ?_, fun none => ?_, memory, bus, setup,
      towers, coverage, engine, loop, settings, events rfl⟩
    · have pointed : h.pointer 0 ≠ 0 := by
        rw [first]
        exact fun e => some (BitVec.eq_of_toNat_eq e)
      rw [loader, Loader.driven, opens, if_neg pointed, SpiPort.drive_open, ← first]
      exact ⟨rfl, rfl⟩
    · have unpointed : h.pointer 0 = 0 := by rw [first, none]; rfl
      rw [loader, Loader.driven, opens, if_pos unpointed, List.append_nil]
      rfl
  · have run : exec (.headerRead image) s = .next (State.settle s (s.headerEvent image)) := rfl
    rw [State.headerEvent_bad state (readHeader_bad bad), State.settle_of_towers (by rfl)] at run
    obtain ⟨failed, spi⟩ := State.loadFailed_withLoader (s := s) (L := s.loader) false (spiClose 2) rfl
    exact ⟨_, run, failed, spi.trans rfl⟩
  · simp [imageByte, hb]
  · rw [imageByte, List.getD_eq_getElem?_getD, hn]
    rfl

end Sys2Proof.Machine
end

section
/-! PROOFS. A section is judged: GLOBAL, WINDOWS, CURVES, a TOWER, PRELOAD, and the end of a load that ends RUNNING. -/

namespace Sys2Proof.Machine

/-! ### The port of the configuration memory over a section -/

theorem SpiPort.drive_csN (p : SpiPort) (xs : List SpiStep) : (p.drive xs).csN = (xs.foldl SpiPort.apply p).csN := rfl

theorem Header.pointer_eq_zero (h : Header) (n : Nat) : h.pointer n = 0 ↔ h.pointers.getD n 0 = 0 :=
  ⟨fun e => BitVec.eq_of_toNat_eq e, fun e => congrArg BitVec.toNat e⟩

/-- CFG_CS_N after the end of a section's read, if it was read (R169). -/
theorem sectionSteps_csN (p : SpiPort) (h : Header) (image : List Byte) (n : Nat) :
    ((sectionSteps h image n).foldl SpiPort.apply p).csN = (p.csN || decide (h.pointers.getD n 0 ≠ 0)) := by
  unfold sectionSteps
  by_cases z : h.pointers.getD n 0 = 0
  · rw [if_pos ((h.pointer_eq_zero n).2 z), z]
    simp
  · rw [if_neg fun e => z ((h.pointer_eq_zero n).1 e)]
    rw [decide_eq_true z, Bool.or_true]
    rfl

theorem spiOpen_csN (p : SpiPort) (a : Nat) : ((spiOpen a).foldl SpiPort.apply p).csN = false := rfl

/-- CFG_CS_N after a section, when the loader stands at another: low where that one is read (R169). -/
theorem sectionRead_csN {L : Loader} {h : Header} {m : Fin 16} (p : SpiPort) (image : List Byte) (n : Nat)
    (state : L.state = .reading m) (header : L.header = some h) :
    (p.drive (sectionSteps h image n ++ L.openSteps)).csN
      = (decide (h.pointers.getD m.val 0 = 0) && (p.csN || decide (h.pointers.getD n 0 ≠ 0))) := by
  have opens : L.openSteps = if h.pointer m.val = 0 then [] else spiOpen (h.pointer m.val) := by
    rw [Loader.openSteps, state, header]
  rw [SpiPort.drive_csN, List.foldl_append, opens]
  by_cases z : h.pointers.getD m.val 0 = 0
  · rw [if_pos ((h.pointer_eq_zero m.val).2 z), decide_eq_true z, Bool.true_and]
    exact sectionSteps_csN p h image n
  · rw [if_neg fun e => z ((h.pointer_eq_zero m.val).1 e), spiOpen_csN, decide_eq_false z, Bool.false_and]

/-- CFG_CS_N after a section, when the loader stands at none (R169). -/
theorem sectionEnd_csN {L : Loader} {h : Header} (p : SpiPort) (image : List Byte) (n : Nat)
    (state : ∀ m, L.state ≠ .reading m) :
    (p.drive (sectionSteps h image n ++ L.openSteps)).csN = (p.csN || decide (h.pointers.getD n 0 ≠ 0)) := by
  have opens : L.openSteps = [] := by
    unfold Loader.openSteps
    split
    · next m _ hm _ => exact absurd hm (state m)
    · rfl
  rw [opens, List.append_nil, SpiPort.drive_csN, sectionSteps_csN]

theorem readSection_present {h : Header} {image : List Byte} {n : Nat} (j : readSection h image n ≠ .absent) :
    h.pointers.getD n 0 ≠ 0 := by
  intro z
  apply j
  unfold readSection Header.pointer
  rw [z]
  rfl

/-! ### A judged section in the machine -/

/-- The loader stands at a section of a header. -/
def State.standsAt (s : State) (n : Fin 16) (h : Header) : Prop := s.loader.state = .reading n ∧ s.loader.header = some h

theorem State.judgeSection_at {s : State} {n : Fin 16} {h : Header} (at_ : s.standsAt n h) (image : List Byte) :
    s.judgeSection image = (s.judgeKind n (readSection h image n.val)).readOn (sectionSteps h image n.val) := by
  obtain ⟨state, header⟩ := at_
  rw [State.judgeSection, state, header]

/-- The load goes on after a section: the loader has changed, CONFIG_FAULT has been raised or not, and nothing else
(R169, R171). -/
theorem State.exec_goesOn {s : State} {n : Fin 16} {h : Header} {image : List Byte} {L : Loader} {b : Bool}
    (at_ : s.standsAt n h) (judged : s.judgeKind n (readSection h image n.val) = s.withLoader L b) :
    ∃ t, exec (.sectionRead image) s = .next t
      ∧ t.loader = L.driven (sectionSteps h image n.val ++ L.openSteps) ∧ s.loaderAlone t
      ∧ t.control.capture = s.control.capture ∧ (b = false → s.sameEvents t) ∧ (b = true → s.raised .configFault t) := by
  have event : s.judgeSection image = s.withLoader (L.driven (sectionSteps h image n.val ++ L.openSteps)) b := by
    rw [State.judgeSection_at at_, judged, State.withLoader_readOn]
  have run : exec (.sectionRead image) s = .next (State.settle s (s.judgeSection image)) := rfl
  rw [event, State.settle_withLoader] at run
  obtain ⟨alone, loader, capture, quiet, fault⟩ :=
    s.withLoader_offered (L.driven (sectionSteps h image n.val ++ L.openSteps)) b
  exact ⟨_, run, loader, alone, capture, quiet, fault⟩

/-- The load fails at a section (R171). -/
theorem State.exec_fails {s : State} {n : Fin 16} {h : Header} {image : List Byte} {L : Loader} {b : Bool}
    (at_ : s.standsAt n h) (judged : s.judgeKind n (readSection h image n.val) = (s.withLoader L b).failLoad)
    (globals : L.staged.globals = s.loader.staged.globals) (spi : L.spi = s.loader.spi) :
    ∃ t, exec (.sectionRead image) s = .next t ∧ s.loadFailed t
      ∧ t.loader.spi.csN = (s.loader.spi.csN || decide (h.pointers.getD n.val 0 ≠ 0)) := by
  have event : s.judgeSection image = (s.withLoader L b).failLoad.drive (sectionSteps h image n.val) := by
    rw [State.judgeSection_at at_, judged, State.readOn, fail_loader, Loader.openSteps, List.append_nil]
  have run : exec (.sectionRead image) s = .next (State.settle s (s.judgeSection image)) := rfl
  obtain ⟨failed, driven⟩ := State.loadFailed_withLoader (s := s) (L := L) b (sectionSteps h image n.val) globals
  rw [event, State.settle_of_towers (by simp [State.drive, State.withLoader])] at run
  refine ⟨_, run, failed, ?_⟩
  rw [driven, spi, SpiPort.drive_csN, sectionSteps_csN]

/-! ### What each section's judgement leaves -/

/-- The loader with something staged, standing at a section. -/
def Loader.staging (L : Loader) (x : Staged) (y : LoaderState) : Loader := { L with staged := x, state := y }

theorem State.judgeGlobal_good {s : State} {ws : List Half} {g : GlobalCfg} (h : globalOf ws = some g) :
    s.judgeGlobal (.good ws)
      = s.withLoader (s.loader.staging { s.loader.staged with globals := some g } (.reading 1)) false := by
  rw [State.judgeGlobal]
  dsimp only
  rw [h]
  rfl

theorem State.judgeGlobal_fails {s : State} {j : Judged} (h : ∀ ws, j = .good ws → globalOf ws = none) :
    s.judgeGlobal j = (s.withLoader s.loader false).failLoad := by
  cases j with
  | good ws =>
    rw [State.judgeGlobal, h ws rfl]
    rfl
  | bad => rfl
  | absent => rfl

theorem windowBase_isSome (k : WindowKind) (tab : WindowTable) :
    (windowBase k tab).isSome = true ↔ ∃ w, some w ∈ tab ∧ w.kind = k := by
  induction tab with
  | nil => simp [windowBase]
  | cons e tab ih =>
    cases e with
    | none => simpa [windowBase] using ih
    | some v =>
      by_cases hv : v.kind = k
      · simp only [windowBase, if_pos hv, Option.isSome_some, true_iff]
        exact ⟨v, List.mem_cons_self, hv⟩
      · simp only [windowBase, if_neg hv, ih, List.mem_cons, Option.some.injEq]
        exact ⟨fun ⟨w, m, e⟩ => ⟨w, Or.inr m, e⟩, fun ⟨w, m, e⟩ => ⟨w, m.resolve_left fun q => hv (q ▸ e), e⟩⟩

theorem State.judgeWindows_good {s : State} {ws : List Half} (h : ∃ w, some w ∈ (windowsOf ws).1 ∧ w.kind = .control) :
    s.judgeWindows (.good ws)
      = s.withLoader (s.loader.staging { s.loader.staged with windows := (windowsOf ws).1 } (.reading 2))
        (windowsOf ws).2 := by
  rw [State.judgeWindows]
  dsimp only
  rw [if_pos ((windowBase_isSome _ _).2 h)]
  rfl

theorem State.judgeWindows_none {s : State} {ws : List Half} (h : ∀ w, some w ∈ (windowsOf ws).1 → w.kind ≠ .control) :
    s.judgeWindows (.good ws)
      = (s.withLoader (s.loader.staging { s.loader.staged with windows := (windowsOf ws).1 } s.loader.state)
        (windowsOf ws).2).failLoad := by
  rw [State.judgeWindows]
  dsimp only
  rw [if_neg fun y => let ⟨w, m, e⟩ := (windowBase_isSome _ _).1 y; h w m e]
  rfl

/-- A section that leaves the staged configuration as it stood. -/
theorem State.judgeCurves_eq (s : State) (j : Judged) : s.judgeCurves j = (match j with
    | .good ws => s.withLoader (s.loader.staging { s.loader.staged with curves := (curvesOf ws).1 } (.reading 3))
        (curvesOf ws).2
    | .bad => s.withLoader (s.loader.staging s.loader.staged (.reading 3)) true
    | .absent => s.withLoader (s.loader.staging s.loader.staged (.reading 3)) false) := by
  cases j <;> rfl

theorem State.judgeTower_good {s : State} {u : Tower} {n : Fin 16} {ws : List Half} {c : TowerCfg}
    (h : towerOf s.loader.staged.holds ws = some c) : s.judgeTower u n (.good ws)
      = s.withLoader (s.loader.staging
          { s.loader.staged with towers := s.loader.staged.towers.set u (some c) } (.reading n)) false := by
  unfold State.judgeTower
  simp only [h]
  rfl

theorem State.judgeTower_bad {s : State} {u : Tower} {n : Fin 16} {j : Judged}
    (h : j = .bad ∨ ∃ ws, j = .good ws ∧ towerOf s.loader.staged.holds ws = none) : s.judgeTower u n j
      = s.withLoader (s.loader.staging s.loader.staged (.reading n)) true := by
  rcases h with rfl | ⟨ws, rfl, h⟩
  · show (s.raise .configFault).setLoader (.reading n) = _
    rfl
  · unfold State.judgeTower
    simp only [h]
    rfl

theorem State.judgeTower_absent (s : State) (u : Tower) (n : Fin 16) : s.judgeTower u n .absent
    = s.withLoader (s.loader.staging s.loader.staged (.reading n)) false := by
  show s.setLoader (.reading n) = _
  rfl

theorem State.judgePreload_pairs {s : State} {ws : List Half} (h : preloadOf ws ≠ []) :
    s.judgePreload (.good ws)
      = s.withLoader (s.loader.staging { s.loader.staged with preload := preloadOf ws } (.preloading 0)) false := by
  rw [State.judgePreload]
  dsimp only
  rw [if_neg h]
  rfl

/-- A PRELOAD without pairs, bad or absent ends the load (R175). -/
theorem State.judgePreload_ends {s : State} {j : Judged} {g : GlobalCfg} (globals : s.loader.staged.globals = some g)
    (h : ∀ ws, j = .good ws → preloadOf ws = []) :
    s.judgePreload j = (s.withLoader s.loader (decide (j = .bad))).runLoad g := by
  cases j with
  | good ws =>
    rw [State.judgePreload, if_pos (h ws rfl), State.endLoad, globals]
    rfl
  | bad =>
    have staged : (s.raise .configFault).loader.staged.globals = some g := globals
    show (s.raise .configFault).endLoad = _
    rw [State.endLoad, staged]
    rfl
  | absent =>
    show s.endLoad = _
    rw [State.endLoad, globals]
    rfl

theorem State.judgeKind_tower (s : State) (u : Tower) (j : Judged) :
    s.judgeKind (Fin.ofNat 16 (3 + u.val)) j = s.judgeTower u (Fin.ofNat 16 (4 + u.val)) j := by
  have number : (Fin.ofNat 16 (3 + u.val)).val = 3 + u.val := Nat.mod_eq_of_lt (by omega)
  have next : Fin.ofNat 16 (3 + u.val) + 1 = Fin.ofNat 16 (4 + u.val) := by
    revert u
    decide
  have isTower : frameTower ((Fin.ofNat 16 (3 + u.val)).val - 3) = some u := by
    rw [number, frameTower, dif_pos (by omega)]
    exact congrArg some (Fin.ext (by simp))
  have above : ∀ m : Fin 16, m.val < 3 → Fin.ofNat 16 (3 + u.val) ≠ m := fun m hm e => by
    rw [← e, number] at hm
    omega
  rw [State.judgeKind, if_neg (above 0 (by decide)), if_neg (above 1 (by decide)), if_neg (above 2 (by decide)), isTower,
    next]

end Sys2Proof.Machine
end

section
/-! PROOFS. The end of a load that ends RUNNING, and every section at the place of the loader. -/

namespace Sys2Proof.Machine

/-! ### The banks at the end of a load -/

/-- Geometry records installed one after another: frames become UNFIT where a record has changed (R36, R39). -/
theorem Coverage.installs (g : Tower → Option Geometry) (ts : List Tower) (hn : ts.Nodup) (c : Coverage) :
    c.madeUnfit (ts.foldl (fun c t => c.setGeometry t (g t)) c) (fun _ u => u ∈ ts ∧ c.geometry[u] ≠ g u)
      ∧ ∀ u : Tower, (ts.foldl (fun c t => c.setGeometry t (g t)) c).geometry[u]
        = if u ∈ ts then g u else c.geometry[u] := by
  induction ts generalizing c with
  | nil => exact ⟨Coverage.madeUnfit_refl c fun _ _ h => absurd h.1 List.not_mem_nil, fun u => by simp⟩
  | cons t ts ih =>
    obtain ⟨fresh, hn⟩ := List.nodup_cons.1 hn
    obtain ⟨first, geometry⟩ := Coverage.setGeometry_madeUnfit t (g t) c
    obtain ⟨rest, records⟩ := ih hn (c.setGeometry t (g t))
    have get (u : Tower) : (c.setGeometry t (g t)).geometry[u] = if u = t then g t else c.geometry[u] := by
      rw [geometry]
      by_cases e : u = t
      · subst e
        simp
      · rw [if_neg e]
        exact Vector.getElem_set_ne _ _ fun q => e (Fin.ext q.symm)
    refine ⟨Coverage.madeUnfit_congr (Coverage.madeUnfit_trans first rest) fun _ u => ?_, fun u => ?_⟩
    · rw [get]
      by_cases e : u = t
      · subst e
        simp [fresh]
      · simp [e]
    · rw [List.foldl_cons, records, get]
      by_cases e : u = t
      · subst e
        simp [fresh]
      · simp [e]

/-- The coverage unit at the end of a load (R39). -/
theorem Coverage.endLoad_loadEnded (c : Coverage) (r : Option CoverRange) (g : Tower → Option Geometry) :
    c.loadEnded (c.endLoad r g) r g := by
  by_cases same : r.isSome = true ∧ c.range = r
  · have installed : c.endLoad r g = allTowers.foldl (fun c t => c.setGeometry t (g t)) c := if_pos same
    obtain ⟨unfit, records⟩ := Coverage.installs g allTowers (List.nodup_finRange 12) c
    have all : ∀ u : Tower, u ∈ allTowers := List.mem_finRange
    obtain ⟨frames, -, latch, states, active, range, -⟩ := unfit
    rw [installed]
    refine ⟨fun u => (records u).trans (if_pos (all u)), range.trans same.2, fun x _ _ =>
      ⟨active, states, fun bk u => ?_, fun f hf => ?_⟩, fun h => ?_⟩
    · by_cases e : c.geometry[u] = g u
      · rw [(frames bk u).2 fun h => h.2 e, if_pos e]
      · rw [(frames bk u).1 ⟨all u, e⟩, if_neg e]
    · obtain ⟨hit, missed⟩ := latch f hf
      by_cases e : c.geometry[f.tower] = g f.tower
      · rw [missed fun h => h.2 e, decide_eq_false (Classical.not_not.2 e), Bool.or_false]
      · rw [hit ⟨all _, e⟩, decide_eq_true e, Bool.or_true]
    · rcases h with h | h
      · rw [← same.2, h] at same
        exact absurd same.1 (by decide)
      · exact absurd same.2 h
  · have dropped : c.endLoad r g = { c.dropBanks with range := r, geometry := vecOf g } := if_neg same
    obtain ⟨active, cursor, states, frames⟩ := c.dropBanks_banks
    rw [dropped]
    refine ⟨fun u => vecOf_get g u, rfl, fun x hx hr => absurd ⟨by rw [hr]; rfl, hx.trans hr.symm⟩ same, fun _ =>
      ⟨active, cursor, states, frames, fun f hf => ?_⟩⟩
    exact (c.dropBanks_latch).trans (by rw [hf]; rfl)

/-! ### The mirror set of a full part -/

/-- A full mirror set stays full under the report of a word the part owns (R160, R168). -/
theorem Control.report_full {c : Control} {w : CtlWord} (full : c.mirror = ownedWords) (owned : ownedWord w = true) :
    (c.report w).mirror = ownedWords := by
  have bit : ∀ w : CtlWord, ownedWord w = true → ownedWords.getLsbD w.val = true := by decide
  refine BitVec.eq_of_getLsbD_eq fun i hi => ?_
  have := c.report_mirror w ⟨i, hi⟩
  rw [this, full]
  by_cases e : (⟨i, hi⟩ : CtlWord) = w
  · rw [← e] at owned
    have := bit _ owned
    simp_all
  · simp [e]

theorem ownedWord_tower (u : Tower) : ownedWord (wordTower u) = true := by
  revert u
  decide

theorem Control.towerChanged_full {c : Control} (full : c.mirror = ownedWords) (u : Tower) (old new : TowerState) :
    (c.towerChanged u old new).mirror = ownedWords := by
  unfold Control.towerChanged
  (repeat' split)
  · exact full
  · exact Control.report_full full (ownedWord_tower u)
  · exact Control.report_full (Control.report_full full (ownedWord_tower u)) rfl

theorem State.settle_full {s0 s : State} (full : s.control.mirror = ownedWords) :
    (State.settle s0 s).control.mirror = ownedWords := by
  have put : ∀ (u : Tower) (tw : TowerState) (l : List Byte),
      ((s.putTower u tw).transmit u l).control.mirror = ownedWords := fun u tw l =>
    Control.towerChanged_full full u _ tw
  have serve : ∀ u, (s.serve u).control.mirror = ownedWords := fun u => by
    unfold State.serve
    dsimp only
    (repeat' split)
    · exact put _ _ _
    · exact put _ _ _
    · exact full
    · exact put _ _ _
  have search : s.search.control.mirror = ownedWords := by
    unfold State.search
    split
    · exact full
    · exact serve _
  rw [State.settle, (State.offerChannel_control _).2.2.2.2.2.2.2.2.2.1, State.searchIfChanged]
  split
  · exact search
  · exact full

theorem ownedWords_bit (v : CtlWord) : ownedWords.getLsbD v.val = decide (v.val < 15 ∨ 16 ≤ v.val ∧ v.val < 28) := by
  revert v
  decide

/-! ### The end of a load that ends RUNNING -/

/-- The machine after a load that ends RUNNING with a GLOBAL section (R176), before what every event ends with. -/
def State.running (y : State) (g : GlobalCfg) (spi : SpiPort) : State :=
  { y.runLoad g with loader := ⟨.idle, none, Staged.empty, spi⟩ }

theorem State.runLoad_running (y : State) (g : GlobalCfg) : y.runLoad g = y.running g y.loader.spi := rfl

theorem State.runLoad_readOn (y : State) (g : GlobalCfg) (xs : List SpiStep) :
    (y.runLoad g).readOn xs = y.running g (y.loader.spi.drive (xs ++ [])) := rfl

theorem State.running_towers (y : State) (g : GlobalCfg) (spi : SpiPort) (u : Tower) :
    (y.running g spi).towers[u] = (y.towers[u]).install y.loader.staged.towers[u] := run_towers y g u

theorem nextMirror_owned : nextMirror ownedWords 31 = some 0 := by decide

/-- The blocks after a load that has ended RUNNING (R39, R168, R176). -/
structure State.EndsRunning (y t : State) (g : GlobalCfg) (spi : SpiPort) : Prop where
  loader : t.loader = ⟨.idle, none, Staged.empty, spi⟩
  control : t.control.part = .running ∧ t.control.flags = y.control.flags ∧ t.control.enables = g.enables
    ∧ t.control.mode = g.mode ∧ t.control.noticeAddr = g.noticeAddr ∧ t.control.noticeDatum = g.noticeDatum
  taken : t.windows = y.loader.staged.windows ∧ t.curves = y.loader.staged.curves ∧ t.timeout = g.timeout
    ∧ t.port.limit = g.limit ∧ t.port.holder = y.port.holder
  engine : t.engine = { y.engine with table := some ⟨g.tableBase, g.tableLength⟩ }
  coverage : y.coverage.loadEnded t.coverage (rangeOf y.loader.staged.windows)
    (fun u => (y.loader.staged.towers[u]).map TowerCfg.geometry)
  mirror : ∀ v : CtlWord, t.control.mirror.getLsbD v.val = decide (v.val < 15 ∨ 16 ≤ v.val ∧ v.val < 28)
  pointer : t.control.pointer = 31 ∨ t.control.pointer = 0 ∧ t.control.channel = some (.mirror 0)
  towers : ∀ u : Tower, ((y.towers[u]).install y.loader.staged.towers[u]).sameUnder t.towers[u]
  pending : ∀ (u : Tower) (c : TowerCfg), y.loader.staged.towers[u] = some c →
    t.towers[u].haltPending = true ∨ t.towers[u].queryPending = true
  busy : y.link.tx ≠ .idle → t.link = y.link
    ∧ ∀ u : Tower, t.towers[u] = (y.towers[u]).install y.loader.staged.towers[u]
  kept : t.mem = y.mem ∧ t.bus = y.bus ∧ t.loop = y.loop ∧ t.levels = y.levels ∧ t.lastResponse = y.lastResponse
    ∧ t.pending = y.pending

theorem State.settle_pointer (s0 : State) {s : State} (loader : s.loader.state = .idle)
    (mirror : s.control.mirror = ownedWords) (pointer : s.control.pointer = 31) :
    (State.settle s0 s).control.pointer = 31
      ∨ (State.settle s0 s).control.pointer = 0 ∧ (State.settle s0 s).control.channel = some (.mirror 0) := by
  have full : (State.searchIfChanged s0 s).control.mirror = ownedWords := by
    rw [← (State.offerChannel_control _).2.2.2.2.2.2.2.2.2.1]
    exact State.settle_full mirror
  have last : (State.searchIfChanged s0 s).control.pointer = 31 := by rw [← pointer]; simp
  have none : (State.searchIfChanged s0 s).nextPreload = none := by
    rw [State.nextPreload, (State.searchIfChanged_keeps s0 s).2.2.2.2.2.2.2.2.2.2.2.2, loader]
  rw [State.settle]
  generalize State.searchIfChanged s0 s = x at full last none
  unfold State.offerChannel
  rw [none]
  split
  · exact Or.inl last
  dsimp only
  split
  · exact Or.inl last
  · rw [State.offerMirror, full, last, nextMirror_owned]
    cases windowBase .control x.windows with
    | none => exact Or.inl last
    | some b => exact Or.inr ⟨rfl, rfl⟩

theorem State.settle_running (s0 y : State) (g : GlobalCfg) (spi : SpiPort) :
    y.EndsRunning (State.settle s0 (y.running g spi)) g spi := by
  have towers := y.running_towers g spi
  have mirror : (y.running g spi).control.mirror = ownedWords := rfl
  refine
    { loader := by rw [(State.settle_keeps _ _).2.2.2.2.2.2.2.2.2.2.2]; rfl
      control := ?_, taken := ?_, engine := ?_, coverage := ?_, mirror := fun v => ?_, pointer := ?_
      towers := fun u => ?_, pending := fun u c hc => ?_, busy := fun tx => ⟨?_, fun u => ?_⟩, kept := ?_ }
  · simp [State.running, State.runLoad, State.dropStaged, Control.takeGlobal]
  · obtain ⟨holder, -, -, limit, -⟩ := State.samePort_settle s0 (y.running g spi)
    exact ⟨by rw [(State.settle_keeps _ _).2.2.2.2.1]; rfl, by rw [(State.settle_keeps _ _).2.2.2.2.2.2.1]; rfl,
      by rw [(State.settle_keeps _ _).2.2.2.2.2.2.2.1]; rfl, limit, holder⟩
  · rw [(State.settle_keeps _ _).2.2.2.2.2.2.2.2.2.1]
    rfl
  · rw [(State.settle_keeps _ _).2.2.2.2.2.1]
    exact Coverage.endLoad_loadEnded y.coverage _ _
  · rw [State.settle_full mirror, ownedWords_bit]
  · exact State.settle_pointer s0 rfl mirror rfl
  · rw [← towers]
    exact State.settle_tower s0 _ u
  · have installed : (y.running g spi).towers[u].haltPending = true ∧ (y.running g spi).towers[u].queryPending = true := by
      rw [towers, hc]
      exact ⟨rfl, rfl⟩
    rcases State.settle_served s0 (y.running g spi) with same | ⟨v, tv, served, others⟩
    · rw [same]
      exact Or.inl installed.1
    · rw [others u]
      split
      · next e =>
        subst e
        rcases served with h | h | ⟨sl, -, h⟩
        · rw [h]; exact Or.inr installed.2
        · rw [h]; exact Or.inl installed.1
        · rw [h]; exact Or.inl installed.1
      · exact Or.inl installed.1
  · rw [State.settle_of_tx (s := y.running g spi) tx, (State.offerChannel_keeps _).2.2.2.2.2.2.2.2.2.1]
    rfl
  · rw [State.settle_towers_of_tx (s := y.running g spi) tx, towers]
  · exact ⟨by rw [(State.settle_keeps _ _).2.1]; rfl, by rw [(State.settle_keeps _ _).2.2.2.1]; rfl,
      by rw [(State.settle_keeps _ _).2.2.2.2.2.2.2.2.2.2.1]; rfl,
      by rw [(State.settle_keeps _ _).2.2.2.2.2.2.2.2.1]; rfl, by rw [(State.settle_keeps _ _).2.2.1]; rfl,
      by rw [(State.settle_keeps _ _).1]; rfl⟩

end Sys2Proof.Machine
end

section
/-! PROOFS. SECTION_READ at each place of the loader. -/

namespace Sys2Proof.Machine

theorem judged_present {h : Header} {image : List Byte} {n : Nat} {ws : List Half}
    (j : readSection h image n = .good ws) : decide (h.pointers.getD n 0 ≠ 0) = true :=
  decide_eq_true (readSection_present fun e => nomatch e.symm.trans j)

theorem judged_bad {h : Header} {image : List Byte} {n : Nat}
    (j : readSection h image n = .bad) : decide (h.pointers.getD n 0 ≠ 0) = true :=
  decide_eq_true (readSection_present fun e => nomatch e.symm.trans j)

theorem readSection_absent_iff {h : Header} {image : List Byte} {n : Nat} :
    readSection h image n = .absent ↔ h.pointers.getD n 0 = 0 := by
  refine ⟨fun j => Decidable.by_contra fun z => ?_, fun z => Decidable.by_contra fun j => readSection_present j z⟩
  unfold readSection at j
  dsimp only at j
  rw [if_neg fun e => z ((h.pointer_eq_zero n).1 e)] at j
  (repeat' split at j) <;> cases j

/-- GLOBAL (R171, R172). -/
theorem section_global (s : State) (image : List Byte) (h : Header) (at_ : s.standsAt 0 h) :
    (∀ ws g, readSection h image 0 = .good ws → globalOf ws = some g →
      ∃ t, exec (.sectionRead image) s = .next t
        ∧ t.loader = { s.loader with
            state := .reading 1
            staged := { s.loader.staged with globals := some g }
            spi := t.loader.spi }
        ∧ t.loader.spi.csN = decide (h.pointers.getD 1 0 = 0)
        ∧ s.loaderAlone t ∧ s.sameEvents t)
    ∧ ((∀ ws, readSection h image 0 = .good ws → globalOf ws = none) →
      ∃ t, exec (.sectionRead image) s = .next t ∧ s.loadFailed t
        ∧ t.loader.spi.csN = (s.loader.spi.csN || decide (h.pointers.getD 0 0 ≠ 0))) := by
  refine ⟨fun ws g read good => ?_, fun bad => ?_⟩
  · have judged : s.judgeKind 0 (readSection h image 0) = s.judgeGlobal (.good ws) := by rw [read]; rfl
    rw [State.judgeGlobal_good good] at judged
    obtain ⟨t, run, loader, alone, -, quiet, -⟩ := State.exec_goesOn at_ judged
    refine ⟨t, run, by rw [loader]; rfl, ?_, alone, quiet rfl⟩
    rw [loader, Loader.driven]
    refine (sectionRead_csN (L := s.loader.staging _ (.reading 1)) _ image 0 rfl at_.2).trans ?_
    rw [judged_present read, Bool.or_true, Bool.and_true]
    rfl
  · have judged : s.judgeKind 0 (readSection h image 0) = s.judgeGlobal (readSection h image 0) := rfl
    rw [State.judgeGlobal_fails bad] at judged
    exact State.exec_fails at_ judged rfl rfl

/-- WINDOWS (R3, R23, R171, R173). -/
theorem section_windows (s : State) (image : List Byte) (h : Header) (at_ : s.standsAt 1 h) :
    (∀ ws, readSection h image 1 = .good ws → (∃ w, some w ∈ (windowsOf ws).1 ∧ w.kind = .control) →
      ∃ t, exec (.sectionRead image) s = .next t
        ∧ t.loader = { s.loader with
            state := .reading 2
            staged := { s.loader.staged with windows := (windowsOf ws).1 }
            spi := t.loader.spi }
        ∧ t.loader.spi.csN = decide (h.pointers.getD 2 0 = 0)
        ∧ ((windowsOf ws).2 = true → s.raised .configFault t)
        ∧ ((windowsOf ws).2 = false → t.control.flags = s.control.flags)
        ∧ s.loaderAlone t ∧ t.control.capture = s.control.capture)
    ∧ ((∀ ws, readSection h image 1 = .good ws → ∀ w, some w ∈ (windowsOf ws).1 → w.kind ≠ .control) →
      ∃ t, exec (.sectionRead image) s = .next t ∧ s.loadFailed t
        ∧ t.loader.spi.csN = (s.loader.spi.csN || decide (h.pointers.getD 1 0 ≠ 0))) := by
  refine ⟨fun ws read good => ?_, fun bad => ?_⟩
  · have judged : s.judgeKind 1 (readSection h image 1) = s.judgeWindows (.good ws) := by rw [read]; rfl
    rw [State.judgeWindows_good good] at judged
    obtain ⟨t, run, loader, alone, capture, quiet, fault⟩ := State.exec_goesOn at_ judged
    refine ⟨t, run, by rw [loader]; rfl, ?_, fault, fun q => (quiet q).1, alone, capture⟩
    rw [loader, Loader.driven]
    refine (sectionRead_csN (L := s.loader.staging _ (.reading 2)) _ image 1 rfl at_.2).trans ?_
    rw [judged_present read, Bool.or_true, Bool.and_true]
    rfl
  · cases read : readSection h image 1 with
    | good ws =>
      have judged : s.judgeKind 1 (readSection h image 1) = s.judgeWindows (.good ws) := by rw [read]; rfl
      rw [State.judgeWindows_none (bad ws read)] at judged
      exact State.exec_fails at_ judged rfl rfl
    | bad =>
      have judged : s.judgeKind 1 (readSection h image 1) = (s.withLoader s.loader false).failLoad := by rw [read]; rfl
      exact State.exec_fails at_ judged rfl rfl
    | absent =>
      have judged : s.judgeKind 1 (readSection h image 1) = (s.withLoader s.loader false).failLoad := by rw [read]; rfl
      exact State.exec_fails at_ judged rfl rfl

/-- CURVES (R40, R173). -/
theorem section_curves (s : State) (image : List Byte) (h : Header) (at_ : s.standsAt 2 h) :
    ∃ t, exec (.sectionRead image) s = .next t
      ∧ (∀ ws, readSection h image 2 = .good ws →
          t.loader.staged = { s.loader.staged with curves := (curvesOf ws).1 }
            ∧ ((curvesOf ws).2 = true → s.raised .configFault t)
            ∧ ((curvesOf ws).2 = false → t.control.flags = s.control.flags))
      ∧ (readSection h image 2 = .bad → t.loader.staged = s.loader.staged ∧ s.raised .configFault t)
      ∧ (readSection h image 2 = .absent → t.loader.staged = s.loader.staged ∧ t.control.flags = s.control.flags)
      ∧ t.loader.state = .reading 3 ∧ t.loader.header = s.loader.header
      ∧ t.loader.spi.csN = (decide (h.pointers.getD 3 0 = 0)
          && (s.loader.spi.csN || decide (h.pointers.getD 2 0 ≠ 0)))
      ∧ s.loaderAlone t ∧ t.control.capture = s.control.capture := by
  have common : ∀ (x : Staged) (b : Bool), s.judgeCurves (readSection h image 2)
      = s.withLoader (s.loader.staging x (.reading 3)) b →
      ∃ t, exec (.sectionRead image) s = .next t ∧ t.loader.staged = x
        ∧ (b = true → s.raised .configFault t) ∧ (b = false → t.control.flags = s.control.flags)
        ∧ t.loader.state = .reading 3 ∧ t.loader.header = s.loader.header
        ∧ t.loader.spi.csN = (decide (h.pointers.getD 3 0 = 0)
          && (s.loader.spi.csN || decide (h.pointers.getD 2 0 ≠ 0)))
        ∧ s.loaderAlone t ∧ t.control.capture = s.control.capture := fun x b judged => by
    obtain ⟨t, run, loader, alone, capture, quiet, fault⟩ := State.exec_goesOn at_ judged
    refine ⟨t, run, by rw [loader]; rfl, fault, fun q => (quiet q).1, by rw [loader]; rfl, by rw [loader]; rfl, ?_, alone,
      capture⟩
    rw [loader, Loader.driven]
    exact sectionRead_csN (m := 3) _ image 2 rfl at_.2
  have judged := s.judgeCurves_eq (readSection h image 2)
  cases read : readSection h image 2 with
  | good ws =>
    rw [read] at judged
    obtain ⟨t, run, staged, fault, quiet, rest⟩ := common _ _ (by rw [read]; exact judged)
    refine ⟨t, run, fun ws' e => ?_, nofun, nofun, rest⟩
    cases e
    exact ⟨staged, fault, quiet⟩
  | bad =>
    rw [read] at judged
    obtain ⟨t, run, staged, fault, -, rest⟩ := common _ _ (by rw [read]; exact judged)
    exact ⟨t, run, nofun, fun _ => ⟨staged, fault rfl⟩, nofun, rest⟩
  | absent =>
    rw [read] at judged
    obtain ⟨t, run, staged, -, quiet, rest⟩ := common _ _ (by rw [read]; exact judged)
    exact ⟨t, run, nofun, nofun, fun _ => ⟨staged, quiet rfl⟩, rest⟩

/-- TOWER (R174). -/
theorem section_tower (s : State) (image : List Byte) (h : Header) (u : Tower)
    (at_ : s.standsAt (Fin.ofNat 16 (3 + u.val)) h) :
    (∀ ws c, readSection h image (3 + u.val) = .good ws → towerOf s.loader.staged.holds ws = some c →
      ∃ t, exec (.sectionRead image) s = .next t
        ∧ t.loader = { s.loader with
            state := .reading (Fin.ofNat 16 (4 + u.val))
            staged := { s.loader.staged with towers := s.loader.staged.towers.set u (some c) }
            spi := t.loader.spi }
        ∧ t.loader.spi.csN = decide (h.pointers.getD (4 + u.val) 0 = 0)
        ∧ s.loaderAlone t ∧ s.sameEvents t)
    ∧ (readSection h image (3 + u.val) = .bad
        ∨ (∃ ws, readSection h image (3 + u.val) = .good ws ∧ towerOf s.loader.staged.holds ws = none) →
      ∃ t, exec (.sectionRead image) s = .next t
        ∧ t.loader = { s.loader with state := .reading (Fin.ofNat 16 (4 + u.val)), spi := t.loader.spi }
        ∧ t.loader.spi.csN = decide (h.pointers.getD (4 + u.val) 0 = 0) ∧ s.raised .configFault t
        ∧ s.loaderAlone t)
    ∧ (readSection h image (3 + u.val) = .absent →
      ∃ t, exec (.sectionRead image) s = .next t
        ∧ t.loader = { s.loader with state := .reading (Fin.ofNat 16 (4 + u.val)), spi := t.loader.spi }
        ∧ t.loader.spi.csN = (decide (h.pointers.getD (4 + u.val) 0 = 0) && s.loader.spi.csN) ∧ s.sameEvents t
        ∧ s.loaderAlone t) := by
  have number : (Fin.ofNat 16 (3 + u.val)).val = 3 + u.val := Nat.mod_eq_of_lt (by omega)
  have next : (Fin.ofNat 16 (4 + u.val)).val = 4 + u.val := Nat.mod_eq_of_lt (by omega)
  have common : ∀ (x : Staged) (b : Bool),
      s.judgeTower u (Fin.ofNat 16 (4 + u.val)) (readSection h image (3 + u.val))
        = s.withLoader (s.loader.staging x (.reading (Fin.ofNat 16 (4 + u.val)))) b →
      ∃ t, exec (.sectionRead image) s = .next t
        ∧ t.loader = { s.loader with state := .reading (Fin.ofNat 16 (4 + u.val)), staged := x, spi := t.loader.spi }
        ∧ t.loader.spi.csN = (decide (h.pointers.getD (4 + u.val) 0 = 0)
          && (s.loader.spi.csN || decide (h.pointers.getD (3 + u.val) 0 ≠ 0)))
        ∧ (b = false → s.sameEvents t) ∧ (b = true → s.raised .configFault t) ∧ s.loaderAlone t := fun x b judged => by
    rw [← State.judgeKind_tower, ← congrArg (readSection h image) number] at judged
    obtain ⟨t, run, loader, alone, -, quiet, fault⟩ := State.exec_goesOn at_ judged
    refine ⟨t, run, by rw [loader]; rfl, ?_, quiet, fault, alone⟩
    have read := sectionRead_csN (L := s.loader.staging x (.reading (Fin.ofNat 16 (4 + u.val)))) s.loader.spi image
      (3 + u.val) rfl at_.2
    rw [next] at read
    rw [loader, Loader.driven, number]
    exact read
  refine ⟨fun ws c read good => ?_, fun bad => ?_, fun absent => ?_⟩
  · obtain ⟨t, run, loader, csN, quiet, -, alone⟩ := common _ _ (by rw [read]; exact State.judgeTower_good good)
    rw [judged_present read, Bool.or_true, Bool.and_true] at csN
    exact ⟨t, run, loader, csN, alone, quiet rfl⟩
  · obtain ⟨t, run, loader, csN, -, fault, alone⟩ := common _ _ (State.judgeTower_bad bad)
    have present : decide (h.pointers.getD (3 + u.val) 0 ≠ 0) = true := by
      rcases bad with bad | ⟨ws, good, -⟩
      · exact judged_bad bad
      · exact judged_present good
    rw [present, Bool.or_true, Bool.and_true] at csN
    exact ⟨t, run, loader, csN, fault rfl, alone⟩
  · obtain ⟨t, run, loader, csN, quiet, -, alone⟩ := common _ _ (by rw [absent]; exact s.judgeTower_absent u _)
    have missing : decide (h.pointers.getD (3 + u.val) 0 ≠ 0) = false :=
      decide_eq_false (Classical.not_not.2 (readSection_absent_iff.1 absent))
    rw [missing, Bool.or_false] at csN
    exact ⟨t, run, loader, csN, quiet rfl, alone⟩

/-- PRELOAD with pairs (R175). -/
theorem section_preload (s : State) (image : List Byte) (h : Header) (at_ : s.standsAt 15 h) (ws : List Half)
    (read : readSection h image 15 = .good ws) (pairs : preloadOf ws ≠ []) :
    ∃ t, exec (.sectionRead image) s = .next t
      ∧ t.loader = { s.loader with
          state := .preloading 0
          staged := { s.loader.staged with preload := preloadOf ws }
          spi := t.loader.spi }
      ∧ t.loader.spi.csN = true ∧ s.loaderAlone t ∧ s.sameEvents t := by
  have judged : s.judgeKind 15 (readSection h image 15) = s.judgePreload (.good ws) := by rw [read]; rfl
  rw [State.judgePreload_pairs pairs] at judged
  obtain ⟨t, run, loader, alone, -, quiet, -⟩ := State.exec_goesOn at_ judged
  refine ⟨t, run, by rw [loader]; rfl, ?_, alone, quiet rfl⟩
  rw [loader, Loader.driven]
  refine (sectionEnd_csN (L := s.loader.staging _ (.preloading 0)) _ image 15 fun m => nofun).trans ?_
  rw [judged_present read, Bool.or_true]

/-- PRELOAD without pairs, bad or absent: the load ends RUNNING (R113, R175, R176). -/
theorem section_end (s : State) (image : List Byte) (h : Header) (at_ : s.standsAt 15 h) (g : GlobalCfg)
    (globals : s.loader.staged.globals = some g)
    (empty : ∀ ws, readSection h image 15 = .good ws → preloadOf ws = []) :
    ∃ t spi, exec (.sectionRead image) s = .next t
      ∧ (s.withLoader s.loader (decide (readSection h image 15 = .bad))).EndsRunning t g spi
      ∧ spi.csN = (s.loader.spi.csN || decide (h.pointers.getD 15 0 ≠ 0)) := by
  have judged : s.judgeKind 15 (readSection h image 15) = s.judgePreload (readSection h image 15) := rfl
  rw [State.judgePreload_ends globals empty] at judged
  have event : s.judgeSection image = (s.withLoader s.loader (decide (readSection h image 15 = .bad))).running g
      (s.loader.spi.drive (sectionSteps h image 15 ++ [])) := by
    rw [State.judgeSection_at at_]
    exact (congrArg (State.readOn (sectionSteps h image 15)) judged).trans (State.runLoad_readOn _ g _)
  have run : exec (.sectionRead image) s = .next (State.settle s (s.judgeSection image)) := rfl
  rw [event] at run
  refine ⟨_, _, run, State.settle_running s _ g _, ?_⟩
  rw [SpiPort.drive_csN, List.append_nil, sectionSteps_csN]

theorem Staged.holds_iff (x : Staged) (a : Byte) :
    x.holds a = true ↔ ∃ (u : Tower) (c : TowerCfg), x.towers[u] = some c ∧ c.address = a := by
  simp [-Fin.getElem_fin, Staged.holds, allTowers, allFin, Option.any_eq_true]

/-- A tower at the end of a load: its section installed, or as it stood (R113, R176). -/
theorem TowerState.install_some {tw : TowerState} {c : TowerCfg} : tw.install (some c) = { tw with
    service := .parked, parkHold := true, cfg := some c.key, settings := some c.loop, address := some c.address
    haltPending := true, queryPending := true } := rfl

/-- Settles O57: each section at its place. -/
theorem sectionIsJudged : Obligations.SectionIsJudged := by
  refine ⟨fun s image h state header => ?_, fun s image h state header => ?_, fun s image h state header => ?_,
    fun s image h u state header => ?_, fun s image h state header => ⟨fun ws read pairs => ?_, fun g globals empty => ?_⟩,
    Staged.holds_iff⟩
  · obtain ⟨good, bad⟩ := section_global s image h ⟨state, header⟩
    refine ⟨fun ws g read ok => ?_, bad⟩
    obtain ⟨t, run, loader, csN, ⟨memory, bus, setup, towers, coverage, engine, loop, settings⟩, events⟩ := good ws g read ok
    exact ⟨t, run, loader, csN, memory, bus, setup, towers, coverage, engine, loop, settings, events⟩
  · obtain ⟨good, bad⟩ := section_windows s image h ⟨state, header⟩
    refine ⟨fun ws read ok => ?_, bad⟩
    obtain ⟨t, run, loader, csN, fault, quiet, ⟨memory, bus, setup, towers, coverage, engine, loop, settings⟩, capture⟩ :=
      good ws read ok
    exact ⟨t, run, loader, csN, fault, quiet, memory, bus, setup, towers, coverage, engine, loop, settings, capture⟩
  · obtain ⟨t, run, good, bad, absent, reading, kept, csN,
      ⟨memory, bus, setup, towers, coverage, engine, loop, settings⟩, capture⟩ := section_curves s image h ⟨state, header⟩
    exact ⟨t, run, good, bad, absent, reading, kept, csN, memory, bus, setup, towers, coverage, engine, loop, settings,
      capture⟩
  · obtain ⟨good, bad, absent⟩ := section_tower s image h u ⟨state, header⟩
    refine ⟨fun ws c read ok => ?_, fun wrong => ?_, fun none => ?_⟩
    · obtain ⟨t, run, loader, csN, ⟨memory, bus, setup, towers, coverage, engine, loop, settings⟩, events⟩ :=
        good ws c read ok
      exact ⟨t, run, loader, csN, memory, bus, setup, towers, coverage, engine, loop, settings, events⟩
    · obtain ⟨t, run, loader, csN, fault, memory, bus, setup, towers, coverage, -⟩ := bad wrong
      exact ⟨t, run, loader, csN, fault, memory, bus, setup, towers, coverage⟩
    · obtain ⟨t, run, loader, csN, events, memory, bus, setup, towers, coverage, -⟩ := absent none
      exact ⟨t, run, loader, csN, events, memory, bus, setup, towers, coverage⟩
  · obtain ⟨t, run, loader, csN, ⟨memory, bus, setup, towers, coverage, engine, loop, settings⟩, events⟩ :=
      section_preload s image h ⟨state, header⟩ ws read pairs
    exact ⟨t, run, loader, csN, memory, bus, setup, towers, coverage, engine, loop, settings, events⟩
  · obtain ⟨t, spi, run, ends, csN⟩ := section_end s image h ⟨state, header⟩ g globals empty
    obtain ⟨part, flags, -⟩ := ends.control
    obtain ⟨windows, curves, timeout, -⟩ := ends.taken
    obtain ⟨mem, bus, loop, levels, -⟩ := ends.kept
    have towers : ∀ u : Tower, ((s.towers[u]).install s.loader.staged.towers[u]).sameUnder t.towers[u] := by
      simpa [-Fin.getElem_fin, State.withLoader] using ends.towers
    refine ⟨t, run, by rw [ends.loader], part, by rw [ends.loader]; exact csN, windows, curves, timeout, ?_, ends.coverage,
      fun u c hc => ?_, fun tx => ?_, ends.mirror, fun bad => ?_, fun ok => ?_, ?_, bus, loop, levels⟩
    · exact ends.engine
    · have under := towers u
      rw [hc] at under
      obtain ⟨service, -, cfg, -⟩ := under
      exact ⟨service, cfg⟩
    · obtain ⟨link, still⟩ := ends.busy tx
      refine ⟨link, fun u c hc => ?_, fun u hn => ?_⟩
      · exact (still u).trans (congrArg (s.towers[u]).install hc)
      · exact (still u).trans (congrArg (s.towers[u]).install hn)
    · rw [State.raised, flags, decide_eq_true bad]
      exact State.raise_flags .configFault s
    · rw [flags, decide_eq_false ok]
      rfl
    · intro a
      rw [mem]
      rfl

end Sys2Proof.Machine
end

section
/-! PROOFS. PRELOAD_WRITE_COMPLETE: the next pair, or the end of the load. -/

namespace Sys2Proof.Machine

/-- The machine once a preload write has been answered: the channel and the port are free (R19, R175). -/
def State.preloadTaken (s : State) (ws : List PortWord) (ans : MemAnswer) : State :=
  (s.completed ws [ans] false).freeChannel

theorem State.preloadTaken_shape (s : State) (ws : List PortWord) (ans : MemAnswer) :
    s.preloadTaken ws ans = { s with
      mem := Memory.answers s.mem ws [ans], port := { s.port with holder := none }
      control := (s.preloadTaken ws ans).control } := rfl

theorem State.preloadTaken_control (s : State) (ws : List PortWord) (ans : MemAnswer) :
    s.sameSettings (s.preloadTaken ws ans)
      ∧ (ans = .ok → (s.preloadTaken ws ans).control.flags = s.control.flags)
      ∧ (ans ≠ .ok → s.raised .memoryFault (s.preloadTaken ws ans)) := by
  have free : (s.preloadTaken ws ans).control = { (s.completed ws [ans] false).control with channel := none } := rfl
  refine ⟨by rw [State.sameSettings, free]; simp, fun ok => ?_, fun bad => ?_⟩
  · rw [State.preloadTaken, s.completed_ok ws (by simpa using ok)]
    rfl
  · rw [State.preloadTaken, s.completed_error ws ⟨ans, List.mem_singleton_self _, bad⟩]
    exact State.raise_flags _ _

theorem State.exec_preloadWritten {s : State} {adr : Nat} {val : Word} {ws : List PortWord} (ans : MemAnswer)
    (holds : s.holdsRequest (.preloadWrite adr val) ws) :
    exec (.preloadWriteComplete ans) s = .next (State.settle s (s.preloadTaken ws ans).preloadWritten) :=
  congrArg (Host.Outcome.next ∘ State.settle s) (State.complete_eq holds (due := IReq.isPreloadWrite) rfl [ans] _)

theorem rangeOf_first (ws ws' : WindowTable) {w : Window} (before : ∀ x, some x ∈ ws → x.kind ≠ .coverage)
    (kind : w.kind = .coverage) : rangeOf (ws ++ some w :: ws') = some ⟨w.base, w.size⟩ := by
  induction ws with
  | nil => exact if_pos kind
  | cons e ws ih =>
    have rest := ih fun x hx => before x (List.mem_cons_of_mem _ hx)
    cases e with
    | none => exact rest
    | some x => exact (if_neg (before x List.mem_cons_self)).trans rest

theorem rangeOf_none (ws : WindowTable) (h : ∀ x, some x ∈ ws → x.kind ≠ .coverage) : rangeOf ws = none := by
  induction ws with
  | nil => rfl
  | cons e ws ih =>
    have rest := ih fun x hx => h x (List.mem_cons_of_mem _ hx)
    cases e with
    | none => exact rest
    | some x => exact (if_neg (h x List.mem_cons_self)).trans rest

/-- A pair that is not the last (R175). -/
theorem preload_next {s : State} {adr : Nat} {val : Word} {ws : List PortWord} (ans : MemAnswer) {n : Nat}
    (holds : s.holdsRequest (.preloadWrite adr val) ws) (state : s.loader.state = .preloading n)
    (more : n + 1 < s.loader.staged.preload.length) :
    ∃ t, exec (.preloadWriteComplete ans) s = .next t ∧ t.port.holder = none
      ∧ t.loader = { s.loader with state := .preloading (n + 1) } ∧ t.mem = Memory.answers s.mem ws [ans]
      ∧ (ans = .ok → t.control.flags = s.control.flags) ∧ (ans ≠ .ok → s.raised .memoryFault t)
      ∧ t.bus = s.bus ∧ s.sameSetup t ∧ t.coverage = s.coverage ∧ s.sameTowers t ∧ t.engine = s.engine
      ∧ t.loop = s.loop ∧ s.sameSettings t := by
  obtain ⟨settings, quiet, fault⟩ := s.preloadTaken_control ws ans
  have shape := s.preloadTaken_shape ws ans
  have run := State.exec_preloadWritten ans holds
  generalize s.preloadTaken ws ans = y at settings quiet fault shape run
  have state : y.loader.state = .preloading n := by rw [shape, ← state]
  have more : n + 1 < y.loader.staged.preload.length := by rw [shape]; exact more
  have written : y.preloadWritten = y.setLoader (.preloading (n + 1)) := by
    rw [State.preloadWritten, state]
    exact if_pos more
  rw [written, State.settle_of_towers (by rw [shape]; rfl)] at run
  have holder : (y.setLoader (.preloading (n + 1))).port.holder = none := by rw [shape]; rfl
  refine ⟨_, run, (State.samePort_offerChannel _).1.trans holder, by rw [shape]; simp [State.setLoader],
    by rw [shape]; simp [State.setLoader], fun ok => ?_, fun bad => ?_, by rw [shape]; simp [State.setLoader],
    by rw [shape]; simp [State.sameSetup, State.setLoader], by rw [shape]; simp [State.setLoader],
    by rw [shape]; simp [State.sameTowers, State.setLoader], by rw [shape]; simp [State.setLoader],
    by rw [shape]; simp [State.setLoader], ?_⟩
  · simpa [State.setLoader] using quiet ok
  · simpa [State.raised, State.setLoader] using fault bad
  · simpa [State.sameSettings, State.setLoader] using settings

/-- Settles O41: the next pair, the end of the load after the last, and the range of a window table. -/
theorem preloadWriteCompletes : Obligations.PreloadWriteCompletes := by
  refine ⟨fun s adr val ws ans n holds state => ⟨preload_next ans holds state, fun g last globals => ?_⟩,
    fun ws ws' w => rangeOf_first ws ws', rangeOf_none⟩
  have shape := s.preloadTaken_shape ws ans
  have run := State.exec_preloadWritten ans holds
  generalize s.preloadTaken ws ans = y at shape run
  have loader : y.loader = s.loader := by rw [shape]
  have written : y.preloadWritten = y.running g y.loader.spi := by
    rw [State.preloadWritten, loader, state]
    refine (if_neg (by omega)).trans ?_
    rw [State.endLoad, loader, globals]
    exact y.runLoad_running g |>.trans (by rw [loader])
  rw [written] at run
  have ends := State.settle_running s y g y.loader.spi
  generalize State.settle s (y.running g y.loader.spi) = t at run ends
  obtain ⟨part, -, enables, mode, noticeAddr, noticeDatum⟩ := ends.control
  obtain ⟨windows, curves, timeout, limit, holder⟩ := ends.taken
  obtain ⟨mem, bus, loop, levels, -⟩ := ends.kept
  have engine := ends.engine
  have coverage := ends.coverage
  have towers := ends.towers
  have pending := ends.pending
  have busy := ends.busy
  have old : y.engine = s.engine ∧ y.coverage = s.coverage ∧ y.towers = s.towers ∧ y.link = s.link ∧ y.bus = s.bus
      ∧ y.loop = s.loop ∧ y.levels = s.levels ∧ y.port.holder = none := by
    rw [shape]
    exact ⟨rfl, rfl, rfl, rfl, rfl, rfl, rfl, rfl⟩
  obtain ⟨oldEngine, oldCoverage, oldTowers, oldLink, oldBus, oldLoop, oldLevels, free⟩ := old
  rw [loader] at windows curves
  rw [oldEngine] at engine
  rw [oldBus] at bus
  rw [oldLoop] at loop
  rw [oldLevels] at levels
  simp only [loader, oldTowers, oldLink, oldCoverage] at coverage towers pending busy
  have ended := coverage
  obtain ⟨geometry, range, -⟩ := coverage
  refine ⟨t, run, holder.trans free, by rw [ends.loader], part, enables, mode, noticeAddr, noticeDatum, windows, curves,
    timeout, limit, engine, range, fun u c hc => ?_, fun tx => ?_, fun u hn => ?_, ended, ends.mirror, ends.pointer, bus,
    loop, levels⟩
  · have under := towers u
    rw [hc] at under
    obtain ⟨service, parkHold, cfg, -, -, -, settings, address, -⟩ := under
    exact ⟨service, parkHold, cfg, address, settings, (geometry u).trans (congrArg (Option.map TowerCfg.geometry) hc), pending u c hc⟩
  · obtain ⟨link, still⟩ := busy tx
    exact ⟨link, fun u c hc => (still u).trans (congrArg (s.towers[u]).install hc),
      fun u hn => (still u).trans (congrArg (s.towers[u]).install hn)⟩
  · have under := towers u
    rw [hn] at under
    exact ⟨(geometry u).trans (congrArg (Option.map TowerCfg.geometry) hn), under.1⟩

end Sys2Proof.Machine
end

section
/-! PROOFS. The tower reset: a section reload completes. -/

namespace Sys2Proof.Machine

/-! ### A record at a tower reset -/

/-- A record at a good tower reset: its moves are withdrawn, and a slot present before and after keeps its base, tag, trim
and hold, its ramp frozen (R58, R81). -/
theorem resetRec_fields (kept : Bool) (r : KeyRec) :
    (resetRec kept r).target = 0 ∧ (resetRec kept r).correction = 0 ∧ (resetRec kept r).ramp = none
      ∧ (resetRec kept r).commanded = none ∧ (resetRec kept r).reported = none ∧ (resetRec kept r).move = .idle
      ∧ (resetRec kept r).fault = none ∧ (resetRec kept r).tries = 0 ∧ (resetRec kept r).timer = none
      ∧ (kept = true → (resetRec kept r).base = r.rbOpening ∧ (resetRec kept r).tag = r.tag
        ∧ (resetRec kept r).trim = r.trim ∧ (resetRec kept r).hold = r.hold)
      ∧ (kept = false → resetRec kept r = KeyRec.reset) := by
  cases kept with
  | false => exact ⟨rfl, rfl, rfl, rfl, rfl, rfl, rfl, rfl, rfl, nofun, fun _ => rfl⟩
  | true =>
    have reset : resetRec true r
        = { withdrawRec true (freezeRamp r) with correction := 0, target := 0, fault := none, timer := none } := rfl
    have frozen : (freezeRamp r).ramp = none ∧ (freezeRamp r).base = r.rbOpening ∧ (freezeRamp r).tag = r.tag
        ∧ (freezeRamp r).trim = r.trim ∧ (freezeRamp r).hold = r.hold := ⟨rfl, rfl, rfl, rfl, rfl⟩
    obtain ⟨ramp, base, tag, trim, hold⟩ := frozen
    rw [reset]
    generalize freezeRamp r = q at ramp base tag trim hold
    unfold withdrawRec
    cases m : q.move <;> simp [ramp, base, tag, trim, hold]

/-! ### The tower -/

theorem TowerState.resetGood_fields (c : TowerCfg) (tw : TowerState) :
    (tw.resetGood c).service = .parked ∧ (tw.resetGood c).parkHold = true ∧ (tw.resetGood c).cfg = some c.key
      ∧ (tw.resetGood c).address = some c.address ∧ (tw.resetGood c).settings = some c.loop
      ∧ (tw.resetGood c).loop = .off ∧ (tw.resetGood c).settle = 0 ∧ (tw.resetGood c).queue = []
      ∧ (tw.resetGood c).flight = [] ∧ (tw.resetGood c).timeouts = 0 ∧ (tw.resetGood c).tagCounter = tw.tagCounter
      ∧ (tw.resetGood c).haltPending = true ∧ (tw.resetGood c).queryPending = true :=
  ⟨rfl, rfl, rfl, rfl, rfl, rfl, rfl, rfl, rfl, rfl, rfl, rfl, rfl⟩

theorem TowerState.resetGood_rec (c : TowerCfg) (tw : TowerState) (sl : Slot) :
    (tw.resetGood c).recs[sl] = resetRec (tw.present sl && (tw.resetGood c).present sl) tw.recs[sl] :=
  vecOf_get _ sl

/-! ### The reads of a section reload -/

theorem reloadSteps_closes (image : List Byte) (u : Tower) : ∃ xs n, reloadSteps image u = xs ++ spiClose n := by
  unfold reloadSteps headerSteps
  cases readHeader image with
  | none => exact ⟨[], 2, rfl⟩
  | some h =>
    dsimp only
    by_cases z : h.pointer (3 + u.val) = 0
    · rw [if_pos z]
      exact ⟨[], _, List.append_nil _⟩
    · rw [if_neg z, sectionSteps, if_neg z, ← List.append_assoc]
      exact ⟨_, _, rfl⟩

theorem SpiPort.drive_reload (p : SpiPort) (image : List Byte) (u : Tower) :
    (p.drive (reloadSteps image u)).csN = true ∧ (p.drive (reloadSteps image u)).sent = [] := by
  obtain ⟨xs, n, steps⟩ := reloadSteps_closes image u
  rw [steps, SpiPort.drive_close]
  exact ⟨rfl, rfl⟩

/-! ### The machine -/

theorem Coverage.setGeometry_same {c : Coverage} {u : Tower} {g : Option Geometry} (h : c.geometry[u] = g) :
    c.setGeometry u g = c := by
  rw [Coverage.setGeometry, if_pos h, ← h]
  simp

/-- A tower after its reset: good or bad (R108, R109). -/
def TowerState.afterReset (c : Option TowerCfg) (tw : TowerState) : TowerState :=
  match c with
  | none => tw.resetBad
  | some x => tw.resetGood x

theorem State.resetTower_shape (y : State) (u : Tower) (c : Option TowerCfg) :
    y.resetTower u c = { y with
      towers := y.towers.set u (y.towers[u].afterReset c)
      coverage := y.coverage.setGeometry u (c.map TowerCfg.geometry)
      loop := if c.isSome then y.loop.markReset u else y.loop
      control := (y.resetTower u c).control } := by
  cases c <;> rfl

theorem State.resetTower_reports (y : State) (u : Tower) (c : Option TowerCfg) : (y.resetTower u c).control
    = ((y.putTower u (y.towers[u].afterReset c)).raiseIf c.isNone .configFault).control.report (wordTower u) := by
  cases c <;> rfl

/-- What a tower reset leaves of the control unit (R108, R109). -/
theorem State.resetTower_settings (y : State) (u : Tower) (c : Option TowerCfg) :
    y.sameSettings (y.resetTower u c)
      ∧ (y.control.part = .running → (y.resetTower u c).control.mirror.getLsbD (16 + u.val) = true)
      ∧ (c.isNone = false → y.sameEvents (y.resetTower u c))
      ∧ (c.isNone = true → y.raised .configFault (y.resetTower u c)) := by
  have control := y.resetTower_reports u c
  refine ⟨by simp [State.sameSettings, control], fun running => ?_, fun good => ?_, fun bad => ?_⟩
  · have part : ((y.putTower u (y.towers[u].afterReset c)).raiseIf c.isNone .configFault).control.part = .running := by
      simp [running]
    have bit := Control.report_mirror (wordTower u) (wordTower u)
      ((y.putTower u (y.towers[u].afterReset c)).raiseIf c.isNone .configFault).control
    rw [← control, part] at bit
    simpa [wordTower] using bit
  · rw [good, State.raiseIf_false] at control
    simp [-Fin.getElem_fin, State.sameEvents, control]
  · rw [bad, State.raiseIf_true] at control
    simp [-Fin.getElem_fin, State.raised, control, State.raise_flags]

/-- The machine as a section reload finds it, the reads made: the loader is IDLE (R178). -/
def State.sectionRead (s : State) (u : Tower) (image : List Byte) : State :=
  (s.setLoader .idle).drive (reloadSteps image u)

theorem State.exec_sectionReload {s : State} {u : Tower} (image : List Byte) (state : s.loader.state = .section_ u)
    (busy : s.link.tx ≠ .idle) :
    exec (.sectionReloadComplete image) s
      = .next ((s.sectionRead u image).resetTower u (s.reread u image)).offerChannel := by
  have event : s.sectionReloaded image = (s.sectionRead u image).resetTower u (s.reread u image) := by
    rw [State.sectionReloaded, state]
    rfl
  have run : exec (.sectionReloadComplete image) s = .next (State.settle s (s.sectionReloaded image)) := rfl
  rw [event, State.settle_of_tx (by simpa [State.sectionRead, State.drive, State.setLoader] using busy)] at run
  exact run

/-- What a section reload leaves of the machine (R108, R109, R156, R178). -/
structure State.SectionReloaded (s t : State) (u : Tower) (c : Option TowerCfg) : Prop where
  loader : t.loader = { s.loader with state := .idle, spi := t.loader.spi } ∧ t.loader.spi.csN = true
    ∧ t.loader.spi.sent = []
  coverage : t.coverage = s.coverage.setGeometry u (c.map TowerCfg.geometry)
  tower : t.towers[u] = s.towers[u].afterReset c
  others : ∀ v : Tower, v ≠ u → t.towers[v] = s.towers[v]
  mirror : s.control.part = .running → t.control.mirror.getLsbD (16 + u.val) = true
  loop : t.loop = if c.isSome then s.loop.markReset u else s.loop
  kept : s.sameMemory t ∧ t.bus = s.bus ∧ s.sameSetup t ∧ t.engine = s.engine ∧ s.sameSettings t
  quiet : c.isNone = false → s.sameEvents t
  fault : c.isNone = true → s.raised .configFault t

theorem State.sectionReloaded_spec (s : State) (u : Tower) (image : List Byte) (c : Option TowerCfg) :
    s.SectionReloaded ((s.sectionRead u image).resetTower u c).offerChannel u c := by
  obtain ⟨csN, sent⟩ := s.loader.spi.drive_reload image u
  have shape := (s.sectionRead u image).resetTower_shape u c
  obtain ⟨settings, mirror, quiet, fault⟩ := (s.sectionRead u image).resetTower_settings u c
  generalize (s.sectionRead u image).resetTower u c = x at shape settings mirror quiet fault
  have loader : x.loader = { s.loader with state := .idle, spi := s.loader.spi.drive (reloadSteps image u) } := by
    rw [shape]
    rfl
  have towers : x.offerChannel.towers = s.towers.set u (s.towers[u].afterReset c) := by
    rw [(State.offerChannel_keeps x).2.2.2.2.2.2.2.1, shape]
    rfl
  refine
    { loader := ⟨by simp [loader], by simp [loader, csN], by simp [loader, sent]⟩
      coverage := by rw [(State.offerChannel_keeps x).2.2.2.2.2.1, shape]; rfl
      tower := by rw [towers]; exact Vector.getElem_set_self _
      others := fun v hv => by rw [towers]; exact Vector.getElem_set_ne _ _ fun e => hv (Fin.ext e.symm)
      mirror := fun running => ?_
      loop := by rw [(State.offerChannel_keeps x).2.2.2.2.2.2.2.2.2.2.2.2.1, shape]; rfl
      kept := ⟨fun a => ?_, ?_, ?_, ?_, ?_⟩
      quiet := fun good => ?_, fault := fun bad => ?_ }
  · rw [(State.offerChannel_control x).2.2.2.2.2.2.2.2.2.1]
    exact mirror running
  · rw [(State.offerChannel_keeps x).2.1, shape]
    rfl
  · rw [(State.offerChannel_keeps x).2.2.2.1, shape]
    rfl
  · rw [State.sameSetup]
    simp only [State.offerChannel_keeps]
    rw [shape]
    exact ⟨rfl, rfl, rfl, rfl, rfl⟩
  · rw [(State.offerChannel_keeps x).2.2.2.2.2.2.2.2.2.2.2.1, shape]
    rfl
  · rw [State.sameSettings]
    simp only [State.offerChannel_control]
    exact settings
  · have same := quiet good
    rw [State.sameEvents]
    simp only [State.offerChannel_control]
    exact same
  · have raised := fault bad
    rw [State.raised]
    simp only [State.offerChannel_control]
    exact raised

theorem State.reread_judged (s : State) (image : List Byte) (u : Tower) {taken : Byte → Bool}
    (others : ∀ a, taken a = true
      ↔ ∃ v : Tower, v ≠ u ∧ s.towers[v].service ≠ .unconfigured ∧ s.towers[v].address = some a) {h : Header}
    (good : readHeader image = some h) : s.reread u image = (match readSection h image (3 + u.val) with
      | .good ws => towerOf taken ws
      | _ => none) := by
  have same : taken = s.holdsAddress u := by
    funext a
    rw [Bool.eq_iff_iff, others]
    simp [-Fin.getElem_fin, State.holdsAddress, allTowers, allFin, TowerState.configured, and_assoc]
  rw [State.reread, good, same] <;> rfl

/-- Settles O58: a good section, a failed one, and how the section is read again. -/
theorem towerResetTakesEffect : Obligations.TowerResetTakesEffect := by
  refine ⟨fun s image u state busy => ⟨fun c read => ?_, fun read => ?_⟩, fun s image u n taken hn others =>
    ⟨fun bad => ?_, fun signature low high h hh => ?_⟩⟩
  · have run := State.exec_sectionReload image state busy
    rw [read] at run
    have after := s.sectionReloaded_spec u image (some c)
    generalize ((s.sectionRead u image).resetTower u (some c)).offerChannel = t at run after
    obtain ⟨memory, bus, setup, engine, settings⟩ := after.kept
    obtain ⟨loader, csN, sent⟩ := after.loader
    obtain ⟨unfit, geometry⟩ := Coverage.setGeometry_madeUnfit u (some c.geometry) s.coverage
    have coverage : t.coverage = s.coverage.setGeometry u (some c.geometry) := after.coverage
    have tower : t.towers[u] = s.towers[u].resetGood c := after.tower
    have loop : t.loop = s.loop.markReset u := after.loop
    obtain ⟨service, parkHold, cfg, address, loopSettings, off, settle, queue, flight, timeouts, tag, halt, query⟩ :=
      s.towers[u].resetGood_fields c
    rw [← coverage] at geometry
    refine ⟨t, run, loader, csN, sent, by rw [tower, service], by rw [tower, parkHold], by rw [tower, cfg],
      by rw [tower, address], by rw [tower, loopSettings], by rw [tower, off], by rw [tower, settle], by rw [tower, queue],
      by rw [tower, flight], by rw [tower, timeouts], by rw [tower, tag], by rw [tower, halt], by rw [tower, query],
      by rw [geometry]; exact Vector.getElem_set_self _,
      fun v hv => by rw [geometry]; exact Vector.getElem_set_ne _ _ fun e => hv (Fin.ext e.symm), by rw [coverage]; exact unfit,
      fun same => ?_, fun sl => ?_, after.others, after.mirror, by rw [loop]; rfl, fun i => ?_, memory, bus, setup, engine,
      settings, after.quiet rfl⟩
    · rw [coverage]
      exact Coverage.setGeometry_same same
    · have present : t.towers[u].present sl = (s.towers[u].resetGood c).present sl := by rw [tower]
      obtain ⟨target, correction, ramp, commanded, reported, move, fault, tries, timer, keeps, resets⟩ :=
        resetRec_fields (s.towers[u].present sl && t.towers[u].present sl) s.towers[u].recs[sl]
      have record : t.towers[u].recs[sl]
          = resetRec (s.towers[u].present sl && t.towers[u].present sl) s.towers[u].recs[sl] := by
        rw [present, ← TowerState.resetGood_rec, tower]
      rw [record]
      exact ⟨target, correction, ramp, commanded, reported, move, fault, tries, timer,
        fun was is => keeps (by rw [was, is]; rfl), fun gone => resets (Bool.and_eq_false_iff.2 gone)⟩
    · rw [loop]
      exact LoopUnit.markReset_get u s.loop i
  · have run := State.exec_sectionReload image state busy
    rw [read] at run
    have after := s.sectionReloaded_spec u image none
    generalize ((s.sectionRead u image).resetTower u none).offerChannel = t at run after
    obtain ⟨memory, bus, setup, engine, settings⟩ := after.kept
    obtain ⟨loader, csN, sent⟩ := after.loader
    obtain ⟨unfit, geometry⟩ := Coverage.setGeometry_madeUnfit u none s.coverage
    have coverage : t.coverage = s.coverage.setGeometry u none := after.coverage
    rw [← coverage] at geometry
    refine ⟨t, run, loader, csN, sent, after.tower, after.fault rfl, by rw [geometry]; exact Vector.getElem_set_self _,
      fun v hv => by rw [geometry]; exact Vector.getElem_set_ne _ _ fun e => hv (Fin.ext e.symm), by rw [coverage]; exact unfit,
      fun same => ?_, after.others, after.mirror, memory, bus, setup, engine, after.loop, settings⟩
    rw [coverage]
    exact Coverage.setGeometry_same same
  · rw [State.reread, readHeader_bad (by rw [← hn]; exact bad)]
  · subst hn hh
    exact s.reread_judged image u others (readHeader_good signature low high)

end Sys2Proof.Machine
end

section
/-! PROOFS. The configuration's sections: their framing and the fields, ranges and checks of each kind. -/

namespace Sys2Proof.Machine

/-! ### Words and pairs -/

theorem pairValue_toNat (lo hi : Half) : (pairValue lo hi).toNat = hi.toNat * 65536 + lo.toNat :=
  toNat_append_arith hi lo

theorem pairAddr_eq (lo hi : Half) : pairAddr lo hi = (hi.toNat * 65536 + lo.toNat) % 2 ^ 28 := by
  rw [pairAddr, pairValue_toNat]

theorem checkSum_eq (ws : List Half) : checkSum ws = BitVec.ofNat 16 (ws.map BitVec.toNat).sum := by
  have sums : ∀ (l : List Half) (a : Half), l.foldl (fun a w => a + w) a = a + BitVec.ofNat 16 (l.map BitVec.toNat).sum := by
    intro l
    induction l with
    | nil => intro a; simp
    | cons w l ih =>
      intro a
      rw [List.foldl_cons, ih, List.map_cons, List.sum_cons, BitVec.ofNat_add, BitVec.ofNat_toNat, BitVec.setWidth_eq,
        BitVec.add_assoc]
  rw [checkSum, sums]
  exact BitVec.zero_add _

/-! ### Framing -/

theorem ite_or_eq {α : Type} (p q : Prop) [Decidable p] [Decidable q] (a b : α) :
    (if p ∨ q then a else b) = if p then a else if q then a else b := by
  by_cases h : p
  · rw [if_pos (.inl h), if_pos h]
  · rw [if_neg h]
    exact ite_congr (propext (or_iff_right h)) (fun _ => rfl) fun _ => rfl

theorem readSection_eq (h : Header) (image : List Byte) (kind : Nat) :
    readSection h image kind = (let p := h.pointer kind
      let len := (imageWord image p).toNat
      let ws := (List.range len).map (fun i => imageWord image (p + 1 + i))
      if p = 0 then .absent
      else if p < h.count + 2 ∨ 4095 < p + len + 1 ∨ lengthAllowed kind len ws = false
        ∨ imageWord image (p + len + 1) ≠ BitVec.ofNat 16 (ws.map BitVec.toNat).sum then .bad
      else .good ws) := by
  unfold readSection
  dsimp only
  rw [← checkSum_eq, ite_or_eq, ite_or_eq, ite_or_eq]

theorem lengthAllowed_fixed (len : Nat) (ws : List Half) :
    (lengthAllowed 0 len ws = true ↔ len = 11) ∧ (lengthAllowed 1 len ws = true ↔ len % 6 = 0 ∧ len ≤ 48)
      ∧ (lengthAllowed 2 len ws = true ↔ len = 176)
      ∧ (lengthAllowed 15 len ws = true ↔ len % 4 = 0 ∧ len ≤ 1024) := by
  simp [lengthAllowed, and_comm]

theorem lengthAllowed_tower (u : Tower) (len : Nat) (ws : List Half) :
    lengthAllowed (3 + u.val) len ws = true
      ↔ 8 ≤ (ws.getD 1 0).toNat ∧ (ws.getD 1 0).toNat ≤ 48 ∧ len = (ws.getD 1 0).toNat + 15 := by
  rw [lengthAllowed, if_neg (by omega), if_neg (by omega), if_neg (by omega), if_neg (by omega)]
  simp [contentNat, contentWord, and_assoc]

/-! ### GLOBAL -/

theorem globalOf_iff (ws : List Half) (g : GlobalCfg) (n : Nat → Nat) (hn : ∀ i, n i = (ws.getD i 0).toNat) :
    globalOf ws = some g ↔
      1 ≤ n 2 ∧ n 2 ≤ 64 ∧ n 7 ≤ 1 ∧ 2 ≤ n 9 ∧ n 9 ≤ 60 ∧ 4 ≤ n 10 ∧ n 10 ≤ 64
        ∧ g.tableBase = (n 1 * 65536 + n 0) % 2 ^ 28 / 32 * 32 ∧ g.tableLength = n 2
        ∧ g.noticeAddr = (n 4 * 65536 + n 3) % 2 ^ 28 / 4 * 4 ∧ g.noticeDatum = ws.getD 6 0 ++ ws.getD 5 0
        ∧ g.mode = (if n 7 = 0 then .clearOnes else .replace) ∧ g.enables = (ws.getD 8 0).setWidth 14
        ∧ g.timeout = n 9 ∧ g.limit = n 10 := by
  have word (i : Nat) : contentNat ws i = n i := (hn i).symm
  simp only [globalOf, word, pairAddr_eq, contentWord, ← hn, wordAddr, pairValue]
  by_cases ranges : 1 ≤ n 2 ∧ n 2 ≤ 64 ∧ n 7 ≤ 1 ∧ 2 ≤ n 9 ∧ n 9 ≤ 60 ∧ 4 ≤ n 10 ∧ n 10 ≤ 64
  · rw [if_pos ranges]
    obtain ⟨a, b, c, d, e, f, k⟩ := ranges
    simp only [a, b, c, d, e, f, k, true_and, Option.some.injEq]
    constructor
    · rintro rfl
      exact ⟨rfl, rfl, rfl, rfl, rfl, rfl, rfl, rfl⟩
    · rintro ⟨h1, h2, h3, h4, h5, h6, h7, h8⟩
      cases g
      simp only at h1 h2 h3 h4 h5 h6 h7 h8
      simp only [h1, h2, h3, h4, h5, h6, h7, h8]
  · rw [if_neg ranges]
    refine iff_of_false (fun h => nomatch h) fun h => ranges ?_
    obtain ⟨a, b, c, d, e, f, k, -⟩ := h
    exact ⟨a, b, c, d, e, f, k⟩

/-! ### The window entries -/

theorem sizeAllowed_iff (n : Nat) : sizeAllowed n = true ↔ ∃ i, 6 ≤ i ∧ i ≤ 26 ∧ n = 2 ^ i := by
  simp only [sizeAllowed, List.any_eq_true, List.mem_range, decide_eq_true_eq]
  constructor
  · rintro ⟨i, hi, e⟩
    exact ⟨i + 6, by omega, by omega, e⟩
  · rintro ⟨i, lo, hi, e⟩
    exact ⟨i - 6, by omega, by rw [e, Nat.sub_add_cancel lo]⟩

theorem windowKindOf_iff (m : Nat) (k : WindowKind) : windowKindOf m = some k
    ↔ (m = 0 ∧ k = .coverage) ∨ (m = 1 ∧ k = .measure) ∨ (m = 2 ∧ k = .control) ∨ (m = 3 ∧ k = .live)
      ∨ (m = 4 ∧ k = .orders) ∨ (m = 5 ∧ k = .guard) := by
  unfold windowKindOf
  split <;> simp_all [eq_comm]

theorem windowKindOf_none {m : Nat} (h : 6 ≤ m) : windowKindOf m = none := by
  cases kind : windowKindOf m with
  | none => rfl
  | some k =>
    have := (windowKindOf_iff m k).1 kind
    omega

theorem forcedSize_getD (k : WindowKind) (x : Nat) : (forcedSize k).getD x
    = if k = .control then 128 else if k = .measure then 2048 else if k = .live then 16384 else x := by
  cases k <;> rfl

theorem forcedSize_none (k : WindowKind) : (forcedSize k).isNone = true ↔ k = .coverage ∨ k = .orders ∨ k = .guard := by
  cases k <;> decide

theorem anyKind_iff (before : WindowTable) (k : WindowKind) :
    before.any (fun e => e.any (fun w => w.kind = k)) = true ↔ ∃ w, some w ∈ before ∧ w.kind = k := by
  simp only [List.any_eq_true, Option.any_eq_true, decide_eq_true_eq]
  exact ⟨fun ⟨_, m, w, e, h⟩ => ⟨w, e ▸ m, h⟩, fun ⟨w, m, h⟩ => ⟨_, m, w, rfl, h⟩⟩

/-- The size of an entry of a kind: forced, or as its words give it (R3). -/
def entrySize (k : WindowKind) (ws : List Half) : Nat :=
  (forcedSize k).getD (pairValue (contentWord ws 3) (contentWord ws 4)).toNat

/-- An entry of a kind: its size, its checks, and what it becomes (R3). -/
theorem checkEntry_kind {before : WindowTable} {ws : List Half} {k : WindowKind}
    (valid : (contentWord ws 0).getLsbD 0 = true) (kind : windowKindOf (contentNat ws 0 / 256 % 8) = some k) :
    ((forcedSize k).isNone = true ∧ sizeAllowed (entrySize k ws) = false
          ∨ k ≠ .guard ∧ (∃ w, some w ∈ before ∧ w.kind = k) → checkEntry before ws = (none, true))
      ∧ (¬((forcedSize k).isNone = true ∧ sizeAllowed (entrySize k ws) = false
          ∨ k ≠ .guard ∧ ∃ w, some w ∈ before ∧ w.kind = k) →
        checkEntry before ws = (some ⟨k, pairAddr (contentWord ws 1) (contentWord ws 2) / entrySize k ws * entrySize k ws,
          entrySize k ws, (contentWord ws 5).setWidth 4,
          adjustedRefuse k ((contentWord ws 5).setWidth 4) (BitVec.ofNat 4 (contentNat ws 5 / 256))⟩, false)) := by
  have fails : ((forcedSize k).isNone && !sizeAllowed (entrySize k ws)
        || oneOfAKind k && before.any (fun e => e.any (fun w => w.kind = k))) = true
      ↔ (forcedSize k).isNone = true ∧ sizeAllowed (entrySize k ws) = false
        ∨ k ≠ .guard ∧ ∃ w, some w ∈ before ∧ w.kind = k := by
    rw [Bool.or_eq_true, Bool.and_eq_true, Bool.and_eq_true, anyKind_iff, Bool.not_eq_true', oneOfAKind, bne_iff_ne]
  unfold checkEntry
  rw [if_neg (by rw [valid]; decide), kind]
  exact ⟨fun bad => if_pos (fails.2 bad), fun good => if_neg fun bad => good (fails.1 bad)⟩

theorem setWidth_four (w : Half) : w.setWidth 4 = w.extractLsb' 0 4 := by
  ext i hi
  simp

theorem highNibble (w : Half) : BitVec.ofNat 4 (w.toNat / 256) = w.extractLsb' 8 4 := by
  simp [BitVec.extractLsb', Nat.shiftRight_eq_div_pow]

/-- The checks of one window entry, the entries before it as loaded (R3). -/
theorem checkEntry_spec (before : WindowTable) (ws : List Half) (n : Nat → Nat) (size : Nat) (k : WindowKind)
    (hn : ∀ i, n i = (ws.getD i 0).toNat) :
    ((ws.getD 0 0).getLsbD 0 = false → checkEntry before ws = (none, false))
    ∧ ((ws.getD 0 0).getLsbD 0 = true → 6 ≤ n 0 / 256 % 8 → checkEntry before ws = (none, true))
    ∧ ((ws.getD 0 0).getLsbD 0 = true →
        ((n 0 / 256 % 8 = 0 ∧ k = .coverage) ∨ (n 0 / 256 % 8 = 1 ∧ k = .measure) ∨ (n 0 / 256 % 8 = 2 ∧ k = .control)
          ∨ (n 0 / 256 % 8 = 3 ∧ k = .live) ∨ (n 0 / 256 % 8 = 4 ∧ k = .orders)
          ∨ (n 0 / 256 % 8 = 5 ∧ k = .guard)) →
        size = (if k = .control then 128 else if k = .measure then 2048 else if k = .live then 16384
          else n 4 * 65536 + n 3) →
        ((k = .coverage ∨ k = .orders ∨ k = .guard) ∧ (∀ i, 6 ≤ i → i ≤ 26 → size ≠ 2 ^ i)
            ∨ (k ≠ .guard ∧ ∃ w, some w ∈ before ∧ w.kind = k) → checkEntry before ws = (none, true))
          ∧ ((k = .control ∨ k = .measure ∨ k = .live ∨ ∃ i, 6 ≤ i ∧ i ≤ 26 ∧ size = 2 ^ i) →
            (k = .guard ∨ ∀ w, some w ∈ before → w.kind ≠ k) →
            checkEntry before ws
              = (some ⟨k, (n 2 * 65536 + n 1) % 2 ^ 28 / size * size, size, (ws.getD 5 0).extractLsb' 0 4,
                  if k = .coverage ∨ k = .live then ~~~((ws.getD 5 0).extractLsb' 0 4)
                  else (ws.getD 5 0).extractLsb' 8 4⟩, false))) := by
  have word (i : Nat) : contentNat ws i = n i := (hn i).symm
  refine ⟨fun invalid => if_pos invalid, fun valid unknown => ?_, fun valid kind sized => ?_⟩
  · rw [← word] at unknown
    unfold checkEntry
    rw [if_neg (by rw [contentWord, valid]; decide), windowKindOf_none unknown]
  · rw [← windowKindOf_iff, ← word] at kind
    have entry := checkEntry_kind (before := before) valid kind
    have width : entrySize k ws = size := by
      rw [entrySize, pairValue_toNat, forcedSize_getD, sized, hn, hn]
      rfl
    rw [width] at entry
    have disallowed : sizeAllowed size = false ↔ ∀ i, 6 ≤ i → i ≤ 26 → size ≠ 2 ^ i := by
      rw [← Bool.not_eq_true, sizeAllowed_iff]
      simp
    rw [forcedSize_none, disallowed, pairAddr_eq, setWidth_four, adjustedRefuse, contentNat, highNibble] at entry
    obtain ⟨bad, good⟩ := entry
    refine ⟨bad, fun allowed alone => ?_⟩
    rw [good, hn, hn]
    · rfl
    · rintro (⟨free, none⟩ | ⟨single, w, mem, same⟩)
      · rcases allowed with rfl | rfl | rfl | ⟨i, lo, hi, e⟩
        · simp at free
        · simp at free
        · simp at free
        · exact none i lo hi e
      · exact alone.elim single fun others => others w mem same

end Sys2Proof.Machine
end

section
/-! PROOFS. The window table, the curves, a TOWER section and the pairs of PRELOAD. -/

namespace Sys2Proof.Machine

/-! ### The window table -/

/-- The entries of a section read one after another, as a sequence of tables (R3). -/
theorem checkEntries_eq {ws : List Half} {es : Nat → WindowTable × Bool}
    (step : ∀ i, es (i + 1) = ((es i).1 ++ [(checkEntry (es i).1 ((ws.drop (6 * i)).take 6)).1],
        (es i).2 || (checkEntry (es i).1 ((ws.drop (6 * i)).take 6)).2)) (m i : Nat) :
    checkEntries m (ws.drop (6 * i)) (es i).1 (es i).2 = es (i + m) := by
  induction m generalizing i with
  | zero => rfl
  | succ m ih =>
    have next := ih (i + 1)
    rw [step i] at next
    rw [checkEntries, List.drop_drop, show 6 * i + 6 = 6 * (i + 1) by omega, next]
    congr 1
    omega

theorem Window.overlaps_iff (x y : Window) :
    x.overlaps y = true ↔ x.base < y.base + y.size ∧ y.base < x.base + x.size := by
  simp [Window.overlaps]

theorem clashes_iff (tab : WindowTable) (w : Window) : clashes tab (some w) = true ↔ sharesAddress tab w := by
  simp only [clashes, sharesAddress, Bool.and_eq_true, decide_eq_true_eq, List.any_eq_true, Option.any_eq_true,
    bne_iff_ne, Window.overlaps_iff]
  refine and_congr_right fun _ => ⟨fun ⟨e, m, x, h, kind, lo, hi⟩ => ⟨x, h ▸ m, kind, lo, hi⟩,
    fun ⟨x, m, kind, lo, hi⟩ => ⟨_, m, x, rfl, kind, lo, hi⟩⟩

/-- The table of a WINDOWS section: the entries as checked, those the section does not supply invalid, without a COVERAGE
entry that shares an address with another (R3, R23). -/
theorem windowsOf_spec (ws : List Half) (es : Nat → WindowTable × Bool) (first : es 0 = ([], false))
    (step : ∀ i, es (i + 1) = ((es i).1 ++ [(checkEntry (es i).1 ((ws.drop (6 * i)).take 6)).1],
        (es i).2 || (checkEntry (es i).1 ((ws.drop (6 * i)).take 6)).2)) (tab : WindowTable)
    (table : tab = ((es (ws.length / 6)).1 ++ List.replicate 8 none).take 8) :
    (windowsOf ws).1.length = 8
      ∧ (∀ (i : Nat) (w : Window),
          (windowsOf ws).1[i]? = some (some w) ↔ tab[i]? = some (some w) ∧ ¬sharesAddress tab w)
      ∧ ((windowsOf ws).2 = true ↔ (es (ws.length / 6)).2 = true ∨ ∃ w, some w ∈ tab ∧ sharesAddress tab w) := by
  have read := checkEntries_eq step (ws.length / 6) 0
  rw [first, Nat.zero_add, Nat.mul_zero, List.drop_zero] at read
  have padded : padTable (es (ws.length / 6)).1 = tab := table.symm
  have checked : windowsOf ws = ((checkCoverage tab).1, (es (ws.length / 6)).2 || (checkCoverage tab).2) := by
    rw [windowsOf, read, padded]
  rw [checked]
  refine ⟨?_, fun i w => ?_, ?_⟩
  · rw [checkCoverage, List.length_map, table, List.length_take, List.length_append, List.length_replicate]
    omega
  · rw [checkCoverage, List.getElem?_map, ← clashes_iff]
    cases entry : tab[i]? with
    | none => simp
    | some e =>
      rw [Option.map_some, Option.some.injEq, Option.some.injEq]
      by_cases clash : clashes tab e = true
      · rw [if_pos clash]
        exact iff_of_false (fun h => nomatch h) fun ⟨same, no⟩ => no (same ▸ clash)
      · rw [if_neg clash]
        exact ⟨fun same => ⟨same, same ▸ clash⟩, fun h => h.1⟩
  · rw [Bool.or_eq_true, checkCoverage, List.any_eq_true]
    refine or_congr_right ⟨fun ⟨e, m, clash⟩ => ?_, fun ⟨w, m, shares⟩ => ⟨_, m, (clashes_iff tab w).2 shares⟩⟩
    cases e with
    | none => exact nomatch clash
    | some w => exact ⟨w, m, (clashes_iff tab w).1 clash⟩

/-! ### The curves -/

theorem curveValid_iff (c : Curve) : curveValid c = true
    ↔ (∀ x ∈ c, x ≤ 1000) ∧ ∀ i, i + 1 < c.length → c.getD i 0 ≤ c.getD (i + 1) 0 := by
  induction c using curveValid.induct with
  | case1 => simp [curveValid]
  | case2 p => simp
  | case3 p q r ih =>
    rw [curveValid_cons_cons, ih]
    constructor
    · rintro ⟨rise, low, lows, rises⟩
      refine ⟨fun x hx => ?_, fun i hi => ?_⟩
      · rcases List.mem_cons.1 hx with rfl | hx
        · exact low
        · exact lows x hx
      · cases i with
        | zero => exact rise
        | succ i => exact rises i (by simpa using hi)
    · rintro ⟨lows, rises⟩
      exact ⟨rises 0 (by simp), lows p List.mem_cons_self, fun x hx => lows x (List.mem_cons_of_mem _ hx),
        fun i hi => rises (i + 1) (by simpa using hi)⟩

theorem curveOf_length (ws : List Half) (c : Nat) : (curveOf ws c).length = 11 := by
  simp [curveOf]

theorem curvesOf_get (ws : List Half) (c : Fin 16) : (curvesOf ws).1.getD c.val []
    = if curveValid (curveOf ws c.val) then curveOf ws c.val else linearCurve := by
  simp [curvesOf, List.getD_eq_getElem?_getD]

theorem curvesOf_bad (ws : List Half) :
    (curvesOf ws).2 = true ↔ ∃ c, c < 16 ∧ curveValid (curveOf ws c) = false := by
  simp [curvesOf]

/-! ### A TOWER section -/

theorem ascending_iff (l : List Nat) : ascending l = true ↔ ∀ i, i + 1 < l.length → l.getD i 0 < l.getD (i + 1) 0 := by
  induction l using ascending.induct with
  | case1 x y l ih =>
    rw [ascending, Bool.and_eq_true, decide_eq_true_eq, ih]
    constructor
    · rintro ⟨rise, rises⟩ i hi
      cases i with
      | zero => exact rise
      | succ i => exact rises i (by simpa using hi)
    · intro rises
      exact ⟨rises 0 (by simp), fun i hi => rises (i + 1) (by simpa using hi)⟩
  | case2 l short =>
    have length : l.length ≤ 1 := by
      match l, short with
      | [], _ => exact Nat.zero_le 1
      | [_], _ => exact Nat.le_refl 1
      | x :: y :: m, short => exact absurd rfl (short x y m)
    have holds : ascending l = true := by
      match l, short with
      | [], _ => rfl
      | [_], _ => rfl
      | x :: y :: m, short => exact absurd rfl (short x y m)
    exact iff_of_true holds fun i hi => by omega

theorem ascending_range (f : Nat → Nat) (k : Nat) :
    ascending ((List.range (k + 1)).map f) = true ↔ ∀ i, i < k → f i < f (i + 1) := by
  rw [ascending_iff, List.length_map, List.length_range]
  refine forall_congr' fun i => ⟨fun h hi => ?_, fun h hi => ?_⟩
  · have := h (by omega)
    simpa [List.getD_eq_getElem?_getD, List.getElem?_range, hi, Nat.lt_succ_of_lt hi] using this
  · have lt : i < k := by omega
    simpa [List.getD_eq_getElem?_getD, List.getElem?_range, lt, Nat.lt_succ_of_lt lt] using h lt

theorem inRange_iff (lo hi x : Nat) : inRange lo hi x = true ↔ lo ≤ x ∧ x ≤ hi := by
  simp [inRange]

/-- The ranges of a TOWER section's fields (R142, R174). -/
def towerRanges (taken : Byte → Bool) (n : Nat → Nat) (k : Nat) : Prop :=
  (1 ≤ n 0 ∧ n 0 ≤ 15 ∧ taken (BitVec.ofNat 8 (n 0)) = false) ∧ (8 ≤ k ∧ k ≤ 48)
    ∧ (64 ≤ n 2 ∧ n 2 ≤ 8192 ∧ n 2 % 4 = 0) ∧ (∀ i, i < k → n (3 + i) < n (4 + i)) ∧ n (3 + k) < n 2
    ∧ (100 ≤ n (k + 4) ∧ n (k + 4) ≤ 1000) ∧ n (k + 5) ≤ 15 ∧ n (k + 6) ≤ 1 ∧ n (k + 7) ≤ 15
    ∧ n (k + 8) ≤ 4000 ∧ (1 ≤ n (k + 9) ∧ n (k + 9) ≤ 2000) ∧ n (k + 10) ≤ 1000
    ∧ (1 ≤ n (k + 11) ∧ n (k + 11) ≤ 50) ∧ (1 ≤ n (k + 12) ∧ n (k + 12) ≤ 200)
    ∧ (10 ≤ n (k + 13) ∧ n (k + 13) ≤ 500) ∧ n (k + 14) ≤ 1000

/-- The ranges of a TOWER section's fields, as they are computed. -/
def towerInRange (taken : Byte → Bool) (n : Nat → Nat) (k : Nat) : Bool :=
  inRange 1 15 (n 0) && !taken (BitVec.ofNat 8 (n 0)) && inRange 8 48 k && inRange 64 8192 (n 2)
    && decide (n 2 % 4 = 0) && ascending ((List.range (k + 1)).map (fun i => n (3 + i))) && decide (n (3 + k) < n 2)
    && inRange 100 1000 (n (k + 4)) && decide (n (k + 5) ≤ 15) && decide (n (k + 6) ≤ 1) && decide (n (k + 7) ≤ 15)
    && decide (n (k + 8) ≤ 4000) && inRange 1 2000 (n (k + 9)) && decide (n (k + 10) ≤ 1000)
    && inRange 1 50 (n (k + 11)) && inRange 1 200 (n (k + 12)) && inRange 10 500 (n (k + 13))
    && decide (n (k + 14) ≤ 1000)

/-- The configuration that a TOWER section's fields give (12.6). -/
def towerFields (n : Nat → Nat) (k : Nat) : TowerCfg where
  address := BitVec.ofNat 8 (n 0)
  geometry := ⟨n 2, k, (List.range (k + 1)).map (fun i => n (3 + i))⟩
  key := ⟨k, n (k + 4), Fin.ofNat 16 (n (k + 5)), decide (n (k + 6) = 1), Fin.ofNat 16 (n (k + 7))⟩
  loop := ⟨n (k + 8), n (k + 9), n (k + 10), n (k + 11), n (k + 12), n (k + 13), n (k + 14)⟩

theorem towerOf_spec (taken : Byte → Bool) (ws : List Half) :
    (towerRanges taken (contentNat ws) (contentNat ws 1) →
      towerOf taken ws = some (towerFields (contentNat ws) (contentNat ws 1)))
      ∧ (¬towerRanges taken (contentNat ws) (contentNat ws 1) → towerOf taken ws = none) := by
  generalize hn : contentNat ws = n
  generalize hk : n 1 = k
  have ascends : ascending ((List.range (k + 1)).map (fun i => n (3 + i))) = true
      ↔ ∀ i, i < k → n (3 + i) < n (4 + i) := by
    rw [ascending_range]
    refine forall_congr' fun i => forall_congr' fun _ => ?_
    rw [show 3 + (i + 1) = 4 + i by omega]
  have ranges : towerInRange taken n k = true ↔ towerRanges taken n k := by
    simp only [towerInRange, Bool.and_eq_true, inRange_iff, decide_eq_true_eq, ascends, Bool.not_eq_true', towerRanges, and_assoc]
  have judged : towerOf taken ws = if towerInRange taken n k then some (towerFields n k) else none := by
    rw [← hk, ← hn]
    rfl
  rw [judged]
  exact ⟨fun h => if_pos (ranges.2 h), fun h => if_neg fun b => h (ranges.1 b)⟩

theorem towerFields_iff (n : Nat → Nat) (k : Nat) (c : TowerCfg) (low : n (k + 5) ≤ 15) (high : n (k + 7) ≤ 15) :
    towerFields n k = c
      ↔ c.address = BitVec.ofNat 8 (n 0) ∧ c.geometry = ⟨n 2, k, (List.range (k + 1)).map (fun i => n (3 + i))⟩
        ∧ c.key.k = k ∧ c.key.omax = n (k + 4) ∧ c.key.defaultCurve.val = n (k + 5)
        ∧ c.key.fountain = decide (n (k + 6) = 1) ∧ c.key.fountainCurve.val = n (k + 7)
        ∧ c.loop = ⟨n (k + 8), n (k + 9), n (k + 10), n (k + 11), n (k + 12), n (k + 13), n (k + 14)⟩ := by
  have five : (Fin.ofNat 16 (n (k + 5))).val = n (k + 5) := Nat.mod_eq_of_lt (by omega)
  have seven : (Fin.ofNat 16 (n (k + 7))).val = n (k + 7) := Nat.mod_eq_of_lt (by omega)
  constructor
  · rintro rfl
    exact ⟨rfl, rfl, rfl, rfl, five, rfl, seven, rfl⟩
  · obtain ⟨address, geometry, ⟨keys, omax, curve, fountain, other⟩, loop⟩ := c
    rintro ⟨h1, h2, h3, h4, h5, h6, h7, h8⟩
    dsimp only at h1 h2 h3 h4 h5 h6 h7 h8
    have curve5 : Fin.ofNat 16 (n (k + 5)) = curve := Fin.ext (five.trans h5.symm)
    have curve7 : Fin.ofNat 16 (n (k + 7)) = other := Fin.ext (seven.trans h7.symm)
    rw [towerFields, curve5, curve7, h1, h2, h3, h4, h6, h8]

theorem towerOf_iff (taken : Byte → Bool) (ws : List Half) (c : TowerCfg) (n : Nat → Nat) (k : Nat)
    (hn : ∀ i, n i = (ws.getD i 0).toNat) (hk : k = n 1) :
    towerOf taken ws = some c ↔
      (1 ≤ n 0 ∧ n 0 ≤ 15 ∧ taken (BitVec.ofNat 8 (n 0)) = false) ∧ (8 ≤ k ∧ k ≤ 48)
        ∧ (64 ≤ n 2 ∧ n 2 ≤ 8192 ∧ n 2 % 4 = 0) ∧ (∀ i, i < k → n (3 + i) < n (4 + i)) ∧ n (3 + k) < n 2
        ∧ (100 ≤ n (k + 4) ∧ n (k + 4) ≤ 1000) ∧ n (k + 5) ≤ 15 ∧ n (k + 6) ≤ 1 ∧ n (k + 7) ≤ 15
        ∧ n (k + 8) ≤ 4000 ∧ (1 ≤ n (k + 9) ∧ n (k + 9) ≤ 2000) ∧ n (k + 10) ≤ 1000
        ∧ (1 ≤ n (k + 11) ∧ n (k + 11) ≤ 50) ∧ (1 ≤ n (k + 12) ∧ n (k + 12) ≤ 200)
        ∧ (10 ≤ n (k + 13) ∧ n (k + 13) ≤ 500) ∧ n (k + 14) ≤ 1000
        ∧ c.address = BitVec.ofNat 8 (n 0) ∧ c.geometry = ⟨n 2, k, (List.range (k + 1)).map (fun i => n (3 + i))⟩
        ∧ c.key.k = k ∧ c.key.omax = n (k + 4) ∧ c.key.defaultCurve.val = n (k + 5)
        ∧ c.key.fountain = decide (n (k + 6) = 1) ∧ c.key.fountainCurve.val = n (k + 7)
        ∧ c.loop = ⟨n (k + 8), n (k + 9), n (k + 10), n (k + 11), n (k + 12), n (k + 13), n (k + 14)⟩ := by
  have words : contentNat ws = n := funext fun i => (hn i).symm
  obtain ⟨inside, outside⟩ := towerOf_spec taken ws
  rw [words, ← hk] at inside outside
  by_cases ranges : towerRanges taken n k
  · have fields := towerFields_iff n k c ranges.2.2.2.2.2.2.1 ranges.2.2.2.2.2.2.2.2.1
    rw [inside ranges, Option.some.injEq, fields]
    unfold towerRanges at ranges
    obtain ⟨a, b, d, e, f, g, h, i, j, l, m, o, p, q, r, t⟩ := ranges
    exact ⟨fun y => ⟨a, b, d, e, f, g, h, i, j, l, m, o, p, q, r, t, y⟩,
      fun ⟨_, _, _, _, _, _, _, _, _, _, _, _, _, _, _, _, y⟩ => y⟩
  · rw [outside ranges]
    refine iff_of_false (fun h => nomatch h) fun y => ranges ?_
    obtain ⟨a, b, d, e, f, g, h, i, j, l, m, o, p, q, r, t, -⟩ := y
    exact ⟨a, b, d, e, f, g, h, i, j, l, m, o, p, q, r, t⟩

/-- Settles O60: framing and lengths, then each kind's fields and checks. -/
theorem configurationSectionsAreRead : Obligations.ConfigurationSectionsAreRead := by
  refine ⟨fun h image kind p len ws hp hlen hws => ?_, fun len ws => ?_, globalOf_iff, checkEntry_spec, windowsOf_spec,
    fun ws c pts hpts => ?_, fun ws valid => ?_, towerOf_iff, fun ws n hn => ?_⟩
  · have judged := readSection_eq h image kind
    dsimp only at judged
    rw [Header.pointer, ← hp, ← hlen, ← hws] at judged
    refine ⟨fun z => judged.trans (if_pos z), fun z bad => ?_, fun z above below allowed sum => ?_⟩
    · rw [judged, if_neg z, if_pos bad]
    · rw [judged, if_neg z, if_neg]
      rintro (k | k | k | k)
      · omega
      · omega
      · exact absurd (allowed.symm.trans k) (by decide)
      · exact k sum
  · obtain ⟨global, windows, curves, preload⟩ := lengthAllowed_fixed len ws
    exact ⟨global, windows, curves, preload, fun u => lengthAllowed_tower u len ws⟩
  · have same : curveOf ws c.val = pts := hpts.symm
    rw [curvesOf_get, same]
    refine ⟨rfl, fun bad => (curvesOf_bad ws).2 ⟨c.val, c.isLt, by rw [same]; exact bad⟩, ?_⟩
    have length : pts.length = 11 := by rw [← same, curveOf_length]
    rw [curveValid_iff, length]
    exact and_congr_right fun _ => forall_congr' fun i => imp_congr_left (by omega)
  · rw [Bool.eq_false_iff]
    intro bad
    obtain ⟨c, hc, invalid⟩ := (curvesOf_bad ws).1 bad
    exact absurd ((valid c hc).symm.trans invalid) (by decide)
  · simp only [preloadOf, wordAddr, pairAddr_eq, pairValue, hn, contentWord]

end Sys2Proof.Machine
end

section
/-! PROOFS. LIVE_READ: what the LIVE window shows. -/

namespace Sys2Proof.Machine

/-! ### The access -/

theorem State.decideAccess_live {s : State} {w : Window} {a : Access} (kind : w.kind = .live) (dir : a.dir = .read) :
    s.decideAccess w a = s.readLive w a := by
  rw [State.decideAccess, dir]
  exact if_pos kind

/-- An access answered on its arrival (R1): nothing else changes but the offer. -/
theorem State.settle_answeredNow (s : State) (cls : MasterClass) (r : Response) :
    let t := State.settle s (s.respond cls r)
    t.bus.get cls = none ∧ t.lastResponse.get cls = some r ∧ s.sameOthers cls t ∧ s.sameMemory t ∧ s.sameControl t
      ∧ s.sameSetup t ∧ s.sameBlocks t ∧ s.sameSettings t ∧ s.sameEvents t := by
  have bus : ∀ d, (State.settle s (s.respond cls r)).bus.get d = if d = cls then none else s.bus.get d := fun d => by
    simp [State.respond]
  have response : ∀ d, (State.settle s (s.respond cls r)).lastResponse.get d
      = if d = cls then some r else s.lastResponse.get d := fun d => by
    simp [State.respond]
  have towers : State.settle s (s.respond cls r) = (s.respond cls r).offerChannel := State.settle_of_towers rfl
  refine ⟨(bus cls).trans (if_pos rfl), (response cls).trans (if_pos rfl),
    fun d hd => ⟨(bus d).trans (if_neg hd), (response d).trans (if_neg hd)⟩, fun a => by simp [State.respond],
    State.settle_sameControl rfl rfl rfl rfl rfl, ⟨by simp [State.respond], by simp [State.respond],
      by simp [State.respond], by simp [State.respond], by simp [State.respond]⟩,
    ⟨by simp [State.respond], ?_, by simp [State.respond], by simp [State.respond], by simp [State.respond]⟩,
    ⟨by simp [State.respond], by simp [State.respond], by simp [State.respond], by simp [State.respond],
      by simp [State.respond]⟩,
    ⟨by simp [State.respond], by simp [State.respond], by simp [State.respond], by simp [State.respond]⟩⟩
  rw [towers]
  exact ⟨by simp [State.respond], by simp [State.respond]⟩

/-! ### Fields of a word -/

theorem extract_word (n : Nat) {bit len : Nat} (h : bit + len ≤ 32) :
    (BitVec.ofNat 32 n).extractLsb' bit len = BitVec.ofNat len (n / 2 ^ bit) :=
  BitVec.eq_of_toNat_eq (by rw [toNat_extract_ofNat n bit len h, BitVec.toNat_ofNat])

theorem getLsbD_word (n : Nat) {i : Nat} (h : i < 32) :
    (BitVec.ofNat 32 n).getLsbD i = decide (n / 2 ^ i % 2 = 1) := by
  rw [BitVec.getLsbD_ofNat, Nat.testBit_eq_decide_div_mod_eq]
  simp [h]

theorem ofNat_halves (low high : Nat) :
    BitVec.ofNat 32 (field 0 16 low + field 16 16 high) = BitVec.ofNat 16 high ++ BitVec.ofNat 16 low := by
  apply BitVec.eq_of_toNat_eq
  rw [toNat_append_arith]
  simp only [field, BitVec.toNat_ofNat]
  omega

theorem ofNat_signed (i : Int) : BitVec.ofNat 32 (field 0 16 (signedField i)) = (0 : Half) ++ BitVec.ofInt 16 i := by
  apply BitVec.eq_of_toNat_eq
  rw [toNat_append_arith, signedField]
  have := (BitVec.ofInt 16 i).isLt
  have zero : (0 : Half).toNat = 0 := rfl
  simp only [field, BitVec.toNat_ofNat, zero]
  omega

/-! ### The areas of the LIVE window -/

theorem State.liveWord_area (s : State) (t : Tower) {o : Nat} (h : o < 1024) :
    s.liveWord (1024 * t.val + o) = BitVec.ofNat 32 (s.areaWord t o) := by
  have tower : areaTower (1024 * t.val + o) = some t := by
    rw [areaTower, dif_pos (by omega)]
    exact congrArg some (Fin.ext (show (1024 * t.val + o) / 1024 = t.val by omega))
  rw [State.liveWord, tower, show (1024 * t.val + o) % 1024 = o by omega]

theorem State.liveWord_beyond (s : State) {o : Nat} (h : 12 * 1024 ≤ o) : s.liveWord o = 0 := by
  rw [State.liveWord, areaTower, dif_neg (by omega)]

theorem State.areaWord_unconfigured (s : State) (t : Tower) (h : s.towers[t].service = .unconfigured) (o : Nat) :
    s.areaWord t o = 0 := by
  have off : s.towers[t].configured = false := by rw [TowerState.configured, h]; rfl
  unfold State.areaWord
  dsimp only
  rw [off, if_neg Bool.false_ne_true, h]
  split <;> rfl

/-- The word of a tower area beside its summary (R13). -/
theorem State.areaWord_slot (s : State) (t : Tower) {o : Nat} (h : o ≠ 1000 ∧ o ≠ 1004) :
    s.areaWord t o = if s.towers[t].configured then s.slotWord t o else 0 := by
  unfold State.areaWord
  dsimp only
  rw [if_neg h.1, if_neg h.2, if_neg h.1]

theorem slotOfNat_val (sl : Slot) : slotOfNat sl.val = some sl := dif_pos sl.isLt

theorem State.slotWord_view (s : State) (t : Tower) (sl : Slot) {j : Nat} (h : j < 3) :
    s.slotWord t (12 * sl.val + 4 * j) = if s.towers[t].present sl then (s.towers[t].recs[sl]).viewWord j else 0 := by
  have slot : slotOfNat ((12 * sl.val + 4 * j) / 12) = some sl := by
    rw [show (12 * sl.val + 4 * j) / 12 = sl.val by omega]
    exact slotOfNat_val sl
  unfold State.slotWord
  dsimp only
  rw [if_pos (by omega), slot, show (12 * sl.val + 4 * j) % 12 / 4 = j by omega]

theorem State.slotWord_coverage (s : State) (t : Tower) (sl : Slot) :
    s.slotWord t (600 + 4 * sl.val) = if s.towers[t].present sl
      then field 0 16 (s.coverage.read (s.coverage.role false) t sl)
        + field 16 16 (s.coverage.read (s.coverage.role true) t sl) else 0 := by
  have slot : slotOfNat ((600 + 4 * sl.val - 600) / 4) = some sl := by
    rw [show (600 + 4 * sl.val - 600) / 4 = sl.val by omega]
    exact slotOfNat_val sl
  unfold State.slotWord
  dsimp only
  rw [if_neg (by omega), if_pos (by omega), slot]

theorem State.slotWord_trim (s : State) (t : Tower) (sl : Slot) :
    s.slotWord t (800 + 4 * sl.val) = if s.towers[t].present sl
      then field 0 16 (signedField (s.towers[t].recs[sl]).trim) else 0 := by
  have slot : trimSlot (800 + 4 * sl.val) = some sl := by
    rw [trimSlot, if_pos (by omega), show (800 + 4 * sl.val - 800) / 4 = sl.val by omega]
    exact slotOfNat_val sl
  unfold State.slotWord
  dsimp only
  rw [if_neg (by omega), if_neg (by omega), slot]

/-- The words of an area that hold no field (12.4). -/
theorem State.slotWord_gap (s : State) (t : Tower) {o : Nat}
    (h : (588 ≤ o ∧ o < 600) ∨ (796 ≤ o ∧ o < 800) ∨ (996 ≤ o ∧ o < 1000) ∨ (1008 ≤ o ∧ o < 1024)) :
    s.slotWord t o = 0 := by
  have none : trimSlot o = none := by
    rw [trimSlot]
    split
    · exact dif_neg (by omega)
    · rfl
  unfold State.slotWord
  dsimp only
  rw [if_neg (by omega), if_neg (by omega), none]

/-! ### Keys -/

/-- What the key words of a present slot show (R13, 12.4). -/
theorem State.liveWord_key (s : State) (t : Tower) (sl : Slot) (on : s.towers[t].configured = true)
    (present : s.towers[t].present sl = true) :
    (∀ j, j < 3 → s.liveWord (1024 * t.val + (12 * sl.val + 4 * j))
      = BitVec.ofNat 32 ((s.towers[t].recs[sl]).viewWord j))
      ∧ s.liveWord (1024 * t.val + (600 + 4 * sl.val))
        = BitVec.ofNat 16 (s.coverage.read (s.coverage.role true) t sl)
          ++ BitVec.ofNat 16 (s.coverage.read (s.coverage.role false) t sl)
      ∧ s.liveWord (1024 * t.val + (800 + 4 * sl.val)) = (0 : Half) ++ BitVec.ofInt 16 (s.towers[t].recs[sl]).trim := by
  refine ⟨fun j hj => ?_, ?_, ?_⟩
  · rw [s.liveWord_area t (by omega), s.areaWord_slot t (by omega), if_pos on, s.slotWord_view t sl hj, if_pos present]
  · rw [s.liveWord_area t (by omega), s.areaWord_slot t (by omega), if_pos on, s.slotWord_coverage, if_pos present,
      ofNat_halves]
  · rw [s.liveWord_area t (by omega), s.areaWord_slot t (by omega), if_pos on, s.slotWord_trim, if_pos present,
      ofNat_signed]

/-- The words of a slot that is not present show 0 (R13). -/
theorem State.liveWord_absent (s : State) (t : Tower) (sl : Slot) (absent : s.towers[t].present sl = false) :
    (∀ j, j < 3 → s.liveWord (1024 * t.val + (12 * sl.val + 4 * j)) = 0)
      ∧ s.liveWord (1024 * t.val + (600 + 4 * sl.val)) = 0 ∧ s.liveWord (1024 * t.val + (800 + 4 * sl.val)) = 0 := by
  have off : ¬(s.towers[t].present sl = true) := by rw [absent]; exact Bool.false_ne_true
  refine ⟨fun j hj => ?_, ?_, ?_⟩
  · rw [s.liveWord_area t (by omega), s.areaWord_slot t (by omega), s.slotWord_view t sl hj, if_neg off, ite_self]
    rfl
  · rw [s.liveWord_area t (by omega), s.areaWord_slot t (by omega), s.slotWord_coverage, if_neg off, ite_self]
    rfl
  · rw [s.liveWord_area t (by omega), s.areaWord_slot t (by omega), s.slotWord_trim, if_neg off, ite_self]
    rfl

theorem moveCode_lt (m : MoveState) : moveCode m < 8 := by cases m <;> decide

theorem keyFaultCode_lt (f : Option KeyFault) : keyFaultCode f < 4 := by
  rcases f with _ | _ | _ <;> decide

/-- The fields of a key's third word (12.4). -/
theorem viewWord_fields (r : KeyRec) :
    r.viewWord 2 / 2 ^ 0 % 2 ^ 16 = signedField r.correction ∧ r.viewWord 2 / 2 ^ 16 % 2 ^ 3 = moveCode r.move
      ∧ r.viewWord 2 / 2 ^ 19 % 2 ^ 2 = keyFaultCode r.fault ∧ r.viewWord 2 / 2 ^ 21 % 2 = bit r.hold
      ∧ r.viewWord 2 / 2 ^ 22 % 2 = bit r.ramp.isSome ∧ r.viewWord 2 / 2 ^ 23 = 0 := by
  have word : r.viewWord 2 = field 0 16 (signedField r.correction) + field 16 3 (moveCode r.move)
      + field 19 2 (keyFaultCode r.fault) + field 21 1 (bit r.hold) + field 22 1 (bit r.ramp.isSome) := rfl
  have correction : signedField r.correction < 65536 := (BitVec.ofInt 16 r.correction).isLt
  have move := moveCode_lt r.move
  have fault := keyFaultCode_lt r.fault
  have hold := bit_le r.hold
  have ramp := bit_le r.ramp.isSome
  rw [word]
  generalize signedField r.correction = a at *
  generalize moveCode r.move = b at *
  generalize keyFaultCode r.fault = c at *
  generalize bit r.hold = d at *
  generalize bit r.ramp.isSome = e at *
  clear word
  simp only [field]
  omega

theorem ofNat_mod (len n : Nat) : BitVec.ofNat len n = BitVec.ofNat len (n % 2 ^ len) :=
  BitVec.eq_of_toNat_eq (by simp)

theorem extract_field {n v bit len : Nat} (h : bit + len ≤ 32) (value : n / 2 ^ bit % 2 ^ len = v) :
    (BitVec.ofNat 32 n).extractLsb' bit len = BitVec.ofNat len v := by
  rw [extract_word n h, ofNat_mod, value]

theorem getLsbD_bit {n i : Nat} {b : Bool} (h : i < 32) (value : n / 2 ^ i % 2 = bit b) :
    (BitVec.ofNat 32 n).getLsbD i = b := by
  rw [getLsbD_word n h, value]
  cases b <;> rfl

/-- A key's third word: correction, move state, fault, hold and ramp (12.4). -/
theorem State.thirdWord (r : KeyRec) (w : Word) (hw : w = BitVec.ofNat 32 (r.viewWord 2)) :
    w.extractLsb' 0 16 = BitVec.ofInt 16 r.correction
      ∧ w.extractLsb' 16 3 = (match r.move with
          | .idle => 0
          | .queued => 1
          | .inFlight => 2
          | .retarget => 3
          | .fault => 4)
      ∧ w.extractLsb' 19 2 = (match r.fault with
          | none => 0
          | some .stall => 1
          | some .timeout => 2)
      ∧ w.getLsbD 21 = r.hold ∧ w.getLsbD 22 = r.ramp.isSome ∧ w.extractLsb' 23 9 = 0 := by
  obtain ⟨correction, move, fault, hold, ramp, rest⟩ := viewWord_fields r
  subst hw
  refine ⟨?_, ?_, ?_, getLsbD_bit (by omega) hold, getLsbD_bit (by omega) ramp, ?_⟩
  · rw [extract_field (by omega) correction, signedField, BitVec.ofNat_toNat, BitVec.setWidth_eq]
  · rw [extract_field (by omega) move]
    cases r.move <;> rfl
  · rw [extract_field (by omega) fault]
    rcases r.fault with _ | _ | _ <;> rfl
  · rw [extract_word _ (by omega), rest]
    rfl

/-! ### The summary of a tower -/

theorem State.liveWord_summary (s : State) (t : Tower) (on : s.towers[t].configured = true) :
    s.liveWord (1024 * t.val + 1000) = BitVec.ofNat 32 s.towers[t].summary1
      ∧ s.liveWord (1024 * t.val + 1004) = BitVec.ofNat 32 s.towers[t].summary2 := by
  rw [s.liveWord_area t (by omega), s.liveWord_area t (by omega)]
  unfold State.areaWord
  dsimp only
  rw [if_pos on, if_pos on]
  exact ⟨rfl, rfl⟩

theorem summary1_fields (tw : TowerState) :
    tw.summary1 / 2 ^ 0 % 2 ^ 3 = serviceCode tw.service ∧ tw.summary1 / 2 ^ 3 % 2 = bit tw.parkHold
      ∧ tw.summary1 / 2 ^ 4 % 2 ^ 2 = loopCode tw.loop ∧ tw.summary1 / 2 ^ 8 % 2 ^ 6 = tw.queue.length % 2 ^ 6
      ∧ tw.summary1 / 2 ^ 6 % 2 ^ 2 = 0 ∧ tw.summary1 / 2 ^ 14 = 0 := by
  have service := serviceCode_lt tw.service
  have park := bit_le tw.parkHold
  have loop := loopCode_lt tw.loop
  unfold TowerState.summary1
  generalize serviceCode tw.service = a at *
  generalize bit tw.parkHold = b at *
  generalize loopCode tw.loop = c at *
  generalize tw.queue.length = d at *
  simp only [field]
  omega

theorem summary2_fields (tw : TowerState) :
    tw.summary2 / 2 ^ 0 % 2 ^ 6 = tw.flight.length % 2 ^ 6 ∧ tw.summary2 / 2 ^ 8 % 2 ^ 6 = tw.unknownCount % 2 ^ 6
      ∧ tw.summary2 / 2 ^ 16 % 2 ^ 6 = tw.faultCount % 2 ^ 6 ∧ tw.summary2 / 2 ^ 6 % 2 ^ 2 = 0
      ∧ tw.summary2 / 2 ^ 14 % 2 ^ 2 = 0 ∧ tw.summary2 / 2 ^ 22 = 0 := by
  unfold TowerState.summary2
  generalize tw.flight.length = a
  generalize tw.unknownCount = b
  generalize tw.faultCount = c
  simp only [field]
  omega

/-! ### The coverage of a slot -/

theorem Coverage.read_unavailable {c : Coverage} {bk : BankId} {t : Tower} (sl : Slot)
    (h : c.geometry[t] = none ∨ (c.frame bk t).fit = false
      ∨ ((c.banks.get bk).state ≠ .opened ∧ (c.banks.get bk).state ≠ .locked)) : c.read bk t sl = 65535 := by
  unfold Coverage.read
  split
  · rfl
  · next g hg =>
    have closed : c.available bk t = false := by
      rcases h with h | h | ⟨opened, locked⟩
      · exact nomatch hg.symm.trans h
      · simp [Coverage.available, h]
      · simp [Coverage.available, opened, locked]
    rw [closed]
    rfl

theorem Coverage.read_available {c : Coverage} {bk : BankId} {t : Tower} (sl : Slot) {g : Geometry} {r : CoverRange}
    (geometry : c.geometry[t] = some g) (range : c.range = some r) (fit : (c.frame bk t).fit = true)
    (state : (c.banks.get bk).state = .opened ∨ (c.banks.get bk).state = .locked) :
    c.read bk t sl = slotCoverage g (r.size / 32) (c.frame bk t) sl := by
  have opened : c.available bk t = true := by
    rw [Coverage.available, geometry, fit]
    simpa using state
  have size : c.frameSize = r.size / 32 := by rw [Coverage.frameSize, range]; rfl
  rw [Coverage.read, geometry, ← size]
  exact if_pos opened

theorem perMille_nat (n area : Nat) : perMille n area = if area = 0 then 0 else n * 1000 / (area * 255) := by
  unfold perMille
  split
  · rfl
  · have scaled : (n : Int) * 1000 = ((n * 1000 : Nat) : Int) := (Int.natCast_mul n 1000).symm
    rw [scaled, ← Int.ofNat_tdiv, Int.toNat_natCast]

/-- The sums of the keys of a list, as a sum over the whole list (R24). -/
theorem sum_filter {α : Type} (p : α → Bool) (f : α → Int) (l : List α) :
    ((l.filter p).map f).sum = (l.map (fun x => if p x then f x else 0)).sum := by
  induction l with
  | nil => rfl
  | cons x l ih =>
    by_cases h : p x
    · simp [h, ih]
    · simp [h, ih]

theorem sum_map_zero {α : Type} {f : α → Int} {l : List α} (h : ∀ x ∈ l, f x = 0) : (l.map f).sum = 0 := by
  induction l with
  | nil => rfl
  | cons x l ih =>
    rw [List.map_cons, List.sum_cons, h x List.mem_cons_self, ih fun y hy => h y (List.mem_cons_of_mem _ hy)]
    rfl

theorem sum_map_single {α : Type} [DecidableEq α] (f : α → Int) (a : α) {l : List α} (nodup : l.Nodup) (ha : a ∈ l) :
    (l.map (fun x => if x = a then f x else 0)).sum = f a := by
  induction l with
  | nil => cases ha
  | cons x l ih =>
    obtain ⟨fresh, nodup⟩ := List.nodup_cons.1 nodup
    rw [List.map_cons, List.sum_cons]
    by_cases e : x = a
    · subst e
      rw [if_pos rfl, sum_map_zero fun y hy => if_neg fun same : y = x => fresh (same ▸ hy), Int.add_zero]
    · rw [if_neg e, Int.zero_add, ih nodup ((List.mem_cons.1 ha).resolve_left (Ne.symm e))]

theorem sum_map_add {α : Type} (f g : α → Int) (l : List α) :
    (l.map (fun x => f x + g x)).sum = (l.map f).sum + (l.map g).sum := by
  induction l with
  | nil => rfl
  | cons x l ih =>
    simp only [List.map_cons, List.sum_cons, ih]
    omega

/-- The sum of key m of a frame, as the one term of a sum over the keys. -/
theorem Frame.sum_eq (f : Frame) (m : Nat) :
    f.sum m = ((List.finRange 48).map (fun k => if k.val = m then f.sums[k] else 0)).sum := by
  unfold Frame.sum
  split
  · next h =>
    refine (sum_map_single (fun k => f.sums[k]) ⟨m, h⟩ (List.nodup_finRange 48) (List.mem_finRange _)).symm.trans ?_
    exact congrArg List.sum (List.map_congr_left fun k _ => ite_congr (propext Fin.ext_iff) (fun _ => rfl) fun _ => rfl)
  · next h => exact (sum_map_zero fun k _ => if_neg (by have := k.isLt; omega)).symm

theorem Frame.total_eq (f : Frame) (m : Nat) :
    f.total m = (((List.finRange 48).filter (fun k => decide (k.val < m))).map (fun k => f.sums[k])).sum := by
  rw [sum_filter]
  simp only [decide_eq_true_eq]
  induction m with
  | zero => exact (sum_map_zero fun k _ => if_neg (Nat.not_lt_zero _)).symm
  | succ m ih =>
    rw [Frame.total, ih, Frame.sum_eq, ← sum_map_add]
    refine congrArg List.sum (List.map_congr_left fun k _ => ?_)
    by_cases below : k.val < m
    · rw [if_pos below, if_neg (by omega), if_pos (by omega), Int.add_zero]
    · rw [if_neg below, Int.zero_add]
      exact ite_congr (propext (by omega)) (fun _ => rfl) fun _ => rfl

/-- Settles O15: the access, the words of keys, of gaps and of the summary, and the coverage of a slot. -/
theorem liveReadIsAnswered : Obligations.LiveReadIsAnswered := by
  refine ⟨fun s cls addr en w idle found kind => ?_, ⟨fun s t sl on present _ _ => ?_, fun s t sl absent => ?_,
    fun s t o gap => ?_, fun s o => s.liveWord_beyond⟩, fun s t sl on present => ?_, fun s t on => ?_,
    fun s t o off below => ?_, fun c bk t sl => ⟨c.read_unavailable sl, fun g r geometry range fit state => ?_⟩⟩
  · have arrives : s.arrive ⟨cls, addr, .read, en, 0⟩ = s.readLive w ⟨cls, addr, .read, en, 0⟩ :=
      (State.arrive_some idle found).trans (State.decideAccess_live kind rfl)
    obtain ⟨bus, response, rest⟩ := s.settle_answeredNow cls
      (readResponse en (if inMask w.matchMask cls then s.liveWord (wordAddr addr.toNat - w.base) else 0))
    exact ⟨_, congrArg (Host.Outcome.next ∘ State.settle s) arrives, bus, response, rest⟩
  · obtain ⟨views, -, trim⟩ := s.liveWord_key t sl on present
    refine ⟨(views 0 (by omega)).trans ((ofNat_halves _ _).trans ?_), by rw [Nat.add_assoc]; exact trim⟩
    cases (s.towers[t].recs[sl]).commanded <;> rfl
  · obtain ⟨views, coverage, trim⟩ := s.liveWord_absent t sl absent
    refine ⟨views 0 (by omega), ?_, ?_, ?_, ?_⟩
    · rw [Nat.add_assoc]; exact views 1 (by omega)
    · rw [Nat.add_assoc]; exact views 2 (by omega)
    · rw [Nat.add_assoc]; exact coverage
    · rw [Nat.add_assoc]; exact trim
  · rw [s.liveWord_area t (by omega), s.areaWord_slot t (by omega), s.slotWord_gap t gap, ite_self]
    rfl
  · obtain ⟨views, coverage, -⟩ := s.liveWord_key t sl on present
    refine ⟨?_, fun w hw => ?_, by rw [Nat.add_assoc]; exact coverage⟩
    · rw [Nat.add_assoc]
      refine (views 1 (by omega)).trans ((ofNat_halves _ _).trans ?_)
      cases (s.towers[t].recs[sl]).reported <;> rfl
    · rw [Nat.add_assoc] at hw
      exact State.thirdWord _ w (hw.trans (views 2 (by omega)))
  · obtain ⟨first, second⟩ := s.liveWord_summary t on
    refine ⟨fun w hw => ?_, fun w hw => ?_⟩
    · obtain ⟨service, park, loop, queue, gap, rest⟩ := summary1_fields s.towers[t]
      rw [hw, first]
      refine ⟨?_, getLsbD_bit (by omega) park, ?_, ?_, extract_field (by omega) gap, ?_⟩
      · rw [extract_field (by omega) service]
        cases s.towers[t].service <;> rfl
      · rw [extract_field (by omega) loop]
        cases s.towers[t].loop <;> rfl
      · rw [extract_field (by omega) queue, ← ofNat_mod]
      · rw [extract_word _ (by omega), rest]
        rfl
    · obtain ⟨flight, unknown, fault, low, mid, rest⟩ := summary2_fields s.towers[t]
      rw [hw, second, ← TowerState.unknownCount_eq, ← TowerState.faultCount_eq]
      refine ⟨?_, ?_, ?_, extract_field (by omega) low, extract_field (by omega) mid, ?_⟩
      · rw [extract_field (by omega) flight, ← ofNat_mod]
      · rw [extract_field (by omega) unknown, ← ofNat_mod]
      · rw [extract_field (by omega) fault, ← ofNat_mod]
      · rw [extract_word _ (by omega), rest]
        rfl
  · rw [s.liveWord_area t below, s.areaWord_unconfigured t off]
    rfl
  · rw [Coverage.read_available sl geometry range fit state, slotCoverage]
    refine ⟨fun k n slot sum => ?_, fun n slot sum => ?_⟩
    · have key : sl ≠ fountainSlot := fun e => by
        rw [e] at slot
        have : (48 : Nat) = k.val := slot
        omega
      have keySum : (c.frame bk t).sum sl.val = n := by
        rw [Frame.sum, dif_pos (by omega), ← sum]
        exact getElem_congr_idx slot
      rw [if_neg key, keySum, slot, perMille_nat]
      rfl
    · have fountain : sl = fountainSlot := Fin.ext slot
      rw [if_pos fountain, Frame.total_eq, sum, perMille_nat]
      rfl

end Sys2Proof.Machine
end

section
/-! PROOFS. SLOT_READ completions: the gate of a measurement record and its application. -/

namespace Sys2Proof.Machine

/-! ### What an event's end leaves -/

/-- The settling after an event takes no word out of the mirror set. -/
theorem State.settle_keepsMirror (s0 : State) {s : State} {i : Nat} (h : s.control.mirror.getLsbD i = true) :
    (State.settle s0 s).control.mirror.getLsbD i = true := by
  have changed : ∀ (u : Tower) (old new : TowerState), (s.control.towerChanged u old new).mirror.getLsbD i = true :=
    fun u old new => by
      unfold Control.towerChanged
      (repeat' split)
      · exact h
      · exact Control.report_keepsMirror _ _ h
      · exact Control.report_keepsMirror _ _ (Control.report_keepsMirror _ _ h)
  have serve : ∀ u, (s.serve u).control.mirror.getLsbD i = true := fun u => by
    unfold State.serve
    dsimp only
    (repeat' split)
    · exact changed _ _ _
    · exact changed _ _ _
    · exact h
    · exact changed _ _ _
  have search : s.search.control.mirror.getLsbD i = true := by
    unfold State.search
    split
    · exact h
    · exact serve _
  rw [State.settle, (State.offerChannel_control _).2.2.2.2.2.2.2.2.2.1, State.searchIfChanged]
  split
  · exact search
  · exact h

/-- What the settling puts on the queue is no SLOT_READ. -/
theorem State.slotRead_of_settle {s0 s : State} {h : Fin 16} {a : Nat}
    (hm : IReq.slotRead h a ∈ (State.settle s0 s).port.queue) : IReq.slotRead h a ∈ s.port.queue := by
  have := State.slotRead_of_offerChannel hm
  rwa [(State.searchIfChanged_keeps s0 s).2.2.2.2.2.1] at this

/-- A firing puts no request on the queue but the fetch of the chain it starts (R134, R135). -/
theorem State.fire_queue (s : State) (k : Source) : (s.fire k).port.queue = s.port.queue
    ∨ s.engine.state = .idle ∧ (s.fire k).engine.state = .fetching
      ∧ (s.fire k).port.queue = s.port.queue ++ [.orderRead (s.fire k).engine.recordAddr] := by
  by_cases armed : (s.engine.bindings.get k).armed = true
  · by_cases pending : (s.engine.bindings.get k).pending = true
    · rw [State.fire_merged armed pending]
      exact .inl rfl
    · have pending := Bool.not_eq_true _ ▸ pending
      by_cases idle : s.engine.state = .idle
      · rw [State.fire_serves armed pending idle]
        generalize hx : s.putEngine (s.engine.pend k) = x
        have queue : x.port.queue = s.port.queue := by rw [← hx]; rfl
        have waits : (x.engine.bindings.get k).pending = true := by
          rw [← hx]
          show ((s.engine.pend k).bindings.get k).pending = true
          rw [Engine.pend, Engine.modBinding_get, if_pos rfl]
        cases hf : startOrder.find? x.engine.waits with
        | none => exact absurd (((Engine.noneWaits_iff _).1 hf).1 k) (by rw [waits]; decide)
        | some r =>
          refine .inr ⟨idle, ?_⟩
          rw [← queue]
          cases r with
          | binding j =>
            rw [State.serveStarts_binding hf]
            exact ⟨rfl, rfl⟩
          | slot =>
            rw [State.serveStarts_slot hf]
            exact ⟨rfl, rfl⟩
      · rw [State.fire_waits armed pending idle]
        exact .inl rfl
  · rw [State.fire_disarmed (Bool.not_eq_true _ ▸ armed)]
    exact .inl rfl

/-! ### The gate -/

/-- What the gate changes of the state it is given, whether it drops the record or applies it (R149 to R152). -/
structure State.Gated (z t : State) : Prop where
  shape : t = { z with
    towers := t.towers, engine := t.engine, control := t.control, port := { z.port with queue := t.port.queue }
    loop := { z.loop with status := t.loop.status } }
  settings : z.sameSettings t
  flags : z.keepsFlags t
  reported : z.control.part = .running → t.control.mirror.getLsbD 7 = true
  queue : t.port.queue = z.port.queue ∨ z.engine.state = .idle ∧ t.engine.state = .fetching
    ∧ t.port.queue = z.port.queue ++ [.orderRead t.engine.recordAddr]

theorem Control.report_self {c : Control} (h : c.part = .running) (w : CtlWord) :
    (c.report w).mirror.getLsbD w.val = true := by
  rw [Control.report_mirror]
  simp [h]

theorem State.dropRecord_gated (why : DropReason) (i : Fin 16) (tower : Option Byte) (z : State) :
    z.Gated (z.dropRecord why i tower) where
  shape := rfl
  settings := ⟨by simp [State.dropRecord], by simp [State.dropRecord], by simp [State.dropRecord],
    by simp [State.dropRecord], by simp [State.dropRecord]⟩
  flags := State.keepsFlags_trans (State.keepsFlags_raise (s := { z with
    loop := { z.loop with status := { z.loop.status with reason := why, slot := i, dropTower := tower } } })
      .measureDropped) (State.keepsFlags_of_eq (by simp [State.dropRecord]))
  reported h := Control.report_self (c := z.control.raise .measureDropped)
    (by simpa using ((z.raise_control .measureDropped).1).trans h) wordMeasure
  queue := .inl rfl

/-- A drop changes the status of the loop unit and raises its event. -/
theorem State.dropRecord_effect (why : DropReason) (i : Fin 16) (tower : Option Byte) (z : State) :
    (z.dropRecord why i tower).control.flags.getLsbD (flagBit .measureDropped) = true
      ∧ (z.dropRecord why i tower).loop.status
        = { z.loop.status with reason := why, slot := i, dropTower := tower }
      ∧ (z.dropRecord why i tower).towers = z.towers ∧ (z.dropRecord why i tower).engine = z.engine := by
  refine ⟨?_, rfl, rfl, rfl⟩
  rw [State.dropRecord, State.report_control .. |>.2.1]
  exact State.raise_flag _ _

/-- A record's towers, status and event, ahead of the firing of MEASURE. -/
def State.recorded (m : MeasureRec) (u : Tower) (z : State) : State :=
  (((z.correct m u).modTower u TowerState.settleAgain).setApplied u m.sheetTag).raise .measureApplied

theorem State.applyRecord_eq (m : MeasureRec) (u : Tower) (z : State) :
    z.applyRecord m u = (((z.recorded m u).fire .measure).report wordMeasure).report (wordTower u) := rfl

theorem State.recorded_shape (m : MeasureRec) (u : Tower) (z : State) : z.recorded m u = { z with
    towers := (z.recorded m u).towers, control := (z.recorded m u).control
    loop := { z.loop with status := { z.loop.status with applied := some u, sheetTag := m.sheetTag } } } := rfl

theorem State.recorded_settings (m : MeasureRec) (u : Tower) (z : State) : z.sameSettings (z.recorded m u)
    ∧ z.keepsFlags (z.recorded m u) ∧ (z.recorded m u).control.flags.getLsbD (flagBit .measureApplied) = true := by
  have moved : ((z.correct m u).modTower u TowerState.settleAgain).control.flags = z.control.flags := by
    simp [State.correct]
  refine ⟨⟨?_, ?_, ?_, ?_, ?_⟩, State.keepsFlags_trans (State.keepsFlags_of_eq moved) (State.keepsFlags_raise
    (((z.correct m u).modTower u TowerState.settleAgain).setApplied u m.sheetTag) .measureApplied), State.raise_flag _ _⟩
  all_goals simp [State.recorded, State.setApplied, State.correct]

theorem State.port_of_samePort {s t : State} (h : s.samePort t) : t.port = { s.port with queue := t.port.queue } := by
  obtain ⟨holder, pointer, passes, limit, -⟩ := h
  dsimp only
  rw [← holder, ← pointer, ← passes, ← limit]

theorem State.applyRecord_gated (m : MeasureRec) (u : Tower) (z : State) : z.Gated (z.applyRecord m u) := by
  obtain ⟨⟨part, enables, mode, addr, datum⟩, flags, -⟩ := State.recorded_settings m u z
  have shape := State.recorded_shape m u z
  have port : (z.recorded m u).port = z.port := by rw [shape]
  have engine : (z.recorded m u).engine = z.engine := by rw [shape]
  have queue := (z.recorded m u).fire_queue .measure
  rw [port, engine] at queue
  rw [State.applyRecord_eq]
  generalize z.recorded m u = y at *
  obtain ⟨fired, ⟨fpart, fenables, fmode, faddr, fdatum⟩, fflags, holder, pointer, passes, limit, grown⟩ := y.fire_shape .measure
  generalize y.fire .measure = x at *
  refine ⟨?_, ⟨by simp [fpart, part], by simp [fenables, enables], by simp [fmode, mode], by simp [faddr, addr],
    by simp [fdatum, datum]⟩, State.keepsFlags_trans flags (State.keepsFlags_trans fflags
      (State.keepsFlags_of_eq (by simp))), fun run => ?_, queue⟩
  · have xport := port ▸ State.port_of_samePort ⟨holder, pointer, passes, limit, grown⟩
    have xeq : x = { z with
        towers := x.towers, engine := x.engine, control := x.control, port := { z.port with queue := x.port.queue }
        loop := { z.loop with status := x.loop.status } } := by
      rw [← xport, fired, shape]
    show ({ x with control := _ } : State) = _
    rw [xeq]
    rfl
  · exact Control.report_keepsMirror _ _ (Control.report_self (fpart.trans (part.trans run)) wordMeasure)

theorem State.gate_gated (i : Fin 16) (m : Option MeasureRec) (z : State) : z.Gated (z.gate i m) := by
  unfold State.gate
  repeat' split
  · exact State.dropRecord_gated _ _ _ z
  · exact State.dropRecord_gated _ _ _ z
  · exact State.dropRecord_gated _ _ _ z
  · exact State.dropRecord_gated _ _ _ z
  · exact State.applyRecord_gated _ _ z

end Sys2Proof.Machine
end

section
/-! PROOFS. SLOT_READ completions: what follows the gate. -/

namespace Sys2Proof.Machine

/-! ### The completion -/

/-- The slot of a completed SLOT_READ is FREE and off the read list, and no read is under way (R146). -/
def State.slotTaken (i : Fin 16) (x : State) : State :=
  ({ x with loop := { x.loop with readList := x.loop.readList.drop 1, reading := false } } : State).setSlot i .free

theorem State.slotRead_eq (i : Fin 16) (m : Option MeasureRec) (x : State) :
    x.slotRead i m = (((x.slotTaken i).gate i m).forgetResets i).offerSlotRead := rfl

theorem State.exec_slotRead {s : State} {i : Fin 16} {adr : Nat} {ws : List PortWord}
    (h : s.holdsRequest (.slotRead i adr) ws) (errors : BitVec 31) : exec (.slotReadComplete errors) s
      = .next (State.settle s ((s.completed ws (readAnswers errors) false).slotRead i
          (if errors = 0 then some (measureRec (readData s.mem ws)) else none))) :=
  congrArg (fun x => Host.Outcome.next (State.settle s x)) (State.complete_eq h rfl (readAnswers errors)
    (State.slotDelivered errors s.mem))

theorem readAnswers_error {errors : BitVec 31} (h : errors ≠ 0) : ∃ x ∈ readAnswers errors, x ≠ .ok := by
  refine Classical.byContradiction fun none => h ?_
  have all : ∀ x ∈ readAnswers errors, x = .ok := fun x hx => Classical.byContradiction fun bad => none ⟨x, hx, bad⟩
  refine (BitVec.eq_of_getLsbD_eq fun i hi => ?_)
  have := all _ (List.mem_map.2 ⟨i, List.mem_range.2 hi, rfl⟩)
  cases hb : errors.getLsbD i with
  | false => simp
  | true => simp [hb] at this

/-- What a completed SLOT_READ comes to when its answers have been taken and the gate has judged its record: the slot is
off the list, and the next of the list is offered (R145, R146, R156). -/
theorem State.settle_slotRead {s x y t : State} {i : Fin 16} {m : Option MeasureRec}
    (hx : x = { s with mem := x.mem, port := { s.port with holder := none }, control := x.control })
    (settings : s.sameSettings x) (hy : (x.slotTaken i).gate i m = y) (ht : State.settle s (x.slotRead i m) = t) :
    t.port.holder = none ∧ t.loop.slots = s.loop.slots.set i .free
      ∧ t.loop.readList = s.loop.readList.drop 1 ∧ t.loop.overReset = s.loop.overReset.set i 0
      ∧ t.coverage = s.coverage ∧ s.sameSetup t
      ∧ t.lastResponse = s.lastResponse ∧ t.bus = s.bus ∧ t.loader = s.loader ∧ t.mem = x.mem
      ∧ (s.control.part = .running → t.control.mirror.getLsbD 7 = true)
      ∧ (∀ (h : Fin 16) (rest : List (Fin 16)) (b : Nat), s.loop.readList.drop 1 = h :: rest →
          windowBase .measure s.windows = some b →
          t.loop.reading = true
            ∧ (s.port.queue ++ [.slotRead h (b + 128 * h.val)] <+: t.port.queue
              ∨ s.engine.state = .idle ∧ t.engine.state = .fetching
                ∧ s.port.queue ++ [.orderRead t.engine.recordAddr, .slotRead h (b + 128 * h.val)] <+: t.port.queue))
      ∧ (s.loop.readList.drop 1 = [] ∨ windowBase .measure s.windows = none →
          t.loop.reading = false ∧ ∀ h a, IReq.slotRead h a ∈ t.port.queue → IReq.slotRead h a ∈ s.port.queue) := by
  obtain ⟨shape, ysettings, -, reported, queue⟩ := hy ▸ State.gate_gated i m (x.slotTaken i)
  have part : (x.slotTaken i).control.part = s.control.part := settings.1
  have engine : (x.slotTaken i).engine = s.engine := by rw [hx]; rfl
  have fields : (x.slotTaken i).port = { s.port with holder := none } ∧ (x.slotTaken i).loop = { s.loop with
      readList := s.loop.readList.drop 1, reading := false, slots := s.loop.slots.set i .free } := by
    rw [hx]
    exact ⟨rfl, rfl⟩
  obtain ⟨port, loop⟩ := fields
  rw [engine, port] at queue
  rw [loop, port] at shape
  generalize hw : y.forgetResets i = w
  have wloop : w.loop = { s.loop with readList := s.loop.readList.drop 1, reading := false
                                      slots := s.loop.slots.set i .free, overReset := s.loop.overReset.set i 0
                                      status := y.loop.status } := by rw [← hw, shape]; rfl
  have wkeeps : w.coverage = s.coverage ∧ w.windows = s.windows ∧ w.curves = s.curves ∧ w.timeout = s.timeout
      ∧ w.levels = s.levels ∧ w.pending = s.pending ∧ w.lastResponse = s.lastResponse ∧ w.bus = s.bus
      ∧ w.loader = s.loader ∧ w.mem = x.mem := by
    rw [← hw, shape, hx]
    exact ⟨rfl, rfl, rfl, rfl, rfl, rfl, rfl, rfl, rfl, rfl⟩
  have wport : w.port = y.port ∧ w.engine = y.engine ∧ w.control = y.control := by rw [← hw]; exact ⟨rfl, rfl, rfl⟩
  obtain ⟨coverage, windows, curves, timeout, levels, pending, response, bus, loader, mem⟩ := wkeeps
  obtain ⟨wport, wengine, wcontrol⟩ := wport
  have holder : y.port.holder = none := by rw [shape]
  have ht : State.settle s w.offerSlotRead = t := by rw [← ht, State.slotRead_eq, hy, hw]
  have offered := w.offerSlotRead_shape
  have port := State.samePort_settle s w.offerSlotRead
  rw [ht] at port
  have tloop : t.loop = { w.loop with reading := w.offerSlotRead.loop.reading } := by
    rw [← ht, State.settle_keeps .. |>.2.2.2.2.2.2.2.2.2.2.1, offered]
  have tengine : t.engine = y.engine := by rw [← ht, ← wengine]; simp
  refine ⟨?_, by rw [tloop, wloop], by rw [tloop, wloop], by rw [tloop, wloop], ?_, ⟨?_, ?_, ?_, ?_, ?_⟩, ?_, ?_, ?_, ?_,
    fun run => ?_, fun h rest b list base => ?_, fun none => ?_⟩
  · rw [port.1, offered]
    show w.port.holder = none
    rw [wport, holder]
  · rw [← ht]; simpa
  · rw [← ht]; simpa
  · rw [← ht]; simpa
  · rw [← ht]; simpa
  · rw [← ht]; simpa
  · rw [← ht]; simpa
  · rw [← ht]; simpa
  · rw [← ht]; simpa
  · rw [← ht]; simpa
  · rw [← ht]; simpa
  · rw [← ht]
    refine State.settle_keepsMirror s ?_
    rw [(w.offerSlotRead_keeps).2.2.2.2.2.2.2.2.2.2.2.2.1, wcontrol]
    exact reported (part.trans run)
  · have some := State.offerSlotRead_some (s := w) (by rw [wloop]) (by rw [wloop]; exact list) (by rw [windows]; exact base)
    have last := port.2.2.2.2
    rw [some] at last
    change w.port.queue ++ [IReq.slotRead h (b + 128 * h.val)] <+: t.port.queue at last
    refine ⟨by rw [tloop, some]; rfl, ?_⟩
    rw [wport] at last
    rcases queue with same | ⟨idle, fetching, fetched⟩
    · rw [same] at last
      exact .inl last
    · rw [fetched, List.append_assoc] at last
      rw [tengine]
      exact .inr ⟨idle, fetching, last⟩
  · have still := State.offerSlotRead_none (s := w) (.inr (by rw [wloop, windows]; exact none))
    rw [still] at tloop ht
    refine ⟨by rw [tloop, wloop], fun h a hm => ?_⟩
    rw [← ht] at hm
    have hm := State.slotRead_of_settle hm
    rw [wport] at hm
    rcases queue with same | ⟨-, -, fetched⟩
    · rwa [same] at hm
    · rw [fetched] at hm
      simpa using hm

end Sys2Proof.Machine
end

section
/-! PROOFS. SLOT_READ completions: what the gate answers, and the corrections it applies. -/

namespace Sys2Proof.Machine

/-! ### What the gate leaves to the end of the event -/

/-- What a completed SLOT_READ shows of what the gate has done. -/
theorem State.settle_slotRead_gate {s x y t : State} {i : Fin 16} {m : Option MeasureRec}
    (hx : x = { s with mem := x.mem, port := { s.port with holder := none }, control := x.control })
    (hy : (x.slotTaken i).gate i m = y) (ht : State.settle s (x.slotRead i m) = t) :
    t.engine = y.engine ∧ t.loop.status = y.loop.status ∧ t.control.flags = y.control.flags
      ∧ (y.towers = s.towers → s.sameTowers t)
      ∧ (∀ u : Tower, (y.towers[u]).sameUnder t.towers[u])
      ∧ (s.link.tx ≠ .idle → t.towers = y.towers)
      ∧ y.port.queue <+: t.port.queue
      ∧ ∀ v : CtlWord, y.control.mirror.getLsbD v.val = true → t.control.mirror.getLsbD v.val = true := by
  obtain ⟨shape, -⟩ := hy ▸ State.gate_gated i m (x.slotTaken i)
  generalize hw : (y.forgetResets i).offerSlotRead = w
  have ht : State.settle s w = t := by rw [← ht, State.slotRead_eq, hy, hw]
  have wkeeps : w.towers = y.towers ∧ w.engine = y.engine ∧ w.control = y.control ∧ w.link = y.link := by
    rw [← hw]
    simp
  obtain ⟨towers, engine, control, link⟩ := wkeeps
  have ylink : y.link = s.link := by rw [shape, hx]; rfl
  have wqueue : y.port.queue <+: w.port.queue := by
    rw [← hw]
    unfold State.offerSlotRead
    (repeat' split)
    · exact List.prefix_refl _
    · exact List.prefix_append _ _
    · exact List.prefix_refl _
  refine ⟨by rw [← ht]; simp [engine], ?_, ?_, fun same => ?_, fun u => ?_, fun busy => ?_, ?_, fun v hv => ?_⟩
  · rw [← ht, State.settle_keeps .. |>.2.2.2.2.2.2.2.2.2.2.1, ← hw, State.offerSlotRead_shape]
    rfl
  · rw [← ht, ← control]
    simp
  · have whole : w = { s with
        mem := w.mem, lastResponse := w.lastResponse, bus := w.bus, port := w.port, coverage := w.coverage
        engine := w.engine, loop := w.loop, control := w.control } := by
      rw [← hw, State.offerSlotRead_shape]
      unfold State.forgetResets
      rw [shape, hx, same]
      rfl
    obtain ⟨settled, -, kept, -⟩ := State.settle_towersKept whole
    rw [← ht, settled]
    exact kept
  · rw [← ht, ← towers]
    exact State.settle_tower s w u
  · rw [← ht, State.settle_towers_of_tx (by rw [link, ylink]; exact busy), towers]
  · rw [← ht]
    exact wqueue.trans (State.samePort_settle s w).2.2.2.2
  · rw [← ht]
    exact State.settle_keepsMirror s (by rw [control]; exact hv)

/-! ### The branches of the gate -/

theorem State.badRecord_congr {z s : State} (m : MeasureRec) (h : z.towers = s.towers) :
    z.badRecord m = s.badRecord m := by
  unfold State.badRecord
  rw [h]

theorem State.gateFault_congr {z s : State} (i : Fin 16) (u : Tower) (towers : z.towers = s.towers)
    (coverage : z.coverage = s.coverage) (loop : z.loop.overReset = s.loop.overReset) :
    z.gateFault i u = s.gateFault i u := by
  unfold State.gateFault LoopUnit.waitedOver
  rw [towers, coverage, loop]

theorem State.gate_bad {z : State} {i : Fin 16} {m : MeasureRec}
    (h : frameTower m.tower.toNat = none ∨ z.badRecord m = true) :
    z.gate i (some m) = z.dropRecord .badRecord i (some m.tower) := by
  unfold State.gate
  dsimp only
  split
  · rfl
  · next u named =>
    rw [if_pos (h.resolve_left (by rw [named]; exact Option.some_ne_none u))]

theorem State.gate_faulty {z : State} {i : Fin 16} {m : MeasureRec} {u : Tower} {why : DropReason}
    (named : frameTower m.tower.toNat = some u) (good : z.badRecord m = false) (fault : z.gateFault i u = some why) :
    z.gate i (some m) = z.dropRecord why i (some m.tower) := by
  simp only [State.gate, named, good, fault]
  rfl

theorem State.gate_applies {z : State} {i : Fin 16} {m : MeasureRec} {u : Tower}
    (named : frameTower m.tower.toNat = some u) (good : z.badRecord m = false) (fault : z.gateFault i u = none) :
    z.gate i (some m) = z.applyRecord m u := by
  simp only [State.gate, named, good, fault]
  rfl

/-! ### The corrections -/

theorem TowerState.slots_filter (tw : TowerState) : tw.slots = tw.slots.filter (fun _ => true) :=
  (List.filter_eq_self.2 fun _ _ => rfl).symm

theorem TowerState.settleAgain_keeps (tw : TowerState) : tw.settleAgain.recs = tw.recs
    ∧ tw.settleAgain.service = tw.service := ⟨rfl, rfl⟩

/-- A corrected tower settles, its present records recomposed with their corrections and handed on (R151, R152). -/
theorem TowerState.corrected_spec (c : Slot → Int) (tw : TowerState) {ls : LoopSettings} (settings : tw.settings = some ls)
    {tv : TowerState} (htv : (tw.revalueEvent (fun sl => setCorrection (c sl)) TowerState.slots).settleAgain = tv) :
    tv.loop = .settling ∧ tv.settle = ls.sheets ∧ tw.handedOn tv
      ∧ ∀ sl : Slot, (tw.present sl = true → (tv.recs[sl]).values = ({ tw.recs[sl] with
            correction := c sl
            target := composed tw.cfg tw.parkHold sl { tw.recs[sl] with correction := c sl } } : KeyRec).values)
          ∧ (tw.present sl = false → tv.recs[sl] = tw.recs[sl]) := by
  obtain ⟨⟨-, -, -, -, -, -, -, same, -⟩, -, recs⟩ := TowerState.revalueEvent_spec (fun sl => setCorrection (c sl))
    TowerState.slots tw tw.slots_nodup
  have hand := TowerState.revalueEvent_handedOn (f := fun sl => setCorrection (c sl)) (sls := TowerState.slots) (tw := tw)
    (fun _ _ => ⟨_, _, _, _, _, rfl⟩) (fun _ => true) tw.slots_filter
  generalize tw.revalueEvent (fun sl => setCorrection (c sl)) TowerState.slots = new at *
  subst htv
  refine ⟨rfl, ?_, TowerState.handedOn_congr hand rfl rfl rfl rfl rfl rfl rfl rfl rfl rfl rfl, fun sl =>
    ⟨fun present => ?_, fun absent => ?_⟩⟩
  · show (new.settings.map LoopSettings.sheets).getD 0 = ls.sheets
    rw [same, settings]
    rfl
  · obtain ⟨move, hmove⟩ := (recs sl).1 ((tw.mem_slots sl).2 present)
    show (new.recs[sl]).values = _
    rw [hmove]
    rfl
  · exact (recs sl).2 fun hm => by
      rw [(tw.mem_slots sl).1 hm] at absent
      cases absent

end Sys2Proof.Machine
end

section
/-! PROOFS. SLOT_READ completions: drops and applied records, and the fields of a record. -/

namespace Sys2Proof.Machine

/-! ### Drops -/

/-- A record that the gate drops. -/
theorem State.settle_dropped {s x t : State} {i : Fin 16} {m : Option MeasureRec} {why : DropReason}
    {tower : Option Byte}
    (hx : x = { s with mem := x.mem, port := { s.port with holder := none }, control := x.control })
    (drops : (x.slotTaken i).gate i m = (x.slotTaken i).dropRecord why i tower)
    (ht : State.settle s (x.slotRead i m) = t) :
    t.control.flags.getLsbD (flagBit .measureDropped) = true
      ∧ t.loop.status = { s.loop.status with reason := why, slot := i, dropTower := tower }
      ∧ s.sameTowers t ∧ t.engine = s.engine
      ∧ (x.control.flags.getLsbD (flagBit .memoryFault) = true →
        t.control.flags.getLsbD (flagBit .memoryFault) = true) := by
  obtain ⟨flag, status, towers, engine⟩ := State.dropRecord_effect why i tower (x.slotTaken i)
  have kept := (State.dropRecord_gated why i tower (x.slotTaken i)).flags
  obtain ⟨tengine, tstatus, tflags, ttowers, -⟩ := State.settle_slotRead_gate hx drops ht
  have start : (x.slotTaken i).loop.status = s.loop.status ∧ (x.slotTaken i).towers = s.towers
      ∧ (x.slotTaken i).engine = s.engine := by
    rw [hx]
    exact ⟨rfl, rfl, rfl⟩
  obtain ⟨sstatus, stowers, sengine⟩ := start
  exact ⟨by rw [tflags, flag], by rw [tstatus, status, sstatus], ttowers (towers.trans stowers),
    by rw [tengine, engine, sengine], fun h => by rw [tflags]; exact kept _ h⟩

/-! ### Applied records -/

theorem State.applyRecord_towers (m : MeasureRec) (u v : Tower) (z : State) : (z.applyRecord m u).towers[v]
    = if v = u then ((z.towers[u].revalueEvent (fun sl => setCorrection (z.correctionOf m u sl))
        TowerState.slots).settleAgain) else z.towers[v] := by
  have towers : (z.applyRecord m u).towers = ((z.correct m u).modTower u TowerState.settleAgain).towers := by
    rw [State.applyRecord_eq]
    simp
    rfl
  rw [towers, State.modTower_get, State.correct]
  by_cases hv : v = u
  · rw [if_pos hv, if_pos hv, State.modTower_get, if_pos rfl]
  · rw [if_neg hv, if_neg hv, State.modTower_get, if_neg hv]

/-- A record that the gate applies (R151, R152). -/
theorem State.settle_applied {s x t : State} {i : Fin 16} {m : MeasureRec} {u : Tower} {ls : LoopSettings}
    (hx : x = { s with mem := x.mem, port := { s.port with holder := none }, control := x.control })
    (settings : s.sameSettings x)
    (applies : (x.slotTaken i).gate i (some m) = (x.slotTaken i).applyRecord m u)
    (hls : s.towers[u].settings = some ls) (ht : State.settle s (x.slotRead i (some m)) = t) :
    t.control.flags.getLsbD (flagBit .measureApplied) = true
      ∧ t.loop.status = { s.loop.status with applied := some u, sheetTag := m.sheetTag }
      ∧ t.towers[u].loop = .settling ∧ t.towers[u].settle = ls.sheets
      ∧ (∀ sl : Slot, s.towers[u].present sl = true →
          (t.towers[u].recs[sl]).correction
            = if sl = fountainSlot then (s.towers[u].recs[sl]).correction
              else corrected ls (s.coverage.read s.coverage.active u sl)
                (m.densities.getD sl.val 65535) (s.towers[u].recs[sl]).correction)
      ∧ (∀ sl : Slot, s.towers[u].present sl = true → (t.towers[u].recs[sl]).target
          = composed s.towers[u].cfg s.towers[u].parkHold sl (t.towers[u].recs[sl]))
      ∧ (∀ sl : Slot, (t.towers[u].recs[sl]).trim = (s.towers[u].recs[sl]).trim
          ∧ (t.towers[u].recs[sl]).base = (s.towers[u].recs[sl]).base
          ∧ (t.towers[u].recs[sl]).hold = (s.towers[u].recs[sl]).hold
          ∧ (t.towers[u].recs[sl]).ramp = (s.towers[u].recs[sl]).ramp)
      ∧ (∀ (v : Tower) (sl : Slot), v ≠ u ∨ s.towers[u].present sl = false →
          (t.towers[v].recs[sl]).values = (s.towers[v].recs[sl]).values)
      ∧ (s.control.part = .running → t.control.mirror.getLsbD (16 + u.val) = true)
      ∧ (s.link.tx ≠ .idle → s.handedOn t) ∧ s.fired t .measure := by
  obtain ⟨engine, status, tflags, -, under, busy, queue, mirror⟩ := State.settle_slotRead_gate hx applies ht
  have ytowers := fun v => State.applyRecord_towers m u v (x.slotTaken i)
  have start : (x.slotTaken i).towers = s.towers ∧ (x.slotTaken i).coverage = s.coverage
      ∧ (x.slotTaken i).engine = s.engine ∧ (x.slotTaken i).port = { s.port with holder := none }
      ∧ (x.slotTaken i).loop.status = s.loop.status := by
    rw [hx]
    exact ⟨rfl, rfl, rfl, rfl, rfl⟩
  obtain ⟨towers, coverage, sengine, port, sstatus⟩ := start
  have correction : ∀ sl, (x.slotTaken i).correctionOf m u sl = if sl = fountainSlot then (s.towers[u].recs[sl]).correction
      else corrected ls (s.coverage.read s.coverage.active u sl) (m.densities.getD sl.val 65535)
        (s.towers[u].recs[sl]).correction := fun sl => by
    unfold State.correctionOf
    rw [towers, coverage, hls]
    rfl
  obtain ⟨-, recordedFlags, applied⟩ := State.recorded_settings m u (x.slotTaken i)
  have shape := State.recorded_shape m u (x.slotTaken i)
  have part : (x.slotTaken i).control.part = s.control.part := settings.1
  have rpart : ((x.slotTaken i).recorded m u).control.part = s.control.part :=
    (State.recorded_settings m u (x.slotTaken i)).1.1.trans part
  rw [State.applyRecord_eq] at engine status tflags queue mirror
  generalize hz : x.slotTaken i = z at *
  generalize z.recorded m u = r at *
  obtain ⟨fshape, ⟨fpart, -⟩, fflags, -⟩ := r.fire_shape .measure
  obtain ⟨loop, settle, hand, recs⟩ := TowerState.corrected_spec (fun sl => z.correctionOf m u sl) s.towers[u] hls
    (tv := (z.applyRecord m u).towers[u]) (by rw [ytowers, if_pos rfl, towers])
  have others : ∀ v, v ≠ u → (z.applyRecord m u).towers[v] = s.towers[v] := fun v hv => by
    rw [ytowers, if_neg hv, towers]
  generalize z.applyRecord m u = y at *
  have keep : (r.fire .measure).keepsFlags t := State.keepsFlags_of_eq (by simp [tflags])
  obtain ⟨-, -, -, -, uloop, usettle, -, -, urecs⟩ := under u
  have values : ∀ sl : Slot, (t.towers[u].recs[sl]).values = (y.towers[u].recs[sl]).values := fun sl => (urecs sl).1
  have corrections := fun (sl : Slot) (present : s.towers[u].present sl = true) =>
    KeyRec.values_eq ((values sl).trans ((recs sl).1 present))
  refine ⟨?_, ?_, uloop.trans loop, usettle.trans settle, fun sl present => ?_, fun sl present => ?_, fun sl => ?_,
    fun v sl away => ?_, fun run => ?_, fun tx v => ?_, ?_⟩
  · exact keep _ (fflags _ applied)
  · rw [status]
    show (r.fire .measure).loop.status = _
    rw [fshape, shape, ← sstatus]
  · obtain ⟨-, -, corr, -⟩ := corrections sl present
    rw [corr]
    exact correction sl
  · obtain ⟨base, trim, corr, hold, ramp, target⟩ := corrections sl present
    rw [target]
    exact composed_congr _ _ sl base.symm trim.symm corr.symm hold.symm ramp.symm
  · cases present : s.towers[u].present sl with
    | true =>
      obtain ⟨base, trim, -, hold, ramp, -⟩ := corrections sl present
      exact ⟨trim, base, hold, ramp⟩
    | false =>
      have same := values sl
      rw [(recs sl).2 present] at same
      obtain ⟨base, trim, -, hold, ramp, -⟩ := KeyRec.values_eq same
      exact ⟨trim, base, hold, ramp⟩
  · by_cases hv : v = u
    · subst hv
      rw [values, (recs sl).2 (away.resolve_left fun n => n rfl)]
    · obtain ⟨-, -, -, -, -, -, -, -, vrecs⟩ := under v
      rw [(vrecs sl).1, others v hv]
  · refine mirror (wordTower u) (Control.report_self ?_ (wordTower u))
    show ((r.fire .measure).report wordMeasure).control.part = _
    rw [State.report_control .. |>.1, fpart, rpart, run]
  · rw [busy tx]
    by_cases hv : v = u
    · subst hv
      exact hand
    · rw [others v hv]
      exact TowerState.handedOn_refl _
  · refine State.fired_of_fire (x := r) (by rw [shape, sengine]) (by rw [shape, port]) engine queue keep

end Sys2Proof.Machine
end

section
/-! PROOFS. O37: measurement records. -/

namespace Sys2Proof.Machine

theorem densityValid_iff (d : Nat) : densityValid d = false ↔ 4000 < d ∧ d ≠ 65535 := by
  rw [densityValid, Bool.or_eq_false_iff, decide_eq_false_iff_not, decide_eq_false_iff_not, Nat.not_le]
  rfl

/-- The conditions of BAD_RECORD for a tower with a configuration (R149). -/
theorem State.badRecord_iff {s : State} {m : MeasureRec} {u : Tower} {c : KeyCfg}
    (named : frameTower m.tower.toNat = some u) (cfg : s.towers[u].cfg = some c) : s.badRecord m = true
      ↔ s.towers[u].service = .unconfigured ∨ m.keyCount ≠ c.k
        ∨ ∃ k d, k < c.k ∧ m.densities[k]? = some d ∧ 4000 < d ∧ d ≠ 65535 := by
  have count : s.towers[u].keyCount = c.k := by
    unfold TowerState.keyCount
    rw [cfg]
  have densities : (m.keys c.k).all densityValid = false ↔ ∃ k d, k < c.k ∧ m.densities[k]? = some d ∧ 4000 < d ∧ d ≠ 65535 := by
    rw [List.all_eq_false]
    simp only [Bool.not_eq_true, densityValid_iff, MeasureRec.keys, List.mem_iff_getElem?, List.getElem?_take]
    constructor
    · rintro ⟨d, ⟨k, hk⟩, bad⟩
      split at hk
      · next lt => exact ⟨k, d, lt, hk, bad⟩
      · cases hk
    · rintro ⟨k, d, lt, hk, bad⟩
      exact ⟨d, ⟨k, by rw [if_pos lt, hk]⟩, bad⟩
  unfold State.badRecord
  rw [named]
  dsimp only
  rw [count, Bool.or_eq_true, Bool.or_eq_true, Bool.not_eq_true', Bool.not_eq_true', densities, bne_iff_ne, or_assoc]
  simp [TowerState.configured]

theorem measureRec_fields (ws : List Word) : (measureRec ws).tower = (ws.getD 0 0).extractLsb' 0 8
      ∧ (measureRec ws).keyCount = ((ws.getD 0 0).extractLsb' 8 8).toNat
      ∧ (measureRec ws).sheetTag = (ws.getD 0 0).extractLsb' 16 16
      ∧ (measureRec ws).densities.length = 48
      ∧ ∀ k, k < 48 → (measureRec ws).densities[k]?
          = some ((ws.getD (1 + k / 2) 0).extractLsb' (16 * (k % 2)) 16).toNat := by
  refine ⟨byteOf_extract _ 0, congrArg BitVec.toNat (byteOf_extract _ 1), halfOf_extract _ 1, by simp [measureRec],
    fun k hk => ?_⟩
  have at_k : (measureRec ws).densities[k]? = some (densityAt ws k) := by simp [measureRec, hk]
  rw [at_k, densityAt, halfOf_extract]
  rfl

/-- Settles O37: what every completed SLOT_READ leaves, by the branch that the gate takes. -/
theorem measurementRecordIsJudged : Obligations.MeasurementRecordIsJudged := by
  refine ⟨fun s errors i adr ws m held hm => ?_, fun n u =>
    ⟨frameTower_some, fun h => by rw [h, frameTower_val]⟩, fun s m u c => State.badRecord_iff, fun s i u => rfl,
    measureRec_fields⟩
  · have run := State.exec_slotRead held errors
    obtain ⟨hx, settings, faulty, -⟩ := s.completed_effect ws (readAnswers errors)
    rw [← hm] at run
    generalize s.completed ws (readAnswers errors) false = x at *
    have hx' : x = { s with mem := x.mem, port := { s.port with holder := none }, control := x.control } := by
      rw [hx]
    have mem : x.mem = Memory.answers s.mem ws (readAnswers errors) := by rw [hx]
    obtain ⟨holder, slots, list, resets, coverage, setup, response, bus, loader, tmem, mirror, offered, quiet⟩ :=
      State.settle_slotRead hx' settings rfl rfl
    have bad : (x.slotTaken i).badRecord m = s.badRecord m := State.badRecord_congr m (by rw [hx]; rfl)
    have fault : ∀ u, (x.slotTaken i).gateFault i u = s.gateFault i u := fun u =>
      State.gateFault_congr i u (by rw [hx]; rfl) (by rw [hx]; rfl) (by rw [hx]; rfl)
    refine ⟨_, run, holder, slots, list, resets, coverage, setup, response, bus, loader, fun reads a => ?_, mirror, offered,
      quiet, fun error => ?_, fun ok malformed => ?_, fun u why ok named good gated => ?_,
      fun u ls ok named good gated hls => ?_⟩
    · rw [tmem, mem, Memory.answers_read]
      intro w hw
      rw [reads] at hw
      obtain ⟨j, -, rfl⟩ := List.mem_map.1 hw
      rfl
    · obtain ⟨dropped, status, towers, engine, flag⟩ := State.settle_dropped hx'
        (show (x.slotTaken i).gate i none = _ from rfl) rfl
      rw [if_neg error]
      exact ⟨flag (faulty (readAnswers_error error)), dropped, status, towers, engine⟩
    · obtain ⟨dropped, status, towers, engine, -⟩ := State.settle_dropped hx'
        (State.gate_bad (i := i) (malformed.imp_right fun h => bad.trans h)) rfl
      rw [if_pos ok]
      exact ⟨dropped, status, towers, engine⟩
    · obtain ⟨dropped, status, towers, engine, -⟩ := State.settle_dropped hx'
        (State.gate_faulty named (bad.trans good) ((fault u).trans gated)) rfl
      rw [if_pos ok]
      exact ⟨dropped, status, towers, engine⟩
    · rw [if_pos ok]
      exact State.settle_applied hx' settings (State.gate_applies named (bad.trans good) ((fault u).trans gated)) hls rfl

end Sys2Proof.Machine
end

section
/-! PROOFS. What the words show and what is reported: an operation of a RUNNING part that changes what a word shows puts
the word into the mirror set, and takes none out of it (R160). -/

namespace Sys2Proof.Machine

/-! ### What a word shows depends on -/

theorem wordTowerOf_wordTower {v : CtlWord} {u : Tower} (h : wordTowerOf v = some u) : v = wordTower u := by
  unfold wordTowerOf at h
  split at h
  · cases h
    exact Fin.ext (by simp only [wordTower]; omega)
  · cases h

theorem bindSource_wordBind {v : CtlWord} {k : Source} (h : bindSource v = some k) : v = wordBind k :=
  (of_decide_eq_true (List.find?_some (p := fun k => decide (wordBind k = v)) h)).symm

/-- A control word shows what its block holds (12.2). -/
theorem State.wordFields_congr {s t : State} {v : CtlWord}
    (tower : ∀ u, v = wordTower u → t.towers[u].wordFields = s.towers[u].wordFields)
    (bind : ∀ k, v = wordBind k → t.engine.bindFields k = s.engine.bindFields k)
    (start : v = 0 → t.engine.state = s.engine.state) (flags : v = 2 → t.control.flags = s.control.flags)
    (enables : v = 3 → t.control.enables = s.control.enables)
    (bank : v = 4 → t.coverage.wordFields = s.coverage.wordFields)
    (status : v = 5 → t.engine.state = s.engine.state ∧ t.configuredFields = s.configuredFields)
    (refusal : v = 6 → t.control.capture = s.control.capture) (measure : v = 7 → t.loop.status = s.loop.status)
    (engine : v = 13 → t.engine.wordFields = s.engine.wordFields) (part : t.control.part = s.control.part) :
    t.wordFields v = s.wordFields v := by
  unfold State.wordFields
  cases hu : wordTowerOf v with
  | some u => exact tower u (wordTowerOf_wordTower hu)
  | none =>
    cases hk : bindSource v with
    | some k => exact bind k (bindSource_wordBind hk)
    | none =>
      dsimp only
      split
      · next h => rw [start h]
      split
      · next h => rw [flags h]
      split
      · next h => rw [enables h]
      split
      · next h => rw [bank h]
      split
      · next h =>
        obtain ⟨he, hc⟩ := status h
        rw [part, he, hc]
      split
      · next h => rw [refusal h]
      split
      · next h => rw [measure h]
      split
      · next h => rw [engine h]
      split
      · next h => rw [part]
      · rfl

/-! ### Operations that report what they change -/

/-- The words that no change of a block reports: STOP, EVENT_ENABLE, RELOAD and the words with no owner. -/
def quietWords : List CtlWord := [1, 3, 14, 15, 28, 29, 30, 31]

/-- An operation leaves a part RUNNING, takes no word out of the mirror set but those `gone`, keeps the last result of each
word not `changed` and puts it into the set when it changes what it shows, puts in none of the quiet words but those
`added`, and notes a rising of the line (R160, R166). -/
structure State.ReportsBut (gone changed added : CtlWord → Prop) (s t : State) : Prop where
  part : t.control.part = .running
  keeps : ∀ v : CtlWord, ¬gone v → s.control.mirror.getLsbD v.val = true → t.control.mirror.getLsbD v.val = true
  shows : ∀ v : CtlWord, ¬changed v → t.control.last[v] = s.control.last[v]
    ∧ (t.wordFields v = s.wordFields v ∨ t.control.mirror.getLsbD v.val = true)
  quiet : ∀ v ∈ quietWords, ¬added v → t.control.mirror.getLsbD v.val = true → s.control.mirror.getLsbD v.val = true
  addr : t.control.noticeAddr = s.control.noticeAddr
  risen : s.control.line = false → t.control.line = true → s.control.noticeAddr ≠ 0 → t.control.noticePending = true

/-- No word. -/
def noWord (_ : CtlWord) : Prop := False

/-- An operation with no such exception, which withdraws no notice. -/
structure State.Reports (s t : State) : Prop extends State.ReportsBut noWord noWord noWord s t where
  pending : s.control.noticePending = true → t.control.noticePending = true

theorem not_noWord (v : CtlWord) : ¬noWord v := fun h => h

theorem State.ReportsBut.trans {gone changed added : CtlWord → Prop} {s t u : State}
    (h : s.ReportsBut gone changed added t) (k : t.Reports u) : s.ReportsBut gone changed added u where
  part := k.part
  keeps v hv hs := k.keeps v (not_noWord v) (h.keeps v hv hs)
  shows v hv := by
    obtain ⟨last, same⟩ := h.shows v hv
    obtain ⟨last', same'⟩ := k.shows v (not_noWord v)
    refine ⟨last'.trans last, ?_⟩
    rcases same' with same' | reported'
    · rcases same with same | reported
      · exact .inl (same'.trans same)
      · exact .inr (k.keeps v (not_noWord v) reported)
    · exact .inr reported'
  quiet v hv ha hu := h.quiet v hv ha (k.quiet v hv (not_noWord v) hu)
  addr := k.addr.trans h.addr
  risen low high addr := by
    cases hl : t.control.line with
    | false => exact k.risen hl high (by rw [h.addr]; exact addr)
    | true => exact k.pending (h.risen low hl addr)

theorem State.Reports.trans {s t u : State} (h : s.Reports t) (k : t.Reports u) : s.Reports u :=
  ⟨h.toReportsBut.trans k, fun hp => k.pending (h.pending hp)⟩

/-- An operation that reports what it changes, ahead of one that is excepted. -/
theorem State.ReportsBut.after {changed added : CtlWord → Prop} {s t u : State} (h : s.Reports t)
    (k : t.ReportsBut noWord changed added u)
    (pending : t.control.noticePending = true → u.control.noticePending = true) :
    s.ReportsBut noWord changed added u where
  part := k.part
  keeps v hv hs := k.keeps v hv (h.keeps v hv hs)
  shows v hv := by
    obtain ⟨last, same⟩ := h.shows v (not_noWord v)
    obtain ⟨last', same'⟩ := k.shows v hv
    refine ⟨last'.trans last, ?_⟩
    rcases same' with same' | reported'
    · rcases same with same | reported
      · exact .inl (same'.trans same)
      · exact .inr (k.keeps v (not_noWord v) reported)
    · exact .inr reported'
  quiet v hv ha hu := h.quiet v hv (not_noWord v) (k.quiet v hv ha hu)
  addr := k.addr.trans h.addr
  risen low high addr := by
    cases hl : t.control.line with
    | false => exact k.risen hl high (by rw [h.addr]; exact addr)
    | true => exact pending (h.risen low hl addr)

/-- One operation after another. -/
theorem State.Reports.andThen {s t u : State} (h : s.Reports t) (k : t.control.part = .running → t.Reports u) :
    s.Reports u := h.trans (k h.part)

/-- An operation may be excepted more than it needs. -/
theorem State.ReportsBut.mono {gone changed added gone' changed' added' : CtlWord → Prop} {s t : State}
    (h : s.ReportsBut gone changed added t) (hg : ∀ v, gone v → gone' v) (hc : ∀ v, changed v → changed' v)
    (ha : ∀ v, added v → added' v) : s.ReportsBut gone' changed' added' t where
  part := h.part
  keeps v hv := h.keeps v fun k => hv (hg v k)
  shows v hv := h.shows v fun k => hv (hc v k)
  quiet v hv hn := h.quiet v hv fun k => hn (ha v k)
  addr := h.addr
  risen := h.risen

theorem State.Reports.but {s t : State} (h : s.Reports t) (gone changed added : CtlWord → Prop) :
    s.ReportsBut gone changed added t := h.toReportsBut.mono (fun _ k => k.elim) (fun _ k => k.elim) fun _ k => k.elim

/-- What one word shows may change ahead of its report. -/
theorem State.ReportsBut.reported {s t : State} {w : CtlWord} (h : s.ReportsBut noWord (· = w) noWord t)
    (last : t.control.last = s.control.last) (pending : s.control.noticePending = true → t.control.noticePending = true)
    (reported : t.control.mirror.getLsbD w.val = true) : s.Reports t where
  part := h.part
  keeps := h.keeps
  shows v _ := by
    by_cases hv : v = w
    · subst hv
      exact ⟨by rw [last], .inr reported⟩
    · exact h.shows v hv
  quiet := h.quiet
  addr := h.addr
  risen := h.risen
  pending := pending

/-! ### Operations that change nothing that is shown -/

/-- An operation that leaves the control unit alone but for its channel, its pointer and what the host set up, and changes
what the word `w` alone shows. -/
theorem State.ReportsBut.of_same {s t : State} {changed : CtlWord → Prop} (h : s.control.part = .running)
    (part : t.control.part = s.control.part) (mirror : t.control.mirror = s.control.mirror)
    (last : t.control.last = s.control.last) (addr : t.control.noticeAddr = s.control.noticeAddr)
    (line : t.control.line = s.control.line) (shows : ∀ v, ¬changed v → t.wordFields v = s.wordFields v) :
    s.ReportsBut noWord changed noWord t where
  part := part.trans h
  keeps v _ hv := by rw [mirror]; exact hv
  shows v hv := ⟨by rw [last], .inl (shows v hv)⟩
  quiet v _ _ hv := by rwa [mirror] at hv
  addr := addr
  risen low high := by rw [line, low] at high; cases high

/-- An operation on blocks that no word shows, and on the channel. -/
theorem State.Reports.of_hidden {s t : State} (h : s.control.part = .running)
    (control : t.control = { s.control with channel := t.control.channel, pointer := t.control.pointer })
    (towers : ∀ u : Tower, t.towers[u].wordFields = s.towers[u].wordFields ∧ t.towers[u].configured = s.towers[u].configured)
    (engine : ∀ k, t.engine.bindFields k = s.engine.bindFields k)
    (chain : t.engine.state = s.engine.state ∧ t.engine.wordFields = s.engine.wordFields)
    (bank : t.coverage.wordFields = s.coverage.wordFields) (status : t.loop.status = s.loop.status) : s.Reports t := by
  have part : t.control.part = s.control.part := by rw [control]
  have configured : t.configuredFields = s.configuredFields := by
    unfold State.configuredFields
    simp only [fun u => (towers u).2]
  refine ⟨.of_same h part (by rw [control]) (by rw [control]) (by rw [control]) (by rw [control]) fun v _ => ?_, fun hp => by
    rw [control]; exact hp⟩
  exact State.wordFields_congr (fun u _ => (towers u).1) (fun k _ => engine k) (fun _ => chain.1) (fun _ => by rw [control])
    (fun _ => by rw [control]) (fun _ => bank) (fun _ => ⟨chain.1, configured⟩) (fun _ => by rw [control]) (fun _ => status)
    (fun _ => chain.2) part

/-- An operation on memory, the ports, the link and the parts of the blocks that no word shows. -/
theorem State.Reports.of_blocks {s t : State} (h : s.control.part = .running) (control : t.control = s.control)
    (towers : t.towers = s.towers) (engine : t.engine = s.engine) (bank : t.coverage.wordFields = s.coverage.wordFields)
    (status : t.loop.status = s.loop.status) : s.Reports t :=
  .of_hidden h (by rw [control]) (fun u => by rw [towers]; exact ⟨rfl, rfl⟩) (fun k => by rw [engine])
    (by rw [engine]; exact ⟨rfl, rfl⟩) bank status

theorem State.Reports.refl {s : State} (h : s.control.part = .running) : s.Reports s :=
  .of_blocks h rfl rfl rfl rfl rfl

end Sys2Proof.Machine
end

section
/-! PROOFS. The operations that report: raises, reports, towers, the engine, and what every event ends with. -/

namespace Sys2Proof.Machine

/-! ### Reports and raises -/

theorem Control.report_running {c : Control} (h : c.part = .running) (w v : CtlWord) :
    (c.report w).mirror.getLsbD v.val = true ↔ c.mirror.getLsbD v.val = true ∨ v = w := by
  rw [Control.report_mirror]
  simp [h]

/-- An operation that puts some words into the mirror set and changes what no other word shows. -/
theorem State.ReportsBut.of_words {s t : State} {words : CtlWord → Prop} (h : s.control.part = .running)
    (control : t.control = { s.control with mirror := t.control.mirror })
    (mirror : ∀ v : CtlWord, t.control.mirror.getLsbD v.val = true ↔ s.control.mirror.getLsbD v.val = true ∨ words v)
    (shows : ∀ v, ¬words v → t.wordFields v = s.wordFields v) : s.ReportsBut noWord noWord words t where
  part := by rw [control]; exact h
  keeps v _ hv := (mirror v).2 (.inl hv)
  shows v _ := by
    refine ⟨by rw [control], ?_⟩
    by_cases hv : words v
    · exact .inr ((mirror v).2 (.inr hv))
    · exact .inl (shows v hv)
  quiet v _ hw ht := ((mirror v).1 ht).resolve_right hw
  addr := by rw [control]
  risen low high := by
    rw [control] at high
    exact absurd (low.symm.trans high) (by decide)

theorem State.Reports.of_words {s t : State} {words : CtlWord → Prop} (h : s.control.part = .running)
    (control : t.control = { s.control with mirror := t.control.mirror })
    (mirror : ∀ v : CtlWord, t.control.mirror.getLsbD v.val = true ↔ s.control.mirror.getLsbD v.val = true ∨ words v)
    (loud : ∀ v, words v → v ∉ quietWords) (shows : ∀ v, ¬words v → t.wordFields v = s.wordFields v) : s.Reports t where
  toReportsBut := { State.ReportsBut.of_words h control mirror shows with
    quiet := fun v hv _ ht => ((mirror v).1 ht).resolve_right fun hw => loud v hw hv }
  pending hp := by rw [control]; exact hp

theorem Control.report_onlyMirror (w : CtlWord) (c : Control) :
    c.report w = { c with mirror := (c.report w).mirror } := by
  unfold Control.report
  split
  · rfl
  · rfl

theorem State.report_wordFields (w v : CtlWord) (s : State) : (s.report w).wordFields v = s.wordFields v := by
  have fields := s.report_control w
  exact State.wordFields_congr (fun _ _ => rfl) (fun _ _ => rfl) (fun _ => rfl) (fun _ => fields.2.1)
    (fun _ => fields.2.2.1) (fun _ => rfl) (fun _ => ⟨rfl, rfl⟩) (fun _ => by simp) (fun _ => rfl) (fun _ => rfl) fields.1

/-- A report adds its word, and nothing else. -/
theorem State.reportsBut_report {s : State} (h : s.control.part = .running) (w : CtlWord) :
    s.ReportsBut noWord noWord (· = w) (s.report w) :=
  .of_words h (Control.report_onlyMirror w s.control) (Control.report_running h w) fun v _ => s.report_wordFields w v

theorem State.reports_report {s : State} (h : s.control.part = .running) {w : CtlWord} (loud : w ∉ quietWords) :
    s.Reports (s.report w) :=
  .of_words h (Control.report_onlyMirror w s.control) (Control.report_running h w) (fun v e => by rw [e]; exact loud)
    fun v _ => s.report_wordFields w v

theorem State.reports_reportIf {s : State} (h : s.control.part = .running) {w : CtlWord} (loud : w ∉ quietWords) (b : Bool) :
    s.Reports (s.reportIf b w) := by
  cases b with
  | true => exact State.reports_report h loud
  | false => exact .refl h

/-- A line that rises leaves a notice pending when there is an address for it (R166). -/
theorem Control.relevel_risen {c : Control} (low : c.line = false) (high : c.relevel.line = true)
    (addr : c.noticeAddr ≠ 0) : c.relevel.noticePending = true := by
  have asserted : (c.flags &&& c.enables != 0) = true := high
  simp only [Control.relevel, asserted, low]
  simp [addr]

theorem Control.relevel_pending {c : Control} (h : c.noticePending = true) : c.relevel.noticePending = true := by
  simp [Control.relevel, h]

/-- The flags with one more set, ahead of the line and the report. -/
def Control.flagged (f : EventFlag) (c : Control) : Control :=
  { c with flags := c.flags ||| BitVec.twoPow 14 (flagBit f) }

/-- A raise shows its flag in the EVENT word, and notes a rising of the line (R160, R163, R166). -/
theorem State.reports_raise {s : State} (h : s.control.part = .running) (f : EventFlag) : s.Reports (s.raise f) := by
  by_cases set : s.control.flags.getLsbD (flagBit f) = true
  · have same : s.raise f = s := by
      unfold State.raise Control.raise
      rw [if_pos set]
    rw [same]
    exact .refl h
  · have control : (s.raise f).control
        = ((s.control.flagged f).relevel).report wordEvent := if_neg set
    have mirror : ∀ v : CtlWord, (s.raise f).control.mirror.getLsbD v.val = true
        ↔ s.control.mirror.getLsbD v.val = true ∨ v = wordEvent := fun v => by
      rw [control]
      exact Control.report_running (c := (s.control.flagged f).relevel) h wordEvent v
    have fields := s.raise_control f
    refine ⟨⟨fields.1.trans h, fun v _ hv => (mirror v).2 (.inl hv), fun v _ => ⟨?_, ?_⟩, fun v hv _ ht => ?_, ?_,
      fun low high addr => ?_⟩, fun hp => ?_⟩
    · rw [show (s.raise f).control.last = s.control.last by simp]
    · by_cases hv : v = wordEvent
      · exact .inr ((mirror v).2 (.inr hv))
      · refine .inl (State.wordFields_congr (fun _ _ => rfl) (fun _ _ => rfl) (fun _ => rfl) (fun e => absurd e hv)
          (fun _ => by simp) (fun _ => rfl) (fun _ => ⟨rfl, rfl⟩) (fun _ => by simp) (fun _ => rfl) (fun _ => rfl)
          fields.1)
    · refine ((mirror v).1 ht).resolve_right fun e => ?_
      subst e
      revert hv
      decide
    · simp
    · rw [control] at high ⊢
      simp only [Control.report_keeps] at high ⊢
      exact Control.relevel_risen (c := s.control.flagged f) low high addr
    · rw [control]
      simp only [Control.report_keeps]
      exact Control.relevel_pending (c := s.control.flagged f) hp

theorem State.reports_raiseIf {s : State} (h : s.control.part = .running) (b : Bool) (f : EventFlag) :
    s.Reports (s.raiseIf b f) := by
  cases b with
  | true => exact State.reports_raise h f
  | false => exact .refl h

theorem State.reports_raiseSome {s : State} (h : s.control.part = .running) (f : Option EventFlag) :
    s.Reports (s.raiseSome f) := by
  cases f with
  | none => exact .refl h
  | some f => exact State.reports_raise h f

/-! ### Towers -/

theorem serviceCode_injective : ∀ x y : Service, serviceCode x = serviceCode y → x = y := by
  intro x y
  cases x <;> cases y <;> decide

/-- The TOWER word shows whether its tower is configured. -/
theorem TowerState.configured_of_wordFields {tw tv : TowerState} (h : tw.wordFields = tv.wordFields) :
    tw.configured = tv.configured := by
  have code : ∀ x : TowerState, x.wordFields / 8 % 8 = serviceCode x.service := fun x => by
    have := serviceCode_lt x.service
    have := loopCode_lt x.loop
    unfold TowerState.wordFields field
    omega
  have service := serviceCode_injective tw.service tv.service (by rw [← code, ← code, h])
  rw [TowerState.configured, TowerState.configured, service]

theorem wordTower_loud (u : Tower) : wordTower u ∉ quietWords := by
  revert u
  decide

/-- What the tower controller reports when a tower has become another. -/
theorem Control.towerChanged_running {c : Control} (h : c.part = .running) (u : Tower) (old new : TowerState) :
    (∀ v : CtlWord, (c.towerChanged u old new).mirror.getLsbD v.val = true ↔ c.mirror.getLsbD v.val = true
        ∨ v = wordTower u ∧ old.wordFields ≠ new.wordFields ∨ v = wordPartStatus ∧ old.configured ≠ new.configured) := by
  intro v
  unfold Control.towerChanged
  split
  · next same => simp [same, TowerState.configured_of_wordFields same]
  split
  · next shown same =>
    rw [Control.report_running h]
    simp [shown, same]
  · next shown joined =>
    rw [Control.report_running ((Control.report_keeps _ _).1.trans h), Control.report_running h]
    simp [shown, joined, or_assoc]

theorem Control.towerChanged_onlyMirror (u : Tower) (old new : TowerState) (c : Control) :
    c.towerChanged u old new = { c with mirror := (c.towerChanged u old new).mirror } := by
  unfold Control.towerChanged Control.report
  repeat' split
  all_goals rfl

/-- A tower replaced is reported where it shows a change (R79, R99, R154, R158). -/
theorem State.reports_putTower {s : State} (h : s.control.part = .running) (u : Tower) (tw : TowerState) :
    s.Reports (s.putTower u tw) := by
  refine .of_words h (Control.towerChanged_onlyMirror u s.towers[u] tw s.control)
    (Control.towerChanged_running h u s.towers[u] tw) (fun v hv => ?_) fun v hv => ?_
  · rcases hv with ⟨rfl, -⟩ | ⟨rfl, -⟩
    · exact wordTower_loud u
    · decide
  · obtain ⟨own, set⟩ := not_or.1 hv
    have fields := s.putTower_control u tw
    refine State.wordFields_congr (fun x hx => ?_) (fun _ _ => rfl) (fun _ => rfl) (fun _ => by simp) (fun _ => by simp)
      (fun _ => rfl) (fun e => ⟨rfl, ?_⟩) (fun _ => by simp) (fun _ => rfl) (fun _ => rfl) fields.1
    · rw [State.putTower_get]
      split
      · next hu =>
        subst hu
        exact (Classical.not_not.1 fun n => own ⟨hx, n⟩).symm
      · rfl
    · have same : s.towers[u].configured = tw.configured := Classical.not_not.1 fun n => set ⟨e, n⟩
      unfold State.configuredFields
      refine congrArg List.sum (List.map_congr_left fun x _ => ?_)
      rw [State.putTower_get]
      split
      · next hu => rw [hu, same]
      · rfl

theorem State.reports_modTower {s : State} (h : s.control.part = .running) (u : Tower) (f : TowerState → TowerState) :
    s.Reports (s.modTower u f) := State.reports_putTower h u _

theorem State.reports_modTowers {s : State} (h : s.control.part = .running) (f : TowerState → TowerState)
    (ts : List Tower) : s.Reports (s.modTowers f ts) := by
  induction ts generalizing s with
  | nil => exact .refl h
  | cons u ts ih =>
    exact (State.reports_modTower h u f).andThen ih

end Sys2Proof.Machine
end

section
/-! PROOFS. The engine's reports, and what every event ends with. -/

namespace Sys2Proof.Machine

/-! ### The engine -/

/-- What a BIND word shows has changed (R140). -/
def Engine.rebound (old new : Engine) (k : Source) : Prop :=
  ¬(old.bindings.get k = new.bindings.get k ∧ (k ≠ .sheet ∨ old.divisor = new.divisor))

theorem Engine.reportBinds_running (old new : Engine) (ks : List Source) {c : Control} (h : c.part = .running)
    (v : CtlWord) : (ks.foldl (Engine.reportBind old new) c).mirror.getLsbD v.val = true
      ↔ c.mirror.getLsbD v.val = true ∨ ∃ k ∈ ks, v = wordBind k ∧ old.rebound new k := by
  induction ks generalizing c with
  | nil => simp
  | cons k ks ih =>
    rw [List.foldl_cons]
    by_cases same : old.bindings.get k = new.bindings.get k ∧ (k ≠ .sheet ∨ old.divisor = new.divisor)
    · have first : Engine.reportBind old new c k = c := if_pos same
      have : ¬old.rebound new k := Classical.not_not.2 same
      rw [first, ih h]
      simp [this]
    · have first : Engine.reportBind old new c k = c.report (wordBind k) := if_neg same
      rw [first, ih ((Control.report_keeps _ _).1.trans h), Control.report_running h]
      have : old.rebound new k := same
      simp [this, or_assoc]

/-- The words that a change of the engine reports (R129, R140). -/
def Engine.reported (old new : Engine) (v : CtlWord) : Prop :=
  (v = wordEngine ∧ old.view ≠ new.view) ∨ ((v = wordStart ∨ v = wordPartStatus) ∧ old.state ≠ new.state)
    ∨ ∃ k ∈ allSources, v = wordBind k ∧ old.rebound new k

theorem Engine.reports_running (old new : Engine) {c : Control} (h : c.part = .running) (v : CtlWord) :
    (Engine.reports old new c).mirror.getLsbD v.val = true ↔ c.mirror.getLsbD v.val = true ∨ old.reported new v := by
  unfold Engine.reports Engine.reported
  by_cases view : old.view = new.view
  · by_cases state : old.state = new.state
    · simp only [if_pos view, if_pos state]
      rw [Engine.reportBinds_running old new _ h]
      simp [view, state]
    · have moved : old.view = new.view → old.state = new.state := fun e => congrArg Prod.fst e
      exact absurd (moved view) state
  · by_cases state : old.state = new.state
    · simp only [if_neg view, if_pos state]
      rw [Engine.reportBinds_running old new _ ((Control.report_keeps _ _).1.trans h), Control.report_running h]
      simp [view, state, or_assoc]
    · simp only [if_neg view, if_neg state]
      rw [Engine.reportBinds_running old new _ (by simpa using h), Control.report_running (by simpa using h),
        Control.report_running (by simpa using h), Control.report_running h]
      simp [view, state, or_assoc]

theorem Engine.reports_onlyMirror (old new : Engine) (c : Control) :
    Engine.reports old new c = { c with mirror := (Engine.reports old new c).mirror } := by
  have binds : ∀ (ks : List Source) (c : Control), ks.foldl (Engine.reportBind old new) c
      = { c with mirror := (ks.foldl (Engine.reportBind old new) c).mirror } := by
    intro ks
    induction ks with
    | nil => exact fun c => rfl
    | cons k ks ih =>
      intro c
      rw [List.foldl_cons, ih]
      generalize (ks.foldl (Engine.reportBind old new) (Engine.reportBind old new c k)).mirror = m
      unfold Engine.reportBind Control.report
      repeat' split
      all_goals rfl
  unfold Engine.reports
  rw [binds]
  generalize (allSources.foldl (Engine.reportBind old new) _).mirror = m
  unfold Control.report
  dsimp only
  repeat' split
  all_goals rfl

theorem Engine.wordFields_of_view {e x : Engine} (h : e.view = x.view) : e.wordFields = x.wordFields := by
  simp only [Engine.view, Prod.mk.injEq, allSources, List.map_cons, List.map_nil, List.cons.injEq] at h
  obtain ⟨-, head, current, visited, slot, p1, p2, p3, p4, p5, -⟩ := h
  simp only [PerSource.get] at p1 p2 p3 p4 p5
  unfold Engine.wordFields
  rw [head, current, visited, slot, p1, p2, p3, p4, p5]

theorem Engine.bindFields_of_bound {e x : Engine} {k : Source}
    (h : e.bindings.get k = x.bindings.get k ∧ (k ≠ .sheet ∨ e.divisor = x.divisor)) : e.bindFields k = x.bindFields k := by
  obtain ⟨same, divisor⟩ := h
  unfold Engine.bindFields
  rw [same]
  split
  · next hk => rw [divisor.resolve_left fun n => n hk]
  · rfl

/-- An engine replaced is reported where it shows a change (R129, R140). -/
theorem State.reports_putEngine {s : State} (h : s.control.part = .running) (e : Engine) : s.Reports (s.putEngine e) := by
  refine .of_words h (Engine.reports_onlyMirror s.engine e s.control) (Engine.reports_running s.engine e h)
    (fun v hv => ?_) fun v hv => ?_
  · rcases hv with ⟨rfl, -⟩ | ⟨rfl | rfl, -⟩ | ⟨k, -, rfl, -⟩
    · decide
    · decide
    · decide
    · cases k <;> decide
  · have view : v = wordEngine → s.engine.view = e.view := fun hw => Classical.not_not.1 fun n => hv (.inl ⟨hw, n⟩)
    have state : v = wordStart ∨ v = wordPartStatus → s.engine.state = e.state := fun hw =>
      Classical.not_not.1 fun n => hv (.inr (.inl ⟨hw, n⟩))
    have bound : ∀ k, v = wordBind k → _ := fun k hw =>
      Classical.not_not.1 fun n => hv (.inr (.inr ⟨k, by cases k <;> decide, hw, n⟩))
    have fields := s.putEngine_control e
    exact State.wordFields_congr (fun _ _ => rfl) (fun k hk => (Engine.bindFields_of_bound (bound k hk)).symm)
      (fun hw => (state (.inl hw)).symm) (fun _ => by simp) (fun _ => by simp) (fun _ => rfl)
      (fun hw => ⟨(state (.inr hw)).symm, rfl⟩) (fun _ => by simp) (fun _ => rfl)
      (fun hw => (Engine.wordFields_of_view (view hw)).symm) fields.1

end Sys2Proof.Machine
end

section
/-! PROOFS. What the blocks' operations report: the link, the engine's chains, the towers' events. -/

namespace Sys2Proof.Machine

/-! ### What every event ends with -/

theorem State.reports_offerChannel {s : State} (h : s.control.part = .running) : s.Reports s.offerChannel := by
  have control : s.offerChannel.control
      = { s.control with channel := s.offerChannel.control.channel, pointer := s.offerChannel.control.pointer } := by
    unfold State.offerChannel State.offerMirror State.offerOn State.offer
    repeat' split
    all_goals rfl
  refine .of_hidden h control (fun u => ?_) (fun k => ?_) ⟨?_, ?_⟩ ?_ ?_
  all_goals simp only [State.offerChannel_keeps]
  exact ⟨trivial, trivial⟩

theorem State.reports_transmit {s : State} (h : s.control.part = .running) (u : Tower) (frame : List Byte) :
    s.Reports (s.transmit u frame) := .of_blocks h rfl rfl rfl rfl rfl

theorem State.reports_serve {s : State} (h : s.control.part = .running) (u : Tower) : s.Reports (s.serve u) := by
  have sends : ∀ (tw : TowerState) (frame : List Byte), s.Reports ((s.putTower u tw).transmit u frame) := fun tw frame =>
    (State.reports_putTower h u tw).andThen (State.reports_transmit · u frame)
  unfold State.serve
  dsimp only
  repeat' split
  · exact sends _ _
  · exact sends _ _
  · exact .refl h
  · exact sends _ _

theorem State.reports_search {s : State} (h : s.control.part = .running) : s.Reports s.search := by
  unfold State.search
  split
  · exact .refl h
  · exact State.reports_serve h _

/-- What follows every event reports what it changes. -/
theorem State.reports_settle (s0 : State) {s : State} (h : s.control.part = .running) : s.Reports (State.settle s0 s) := by
  have searched : s.Reports (State.searchIfChanged s0 s) := by
    unfold State.searchIfChanged
    split
    · exact State.reports_search h
    · exact .refl h
  exact searched.andThen State.reports_offerChannel

/-! ### Chains -/

theorem State.reports_offer {s : State} (h : s.control.part = .running) (r : IReq) : s.Reports (s.offer r) :=
  .of_blocks h rfl rfl rfl rfl rfl

theorem State.reports_fetch {s : State} (h : s.control.part = .running) (e : Engine) : s.Reports (s.fetch e) :=
  (State.reports_putEngine h _).andThen (State.reports_offer · _)

theorem State.reports_serveStarts {s : State} (h : s.control.part = .running) : s.Reports s.serveStarts := by
  unfold State.serveStarts
  split
  · exact .refl h
  · exact (State.reports_putEngine h _).andThen (State.reports_fetch · _)
  · exact (State.reports_putEngine h _).andThen (State.reports_fetch · _)

theorem State.reports_endChain {s : State} (h : s.control.part = .running) : s.Reports s.endChain :=
  (State.reports_putEngine h _).andThen State.reports_serveStarts

theorem State.reports_writeBack {s : State} (h : s.control.part = .running) (ws : List Word) (o : OrderOutcome) :
    s.Reports (s.writeBack ws o) :=
  (State.reports_putEngine h _).andThen (State.reports_offer · _)

theorem State.reports_orderWritten {s : State} (h : s.control.part = .running) (failed : Bool) :
    s.Reports (s.orderWritten failed) := by
  unfold State.orderWritten
  split
  · exact State.reports_endChain h
  · next o _ =>
    have raised := State.reports_raiseSome h (outcomeEvent (orderRec o.words) o.outcome)
    dsimp only
    split
    · exact raised.andThen (State.reports_fetch · _)
    · exact raised.andThen State.reports_endChain

theorem State.reports_fetchFailed {s : State} (h : s.control.part = .running) : s.Reports s.fetchFailed :=
  ((State.reports_putEngine h _).andThen (State.reports_raise · .orderFault)).andThen State.reports_endChain

theorem State.reports_fire {s : State} (h : s.control.part = .running) (k : Source) : s.Reports (s.fire k) := by
  by_cases armed : (s.engine.bindings.get k).armed = true
  · by_cases pending : (s.engine.bindings.get k).pending = true
    · rw [State.fire_merged armed pending]
      exact State.reports_raise h _
    · have waits := State.reports_putEngine h (s.engine.pend k)
      by_cases idle : s.engine.state = .idle
      · rw [State.fire_serves armed (Bool.not_eq_true _ ▸ pending) idle]
        exact waits.andThen State.reports_serveStarts
      · rw [State.fire_waits armed (Bool.not_eq_true _ ▸ pending) idle]
        exact waits
  · rw [State.fire_disarmed (Bool.not_eq_true _ ▸ armed)]
    exact .refl h

/-! ### Pulses, edges, timeouts and the lines -/

/-- The divisor's counter is shown by no word. -/
theorem State.reports_counter {s : State} (h : s.control.part = .running) (n : Nat) :
    s.Reports { s with engine := { s.engine with counter := n } } :=
  .of_hidden h rfl (fun _ => ⟨rfl, rfl⟩) (fun _ => rfl) ⟨rfl, rfl⟩ rfl rfl

theorem State.reports_countSheet {s : State} (h : s.control.part = .running) : s.Reports s.countSheet := by
  unfold State.countSheet
  repeat' split
  · exact (State.reports_counter h 0).andThen (State.reports_fire · .sheet)
  · exact State.reports_counter h _
  · exact .refl h

theorem State.reports_sheet {s : State} (h : s.control.part = .running) : s.Reports s.sheet :=
  (State.reports_modTowers h _ _).andThen State.reports_countSheet

theorem State.reports_edge {s : State} (h : s.control.part = .running) (b : Bool) (f : TowerState → TowerState)
    (k : Source) : s.Reports ((s.edged b f).fire k) := by
  have level : s.Reports (s.setImpr b) := .of_blocks h rfl rfl rfl rfl rfl
  exact (level.andThen (State.reports_modTowers · f allTowers)).andThen (State.reports_fire · k)

theorem State.reports_imprRise {s : State} (h : s.control.part = .running) : s.Reports s.imprRise := by
  unfold State.imprRise
  split
  · exact .refl h
  · exact State.reports_edge h true TowerState.rise .imprOn

theorem State.reports_imprFall {s : State} (h : s.control.part = .running) : s.Reports s.imprFall := by
  unfold State.imprFall
  split
  · exact State.reports_edge h false TowerState.fall .imprOff
  · exact .refl h

theorem State.reports_endSending {s : State} (h : s.control.part = .running) : s.Reports s.endSending := by
  unfold State.endSending
  split
  · exact .of_blocks h rfl rfl rfl rfl rfl
  · exact .refl h

theorem State.reports_endGap {s : State} (h : s.control.part = .running) : s.Reports s.endGap := by
  unfold State.endGap
  split
  · have idle : s.Reports { s with link := { s.link with tx := .idle } } := .of_blocks h rfl rfl rfl rfl rfl
    exact idle.andThen State.reports_search
  · exact .refl h

theorem State.reports_takeTimeout {s : State} (h : s.control.part = .running) (u : Tower) (sl : Slot) :
    s.Reports (s.takeTimeout u sl) := by
  unfold State.takeTimeout
  split
  · exact ((State.reports_modTower h u _).andThen (State.reports_raiseIf · _ .keyFault)).andThen
      (State.reports_raiseIf · _ .towerDown)
  · exact .refl h

theorem State.reports_takeAnswer {s : State} (h : s.control.part = .running) (u : Tower) (k : AnswerKind)
    (key tag : Byte) (p : Nat) : s.Reports (s.takeAnswer u k key tag p) :=
  (State.reports_putTower h u _).andThen (State.reports_raiseIf · _ .keyFault)

theorem State.reports_deliver {s : State} (h : s.control.part = .running) (f : LinkFrame) : s.Reports (s.deliver f) := by
  unfold State.deliver
  repeat' split
  · exact .refl h
  · exact State.reports_takeAnswer h _ _ _ _ _
  · exact State.reports_takeAnswer h _ _ _ _ _
  · exact State.reports_takeAnswer h _ _ _ _ _
  · exact (State.reports_modTower h _ _).andThen (State.reports_raise · .towerUp)
  · exact .refl h

theorem State.reports_setRx {s : State} (h : s.control.part = .running) (r : RxState) : s.Reports (s.setRx r) :=
  .of_blocks h rfl rfl rfl rfl rfl

theorem State.reports_lineEvent {s : State} (h : s.control.part = .running) (e : LineEvent) : s.Reports (s.lineEvent e) := by
  unfold State.lineEvent State.assemble
  repeat' split
  · exact State.reports_setRx h _
  · exact .refl h
  · exact State.reports_setRx h _
  · exact State.reports_setRx h _
  · exact State.reports_setRx h _
  · exact State.reports_setRx h _
  · exact (State.reports_setRx h _).andThen (State.reports_deliver · _)

theorem State.reports_receive (line : List LineEvent) {s : State} (h : s.control.part = .running) :
    s.Reports (s.receive line) := by
  induction line generalizing s with
  | nil => exact .refl h
  | cons e line ih =>
    exact (State.reports_lineEvent h e).andThen ih

end Sys2Proof.Machine
end

section
/-! PROOFS. What the loop unit, the coverage unit and the completions report. -/

namespace Sys2Proof.Machine

/-! ### The loop unit -/

/-- A change of the measure status, ahead of its report. -/
theorem State.reportsBut_status {s : State} (h : s.control.part = .running) (x : MeasureStatus) :
    s.ReportsBut noWord (· = wordMeasure) noWord { s with loop := { s.loop with status := x } } :=
  .of_same h rfl rfl rfl rfl rfl fun _ hv => State.wordFields_congr (fun _ _ => rfl) (fun _ _ => rfl) (fun _ => rfl)
    (fun _ => rfl) (fun _ => rfl) (fun _ => rfl) (fun _ => ⟨rfl, rfl⟩) (fun _ => rfl) (fun e => absurd e hv)
    (fun _ => rfl) rfl

theorem State.reports_dropRecord {s : State} (h : s.control.part = .running) (why : DropReason) (i : Fin 16)
    (tower : Option Byte) : s.Reports (s.dropRecord why i tower) := by
  have status := State.reportsBut_status h { s.loop.status with reason := why, slot := i, dropTower := tower }
  have raised := State.reports_raise status.part .measureDropped
  have reported := State.reports_report raised.part (w := wordMeasure) (by decide)
  refine ((status.trans raised).trans reported).reported (by simp) (fun hp => ?_)
    (Control.report_self raised.part wordMeasure)
  exact reported.pending (raised.pending hp)

theorem State.reports_applyRecord {s : State} (h : s.control.part = .running) (m : MeasureRec) (u : Tower) :
    s.Reports (s.applyRecord m u) := by
  have moved := (State.reports_modTower h u (TowerState.revalueEvent (fun sl => setCorrection (s.correctionOf m u sl))
    TowerState.slots)).andThen (State.reports_modTower · u TowerState.settleAgain)
  refine moved.andThen fun running => ?_
  have status := State.reportsBut_status running { ((s.correct m u).modTower u TowerState.settleAgain).loop.status with
    applied := some u, sheetTag := m.sheetTag }
  have raised := (State.reports_raise status.part .measureApplied).andThen (State.reports_fire · .measure)
  have reported := State.reports_report raised.part (w := wordMeasure) (by decide)
  have tower := State.reports_report reported.part (wordTower_loud u)
  exact (((status.trans raised).trans reported).trans tower).reported (by simp)
    (fun hp => tower.pending (reported.pending (raised.pending hp)))
    (Control.report_keepsMirror _ _ (Control.report_self raised.part wordMeasure))

theorem State.reports_gate {s : State} (h : s.control.part = .running) (i : Fin 16) (m : Option MeasureRec) :
    s.Reports (s.gate i m) := by
  unfold State.gate
  repeat' split
  · exact State.reports_dropRecord h _ _ _
  · exact State.reports_dropRecord h _ _ _
  · exact State.reports_dropRecord h _ _ _
  · exact State.reports_dropRecord h _ _ _
  · exact State.reports_applyRecord h _ _

theorem State.reports_offerSlotRead {s : State} (h : s.control.part = .running) : s.Reports s.offerSlotRead := by
  refine .of_blocks h ?_ ?_ ?_ ?_ ?_
  all_goals rw [s.offerSlotRead_shape]

theorem State.reports_slotRead {s : State} (h : s.control.part = .running) (i : Fin 16) (m : Option MeasureRec) :
    s.Reports (s.slotRead i m) := by
  have taken : s.Reports (s.slotTaken i) := .of_blocks h rfl rfl rfl rfl rfl
  have forgets : ∀ {x : State}, x.control.part = .running → x.Reports (x.forgetResets i) := fun hx =>
    .of_blocks hx rfl rfl rfl rfl rfl
  exact ((taken.andThen (State.reports_gate · i m)).andThen forgets).andThen State.reports_offerSlotRead

theorem State.reports_enlist {s : State} (h : s.control.part = .running) (i : Fin 16) : s.Reports (s.enlist i) := by
  have listed : s.Reports (s.listed i) := .of_blocks h rfl rfl rfl rfl rfl
  exact listed.andThen State.reports_offerSlotRead

/-! ### The coverage unit -/

/-- The BANK word shows the banks' states and which is active (R34). -/
theorem Coverage.wordFields_congr {c d : Coverage} (states : ∀ bk, (d.banks.get bk).state = (c.banks.get bk).state)
    (active : d.active = c.active) : d.wordFields = c.wordFields := by
  unfold Coverage.wordFields
  rw [show d.banks.a.state = c.banks.a.state from states .a, show d.banks.b.state = c.banks.b.state from states .b, active]

theorem Coverage.wordFields_madeUnfit {c d : Coverage} {p : BankId → Tower → Prop} (h : c.madeUnfit d p) :
    d.wordFields = c.wordFields := by
  obtain ⟨-, -, -, states, active, -⟩ := h
  exact Coverage.wordFields_congr states active

theorem Coverage.wordFields_voidFold (p : Fold → Bool) (b : Bool) (c : Coverage) :
    (c.voidFold p b).wordFields = c.wordFields :=
  Coverage.wordFields_congr (by simp) (by simp)

theorem Coverage.wordFields_modFrame (bk : BankId) (u : Tower) (f : Frame → Frame) (c : Coverage) :
    (c.modFrame bk u f).wordFields = c.wordFields := by
  cases bk <;> rfl

end Sys2Proof.Machine
end

section
/-! PROOFS. What the press bus, the coverage unit's commands, memory's answers and the orders report. -/

namespace Sys2Proof.Machine

/-! ### Masters -/

theorem State.reports_respond {s : State} (h : s.control.part = .running) (c : MasterClass) (r : Response) :
    s.Reports (s.respond c r) := .of_blocks h rfl rfl rfl rfl rfl

theorem State.reports_claim {s : State} (h : s.control.part = .running) (a : Access) (p : Purpose) :
    s.Reports (s.claim a p) := .of_blocks h rfl rfl rfl rfl rfl

/-- A refusal is shown by the REFUSAL word, which a capture reports (R167). -/
theorem State.reports_capture {s : State} (h : s.control.part = .running) (a : Addr) (c : MasterClass) :
    s.Reports (s.capture a c) := by
  by_cases valid : s.control.capture.valid = true
  · have same : s.capture a c = s := by
      unfold State.capture Control.capture_
      rw [if_pos valid]
    rw [same]
    exact .refl h
  · have filled : s.ReportsBut noWord (· = wordRefusal) noWord
        { s with control := { s.control with capture := ⟨true, a, c⟩ } } :=
      .of_same h rfl rfl rfl rfl rfl fun _ hv => State.wordFields_congr (fun _ _ => rfl) (fun _ _ => rfl) (fun _ => rfl)
        (fun _ => rfl) (fun _ => rfl) (fun _ => rfl) (fun _ => ⟨rfl, rfl⟩) (fun e => absurd e hv) (fun _ => rfl)
        (fun _ => rfl) rfl
    have captured : s.capture a c
        = ({ s with control := { s.control with capture := ⟨true, a, c⟩ } } : State).report wordRefusal := by
      unfold State.capture Control.capture_
      rw [if_neg valid]
      rfl
    have reported := State.reports_report filled.part (w := wordRefusal) (by decide)
    rw [captured]
    exact (filled.trans reported).reported (by simp) reported.pending (Control.report_self filled.part wordRefusal)

theorem State.reports_refuse {s : State} (h : s.control.part = .running) (a : Access) : s.Reports (s.refuse a) :=
  (State.reports_capture h _ _).andThen (State.reports_respond · _ _)

/-! ### The fold latch -/

theorem State.reports_setLatch {s : State} (h : s.control.part = .running) (f : Option Fold) : s.Reports (s.setLatch f) :=
  .of_blocks h rfl rfl rfl rfl rfl

theorem State.reports_refuseFold {s : State} (h : s.control.part = .running) (a : Access) : s.Reports (s.refuseFold a) :=
  (State.reports_raise h .bankRefused).andThen (State.reports_refuse · a)

theorem State.reports_takeFold {s : State} (h : s.control.part = .running) (a : Access) : s.Reports (s.takeFold a) := by
  unfold State.takeFold
  split
  · exact State.reports_refuseFold h a
  · exact (State.reports_setLatch h _).andThen (State.reports_claim · a .foldRead)

theorem State.reports_takeWaiter {s : State} (h : s.control.part = .running) (x : BusAccess) : s.Reports (s.takeWaiter x) := by
  unfold State.takeWaiter
  split
  · exact State.reports_refuseFold h _
  · exact State.reports_takeFold h _

theorem State.reports_setWaiting {s : State} (h : s.control.part = .running) (ws : List MasterClass) :
    s.Reports (s.setWaiting ws) := .of_blocks h rfl rfl rfl rfl rfl

theorem State.reports_takeWaiting (l : List MasterClass) {s : State} (h : s.control.part = .running) :
    s.Reports (State.takeWaiting l s) := by
  induction l generalizing s with
  | nil => exact State.reports_setWaiting h []
  | cons c l ih =>
    unfold State.takeWaiting
    split
    · exact ih h
    · next x _ =>
      split
      · exact (State.reports_takeWaiter h x).andThen (State.reports_setWaiting · l)
      · exact (State.reports_takeWaiter h x).andThen ih

theorem State.reports_emptyLatch {s : State} (h : s.control.part = .running) : s.Reports s.emptyLatch :=
  (State.reports_setLatch h none).andThen (State.reports_takeWaiting _)

/-! ### The clear cursor and the bank commands -/

/-- A change of the coverage unit that the BANK word may show, ahead of its report. -/
theorem State.reportsBut_coverage {s : State} (h : s.control.part = .running) (c : Coverage) :
    s.ReportsBut noWord (· = wordBank) noWord { s with coverage := c } :=
  .of_same h rfl rfl rfl rfl rfl fun _ hv => State.wordFields_congr (fun _ _ => rfl) (fun _ _ => rfl) (fun _ => rfl)
    (fun _ => rfl) (fun _ => rfl) (fun e => absurd e hv) (fun _ => ⟨rfl, rfl⟩) (fun _ => rfl) (fun _ => rfl)
    (fun _ => rfl) rfl

theorem State.reports_offerClear {s : State} (h : s.control.part = .running) (c : Cursor) : s.Reports (s.offerClear c) := by
  unfold State.offerClear
  split
  · exact .refl h
  · exact .of_blocks h rfl rfl rfl rfl rfl

theorem State.reports_firstClear {s : State} (h : s.control.part = .running) : s.Reports s.firstClear := by
  unfold State.firstClear
  repeat' split
  · exact .refl h
  · exact .refl h
  · exact State.reports_offerClear h _

theorem State.reports_clearWritten {s : State} (h : s.control.part = .running) (ok : Bool) : s.Reports (s.clearWritten ok) := by
  unfold State.clearWritten
  split
  · exact .refl h
  · next c _ =>
    split
    · split
      · exact State.reports_offerClear h _
      · have ended := State.reportsBut_coverage h (s.coverage.endClear c.bank .opened)
        have raised := State.reports_raise ended.part .bankReady
        have reported := State.reports_report raised.part (w := wordBank) (by decide)
        exact ((ended.trans raised).trans reported).reported (by simp) (fun hp => reported.pending (raised.pending hp))
          (Control.report_self raised.part wordBank)
    · have ended := State.reportsBut_coverage h
        ((s.coverage.endClear c.bank .stale).voidFold (fun f => f.bank = c.bank) false)
      have reported := State.reports_report ended.part (w := wordBank) (by decide)
      exact (ended.trans reported).reported (by simp) reported.pending (Control.report_self ended.part wordBank)

theorem State.reportsBut_bankCommand {s : State} (h : s.control.part = .running) (cmd : BankCmd) :
    s.ReportsBut noWord (· = wordBank) noWord (s.bankCommand cmd).2 :=
  (State.reportsBut_coverage h (s.coverage.command cmd).2).trans
    (State.reports_raiseIf (s := { s with coverage := (s.coverage.command cmd).2 }) h _ .bankReady)

/-! ### Orders -/

theorem State.reports_orderBank {s t : State} (h : s.control.part = .running) {cmd : BankCmd}
    (run : s.orderBank cmd = .ok t) : s.Reports t := by
  have commanded := State.reportsBut_bankCommand h cmd
  have shown : ∀ b, (b = false → (s.bankCommand cmd).2.coverage.wordFields = s.coverage.wordFields) →
      s.Reports ((s.bankCommand cmd).2.reportIf b wordBank) := fun b same => by
    cases b with
    | true =>
      have reported := State.reports_report commanded.part (w := wordBank) (by decide)
      exact (commanded.trans reported).reported (by simp [State.bankCommand])
        (fun hp => reported.pending
          ((State.reports_raiseIf (s := { s with coverage := (s.coverage.command cmd).2 }) h _ .bankReady).pending hp))
        (Control.report_self commanded.part wordBank)
    | false =>
      have quiet : s.Reports { s with coverage := (s.coverage.command cmd).2 } :=
        .of_blocks h rfl rfl rfl (by simpa [State.bankCommand] using same rfl) rfl
      exact quiet.andThen (State.reports_raiseIf · _ .bankReady)
  unfold State.orderBank at run
  dsimp only at run
  split at run
  · cases run
    cases cmd with
    | clear bk => exact shown true nofun
    | lock bk => exact shown _ (by simp)
    | unlock bk => exact shown _ (by simp)
    | swap => exact shown _ (by simp)
  · cases run

theorem Verb.reports {run : OrderRec → State → Except FaultCode State} (hv : Verb run) {r : OrderRec} {s t : State}
    (h : s.control.part = .running) (ran : run r s = .ok t) : s.Reports t := by
  cases hv with
  | preset =>
    have fold : ∀ (l : List Tower) {x : State}, x.control.part = .running → x.Reports (l.foldl (State.presetTower r s) x) := by
      intro l
      induction l with
      | nil => exact .refl
      | cons u l ih => exact fun hx => (State.reports_modTower hx u _).andThen ih
    unfold State.runPreset at ran
    repeat' split at ran
    all_goals cases ran
    exact fold _ h
  | keyRange f =>
    simp only [State.keyRange] at ran
    split at ran
    · cases ran
    · cases ran
      exact State.reports_modTowers h _ _
  | namedBank cmd =>
    unfold State.orderNamedBank at ran
    split at ran
    · cases ran
    · exact State.reports_orderBank h ran
  | swap => exact State.reports_orderBank h ran
  | loop f =>
    unfold State.orderLoop at ran
    split at ran
    · cases ran
    · cases ran
      exact State.reports_modTowers h _ _
  | nop =>
    cases ran
    exact .refl h
  | fault => cases ran

/-! ### Completions -/

theorem State.reports_completed {s : State} (h : s.control.part = .running) (ws : List PortWord) (anss : List MemAnswer)
    (d : Bool) : s.Reports (s.completed ws anss d) := by
  have answered : s.Reports (({ s with mem := Memory.answers s.mem ws anss } : State).freePort) :=
    .of_blocks h rfl rfl rfl rfl rfl
  exact answered.andThen (State.reports_raiseIf · _ .memoryFault)

theorem State.reports_complete {s : State} (h : s.control.part = .running) {due : IReq → Bool} {anss : List MemAnswer}
    {k : IReq → List PortWord → State → State}
    (hk : ∀ r ws {x : State}, x.control.part = .running → x.Reports (k r ws x)) : s.Reports (s.complete due anss k) :=
  State.complete_induction (P := s.Reports) (.refl h) (fun ws d => State.reports_completed h ws anss d)
    fun r ws _ hx => hx.andThen (hk r ws)

theorem State.reports_orderCancelled {s : State} (h : s.control.part = .running) : s.Reports s.orderCancelled :=
  State.orderCancelled_induction (P := s.Reports) (.refl h) (fun ws d => State.reports_completed h ws [] d)
    fun ws o _ hx => hx.andThen (State.reports_writeBack · ws o)

theorem State.reports_orderRow {s : State} (h : s.control.part = .running) {row : Nat → Bool}
    {run : OrderRec → State → Except FaultCode State} (hv : Verb run) : s.Reports (s.orderRow row run) :=
  State.orderRow_induction (P := s.Reports) (.refl h) (fun ws d => State.reports_completed h ws [] d)
    (fun ws o _ hx => hx.andThen (State.reports_writeBack · ws o)) fun _ _ _ hx hy => hx.andThen (hv.reports · hy)

theorem State.reports_slotDelivered {s : State} (h : s.control.part = .running) (errors : BitVec 31) (m : List Host.Cell)
    (r : IReq) (ws : List PortWord) : s.Reports (State.slotDelivered errors m r ws s) := by
  unfold State.slotDelivered
  split
  · exact State.reports_slotRead h _ _
  · exact .refl h

theorem State.reports_freeChannel {s : State} (h : s.control.part = .running) : s.Reports s.freeChannel :=
  .of_hidden h rfl (fun _ => ⟨rfl, rfl⟩) (fun _ => rfl) ⟨rfl, rfl⟩ rfl rfl

end Sys2Proof.Machine
end

section
/-! PROOFS. What commands, arriving accesses, grants and memory's answers report. -/

namespace Sys2Proof.Machine

/-! ### Commands -/

/-- The flags or the enables are written, and the line follows them (R164, R165). -/
theorem State.reportsBut_relevel {s : State} (h : s.control.part = .running) {w : CtlWord} {c : Control}
    (control : c = { s.control with flags := c.flags, enables := c.enables })
    (flags : w ≠ wordEvent → c.flags = s.control.flags) (enables : w ≠ 3 → c.enables = s.control.enables) :
    s.ReportsBut noWord (· = w) noWord { s with control := c.relevel } where
  part := by
    show c.part = _
    rw [control]
    exact h
  keeps v _ hv := by
    show c.mirror.getLsbD v.val = true
    rw [control]
    exact hv
  shows v hv := by
    refine ⟨?_, .inl (State.wordFields_congr (fun _ _ => rfl) (fun _ _ => rfl) (fun _ => rfl)
      (fun e => flags fun k => hv (e.trans k.symm)) (fun e => enables fun k => hv (e.trans k.symm)) (fun _ => rfl)
      (fun _ => ⟨rfl, rfl⟩) (fun _ => ?_) (fun _ => rfl) (fun _ => rfl) ?_)⟩
    · show c.last[v] = _
      rw [control]
    · show c.capture = _
      rw [control]
    · show c.part = _
      rw [control]
  quiet v _ _ hv := by
    change c.mirror.getLsbD v.val = true at hv
    rwa [control] at hv
  addr := by
    show c.noticeAddr = _
    rw [control]
  risen low high addr := Control.relevel_risen (c := c) (by rw [control]; exact low) high (by rw [control]; exact addr)

theorem State.reports_towerWord {s : State} (h : s.control.part = .running) (u : Tower) (d : Word) :
    s.Reports (s.towerWord u d).2 := by
  have reset : s.Reports (s.resetCommand u).2 := by
    unfold State.resetCommand
    split
    · exact .refl h
    · exact .of_blocks h rfl rfl rfl rfl rfl
  have commanded : ∀ f, s.Reports (s.towerCommand u f).2 := fun f =>
    State.reports_modTower h u fun tw => (f tw).2
  unfold State.towerWord
  repeat' split
  · exact commanded _
  · exact commanded _
  · exact reset
  · exact commanded _
  · exact commanded _
  · exact commanded _
  · exact .refl h

theorem State.reports_bindWord {s : State} (h : s.control.part = .running) (k : Source) (d : Word) :
    s.Reports (s.bindWord k d).2 := by
  have armed : s.Reports (s.armBinding k (indexOf d) (byteOf d 2)).2 := by
    unfold State.armBinding
    split
    · exact .refl h
    · exact State.reports_putEngine h _
  unfold State.bindWord
  repeat' split
  · exact armed
  · exact State.reports_putEngine h _
  · exact .refl h

theorem State.reports_startWord {s : State} (h : s.control.part = .running) (d : Word) : s.Reports (s.startWord d).2 := by
  unfold State.startWord State.start
  repeat' split
  · exact .refl h
  · exact .refl h
  · exact State.reports_fetch h _
  · exact State.reports_putEngine h _
  · exact .refl h

theorem State.reports_stopWord {s : State} (h : s.control.part = .running) (d : Word) : s.Reports (s.stopWord d).2 := by
  unfold State.stopWord State.stop State.stopAll
  repeat' split
  · exact State.reports_putEngine h _
  · exact State.reports_putEngine h _
  · exact .refl h
  · exact (State.reports_putEngine h _).andThen (State.reports_modTowers · _ _)
  · exact .refl h

theorem State.reportsBut_bankWord {s : State} (h : s.control.part = .running) (d : Word) :
    s.ReportsBut noWord (· = wordBank) noWord (s.bankWord d).2 := by
  unfold State.bankWord
  repeat' split
  · exact State.reportsBut_bankCommand h _
  · exact State.reportsBut_bankCommand h _
  · exact State.reportsBut_bankCommand h _
  · exact State.reportsBut_bankCommand h _
  · exact (State.Reports.refl h).but _ _ _

/-- A command that leaves the part RUNNING reports what it changes, but for what its own word shows (R160). -/
theorem State.reportsBut_command {s : State} (h : s.control.part = .running) (w : CtlWord) (d : Word)
    (run : (s.command w d).2.control.part = .running) : s.ReportsBut noWord (· = w) noWord (s.command w d).2 := by
  revert run
  unfold State.command
  split
  · exact fun _ => (State.reports_towerWord h _ d).but _ _ _
  · exact fun _ => (State.reports_bindWord h _ d).but _ _ _
  split
  · exact fun _ => (State.reports_startWord h d).but _ _ _
  split
  · exact fun _ => (State.reports_stopWord h d).but _ _ _
  split
  · next hw => exact fun _ => State.reportsBut_relevel h rfl (fun n => absurd hw n) fun _ => rfl
  split
  · next hw => exact fun _ => State.reportsBut_relevel h rfl (fun _ => rfl) fun n => absurd hw n
  split
  · next hw =>
    rw [hw]
    exact fun _ => State.reportsBut_bankWord h d
  split
  · next hw =>
    exact fun _ => .of_same h rfl rfl rfl rfl rfl fun _ hv => State.wordFields_congr (fun _ _ => rfl) (fun _ _ => rfl)
      (fun _ => rfl) (fun _ => rfl) (fun _ => rfl) (fun _ => rfl) (fun _ => ⟨rfl, rfl⟩)
      (fun e => absurd (e.trans hw.symm) hv) (fun _ => rfl) (fun _ => rfl) rfl
  split
  · next hw =>
    rw [hw]
    exact fun _ => State.reportsBut_status h _
  split
  · unfold State.reloadWord
    split
    · exact fun run => nomatch (show PartState.loading = .running from run)
    · exact fun _ => (State.Reports.refl h).but _ _ _
  · exact fun _ => (State.Reports.refl h).but _ _ _

/-- The command's own word keeps its place in or out of the mirror set (R160). -/
theorem Control.keepOwn_mirror {old new : Control} {w : CtlWord} (run : new.part = .running) (v : CtlWord) :
    (Control.keepOwn w old new).mirror.getLsbD v.val = true
      ↔ new.mirror.getLsbD v.val = true ∧ (v = w → old.mirror.getLsbD v.val = true) := by
  unfold Control.keepOwn
  split
  · next out =>
    rw [Control.unmirror_mirror, Bool.and_eq_true, decide_eq_true_iff]
    refine and_congr_right fun _ => ⟨fun n e => absurd e n, fun own e => ?_⟩
    have := own e
    rw [e, out.2] at this
    cases this
  · next kept =>
    refine ⟨fun hv => ⟨hv, fun e => ?_⟩, And.left⟩
    rw [e]
    exact Bool.not_eq_false _ ▸ fun out => kept ⟨run, out⟩

/-- The state that a command leaves its answer to claim the port in. -/
def State.resulted (s y : State) (w : CtlWord) (r : Result) (d : Word) : State :=
  ({ y with control := Control.keepOwn w s.control y.control } : State).setResult w r d

theorem State.resulted_control (s y : State) (w : CtlWord) (r : Result) (d : Word) :
    (s.resulted y w r d).control = { Control.keepOwn w s.control y.control with
      last := if carriesResult w then y.control.last.set w r else y.control.last } := by
  have last : (Control.keepOwn w s.control y.control).last = y.control.last := by simp
  have shape : (s.resulted y w r d).control = if carriesResult w then (Control.keepOwn w s.control y.control).setLast w r
      else Control.keepOwn w s.control y.control := rfl
  rw [shape, ← last]
  split
  · rfl
  · rfl

theorem State.resulted_wordFields (s y : State) (w : CtlWord) (r : Result) (d : Word) (v : CtlWord) :
    (s.resulted y w r d).wordFields v = y.wordFields v := by
  have control := s.resulted_control y w r d
  have engine : ∃ a b, (s.resulted y w r d).engine = { y.engine with startIndex := a, stopIndex := b } := by
    unfold State.resulted State.setResult
    repeat' split
    all_goals exact ⟨_, _, rfl⟩
  obtain ⟨a, b, engine⟩ := engine
  exact State.wordFields_congr (fun _ _ => rfl) (fun _ _ => by rw [engine]; rfl) (fun _ => by rw [engine])
    (fun _ => by rw [control]; simp) (fun _ => by rw [control]; simp) (fun _ => rfl) (fun _ => ⟨by rw [engine], rfl⟩)
    (fun _ => by rw [control]; simp) (fun _ => rfl) (fun _ => by rw [engine]; rfl) (by rw [control]; simp)

theorem State.takeCommand_eq (a : Access) (w : CtlWord) (s : State) : s.takeCommand a w
    = (s.resulted (s.command w a.data).2 w (s.command w a.data).1 a.data).claim a
      (.answer w (s.command w a.data).1 (indexOf a.data)) := rfl

/-- A taken command reports what it changes, but for its own word, which its answer shows (R11, R157, R160). -/
theorem State.reportsBut_takeCommand {s : State} (h : s.control.part = .running) (a : Access) (w : CtlWord)
    (run : (s.takeCommand a w).control.part = .running) : s.ReportsBut noWord (· = w) noWord (s.takeCommand a w) := by
  rw [State.takeCommand_eq] at run ⊢
  have part : (s.command w a.data).2.control.part = .running := by
    refine Eq.trans ?_ run
    show _ = (s.resulted _ w _ a.data).control.part
    rw [State.resulted_control]
    simp
  obtain ⟨-, keeps, shows, quiet, addr, risen⟩ := State.reportsBut_command h w a.data part
  generalize (s.command w a.data).1 = r at *
  generalize (s.command w a.data).2 = y at *
  have control := s.resulted_control y w r a.data
  have run : (s.resulted y w r a.data).control.part = .running := run
  have own : ∀ v : CtlWord, (s.resulted y w r a.data).control.mirror.getLsbD v.val = true
      ↔ y.control.mirror.getLsbD v.val = true ∧ (v = w → s.control.mirror.getLsbD v.val = true) := fun v => by
    rw [control]
    exact Control.keepOwn_mirror part v
  have resulted : s.ReportsBut noWord (· = w) noWord (s.resulted y w r a.data) := by
    refine ⟨run, fun v hv hs => (own v).2 ⟨keeps v hv hs, fun _ => hs⟩, fun v hv => ⟨?_, ?_⟩, fun v hv hn ht =>
      quiet v hv hn ((own v).1 ht).1, ?_, ?_⟩
    · rw [← (shows v hv).1, control]
      dsimp only
      split
      · exact Vector.getElem_set_ne _ _ fun e => hv (Fin.ext e.symm)
      · rfl
    · rw [State.resulted_wordFields]
      exact (shows v hv).2.imp_right fun reported => (own v).2 ⟨reported, fun e => absurd e hv⟩
    · rw [control]
      simpa using addr
    · rw [control]
      simpa using risen
  exact resulted.trans (State.reports_claim run a _)

/-! ### Arriving accesses -/

theorem State.reports_measureWrite {s : State} (h : s.control.part = .running) (b : Nat) (a : Access) :
    s.Reports (s.measureWrite b a) := by
  have busy : ∀ i, s.Reports (s.setSlot i .busy) := fun i => .of_blocks h rfl rfl rfl rfl rfl
  unfold State.measureWrite
  dsimp only
  split
  · exact (State.reports_dropRecord h _ _ _).andThen (State.reports_refuse · a)
  split
  · exact (busy _).andThen (State.reports_claim · a _)
  · exact State.reports_claim h a _

theorem State.reports_coverageWrite {s : State} (h : s.control.part = .running) (a : Access) :
    s.Reports (s.coverageWrite a) := by
  have stage : s.Reports (s.setStage a .waitLatch) := .of_blocks h rfl rfl rfl rfl rfl
  unfold State.coverageWrite
  split
  · exact stage.andThen (State.reports_setWaiting · _)
  · exact State.reports_takeFold h a

theorem State.reports_writeLive {s : State} (h : s.control.part = .running) (w : Window) (a : Access) :
    s.Reports (s.writeLive w a) := by
  unfold State.writeLive
  split
  · exact (State.reports_raise h .windowMisfit).andThen (State.reports_refuse · a)
  · exact (State.reports_modTower h _ _).andThen (State.reports_respond · _ _)

theorem State.takeCommand_bus (a : Access) (w : CtlWord) (s : State) :
    ∃ r i, (s.takeCommand a w).bus.get a.cls = some ⟨a, .claim (.answer w r i)⟩ :=
  ⟨_, _, (PerClass.get_put _ _ _ _).trans (if_pos rfl)⟩

/-- An arriving access reports what it changes, but for the word of the command it carries. -/
theorem State.reportsBut_arrive {s : State} (h : s.control.part = .running) (a : Access)
    (run : (s.arrive a).control.part = .running) : s.ReportsBut noWord (s.commanded (s.arrive a)) noWord (s.arrive a) := by
  revert run
  by_cases free : s.bus.get a.cls = none
  · refine State.arrive_induction (P := fun y => y.control.part = .running → s.ReportsBut noWord (s.commanded y) noWord y)
      (fun _ => (State.Reports.refl h).but _ _ _) a (fun p _ => (State.reports_claim h a p).but _ _ _)
      (fun _ => (State.reports_refuse h a).but _ _ _)
      (fun f _ => ((State.reports_raise h f).andThen (State.reports_refuse · a)).but _ _ _)
      (fun w _ => (State.reports_respond h _ _).but _ _ _) (fun w _ => (State.reports_writeLive h w a).but _ _ _)
      (fun _ => (State.reports_coverageWrite h a).but _ _ _) (fun b _ => (State.reports_measureWrite h b a).but _ _ _)
      fun w run => (State.reportsBut_takeCommand h a w run).mono (fun _ k => k) (fun v hv => ?_) fun _ k => k
    obtain ⟨r, i, claim⟩ := State.takeCommand_bus a w s
    subst hv
    exact ⟨a.cls, a, r, i, free, claim⟩
  · have held : s.arrive a = s := if_pos (Option.isSome_iff_ne_none.2 free)
    rw [held]
    exact fun _ => (State.Reports.refl h).but _ _ _

end Sys2Proof.Machine
end

section
/-! PROOFS. What grants, memory's answers and the loader report. -/

namespace Sys2Proof.Machine

/-! ### Memory's answers -/

/-- An answer or a mirror write that failed puts its word back (R160). -/
theorem State.reportsBut_reportIf {s : State} (h : s.control.part = .running) (b : Bool) (w : CtlWord) :
    s.ReportsBut noWord noWord (· = w) (s.reportIf b w) := by
  cases b with
  | true => exact State.reportsBut_report h w
  | false => exact (State.Reports.refl h).but _ _ _

theorem State.reportIf_pending (b : Bool) (w : CtlWord) (s : State) :
    (s.reportIf b w).control.noticePending = s.control.noticePending := by simp

theorem State.reports_foldReadDone {s : State} (h : s.control.part = .running) (a : Access) (ok : Bool) (d : Word) :
    s.Reports (s.foldReadDone a ok d) := by
  unfold State.foldReadDone
  split
  · exact (State.reports_setLatch h _).andThen (State.reports_claim · a .foldWrite)
  · exact ((State.reports_raise h .memoryFault).andThen (State.reports_respond · a.cls .busError)).andThen
      State.reports_emptyLatch

theorem Coverage.wordFields_applyFold (f : Fold) (c : Coverage) : (c.applyFold f).wordFields = c.wordFields := by
  unfold Coverage.applyFold
  repeat' split
  · rfl
  · rfl
  · exact Coverage.wordFields_modFrame _ _ _ c

theorem State.reports_foldWriteDone {s : State} (h : s.control.part = .running) (a : Access) (ok : Bool) :
    s.Reports (s.foldWriteDone a ok) := by
  unfold State.foldWriteDone
  split
  · exact State.reports_respond h _ _
  · next f _ =>
    split
    · have folded : s.Reports { s with coverage := s.coverage.applyFold f } :=
        .of_blocks h rfl rfl rfl (Coverage.wordFields_applyFold f _) rfl
      exact (folded.andThen (State.reports_respond · a.cls .ok)).andThen State.reports_emptyLatch
    · have unfit : s.Reports
          { s with coverage := if f.cleared then s.coverage else s.coverage.unfit f.bank f.tower } := by
        refine .of_blocks h rfl rfl rfl ?_ rfl
        dsimp only
        split
        · rfl
        · exact Coverage.wordFields_madeUnfit (Coverage.unfit_madeUnfit _ _ _).1
      exact ((unfit.andThen (State.reports_raise · .memoryFault)).andThen (State.reports_respond · a.cls .busError)).andThen
        State.reports_emptyLatch

/-- The word of an answer write that holds the port. -/
def State.answering (s : State) (v : CtlWord) : Prop :=
  ∃ c w a r i, s.port.holder = some (.passThrough c w) ∧ s.bus.get c = some ⟨a, .granted (.answer v r i)⟩

theorem State.reportsBut_answerPass {s : State} (h : s.control.part = .running) (ans : MemAnswer) :
    s.ReportsBut noWord noWord s.answering (s.answerPass ans) := by
  have answered : ∀ w, s.Reports (s.memAnswered w ans) := fun w => .of_blocks h rfl rfl rfl rfl rfl
  unfold State.answerPass
  split
  · next c w held =>
    split
    · next a p granted =>
      have first := answered w
      generalize s.memAnswered w ans = x at *
      have run := first.part
      cases p with
      | plain => exact (first.andThen (State.reports_respond · a.cls _)).but _ _ _
      | foldRead => exact (first.andThen (State.reports_foldReadDone · a _ _)).but _ _ _
      | foldWrite => exact (first.andThen (State.reports_foldWriteDone · a _)).but _ _ _
      | measure => exact (first.andThen (State.reports_respond · a.cls _)).but _ _ _
      | commit i =>
        have freed : ∀ {y : State}, y.control.part = .running → y.Reports (y.setSlot i .free) := fun hy =>
          .of_blocks hy rfl rfl rfl rfl rfl
        refine State.Reports.but ?_ _ _ _
        show s.Reports (x.commitDone a i (answeredOk ans))
        unfold State.commitDone
        split
        · exact (first.andThen (State.reports_respond · a.cls .ok)).andThen (State.reports_enlist · i)
        · exact (first.andThen (State.reports_respond · a.cls .busError)).andThen freed
      | answer v r i =>
        have responded := first.andThen (State.reports_respond · a.cls (writeResponse (answeredOk ans)))
        refine (State.ReportsBut.after responded (State.reportsBut_reportIf responded.part (!answeredOk ans) v) fun hp => ?_).mono
          (fun _ k => k) (fun _ k => k) fun _ e => e ▸ ⟨c, w, a, r, i, held, granted⟩
        rw [State.reportIf_pending]
        exact hp
    · exact (answered w).but _ _ _
  · next w _ => exact (answered w).but _ _ _
  · exact (State.Reports.refl h).but _ _ _

/-- A MIRROR_WRITE that failed puts its word back (R160). -/
theorem State.reportsBut_mirrorWritten {s : State} (h : s.control.part = .running) (ans : MemAnswer) :
    s.ReportsBut noWord noWord (fun v => ∃ adr ws, s.holdsRequest (.mirrorWrite v adr) ws)
      (s.complete IReq.isMirrorWrite [ans] (fun r _ => State.mirrorWritten (answeredOk ans) r)) := by
  unfold State.complete
  split
  · next r ws d held =>
    split
    · split
      · exact (State.reports_completed h ws [ans] true).but _ _ _
      · next due live =>
        have free := (State.reports_completed h ws [ans] false).andThen State.reports_freeChannel
        unfold State.mirrorWritten
        dsimp only
        split
        · next w adr =>
          refine (State.ReportsBut.after free (State.reportsBut_reportIf free.part (!answeredOk ans) w) fun hp => ?_).mono
            (fun _ k => k) (fun _ k => k) fun _ e => e ▸ ⟨adr, ws, ?_⟩
          · rw [State.reportIf_pending]
            exact hp
          · exact held.trans (by rw [show d = false by simpa using live])
        · exact (State.reports_completed h ws [ans] false).but _ _ _
    · exact (State.Reports.refl h).but _ _ _
  · exact (State.Reports.refl h).but _ _ _

/-! ### Grants -/

theorem State.reports_watch {s : State} (h : s.control.part = .running) (w : PortWord) : s.Reports (s.watch w) := by
  unfold State.watch
  split
  · exact .refl h
  · next bk u _ =>
    split
    · have unfit : s.Reports { s with coverage := s.coverage.unfit bk u } :=
        .of_blocks h rfl rfl rfl (Coverage.wordFields_madeUnfit (Coverage.unfit_madeUnfit _ _ _).1) rfl
      exact unfit.andThen (State.reports_reportIf · (by decide) _)
    · exact .refl h

theorem State.reports_watchAll {s : State} (h : s.control.part = .running) (r : IReq) (ws : List PortWord) :
    s.Reports (s.watchAll r ws) := by
  have all : ∀ (ws : List PortWord) {x : State}, x.control.part = .running → x.Reports (ws.foldl State.watch x) := by
    intro ws
    induction ws with
    | nil => exact .refl
    | cons w ws ih => exact fun hx => (State.reports_watch hx w).andThen ih
  unfold State.watchAll
  split
  · exact all ws h
  · exact .refl h

/-- A grant that takes words out of the mirror set, ahead of the watch. -/
theorem State.ReportsBut.of_granted {s t : State} (h : s.control.part = .running)
    (control : t.control = { s.control with
      mirror := t.control.mirror, channel := t.control.channel, noticePending := t.control.noticePending })
    (mirror : ∀ v : CtlWord, t.control.mirror.getLsbD v.val = true → s.control.mirror.getLsbD v.val = true)
    (towers : t.towers = s.towers) (engine : t.engine = s.engine) (coverage : t.coverage = s.coverage)
    (loop : t.loop = s.loop) : s.ReportsBut (fun _ => True) noWord noWord t where
  part := by rw [control]; exact h
  keeps v hv := absurd trivial hv
  shows v _ := by
    refine ⟨by rw [control], .inl (State.wordFields_congr (fun _ _ => by rw [towers]) (fun _ _ => by rw [engine])
      (fun _ => by rw [engine]) (fun _ => by rw [control]) (fun _ => by rw [control]) (fun _ => by rw [coverage])
      (fun _ => ⟨by rw [engine], ?_⟩) (fun _ => by rw [control]) (fun _ => by rw [loop]) (fun _ => by rw [engine])
      (by rw [control]))⟩
    unfold State.configuredFields
    rw [towers]
  quiet v _ _ hv := mirror v hv
  addr := by rw [control]
  risen low high := by
    rw [control] at high
    exact absurd (low.symm.trans high) (by decide)

theorem Control.unmirror_sub {c : Control} {w v : CtlWord} (h : (c.unmirror w).mirror.getLsbD v.val = true) :
    c.mirror.getLsbD v.val = true := by
  rw [Control.unmirror_mirror, Bool.and_eq_true] at h
  exact h.1

theorem State.reportsBut_supersede {s : State} (h : s.control.part = .running) (c : MasterClass) (a : Access) (p : Purpose) :
    s.ReportsBut (fun _ => True) noWord noWord ((s.passing c a p).supersede p) := by
  have same : s.ReportsBut (fun _ => True) noWord noWord (s.passing c a p) :=
    .of_granted h rfl (fun _ hv => hv) rfl rfl rfl rfl
  cases p with
  | answer w r i =>
    unfold State.supersede State.withdrawMirror
    dsimp only
    split
    · exact .of_granted h rfl (fun v hv => Control.unmirror_sub hv) rfl rfl rfl rfl
    · exact .of_granted h rfl (fun v hv => Control.unmirror_sub hv) rfl rfl rfl rfl
  | plain => exact same
  | foldRead => exact same
  | foldWrite => exact same
  | measure => exact same
  | commit i => exact same

theorem State.reportsBut_grant {s : State} (h : s.control.part = .running) :
    s.ReportsBut (fun _ => True) noWord noWord s.grant := by
  have still : s.ReportsBut (fun _ => True) noWord noWord s := (State.Reports.refl h).but _ _ _
  have pass : ∀ c, s.ReportsBut (fun _ => True) noWord noWord (s.grantClass c) := fun c => by
    unfold State.grantClass
    split
    · exact still
    · next a p _ =>
      have granted := State.reportsBut_supersede h c a p
      rw [State.grantPass_eq]
      unfold State.watchPass
      split
      · exact granted.trans (State.reports_watch granted.part _)
      · exact granted
  have head : ∀ r rest, s.ReportsBut (fun _ => True) noWord noWord (s.grantHead r rest) := fun r rest => by
    have granted : s.ReportsBut (fun _ => True) noWord noWord (s.heading r rest) := by
      refine .of_granted h ?_ (fun v hv => ?_) rfl rfl rfl rfl
      · cases r <;> rfl
      · cases r with
        | mirrorWrite w adr => exact Control.unmirror_sub hv
        | noticeWrite adr d => exact hv
        | clearWrite adr => exact hv
        | orderRead adr => exact hv
        | orderWrite adr x y => exact hv
        | slotRead i adr => exact hv
        | preloadWrite adr d => exact hv
    rw [State.grantHead_eq]
    exact granted.trans (State.reports_watchAll granted.part r _)
  unfold State.grant
  repeat' split
  · exact still
  · exact still
  · exact head _ _
  · exact pass _
  · exact head _ _
  · exact pass _

end Sys2Proof.Machine
end

section
/-! PROOFS. What the loader reports while a load goes on, and what a tower reset reports. -/

namespace Sys2Proof.Machine

/-! ### A load -/

/-- An operation of a load reports what it changes, or ends the load. -/
def State.LoadsOn (s t : State) : Prop := t.loader.state = .idle ∨ s.Reports t

/-- A load has begun or ended. -/
def State.Reloads (s t : State) : Prop := t.loader.state.loading ≠ s.loader.state.loading

theorem State.LoadsOn.reloads {s t : State} (h : s.LoadsOn t) (loading : s.loader.state.loading = true) :
    s.Reloads t ∨ s.Reports t :=
  h.imp_left fun idle => by
    rw [State.Reloads, idle, loading]
    decide

theorem State.reports_loader {s : State} (h : s.control.part = .running) (l : Loader) : s.Reports { s with loader := l } :=
  .of_blocks h rfl rfl rfl rfl rfl

theorem State.endLoad_idle (s : State) : s.endLoad.loader.state = .idle := by
  unfold State.endLoad
  split
  · rfl
  · rfl

theorem State.reports_stageRaise {s : State} (h : s.control.part = .running) (f : Staged → Staged) (b : Bool)
    (x : LoaderState) : s.Reports (((s.stage f).raiseIf b .configFault).setLoader x) := by
  have staged : s.Reports (s.stage f) := State.reports_loader h _
  exact (staged.andThen (State.reports_raiseIf · b .configFault)).andThen (State.reports_loader · _)

theorem State.reports_raiseSet {s : State} (h : s.control.part = .running) (x : LoaderState) :
    s.Reports ((s.raise .configFault).setLoader x) :=
  (State.reports_raise h .configFault).andThen (State.reports_loader · _)

theorem State.loadsOn_judgeGlobal {s : State} (h : s.control.part = .running) (j : Judged) : s.LoadsOn (s.judgeGlobal j) := by
  unfold State.judgeGlobal
  repeat' split
  · exact .inl rfl
  · exact .inr (State.reports_loader h _)
  · exact .inl rfl

theorem State.loadsOn_judgeWindows {s : State} (h : s.control.part = .running) (j : Judged) :
    s.LoadsOn (s.judgeWindows j) := by
  unfold State.judgeWindows
  dsimp only
  repeat' split
  · exact .inr (State.reports_stageRaise h _ _ _)
  · exact .inl rfl
  · exact .inl rfl

theorem State.loadsOn_judgeCurves {s : State} (h : s.control.part = .running) (j : Judged) :
    s.LoadsOn (s.judgeCurves j) := by
  cases j with
  | good ws => exact .inr (State.reports_stageRaise h _ _ _)
  | bad => exact .inr (State.reports_raiseSet h _)
  | absent => exact .inr (State.reports_loader h _)

theorem State.loadsOn_judgeTower {s : State} (h : s.control.part = .running) (u : Tower) (n : Fin 16) (j : Judged) :
    s.LoadsOn (s.judgeTower u n j) := by
  cases j with
  | good ws =>
    unfold State.judgeTower
    dsimp only
    split
    · exact .inr (State.reports_raiseSet h _)
    · exact .inr (State.reports_loader h _)
  | bad => exact .inr (State.reports_raiseSet h _)
  | absent => exact .inr (State.reports_loader h _)

theorem State.loadsOn_judgePreload {s : State} (h : s.control.part = .running) (j : Judged) :
    s.LoadsOn (s.judgePreload j) := by
  unfold State.judgePreload
  repeat' split
  · exact .inl (State.endLoad_idle _)
  · exact .inr (State.reports_loader h _)
  · exact .inl (State.endLoad_idle _)
  · exact .inl (State.endLoad_idle _)

theorem State.reloads_judgeSection {s : State} (h : s.control.part = .running) (image : List Byte) :
    s.Reloads (s.judgeSection image) ∨ s.Reports (s.judgeSection image) := by
  have judged : ∀ n j, s.LoadsOn (s.judgeKind n j) := fun n j => by
    unfold State.judgeKind
    repeat' split
    · exact State.loadsOn_judgeGlobal h j
    · exact State.loadsOn_judgeWindows h j
    · exact State.loadsOn_judgeCurves h j
    · exact State.loadsOn_judgePreload h j
    · exact State.loadsOn_judgeTower h _ _ j
  unfold State.judgeSection
  split
  · next n header reading _ =>
    have goesOn : s.LoadsOn ((s.judgeKind n (readSection header image n.val)).readOn (sectionSteps header image n.val)) :=
      (judged _ _).imp (fun idle => idle) fun goes => goes.andThen (State.reports_loader · _)
    exact goesOn.reloads (by rw [reading]; rfl)
  · exact .inr (.refl h)

theorem State.reloads_headerEvent {s : State} (h : s.control.part = .running) (image : List Byte) :
    s.Reloads (s.headerEvent image) ∨ s.Reports (s.headerEvent image) := by
  have judged : s.LoadsOn (s.judgeHeader image) := by
    unfold State.judgeHeader
    split
    · exact .inl rfl
    · exact .inr (State.reports_loader h _)
  unfold State.headerEvent
  split
  · next reading =>
    have goesOn : s.LoadsOn ((s.judgeHeader image).readOn (headerSteps image)) :=
      judged.imp (fun idle => idle) fun goes => goes.andThen (State.reports_loader · _)
    exact goesOn.reloads (by rw [reading]; rfl)
  · exact .inr (.refl h)

theorem State.reloads_preloadWritten {s : State} (h : s.control.part = .running) :
    s.Reloads s.preloadWritten ∨ s.Reports s.preloadWritten := by
  unfold State.preloadWritten
  split
  · next n preloading =>
    split
    · exact .inr (State.reports_loader h _)
    · exact State.LoadsOn.reloads (.inl (State.endLoad_idle _)) (by rw [preloading]; rfl)
  · exact .inr (.refl h)

theorem State.reloads_preloadComplete {s : State} (h : s.control.part = .running) (ans : MemAnswer) {t : State}
    (ht : s.complete IReq.isPreloadWrite [ans] (fun _ _ s => s.freeChannel.preloadWritten) = t) :
    s.Reloads t ∨ s.Reports t := by
  have completed := fun ws d => State.reports_completed h ws [ans] d
  subst ht
  unfold State.complete
  repeat' split
  · exact .inr (completed _ true)
  · next ws _ _ _ _ =>
    have free := (completed ws false).andThen State.reports_freeChannel
    have loader : (s.completed ws [ans] false).freeChannel.loader = s.loader := by simp
    exact (State.reloads_preloadWritten free.part).imp (fun ends => by rwa [State.Reloads, loader] at ends) free.trans
  · exact .inr (.refl h)
  · exact .inr (.refl h)

/-! ### The tower reset -/

theorem State.reports_resetTower {s : State} (h : s.control.part = .running) (u : Tower) (c : Option TowerCfg) :
    s.Reports (s.resetTower u c) := by
  have placed : ∀ tw, s.Reports ({ s.putTower u tw with
      coverage := s.coverage.setGeometry u (c.map TowerCfg.geometry)
      loop := if c.isSome then s.loop.markReset u else s.loop } : State) := fun tw =>
    (State.reports_putTower h u tw).andThen fun run =>
      .of_blocks run rfl rfl rfl (Coverage.wordFields_madeUnfit (Coverage.setGeometry_madeUnfit u _ s.coverage).1) (by
        dsimp only
        split
        · rfl
        · rfl)
  exact ((placed _).andThen (State.reports_raiseIf · _ .configFault)).andThen (State.reports_report · (wordTower_loud u))

theorem State.reports_sectionReloaded {s : State} (h : s.control.part = .running) (image : List Byte) :
    s.Reports (s.sectionReloaded image) := by
  unfold State.sectionReloaded
  split
  · next u _ =>
    have idle : s.Reports ((s.setLoader .idle).drive (reloadSteps image u)) := State.reports_loader h _
    exact idle.andThen (State.reports_resetTower · u _)
  · exact .refl h

end Sys2Proof.Machine
end

section
/-! PROOFS. What every event reports. -/

namespace Sys2Proof.Machine

/-- The word of an answer write or of a mirror write that holds the port: its write may fail (R160). -/
def State.readding (s : State) (v : CtlWord) : Prop :=
  s.answering v ∨ ∃ adr ws, s.holdsRequest (.mirrorWrite v adr) ws

/-- An event that leaves the part RUNNING and begins or ends no load reports what it changes. -/
def State.EventReports (gone : CtlWord → Prop) (s t : State) : Prop :=
  t.control.part = .running → ¬s.Reloads t → s.ReportsBut gone (s.commanded t) s.readding t

/-- What follows an event takes nothing from what it reports. -/
theorem State.eventReports_settle {gone : CtlWord → Prop} {s y : State} (k : s.EventReports gone y) :
    s.EventReports gone (State.settle s y) := fun run loads => by
  have part : (State.settle s y).control.part = y.control.part := by simp
  have loader : (State.settle s y).loader = y.loader := by simp
  have bus : (State.settle s y).bus = y.bus := by simp
  have before := k (part ▸ run) (by rwa [State.Reloads, loader] at loads)
  refine (before.trans (State.reports_settle s before.part)).mono (fun _ k => k) (fun v ⟨cls, a, r, i, free, claim⟩ => ?_)
    fun _ k => k
  exact ⟨cls, a, r, i, free, by rw [bus]; exact claim⟩

/-- The row of a fetched order. -/
theorem State.eventReports_order {s : State} (h : s.control.part = .running) {gone : CtlWord → Prop} {row : Nat → Bool}
    {run : OrderRec → State → Except FaultCode State} (hv : Verb run) :
    s.EventReports gone (State.settle s (s.orderRow row run)) :=
  State.eventReports_settle fun _ _ => (State.reports_orderRow h hv).but _ _ _

theorem State.eventReports_plain {s y : State} {gone : CtlWord → Prop} (k : s.Reports y) :
    s.EventReports gone (State.settle s y) := State.eventReports_settle fun _ _ => k.but _ _ _

theorem State.eventReports_load {s y : State} {gone : CtlWord → Prop} (k : s.Reloads y ∨ s.Reports y) :
    s.EventReports gone (State.settle s y) :=
  State.eventReports_settle fun _ loads => (k.resolve_left loads).but _ _ _

theorem State.eventReports_arrive {s : State} (h : s.control.part = .running) {gone : CtlWord → Prop} (a : Access) :
    s.EventReports gone (State.settle s (s.arrive a)) :=
  State.eventReports_settle fun run _ =>
    (State.reportsBut_arrive h a run).mono (fun _ k => k.elim) (fun _ k => k) fun _ k => k.elim

theorem State.eventReports_answerPass {s : State} (h : s.control.part = .running) {gone : CtlWord → Prop}
    (ans : MemAnswer) : s.EventReports gone (State.settle s (s.answerPass ans)) :=
  State.eventReports_settle fun _ _ =>
    (State.reportsBut_answerPass h ans).mono (fun _ k => k.elim) (fun _ k => k.elim) fun _ => .inl

/-- Any event of a RUNNING part (R160): a grant alone takes words out of the mirror set. -/
theorem State.eventReports_exec {s : State} (h : s.control.part = .running) (c : Instr) :
    ∃ t, exec c s = .next t ∧ s.EventReports (fun _ => c = .mpGrant) t := by
  cases c
  case pinReset l => exact ⟨_, rfl, fun run => nomatch (show PartState.loading = .running from run)⟩
  case mpGrant =>
    exact ⟨_, rfl, State.eventReports_settle fun _ _ =>
      (State.reportsBut_grant h).mono (fun _ _ => rfl) (fun _ k => k.elim) fun _ k => k.elim⟩
  case passThroughResponse ans => exact ⟨_, rfl, State.eventReports_answerPass h ans⟩
  case foldReadResponse ans => exact ⟨_, rfl, State.eventReports_answerPass h ans⟩
  case foldWriteResponse ans => exact ⟨_, rfl, State.eventReports_answerPass h ans⟩
  case commitResponse ans => exact ⟨_, rfl, State.eventReports_answerPass h ans⟩
  case answerWriteResponse ans => exact ⟨_, rfl, State.eventReports_answerPass h ans⟩
  case mirrorWriteComplete ans =>
    exact ⟨_, rfl, State.eventReports_settle fun _ _ =>
      (State.reportsBut_mirrorWritten h ans).mono (fun _ k => k.elim) (fun _ k => k.elim) fun _ => .inr⟩
  case slotReadComplete errors =>
    exact ⟨_, rfl, State.eventReports_plain (State.reports_complete h fun r ws _ hx =>
      State.reports_slotDelivered hx errors s.mem r ws)⟩
  case clearFirstOffer => exact ⟨_, rfl, State.eventReports_plain (State.reports_firstClear h)⟩
  case clearWriteComplete ans =>
    exact ⟨_, rfl, State.eventReports_plain (State.reports_complete h fun _ _ _ hx => State.reports_clearWritten hx _)⟩
  case orderWriteComplete a6 a7 =>
    exact ⟨_, rfl, State.eventReports_plain (State.reports_complete h fun _ _ _ hx => State.reports_orderWritten hx _)⟩
  case orderFetchError =>
    exact ⟨_, rfl, State.eventReports_plain (State.reports_complete h fun _ _ _ hx => State.reports_fetchFailed hx)⟩
  case noticeWriteComplete ans =>
    exact ⟨_, rfl, State.eventReports_plain (State.reports_complete h fun _ _ _ hx => State.reports_freeChannel hx)⟩
  case preloadWriteComplete ans => exact ⟨_, rfl, State.eventReports_load (State.reloads_preloadComplete h ans rfl)⟩
  case orderCancelled => exact ⟨_, rfl, State.eventReports_plain (State.reports_orderCancelled h)⟩
  case preset => exact ⟨_, rfl, State.eventReports_order h .preset⟩
  case trimSet => exact ⟨_, rfl, State.eventReports_order h (.keyRange fun r => setTrim r.value)⟩
  case trimAdd => exact ⟨_, rfl, State.eventReports_order h (.keyRange fun r => addTrim r.value)⟩
  case corrClear => exact ⟨_, rfl, State.eventReports_order h (.keyRange fun _ => setCorrection 0)⟩
  case hold => exact ⟨_, rfl, State.eventReports_order h (.keyRange fun _ => setHold true)⟩
  case release => exact ⟨_, rfl, State.eventReports_order h (.keyRange fun _ => setHold false)⟩
  case clearBank => exact ⟨_, rfl, State.eventReports_order h (.namedBank .clear)⟩
  case lockBank => exact ⟨_, rfl, State.eventReports_order h (.namedBank .lock)⟩
  case unlockBank => exact ⟨_, rfl, State.eventReports_order h (.namedBank .unlock)⟩
  case swapBanks => exact ⟨_, rfl, State.eventReports_order h .swap⟩
  case orderLoopOn => exact ⟨_, rfl, State.eventReports_order h (.loop TowerState.loopOn)⟩
  case orderLoopOff => exact ⟨_, rfl, State.eventReports_order h (.loop TowerState.loopOff)⟩
  case nop => exact ⟨_, rfl, State.eventReports_order h .nop⟩
  case verbFault => exact ⟨_, rfl, State.eventReports_order h .fault⟩
  case sheet => exact ⟨_, rfl, State.eventReports_plain (State.reports_sheet h)⟩
  case rampComplete => exact ⟨_, rfl, State.eventReports_plain (State.reports_sheet h)⟩
  case settleEnd => exact ⟨_, rfl, State.eventReports_plain (State.reports_sheet h)⟩
  case sheetFiring => exact ⟨_, rfl, State.eventReports_plain (State.reports_sheet h)⟩
  case imprRise => exact ⟨_, rfl, State.eventReports_plain (State.reports_imprRise h)⟩
  case imprFall => exact ⟨_, rfl, State.eventReports_plain (State.reports_imprFall h)⟩
  case jobchg => exact ⟨_, rfl, State.eventReports_plain (State.reports_fire h .jobchg)⟩
  case sendingEnd => exact ⟨_, rfl, State.eventReports_plain (State.reports_endSending h)⟩
  case gapEnd => exact ⟨_, rfl, State.eventReports_plain (State.reports_endGap h)⟩
  case done => exact ⟨_, rfl, State.eventReports_plain (State.reports_receive _ h)⟩
  case stall => exact ⟨_, rfl, State.eventReports_plain (State.reports_receive _ h)⟩
  case report => exact ⟨_, rfl, State.eventReports_plain (State.reports_receive _ h)⟩
  case hello => exact ⟨_, rfl, State.eventReports_plain (State.reports_receive _ h)⟩
  case frameDiscarded => exact ⟨_, rfl, State.eventReports_plain (State.reports_receive _ h)⟩
  case keyFault cause =>
    cases cause with
    | stall => exact ⟨_, rfl, State.eventReports_plain (State.reports_receive _ h)⟩
    | timeout u sl => exact ⟨_, rfl, State.eventReports_plain (State.reports_takeTimeout h u sl)⟩
  case moveTimeout u sl => exact ⟨_, rfl, State.eventReports_plain (State.reports_takeTimeout h u sl)⟩
  case towerDown u sl => exact ⟨_, rfl, State.eventReports_plain (State.reports_takeTimeout h u sl)⟩
  case headerRead image => exact ⟨_, rfl, State.eventReports_load (State.reloads_headerEvent h image)⟩
  case sectionRead image => exact ⟨_, rfl, State.eventReports_load (State.reloads_judgeSection h image)⟩
  case sectionReloadComplete image => exact ⟨_, rfl, State.eventReports_plain (State.reports_sectionReloaded h image)⟩
  all_goals exact ⟨_, rfl, State.eventReports_arrive h _⟩

end Sys2Proof.Machine
end

section
/-! PROOFS. O40: the offers of the channel, and the completions of mirror and notice writes. -/

namespace Sys2Proof.Machine

/-! ### The mirror pointer -/

/-- How far a word lies behind the mirror pointer, in ascending index from 31 to 0 (R161). -/
def mirrorDistance (p w : CtlWord) : Nat := (w.val + 31 - p.val) % 32

/-- The words in the order the control unit looks at them. -/
def mirrorOrder (p : CtlWord) : List CtlWord :=
  ((allFin 32).filter (fun w => p < w)) ++ ((allFin 32).filter (fun w => w ≤ p))

theorem mem_mirrorOrder (p w : CtlWord) : w ∈ mirrorOrder p := by
  have all : w ∈ allFin 32 := List.mem_finRange w
  rcases Nat.lt_or_ge p.val w.val with h | h
  · exact List.mem_append_left _ (List.mem_filter.2 ⟨all, decide_eq_true h⟩)
  · exact List.mem_append_right _ (List.mem_filter.2 ⟨all, decide_eq_true h⟩)

theorem mirrorOrder_pairwise (p : CtlWord) :
    (mirrorOrder p).Pairwise (fun x y => mirrorDistance p x < mirrorDistance p y) := by
  have rising : ∀ q : CtlWord → Bool, ((allFin 32).filter q).Pairwise (· < ·) := fun q =>
    (List.pairwise_lt_finRange 32).filter q
  have hp := p.isLt
  refine List.pairwise_append.2 ⟨(rising _).imp_of_mem fun {x y} hx hy lt => ?_, (rising _).imp_of_mem fun {x y} hx hy lt => ?_,
    fun x hx y hy => ?_⟩
  all_goals
    have above := of_decide_eq_true (List.mem_filter.1 hx).2
    have below := of_decide_eq_true (List.mem_filter.1 hy).2
    have hx := x.isLt
    have hy := y.isLt
    unfold mirrorDistance
    simp only [Fin.lt_def, Fin.le_def] at *
    omega

/-- The word offered is the first of the set behind the pointer (R161). -/
theorem nextMirror_of_least {m : BitVec 32} {p v : CtlWord} (set : m.getLsbD v.val = true)
    (least : ∀ x : CtlWord, m.getLsbD x.val = true → mirrorDistance p v ≤ mirrorDistance p x) :
    nextMirror m p = some v := List.find?_of_least (mirrorOrder_pairwise p) (mem_mirrorOrder p v) set least

theorem nextMirror_none {m : BitVec 32} {p : CtlWord} (h : nextMirror m p = none) : m = 0 := by
  refine BitVec.eq_of_getLsbD_eq fun i hi => ?_
  have clear := List.find?_eq_none.1 h ⟨i, hi⟩ (mem_mirrorOrder p ⟨i, hi⟩)
  simpa using clear

/-! ### The windows of a kind -/

theorem windowBase_absent {k : WindowKind} {ws : WindowTable} (h : ∀ x, some x ∈ ws → x.kind ≠ k) (rest : WindowTable) :
    windowBase k (ws ++ rest) = windowBase k rest := by
  induction ws with
  | nil => rfl
  | cons e ws ih =>
    have ih := ih fun x hx => h x (List.mem_cons_of_mem _ hx)
    cases e with
    | none => exact ih
    | some w => exact (if_neg (h w List.mem_cons_self)).trans ih

/-! ### The offers of the channel -/

theorem State.offerChannel_busy {s : State} (h : s.control.channel ≠ none) : s.offerChannel = s :=
  if_pos (Option.isSome_iff_ne_none.2 h)

section
variable {s : State} (free : s.control.channel = none)
include free

theorem State.offerChannel_preload {n a : Nat} {d : Word} (loading : s.loader.state = .preloading n)
    (pair : s.loader.staged.preload[n]? = some (a, d)) :
    s.offerChannel = s.offering .preload (.preloadWrite a d) s.control.pointer := by
  have next : s.nextPreload = some (a, d) := by
    unfold State.nextPreload
    rw [loading]
    exact pair
  unfold State.offerChannel
  rw [free, next]
  rfl

theorem State.offerChannel_notice (none : s.nextPreload = none) (pending : s.control.noticePending = true) :
    s.offerChannel
      = s.offering .notice (.noticeWrite s.control.noticeAddr s.control.noticeDatum) s.control.pointer := by
  unfold State.offerChannel
  rw [free, none, pending]
  rfl

theorem State.offerChannel_offerMirror (none : s.nextPreload = none) (pending : s.control.noticePending = false) :
    s.offerChannel = s.offerMirror := by
  unfold State.offerChannel
  rw [free, none, pending]
  rfl

end

theorem State.offerMirror_some {s : State} {v : CtlWord} {b : Nat}
    (next : nextMirror s.control.mirror s.control.pointer = some v) (base : windowBase .control s.windows = some b) :
    s.offerMirror = s.offering (.mirror v) (.mirrorWrite v (b + 4 * v.val)) v := by
  unfold State.offerMirror
  rw [next, base]
  rfl

theorem State.offerMirror_none {s : State}
    (h : nextMirror s.control.mirror s.control.pointer = none ∨ windowBase .control s.windows = none) :
    s.offerMirror = s := by
  unfold State.offerMirror
  split
  · next v b next base => simp [next, base] at h
  · rfl

theorem State.nextPreload_none (s : State) : s.nextPreload = none
    ↔ ∀ n, s.loader.state = .preloading n → s.loader.staged.preload[n]? = none := by
  unfold State.nextPreload
  split
  · next n loading =>
    rw [loading]
    exact ⟨fun h m e => by cases e; exact h, fun h => h n rfl⟩
  · next other => exact ⟨fun _ n e => absurd e (other n), fun _ => rfl⟩

/-- A channel left free has nothing to offer (R161). -/
theorem State.offerChannel_nothing {s : State} (h : s.offerChannel.control.channel = none) : s.offerChannel = s
    ∧ s.nextPreload = none ∧ s.control.noticePending = false
    ∧ (s.control.mirror = 0 ∨ windowBase .control s.windows = none) := by
  by_cases free : s.control.channel = none
  · cases next : s.nextPreload with
    | some p =>
      obtain ⟨a, d⟩ := p
      have offered : s.offerChannel.control.channel = some .preload := by
        unfold State.offerChannel
        rw [free, next]
        rfl
      cases h.symm.trans offered
    | none =>
      cases pending : s.control.noticePending with
      | true =>
        rw [State.offerChannel_notice free next pending] at h
        cases h
      | false =>
        have mirror := State.offerChannel_offerMirror free next pending
        rw [mirror] at h ⊢
        cases word : nextMirror s.control.mirror s.control.pointer with
        | none => exact ⟨State.offerMirror_none (.inl word), rfl, rfl, .inl (nextMirror_none word)⟩
        | some v =>
          cases base : windowBase .control s.windows with
          | none => exact ⟨State.offerMirror_none (.inr base), rfl, rfl, .inr rfl⟩
          | some b =>
            rw [State.offerMirror_some word base] at h
            cases h
  · rw [State.offerChannel_busy free] at h
    exact absurd h free

end Sys2Proof.Machine
end

section
/-! PROOFS. O40: the mirror and the notice, assembled. -/

namespace Sys2Proof.Machine

/-! ### Completions of mirror and notice writes -/

/-- An event that changes job memory, the port and the control unit, and is followed by the control unit's offer alone. -/
theorem State.settle_requestAnswered {s y : State} (hy : y = { s with
      mem := y.mem, port := { s.port with holder := none }, control := y.control }) (settings : s.sameSettings y) :
    State.settle s y = y.offerChannel ∧ y.offerChannel.port.holder = none ∧ y.offerChannel.mem = y.mem
      ∧ y.offerChannel.bus = s.bus ∧ y.offerChannel.lastResponse = s.lastResponse ∧ s.sameSetup y.offerChannel
      ∧ s.sameBlocks y.offerChannel ∧ s.sameSettings y.offerChannel := by
  obtain ⟨settled, setup, towers, loader⟩ := State.settle_towersKept (s := s) (y := y) (by rw [hy])
  have fields : y.bus = s.bus ∧ y.lastResponse = s.lastResponse ∧ y.coverage = s.coverage ∧ y.engine = s.engine
      ∧ y.loop = s.loop ∧ y.port.holder = none := by
    rw [hy]
    exact ⟨rfl, rfl, rfl, rfl, rfl, rfl⟩
  obtain ⟨bus, response, coverage, engine, loop, holder⟩ := fields
  obtain ⟨part, enables, mode, addr, datum⟩ := settings
  exact ⟨settled, y.offerChannel_holder.trans holder, by simp, by simpa, by simpa, setup,
    ⟨by simpa, towers, by simpa, by simpa, loader⟩, ⟨by simpa, by simpa, by simpa, by simpa, by simpa⟩⟩

theorem Control.raise_onLine {c : Control} (high : c.line = true) (f : EventFlag) :
    (c.raise f).noticePending = c.noticePending := by
  unfold Control.raise
  split
  · rfl
  · simp [Control.relevel, high]

/-- The state after the answer to a request of one word. -/
def State.wordAnswered (ws : List PortWord) (ans : MemAnswer) (s : State) : State :=
  { s with
    mem := Memory.answers s.mem ws [ans]
    port := { s.port with holder := none }
    control := if ans = .ok then s.control else s.control.raise .memoryFault }

theorem State.completed_one (s : State) (ws : List PortWord) (ans : MemAnswer) :
    s.completed ws [ans] false = s.wordAnswered ws ans := by
  unfold State.wordAnswered
  by_cases ok : ans = .ok
  · rw [s.completed_ok ws (by simpa using ok), if_pos ok]
  · rw [s.completed_error ws (by simpa using ok), if_neg ok]
    rfl

theorem State.wordAnswered_settings (ws : List PortWord) (ans : MemAnswer) (s : State) :
    s.sameSettings (s.wordAnswered ws ans) := by
  unfold State.wordAnswered
  cases ans with
  | ok => exact ⟨rfl, rfl, rfl, rfl, rfl⟩
  | error l => exact ⟨by simp, by simp, by simp, by simp, by simp⟩

theorem State.wordAnswered_raised {s : State} {ans : MemAnswer} (ws : List PortWord) (error : ans ≠ .ok) :
    (s.wordAnswered ws ans).control = s.control.raise .memoryFault := if_neg error

theorem State.mirrorWrite_completed {s : State} {v : CtlWord} {adr : Nat} {ws : List PortWord} (ans : MemAnswer)
    (held : s.holdsRequest (.mirrorWrite v adr) ws) :
    ∃ t, exec (.mirrorWriteComplete ans) s = .next t ∧ t.port.holder = none
      ∧ t.mem = Memory.answers s.mem ws [ans]
      ∧ (ans = .ok → t.control.flags = s.control.flags ∧ t.control.mirror = s.control.mirror)
      ∧ (ans ≠ .ok → s.raised .memoryFault t
          ∧ (s.control.part = .running → t.control.mirror.getLsbD v.val = true))
      ∧ t.bus = s.bus ∧ t.lastResponse = s.lastResponse ∧ s.sameSetup t ∧ s.sameBlocks t ∧ s.sameSettings t := by
  have run : exec (.mirrorWriteComplete ans) s
      = .next (State.settle s (((s.completed ws [ans] false).freeChannel).reportIf (!answeredOk ans) v)) :=
    congrArg (fun x => Host.Outcome.next (State.settle s x)) (State.complete_eq held rfl [ans] _)
  rw [s.completed_one] at run
  have settings := s.wordAnswered_settings ws ans
  have good : ans = .ok → (s.wordAnswered ws ans).control = s.control := fun ok => if_pos ok
  have bad := s.wordAnswered_raised (ans := ans) ws
  have shape : s.wordAnswered ws ans = { s with
    mem := Memory.answers s.mem ws [ans], port := { s.port with holder := none }
    control := (s.wordAnswered ws ans).control } := rfl
  generalize s.wordAnswered ws ans = x at *
  have xmem : x.mem = Memory.answers s.mem ws [ans] := by rw [shape]
  obtain ⟨part, enables, mode, addr, datum⟩ := settings
  obtain ⟨settled, holder, mem, bus, response, setup, blocks, settings⟩ := State.settle_requestAnswered (s := s)
    (y := x.freeChannel.reportIf (!answeredOk ans) v) (by
      rw [shape]
      cases answeredOk ans <;> rfl) ⟨by simpa [State.freeChannel], by simpa [State.freeChannel],
        by simpa [State.freeChannel], by simpa [State.freeChannel], by simpa [State.freeChannel]⟩
  have fields := (x.freeChannel.reportIf (!answeredOk ans) v).offerChannel_control
  rw [settled] at run
  refine ⟨_, run, holder, mem.trans (by simpa [State.freeChannel] using xmem), fun ok => ?_, fun error => ⟨?_, fun running => ?_⟩,
    bus, response, setup, blocks, settings⟩
  · rw [fields.2.1, fields.2.2.2.2.2.2.2.2.2.1, ← good ok, ok]
    exact ⟨rfl, rfl⟩
  · rw [State.raised, fields.2.1, State.reportIf_control .. |>.2.1]
    show x.control.flags = _
    rw [bad error]
    exact Control.raise_flags _ _
  · have failed : answeredOk ans = false := by
      cases ans with
      | ok => exact absurd rfl error
      | error l => rfl
    rw [fields.2.2.2.2.2.2.2.2.2.1, failed]
    exact Control.report_self (c := x.freeChannel.control) (part.trans running) v

theorem State.noticeWrite_completed {s : State} {adr : Nat} {dat : Word} {ws : List PortWord} (ans : MemAnswer)
    (held : s.holdsRequest (.noticeWrite adr dat) ws) :
    ∃ t, exec (.noticeWriteComplete ans) s = .next t ∧ t.port.holder = none
      ∧ t.mem = Memory.answers s.mem ws [ans]
      ∧ (ans = .ok → t.control.flags = s.control.flags ∧ t.control.noticePending = s.control.noticePending)
      ∧ (ans ≠ .ok → s.raised .memoryFault t
          ∧ (s.control.line = true → t.control.noticePending = s.control.noticePending))
      ∧ t.bus = s.bus ∧ t.lastResponse = s.lastResponse ∧ s.sameSetup t ∧ s.sameBlocks t ∧ s.sameSettings t := by
  have run : exec (.noticeWriteComplete ans) s = .next (State.settle s (s.completed ws [ans] false).freeChannel) :=
    congrArg (fun x => Host.Outcome.next (State.settle s x)) (State.complete_eq held rfl [ans] _)
  rw [s.completed_one] at run
  obtain ⟨settled, holder, mem, bus, response, setup, blocks, settings⟩ := State.settle_requestAnswered (s := s)
    (y := (s.wordAnswered ws ans).freeChannel) rfl (s.wordAnswered_settings ws ans)
  have fields := (s.wordAnswered ws ans).freeChannel.offerChannel_control
  rw [settled] at run
  refine ⟨_, run, holder, mem, fun ok => ?_, fun error => ⟨?_, fun high => ?_⟩, bus, response, setup, blocks, settings⟩
  · rw [fields.2.1, fields.2.2.2.2.2.2.2.1]
    subst ok
    exact ⟨rfl, rfl⟩
  · rw [State.raised, fields.2.1]
    show (s.wordAnswered ws ans).control.flags = _
    rw [State.wordAnswered_raised ws error]
    exact Control.raise_flags _ _
  · rw [fields.2.2.2.2.2.2.2.1]
    show (s.wordAnswered ws ans).control.noticePending = _
    rw [State.wordAnswered_raised ws error]
    exact Control.raise_onLine high .memoryFault

/-! ### Every event's end -/

/-- Every event leaves a channel in use, or nothing to offer (R17, R161). -/
theorem exec_offers (c : Instr) (s : State) : ∃ t, exec c s = .next t
    ∧ (t.control.channel = none → t.control.noticePending = false
      ∧ (t.control.mirror = 0 ∨ windowBase .control t.windows = none)
      ∧ ∀ n, t.loader.state = .preloading n → t.loader.staged.preload[n]? = none) := by
  rcases exec_event c s with ⟨l, rfl⟩ | ⟨f, -, run⟩
  · exact ⟨_, rfl, fun _ => ⟨rfl, .inl rfl, fun n loading => nomatch (show LoaderState.readingHeader = .preloading n from loading)⟩⟩
  · refine ⟨_, run, fun free => ?_⟩
    obtain ⟨same, preload, notice, mirror⟩ := State.offerChannel_nothing free
    have settled : State.settle s (f s) = State.searchIfChanged s (f s) := same
    rw [settled]
    exact ⟨notice, mirror, (State.nextPreload_none _).1 preload⟩

/-- Settles O40, by the offers of the channel and by what every event reports. -/
theorem mirrorAndNoticeComplete : Obligations.MirrorAndNoticeComplete := by
  refine ⟨fun s v adr ws ans => State.mirrorWrite_completed ans, fun s adr dat ws ans => State.noticeWrite_completed ans,
    fun s => ⟨State.offerChannel_busy, fun free => ⟨fun n a d => State.offerChannel_preload free, fun empty => ?_⟩⟩,
    fun k ws ws' w away => ⟨?_, fun kind => ?_⟩, exec_offers, fun c s h => ?_⟩
  · have next := s.nextPreload_none.2 empty
    refine ⟨State.offerChannel_notice free next, fun quiet => ⟨fun v b set least base => ?_, fun nothing => ?_⟩⟩
    · rw [State.offerChannel_offerMirror free next quiet]
      exact State.offerMirror_some (nextMirror_of_least set least) base
    · rw [State.offerChannel_offerMirror free next quiet]
      exact State.offerMirror_none (nothing.imp_left fun zero => by rw [zero, nextMirror_empty])
  · have := windowBase_absent away []
    rwa [List.append_nil] at this
  · rw [windowBase_absent away]
    exact if_pos kind
  · obtain ⟨t, run, reports⟩ := State.eventReports_exec h c
    refine ⟨t, run, fun running loading => ?_⟩
    obtain ⟨-, keeps, shows, quiet, -, risen⟩ := reports running fun reloads => reloads loading
    refine ⟨fun other v => keeps v other, fun v uncommanded => ?_, fun ordered v hv set => ?_, risen⟩
    · obtain ⟨last, same⟩ := shows v uncommanded
      exact ⟨last, same.resolve_left⟩
    · by_cases readded : s.readding v
      · refine .inr (readded.imp_left ?_)
        rintro ⟨cls, w, a, r, i, held, granted⟩
        have own : a.cls = cls := ordered.1 cls _ granted
        subst own
        exact ⟨a, r, i, w, held, granted⟩
      · exact .inl (quiet v hv readded set)

end Sys2Proof.Machine
end
